-- ==== Sys2Proof/Word.lean ====
section
/-!
DEFINITION. The word types of the QK4 (R66, R93, R104).
-/

namespace Sys2Proof

/-- A byte. -/
abbrev Byte := BitVec 8
/-- A doubleword: a general register, a control register. -/
abbrev Word := BitVec 64
/-- A vector register (R66). -/
abbrev VWord := BitVec 1024
/-- A mask register (R66). -/
abbrev Mask := BitVec 256
/-- A row of an accumulator tile: 64 elements of 32 bits (R353). -/
abbrev TRow := BitVec 2048

end Sys2Proof
end

