-- ==== Sys2Proof/Machine/Crypto.lean ====
section
/-!
DEFINITION. SHAKE256 and the verification of a Falcon-1024 signature, which R431 and R432 name as functions of published standards (PRESUMED, log entry 62): FIPS 202, and the Falcon
submission to the NIST standardisation with n = 1,024, q = 12,289.
-/

namespace Sys2Proof.Machine

/-! ## SHAKE256 (FIPS 202) -/

/-- Bit j of the round constants: the feedback register x^8 + x^6 + x^5 + x^4 + 1, one step for each bit. -/
def rcStep (r : Nat) : Nat := if 128 ≤ r then (2 * r) % 256 ^^^ 0x71 else 2 * r

/-- The register after n steps from 1. -/
def rcReg : Nat → Nat
  | 0 => 1
  | n + 1 => rcStep (rcReg n)

/-- The constant of a round. -/
def roundConst (ir : Nat) : Word := (List.range 7).foldl (fun x j => if rcReg (j + 7 * ir) % 2 = 1 then x ||| BitVec.ofNat 64 (2 ^ (2 ^ j - 1)) else x) 0

/-- Lane (x, y) of a state of 25 lanes. -/
def lane (a : List Word) (x y : Nat) : Word := a.getD (x % 5 + 5 * (y % 5)) 0

/-- A state from a function of x and y. -/
def lanes (f : Nat → Nat → Word) : List Word := (List.range 25).map fun i => f (i % 5) (i / 5)

/-- Rotation offsets of rho, by x + 5y. -/
def rhoOffsets : List Nat := [0, 1, 62, 28, 27, 36, 44, 6, 55, 20, 3, 10, 43, 25, 39, 41, 45, 15, 21, 8, 18, 2, 61, 56, 14]

/-- theta: every lane with the parities of two columns. -/
def theta (a : List Word) : List Word :=
  let c := (List.range 5).map fun x => lane a x 0 ^^^ lane a x 1 ^^^ lane a x 2 ^^^ lane a x 3 ^^^ lane a x 4
  lanes fun x y => lane a x y ^^^ c.getD ((x + 4) % 5) 0 ^^^ (c.getD ((x + 1) % 5) 0).rotateLeft 1

/-- rho, then pi. -/
def rhoPi (a : List Word) : List Word := lanes fun x y =>
  let u := (x + 3 * y) % 5
  (lane a u x).rotateLeft (rhoOffsets.getD (u + 5 * x) 0)

/-- chi. -/
def chi (a : List Word) : List Word := lanes fun x y => lane a x y ^^^ (~~~(lane a (x + 1) y) &&& lane a (x + 2) y)

/-- One round: theta, rho, pi, chi, iota. -/
def keccakRound (a : List Word) (ir : Nat) : List Word := (chi (rhoPi (theta a))).modify 0 (· ^^^ roundConst ir)

/-- Keccak-f[1600]. -/
def keccakF (a : List Word) : List Word := (List.range 24).foldl keccakRound a

/-- Lanes of little-endian bytes. -/
def laneOf (l : List Byte) : Word := BitVec.ofNat 64 (l.foldr (fun b r => b.toNat + 256 * r) 0)

/-- Bytes of a block of SHAKE256. -/
def shakeRate : Nat := 136

/-- The block xored into the state. -/
def absorbBlock (a : List Word) (block : List Byte) : List Word :=
  keccakF (a.zipIdx.map fun e => if e.2 < shakeRate / 8 then e.1 ^^^ laneOf ((block.drop (8 * e.2)).take 8) else e.1)

/-- A message with the suffix 1111 of SHAKE and the padding 10*1, in whole blocks. -/
def shakePad (l : List Byte) : List Byte :=
  let z := shakeRate - 1 - l.length % shakeRate
  if z = 0 then l ++ [0x9F] else l ++ [0x1F] ++ List.replicate (z - 1) 0 ++ [0x80]

/-- n blocks of a padded message absorbed. -/
def absorb : Nat → List Byte → List Word → List Word
  | 0, _, a => a
  | n + 1, l, a => absorb n (l.drop shakeRate) (absorbBlock a (l.take shakeRate))

/-- The bytes of the lanes that a block of output shows. -/
def squeezeBlock (a : List Word) : List Byte :=
  (a.take (shakeRate / 8)).flatMap fun x => (List.range 8).map fun i => BitVec.ofNat 8 (x.toNat / 256 ^ i)

/-- n blocks of output. -/
def squeeze : Nat → List Word → List Byte
  | 0, _ => []
  | n + 1, a => squeezeBlock a ++ squeeze n (keccakF a)

/-- SHAKE256 of a byte string to n bytes. -/
def shake256 (l : List Byte) (n : Nat) : List Byte :=
  let p := shakePad l
  (squeeze ((n + shakeRate - 1) / shakeRate) (absorb (p.length / shakeRate) p (List.replicate 25 0))).take n

/-! ## Falcon-1024 -/

/-- q. -/
def falconQ : Nat := 12289
/-- n. -/
def falconN : Nat := 1024
/-- The bound on the squared norm of a signature. -/
def falconBound : Nat := 70265242

/-- The bits of a byte string, the highest of each byte first. -/
def bitsOf (l : List Byte) : List Bool := l.flatMap fun b => (List.range 8).map fun i => b.getLsbD (7 - i)

/-- A number from bits, the highest first. -/
def ofBits (l : List Bool) : Nat := l.foldl (fun n b => 2 * n + (if b then 1 else 0)) 0

/-- n coefficients of 14 bits; none where one is q or more. -/
def keyCoeffs : Nat → List Bool → Option (List Nat)
  | 0, l => if l.isEmpty then some [] else none
  | n + 1, l =>
    let x := ofBits (l.take 14)
    if l.length < 14 ∨ falconQ ≤ x then none else (keyCoeffs n (l.drop 14)).map fun r => x :: r

/-- The polynomial h of a public key of 1,793 bytes. -/
def falconKey (key : List Byte) : Option (List Nat) := match key with
  | [] => none
  | b :: t => if b = 0x0A then keyCoeffs falconN (bitsOf t) else none

/-- The zeros before the next one, and what follows it. -/
def unary : List Bool → Option (Nat × List Bool)
  | [] => none
  | true :: t => some (0, t)
  | false :: t => (unary t).map fun e => (e.1 + 1, e.2)

/-- n compressed coefficients: a sign, 7 low bits, the rest in unary; none for a second zero, an absolute value above 2,047, or bits that are left and are not a zero part of a byte. -/
def sigCoeffs : Nat → List Bool → Option (List Int)
  | 0, l => if l.length < 8 ∧ l.all (!·) then some [] else none
  | n + 1, l =>
    if l.length < 8 then none
    else match unary (l.drop 8) with
      | none => none
      | some (k, rest) =>
        let m := ofBits ((l.drop 1).take 7) + 128 * k
        let neg := (l.head?).getD false
        if 2047 < m ∨ (neg = true ∧ m = 0) then none
        else (sigCoeffs n rest).map fun r => (if neg then -(m : Int) else m) :: r

/-- Points from 16-bit samples, the high byte first; one of 61,445 or more is passed over. -/
def points : List Byte → List Nat
  | a :: b :: t => (if 256 * a.toNat + b.toNat < 61445 then [(256 * a.toNat + b.toNat) % falconQ] else []) ++ points t
  | _ => []

/-- The point that a nonce and a message hash to: 1,024 coefficients, from the first 65,536 samples, of which all but one in 16 are points. -/
def hashToPoint (nonce msg : List Byte) : List Nat := (points (shake256 (nonce ++ msg) 131072)).take falconN

/-- Coefficient i of the product of two polynomials modulo x^n + 1. -/
def mulCoeff (a : List Int) (b : List Nat) (i : Nat) : Int :=
  (a.zipIdx.map fun e => let (x, j) := e
    if j ≤ i then x * (b.getD (i - j) 0 : Nat) else -(x * (b.getD (falconN + i - j) 0 : Nat))).foldl (· + ·) 0

/-- A number modulo q between -q/2 and q/2. -/
def centred (x : Int) : Int := let y := x % (falconQ : Int); if (falconQ : Int) < 2 * y then y - falconQ else y

/-- The squared norm of a polynomial. -/
def normSq (l : List Int) : Int := (l.map fun x => x * x).foldl (· + ·) 0

/-- Falcon-1024 verification of a signature of a message: its first byte, a nonce of 40 bytes, and the compressed polynomial. -/
def falconVerify (key msg sig : List Byte) : Bool :=
  match falconKey key, sig with
  | some h, b :: t =>
    match if b = 0x3A ∧ 40 ≤ t.length then sigCoeffs falconN (bitsOf (t.drop 40)) else none with
    | none => false
    | some s2 =>
      let c := hashToPoint (t.take 40) msg
      let s1 := c.zipIdx.map fun e => centred ((e.1 : Int) - mulCoeff s2 h e.2)
      c.length == falconN && decide (normSq s1 + normSq s2 ≤ falconBound)
  | _, _ => false

end Sys2Proof.Machine
end

