-- ==== Sys2Proof/Syntax.lean ====
section
/-!
DEFINITION. The instruction set of the QK4 as data: operand forms, coded fields, and one constructor per row of the
opcode table. The first 224 rows are the instructions of OP 0x00 to 0x7E; the rows from MODULE_RESET on are the steps
of the other agents of the module. What each does is in Machine/.
-/

namespace Sys2Proof

/-- A general register g0 to g63 (R105). -/
abbrev GReg := Fin 64
/-- A vector register v0 to v15 (R105). -/
abbrev VReg := Fin 16
/-- An accumulator tile z0 to z3 (R105). -/
abbrev ZReg := Fin 4
/-- A halyard channel b0 to b7 (R105). -/
abbrev BReg := Fin 8
/-- A predicate register p0 to p7 named in a function field. -/
abbrev PReg := Fin 8
/-- A stream operand (R317): 0 to 15 name g32 to g47, 16 to 23 name v8 to v15. -/
abbrev SOpd := Fin 24
/-- A mask operand (R105): m0 to m3, then p0 to p7. -/
inductive MOpd where
  | m (i : Fin 4)
  | p (i : Fin 8)
  deriving DecidableEq, Repr

/-- A general register that is read, with its T bit (R71). -/
structure GSrc where
  r : GReg
  t : Bool
  deriving DecidableEq, Repr

/-- A vector register that is read, with its T bit (R71). -/
structure VSrc where
  r : VReg
  t : Bool
  deriving DecidableEq, Repr

/-- A tile register that is read, with its T bit (R71). -/
structure ZSrc where
  r : ZReg
  t : Bool
  deriving DecidableEq, Repr

/-- The access size of R133. -/
inductive Size where
  | b | h | w | d
  deriving DecidableEq, Repr

/-- The element size of R286 and R287. -/
inductive ESize where
  | b | h | w
  deriving DecidableEq, Repr

/-- The condition of format B (R110). -/
inductive Cond where
  | eq | ne | lt | ge | ltu | geu | z | nz
  deriving DecidableEq, Repr

/-- The annul mode of format B (R110). -/
inductive Annul where
  | none | notTaken | taken
  deriving DecidableEq, Repr

/-- The scope of a fence or of VIS (R136, R200). -/
inductive Scope where
  | core | oct | clu | die | mod | pod
  deriving DecidableEq, Repr

/-- The element type of a vector form (R331). -/
inductive VType where
  | i8 | n8 | i16 | n16 | i32 | n32 | f16 | bf16 | f32 | e4m3 | e5m2
  deriving DecidableEq, Repr

/-- The field type of a query-set form (R302). -/
inductive QType where
  | n8 | i8 | n16 | i16 | n32 | i32 | i64 | f32
  deriving DecidableEq, Repr

/-- The condition of QCMP (R308). -/
inductive QCond where
  | eq | ne | lt | ge | le | gt | tst | ntst
  deriving DecidableEq, Repr

/-- The condition of VCMP (R339). -/
inductive VCond where
  | eq | ne | lt | ge | le | gt
  deriving DecidableEq, Repr

/-- The type of an update pair (R295). -/
inductive UType where
  | i32 | i64 | f32
  deriving DecidableEq, Repr

/-- The level of PREF (R292). -/
inductive PLevel where
  | l1 | l2
  deriving DecidableEq, Repr

/-- The operator of VSCAN (R332). -/
inductive ScanOp where
  | add | min | max | or
  deriving DecidableEq, Repr

/-- The order of VSORT (R332). -/
inductive SortOrd where
  | asc | desc
  deriving DecidableEq, Repr

/-- The control register (R77). -/
inductive CReg where
  | pc | n1 | n2 | anul | status | qgd | ssb | ssl | uivec | uitag | uicause | fmode | fflags | streammap | issuepol | greedylim | csap | deleg | epoch | meetwin | time
  deriving DecidableEq, Repr

/-- The completion mode of an engine command (R373): nothing, a user-level interrupt, or a deferred arrival on a channel. -/
inductive EngMode where
  | none | ui | arr (ch : BReg)
  deriving DecidableEq, Repr

/-- The kind of a link of the module (R489). -/
inductive LinkKind where
  | host | fabric | cxl | dieLink | management
  deriving DecidableEq, Repr

/-- One constructor per row of the opcode table: an instruction with its operands, or an event; the numbers an event carries (which unit, what data)
are the operands of the posted event, which State holds while it is performed (log entry 10). -/
inductive Instr where
  /-- NOP (R267). -/
  | nop
  /-- RETIRE (R268). -/
  | retire
  /-- YLD (R267). -/
  | yld
  /-- RET (R265). -/
  | ret
  /-- JR (R265). -/
  | jr (a : GSrc)
  /-- CALLR (R265). -/
  | callr (a : GSrc)
  /-- J (R264). -/
  | j (imm : BitVec 32)
  /-- CALL (R264). -/
  | call (imm : BitVec 32)
  /-- B_CC (R263). -/
  | bcc (a : GSrc) (b : GSrc) (cc : Cond) (an : Annul) (hidx : BitVec 5) (loff : BitVec 13)
  /-- START (R269). -/
  | start (d : GReg) (a : GSrc) (imm : BitVec 20)
  /-- SPLIT (R270). -/
  | split (d : GReg) (a : MOpd) (imm : BitVec 20)
  /-- WAITF (R271). -/
  | waitf
  /-- ADD (R272). -/
  | add (d : GReg) (a : GSrc) (b : GSrc)
  /-- SUB (R272). -/
  | sub (d : GReg) (a : GSrc) (b : GSrc)
  /-- ADD_W (R272). -/
  | addW (d : GReg) (a : GSrc) (b : GSrc)
  /-- SUB_W (R272). -/
  | subW (d : GReg) (a : GSrc) (b : GSrc)
  /-- AND (R272). -/
  | and (d : GReg) (a : GSrc) (b : GSrc)
  /-- OR (R272). -/
  | or (d : GReg) (a : GSrc) (b : GSrc)
  /-- XOR (R272). -/
  | xor (d : GReg) (a : GSrc) (b : GSrc)
  /-- ANDN (R272). -/
  | andn (d : GReg) (a : GSrc) (b : GSrc)
  /-- SHL (R272). -/
  | shl (d : GReg) (a : GSrc) (b : GSrc)
  /-- SHR (R272). -/
  | shr (d : GReg) (a : GSrc) (b : GSrc)
  /-- SRA (R272). -/
  | sra (d : GReg) (a : GSrc) (b : GSrc)
  /-- ROL (R272). -/
  | rol (d : GReg) (a : GSrc) (b : GSrc)
  /-- MUL (R272). -/
  | mul (d : GReg) (a : GSrc) (b : GSrc)
  /-- MULH (R272). -/
  | mulh (d : GReg) (a : GSrc) (b : GSrc)
  /-- MULHU (R272). -/
  | mulhu (d : GReg) (a : GSrc) (b : GSrc)
  /-- MUL_W (R272). -/
  | mulW (d : GReg) (a : GSrc) (b : GSrc)
  /-- DIV (R272). -/
  | div (d : GReg) (a : GSrc) (b : GSrc)
  /-- DIVU (R272). -/
  | divu (d : GReg) (a : GSrc) (b : GSrc)
  /-- REM (R272). -/
  | rem (d : GReg) (a : GSrc) (b : GSrc)
  /-- REMU (R272). -/
  | remu (d : GReg) (a : GSrc) (b : GSrc)
  /-- MIN (R272). -/
  | min (d : GReg) (a : GSrc) (b : GSrc)
  /-- MAX (R272). -/
  | max (d : GReg) (a : GSrc) (b : GSrc)
  /-- MINU (R272). -/
  | minu (d : GReg) (a : GSrc) (b : GSrc)
  /-- MAXU (R272). -/
  | maxu (d : GReg) (a : GSrc) (b : GSrc)
  /-- SLT (R272). -/
  | slt (d : GReg) (a : GSrc) (b : GSrc)
  /-- SLTU (R272). -/
  | sltu (d : GReg) (a : GSrc) (b : GSrc)
  /-- SEQ (R272). -/
  | seq (d : GReg) (a : GSrc) (b : GSrc)
  /-- SNE (R272). -/
  | sne (d : GReg) (a : GSrc) (b : GSrc)
  /-- CLZ (R273). -/
  | clz (d : GReg) (a : GSrc)
  /-- CTZ (R273). -/
  | ctz (d : GReg) (a : GSrc)
  /-- POPC (R273). -/
  | popc (d : GReg) (a : GSrc)
  /-- BREV (R273). -/
  | brev (d : GReg) (a : GSrc)
  /-- SEXT_B (R273). -/
  | sextB (d : GReg) (a : GSrc)
  /-- SEXT_H (R273). -/
  | sextH (d : GReg) (a : GSrc)
  /-- SEXT_W (R273). -/
  | sextW (d : GReg) (a : GSrc)
  /-- BSWAP (R273). -/
  | bswap (d : GReg) (a : GSrc)
  /-- ABS (R273). -/
  | abs (d : GReg) (a : GSrc)
  /-- NEG (R273). -/
  | neg (d : GReg) (a : GSrc)
  /-- ADDI (R274). -/
  | addi (d : GReg) (a : GSrc) (imm : BitVec 20)
  /-- ANDI (R274). -/
  | andi (d : GReg) (a : GSrc) (imm : BitVec 20)
  /-- ORI (R274). -/
  | ori (d : GReg) (a : GSrc) (imm : BitVec 20)
  /-- XORI (R274). -/
  | xori (d : GReg) (a : GSrc) (imm : BitVec 20)
  /-- SHLI (R274). -/
  | shli (d : GReg) (a : GSrc) (sh : BitVec 6)
  /-- SHRI (R274). -/
  | shri (d : GReg) (a : GSrc) (sh : BitVec 6)
  /-- SRAI (R274). -/
  | srai (d : GReg) (a : GSrc) (sh : BitVec 6)
  /-- ROLI (R274). -/
  | roli (d : GReg) (a : GSrc) (sh : BitVec 6)
  /-- SLTI (R274). -/
  | slti (d : GReg) (a : GSrc) (imm : BitVec 20)
  /-- SLTIU (R274). -/
  | sltiu (d : GReg) (a : GSrc) (imm : BitVec 20)
  /-- LI (R275). -/
  | li (d : GReg) (imm : BitVec 32)
  /-- LIH (R275). -/
  | lih (d : GReg) (imm : BitVec 32)
  /-- ADDPC (R276). -/
  | addpc (d : GReg) (imm : BitVec 20)
  /-- BFX (R277). -/
  | bfx (d : GReg) (a : GSrc) (len : BitVec 6) (pos : BitVec 6)
  /-- BFXU (R277). -/
  | bfxu (d : GReg) (a : GSrc) (len : BitVec 6) (pos : BitVec 6)
  /-- BFI (R277). -/
  | bfi (d : GReg) (a : GSrc) (len : BitVec 6) (pos : BitVec 6)
  /-- CMOV (R278). -/
  | cmov (d : GReg) (a : GSrc) (b : GSrc) (c : GSrc)
  /-- MADD (R278). -/
  | madd (d : GReg) (a : GSrc) (b : GSrc) (c : GSrc)
  /-- LD (R282). -/
  | ld (d : GReg) (a : GSrc) (sz : Size) (u : Bool) (acq : Bool) (disp : BitVec 20)
  /-- ST (R283). -/
  | st (d : GReg) (a : GSrc) (sz : Size) (rel : Bool) (disp : BitVec 20)
  /-- LDX (R284). -/
  | ldx (d : GReg) (a : GSrc) (b : GSrc) (sh : BitVec 3) (sz : Size) (u : Bool) (acq : Bool)
  /-- STX (R284). -/
  | stx (d : GReg) (a : GSrc) (b : GSrc) (sh : BitVec 3) (sz : Size) (rel : Bool)
  /-- LDV (R285). -/
  | ldv (d : VReg) (a : GSrc) (disp : BitVec 20)
  /-- STV (R285). -/
  | stv (d : VReg) (a : GSrc) (disp : BitVec 20)
  /-- LDVS (R286). -/
  | ldvs (d : VReg) (a : GSrc) (b : GSrc) (pr : Option PReg) (sz : ESize)
  /-- STVS (R286). -/
  | stvs (d : VReg) (a : GSrc) (b : GSrc) (pr : Option PReg) (sz : ESize)
  /-- GATH (R287). -/
  | gath (d : VReg) (a : GSrc) (b : VSrc) (pr : Option PReg) (sc : BitVec 2) (u : Bool) (sz : ESize)
  /-- SCATV (R287). -/
  | scatv (d : VReg) (a : GSrc) (b : VSrc) (pr : Option PReg) (sc : BitVec 2) (sz : ESize)
  /-- LDF (R288). -/
  | ldf (d : GReg) (a : GSrc) (c : GReg)
  /-- STF (R289). -/
  | stf (d : GReg) (a : GSrc)
  /-- CLRF (R289). -/
  | clrf (a : GSrc)
  /-- SWAP (R290). -/
  | swap (d : GReg) (a : GSrc) (b : GSrc) (dw : Bool)
  /-- CAS (R290). -/
  | cas (d : GReg) (a : GSrc) (b : GSrc) (c : GSrc) (dw : Bool)
  /-- FADD (R290). -/
  | fadd (d : GReg) (a : GSrc) (b : GSrc) (dw : Bool)
  /-- FENCE_FULL (R291). -/
  | fenceFull (sc : Scope)
  /-- FENCE_ACQ (R291). -/
  | fenceAcq (sc : Scope)
  /-- FENCE_REL (R291). -/
  | fenceRel (sc : Scope)
  /-- FENCE_ENG (R291). -/
  | fenceEng (sc : Scope)
  /-- FENCE_INSN (R291). -/
  | fenceInsn
  /-- PREF (R292). -/
  | pref (a : GSrc) (lv : PLevel) (w : Bool) (disp : BitVec 20)
  /-- WMAP (R293). -/
  | wmap (d : GReg) (a : GSrc) (b : GSrc) (c : GSrc) (w : BitVec 3)
  /-- WUNMAP (R294). -/
  | wunmap (w : BitVec 3)
  /-- WFLUSH (R294). -/
  | wflush (w : BitVec 3)
  /-- WINV (R294). -/
  | winv (w : BitVec 3)
  /-- UPD (R295). -/
  | upd (a : GSrc) (b : GSrc) (ty : UType)
  /-- UPDV (R296). -/
  | updv (a : GSrc) (b : VSrc) (c : VSrc) (pr : Option PReg) (sc : BitVec 2) (ty : UType)
  /-- UREG (R297). -/
  | ureg (d : GReg) (a : GSrc)
  /-- UREG_REL (R297). -/
  | uregRel (d : GReg) (a : GSrc)
  /-- UFLUSH (R298). -/
  | uflush (a : GSrc)
  /-- UWAIT (R298). -/
  | uwait
  /-- QGSET (R306). -/
  | qgset (a : GSrc) (b : MOpd)
  /-- LDNM (R307). -/
  | ldnm (d : VReg) (a : GSrc) (tag : BitVec 20)
  /-- QCMP (R308). -/
  | qcmp (d : MOpd) (a : GSrc) (off : BitVec 12) (ty : QType) (cc : QCond)
  /-- QADD (R309). -/
  | qadd (a : GSrc) (off : BitVec 12) (ty : QType)
  /-- QADDI (R309). -/
  | qaddi (off : BitVec 12) (ty : QType) (imm : BitVec 5)
  /-- QFADD (R309). -/
  | qfadd (a : GSrc) (off : BitVec 12)
  /-- QST (R310). -/
  | qst (a : GSrc) (off : BitVec 12) (ty : QType)
  /-- QLD (R310). -/
  | qld (d : GReg) (off : BitVec 12) (ty : QType)
  /-- QGATH (R311). -/
  | qgath (d : VReg) (a : GSrc) (k : BitVec 3) (ty : QType)
  /-- QSCAT (R311). -/
  | qscat (d : VReg) (a : GSrc) (k : BitVec 3) (ty : QType)
  /-- MAND (R312). -/
  | mand (d : MOpd) (a : MOpd) (b : MOpd)
  /-- MOR (R312). -/
  | mor (d : MOpd) (a : MOpd) (b : MOpd)
  /-- MXOR (R312). -/
  | mxor (d : MOpd) (a : MOpd) (b : MOpd)
  /-- MANDN (R312). -/
  | mandn (d : MOpd) (a : MOpd) (b : MOpd)
  /-- MPOPC (R313). -/
  | mpopc (d : GReg) (a : MOpd)
  /-- MFIRST (R313). -/
  | mfirst (d : GReg) (a : MOpd)
  /-- MTEST (R313). -/
  | mtest (d : GReg) (a : MOpd)
  /-- MSET (R314). -/
  | mset (d : MOpd)
  /-- MCLR (R314). -/
  | mclr (d : MOpd)
  /-- MMOV (R314). -/
  | mmov (d : MOpd) (a : MOpd)
  /-- MFROMG (R314). -/
  | mfromg (d : MOpd) (a : GSrc) (q : Fin 4)
  /-- MTOG (R314). -/
  | mtog (d : GReg) (a : MOpd) (q : Fin 4)
  /-- SOPEN_A (R319). -/
  | sopenA (d : SOpd) (a : GSrc) (out : Bool)
  /-- SOPEN_F (R319). -/
  | sopenF (d : SOpd) (a : GSrc) (out : Bool)
  /-- SADV (R325). -/
  | sadv (d : SOpd) (a : GSrc) (imm : BitVec 20)
  /-- SADVTO (R325). -/
  | sadvto (d : SOpd) (a : GSrc) (imm : BitVec 20)
  /-- STEND (R326). -/
  | stend (d : GReg) (a : SOpd)
  /-- SCLOSE (R326). -/
  | sclose (a : SOpd)
  /-- SPEEK (R326). -/
  | speek (d : GReg) (a : SOpd)
  /-- SISECT (R327). -/
  | sisect (d : GReg) (a : GReg) (b : GReg) (c : GReg)
  /-- SMERGE (R328). -/
  | smerge (d : GReg) (a : GReg) (b : GReg)
  /-- VADD (R336). -/
  | vadd (d : VReg) (a : VSrc) (b : VSrc) (ty : VType) (pr : Option PReg)
  /-- VSUB (R336). -/
  | vsub (d : VReg) (a : VSrc) (b : VSrc) (ty : VType) (pr : Option PReg)
  /-- VMUL (R336). -/
  | vmul (d : VReg) (a : VSrc) (b : VSrc) (ty : VType) (pr : Option PReg)
  /-- VMULH (R336). -/
  | vmulh (d : VReg) (a : VSrc) (b : VSrc) (ty : VType) (pr : Option PReg)
  /-- VMIN (R336). -/
  | vmin (d : VReg) (a : VSrc) (b : VSrc) (ty : VType) (pr : Option PReg)
  /-- VMAX (R336). -/
  | vmax (d : VReg) (a : VSrc) (b : VSrc) (ty : VType) (pr : Option PReg)
  /-- VABSD (R336). -/
  | vabsd (d : VReg) (a : VSrc) (b : VSrc) (ty : VType) (pr : Option PReg)
  /-- VFMA (R337). -/
  | vfma (d : VReg) (a : VSrc) (b : VSrc) (ty : VType) (pr : Option PReg)
  /-- VFMS (R337). -/
  | vfms (d : VReg) (a : VSrc) (b : VSrc) (ty : VType) (pr : Option PReg)
  /-- VAND (R338). -/
  | vand (d : VReg) (a : VSrc) (b : VSrc) (ty : VType) (pr : Option PReg)
  /-- VOR (R338). -/
  | vor (d : VReg) (a : VSrc) (b : VSrc) (ty : VType) (pr : Option PReg)
  /-- VXOR (R338). -/
  | vxor (d : VReg) (a : VSrc) (b : VSrc) (ty : VType) (pr : Option PReg)
  /-- VANDN (R338). -/
  | vandn (d : VReg) (a : VSrc) (b : VSrc) (ty : VType) (pr : Option PReg)
  /-- VSHL (R338). -/
  | vshl (d : VReg) (a : VSrc) (b : VSrc) (ty : VType) (pr : Option PReg)
  /-- VSHR (R338). -/
  | vshr (d : VReg) (a : VSrc) (b : VSrc) (ty : VType) (pr : Option PReg)
  /-- VSRA (R338). -/
  | vsra (d : VReg) (a : VSrc) (b : VSrc) (ty : VType) (pr : Option PReg)
  /-- VCMP (R339). -/
  | vcmp (d : MOpd) (a : VSrc) (b : VSrc) (cc : VCond) (ty : VType) (pr : Option PReg)
  /-- VSEL (R339). -/
  | vsel (d : VReg) (a : VSrc) (b : VSrc) (ty : VType) (pr : PReg)
  /-- VBCAST (R340). -/
  | vbcast (d : VReg) (a : GSrc) (ty : VType) (pr : Option PReg)
  /-- VEXTR (R340). -/
  | vextr (d : GReg) (a : VSrc) (b : GSrc) (ty : VType)
  /-- VINS (R340). -/
  | vins (d : VReg) (a : GSrc) (b : GSrc) (ty : VType)
  /-- VPERM (R340). -/
  | vperm (d : VReg) (a : VSrc) (b : VSrc) (ty : VType) (pr : Option PReg)
  /-- VROT (R340). -/
  | vrot (d : VReg) (a : VSrc) (b : GSrc) (ty : VType)
  /-- VREDADD (R343). -/
  | vredadd (d : GReg) (a : VSrc) (ty : VType) (pr : Option PReg)
  /-- VREDMIN (R343). -/
  | vredmin (d : GReg) (a : VSrc) (ty : VType) (pr : Option PReg)
  /-- VREDMAX (R343). -/
  | vredmax (d : GReg) (a : VSrc) (ty : VType) (pr : Option PReg)
  /-- VREDOR (R343). -/
  | vredor (d : GReg) (a : VSrc) (ty : VType) (pr : Option PReg)
  /-- VSCAN (R344). -/
  | vscan (d : VReg) (a : VSrc) (sop : ScanOp) (ty : VType) (pr : Option PReg)
  /-- VCVT (R342). -/
  | vcvt (d : VReg) (a : VSrc) (dt : VType) (ty : VType) (part : BitVec 2) (sat : Bool) (pr : Option PReg)
  /-- VCOMPRESS (R341). -/
  | vcompress (d : VReg) (a : VSrc) (ty : VType) (pr : PReg)
  /-- VEXPAND (R341). -/
  | vexpand (d : VReg) (a : VSrc) (ty : VType) (pr : PReg)
  /-- VSORT (R345). -/
  | vsort (d : VReg) (a : VSrc) (ord : SortOrd) (ty : VType) (pr : Option PReg)
  /-- VDOT4 (R346). -/
  | vdot4 (d : VReg) (a : VSrc) (b : VSrc) (ty : VType) (pr : Option PReg)
  /-- VRCP (R348). -/
  | vrcp (d : VReg) (a : VSrc) (ty : VType) (pr : Option PReg)
  /-- VRSQ (R348). -/
  | vrsq (d : VReg) (a : VSrc) (ty : VType) (pr : Option PReg)
  /-- VEXP2 (R348). -/
  | vexp2 (d : VReg) (a : VSrc) (ty : VType) (pr : Option PReg)
  /-- VLOG2 (R348). -/
  | vlog2 (d : VReg) (a : VSrc) (ty : VType) (pr : Option PReg)
  /-- VDIV (R347). -/
  | vdiv (d : VReg) (a : VSrc) (b : VSrc) (ty : VType) (pr : Option PReg)
  /-- VSQRT (R347). -/
  | vsqrt (d : VReg) (a : VSrc) (ty : VType) (pr : Option PReg)
  /-- BCENC (R349). -/
  | bcenc (d : VReg) (a : VSrc) (c : GReg) (ty : VType)
  /-- BCDEC (R350). -/
  | bcdec (d : VReg) (a : VSrc) (b : GSrc) (ty : VType)
  /-- MXCFG (R356). -/
  | mxcfg (a : GSrc)
  /-- MXMM (R360). -/
  | mxmm (d : ZReg) (a : GSrc) (b : GSrc) (k : BitVec 4)
  /-- MXMMS (R362). -/
  | mxmms (d : ZReg) (a : VSrc) (b : VSrc) (c : VSrc) (e : GSrc) (slab : BitVec 2)
  /-- MXPRUNE (R363). -/
  | mxprune (d : VReg) (a : VSrc) (b : VSrc) (q : BitVec 2)
  /-- MXZERO (R364). -/
  | mxzero (d : ZReg)
  /-- MXLD (R364). -/
  | mxld (d : ZReg) (a : GSrc) (b : GSrc)
  /-- MXST (R365). -/
  | mxst (a : GSrc) (b : GSrc) (c : ZSrc) (sat : Bool) (ty : VType)
  /-- ZRD (R366). -/
  | zrd (d : VReg) (a : ZSrc) (b : GSrc)
  /-- ZWR (R366). -/
  | zwr (d : ZReg) (a : VSrc) (b : GSrc)
  /-- MXWAIT (R367). -/
  | mxwait (d : ZReg)
  /-- MXREM (R368). -/
  | mxrem (a : GSrc)
  /-- CPY (R374). -/
  | cpy (d : GReg) (a : GSrc) (tag : BitVec 6) (md : EngMode)
  /-- CPYM (R374). -/
  | cpym (d : GReg) (a : GSrc) (tag : BitVec 6) (md : EngMode)
  /-- GATHR (R374). -/
  | gathr (d : GReg) (a : GSrc) (tag : BitVec 6) (md : EngMode)
  /-- SCATR (R374). -/
  | scatr (d : GReg) (a : GSrc) (tag : BitVec 6) (md : EngMode)
  /-- EMBAG (R374). -/
  | embag (d : GReg) (a : GSrc) (tag : BitVec 6) (md : EngMode)
  /-- COLL (R374). -/
  | coll (d : GReg) (a : GSrc) (tag : BitVec 6) (md : EngMode)
  /-- CPYWAIT (R384). -/
  | cpywait (d : GReg) (tag : BitVec 6) (vis : Bool)
  /-- CPYST (R385). -/
  | cpyst (d : GReg) (tag : BitVec 6)
  /-- CPYRES (R386). -/
  | cpyres (d : GReg) (tag : BitVec 6)
  /-- BARR (R389). -/
  | barr (d : BReg)
  /-- BWAIT (R390). -/
  | bwait (d : BReg)
  /-- BARRD (R391). -/
  | barrd (d : BReg) (a : GSrc)
  /-- BWANY (R392). -/
  | bwany (d : GReg) (a : GSrc)
  /-- BDOM (R388). -/
  | bdom (d : BReg) (a : GSrc)
  /-- MTXLK (R393). -/
  | mtxlk (n : BitVec 3)
  /-- MTXUL (R393). -/
  | mtxul (n : BitVec 3)
  /-- SEMP (R394). -/
  | semp (n : BitVec 3)
  /-- SEMV (R394). -/
  | semv (n : BitVec 3)
  /-- QCFG_SET (R395). -/
  | qcfgSet (a : GSrc) (q : BitVec 4)
  /-- QCFG_PUT (R395). -/
  | qcfgPut (a : GSrc) (q : BitVec 4)
  /-- QCFG_GET (R395). -/
  | qcfgGet (d : GReg) (q : BitVec 4)
  /-- SLICE (R397). -/
  | slice (d : GReg) (a : GSrc) (b : GSrc)
  /-- SJOIN (R398). -/
  | sjoin (d : GReg) (a : GSrc)
  /-- YIELDS (R399). -/
  | yields (a : GSrc) (b : GSrc)
  /-- WLAPP (R402). -/
  | wlapp (a : GSrc) (b : GSrc)
  /-- WLPOP (R403). -/
  | wlpop (d : GReg) (a : GSrc) (c : GReg) (nw : Bool)
  /-- WLQUIET (R404). -/
  | wlquiet (d : BReg)
  /-- SEND (R396). -/
  | send (a : GSrc) (b : GSrc)
  /-- SEND_E (R396). -/
  | sendE (a : GSrc) (b : GSrc)
  /-- TRAP (R410). -/
  | trap (n : BitVec 20)
  /-- ERET (R411). -/
  | eret
  /-- UIRET (R411). -/
  | uiret
  /-- MFCR (R412). -/
  | mfcr (d : GReg) (cr : CReg)
  /-- MTCR (R412). -/
  | mtcr (a : GSrc) (cr : CReg)
  /-- TLBINV_PAGE (R413). -/
  | tlbinvPage (d : GReg) (a : GSrc)
  /-- TLBINV_ASID (R413). -/
  | tlbinvAsid (d : GReg)
  /-- TLBINV_ALL (R413). -/
  | tlbinvAll
  /-- CSAVE (R414). -/
  | csave (d : GReg) (a : GSrc)
  /-- CRSTR (R414). -/
  | crstr (d : GReg) (a : GSrc)
  /-- BIST (R415). -/
  | bist (d : GReg) (a : GSrc)
  /-- WFI (R416). -/
  | wfi
  /-- MODULE_RESET (R430). -/
  | moduleReset
  /-- BOOT_ROM_FALLBACK (R430). -/
  | bootRomFallback
  /-- BOOT_IMAGE_VERIFY (R431). -/
  | bootImageVerify
  /-- BOOT_RETRY (R492). -/
  | bootRetry
  /-- DISPATCH_PLACE (R243). Operands: cl. -/
  | dispatchPlace
  /-- CONTEXT_STARTING_END (R33). Operands: k, x. -/
  | contextStartingEnd
  /-- HELPER_RETIRE_COMPLETE (R38). Operands: k, x. -/
  | helperRetireComplete
  /-- SLICE_END (R39). Operands: k. -/
  | sliceEnd
  /-- JOIN_CONTINUATION_ENQUEUE (R240). Operands: k, pa, join, free. -/
  | joinContinuationEnqueue
  /-- DUAL_SIGNATURE_COMPARE (R249). Operands: k. -/
  | dualSignatureCompare
  /-- HELD_RECORD_ENQUEUE (R469). Operands: cl. -/
  | heldRecordEnqueue
  /-- ENERGY_WINDOW (R251). Operands: die. -/
  | energyWindow
  /-- BUDGET_TRAP (R246). Operands: k. -/
  | budgetTrap
  /-- CONTEXT_STOP (R414). Operands: k, x. -/
  | contextStop
  /-- YARD_REQUEST_ACCEPT (R46). Operands: cl. -/
  | yardRequestAccept
  /-- YARD_ENTRY_RESOLVE (R47). Operands: cl. -/
  | yardEntryResolve
  /-- PRODUCER_COMPLETE (R70). Operands: k, x. -/
  | producerComplete
  /-- LDF_DEFERRED_ANSWER (R288). Operands: k, x. -/
  | ldfDeferredAnswer
  /-- BARRIER_PHASE_COMPLETE (R60). Operands: k, ch. -/
  | barrierPhaseComplete
  /-- COPY_SRC_EVENT (R212). Operands: k, tag. -/
  | copySrcEvent
  /-- COPY_VIS_EVENT (R212). Operands: k, tag. -/
  | copyVisEvent
  /-- ENGINE_DOORBELL (R395). Operands: k, q. -/
  | engineDoorbell
  /-- COPY_FAULT (R472). Operands: k, tag. -/
  | copyFault
  /-- COPY_FAULT_ENTRY (R452). Operands: k, x. -/
  | copyFaultEntry
  /-- COPY_COMPLETION_INTERRUPT (R387). Operands: k, x. -/
  | copyCompletionInterrupt
  /-- POISONED_DATA_FAULT (R453). Operands: k, x. -/
  | poisonedDataFault
  /-- MACHINE_CHECK (R457). Operands: mz. -/
  | machineCheck
  /-- STREAM_REFILL (R323). Operands: k, x, slot. -/
  | streamRefill
  /-- UPDATE_BUFFER_DRAIN (R226). Operands: k. -/
  | updateBufferDrain
  /-- U_GRANT_REQUEST (R228). Operands: k, pa. -/
  | uGrantRequest
  /-- U_GRANT_RETURN (R227). Operands: k, pa. -/
  | uGrantReturn
  /-- BUSHEL_PAIR_ACCEPT (R229). Operands: die, sl. -/
  | bushelPairAccept
  /-- BIN_PAGE_APPLY (R234). Operands: page. -/
  | binPageApply
  /-- HOME_READ_REQUEST (R179). Operands: k, pa, len, attr. -/
  | homeReadRequest
  /-- HOME_OWNERSHIP_REQUEST (R179). Operands: k, pa, len. -/
  | homeOwnershipRequest
  /-- HOME_ATOMIC (R290). Operands: op, pa, x, y. -/
  | homeAtomic
  /-- WRITE_BACK_ARRIVAL (R181). Operands: k, pa. -/
  | writeBackArrival
  /-- SHROUD_SNOOP (R185). Operands: die, pa, len, inv. -/
  | shroudSnoop
  /-- FILL_RETURN (R187). Operands: k, pa, attr. -/
  | fillReturn
  /-- PAGE_WALK_COMPLETE (R175). Operands: cl, asid, va. -/
  | pageWalkComplete
  /-- MXU_OPERATION_START (R359). Operands: o. -/
  | mxuOperationStart
  /-- MXU_OPERATION_COMPLETE (R359). Operands: o. -/
  | mxuOperationComplete
  /-- MXREM_COMMAND_ARRIVAL (R369). Operands: o. -/
  | mxremCommandArrival
  /-- GUEST_COMMAND_COMPLETE (R369). Operands: o. -/
  | guestCommandComplete
  /-- SEND_PACKET_DELIVER (R396). Operands: k. -/
  | sendPacketDeliver
  /-- WORKLIST_APPEND_ARRIVAL (R402). Operands: cl, list, asid, item, k, x. -/
  | worklistAppendArrival
  /-- WORKLIST_QUIESCENCE (R404). Operands: k, ch. -/
  | worklistQuiescence
  /-- LAUNCH_PACKET (R427). Operands: src, pkt. -/
  | launchPacket
  /-- RESIDENCY_REPORT (R258). -/
  | residencyReport
  /-- CORE_ENTER_C2 (R255). Operands: k. -/
  | coreEnterC2
  /-- CLUSTER_ENTER_C3 (R255). Operands: cl. -/
  | clusterEnterC3
  /-- DIE_ENTER_C4 (R255). Operands: die. -/
  | dieEnterC4
  /-- UNIT_WAKE (R257). Operands: k. -/
  | unitWake
  /-- WAKE_EXIT_LATENCY_END (R480). Operands: k, windows. -/
  | wakeExitLatencyEnd
  /-- HOST_LTR_MESSAGE (R256). Operands: link, snoop, nosnoop. -/
  | hostLtrMessage
  /-- HOST_BAR_ACCESS (R421). Operands: link, op, off, x. -/
  | hostBarAccess
  /-- PEER_REQUEST_ARRIVAL (R424). Operands: op, pa, x, y. -/
  | peerRequestArrival
  /-- PEER_REQUEST_TIMEOUT (R489). Operands: k, x. -/
  | peerRequestTimeout
  /-- LINK_FAILURE (R489). Operands: lk, i, j. -/
  | linkFailure
  /-- SUPPLY_DROOP (R490). Operands: die. -/
  | supplyDroop
  /-- DIE_OVERTEMP_CLOCK_LIMIT (R491). Operands: die. -/
  | dieOvertempClockLimit
  /-- THERMAL_TRIP (R491). Operands: die. -/
  | thermalTrip
  /-- BIST_COMPLETE (R415). Operands: mz. -/
  | bistComplete
  /-- LANEMARG_START (R433). Operands: u. -/
  | lanemargStart
  /-- LANE_MARGIN_DONE (R433). Operands: u. -/
  | laneMarginDone
  /-- BIN_CONFIG_WRITE (R232). Operands: die, off, x. -/
  | binConfigWrite
  /-- MBX_READ_DEFECT_MAP (R428). -/
  | mbxReadDefectMap
  /-- MBX_ATTESTATION_REPORT (R432). -/
  | mbxAttestationReport
  /-- MBX_SET_MARGINV (R428). -/
  | mbxSetMarginv
  /-- MBX_SEND_UET (R428). -/
  | mbxSendUet
  /-- MBX_IDENTITY_CERTIFICATE (R428). -/
  | mbxIdentityCertificate
  /-- REGISTER_WRITE (R419). Operands: lvl, pa, x. -/
  | registerWrite
  /-- DROOP_CLOCK_STEP_END (R490). Operands: die. -/
  | droopClockStepEnd
  /-- OVERTEMP_CLOCK_LIMIT_END (R491). Operands: die. -/
  | overtempClockLimitEnd
  /-- POWER_ON (R490). -/
  | powerOn
  /-- LINK_TRAINING (R420). Operands: lk, i, j, width. -/
  | linkTraining
  /-- DHCPV6_REPLY (R430). -/
  | dhcpv6Reply
  /-- BOOT_FETCH_FAILURE (R492). Operands: reason. -/
  | bootFetchFailure
  /-- CONTEXT_RESTORE_COMPLETE (R414). Operands: k, x. -/
  | contextRestoreComplete
  /-- DIE_SUPPLY_SET_POINT_CHANGE (R22). Operands: die, mv. -/
  | dieSupplySetPointChange
  deriving DecidableEq, Repr

end Sys2Proof
end

