-- ==== Sys2Proof/WellFormed.lean ====
section
/-!
DEFINITION. What the types of Syntax do not say of a legal instruction: the checks of reasons 3 and 5 of R140 that relate
several fields, instruction by instruction. Events have no encoding and no such check.
-/

namespace Sys2Proof

/-- Element width in bits (R331). -/
def VType.width : VType → Nat
  | .i8 | .n8 | .e4m3 | .e5m2 => 8
  | .i16 | .n16 | .f16 | .bf16 => 16
  | .i32 | .n32 | .f32 => 32

/-- Class INT of R331. -/
def VType.isInt : VType → Bool
  | .i8 | .n8 | .i16 | .n16 | .i32 | .n32 => true
  | _ => false

/-- Class FLT of R331. -/
def VType.isFlt : VType → Bool
  | .f16 | .bf16 | .f32 => true
  | _ => false

/-- Classes INT and FLT of R331. -/
def VType.isIntFlt (t : VType) : Bool := t.isInt || t.isFlt

/-- The types VDOT4 accepts (R332). -/
def VType.isDot : VType → Bool
  | .i8 | .n8 | .e4m3 | .e5m2 => true
  | _ => false

/-- The one type of the special functions and of BC8 blocks (R332). -/
def VType.isF32 (t : VType) : Bool := t == .f32

/-- The types MXST stores (R365). -/
def VType.isStored : VType → Bool
  | .f32 | .bf16 | .f16 | .e4m3 | .e5m2 | .i32 | .i16 | .i8 => true
  | _ => false

/-- VSCAN accepts INT and FLT types, and its OR only INT types (R332). -/
def scanOk (o : ScanOp) (t : VType) : Bool := if o == .or then t.isInt else t.isIntFlt

/-- The number r of parts of a conversion: the larger width divided by the smaller (R342). -/
def vcvtParts (s d : VType) : Nat := max s.width d.width / min s.width d.width

/-- The registers MTCR may write (R412). -/
def CReg.writable : CReg → Bool
  | .status | .ssb | .ssl | .uivec | .uicause | .fmode | .fflags | .issuepol | .greedylim | .csap | .deleg | .meetwin => true
  | _ => false

/-- COLL has no mode 2 (R373). -/
def EngMode.notArr : EngMode → Bool
  | .arr _ => false
  | _ => true

/-- A legal instruction: the field checks of R140 that the types leave open. -/
def Instr.wf : Instr → Bool
  | .bcc _ b cc _ _ _ => ((cc != .z && cc != .nz) || (b.r == 0 && !b.t))
  | .start _ a _ => (a.r != 0 || !a.t)
  | .ld _ _ sz u _ _ => !(sz == .d && u)
  | .ldx _ _ _ _ sz u _ => !(sz == .d && u)
  | .gath _ _ _ _ _ u sz => !(sz == .w && u)
  | .ldf d _ c => d != c
  | .sopenF d _ _ => decide (d.val < 16)
  | .speek _ a => decide (a.val < 16)
  | .qadd _ _ ty => ty != .f32
  | .qaddi _ ty _ => ty != .f32
  | .qgath _ _ _ ty => ty != .i64
  | .qscat _ _ _ ty => ty != .i64
  | .vadd _ _ _ ty _ => ty.isIntFlt
  | .vsub _ _ _ ty _ => ty.isIntFlt
  | .vmul _ _ _ ty _ => ty.isIntFlt
  | .vmulh _ _ _ ty _ => ty.isInt
  | .vmin _ _ _ ty _ => ty.isIntFlt
  | .vmax _ _ _ ty _ => ty.isIntFlt
  | .vabsd _ _ _ ty _ => ty.isIntFlt
  | .vfma _ _ _ ty _ => ty.isFlt
  | .vfms _ _ _ ty _ => ty.isFlt
  | .vand _ _ _ ty _ => ty.isInt
  | .vor _ _ _ ty _ => ty.isInt
  | .vxor _ _ _ ty _ => ty.isInt
  | .vandn _ _ _ ty _ => ty.isInt
  | .vshl _ _ _ ty _ => ty.isInt
  | .vshr _ _ _ ty _ => ty.isInt
  | .vsra _ _ _ ty _ => ty.isInt
  | .vcmp _ _ _ _ ty _ => ty.isIntFlt
  | .vredadd _ _ ty _ => ty.isIntFlt
  | .vredmin _ _ ty _ => ty.isIntFlt
  | .vredmax _ _ ty _ => ty.isIntFlt
  | .vredor _ _ ty _ => ty.isInt
  | .vscan _ _ sop ty _ => scanOk sop ty
  | .vcvt _ _ dt ty part _ _ => decide (part.toNat < vcvtParts ty dt)
  | .vsort _ _ _ ty _ => ty.isIntFlt
  | .vdot4 _ _ _ ty _ => ty.isDot
  | .vrcp _ _ ty _ => ty.isF32
  | .vrsq _ _ ty _ => ty.isF32
  | .vexp2 _ _ ty _ => ty.isF32
  | .vlog2 _ _ ty _ => ty.isF32
  | .vdiv _ _ _ ty _ => ty.isFlt
  | .vsqrt _ _ ty _ => ty.isFlt
  | .bcenc _ _ _ ty => ty.isF32
  | .bcdec _ _ _ ty => ty.isF32
  | .mxprune d a _ _ => d != a.r
  | .mxst _ _ _ _ ty => ty.isStored
  | .coll _ _ _ md => md.notArr
  | .wlpop d _ c _ => d != c
  | .mtcr _ cr => cr.writable
  | _ => true

/-- The rows of the opcode table that are events: no program word stands for them. -/
def Instr.isEvent : Instr → Bool
  | .moduleReset
  | .bootRomFallback
  | .bootImageVerify
  | .bootRetry
  | .dispatchPlace
  | .contextStartingEnd
  | .helperRetireComplete
  | .sliceEnd
  | .joinContinuationEnqueue
  | .dualSignatureCompare
  | .heldRecordEnqueue
  | .energyWindow
  | .budgetTrap
  | .contextStop
  | .yardRequestAccept
  | .yardEntryResolve
  | .producerComplete
  | .ldfDeferredAnswer
  | .barrierPhaseComplete
  | .copySrcEvent
  | .copyVisEvent
  | .engineDoorbell
  | .copyFault
  | .copyFaultEntry
  | .copyCompletionInterrupt
  | .poisonedDataFault
  | .machineCheck
  | .streamRefill
  | .updateBufferDrain
  | .uGrantRequest
  | .uGrantReturn
  | .bushelPairAccept
  | .binPageApply
  | .homeReadRequest
  | .homeOwnershipRequest
  | .homeAtomic
  | .writeBackArrival
  | .shroudSnoop
  | .fillReturn
  | .pageWalkComplete
  | .mxuOperationStart
  | .mxuOperationComplete
  | .mxremCommandArrival
  | .guestCommandComplete
  | .sendPacketDeliver
  | .worklistAppendArrival
  | .worklistQuiescence
  | .launchPacket
  | .residencyReport
  | .coreEnterC2
  | .clusterEnterC3
  | .dieEnterC4
  | .unitWake
  | .wakeExitLatencyEnd
  | .hostLtrMessage
  | .hostBarAccess
  | .peerRequestArrival
  | .peerRequestTimeout
  | .linkFailure
  | .supplyDroop
  | .dieOvertempClockLimit
  | .thermalTrip
  | .bistComplete
  | .lanemargStart
  | .laneMarginDone
  | .binConfigWrite
  | .mbxReadDefectMap
  | .mbxAttestationReport
  | .mbxSetMarginv
  | .mbxSendUet
  | .mbxIdentityCertificate
  | .registerWrite
  | .droopClockStepEnd
  | .overtempClockLimitEnd
  | .powerOn
  | .linkTraining
  | .dhcpv6Reply
  | .bootFetchFailure
  | .contextRestoreComplete
  | .dieSupplySetPointChange => true
  | _ => false

end Sys2Proof
end

