-- ==== Sys2Proof/Decode.lean ====
section
/-!
DEFINITION. Decoding a head and its tail to an instruction, total and rejecting with the reason of R140; and the encoder,
written from the same tables (R100, R104 to R106, R131 to R137 and the encoding tables of the instruction chapters).
A head is a number below 2^16. A tail is a number of 16 x TL bits, as R102 reads it from the line.
-/

namespace Sys2Proof

/-- Why an encoding is not an instruction (R140), reasons 1 to 5. -/
inductive Illegal where
  | opUnassigned | tailLength | codedField | registerClass | mustBeZero
  deriving DecidableEq, Repr

/-- The reason number of R140. -/
def Illegal.number : Illegal → Nat
  | .opUnassigned => 1 | .tailLength => 2 | .codedField => 3 | .registerClass => 4 | .mustBeZero => 5

/-- The tail formats of R103 and R104. -/
inductive Fmt where
  | H | R | I | X | B | L | Y
  deriving DecidableEq, Repr

/-- Tail length in halfwords (R103). -/
def Fmt.tl : Fmt → Nat
  | .H => 0 | .R => 1 | .I | .X | .B => 2 | .L | .Y => 3

/-- Bits [lo + w - 1 : lo] of x. -/
def bits (x lo w : Nat) : Nat := x / 2 ^ lo % 2 ^ w

/-- The fields of a head and tail (R100, R104). `f` is the function field; in format B it is 0. `imm` is IMM20, IMM32, or
HIDX and LOFF together. A field that the format lacks is 0. -/
structure Raw where
  d : Nat := 0
  ta : Nat := 0
  a : Nat := 0
  tb : Nat := 0
  b : Nat := 0
  tc : Nat := 0
  c : Nat := 0
  te : Nat := 0
  e : Nat := 0
  f : Nat := 0
  imm : Nat := 0
  deriving DecidableEq, Repr

/-- The fields of a tail (R104). -/
def unpack (fm : Fmt) (d t : Nat) : Raw :=
  match fm with
  | .H => { d := d }
  | .R => { d := d, ta := bits t 15 1, a := bits t 9 6, tb := bits t 8 1, b := bits t 2 6, f := bits t 0 2 }
  | .I => { d := d, ta := bits t 31 1, a := bits t 25 6, f := bits t 20 5, imm := bits t 0 20 }
  | .X => { d := d, ta := bits t 31 1, a := bits t 25 6, tb := bits t 24 1, b := bits t 18 6, tc := bits t 17 1,
            c := bits t 11 6, f := bits t 0 11 }
  | .B => { d := d, ta := bits t 31 1, a := bits t 25 6, tb := bits t 24 1, b := bits t 18 6, imm := bits t 0 18 }
  | .L => { d := d, ta := bits t 47 1, a := bits t 41 6, f := bits t 32 9, imm := bits t 0 32 }
  | .Y => { d := d, ta := bits t 47 1, a := bits t 41 6, tb := bits t 40 1, b := bits t 34 6, tc := bits t 33 1,
            c := bits t 27 6, te := bits t 26 1, e := bits t 20 6, f := bits t 0 20 }

/-- The tail that holds given fields (R104). -/
def packTail (fm : Fmt) (r : Raw) : Nat :=
  match fm with
  | .H => 0
  | .R => r.ta * 2 ^ 15 + r.a * 2 ^ 9 + r.tb * 2 ^ 8 + r.b * 2 ^ 2 + r.f
  | .I => r.ta * 2 ^ 31 + r.a * 2 ^ 25 + r.f * 2 ^ 20 + r.imm
  | .X => r.ta * 2 ^ 31 + r.a * 2 ^ 25 + r.tb * 2 ^ 24 + r.b * 2 ^ 18 + r.tc * 2 ^ 17 + r.c * 2 ^ 11 + r.f
  | .B => r.ta * 2 ^ 31 + r.a * 2 ^ 25 + r.tb * 2 ^ 24 + r.b * 2 ^ 18 + r.imm
  | .L => r.ta * 2 ^ 47 + r.a * 2 ^ 41 + r.f * 2 ^ 32 + r.imm
  | .Y => r.ta * 2 ^ 47 + r.a * 2 ^ 41 + r.tb * 2 ^ 40 + r.b * 2 ^ 34 + r.tc * 2 ^ 33 + r.c * 2 ^ 27 + r.te * 2 ^ 26 +
          r.e * 2 ^ 20 + r.f

/-- The head (R100) with TL, L, OP and D. -/
def packHead (fm : Fmt) (l : Bool) (op d : Nat) : Nat := fm.tl * 2 ^ 14 + l.toNat * 2 ^ 13 + op * 2 ^ 6 + d

/-! ## Register fields and coded fields -/

/-- A g field. -/
def gR (n : Nat) : GReg := Fin.ofNat 64 n
/-- A v field. -/
def vR (n : Nat) : VReg := Fin.ofNat 16 n
/-- A z field. -/
def zR (n : Nat) : ZReg := Fin.ofNat 4 n
/-- A b field. -/
def bR (n : Nat) : BReg := Fin.ofNat 8 n
/-- A predicate field. -/
def pR (n : Nat) : PReg := Fin.ofNat 8 n
/-- A stream operand (R317): 32 names g32. -/
def sR (n : Nat) : SOpd := Fin.ofNat 24 (n - 32)
/-- A mask operand (R105). -/
def mR (n : Nat) : MOpd := if n < 4 then .m (Fin.ofNat 4 n) else .p (Fin.ofNat 8 (n - 8))
/-- The code of a mask operand (R105). -/
def MOpd.code : MOpd → Nat
  | .m i => i.val
  | .p i => 8 + i.val
/-- The values a v field accepts (R105). -/
def okV (n : Nat) : Bool := decide (n < 16)
/-- The values a z field accepts (R105). -/
def okZ (n : Nat) : Bool := decide (n < 4)
/-- The values a b field accepts (R105). -/
def okB (n : Nat) : Bool := decide (n < 8)
/-- The values a mask operand accepts (R105). -/
def okM (n : Nat) : Bool := decide (n < 4) || (decide (8 ≤ n) && decide (n < 16))
/-- The values a stream operand accepts (R317). -/
def okS (n : Nat) : Bool := decide (32 ≤ n) && decide (n < 56)
/-- The values SOPEN.F and SPEEK accept (R319, R326). -/
def okS16 (n : Nat) : Bool := decide (32 ≤ n) && decide (n < 48)
/-- A g source with its T bit. -/
def gS (n t : Nat) : GSrc := ⟨gR n, t == 1⟩
/-- A v source with its T bit. -/
def vS (n t : Nat) : VSrc := ⟨vR n, t == 1⟩
/-- A z source with its T bit. -/
def zS (n t : Nat) : ZSrc := ⟨zR n, t == 1⟩
/-- An optional predicate: TC, or PE of UPDV, enables it (R134, R296). -/
def oP (en n : Nat) : Option PReg := if en = 1 then some (pR n) else none
/-- The enable bit and the number of an optional predicate. -/
def oPen : Option PReg → Nat
  | some _ => 1
  | none => 0
/-- The number of an optional predicate, 0 when there is none. -/
def oPn : Option PReg → Nat
  | some p => p.val
  | none => 0

/-- Code of the access size of R133. -/
def Size.code : Size → Nat
  | .b => 0 | .h => 1 | .w => 2 | .d => 3
/-- The access size of R133 with a given code; the last one listed stands for the codes the caller has refused. -/
def Size.ofCode : Nat → Size
  | 0 => .b | 1 => .h | 2 => .w | _ => .d
/-- Code of the element size of R286 and R287. -/
def ESize.code : ESize → Nat
  | .b => 0 | .h => 1 | .w => 2
/-- The element size of R286 and R287 with a given code; the last one listed stands for the codes the caller has refused. -/
def ESize.ofCode : Nat → ESize
  | 0 => .b | 1 => .h | _ => .w
/-- Code of the condition of format B (R110). -/
def Cond.code : Cond → Nat
  | .eq => 0 | .ne => 1 | .lt => 2 | .ge => 3 | .ltu => 4 | .geu => 5 | .z => 6 | .nz => 7
/-- The condition of format B (R110) with a given code; the last one listed stands for the codes the caller has refused. -/
def Cond.ofCode : Nat → Cond
  | 0 => .eq | 1 => .ne | 2 => .lt | 3 => .ge | 4 => .ltu | 5 => .geu | 6 => .z | _ => .nz
/-- Code of the annul mode of format B (R110). -/
def Annul.code : Annul → Nat
  | .none => 0 | .notTaken => 1 | .taken => 2
/-- The annul mode of format B (R110) with a given code; the last one listed stands for the codes the caller has refused. -/
def Annul.ofCode : Nat → Annul
  | 0 => .none | 1 => .notTaken | _ => .taken
/-- Code of the scope of a fence or of VIS (R136, R200). -/
def Scope.code : Scope → Nat
  | .core => 0 | .oct => 1 | .clu => 2 | .die => 3 | .mod => 4 | .pod => 5
/-- The scope of a fence or of VIS (R136, R200) with a given code; the last one listed stands for the codes the caller has refused. -/
def Scope.ofCode : Nat → Scope
  | 0 => .core | 1 => .oct | 2 => .clu | 3 => .die | 4 => .mod | _ => .pod
/-- Code of the element type of a vector form (R331). -/
def VType.code : VType → Nat
  | .i8 => 0 | .n8 => 1 | .i16 => 2 | .n16 => 3 | .i32 => 4 | .n32 => 5 | .f16 => 6 | .bf16 => 7 | .f32 => 8 | .e4m3 => 9 | .e5m2 => 10
/-- The element type of a vector form (R331) with a given code; the last one listed stands for the codes the caller has refused. -/
def VType.ofCode : Nat → VType
  | 0 => .i8 | 1 => .n8 | 2 => .i16 | 3 => .n16 | 4 => .i32 | 5 => .n32 | 6 => .f16 | 7 => .bf16 | 8 => .f32 | 9 => .e4m3 | _ => .e5m2
/-- Code of the field type of a query-set form (R302). -/
def QType.code : QType → Nat
  | .n8 => 0 | .i8 => 1 | .n16 => 2 | .i16 => 3 | .n32 => 4 | .i32 => 5 | .i64 => 6 | .f32 => 7
/-- The field type of a query-set form (R302) with a given code; the last one listed stands for the codes the caller has refused. -/
def QType.ofCode : Nat → QType
  | 0 => .n8 | 1 => .i8 | 2 => .n16 | 3 => .i16 | 4 => .n32 | 5 => .i32 | 6 => .i64 | _ => .f32
/-- Code of the condition of QCMP (R308). -/
def QCond.code : QCond → Nat
  | .eq => 0 | .ne => 1 | .lt => 2 | .ge => 3 | .le => 4 | .gt => 5 | .tst => 6 | .ntst => 7
/-- The condition of QCMP (R308) with a given code; the last one listed stands for the codes the caller has refused. -/
def QCond.ofCode : Nat → QCond
  | 0 => .eq | 1 => .ne | 2 => .lt | 3 => .ge | 4 => .le | 5 => .gt | 6 => .tst | _ => .ntst
/-- Code of the condition of VCMP (R339). -/
def VCond.code : VCond → Nat
  | .eq => 0 | .ne => 1 | .lt => 2 | .ge => 3 | .le => 4 | .gt => 5
/-- The condition of VCMP (R339) with a given code; the last one listed stands for the codes the caller has refused. -/
def VCond.ofCode : Nat → VCond
  | 0 => .eq | 1 => .ne | 2 => .lt | 3 => .ge | 4 => .le | _ => .gt
/-- Code of the type of an update pair (R295). -/
def UType.code : UType → Nat
  | .i32 => 0 | .i64 => 1 | .f32 => 2
/-- The type of an update pair (R295) with a given code; the last one listed stands for the codes the caller has refused. -/
def UType.ofCode : Nat → UType
  | 0 => .i32 | 1 => .i64 | _ => .f32
/-- Code of the level of PREF (R292). -/
def PLevel.code : PLevel → Nat
  | .l1 => 0 | .l2 => 1
/-- The level of PREF (R292) with a given code; the last one listed stands for the codes the caller has refused. -/
def PLevel.ofCode : Nat → PLevel
  | 0 => .l1 | _ => .l2
/-- Code of the operator of VSCAN (R332). -/
def ScanOp.code : ScanOp → Nat
  | .add => 0 | .min => 1 | .max => 2 | .or => 3
/-- The operator of VSCAN (R332) with a given code; the last one listed stands for the codes the caller has refused. -/
def ScanOp.ofCode : Nat → ScanOp
  | 0 => .add | 1 => .min | 2 => .max | _ => .or
/-- Code of the order of VSORT (R332). -/
def SortOrd.code : SortOrd → Nat
  | .asc => 0 | .desc => 1
/-- The order of VSORT (R332) with a given code; the last one listed stands for the codes the caller has refused. -/
def SortOrd.ofCode : Nat → SortOrd
  | 0 => .asc | _ => .desc
/-- Code of the control register (R77). -/
def CReg.code : CReg → Nat
  | .pc => 0 | .n1 => 1 | .n2 => 2 | .anul => 3 | .status => 4 | .qgd => 5 | .ssb => 6 | .ssl => 7 | .uivec => 8 | .uitag => 9 | .uicause => 10 | .fmode => 11 | .fflags => 12 | .streammap => 13 | .issuepol => 32 | .greedylim => 33 | .csap => 34 | .deleg => 35 | .epoch => 36 | .meetwin => 48 | .time => 56
/-- The control register (R77) with a given code; the last one listed stands for the codes the caller has refused. -/
def CReg.ofCode : Nat → CReg
  | 0 => .pc | 1 => .n1 | 2 => .n2 | 3 => .anul | 4 => .status | 5 => .qgd | 6 => .ssb | 7 => .ssl | 8 => .uivec | 9 => .uitag | 10 => .uicause | 11 => .fmode | 12 => .fflags | 13 => .streammap | 32 => .issuepol | 33 => .greedylim | 34 => .csap | 35 => .deleg | 36 => .epoch | 48 => .meetwin | _ => .time
/-- The numbers R77 lists. -/
def CReg.listed (n : Nat) : Bool :=
  decide (n < 14) || (decide (0x20 ≤ n) && decide (n < 0x25)) || n == 0x30 || n == 0x38
/-- Mode and channel of an engine command (R373). -/
def EngMode.ofCode (m ch : Nat) : EngMode := if m = 0 then .none else if m = 1 then .ui else .arr (bR ch)
/-- MODE (R373). -/
def EngMode.code : EngMode → Nat
  | .none => 0 | .ui => 1 | .arr _ => 2
/-- CHAN (R373). -/
def EngMode.chan : EngMode → Nat
  | .arr c => c.val
  | _ => 0

/-- The checks of reasons 3, 4 and 5, in that order (R140). -/
def chk (coded cls zero : Bool) (i : Instr) : Except Illegal Instr :=
  if !coded then .error .codedField else if !cls then .error .registerClass else if !zero then .error .mustBeZero else .ok i

/-- An encoding whose selector names nothing (R132, R498). -/
def noForm : Except Illegal Instr := .error .codedField

/-- OP 0x00, format H: NOP. -/
def dec00 (r : Raw) : Except Illegal Instr :=
    chk true
      true
      (r.d == 0)
      (.nop)

/-- OP 0x01, format H: RETIRE. -/
def dec01 (r : Raw) : Except Illegal Instr :=
    chk true
      true
      (r.d == 0)
      (.retire)

/-- OP 0x02, format H: YLD. -/
def dec02 (r : Raw) : Except Illegal Instr :=
    chk true
      true
      (r.d == 0)
      (.yld)

/-- OP 0x03, format H: RET. -/
def dec03 (r : Raw) : Except Illegal Instr :=
    chk true
      true
      (r.d == 0)
      (.ret)

/-- OP 0x04, format R: JR. -/
def dec04 (r : Raw) : Except Illegal Instr :=
  if r.f == 0 then chk true
      true
      (r.d == 0 && r.b == 0 && r.tb == 0)
      (.jr (gS r.a r.ta))
  else noForm

/-- OP 0x05, format R: CALLR. -/
def dec05 (r : Raw) : Except Illegal Instr :=
  if r.f == 0 then chk true
      true
      (r.d == 0 && r.b == 0 && r.tb == 0)
      (.callr (gS r.a r.ta))
  else noForm

/-- OP 0x06, format L: J. -/
def dec06 (r : Raw) : Except Illegal Instr :=
  if r.f == 0 then chk true
      true
      (r.d == 0 && r.a == 0 && r.ta == 0)
      (.j (BitVec.ofNat 32 (bits r.imm 0 32)))
  else noForm

/-- OP 0x07, format L: CALL. -/
def dec07 (r : Raw) : Except Illegal Instr :=
  if r.f == 0 then chk true
      true
      (r.d == 0 && r.a == 0 && r.ta == 0)
      (.call (BitVec.ofNat 32 (bits r.imm 0 32)))
  else noForm

/-- OP 0x08, format B: B_CC. -/
def dec08 (r : Raw) : Except Illegal Instr :=
    chk (decide (bits r.d 1 2 < 3))
      true
      (bits r.d 0 1 == 0 && (bits r.d 3 3 != 6 && bits r.d 3 3 != 7 || r.b == 0 && r.tb == 0))
      (.bcc (gS r.a r.ta) (gS r.b r.tb) (Cond.ofCode (bits r.d 3 3)) (Annul.ofCode (bits r.d 1 2)) (BitVec.ofNat 5 (bits r.imm 13 5)) (BitVec.ofNat 13 (bits r.imm 0 13)))

/-- OP 0x0A, format I: START. -/
def dec0A (r : Raw) : Except Illegal Instr :=
  if r.f == 0 then chk true
      true
      ((r.a != 0 || r.ta == 0))
      (.start (gR r.d) (gS r.a r.ta) (BitVec.ofNat 20 (bits r.imm 0 20)))
  else noForm

/-- OP 0x0B, format I: SPLIT. -/
def dec0B (r : Raw) : Except Illegal Instr :=
  if r.f == 0 then chk true
      (okM r.a)
      (r.ta == 0)
      (.split (gR r.d) (mR r.a) (BitVec.ofNat 20 (bits r.imm 0 20)))
  else noForm

/-- OP 0x0C, format R: WAITF. -/
def dec0C (r : Raw) : Except Illegal Instr :=
  if r.f == 0 then chk true
      true
      (r.d == 0 && r.a == 0 && r.ta == 0 && r.b == 0 && r.tb == 0)
      (.waitf)
  else noForm

/-- OP 0x10, format R: ADD, SUB, ADD_W, SUB_W. -/
def dec10 (r : Raw) : Except Illegal Instr :=
  if r.f == 0 then chk true
      true
      true
      (.add (gR r.d) (gS r.a r.ta) (gS r.b r.tb))
  else if r.f == 1 then chk true
      true
      true
      (.sub (gR r.d) (gS r.a r.ta) (gS r.b r.tb))
  else if r.f == 2 then chk true
      true
      true
      (.addW (gR r.d) (gS r.a r.ta) (gS r.b r.tb))
  else if r.f == 3 then chk true
      true
      true
      (.subW (gR r.d) (gS r.a r.ta) (gS r.b r.tb))
  else noForm

/-- OP 0x11, format R: AND, OR, XOR, ANDN. -/
def dec11 (r : Raw) : Except Illegal Instr :=
  if r.f == 0 then chk true
      true
      true
      (.and (gR r.d) (gS r.a r.ta) (gS r.b r.tb))
  else if r.f == 1 then chk true
      true
      true
      (.or (gR r.d) (gS r.a r.ta) (gS r.b r.tb))
  else if r.f == 2 then chk true
      true
      true
      (.xor (gR r.d) (gS r.a r.ta) (gS r.b r.tb))
  else if r.f == 3 then chk true
      true
      true
      (.andn (gR r.d) (gS r.a r.ta) (gS r.b r.tb))
  else noForm

/-- OP 0x12, format R: SHL, SHR, SRA, ROL. -/
def dec12 (r : Raw) : Except Illegal Instr :=
  if r.f == 0 then chk true
      true
      true
      (.shl (gR r.d) (gS r.a r.ta) (gS r.b r.tb))
  else if r.f == 1 then chk true
      true
      true
      (.shr (gR r.d) (gS r.a r.ta) (gS r.b r.tb))
  else if r.f == 2 then chk true
      true
      true
      (.sra (gR r.d) (gS r.a r.ta) (gS r.b r.tb))
  else if r.f == 3 then chk true
      true
      true
      (.rol (gR r.d) (gS r.a r.ta) (gS r.b r.tb))
  else noForm

/-- OP 0x13, format R: MUL, MULH, MULHU, MUL_W. -/
def dec13 (r : Raw) : Except Illegal Instr :=
  if r.f == 0 then chk true
      true
      true
      (.mul (gR r.d) (gS r.a r.ta) (gS r.b r.tb))
  else if r.f == 1 then chk true
      true
      true
      (.mulh (gR r.d) (gS r.a r.ta) (gS r.b r.tb))
  else if r.f == 2 then chk true
      true
      true
      (.mulhu (gR r.d) (gS r.a r.ta) (gS r.b r.tb))
  else if r.f == 3 then chk true
      true
      true
      (.mulW (gR r.d) (gS r.a r.ta) (gS r.b r.tb))
  else noForm

/-- OP 0x14, format R: DIV, DIVU, REM, REMU. -/
def dec14 (r : Raw) : Except Illegal Instr :=
  if r.f == 0 then chk true
      true
      true
      (.div (gR r.d) (gS r.a r.ta) (gS r.b r.tb))
  else if r.f == 1 then chk true
      true
      true
      (.divu (gR r.d) (gS r.a r.ta) (gS r.b r.tb))
  else if r.f == 2 then chk true
      true
      true
      (.rem (gR r.d) (gS r.a r.ta) (gS r.b r.tb))
  else if r.f == 3 then chk true
      true
      true
      (.remu (gR r.d) (gS r.a r.ta) (gS r.b r.tb))
  else noForm

/-- OP 0x15, format R: MIN, MAX, MINU, MAXU. -/
def dec15 (r : Raw) : Except Illegal Instr :=
  if r.f == 0 then chk true
      true
      true
      (.min (gR r.d) (gS r.a r.ta) (gS r.b r.tb))
  else if r.f == 1 then chk true
      true
      true
      (.max (gR r.d) (gS r.a r.ta) (gS r.b r.tb))
  else if r.f == 2 then chk true
      true
      true
      (.minu (gR r.d) (gS r.a r.ta) (gS r.b r.tb))
  else if r.f == 3 then chk true
      true
      true
      (.maxu (gR r.d) (gS r.a r.ta) (gS r.b r.tb))
  else noForm

/-- OP 0x16, format R: SLT, SLTU, SEQ, SNE. -/
def dec16 (r : Raw) : Except Illegal Instr :=
  if r.f == 0 then chk true
      true
      true
      (.slt (gR r.d) (gS r.a r.ta) (gS r.b r.tb))
  else if r.f == 1 then chk true
      true
      true
      (.sltu (gR r.d) (gS r.a r.ta) (gS r.b r.tb))
  else if r.f == 2 then chk true
      true
      true
      (.seq (gR r.d) (gS r.a r.ta) (gS r.b r.tb))
  else if r.f == 3 then chk true
      true
      true
      (.sne (gR r.d) (gS r.a r.ta) (gS r.b r.tb))
  else noForm

/-- OP 0x17, format R: CLZ, CTZ, POPC, BREV. -/
def dec17 (r : Raw) : Except Illegal Instr :=
  if r.f == 0 then chk true
      true
      (r.b == 0 && r.tb == 0)
      (.clz (gR r.d) (gS r.a r.ta))
  else if r.f == 1 then chk true
      true
      (r.b == 0 && r.tb == 0)
      (.ctz (gR r.d) (gS r.a r.ta))
  else if r.f == 2 then chk true
      true
      (r.b == 0 && r.tb == 0)
      (.popc (gR r.d) (gS r.a r.ta))
  else if r.f == 3 then chk true
      true
      (r.b == 0 && r.tb == 0)
      (.brev (gR r.d) (gS r.a r.ta))
  else noForm

/-- OP 0x18, format R: SEXT_B, SEXT_H, SEXT_W, BSWAP. -/
def dec18 (r : Raw) : Except Illegal Instr :=
  if r.f == 0 then chk true
      true
      (r.b == 0 && r.tb == 0)
      (.sextB (gR r.d) (gS r.a r.ta))
  else if r.f == 1 then chk true
      true
      (r.b == 0 && r.tb == 0)
      (.sextH (gR r.d) (gS r.a r.ta))
  else if r.f == 2 then chk true
      true
      (r.b == 0 && r.tb == 0)
      (.sextW (gR r.d) (gS r.a r.ta))
  else if r.f == 3 then chk true
      true
      (r.b == 0 && r.tb == 0)
      (.bswap (gR r.d) (gS r.a r.ta))
  else noForm

/-- OP 0x19, format I: ADDI. -/
def dec19 (r : Raw) : Except Illegal Instr :=
  if r.f == 0 then chk true
      true
      true
      (.addi (gR r.d) (gS r.a r.ta) (BitVec.ofNat 20 (bits r.imm 0 20)))
  else noForm

/-- OP 0x1A, format I: ANDI, ORI, XORI. -/
def dec1A (r : Raw) : Except Illegal Instr :=
  if r.f == 0 then chk true
      true
      true
      (.andi (gR r.d) (gS r.a r.ta) (BitVec.ofNat 20 (bits r.imm 0 20)))
  else if r.f == 1 then chk true
      true
      true
      (.ori (gR r.d) (gS r.a r.ta) (BitVec.ofNat 20 (bits r.imm 0 20)))
  else if r.f == 2 then chk true
      true
      true
      (.xori (gR r.d) (gS r.a r.ta) (BitVec.ofNat 20 (bits r.imm 0 20)))
  else noForm

/-- OP 0x1B, format I: SHLI, SHRI, SRAI, ROLI. -/
def dec1B (r : Raw) : Except Illegal Instr :=
  if bits r.f 0 5 == 0 && bits r.imm 6 14 == 0 then chk true
      true
      true
      (.shli (gR r.d) (gS r.a r.ta) (BitVec.ofNat 6 (bits r.imm 0 6)))
  else if bits r.f 0 5 == 1 && bits r.imm 6 14 == 0 then chk true
      true
      true
      (.shri (gR r.d) (gS r.a r.ta) (BitVec.ofNat 6 (bits r.imm 0 6)))
  else if bits r.f 0 5 == 2 && bits r.imm 6 14 == 0 then chk true
      true
      true
      (.srai (gR r.d) (gS r.a r.ta) (BitVec.ofNat 6 (bits r.imm 0 6)))
  else if bits r.f 0 5 == 3 && bits r.imm 6 14 == 0 then chk true
      true
      true
      (.roli (gR r.d) (gS r.a r.ta) (BitVec.ofNat 6 (bits r.imm 0 6)))
  else noForm

/-- OP 0x1C, format I: SLTI, SLTIU. -/
def dec1C (r : Raw) : Except Illegal Instr :=
  if r.f == 0 then chk true
      true
      true
      (.slti (gR r.d) (gS r.a r.ta) (BitVec.ofNat 20 (bits r.imm 0 20)))
  else if r.f == 1 then chk true
      true
      true
      (.sltiu (gR r.d) (gS r.a r.ta) (BitVec.ofNat 20 (bits r.imm 0 20)))
  else noForm

/-- OP 0x1D, format L: LI. -/
def dec1D (r : Raw) : Except Illegal Instr :=
  if r.f == 0 then chk true
      true
      (r.a == 0 && r.ta == 0)
      (.li (gR r.d) (BitVec.ofNat 32 (bits r.imm 0 32)))
  else noForm

/-- OP 0x1E, format L: LIH. -/
def dec1E (r : Raw) : Except Illegal Instr :=
  if r.f == 0 then chk true
      true
      (r.a == 0 && r.ta == 0)
      (.lih (gR r.d) (BitVec.ofNat 32 (bits r.imm 0 32)))
  else noForm

/-- OP 0x1F, format I: ADDPC. -/
def dec1F (r : Raw) : Except Illegal Instr :=
  if r.f == 0 then chk true
      true
      (r.a == 0 && r.ta == 0)
      (.addpc (gR r.d) (BitVec.ofNat 20 (bits r.imm 0 20)))
  else noForm

/-- OP 0x20, format I: BFX, BFXU. -/
def dec20 (r : Raw) : Except Illegal Instr :=
  if r.f == 0 then chk true
      true
      (bits r.imm 12 8 == 0)
      (.bfx (gR r.d) (gS r.a r.ta) (BitVec.ofNat 6 (bits r.imm 0 6)) (BitVec.ofNat 6 (bits r.imm 6 6)))
  else if r.f == 1 then chk true
      true
      (bits r.imm 12 8 == 0)
      (.bfxu (gR r.d) (gS r.a r.ta) (BitVec.ofNat 6 (bits r.imm 0 6)) (BitVec.ofNat 6 (bits r.imm 6 6)))
  else noForm

/-- OP 0x21, format I: BFI. -/
def dec21 (r : Raw) : Except Illegal Instr :=
  if r.f == 0 then chk true
      true
      (bits r.imm 12 8 == 0)
      (.bfi (gR r.d) (gS r.a r.ta) (BitVec.ofNat 6 (bits r.imm 0 6)) (BitVec.ofNat 6 (bits r.imm 6 6)))
  else noForm

/-- OP 0x22, format X: CMOV. -/
def dec22 (r : Raw) : Except Illegal Instr :=
  if r.f == 0 then chk true
      true
      true
      (.cmov (gR r.d) (gS r.a r.ta) (gS r.b r.tb) (gS r.c r.tc))
  else noForm

/-- OP 0x23, format X: MADD. -/
def dec23 (r : Raw) : Except Illegal Instr :=
  if r.f == 0 then chk true
      true
      true
      (.madd (gR r.d) (gS r.a r.ta) (gS r.b r.tb) (gS r.c r.tc))
  else noForm

/-- OP 0x24, format R: ABS, NEG. -/
def dec24 (r : Raw) : Except Illegal Instr :=
  if r.f == 0 then chk true
      true
      (r.b == 0 && r.tb == 0)
      (.abs (gR r.d) (gS r.a r.ta))
  else if r.f == 1 then chk true
      true
      (r.b == 0 && r.tb == 0)
      (.neg (gR r.d) (gS r.a r.ta))
  else noForm

/-- OP 0x30, format I: LD. -/
def dec30 (r : Raw) : Except Illegal Instr :=
  if bits r.f 4 1 == 0 then chk (!(bits r.f 0 2 == 3 && bits r.f 2 1 == 1))
      true
      true
      (.ld (gR r.d) (gS r.a r.ta) (Size.ofCode (bits r.f 0 2)) (bits r.f 2 1 == 1) (bits r.f 3 1 == 1) (BitVec.ofNat 20 (bits r.imm 0 20)))
  else noForm

/-- OP 0x31, format I: ST. -/
def dec31 (r : Raw) : Except Illegal Instr :=
  if bits r.f 2 1 == 0 && bits r.f 4 1 == 0 then chk true
      true
      true
      (.st (gR r.d) (gS r.a r.ta) (Size.ofCode (bits r.f 0 2)) (bits r.f 3 1 == 1) (BitVec.ofNat 20 (bits r.imm 0 20)))
  else noForm

/-- OP 0x32, format X: LDX, STX. -/
def dec32 (r : Raw) : Except Illegal Instr :=
  if bits r.f 8 3 == 0 then chk (!(bits r.f 3 2 == 3 && bits r.f 5 1 == 1))
      true
      (r.c == 0 && r.tc == 0 && bits r.f 7 1 == 0)
      (.ldx (gR r.d) (gS r.a r.ta) (gS r.b r.tb) (BitVec.ofNat 3 (bits r.f 0 3)) (Size.ofCode (bits r.f 3 2)) (bits r.f 5 1 == 1) (bits r.f 6 1 == 1))
  else if bits r.f 8 3 == 1 then chk true
      true
      (r.c == 0 && r.tc == 0 && bits r.f 5 1 == 0 && bits r.f 7 1 == 0)
      (.stx (gR r.d) (gS r.a r.ta) (gS r.b r.tb) (BitVec.ofNat 3 (bits r.f 0 3)) (Size.ofCode (bits r.f 3 2)) (bits r.f 6 1 == 1))
  else noForm

/-- OP 0x33, format I: LDV, STV. -/
def dec33 (r : Raw) : Except Illegal Instr :=
  if r.f == 0 then chk true
      (okV r.d)
      true
      (.ldv (vR r.d) (gS r.a r.ta) (BitVec.ofNat 20 (bits r.imm 0 20)))
  else if r.f == 1 then chk true
      (okV r.d)
      true
      (.stv (vR r.d) (gS r.a r.ta) (BitVec.ofNat 20 (bits r.imm 0 20)))
  else noForm

/-- OP 0x34, format X: LDVS, STVS. -/
def dec34 (r : Raw) : Except Illegal Instr :=
  if bits r.f 8 3 == 0 then chk (decide (bits r.f 6 2 < 3))
      (okV r.d)
      (r.c == 0 && (r.tc == 1 || bits r.f 0 3 == 0) && bits r.f 3 3 == 0)
      (.ldvs (vR r.d) (gS r.a r.ta) (gS r.b r.tb) (oP r.tc (bits r.f 0 3)) (ESize.ofCode (bits r.f 6 2)))
  else if bits r.f 8 3 == 1 then chk (decide (bits r.f 6 2 < 3))
      (okV r.d)
      (r.c == 0 && (r.tc == 1 || bits r.f 0 3 == 0) && bits r.f 3 3 == 0)
      (.stvs (vR r.d) (gS r.a r.ta) (gS r.b r.tb) (oP r.tc (bits r.f 0 3)) (ESize.ofCode (bits r.f 6 2)))
  else noForm

/-- OP 0x35, format X: GATH, SCATV. -/
def dec35 (r : Raw) : Except Illegal Instr :=
  if bits r.f 8 3 == 0 then chk (decide (bits r.f 6 2 < 3) && !(bits r.f 6 2 == 2 && bits r.f 5 1 == 1))
      (okV r.d && okV r.b)
      (r.c == 0 && (r.tc == 1 || bits r.f 0 3 == 0))
      (.gath (vR r.d) (gS r.a r.ta) (vS r.b r.tb) (oP r.tc (bits r.f 0 3)) (BitVec.ofNat 2 (bits r.f 3 2)) (bits r.f 5 1 == 1) (ESize.ofCode (bits r.f 6 2)))
  else if bits r.f 8 3 == 1 then chk (decide (bits r.f 6 2 < 3))
      (okV r.d && okV r.b)
      (r.c == 0 && (r.tc == 1 || bits r.f 0 3 == 0) && bits r.f 5 1 == 0)
      (.scatv (vR r.d) (gS r.a r.ta) (vS r.b r.tb) (oP r.tc (bits r.f 0 3)) (BitVec.ofNat 2 (bits r.f 3 2)) (ESize.ofCode (bits r.f 6 2)))
  else noForm

/-- OP 0x36, format X: LDF, STF, CLRF. -/
def dec36 (r : Raw) : Except Illegal Instr :=
  if bits r.f 8 3 == 0 then chk true
      true
      (r.b == 0 && r.tb == 0 && r.tc == 0 && bits r.f 0 8 == 0 && r.d != r.c)
      (.ldf (gR r.d) (gS r.a r.ta) (gR r.c))
  else if bits r.f 8 3 == 1 then chk true
      true
      (r.b == 0 && r.tb == 0 && r.c == 0 && r.tc == 0 && bits r.f 0 8 == 0)
      (.stf (gR r.d) (gS r.a r.ta))
  else if bits r.f 8 3 == 2 then chk true
      true
      (r.d == 0 && r.b == 0 && r.tb == 0 && r.c == 0 && r.tc == 0 && bits r.f 0 8 == 0)
      (.clrf (gS r.a r.ta))
  else noForm

/-- OP 0x37, format X: SWAP, CAS, FADD. -/
def dec37 (r : Raw) : Except Illegal Instr :=
  if bits r.f 8 3 == 0 then chk true
      true
      (r.c == 0 && r.tc == 0 && bits r.f 0 7 == 0)
      (.swap (gR r.d) (gS r.a r.ta) (gS r.b r.tb) (bits r.f 7 1 == 1))
  else if bits r.f 8 3 == 1 then chk true
      true
      (bits r.f 0 7 == 0)
      (.cas (gR r.d) (gS r.a r.ta) (gS r.b r.tb) (gS r.c r.tc) (bits r.f 7 1 == 1))
  else if bits r.f 8 3 == 2 then chk true
      true
      (r.c == 0 && r.tc == 0 && bits r.f 0 7 == 0)
      (.fadd (gR r.d) (gS r.a r.ta) (gS r.b r.tb) (bits r.f 7 1 == 1))
  else noForm

/-- OP 0x38, format H: FENCE_FULL, FENCE_ACQ, FENCE_REL, FENCE_ENG, FENCE_INSN. -/
def dec38 (r : Raw) : Except Illegal Instr :=
  if bits r.d 3 3 == 0 then chk (decide (bits r.d 0 3 < 6))
      true
      true
      (.fenceFull (Scope.ofCode (bits r.d 0 3)))
  else if bits r.d 3 3 == 1 then chk (decide (bits r.d 0 3 < 6))
      true
      true
      (.fenceAcq (Scope.ofCode (bits r.d 0 3)))
  else if bits r.d 3 3 == 2 then chk (decide (bits r.d 0 3 < 6))
      true
      true
      (.fenceRel (Scope.ofCode (bits r.d 0 3)))
  else if bits r.d 3 3 == 3 then chk (decide (bits r.d 0 3 < 6))
      true
      true
      (.fenceEng (Scope.ofCode (bits r.d 0 3)))
  else if bits r.d 3 3 == 4 then chk (bits r.d 0 3 == 0)
      true
      true
      (.fenceInsn)
  else noForm

/-- OP 0x39, format I: PREF. -/
def dec39 (r : Raw) : Except Illegal Instr :=
  if bits r.f 3 2 == 0 then chk (decide (bits r.f 0 2 < 2))
      true
      (r.d == 0)
      (.pref (gS r.a r.ta) (PLevel.ofCode (bits r.f 0 2)) (bits r.f 2 1 == 1) (BitVec.ofNat 20 (bits r.imm 0 20)))
  else noForm

/-- OP 0x3A, format X: WMAP, WUNMAP, WFLUSH, WINV. -/
def dec3A (r : Raw) : Except Illegal Instr :=
  if bits r.f 8 3 == 0 then chk true
      true
      (bits r.f 3 5 == 0)
      (.wmap (gR r.d) (gS r.a r.ta) (gS r.b r.tb) (gS r.c r.tc) (BitVec.ofNat 3 (bits r.f 0 3)))
  else if bits r.f 8 3 == 1 then chk true
      true
      (r.d == 0 && r.a == 0 && r.ta == 0 && r.b == 0 && r.tb == 0 && r.c == 0 && r.tc == 0 && bits r.f 3 5 == 0)
      (.wunmap (BitVec.ofNat 3 (bits r.f 0 3)))
  else if bits r.f 8 3 == 2 then chk true
      true
      (r.d == 0 && r.a == 0 && r.ta == 0 && r.b == 0 && r.tb == 0 && r.c == 0 && r.tc == 0 && bits r.f 3 5 == 0)
      (.wflush (BitVec.ofNat 3 (bits r.f 0 3)))
  else if bits r.f 8 3 == 3 then chk true
      true
      (r.d == 0 && r.a == 0 && r.ta == 0 && r.b == 0 && r.tb == 0 && r.c == 0 && r.tc == 0 && bits r.f 3 5 == 0)
      (.winv (BitVec.ofNat 3 (bits r.f 0 3)))
  else noForm

/-- OP 0x3B, format X: UPD. -/
def dec3B (r : Raw) : Except Illegal Instr :=
  if bits r.f 8 3 == 0 then chk (decide (bits r.f 0 2 < 3))
      true
      (r.d == 0 && r.c == 0 && r.tc == 0 && bits r.f 2 6 == 0)
      (.upd (gS r.a r.ta) (gS r.b r.tb) (UType.ofCode (bits r.f 0 2)))
  else noForm

/-- OP 0x3C, format X: UPDV. -/
def dec3C (r : Raw) : Except Illegal Instr :=
  if bits r.f 8 3 == 0 then chk (decide (bits r.f 0 2 < 3))
      (okV r.b && okV r.c)
      (r.d == 0 && (bits r.f 7 1 == 1 || bits r.f 4 3 == 0))
      (.updv (gS r.a r.ta) (vS r.b r.tb) (vS r.c r.tc) (oP (bits r.f 7 1) (bits r.f 4 3)) (BitVec.ofNat 2 (bits r.f 2 2)) (UType.ofCode (bits r.f 0 2)))
  else noForm

/-- OP 0x3D, format X: UREG, UREG_REL, UFLUSH, UWAIT. -/
def dec3D (r : Raw) : Except Illegal Instr :=
  if bits r.f 7 1 == 0 && bits r.f 8 3 == 0 then chk true
      true
      (r.b == 0 && r.tb == 0 && r.c == 0 && r.tc == 0 && bits r.f 0 7 == 0)
      (.ureg (gR r.d) (gS r.a r.ta))
  else if bits r.f 7 1 == 1 && bits r.f 8 3 == 0 then chk true
      true
      (r.b == 0 && r.tb == 0 && r.c == 0 && r.tc == 0 && bits r.f 0 7 == 0)
      (.uregRel (gR r.d) (gS r.a r.ta))
  else if bits r.f 8 3 == 1 then chk true
      true
      (r.d == 0 && r.b == 0 && r.tb == 0 && r.c == 0 && r.tc == 0 && bits r.f 0 8 == 0)
      (.uflush (gS r.a r.ta))
  else if bits r.f 8 3 == 2 then chk true
      true
      (r.d == 0 && r.a == 0 && r.ta == 0 && r.b == 0 && r.tb == 0 && r.c == 0 && r.tc == 0 && bits r.f 0 8 == 0)
      (.uwait)
  else noForm

/-- OP 0x40, format X: QGSET. -/
def dec40 (r : Raw) : Except Illegal Instr :=
  if bits r.f 8 3 == 0 then chk true
      (okM r.b)
      (r.d == 0 && r.tb == 0 && r.c == 0 && r.tc == 0 && bits r.f 0 8 == 0)
      (.qgset (gS r.a r.ta) (mR r.b))
  else noForm

/-- OP 0x41, format I: LDNM. -/
def dec41 (r : Raw) : Except Illegal Instr :=
  if r.f == 0 then chk true
      (okV r.d)
      true
      (.ldnm (vR r.d) (gS r.a r.ta) (BitVec.ofNat 20 (bits r.imm 0 20)))
  else noForm

/-- OP 0x42, format I: QCMP. -/
def dec42 (r : Raw) : Except Illegal Instr :=
  if r.f == 0 then chk true
      (okM r.d)
      (bits r.imm 18 2 == 0)
      (.qcmp (mR r.d) (gS r.a r.ta) (BitVec.ofNat 12 (bits r.imm 0 12)) (QType.ofCode (bits r.imm 12 3)) (QCond.ofCode (bits r.imm 15 3)))
  else noForm

/-- OP 0x43, format I: QADD, QADDI, QFADD. -/
def dec43 (r : Raw) : Except Illegal Instr :=
  if r.f == 0 then chk (bits r.imm 12 3 != 7)
      true
      (r.d == 0 && bits r.imm 15 5 == 0)
      (.qadd (gS r.a r.ta) (BitVec.ofNat 12 (bits r.imm 0 12)) (QType.ofCode (bits r.imm 12 3)))
  else if r.f == 1 then chk (bits r.imm 12 3 != 7)
      true
      (r.d == 0 && r.a == 0 && r.ta == 0)
      (.qaddi (BitVec.ofNat 12 (bits r.imm 0 12)) (QType.ofCode (bits r.imm 12 3)) (BitVec.ofNat 5 (bits r.imm 15 5)))
  else if bits r.f 0 5 == 2 && bits r.imm 12 3 == 7 then chk true
      true
      (r.d == 0 && bits r.imm 15 5 == 0)
      (.qfadd (gS r.a r.ta) (BitVec.ofNat 12 (bits r.imm 0 12)))
  else noForm

/-- OP 0x44, format I: QST, QLD. -/
def dec44 (r : Raw) : Except Illegal Instr :=
  if r.f == 0 then chk true
      true
      (r.d == 0 && bits r.imm 15 5 == 0)
      (.qst (gS r.a r.ta) (BitVec.ofNat 12 (bits r.imm 0 12)) (QType.ofCode (bits r.imm 12 3)))
  else if r.f == 1 then chk true
      true
      (r.a == 0 && r.ta == 0 && bits r.imm 15 5 == 0)
      (.qld (gR r.d) (BitVec.ofNat 12 (bits r.imm 0 12)) (QType.ofCode (bits r.imm 12 3)))
  else noForm

/-- OP 0x45, format X: QGATH, QSCAT. -/
def dec45 (r : Raw) : Except Illegal Instr :=
  if bits r.f 8 3 == 0 then chk (bits r.f 5 3 != 6)
      (okV r.d)
      (r.b == 0 && r.tb == 0 && r.c == 0 && r.tc == 0 && bits r.f 0 2 == 0)
      (.qgath (vR r.d) (gS r.a r.ta) (BitVec.ofNat 3 (bits r.f 2 3)) (QType.ofCode (bits r.f 5 3)))
  else if bits r.f 8 3 == 1 then chk (bits r.f 5 3 != 6)
      (okV r.d)
      (r.b == 0 && r.tb == 0 && r.c == 0 && r.tc == 0 && bits r.f 0 2 == 0)
      (.qscat (vR r.d) (gS r.a r.ta) (BitVec.ofNat 3 (bits r.f 2 3)) (QType.ofCode (bits r.f 5 3)))
  else noForm

/-- OP 0x46, format R: MAND, MOR, MXOR, MANDN. -/
def dec46 (r : Raw) : Except Illegal Instr :=
  if r.f == 0 then chk true
      (okM r.d && okM r.a && okM r.b)
      (r.ta == 0 && r.tb == 0)
      (.mand (mR r.d) (mR r.a) (mR r.b))
  else if r.f == 1 then chk true
      (okM r.d && okM r.a && okM r.b)
      (r.ta == 0 && r.tb == 0)
      (.mor (mR r.d) (mR r.a) (mR r.b))
  else if r.f == 2 then chk true
      (okM r.d && okM r.a && okM r.b)
      (r.ta == 0 && r.tb == 0)
      (.mxor (mR r.d) (mR r.a) (mR r.b))
  else if r.f == 3 then chk true
      (okM r.d && okM r.a && okM r.b)
      (r.ta == 0 && r.tb == 0)
      (.mandn (mR r.d) (mR r.a) (mR r.b))
  else noForm

/-- OP 0x47, format R: MPOPC, MFIRST, MTEST. -/
def dec47 (r : Raw) : Except Illegal Instr :=
  if r.f == 0 then chk true
      (okM r.a)
      (r.ta == 0 && r.b == 0 && r.tb == 0)
      (.mpopc (gR r.d) (mR r.a))
  else if r.f == 1 then chk true
      (okM r.a)
      (r.ta == 0 && r.b == 0 && r.tb == 0)
      (.mfirst (gR r.d) (mR r.a))
  else if r.f == 2 then chk true
      (okM r.a)
      (r.ta == 0 && r.b == 0 && r.tb == 0)
      (.mtest (gR r.d) (mR r.a))
  else noForm

/-- OP 0x48, format R: MSET, MCLR, MMOV, MFROMG, MTOG. -/
def dec48 (r : Raw) : Except Illegal Instr :=
  if r.tb == 0 && r.f == 0 then chk true
      (okM r.d)
      (r.a == 0 && r.ta == 0 && r.b == 0)
      (.mset (mR r.d))
  else if r.tb == 0 && r.f == 1 then chk true
      (okM r.d)
      (r.a == 0 && r.ta == 0 && r.b == 0)
      (.mclr (mR r.d))
  else if r.tb == 0 && r.f == 2 then chk true
      (okM r.d && okM r.a)
      (r.ta == 0 && r.b == 0)
      (.mmov (mR r.d) (mR r.a))
  else if r.tb == 0 && r.f == 3 then chk (decide (r.b < 4))
      (okM r.d)
      true
      (.mfromg (mR r.d) (gS r.a r.ta) (Fin.ofNat 4 r.b))
  else if r.tb == 1 && r.f == 0 then chk (decide (r.b < 4))
      (okM r.a)
      (r.ta == 0)
      (.mtog (gR r.d) (mR r.a) (Fin.ofNat 4 r.b))
  else noForm

/-- OP 0x50, format X: SOPEN_A, SOPEN_F. -/
def dec50 (r : Raw) : Except Illegal Instr :=
  if bits r.f 8 3 == 0 then chk true
      (okS r.d)
      (r.b == 0 && r.tb == 0 && r.c == 0 && r.tc == 0 && bits r.f 0 7 == 0)
      (.sopenA (sR r.d) (gS r.a r.ta) (bits r.f 7 1 == 1))
  else if bits r.f 8 3 == 1 then chk true
      (okS16 r.d)
      (r.b == 0 && r.tb == 0 && r.c == 0 && r.tc == 0 && bits r.f 0 7 == 0)
      (.sopenF (sR r.d) (gS r.a r.ta) (bits r.f 7 1 == 1))
  else noForm

/-- OP 0x51, format I: SADV, SADVTO. -/
def dec51 (r : Raw) : Except Illegal Instr :=
  if r.f == 0 then chk true
      (okS r.d)
      true
      (.sadv (sR r.d) (gS r.a r.ta) (BitVec.ofNat 20 (bits r.imm 0 20)))
  else if r.f == 1 then chk true
      (okS r.d)
      true
      (.sadvto (sR r.d) (gS r.a r.ta) (BitVec.ofNat 20 (bits r.imm 0 20)))
  else noForm

/-- OP 0x52, format R: STEND. -/
def dec52 (r : Raw) : Except Illegal Instr :=
  if r.f == 0 then chk true
      (okS r.a)
      (r.ta == 0 && r.b == 0 && r.tb == 0)
      (.stend (gR r.d) (sR r.a))
  else noForm

/-- OP 0x53, format R: SCLOSE. -/
def dec53 (r : Raw) : Except Illegal Instr :=
  if r.f == 0 then chk true
      (okS r.a)
      (r.d == 0 && r.ta == 0 && r.b == 0 && r.tb == 0)
      (.sclose (sR r.a))
  else noForm

/-- OP 0x54, format R: SPEEK. -/
def dec54 (r : Raw) : Except Illegal Instr :=
  if r.f == 0 then chk true
      (okS16 r.a)
      (r.ta == 0 && r.b == 0 && r.tb == 0)
      (.speek (gR r.d) (sR r.a))
  else noForm

/-- OP 0x55, format X: SISECT. -/
def dec55 (r : Raw) : Except Illegal Instr :=
  if bits r.f 8 3 == 0 then chk true
      true
      (r.ta == 0 && r.tb == 0 && r.tc == 0 && bits r.f 0 8 == 0)
      (.sisect (gR r.d) (gR r.a) (gR r.b) (gR r.c))
  else noForm

/-- OP 0x56, format X: SMERGE. -/
def dec56 (r : Raw) : Except Illegal Instr :=
  if bits r.f 8 3 == 0 then chk true
      true
      (r.ta == 0 && r.tb == 0 && r.c == 0 && r.tc == 0 && bits r.f 0 8 == 0)
      (.smerge (gR r.d) (gR r.a) (gR r.b))
  else noForm

/-- OP 0x58, format X: VADD, VSUB, VMUL, VMULH, VMIN, VMAX, VABSD. -/
def dec58 (r : Raw) : Except Illegal Instr :=
  if bits r.f 7 4 == 0 then chk (decide (bits r.f 3 4 < 11) && (VType.ofCode (bits r.f 3 4)).isIntFlt)
      (okV r.d && okV r.a && okV r.b)
      (r.c == 0 && (r.tc == 1 || bits r.f 0 3 == 0))
      (.vadd (vR r.d) (vS r.a r.ta) (vS r.b r.tb) (VType.ofCode (bits r.f 3 4)) (oP r.tc (bits r.f 0 3)))
  else if bits r.f 7 4 == 1 then chk (decide (bits r.f 3 4 < 11) && (VType.ofCode (bits r.f 3 4)).isIntFlt)
      (okV r.d && okV r.a && okV r.b)
      (r.c == 0 && (r.tc == 1 || bits r.f 0 3 == 0))
      (.vsub (vR r.d) (vS r.a r.ta) (vS r.b r.tb) (VType.ofCode (bits r.f 3 4)) (oP r.tc (bits r.f 0 3)))
  else if bits r.f 7 4 == 2 then chk (decide (bits r.f 3 4 < 11) && (VType.ofCode (bits r.f 3 4)).isIntFlt)
      (okV r.d && okV r.a && okV r.b)
      (r.c == 0 && (r.tc == 1 || bits r.f 0 3 == 0))
      (.vmul (vR r.d) (vS r.a r.ta) (vS r.b r.tb) (VType.ofCode (bits r.f 3 4)) (oP r.tc (bits r.f 0 3)))
  else if bits r.f 7 4 == 3 then chk (decide (bits r.f 3 4 < 11) && (VType.ofCode (bits r.f 3 4)).isInt)
      (okV r.d && okV r.a && okV r.b)
      (r.c == 0 && (r.tc == 1 || bits r.f 0 3 == 0))
      (.vmulh (vR r.d) (vS r.a r.ta) (vS r.b r.tb) (VType.ofCode (bits r.f 3 4)) (oP r.tc (bits r.f 0 3)))
  else if bits r.f 7 4 == 4 then chk (decide (bits r.f 3 4 < 11) && (VType.ofCode (bits r.f 3 4)).isIntFlt)
      (okV r.d && okV r.a && okV r.b)
      (r.c == 0 && (r.tc == 1 || bits r.f 0 3 == 0))
      (.vmin (vR r.d) (vS r.a r.ta) (vS r.b r.tb) (VType.ofCode (bits r.f 3 4)) (oP r.tc (bits r.f 0 3)))
  else if bits r.f 7 4 == 5 then chk (decide (bits r.f 3 4 < 11) && (VType.ofCode (bits r.f 3 4)).isIntFlt)
      (okV r.d && okV r.a && okV r.b)
      (r.c == 0 && (r.tc == 1 || bits r.f 0 3 == 0))
      (.vmax (vR r.d) (vS r.a r.ta) (vS r.b r.tb) (VType.ofCode (bits r.f 3 4)) (oP r.tc (bits r.f 0 3)))
  else if bits r.f 7 4 == 6 then chk (decide (bits r.f 3 4 < 11) && (VType.ofCode (bits r.f 3 4)).isIntFlt)
      (okV r.d && okV r.a && okV r.b)
      (r.c == 0 && (r.tc == 1 || bits r.f 0 3 == 0))
      (.vabsd (vR r.d) (vS r.a r.ta) (vS r.b r.tb) (VType.ofCode (bits r.f 3 4)) (oP r.tc (bits r.f 0 3)))
  else noForm

/-- OP 0x59, format X: VFMA, VFMS. -/
def dec59 (r : Raw) : Except Illegal Instr :=
  if bits r.f 7 4 == 0 then chk (decide (bits r.f 3 4 < 11) && (VType.ofCode (bits r.f 3 4)).isFlt)
      (okV r.d && okV r.a && okV r.b)
      (r.c == 0 && (r.tc == 1 || bits r.f 0 3 == 0))
      (.vfma (vR r.d) (vS r.a r.ta) (vS r.b r.tb) (VType.ofCode (bits r.f 3 4)) (oP r.tc (bits r.f 0 3)))
  else if bits r.f 7 4 == 1 then chk (decide (bits r.f 3 4 < 11) && (VType.ofCode (bits r.f 3 4)).isFlt)
      (okV r.d && okV r.a && okV r.b)
      (r.c == 0 && (r.tc == 1 || bits r.f 0 3 == 0))
      (.vfms (vR r.d) (vS r.a r.ta) (vS r.b r.tb) (VType.ofCode (bits r.f 3 4)) (oP r.tc (bits r.f 0 3)))
  else noForm

/-- OP 0x5A, format X: VAND, VOR, VXOR, VANDN, VSHL, VSHR, VSRA. -/
def dec5A (r : Raw) : Except Illegal Instr :=
  if bits r.f 7 4 == 0 then chk (decide (bits r.f 3 4 < 11) && (VType.ofCode (bits r.f 3 4)).isInt)
      (okV r.d && okV r.a && okV r.b)
      (r.c == 0 && (r.tc == 1 || bits r.f 0 3 == 0))
      (.vand (vR r.d) (vS r.a r.ta) (vS r.b r.tb) (VType.ofCode (bits r.f 3 4)) (oP r.tc (bits r.f 0 3)))
  else if bits r.f 7 4 == 1 then chk (decide (bits r.f 3 4 < 11) && (VType.ofCode (bits r.f 3 4)).isInt)
      (okV r.d && okV r.a && okV r.b)
      (r.c == 0 && (r.tc == 1 || bits r.f 0 3 == 0))
      (.vor (vR r.d) (vS r.a r.ta) (vS r.b r.tb) (VType.ofCode (bits r.f 3 4)) (oP r.tc (bits r.f 0 3)))
  else if bits r.f 7 4 == 2 then chk (decide (bits r.f 3 4 < 11) && (VType.ofCode (bits r.f 3 4)).isInt)
      (okV r.d && okV r.a && okV r.b)
      (r.c == 0 && (r.tc == 1 || bits r.f 0 3 == 0))
      (.vxor (vR r.d) (vS r.a r.ta) (vS r.b r.tb) (VType.ofCode (bits r.f 3 4)) (oP r.tc (bits r.f 0 3)))
  else if bits r.f 7 4 == 3 then chk (decide (bits r.f 3 4 < 11) && (VType.ofCode (bits r.f 3 4)).isInt)
      (okV r.d && okV r.a && okV r.b)
      (r.c == 0 && (r.tc == 1 || bits r.f 0 3 == 0))
      (.vandn (vR r.d) (vS r.a r.ta) (vS r.b r.tb) (VType.ofCode (bits r.f 3 4)) (oP r.tc (bits r.f 0 3)))
  else if bits r.f 7 4 == 4 then chk (decide (bits r.f 3 4 < 11) && (VType.ofCode (bits r.f 3 4)).isInt)
      (okV r.d && okV r.a && okV r.b)
      (r.c == 0 && (r.tc == 1 || bits r.f 0 3 == 0))
      (.vshl (vR r.d) (vS r.a r.ta) (vS r.b r.tb) (VType.ofCode (bits r.f 3 4)) (oP r.tc (bits r.f 0 3)))
  else if bits r.f 7 4 == 5 then chk (decide (bits r.f 3 4 < 11) && (VType.ofCode (bits r.f 3 4)).isInt)
      (okV r.d && okV r.a && okV r.b)
      (r.c == 0 && (r.tc == 1 || bits r.f 0 3 == 0))
      (.vshr (vR r.d) (vS r.a r.ta) (vS r.b r.tb) (VType.ofCode (bits r.f 3 4)) (oP r.tc (bits r.f 0 3)))
  else if bits r.f 7 4 == 6 then chk (decide (bits r.f 3 4 < 11) && (VType.ofCode (bits r.f 3 4)).isInt)
      (okV r.d && okV r.a && okV r.b)
      (r.c == 0 && (r.tc == 1 || bits r.f 0 3 == 0))
      (.vsra (vR r.d) (vS r.a r.ta) (vS r.b r.tb) (VType.ofCode (bits r.f 3 4)) (oP r.tc (bits r.f 0 3)))
  else noForm

/-- OP 0x5B, format X: VCMP. -/
def dec5B (r : Raw) : Except Illegal Instr :=
    chk (decide (bits r.f 3 4 < 11) && decide (bits r.f 7 4 < 6) && (VType.ofCode (bits r.f 3 4)).isIntFlt)
      (okM r.d && okV r.a && okV r.b)
      (r.c == 0 && (r.tc == 1 || bits r.f 0 3 == 0))
      (.vcmp (mR r.d) (vS r.a r.ta) (vS r.b r.tb) (VCond.ofCode (bits r.f 7 4)) (VType.ofCode (bits r.f 3 4)) (oP r.tc (bits r.f 0 3)))

/-- OP 0x5C, format X: VSEL. -/
def dec5C (r : Raw) : Except Illegal Instr :=
  if bits r.f 7 4 == 0 then chk (decide (bits r.f 3 4 < 11))
      (okV r.d && okV r.a && okV r.b)
      (r.c == 0 && r.tc == 1)
      (.vsel (vR r.d) (vS r.a r.ta) (vS r.b r.tb) (VType.ofCode (bits r.f 3 4)) (pR (bits r.f 0 3)))
  else noForm

/-- OP 0x5D, format X: VBCAST, VEXTR, VINS. -/
def dec5D (r : Raw) : Except Illegal Instr :=
  if bits r.f 7 4 == 0 then chk (decide (bits r.f 3 4 < 11))
      (okV r.d)
      (r.b == 0 && r.tb == 0 && r.c == 0 && (r.tc == 1 || bits r.f 0 3 == 0))
      (.vbcast (vR r.d) (gS r.a r.ta) (VType.ofCode (bits r.f 3 4)) (oP r.tc (bits r.f 0 3)))
  else if bits r.f 7 4 == 1 then chk (decide (bits r.f 3 4 < 11))
      (okV r.a)
      (r.c == 0 && r.tc == 0 && bits r.f 0 3 == 0)
      (.vextr (gR r.d) (vS r.a r.ta) (gS r.b r.tb) (VType.ofCode (bits r.f 3 4)))
  else if bits r.f 7 4 == 2 then chk (decide (bits r.f 3 4 < 11))
      (okV r.d)
      (r.c == 0 && r.tc == 0 && bits r.f 0 3 == 0)
      (.vins (vR r.d) (gS r.a r.ta) (gS r.b r.tb) (VType.ofCode (bits r.f 3 4)))
  else noForm

/-- OP 0x5E, format X: VPERM, VROT. -/
def dec5E (r : Raw) : Except Illegal Instr :=
  if bits r.f 7 4 == 0 then chk (decide (bits r.f 3 4 < 11))
      (okV r.d && okV r.a && okV r.b)
      (r.c == 0 && (r.tc == 1 || bits r.f 0 3 == 0))
      (.vperm (vR r.d) (vS r.a r.ta) (vS r.b r.tb) (VType.ofCode (bits r.f 3 4)) (oP r.tc (bits r.f 0 3)))
  else if bits r.f 7 4 == 1 then chk (decide (bits r.f 3 4 < 11))
      (okV r.d && okV r.a)
      (r.c == 0 && r.tc == 0 && bits r.f 0 3 == 0)
      (.vrot (vR r.d) (vS r.a r.ta) (gS r.b r.tb) (VType.ofCode (bits r.f 3 4)))
  else noForm

/-- OP 0x5F, format X: VREDADD, VREDMIN, VREDMAX, VREDOR. -/
def dec5F (r : Raw) : Except Illegal Instr :=
  if bits r.f 7 4 == 0 then chk (decide (bits r.f 3 4 < 11) && (VType.ofCode (bits r.f 3 4)).isIntFlt)
      (okV r.a)
      (r.b == 0 && r.tb == 0 && r.c == 0 && (r.tc == 1 || bits r.f 0 3 == 0))
      (.vredadd (gR r.d) (vS r.a r.ta) (VType.ofCode (bits r.f 3 4)) (oP r.tc (bits r.f 0 3)))
  else if bits r.f 7 4 == 1 then chk (decide (bits r.f 3 4 < 11) && (VType.ofCode (bits r.f 3 4)).isIntFlt)
      (okV r.a)
      (r.b == 0 && r.tb == 0 && r.c == 0 && (r.tc == 1 || bits r.f 0 3 == 0))
      (.vredmin (gR r.d) (vS r.a r.ta) (VType.ofCode (bits r.f 3 4)) (oP r.tc (bits r.f 0 3)))
  else if bits r.f 7 4 == 2 then chk (decide (bits r.f 3 4 < 11) && (VType.ofCode (bits r.f 3 4)).isIntFlt)
      (okV r.a)
      (r.b == 0 && r.tb == 0 && r.c == 0 && (r.tc == 1 || bits r.f 0 3 == 0))
      (.vredmax (gR r.d) (vS r.a r.ta) (VType.ofCode (bits r.f 3 4)) (oP r.tc (bits r.f 0 3)))
  else if bits r.f 7 4 == 3 then chk (decide (bits r.f 3 4 < 11) && (VType.ofCode (bits r.f 3 4)).isInt)
      (okV r.a)
      (r.b == 0 && r.tb == 0 && r.c == 0 && (r.tc == 1 || bits r.f 0 3 == 0))
      (.vredor (gR r.d) (vS r.a r.ta) (VType.ofCode (bits r.f 3 4)) (oP r.tc (bits r.f 0 3)))
  else noForm

/-- OP 0x60, format X: VSCAN. -/
def dec60 (r : Raw) : Except Illegal Instr :=
    chk (decide (bits r.f 3 4 < 11) && decide (bits r.f 7 4 < 4) && scanOk (ScanOp.ofCode (bits r.f 7 4)) (VType.ofCode (bits r.f 3 4)))
      (okV r.d && okV r.a)
      (r.b == 0 && r.tb == 0 && r.c == 0 && (r.tc == 1 || bits r.f 0 3 == 0))
      (.vscan (vR r.d) (vS r.a r.ta) (ScanOp.ofCode (bits r.f 7 4)) (VType.ofCode (bits r.f 3 4)) (oP r.tc (bits r.f 0 3)))

/-- OP 0x61, format X: VCVT. -/
def dec61 (r : Raw) : Except Illegal Instr :=
    chk (decide (bits r.f 3 4 < 11) && decide (r.b < vcvtParts (VType.ofCode (bits r.f 3 4)) (VType.ofCode (bits r.f 7 4))) && decide (bits r.f 7 4 < 11))
      (okV r.d && okV r.a)
      (r.c == 0 && (r.tc == 1 || bits r.f 0 3 == 0))
      (.vcvt (vR r.d) (vS r.a r.ta) (VType.ofCode (bits r.f 7 4)) (VType.ofCode (bits r.f 3 4)) (BitVec.ofNat 2 r.b) (r.tb == 1) (oP r.tc (bits r.f 0 3)))

/-- OP 0x62, format X: VCOMPRESS, VEXPAND. -/
def dec62 (r : Raw) : Except Illegal Instr :=
  if bits r.f 7 4 == 0 then chk (decide (bits r.f 3 4 < 11))
      (okV r.d && okV r.a)
      (r.b == 0 && r.tb == 0 && r.c == 0 && r.tc == 1)
      (.vcompress (vR r.d) (vS r.a r.ta) (VType.ofCode (bits r.f 3 4)) (pR (bits r.f 0 3)))
  else if bits r.f 7 4 == 1 then chk (decide (bits r.f 3 4 < 11))
      (okV r.d && okV r.a)
      (r.b == 0 && r.tb == 0 && r.c == 0 && r.tc == 1)
      (.vexpand (vR r.d) (vS r.a r.ta) (VType.ofCode (bits r.f 3 4)) (pR (bits r.f 0 3)))
  else noForm

/-- OP 0x63, format X: VSORT. -/
def dec63 (r : Raw) : Except Illegal Instr :=
    chk (decide (bits r.f 3 4 < 11) && decide (bits r.f 7 4 < 2) && (VType.ofCode (bits r.f 3 4)).isIntFlt)
      (okV r.d && okV r.a)
      (r.b == 0 && r.tb == 0 && r.c == 0 && (r.tc == 1 || bits r.f 0 3 == 0))
      (.vsort (vR r.d) (vS r.a r.ta) (SortOrd.ofCode (bits r.f 7 4)) (VType.ofCode (bits r.f 3 4)) (oP r.tc (bits r.f 0 3)))

/-- OP 0x64, format X: VDOT4. -/
def dec64 (r : Raw) : Except Illegal Instr :=
  if bits r.f 7 4 == 0 then chk (decide (bits r.f 3 4 < 11) && (VType.ofCode (bits r.f 3 4)).isDot)
      (okV r.d && okV r.a && okV r.b)
      (r.c == 0 && (r.tc == 1 || bits r.f 0 3 == 0))
      (.vdot4 (vR r.d) (vS r.a r.ta) (vS r.b r.tb) (VType.ofCode (bits r.f 3 4)) (oP r.tc (bits r.f 0 3)))
  else noForm

/-- OP 0x65, format X: VRCP, VRSQ, VEXP2, VLOG2. -/
def dec65 (r : Raw) : Except Illegal Instr :=
  if bits r.f 7 4 == 0 then chk (decide (bits r.f 3 4 < 11) && (VType.ofCode (bits r.f 3 4)).isF32)
      (okV r.d && okV r.a)
      (r.b == 0 && r.tb == 0 && r.c == 0 && (r.tc == 1 || bits r.f 0 3 == 0))
      (.vrcp (vR r.d) (vS r.a r.ta) (VType.ofCode (bits r.f 3 4)) (oP r.tc (bits r.f 0 3)))
  else if bits r.f 7 4 == 1 then chk (decide (bits r.f 3 4 < 11) && (VType.ofCode (bits r.f 3 4)).isF32)
      (okV r.d && okV r.a)
      (r.b == 0 && r.tb == 0 && r.c == 0 && (r.tc == 1 || bits r.f 0 3 == 0))
      (.vrsq (vR r.d) (vS r.a r.ta) (VType.ofCode (bits r.f 3 4)) (oP r.tc (bits r.f 0 3)))
  else if bits r.f 7 4 == 2 then chk (decide (bits r.f 3 4 < 11) && (VType.ofCode (bits r.f 3 4)).isF32)
      (okV r.d && okV r.a)
      (r.b == 0 && r.tb == 0 && r.c == 0 && (r.tc == 1 || bits r.f 0 3 == 0))
      (.vexp2 (vR r.d) (vS r.a r.ta) (VType.ofCode (bits r.f 3 4)) (oP r.tc (bits r.f 0 3)))
  else if bits r.f 7 4 == 3 then chk (decide (bits r.f 3 4 < 11) && (VType.ofCode (bits r.f 3 4)).isF32)
      (okV r.d && okV r.a)
      (r.b == 0 && r.tb == 0 && r.c == 0 && (r.tc == 1 || bits r.f 0 3 == 0))
      (.vlog2 (vR r.d) (vS r.a r.ta) (VType.ofCode (bits r.f 3 4)) (oP r.tc (bits r.f 0 3)))
  else noForm

/-- OP 0x66, format X: VDIV, VSQRT. -/
def dec66 (r : Raw) : Except Illegal Instr :=
  if bits r.f 7 4 == 0 then chk (decide (bits r.f 3 4 < 11) && (VType.ofCode (bits r.f 3 4)).isFlt)
      (okV r.d && okV r.a && okV r.b)
      (r.c == 0 && (r.tc == 1 || bits r.f 0 3 == 0))
      (.vdiv (vR r.d) (vS r.a r.ta) (vS r.b r.tb) (VType.ofCode (bits r.f 3 4)) (oP r.tc (bits r.f 0 3)))
  else if bits r.f 7 4 == 1 then chk (decide (bits r.f 3 4 < 11) && (VType.ofCode (bits r.f 3 4)).isFlt)
      (okV r.d && okV r.a)
      (r.b == 0 && r.tb == 0 && r.c == 0 && (r.tc == 1 || bits r.f 0 3 == 0))
      (.vsqrt (vR r.d) (vS r.a r.ta) (VType.ofCode (bits r.f 3 4)) (oP r.tc (bits r.f 0 3)))
  else noForm

/-- OP 0x68, format X: BCENC, BCDEC. -/
def dec68 (r : Raw) : Except Illegal Instr :=
  if bits r.f 7 4 == 0 then chk (decide (bits r.f 3 4 < 11) && (VType.ofCode (bits r.f 3 4)).isF32)
      (okV r.d && okV r.a)
      (r.b == 0 && r.tb == 0 && r.tc == 0 && bits r.f 0 3 == 0)
      (.bcenc (vR r.d) (vS r.a r.ta) (gR r.c) (VType.ofCode (bits r.f 3 4)))
  else if bits r.f 7 4 == 1 then chk (decide (bits r.f 3 4 < 11) && (VType.ofCode (bits r.f 3 4)).isF32)
      (okV r.d && okV r.a)
      (r.c == 0 && r.tc == 0 && bits r.f 0 3 == 0)
      (.bcdec (vR r.d) (vS r.a r.ta) (gS r.b r.tb) (VType.ofCode (bits r.f 3 4)))
  else noForm

/-- OP 0x70, format X: MXCFG. -/
def dec70 (r : Raw) : Except Illegal Instr :=
  if bits r.f 8 3 == 0 then chk true
      true
      (r.d == 0 && r.b == 0 && r.tb == 0 && r.c == 0 && r.tc == 0 && bits r.f 0 8 == 0)
      (.mxcfg (gS r.a r.ta))
  else noForm

/-- OP 0x71, format X: MXMM. -/
def dec71 (r : Raw) : Except Illegal Instr :=
  if bits r.f 8 3 == 0 then chk true
      (okZ r.d)
      (r.c == 0 && r.tc == 0 && bits r.f 4 4 == 0)
      (.mxmm (zR r.d) (gS r.a r.ta) (gS r.b r.tb) (BitVec.ofNat 4 (bits r.f 0 4)))
  else noForm

/-- OP 0x72, format Y: MXMMS. -/
def dec72 (r : Raw) : Except Illegal Instr :=
  if bits r.f 0 3 == 0 then chk true
      (okZ r.d && okV r.a && okV r.b && okV r.c)
      (bits r.f 5 15 == 0)
      (.mxmms (zR r.d) (vS r.a r.ta) (vS r.b r.tb) (vS r.c r.tc) (gS r.e r.te) (BitVec.ofNat 2 (bits r.f 3 2)))
  else noForm

/-- OP 0x73, format X: MXPRUNE. -/
def dec73 (r : Raw) : Except Illegal Instr :=
  if bits r.f 8 3 == 0 then chk true
      (okV r.d && okV r.a && okV r.b)
      (r.c == 0 && r.tc == 0 && bits r.f 2 6 == 0 && r.d != r.a)
      (.mxprune (vR r.d) (vS r.a r.ta) (vS r.b r.tb) (BitVec.ofNat 2 (bits r.f 0 2)))
  else noForm

/-- OP 0x74, format X: MXZERO, MXLD, MXST. -/
def dec74 (r : Raw) : Except Illegal Instr :=
  if bits r.f 8 3 == 0 then chk true
      (okZ r.d)
      (r.a == 0 && r.ta == 0 && r.b == 0 && r.tb == 0 && r.c == 0 && r.tc == 0 && bits r.f 0 8 == 0)
      (.mxzero (zR r.d))
  else if bits r.f 8 3 == 1 then chk true
      (okZ r.d)
      (r.c == 0 && r.tc == 0 && bits r.f 0 8 == 0)
      (.mxld (zR r.d) (gS r.a r.ta) (gS r.b r.tb))
  else if bits r.f 8 3 == 2 then chk (decide (bits r.f 4 4 < 11) && (VType.ofCode (bits r.f 4 4)).isStored)
      (okZ r.c)
      (r.d == 0 && bits r.f 0 3 == 0)
      (.mxst (gS r.a r.ta) (gS r.b r.tb) (zS r.c r.tc) (bits r.f 3 1 == 1) (VType.ofCode (bits r.f 4 4)))
  else noForm

/-- OP 0x75, format X: ZRD, ZWR. -/
def dec75 (r : Raw) : Except Illegal Instr :=
  if bits r.f 8 3 == 0 then chk true
      (okV r.d && okZ r.a)
      (r.c == 0 && r.tc == 0 && bits r.f 0 8 == 0)
      (.zrd (vR r.d) (zS r.a r.ta) (gS r.b r.tb))
  else if bits r.f 8 3 == 1 then chk true
      (okZ r.d && okV r.a)
      (r.c == 0 && r.tc == 0 && bits r.f 0 8 == 0)
      (.zwr (zR r.d) (vS r.a r.ta) (gS r.b r.tb))
  else noForm

/-- OP 0x76, format R: MXWAIT. -/
def dec76 (r : Raw) : Except Illegal Instr :=
  if r.f == 0 then chk true
      (okZ r.d)
      (r.a == 0 && r.ta == 0 && r.b == 0 && r.tb == 0)
      (.mxwait (zR r.d))
  else noForm

/-- OP 0x77, format X: MXREM. -/
def dec77 (r : Raw) : Except Illegal Instr :=
  if bits r.f 8 3 == 0 then chk true
      true
      (r.d == 0 && r.b == 0 && r.tb == 0 && r.c == 0 && r.tc == 0 && bits r.f 0 8 == 0)
      (.mxrem (gS r.a r.ta))
  else noForm

/-- OP 0x78, format Y: CPY, CPYM, GATHR, SCATR, EMBAG, COLL. -/
def dec78 (r : Raw) : Except Illegal Instr :=
  if bits r.f 0 3 == 0 then chk (decide (bits r.f 9 2 < 3))
      true
      ((bits r.f 9 2 == 2 || bits r.f 11 3 == 0) && bits r.f 14 6 == 0 && r.b == 0 && r.tb == 0 && r.c == 0 && r.tc == 0 && r.e == 0 && r.te == 0)
      (.cpy (gR r.d) (gS r.a r.ta) (BitVec.ofNat 6 (bits r.f 3 6)) (EngMode.ofCode (bits r.f 9 2) (bits r.f 11 3)))
  else if bits r.f 0 3 == 1 then chk (decide (bits r.f 9 2 < 3))
      true
      ((bits r.f 9 2 == 2 || bits r.f 11 3 == 0) && bits r.f 14 6 == 0 && r.b == 0 && r.tb == 0 && r.c == 0 && r.tc == 0 && r.e == 0 && r.te == 0)
      (.cpym (gR r.d) (gS r.a r.ta) (BitVec.ofNat 6 (bits r.f 3 6)) (EngMode.ofCode (bits r.f 9 2) (bits r.f 11 3)))
  else if bits r.f 0 3 == 2 then chk (decide (bits r.f 9 2 < 3))
      true
      ((bits r.f 9 2 == 2 || bits r.f 11 3 == 0) && bits r.f 14 6 == 0 && r.b == 0 && r.tb == 0 && r.c == 0 && r.tc == 0 && r.e == 0 && r.te == 0)
      (.gathr (gR r.d) (gS r.a r.ta) (BitVec.ofNat 6 (bits r.f 3 6)) (EngMode.ofCode (bits r.f 9 2) (bits r.f 11 3)))
  else if bits r.f 0 3 == 3 then chk (decide (bits r.f 9 2 < 3))
      true
      ((bits r.f 9 2 == 2 || bits r.f 11 3 == 0) && bits r.f 14 6 == 0 && r.b == 0 && r.tb == 0 && r.c == 0 && r.tc == 0 && r.e == 0 && r.te == 0)
      (.scatr (gR r.d) (gS r.a r.ta) (BitVec.ofNat 6 (bits r.f 3 6)) (EngMode.ofCode (bits r.f 9 2) (bits r.f 11 3)))
  else if bits r.f 0 3 == 4 then chk (decide (bits r.f 9 2 < 3))
      true
      ((bits r.f 9 2 == 2 || bits r.f 11 3 == 0) && bits r.f 14 6 == 0 && r.b == 0 && r.tb == 0 && r.c == 0 && r.tc == 0 && r.e == 0 && r.te == 0)
      (.embag (gR r.d) (gS r.a r.ta) (BitVec.ofNat 6 (bits r.f 3 6)) (EngMode.ofCode (bits r.f 9 2) (bits r.f 11 3)))
  else if bits r.f 0 3 == 5 then chk (decide (bits r.f 9 2 < 2))
      true
      ((bits r.f 9 2 == 2 || bits r.f 11 3 == 0) && bits r.f 14 6 == 0 && r.b == 0 && r.tb == 0 && r.c == 0 && r.tc == 0 && r.e == 0 && r.te == 0)
      (.coll (gR r.d) (gS r.a r.ta) (BitVec.ofNat 6 (bits r.f 3 6)) (EngMode.ofCode (bits r.f 9 2) (bits r.f 11 3)))
  else noForm

/-- OP 0x79, format I: CPYWAIT, CPYST, CPYRES. -/
def dec79 (r : Raw) : Except Illegal Instr :=
  if r.f == 0 then chk true
      true
      (r.a == 0 && r.ta == 0 && bits r.imm 7 13 == 0)
      (.cpywait (gR r.d) (BitVec.ofNat 6 (bits r.imm 0 6)) (bits r.imm 6 1 == 1))
  else if r.f == 1 then chk true
      true
      (r.a == 0 && r.ta == 0 && bits r.imm 6 14 == 0)
      (.cpyst (gR r.d) (BitVec.ofNat 6 (bits r.imm 0 6)))
  else if r.f == 2 then chk true
      true
      (r.a == 0 && r.ta == 0 && bits r.imm 6 14 == 0)
      (.cpyres (gR r.d) (BitVec.ofNat 6 (bits r.imm 0 6)))
  else noForm

/-- OP 0x7A, format X: BARR, BWAIT, BARRD, BWANY, BDOM. -/
def dec7A (r : Raw) : Except Illegal Instr :=
  if bits r.f 8 3 == 0 then chk true
      (okB r.d)
      (r.a == 0 && r.ta == 0 && r.b == 0 && r.tb == 0 && r.c == 0 && r.tc == 0 && bits r.f 0 8 == 0)
      (.barr (bR r.d))
  else if bits r.f 8 3 == 1 then chk true
      (okB r.d)
      (r.a == 0 && r.ta == 0 && r.b == 0 && r.tb == 0 && r.c == 0 && r.tc == 0 && bits r.f 0 8 == 0)
      (.bwait (bR r.d))
  else if bits r.f 8 3 == 2 then chk true
      (okB r.d)
      (r.b == 0 && r.tb == 0 && r.c == 0 && r.tc == 0 && bits r.f 0 8 == 0)
      (.barrd (bR r.d) (gS r.a r.ta))
  else if bits r.f 8 3 == 3 then chk true
      true
      (r.b == 0 && r.tb == 0 && r.c == 0 && r.tc == 0 && bits r.f 0 8 == 0)
      (.bwany (gR r.d) (gS r.a r.ta))
  else if bits r.f 8 3 == 4 then chk true
      (okB r.d)
      (r.b == 0 && r.tb == 0 && r.c == 0 && r.tc == 0 && bits r.f 0 8 == 0)
      (.bdom (bR r.d) (gS r.a r.ta))
  else noForm

/-- OP 0x7B, format I: MTXLK, MTXUL, SEMP, SEMV, QCFG_SET, QCFG_PUT, QCFG_GET. -/
def dec7B (r : Raw) : Except Illegal Instr :=
  if r.f == 0 then chk true
      true
      (r.d == 0 && r.a == 0 && r.ta == 0 && bits r.imm 3 17 == 0)
      (.mtxlk (BitVec.ofNat 3 (bits r.imm 0 3)))
  else if r.f == 1 then chk true
      true
      (r.d == 0 && r.a == 0 && r.ta == 0 && bits r.imm 3 17 == 0)
      (.mtxul (BitVec.ofNat 3 (bits r.imm 0 3)))
  else if r.f == 2 then chk true
      true
      (r.d == 0 && r.a == 0 && r.ta == 0 && bits r.imm 3 17 == 0)
      (.semp (BitVec.ofNat 3 (bits r.imm 0 3)))
  else if r.f == 3 then chk true
      true
      (r.d == 0 && r.a == 0 && r.ta == 0 && bits r.imm 3 17 == 0)
      (.semv (BitVec.ofNat 3 (bits r.imm 0 3)))
  else if bits r.f 0 5 == 4 && bits r.imm 0 2 == 0 then chk true
      true
      (r.d == 0 && bits r.imm 6 14 == 0)
      (.qcfgSet (gS r.a r.ta) (BitVec.ofNat 4 (bits r.imm 2 4)))
  else if bits r.f 0 5 == 4 && bits r.imm 0 2 == 1 then chk true
      true
      (r.d == 0 && bits r.imm 6 14 == 0)
      (.qcfgPut (gS r.a r.ta) (BitVec.ofNat 4 (bits r.imm 2 4)))
  else if bits r.f 0 5 == 4 && bits r.imm 0 2 == 2 then chk true
      true
      (r.a == 0 && r.ta == 0 && bits r.imm 6 14 == 0)
      (.qcfgGet (gR r.d) (BitVec.ofNat 4 (bits r.imm 2 4)))
  else noForm

/-- OP 0x7C, format X: SLICE, SJOIN, YIELDS, WLAPP, WLPOP, WLQUIET. -/
def dec7C (r : Raw) : Except Illegal Instr :=
  if bits r.f 8 3 == 0 then chk true
      true
      (r.c == 0 && r.tc == 0 && bits r.f 0 8 == 0)
      (.slice (gR r.d) (gS r.a r.ta) (gS r.b r.tb))
  else if bits r.f 8 3 == 1 then chk true
      true
      (r.b == 0 && r.tb == 0 && r.c == 0 && r.tc == 0 && bits r.f 0 8 == 0)
      (.sjoin (gR r.d) (gS r.a r.ta))
  else if bits r.f 8 3 == 2 then chk true
      true
      (r.d == 0 && r.c == 0 && r.tc == 0 && bits r.f 0 8 == 0)
      (.yields (gS r.a r.ta) (gS r.b r.tb))
  else if bits r.f 8 3 == 3 then chk true
      true
      (r.d == 0 && r.c == 0 && r.tc == 0 && bits r.f 0 8 == 0)
      (.wlapp (gS r.a r.ta) (gS r.b r.tb))
  else if bits r.f 8 3 == 4 then chk true
      true
      (r.b == 0 && r.tb == 0 && r.tc == 0 && bits r.f 1 7 == 0 && r.d != r.c)
      (.wlpop (gR r.d) (gS r.a r.ta) (gR r.c) (bits r.f 0 1 == 1))
  else if bits r.f 8 3 == 5 then chk true
      (okB r.d)
      (r.a == 0 && r.ta == 0 && r.b == 0 && r.tb == 0 && r.c == 0 && r.tc == 0 && bits r.f 0 8 == 0)
      (.wlquiet (bR r.d))
  else noForm

/-- OP 0x7D, format R: SEND, SEND_E. -/
def dec7D (r : Raw) : Except Illegal Instr :=
  if r.f == 0 then chk true
      true
      (r.d == 0)
      (.send (gS r.a r.ta) (gS r.b r.tb))
  else if r.f == 1 then chk true
      true
      (r.d == 0)
      (.sendE (gS r.a r.ta) (gS r.b r.tb))
  else noForm

/-- OP 0x7E, format I: TRAP, ERET, UIRET, MFCR, MTCR, TLBINV_PAGE, TLBINV_ASID, TLBINV_ALL, CSAVE, CRSTR, BIST, WFI. -/
def dec7E (r : Raw) : Except Illegal Instr :=
  if r.f == 0 then chk true
      true
      (r.d == 0 && r.a == 0 && r.ta == 0)
      (.trap (BitVec.ofNat 20 (bits r.imm 0 20)))
  else if r.f == 1 then chk true
      true
      (r.d == 0 && r.a == 0 && r.ta == 0 && bits r.imm 0 20 == 0)
      (.eret)
  else if r.f == 2 then chk true
      true
      (r.d == 0 && r.a == 0 && r.ta == 0 && bits r.imm 0 20 == 0)
      (.uiret)
  else if r.f == 3 then chk (CReg.listed (bits r.imm 0 8))
      true
      (r.a == 0 && r.ta == 0 && bits r.imm 8 12 == 0)
      (.mfcr (gR r.d) (CReg.ofCode (bits r.imm 0 8)))
  else if r.f == 4 then chk (CReg.listed (bits r.imm 0 8) && (CReg.ofCode (bits r.imm 0 8)).writable)
      true
      (r.d == 0 && bits r.imm 8 12 == 0)
      (.mtcr (gS r.a r.ta) (CReg.ofCode (bits r.imm 0 8)))
  else if bits r.f 0 5 == 5 && bits r.imm 0 2 == 0 then chk true
      true
      (bits r.imm 2 18 == 0)
      (.tlbinvPage (gR r.d) (gS r.a r.ta))
  else if bits r.f 0 5 == 5 && bits r.imm 0 2 == 1 then chk true
      true
      (r.a == 0 && r.ta == 0 && bits r.imm 2 18 == 0)
      (.tlbinvAsid (gR r.d))
  else if bits r.f 0 5 == 5 && bits r.imm 0 2 == 2 then chk true
      true
      (r.d == 0 && r.a == 0 && r.ta == 0 && bits r.imm 2 18 == 0)
      (.tlbinvAll)
  else if r.f == 6 then chk true
      true
      (bits r.imm 0 20 == 0)
      (.csave (gR r.d) (gS r.a r.ta))
  else if r.f == 7 then chk true
      true
      (bits r.imm 0 20 == 0)
      (.crstr (gR r.d) (gS r.a r.ta))
  else if r.f == 8 then chk true
      true
      (bits r.imm 0 20 == 0)
      (.bist (gR r.d) (gS r.a r.ta))
  else if r.f == 9 then chk true
      true
      (r.d == 0 && r.a == 0 && r.ta == 0 && bits r.imm 0 20 == 0)
      (.wfi)
  else noForm

/-- The format of an assigned OP (R131, R135). -/
def opFmt : Nat → Option Fmt
  | 0x00 => some .H
  | 0x01 => some .H
  | 0x02 => some .H
  | 0x03 => some .H
  | 0x04 => some .R
  | 0x05 => some .R
  | 0x06 => some .L
  | 0x07 => some .L
  | 0x08 => some .B
  | 0x0A => some .I
  | 0x0B => some .I
  | 0x0C => some .R
  | 0x10 => some .R
  | 0x11 => some .R
  | 0x12 => some .R
  | 0x13 => some .R
  | 0x14 => some .R
  | 0x15 => some .R
  | 0x16 => some .R
  | 0x17 => some .R
  | 0x18 => some .R
  | 0x19 => some .I
  | 0x1A => some .I
  | 0x1B => some .I
  | 0x1C => some .I
  | 0x1D => some .L
  | 0x1E => some .L
  | 0x1F => some .I
  | 0x20 => some .I
  | 0x21 => some .I
  | 0x22 => some .X
  | 0x23 => some .X
  | 0x24 => some .R
  | 0x30 => some .I
  | 0x31 => some .I
  | 0x32 => some .X
  | 0x33 => some .I
  | 0x34 => some .X
  | 0x35 => some .X
  | 0x36 => some .X
  | 0x37 => some .X
  | 0x38 => some .H
  | 0x39 => some .I
  | 0x3A => some .X
  | 0x3B => some .X
  | 0x3C => some .X
  | 0x3D => some .X
  | 0x40 => some .X
  | 0x41 => some .I
  | 0x42 => some .I
  | 0x43 => some .I
  | 0x44 => some .I
  | 0x45 => some .X
  | 0x46 => some .R
  | 0x47 => some .R
  | 0x48 => some .R
  | 0x50 => some .X
  | 0x51 => some .I
  | 0x52 => some .R
  | 0x53 => some .R
  | 0x54 => some .R
  | 0x55 => some .X
  | 0x56 => some .X
  | 0x58 => some .X
  | 0x59 => some .X
  | 0x5A => some .X
  | 0x5B => some .X
  | 0x5C => some .X
  | 0x5D => some .X
  | 0x5E => some .X
  | 0x5F => some .X
  | 0x60 => some .X
  | 0x61 => some .X
  | 0x62 => some .X
  | 0x63 => some .X
  | 0x64 => some .X
  | 0x65 => some .X
  | 0x66 => some .X
  | 0x68 => some .X
  | 0x70 => some .X
  | 0x71 => some .X
  | 0x72 => some .Y
  | 0x73 => some .X
  | 0x74 => some .X
  | 0x75 => some .X
  | 0x76 => some .R
  | 0x77 => some .X
  | 0x78 => some .Y
  | 0x79 => some .I
  | 0x7A => some .X
  | 0x7B => some .I
  | 0x7C => some .X
  | 0x7D => some .R
  | 0x7E => some .I
  | _ => none

/-- The instruction of an assigned OP, from its fields. -/
def decOp : Nat → Raw → Except Illegal Instr
  | 0x00, r => dec00 r
  | 0x01, r => dec01 r
  | 0x02, r => dec02 r
  | 0x03, r => dec03 r
  | 0x04, r => dec04 r
  | 0x05, r => dec05 r
  | 0x06, r => dec06 r
  | 0x07, r => dec07 r
  | 0x08, r => dec08 r
  | 0x0A, r => dec0A r
  | 0x0B, r => dec0B r
  | 0x0C, r => dec0C r
  | 0x10, r => dec10 r
  | 0x11, r => dec11 r
  | 0x12, r => dec12 r
  | 0x13, r => dec13 r
  | 0x14, r => dec14 r
  | 0x15, r => dec15 r
  | 0x16, r => dec16 r
  | 0x17, r => dec17 r
  | 0x18, r => dec18 r
  | 0x19, r => dec19 r
  | 0x1A, r => dec1A r
  | 0x1B, r => dec1B r
  | 0x1C, r => dec1C r
  | 0x1D, r => dec1D r
  | 0x1E, r => dec1E r
  | 0x1F, r => dec1F r
  | 0x20, r => dec20 r
  | 0x21, r => dec21 r
  | 0x22, r => dec22 r
  | 0x23, r => dec23 r
  | 0x24, r => dec24 r
  | 0x30, r => dec30 r
  | 0x31, r => dec31 r
  | 0x32, r => dec32 r
  | 0x33, r => dec33 r
  | 0x34, r => dec34 r
  | 0x35, r => dec35 r
  | 0x36, r => dec36 r
  | 0x37, r => dec37 r
  | 0x38, r => dec38 r
  | 0x39, r => dec39 r
  | 0x3A, r => dec3A r
  | 0x3B, r => dec3B r
  | 0x3C, r => dec3C r
  | 0x3D, r => dec3D r
  | 0x40, r => dec40 r
  | 0x41, r => dec41 r
  | 0x42, r => dec42 r
  | 0x43, r => dec43 r
  | 0x44, r => dec44 r
  | 0x45, r => dec45 r
  | 0x46, r => dec46 r
  | 0x47, r => dec47 r
  | 0x48, r => dec48 r
  | 0x50, r => dec50 r
  | 0x51, r => dec51 r
  | 0x52, r => dec52 r
  | 0x53, r => dec53 r
  | 0x54, r => dec54 r
  | 0x55, r => dec55 r
  | 0x56, r => dec56 r
  | 0x58, r => dec58 r
  | 0x59, r => dec59 r
  | 0x5A, r => dec5A r
  | 0x5B, r => dec5B r
  | 0x5C, r => dec5C r
  | 0x5D, r => dec5D r
  | 0x5E, r => dec5E r
  | 0x5F, r => dec5F r
  | 0x60, r => dec60 r
  | 0x61, r => dec61 r
  | 0x62, r => dec62 r
  | 0x63, r => dec63 r
  | 0x64, r => dec64 r
  | 0x65, r => dec65 r
  | 0x66, r => dec66 r
  | 0x68, r => dec68 r
  | 0x70, r => dec70 r
  | 0x71, r => dec71 r
  | 0x72, r => dec72 r
  | 0x73, r => dec73 r
  | 0x74, r => dec74 r
  | 0x75, r => dec75 r
  | 0x76, r => dec76 r
  | 0x77, r => dec77 r
  | 0x78, r => dec78 r
  | 0x79, r => dec79 r
  | 0x7A, r => dec7A r
  | 0x7B, r => dec7B r
  | 0x7C, r => dec7C r
  | 0x7D, r => dec7D r
  | 0x7E, r => dec7E r
  | _, _ => .error .opUnassigned

/-- Decoding of one head with its tail: reasons 1 and 2 of R140 here, the others in the OP's own function. -/
def decode (head tail : Nat) : Except Illegal Instr :=
  match opFmt (bits head 6 7) with
  | none => .error .opUnassigned
  | some fm => if bits head 14 2 = fm.tl then decOp (bits head 6 7) (unpack fm (bits head 0 6) tail) else .error .tailLength

/-- The OP, format and fields of an instruction; none for an event, which has no encoding. -/
def encodeRaw : Instr → Option (Nat × Fmt × Raw)
  | .nop => some (0x00, .H, {  })
  | .retire => some (0x01, .H, {  })
  | .yld => some (0x02, .H, {  })
  | .ret => some (0x03, .H, {  })
  | .jr a => some (0x04, .R, { a := a.r.val, ta := a.t.toNat })
  | .callr a => some (0x05, .R, { a := a.r.val, ta := a.t.toNat })
  | .j imm => some (0x06, .L, { imm := imm.toNat })
  | .call imm => some (0x07, .L, { imm := imm.toNat })
  | .bcc a b cc an hidx loff => some (0x08, .B, { d := cc.code * 2 ^ 3 + an.code * 2 ^ 1, a := a.r.val, ta := a.t.toNat, b := b.r.val, tb := b.t.toNat, imm := hidx.toNat * 2 ^ 13 + loff.toNat })
  | .start d a imm => some (0x0A, .I, { d := d.val, a := a.r.val, ta := a.t.toNat, imm := imm.toNat })
  | .split d a imm => some (0x0B, .I, { d := d.val, a := a.code, imm := imm.toNat })
  | .waitf => some (0x0C, .R, {  })
  | .add d a b => some (0x10, .R, { d := d.val, a := a.r.val, ta := a.t.toNat, b := b.r.val, tb := b.t.toNat })
  | .sub d a b => some (0x10, .R, { d := d.val, a := a.r.val, ta := a.t.toNat, b := b.r.val, tb := b.t.toNat, f := 1 })
  | .addW d a b => some (0x10, .R, { d := d.val, a := a.r.val, ta := a.t.toNat, b := b.r.val, tb := b.t.toNat, f := 2 })
  | .subW d a b => some (0x10, .R, { d := d.val, a := a.r.val, ta := a.t.toNat, b := b.r.val, tb := b.t.toNat, f := 3 })
  | .and d a b => some (0x11, .R, { d := d.val, a := a.r.val, ta := a.t.toNat, b := b.r.val, tb := b.t.toNat })
  | .or d a b => some (0x11, .R, { d := d.val, a := a.r.val, ta := a.t.toNat, b := b.r.val, tb := b.t.toNat, f := 1 })
  | .xor d a b => some (0x11, .R, { d := d.val, a := a.r.val, ta := a.t.toNat, b := b.r.val, tb := b.t.toNat, f := 2 })
  | .andn d a b => some (0x11, .R, { d := d.val, a := a.r.val, ta := a.t.toNat, b := b.r.val, tb := b.t.toNat, f := 3 })
  | .shl d a b => some (0x12, .R, { d := d.val, a := a.r.val, ta := a.t.toNat, b := b.r.val, tb := b.t.toNat })
  | .shr d a b => some (0x12, .R, { d := d.val, a := a.r.val, ta := a.t.toNat, b := b.r.val, tb := b.t.toNat, f := 1 })
  | .sra d a b => some (0x12, .R, { d := d.val, a := a.r.val, ta := a.t.toNat, b := b.r.val, tb := b.t.toNat, f := 2 })
  | .rol d a b => some (0x12, .R, { d := d.val, a := a.r.val, ta := a.t.toNat, b := b.r.val, tb := b.t.toNat, f := 3 })
  | .mul d a b => some (0x13, .R, { d := d.val, a := a.r.val, ta := a.t.toNat, b := b.r.val, tb := b.t.toNat })
  | .mulh d a b => some (0x13, .R, { d := d.val, a := a.r.val, ta := a.t.toNat, b := b.r.val, tb := b.t.toNat, f := 1 })
  | .mulhu d a b => some (0x13, .R, { d := d.val, a := a.r.val, ta := a.t.toNat, b := b.r.val, tb := b.t.toNat, f := 2 })
  | .mulW d a b => some (0x13, .R, { d := d.val, a := a.r.val, ta := a.t.toNat, b := b.r.val, tb := b.t.toNat, f := 3 })
  | .div d a b => some (0x14, .R, { d := d.val, a := a.r.val, ta := a.t.toNat, b := b.r.val, tb := b.t.toNat })
  | .divu d a b => some (0x14, .R, { d := d.val, a := a.r.val, ta := a.t.toNat, b := b.r.val, tb := b.t.toNat, f := 1 })
  | .rem d a b => some (0x14, .R, { d := d.val, a := a.r.val, ta := a.t.toNat, b := b.r.val, tb := b.t.toNat, f := 2 })
  | .remu d a b => some (0x14, .R, { d := d.val, a := a.r.val, ta := a.t.toNat, b := b.r.val, tb := b.t.toNat, f := 3 })
  | .min d a b => some (0x15, .R, { d := d.val, a := a.r.val, ta := a.t.toNat, b := b.r.val, tb := b.t.toNat })
  | .max d a b => some (0x15, .R, { d := d.val, a := a.r.val, ta := a.t.toNat, b := b.r.val, tb := b.t.toNat, f := 1 })
  | .minu d a b => some (0x15, .R, { d := d.val, a := a.r.val, ta := a.t.toNat, b := b.r.val, tb := b.t.toNat, f := 2 })
  | .maxu d a b => some (0x15, .R, { d := d.val, a := a.r.val, ta := a.t.toNat, b := b.r.val, tb := b.t.toNat, f := 3 })
  | .slt d a b => some (0x16, .R, { d := d.val, a := a.r.val, ta := a.t.toNat, b := b.r.val, tb := b.t.toNat })
  | .sltu d a b => some (0x16, .R, { d := d.val, a := a.r.val, ta := a.t.toNat, b := b.r.val, tb := b.t.toNat, f := 1 })
  | .seq d a b => some (0x16, .R, { d := d.val, a := a.r.val, ta := a.t.toNat, b := b.r.val, tb := b.t.toNat, f := 2 })
  | .sne d a b => some (0x16, .R, { d := d.val, a := a.r.val, ta := a.t.toNat, b := b.r.val, tb := b.t.toNat, f := 3 })
  | .clz d a => some (0x17, .R, { d := d.val, a := a.r.val, ta := a.t.toNat })
  | .ctz d a => some (0x17, .R, { d := d.val, a := a.r.val, ta := a.t.toNat, f := 1 })
  | .popc d a => some (0x17, .R, { d := d.val, a := a.r.val, ta := a.t.toNat, f := 2 })
  | .brev d a => some (0x17, .R, { d := d.val, a := a.r.val, ta := a.t.toNat, f := 3 })
  | .sextB d a => some (0x18, .R, { d := d.val, a := a.r.val, ta := a.t.toNat })
  | .sextH d a => some (0x18, .R, { d := d.val, a := a.r.val, ta := a.t.toNat, f := 1 })
  | .sextW d a => some (0x18, .R, { d := d.val, a := a.r.val, ta := a.t.toNat, f := 2 })
  | .bswap d a => some (0x18, .R, { d := d.val, a := a.r.val, ta := a.t.toNat, f := 3 })
  | .addi d a imm => some (0x19, .I, { d := d.val, a := a.r.val, ta := a.t.toNat, imm := imm.toNat })
  | .andi d a imm => some (0x1A, .I, { d := d.val, a := a.r.val, ta := a.t.toNat, imm := imm.toNat })
  | .ori d a imm => some (0x1A, .I, { d := d.val, a := a.r.val, ta := a.t.toNat, f := 1, imm := imm.toNat })
  | .xori d a imm => some (0x1A, .I, { d := d.val, a := a.r.val, ta := a.t.toNat, f := 2, imm := imm.toNat })
  | .shli d a sh => some (0x1B, .I, { d := d.val, a := a.r.val, ta := a.t.toNat, imm := sh.toNat })
  | .shri d a sh => some (0x1B, .I, { d := d.val, a := a.r.val, ta := a.t.toNat, f := 1, imm := sh.toNat })
  | .srai d a sh => some (0x1B, .I, { d := d.val, a := a.r.val, ta := a.t.toNat, f := 2, imm := sh.toNat })
  | .roli d a sh => some (0x1B, .I, { d := d.val, a := a.r.val, ta := a.t.toNat, f := 3, imm := sh.toNat })
  | .slti d a imm => some (0x1C, .I, { d := d.val, a := a.r.val, ta := a.t.toNat, imm := imm.toNat })
  | .sltiu d a imm => some (0x1C, .I, { d := d.val, a := a.r.val, ta := a.t.toNat, f := 1, imm := imm.toNat })
  | .li d imm => some (0x1D, .L, { d := d.val, imm := imm.toNat })
  | .lih d imm => some (0x1E, .L, { d := d.val, imm := imm.toNat })
  | .addpc d imm => some (0x1F, .I, { d := d.val, imm := imm.toNat })
  | .bfx d a len pos => some (0x20, .I, { d := d.val, a := a.r.val, ta := a.t.toNat, imm := len.toNat + pos.toNat * 2 ^ 6 })
  | .bfxu d a len pos => some (0x20, .I, { d := d.val, a := a.r.val, ta := a.t.toNat, f := 1, imm := len.toNat + pos.toNat * 2 ^ 6 })
  | .bfi d a len pos => some (0x21, .I, { d := d.val, a := a.r.val, ta := a.t.toNat, imm := len.toNat + pos.toNat * 2 ^ 6 })
  | .cmov d a b c => some (0x22, .X, { d := d.val, a := a.r.val, ta := a.t.toNat, b := b.r.val, tb := b.t.toNat, c := c.r.val, tc := c.t.toNat })
  | .madd d a b c => some (0x23, .X, { d := d.val, a := a.r.val, ta := a.t.toNat, b := b.r.val, tb := b.t.toNat, c := c.r.val, tc := c.t.toNat })
  | .abs d a => some (0x24, .R, { d := d.val, a := a.r.val, ta := a.t.toNat })
  | .neg d a => some (0x24, .R, { d := d.val, a := a.r.val, ta := a.t.toNat, f := 1 })
  | .ld d a sz u acq disp => some (0x30, .I, { d := d.val, a := a.r.val, ta := a.t.toNat, f := sz.code + u.toNat * 2 ^ 2 + acq.toNat * 2 ^ 3, imm := disp.toNat })
  | .st d a sz rel disp => some (0x31, .I, { d := d.val, a := a.r.val, ta := a.t.toNat, f := sz.code + rel.toNat * 2 ^ 3, imm := disp.toNat })
  | .ldx d a b sh sz u acq => some (0x32, .X, { d := d.val, a := a.r.val, ta := a.t.toNat, b := b.r.val, tb := b.t.toNat, f := sh.toNat + sz.code * 2 ^ 3 + u.toNat * 2 ^ 5 + acq.toNat * 2 ^ 6 })
  | .stx d a b sh sz rel => some (0x32, .X, { d := d.val, a := a.r.val, ta := a.t.toNat, b := b.r.val, tb := b.t.toNat, f := sh.toNat + sz.code * 2 ^ 3 + rel.toNat * 2 ^ 6 + 1 * 2 ^ 8 })
  | .ldv d a disp => some (0x33, .I, { d := d.val, a := a.r.val, ta := a.t.toNat, imm := disp.toNat })
  | .stv d a disp => some (0x33, .I, { d := d.val, a := a.r.val, ta := a.t.toNat, f := 1, imm := disp.toNat })
  | .ldvs d a b pr sz => some (0x34, .X, { d := d.val, a := a.r.val, ta := a.t.toNat, b := b.r.val, tb := b.t.toNat, tc := oPen pr, f := oPn pr + sz.code * 2 ^ 6 })
  | .stvs d a b pr sz => some (0x34, .X, { d := d.val, a := a.r.val, ta := a.t.toNat, b := b.r.val, tb := b.t.toNat, tc := oPen pr, f := oPn pr + sz.code * 2 ^ 6 + 1 * 2 ^ 8 })
  | .gath d a b pr sc u sz => some (0x35, .X, { d := d.val, a := a.r.val, ta := a.t.toNat, b := b.r.val, tb := b.t.toNat, tc := oPen pr, f := oPn pr + sc.toNat * 2 ^ 3 + u.toNat * 2 ^ 5 + sz.code * 2 ^ 6 })
  | .scatv d a b pr sc sz => some (0x35, .X, { d := d.val, a := a.r.val, ta := a.t.toNat, b := b.r.val, tb := b.t.toNat, tc := oPen pr, f := oPn pr + sc.toNat * 2 ^ 3 + sz.code * 2 ^ 6 + 1 * 2 ^ 8 })
  | .ldf d a c => some (0x36, .X, { d := d.val, a := a.r.val, ta := a.t.toNat, c := c.val })
  | .stf d a => some (0x36, .X, { d := d.val, a := a.r.val, ta := a.t.toNat, f := 1 * 2 ^ 8 })
  | .clrf a => some (0x36, .X, { a := a.r.val, ta := a.t.toNat, f := 2 * 2 ^ 8 })
  | .swap d a b dw => some (0x37, .X, { d := d.val, a := a.r.val, ta := a.t.toNat, b := b.r.val, tb := b.t.toNat, f := dw.toNat * 2 ^ 7 })
  | .cas d a b c dw => some (0x37, .X, { d := d.val, a := a.r.val, ta := a.t.toNat, b := b.r.val, tb := b.t.toNat, c := c.r.val, tc := c.t.toNat, f := dw.toNat * 2 ^ 7 + 1 * 2 ^ 8 })
  | .fadd d a b dw => some (0x37, .X, { d := d.val, a := a.r.val, ta := a.t.toNat, b := b.r.val, tb := b.t.toNat, f := dw.toNat * 2 ^ 7 + 2 * 2 ^ 8 })
  | .fenceFull sc => some (0x38, .H, { d := 0 * 2 ^ 3 + sc.code })
  | .fenceAcq sc => some (0x38, .H, { d := 1 * 2 ^ 3 + sc.code })
  | .fenceRel sc => some (0x38, .H, { d := 2 * 2 ^ 3 + sc.code })
  | .fenceEng sc => some (0x38, .H, { d := 3 * 2 ^ 3 + sc.code })
  | .fenceInsn => some (0x38, .H, { d := 4 * 2 ^ 3 })
  | .pref a lv w disp => some (0x39, .I, { a := a.r.val, ta := a.t.toNat, f := lv.code + w.toNat * 2 ^ 2, imm := disp.toNat })
  | .wmap d a b c w => some (0x3A, .X, { d := d.val, a := a.r.val, ta := a.t.toNat, b := b.r.val, tb := b.t.toNat, c := c.r.val, tc := c.t.toNat, f := w.toNat })
  | .wunmap w => some (0x3A, .X, { f := w.toNat + 1 * 2 ^ 8 })
  | .wflush w => some (0x3A, .X, { f := w.toNat + 2 * 2 ^ 8 })
  | .winv w => some (0x3A, .X, { f := w.toNat + 3 * 2 ^ 8 })
  | .upd a b ty => some (0x3B, .X, { a := a.r.val, ta := a.t.toNat, b := b.r.val, tb := b.t.toNat, f := ty.code })
  | .updv a b c pr sc ty => some (0x3C, .X, { a := a.r.val, ta := a.t.toNat, b := b.r.val, tb := b.t.toNat, c := c.r.val, tc := c.t.toNat, f := oPen pr * 2 ^ 7 + oPn pr * 2 ^ 4 + sc.toNat * 2 ^ 2 + ty.code })
  | .ureg d a => some (0x3D, .X, { d := d.val, a := a.r.val, ta := a.t.toNat })
  | .uregRel d a => some (0x3D, .X, { d := d.val, a := a.r.val, ta := a.t.toNat, f := 1 * 2 ^ 7 })
  | .uflush a => some (0x3D, .X, { a := a.r.val, ta := a.t.toNat, f := 1 * 2 ^ 8 })
  | .uwait => some (0x3D, .X, { f := 2 * 2 ^ 8 })
  | .qgset a b => some (0x40, .X, { a := a.r.val, ta := a.t.toNat, b := b.code })
  | .ldnm d a tag => some (0x41, .I, { d := d.val, a := a.r.val, ta := a.t.toNat, imm := tag.toNat })
  | .qcmp d a off ty cc => some (0x42, .I, { d := d.code, a := a.r.val, ta := a.t.toNat, imm := off.toNat + ty.code * 2 ^ 12 + cc.code * 2 ^ 15 })
  | .qadd a off ty => some (0x43, .I, { a := a.r.val, ta := a.t.toNat, imm := off.toNat + ty.code * 2 ^ 12 })
  | .qaddi off ty imm => some (0x43, .I, { f := 1, imm := off.toNat + ty.code * 2 ^ 12 + imm.toNat * 2 ^ 15 })
  | .qfadd a off => some (0x43, .I, { a := a.r.val, ta := a.t.toNat, f := 2, imm := off.toNat + 7 * 2 ^ 12 })
  | .qst a off ty => some (0x44, .I, { a := a.r.val, ta := a.t.toNat, imm := off.toNat + ty.code * 2 ^ 12 })
  | .qld d off ty => some (0x44, .I, { d := d.val, f := 1, imm := off.toNat + ty.code * 2 ^ 12 })
  | .qgath d a k ty => some (0x45, .X, { d := d.val, a := a.r.val, ta := a.t.toNat, f := k.toNat * 2 ^ 2 + ty.code * 2 ^ 5 })
  | .qscat d a k ty => some (0x45, .X, { d := d.val, a := a.r.val, ta := a.t.toNat, f := k.toNat * 2 ^ 2 + ty.code * 2 ^ 5 + 1 * 2 ^ 8 })
  | .mand d a b => some (0x46, .R, { d := d.code, a := a.code, b := b.code })
  | .mor d a b => some (0x46, .R, { d := d.code, a := a.code, b := b.code, f := 1 })
  | .mxor d a b => some (0x46, .R, { d := d.code, a := a.code, b := b.code, f := 2 })
  | .mandn d a b => some (0x46, .R, { d := d.code, a := a.code, b := b.code, f := 3 })
  | .mpopc d a => some (0x47, .R, { d := d.val, a := a.code })
  | .mfirst d a => some (0x47, .R, { d := d.val, a := a.code, f := 1 })
  | .mtest d a => some (0x47, .R, { d := d.val, a := a.code, f := 2 })
  | .mset d => some (0x48, .R, { d := d.code })
  | .mclr d => some (0x48, .R, { d := d.code, f := 1 })
  | .mmov d a => some (0x48, .R, { d := d.code, a := a.code, f := 2 })
  | .mfromg d a q => some (0x48, .R, { d := d.code, a := a.r.val, ta := a.t.toNat, b := q.val, f := 3 })
  | .mtog d a q => some (0x48, .R, { d := d.val, a := a.code, b := q.val, tb := 1 })
  | .sopenA d a out => some (0x50, .X, { d := d.val + 32, a := a.r.val, ta := a.t.toNat, f := out.toNat * 2 ^ 7 })
  | .sopenF d a out => some (0x50, .X, { d := d.val + 32, a := a.r.val, ta := a.t.toNat, f := out.toNat * 2 ^ 7 + 1 * 2 ^ 8 })
  | .sadv d a imm => some (0x51, .I, { d := d.val + 32, a := a.r.val, ta := a.t.toNat, imm := imm.toNat })
  | .sadvto d a imm => some (0x51, .I, { d := d.val + 32, a := a.r.val, ta := a.t.toNat, f := 1, imm := imm.toNat })
  | .stend d a => some (0x52, .R, { d := d.val, a := a.val + 32 })
  | .sclose a => some (0x53, .R, { a := a.val + 32 })
  | .speek d a => some (0x54, .R, { d := d.val, a := a.val + 32 })
  | .sisect d a b c => some (0x55, .X, { d := d.val, a := a.val, b := b.val, c := c.val })
  | .smerge d a b => some (0x56, .X, { d := d.val, a := a.val, b := b.val })
  | .vadd d a b ty pr => some (0x58, .X, { d := d.val, a := a.r.val, ta := a.t.toNat, b := b.r.val, tb := b.t.toNat, tc := oPen pr, f := ty.code * 2 ^ 3 + oPn pr })
  | .vsub d a b ty pr => some (0x58, .X, { d := d.val, a := a.r.val, ta := a.t.toNat, b := b.r.val, tb := b.t.toNat, tc := oPen pr, f := 1 * 2 ^ 7 + ty.code * 2 ^ 3 + oPn pr })
  | .vmul d a b ty pr => some (0x58, .X, { d := d.val, a := a.r.val, ta := a.t.toNat, b := b.r.val, tb := b.t.toNat, tc := oPen pr, f := 2 * 2 ^ 7 + ty.code * 2 ^ 3 + oPn pr })
  | .vmulh d a b ty pr => some (0x58, .X, { d := d.val, a := a.r.val, ta := a.t.toNat, b := b.r.val, tb := b.t.toNat, tc := oPen pr, f := 3 * 2 ^ 7 + ty.code * 2 ^ 3 + oPn pr })
  | .vmin d a b ty pr => some (0x58, .X, { d := d.val, a := a.r.val, ta := a.t.toNat, b := b.r.val, tb := b.t.toNat, tc := oPen pr, f := 4 * 2 ^ 7 + ty.code * 2 ^ 3 + oPn pr })
  | .vmax d a b ty pr => some (0x58, .X, { d := d.val, a := a.r.val, ta := a.t.toNat, b := b.r.val, tb := b.t.toNat, tc := oPen pr, f := 5 * 2 ^ 7 + ty.code * 2 ^ 3 + oPn pr })
  | .vabsd d a b ty pr => some (0x58, .X, { d := d.val, a := a.r.val, ta := a.t.toNat, b := b.r.val, tb := b.t.toNat, tc := oPen pr, f := 6 * 2 ^ 7 + ty.code * 2 ^ 3 + oPn pr })
  | .vfma d a b ty pr => some (0x59, .X, { d := d.val, a := a.r.val, ta := a.t.toNat, b := b.r.val, tb := b.t.toNat, tc := oPen pr, f := ty.code * 2 ^ 3 + oPn pr })
  | .vfms d a b ty pr => some (0x59, .X, { d := d.val, a := a.r.val, ta := a.t.toNat, b := b.r.val, tb := b.t.toNat, tc := oPen pr, f := 1 * 2 ^ 7 + ty.code * 2 ^ 3 + oPn pr })
  | .vand d a b ty pr => some (0x5A, .X, { d := d.val, a := a.r.val, ta := a.t.toNat, b := b.r.val, tb := b.t.toNat, tc := oPen pr, f := ty.code * 2 ^ 3 + oPn pr })
  | .vor d a b ty pr => some (0x5A, .X, { d := d.val, a := a.r.val, ta := a.t.toNat, b := b.r.val, tb := b.t.toNat, tc := oPen pr, f := 1 * 2 ^ 7 + ty.code * 2 ^ 3 + oPn pr })
  | .vxor d a b ty pr => some (0x5A, .X, { d := d.val, a := a.r.val, ta := a.t.toNat, b := b.r.val, tb := b.t.toNat, tc := oPen pr, f := 2 * 2 ^ 7 + ty.code * 2 ^ 3 + oPn pr })
  | .vandn d a b ty pr => some (0x5A, .X, { d := d.val, a := a.r.val, ta := a.t.toNat, b := b.r.val, tb := b.t.toNat, tc := oPen pr, f := 3 * 2 ^ 7 + ty.code * 2 ^ 3 + oPn pr })
  | .vshl d a b ty pr => some (0x5A, .X, { d := d.val, a := a.r.val, ta := a.t.toNat, b := b.r.val, tb := b.t.toNat, tc := oPen pr, f := 4 * 2 ^ 7 + ty.code * 2 ^ 3 + oPn pr })
  | .vshr d a b ty pr => some (0x5A, .X, { d := d.val, a := a.r.val, ta := a.t.toNat, b := b.r.val, tb := b.t.toNat, tc := oPen pr, f := 5 * 2 ^ 7 + ty.code * 2 ^ 3 + oPn pr })
  | .vsra d a b ty pr => some (0x5A, .X, { d := d.val, a := a.r.val, ta := a.t.toNat, b := b.r.val, tb := b.t.toNat, tc := oPen pr, f := 6 * 2 ^ 7 + ty.code * 2 ^ 3 + oPn pr })
  | .vcmp d a b cc ty pr => some (0x5B, .X, { d := d.code, a := a.r.val, ta := a.t.toNat, b := b.r.val, tb := b.t.toNat, tc := oPen pr, f := cc.code * 2 ^ 7 + ty.code * 2 ^ 3 + oPn pr })
  | .vsel d a b ty pr => some (0x5C, .X, { d := d.val, a := a.r.val, ta := a.t.toNat, b := b.r.val, tb := b.t.toNat, tc := 1, f := ty.code * 2 ^ 3 + pr.val })
  | .vbcast d a ty pr => some (0x5D, .X, { d := d.val, a := a.r.val, ta := a.t.toNat, tc := oPen pr, f := ty.code * 2 ^ 3 + oPn pr })
  | .vextr d a b ty => some (0x5D, .X, { d := d.val, a := a.r.val, ta := a.t.toNat, b := b.r.val, tb := b.t.toNat, f := 1 * 2 ^ 7 + ty.code * 2 ^ 3 })
  | .vins d a b ty => some (0x5D, .X, { d := d.val, a := a.r.val, ta := a.t.toNat, b := b.r.val, tb := b.t.toNat, f := 2 * 2 ^ 7 + ty.code * 2 ^ 3 })
  | .vperm d a b ty pr => some (0x5E, .X, { d := d.val, a := a.r.val, ta := a.t.toNat, b := b.r.val, tb := b.t.toNat, tc := oPen pr, f := ty.code * 2 ^ 3 + oPn pr })
  | .vrot d a b ty => some (0x5E, .X, { d := d.val, a := a.r.val, ta := a.t.toNat, b := b.r.val, tb := b.t.toNat, f := 1 * 2 ^ 7 + ty.code * 2 ^ 3 })
  | .vredadd d a ty pr => some (0x5F, .X, { d := d.val, a := a.r.val, ta := a.t.toNat, tc := oPen pr, f := ty.code * 2 ^ 3 + oPn pr })
  | .vredmin d a ty pr => some (0x5F, .X, { d := d.val, a := a.r.val, ta := a.t.toNat, tc := oPen pr, f := 1 * 2 ^ 7 + ty.code * 2 ^ 3 + oPn pr })
  | .vredmax d a ty pr => some (0x5F, .X, { d := d.val, a := a.r.val, ta := a.t.toNat, tc := oPen pr, f := 2 * 2 ^ 7 + ty.code * 2 ^ 3 + oPn pr })
  | .vredor d a ty pr => some (0x5F, .X, { d := d.val, a := a.r.val, ta := a.t.toNat, tc := oPen pr, f := 3 * 2 ^ 7 + ty.code * 2 ^ 3 + oPn pr })
  | .vscan d a sop ty pr => some (0x60, .X, { d := d.val, a := a.r.val, ta := a.t.toNat, tc := oPen pr, f := sop.code * 2 ^ 7 + ty.code * 2 ^ 3 + oPn pr })
  | .vcvt d a dt ty part sat pr => some (0x61, .X, { d := d.val, a := a.r.val, ta := a.t.toNat, b := part.toNat, tb := sat.toNat, tc := oPen pr, f := dt.code * 2 ^ 7 + ty.code * 2 ^ 3 + oPn pr })
  | .vcompress d a ty pr => some (0x62, .X, { d := d.val, a := a.r.val, ta := a.t.toNat, tc := 1, f := ty.code * 2 ^ 3 + pr.val })
  | .vexpand d a ty pr => some (0x62, .X, { d := d.val, a := a.r.val, ta := a.t.toNat, tc := 1, f := 1 * 2 ^ 7 + ty.code * 2 ^ 3 + pr.val })
  | .vsort d a ord ty pr => some (0x63, .X, { d := d.val, a := a.r.val, ta := a.t.toNat, tc := oPen pr, f := ord.code * 2 ^ 7 + ty.code * 2 ^ 3 + oPn pr })
  | .vdot4 d a b ty pr => some (0x64, .X, { d := d.val, a := a.r.val, ta := a.t.toNat, b := b.r.val, tb := b.t.toNat, tc := oPen pr, f := ty.code * 2 ^ 3 + oPn pr })
  | .vrcp d a ty pr => some (0x65, .X, { d := d.val, a := a.r.val, ta := a.t.toNat, tc := oPen pr, f := ty.code * 2 ^ 3 + oPn pr })
  | .vrsq d a ty pr => some (0x65, .X, { d := d.val, a := a.r.val, ta := a.t.toNat, tc := oPen pr, f := 1 * 2 ^ 7 + ty.code * 2 ^ 3 + oPn pr })
  | .vexp2 d a ty pr => some (0x65, .X, { d := d.val, a := a.r.val, ta := a.t.toNat, tc := oPen pr, f := 2 * 2 ^ 7 + ty.code * 2 ^ 3 + oPn pr })
  | .vlog2 d a ty pr => some (0x65, .X, { d := d.val, a := a.r.val, ta := a.t.toNat, tc := oPen pr, f := 3 * 2 ^ 7 + ty.code * 2 ^ 3 + oPn pr })
  | .vdiv d a b ty pr => some (0x66, .X, { d := d.val, a := a.r.val, ta := a.t.toNat, b := b.r.val, tb := b.t.toNat, tc := oPen pr, f := ty.code * 2 ^ 3 + oPn pr })
  | .vsqrt d a ty pr => some (0x66, .X, { d := d.val, a := a.r.val, ta := a.t.toNat, tc := oPen pr, f := 1 * 2 ^ 7 + ty.code * 2 ^ 3 + oPn pr })
  | .bcenc d a c ty => some (0x68, .X, { d := d.val, a := a.r.val, ta := a.t.toNat, c := c.val, f := ty.code * 2 ^ 3 })
  | .bcdec d a b ty => some (0x68, .X, { d := d.val, a := a.r.val, ta := a.t.toNat, b := b.r.val, tb := b.t.toNat, f := 1 * 2 ^ 7 + ty.code * 2 ^ 3 })
  | .mxcfg a => some (0x70, .X, { a := a.r.val, ta := a.t.toNat })
  | .mxmm d a b k => some (0x71, .X, { d := d.val, a := a.r.val, ta := a.t.toNat, b := b.r.val, tb := b.t.toNat, f := k.toNat })
  | .mxmms d a b c e slab => some (0x72, .Y, { d := d.val, a := a.r.val, ta := a.t.toNat, b := b.r.val, tb := b.t.toNat, c := c.r.val, tc := c.t.toNat, e := e.r.val, te := e.t.toNat, f := slab.toNat * 2 ^ 3 })
  | .mxprune d a b q => some (0x73, .X, { d := d.val, a := a.r.val, ta := a.t.toNat, b := b.r.val, tb := b.t.toNat, f := q.toNat })
  | .mxzero d => some (0x74, .X, { d := d.val })
  | .mxld d a b => some (0x74, .X, { d := d.val, a := a.r.val, ta := a.t.toNat, b := b.r.val, tb := b.t.toNat, f := 1 * 2 ^ 8 })
  | .mxst a b c sat ty => some (0x74, .X, { a := a.r.val, ta := a.t.toNat, b := b.r.val, tb := b.t.toNat, c := c.r.val, tc := c.t.toNat, f := sat.toNat * 2 ^ 3 + ty.code * 2 ^ 4 + 2 * 2 ^ 8 })
  | .zrd d a b => some (0x75, .X, { d := d.val, a := a.r.val, ta := a.t.toNat, b := b.r.val, tb := b.t.toNat })
  | .zwr d a b => some (0x75, .X, { d := d.val, a := a.r.val, ta := a.t.toNat, b := b.r.val, tb := b.t.toNat, f := 1 * 2 ^ 8 })
  | .mxwait d => some (0x76, .R, { d := d.val })
  | .mxrem a => some (0x77, .X, { a := a.r.val, ta := a.t.toNat })
  | .cpy d a tag md => some (0x78, .Y, { d := d.val, a := a.r.val, ta := a.t.toNat, f := md.chan * 2 ^ 11 + md.code * 2 ^ 9 + tag.toNat * 2 ^ 3 })
  | .cpym d a tag md => some (0x78, .Y, { d := d.val, a := a.r.val, ta := a.t.toNat, f := md.chan * 2 ^ 11 + md.code * 2 ^ 9 + tag.toNat * 2 ^ 3 + 1 })
  | .gathr d a tag md => some (0x78, .Y, { d := d.val, a := a.r.val, ta := a.t.toNat, f := md.chan * 2 ^ 11 + md.code * 2 ^ 9 + tag.toNat * 2 ^ 3 + 2 })
  | .scatr d a tag md => some (0x78, .Y, { d := d.val, a := a.r.val, ta := a.t.toNat, f := md.chan * 2 ^ 11 + md.code * 2 ^ 9 + tag.toNat * 2 ^ 3 + 3 })
  | .embag d a tag md => some (0x78, .Y, { d := d.val, a := a.r.val, ta := a.t.toNat, f := md.chan * 2 ^ 11 + md.code * 2 ^ 9 + tag.toNat * 2 ^ 3 + 4 })
  | .coll d a tag md => some (0x78, .Y, { d := d.val, a := a.r.val, ta := a.t.toNat, f := md.chan * 2 ^ 11 + md.code * 2 ^ 9 + tag.toNat * 2 ^ 3 + 5 })
  | .cpywait d tag vis => some (0x79, .I, { d := d.val, imm := tag.toNat + vis.toNat * 2 ^ 6 })
  | .cpyst d tag => some (0x79, .I, { d := d.val, f := 1, imm := tag.toNat })
  | .cpyres d tag => some (0x79, .I, { d := d.val, f := 2, imm := tag.toNat })
  | .barr d => some (0x7A, .X, { d := d.val })
  | .bwait d => some (0x7A, .X, { d := d.val, f := 1 * 2 ^ 8 })
  | .barrd d a => some (0x7A, .X, { d := d.val, a := a.r.val, ta := a.t.toNat, f := 2 * 2 ^ 8 })
  | .bwany d a => some (0x7A, .X, { d := d.val, a := a.r.val, ta := a.t.toNat, f := 3 * 2 ^ 8 })
  | .bdom d a => some (0x7A, .X, { d := d.val, a := a.r.val, ta := a.t.toNat, f := 4 * 2 ^ 8 })
  | .mtxlk n => some (0x7B, .I, { imm := n.toNat })
  | .mtxul n => some (0x7B, .I, { f := 1, imm := n.toNat })
  | .semp n => some (0x7B, .I, { f := 2, imm := n.toNat })
  | .semv n => some (0x7B, .I, { f := 3, imm := n.toNat })
  | .qcfgSet a q => some (0x7B, .I, { a := a.r.val, ta := a.t.toNat, f := 4, imm := q.toNat * 2 ^ 2 })
  | .qcfgPut a q => some (0x7B, .I, { a := a.r.val, ta := a.t.toNat, f := 4, imm := 1 + q.toNat * 2 ^ 2 })
  | .qcfgGet d q => some (0x7B, .I, { d := d.val, f := 4, imm := 2 + q.toNat * 2 ^ 2 })
  | .slice d a b => some (0x7C, .X, { d := d.val, a := a.r.val, ta := a.t.toNat, b := b.r.val, tb := b.t.toNat })
  | .sjoin d a => some (0x7C, .X, { d := d.val, a := a.r.val, ta := a.t.toNat, f := 1 * 2 ^ 8 })
  | .yields a b => some (0x7C, .X, { a := a.r.val, ta := a.t.toNat, b := b.r.val, tb := b.t.toNat, f := 2 * 2 ^ 8 })
  | .wlapp a b => some (0x7C, .X, { a := a.r.val, ta := a.t.toNat, b := b.r.val, tb := b.t.toNat, f := 3 * 2 ^ 8 })
  | .wlpop d a c nw => some (0x7C, .X, { d := d.val, a := a.r.val, ta := a.t.toNat, c := c.val, f := nw.toNat + 4 * 2 ^ 8 })
  | .wlquiet d => some (0x7C, .X, { d := d.val, f := 5 * 2 ^ 8 })
  | .send a b => some (0x7D, .R, { a := a.r.val, ta := a.t.toNat, b := b.r.val, tb := b.t.toNat })
  | .sendE a b => some (0x7D, .R, { a := a.r.val, ta := a.t.toNat, b := b.r.val, tb := b.t.toNat, f := 1 })
  | .trap n => some (0x7E, .I, { imm := n.toNat })
  | .eret => some (0x7E, .I, { f := 1 })
  | .uiret => some (0x7E, .I, { f := 2 })
  | .mfcr d cr => some (0x7E, .I, { d := d.val, f := 3, imm := cr.code })
  | .mtcr a cr => some (0x7E, .I, { a := a.r.val, ta := a.t.toNat, f := 4, imm := cr.code })
  | .tlbinvPage d a => some (0x7E, .I, { d := d.val, a := a.r.val, ta := a.t.toNat, f := 5 })
  | .tlbinvAsid d => some (0x7E, .I, { d := d.val, f := 5, imm := 1 })
  | .tlbinvAll => some (0x7E, .I, { f := 5, imm := 2 })
  | .csave d a => some (0x7E, .I, { d := d.val, a := a.r.val, ta := a.t.toNat, f := 6 })
  | .crstr d a => some (0x7E, .I, { d := d.val, a := a.r.val, ta := a.t.toNat, f := 7 })
  | .bist d a => some (0x7E, .I, { d := d.val, a := a.r.val, ta := a.t.toNat, f := 8 })
  | .wfi => some (0x7E, .I, { f := 9 })
  | _ => none

/-- An encoded instruction: the head with L = 0, and the tail. -/
structure Code where
  head : Nat
  tail : Nat
  deriving DecidableEq, Repr

/-- The encoding of an instruction. -/
def encode (i : Instr) : Option Code :=
  match encodeRaw i with
  | some (op, fm, r) => some ⟨packHead fm false op r.d, packTail fm r⟩
  | none => none

/-- The instruction that the decoder reads from the words of an opcode-table row: `nbits` bits of `w`, the head in the most
significant halfword and the tail below it; a row of 16 bits is a head whose tail is 0. -/
def decodeTableWord (nbits w : Nat) : Option Instr :=
  match decode (bits w (nbits - 16) 16) (bits w 0 (nbits - 16)) with
  | .ok i => some i
  | .error _ => none

end Sys2Proof
end

