-- ==== Sys2Proof/Config.lean ====
section
/-!
DEFINITION. What the spec leaves open: fuses and addresses that a module or its firmware fixes, and free values. Each is an
opaque constant: nothing can be proved about what it is (log entries 8, 9, 12, 13).
-/

namespace Sys2Proof.Config

/-- VRCP and VRSQ return one of the two values that bracket the exact result (R348); true is the larger. Arguments: 0 for VRCP,
1 for VRSQ, and the input code. -/
opaque bracketUp : Nat → Nat → Bool
/-- The code that VEXP2 or VLOG2 returns for an ordinary input (R348), where it lies within the bound. Arguments: 2 for VEXP2, 3 for
VLOG2, and the input code. -/
opaque specialCode : Nat → Nat → Nat
/-- Which of two permitted values is taken (R378, R499), from the counter of free choices. -/
opaque choice : Nat → Bool
/-- A free doubleword, from the counter of free choices: margin results (R433), failing rows of a self-test (R415), syndromes (R457). -/
opaque freeWord : Nat → Word
/-- MODID fuse (R418). -/
opaque modid : Word
/-- ROOTHASH fuse, as a little-endian number (R431, R2). -/
opaque roothash : Nat
/-- MINSVN fuse (R431). -/
opaque minsvn : Nat
/-- PORTMODE fuse of an I/O die, one of its three doublewords (R420). -/
opaque portmode : Nat → Nat → Word
/-- Falcon-1024 signature of a byte string by the module's identity key (R432). -/
opaque falconSign : List Byte → List Byte
/-- The identity certificate of the module (R428). -/
opaque certificate : List Byte
/-- The entries of the fused defect map (R434). -/
opaque defectMap : List Word
/-- Bits [53:30] of the KIND 3 entry for a lane (R434, R493): its link, its number in the link and a spare lane of the link; none where the link has no spare.
Arguments: the device, the link kind and LANE of LANEMARG. -/
opaque spareLane : Nat → Nat → Nat → Option Nat
/-- Capacity in GiB that the Firkin on a capacity port of the module reports (R423). -/
opaque fittedGib : Nat → Nat
/-- The fabric port through which the requests to a peer leave: I/O die and port (R424). -/
opaque peerPort : Nat → Nat × Nat
/-- VERSION of an image that the boot ROM accepts (R492). -/
opaque bootVersion : Nat
/-- The address at which a Mizzen core enters M (R447) and, with argument 1, at which the firmware payload starts (R430). -/
opaque mizzenEntry : Nat → Word
/-- The image that the n-th attempt fetches over the management network (R430): its bytes. -/
opaque bootImage : Nat → List Byte

end Sys2Proof.Config
end

