-- ==== Sys2Proof/Machine/Sparse.lean ====
section
/-!
DEFINITION. Maps from numbers to values as lists sorted by key: the state of a unit that has never left its reset value is
not listed. And memory: bytes by address, in the canonical form that lists no byte equal to what an unlisted address reads as.
-/

namespace Sys2Proof.Machine

/-- The value at a key, if listed. -/
def sget {α : Type} : List (Nat × α) → Nat → Option α
  | [], _ => none
  | (k, x) :: t, n => if k = n then some x else sget t n

/-- Set the value at a key, keeping the keys in rising order. -/
def sset {α : Type} : List (Nat × α) → Nat → α → List (Nat × α)
  | [], n, y => [(n, y)]
  | (k, x) :: t, n, y => if n < k then (n, y) :: (k, x) :: t else if n = k then (n, y) :: t else (k, x) :: sset t n y

/-- Remove a key. -/
def sdel {α : Type} : List (Nat × α) → Nat → List (Nat × α)
  | [], _ => []
  | (k, x) :: t, n => if k = n then sdel t n else (k, x) :: sdel t n

/-- Apply a function to every entry of a vector. -/
def vmap {α β : Type} {n : Nat} (f : α → β) (v : Vector α n) : Vector β n := ⟨(v.toList.map f).toArray, by simp⟩

/-- A byte memory (R2, R168). -/
abbrev Memory := List Host.Cell

/-- What a byte that nothing has written reads as: 0 (DESIGN CHOICE, log entry 2). -/
def unwritten : Byte := 0

/-- The byte at an address. -/
def Memory.read (m : Memory) (a : Nat) : Byte := (sget m a).getD unwritten

/-- Write one byte, keeping the canonical form. -/
def Memory.write (m : Memory) (a : Nat) (b : Byte) : Memory := if b = unwritten then sdel m a else sset m a b

/-- Keys strictly rising from a bound. -/
def risingFrom {α : Type} : Nat → List (Nat × α) → Bool
  | _, [] => true
  | n, (k, _) :: t => decide (n ≤ k) && risingFrom (k + 1) t

/-- The canonical form: addresses strictly rising, and no entry equal to what an unlisted address reads as. -/
def Memory.wf (m : Memory) : Bool := risingFrom 0 m && m.all (fun c => decide (c.2 ≠ unwritten))

/-- The little-endian number of n bytes from an address (R2). -/
def Memory.readN (m : Memory) (a : Nat) : Nat → Nat
  | 0 => 0
  | n + 1 => (m.read a).toNat + 256 * Memory.readN m (a + 1) n

/-- Write the low n bytes of a number from an address (R2). -/
def Memory.writeN (m : Memory) (a : Nat) : Nat → Nat → Memory
  | 0, _ => m
  | n + 1, x => Memory.writeN (m.write a (BitVec.ofNat 8 x)) (a + 1) n (x / 256)

end Sys2Proof.Machine
end

