-- ==== Sys2Proof/Machine/State.lean ====
section
/-!
DEFINITION. Everything the spec gives the module, as plain data: contexts, cores, clusters, octets, dies, I/O dies, physical
memory and the units on it; the events posted and not yet performed; and the state right after module reset.
Maps keyed by number list only what has left its reset value (Sparse.lean).
-/

namespace Sys2Proof.Machine

/-- Why the machine stops: for no reason. Every failure that the spec describes is a trap, a machine check, a status or poison, and the machine goes on. -/
inductive Fault where
  deriving DecidableEq, Repr

/-- Why a step has no meaning. -/
inductive Refusal where
  /-- The instruction has no meaning in this model yet; raised by its arm of `exec`. Safe: nothing is claimed of it. -/
  | notModelled (mnemonic : String)
  deriving DecidableEq, Repr

/-- Where a byte is stored, whatever address names it: in the scratchpad of a core, or in physical memory. -/
inductive Loc where
  | spad (core off : Nat)
  | mem (pa : Nat)
  deriving DecidableEq, Repr

/-! ## Contexts -/

/-- The context states of R33. Ready and Waiting are both `live`: a context is found Waiting at its attempt to issue (R34). -/
inductive CtxSt where
  | free | starting | live | retiring | stopped
  deriving DecidableEq, Repr

/-- A register that a result on its way is written to (R70). -/
inductive Dest where
  | g (r : GReg) (x : Word)
  | v (r : VReg) (x : VWord)
  deriving DecidableEq, Repr

/-- A register that a dependent instruction waits for by latency alone (R29). -/
inductive RegName where
  | g (r : GReg)
  | v (r : VReg)
  | k (o : MOpd)
  deriving DecidableEq, Repr

/-- A long-latency producer that has issued and not completed (R70): its destinations with the values fixed at issue, the flags it
raises, and for a poisoned response the detail word and address of the fault it makes pending (R453). `old`: issued before the
user-level entry that is active, so that a result for g56 to g61 goes to the shadow (R86). -/
structure Producer where
  dests : List Dest
  flags : BitVec 7
  poison : Option (Word × Word)
  old : Bool
  /-- The answer of a deferred LDF, which is an acquire (R288). -/
  ldf : Bool
  /-- TIME from which its result can be written (log entry 6). -/
  due : Nat
  /-- The half row of a tile that a ZWR writes: tile, index and value (R353, R366). -/
  tile : Option (ZReg × Nat × VWord)
  /-- An LDF that its home has answered ready and whose answer is on its way: it keeps its entry of the deferral buffer (R288). -/
  entry : Bool
  /-- For the result of a request to a peer: the detail word and the address of the fault that a missing completion makes pending, and the TIME of the request (R489). -/
  peer : Option (Word × Word × Nat)
  deriving DecidableEq, Repr

/-- A stream element that a refill has fetched (R323): the address and size of its data, the data, for a valued fibre the address of its value and the value, and where
the bytes of both lie (R324). -/
structure Elem where
  a : Nat
  n : Nat
  x : Nat
  va : Option Nat
  y : Nat
  at_ : List Loc
  deriving DecidableEq, Repr

/-- A stream slot (R66, R97): whether it is in use, its STREAMMAP fields (R87), its descriptor advanced to the next element not
consumed (R320, R321), and the elements fetched ahead (R323). -/
structure Slot where
  used : Bool
  out : Bool
  vec : Bool
  idx : BitVec 4
  fibre : Bool
  d0 : Word
  d1 : Word
  d2 : Word
  d3 : Word
  buf : List Elem
  deriving DecidableEq, Repr

/-- A closed stream slot (R35). -/
def Slot.closed : Slot := ⟨false, false, false, 0, false, 0, 0, 0, 0, []⟩

/-- What an instruction that completes only later has already done (R34); the context re-issues it and finds this. -/
inductive Progress where
  | none
  /-- CSAVE has asked context c to stop (R414). -/
  | csave (c : Nat)
  /-- The context that CSAVE asked for has stopped, and its image is written by TIME t (R414). -/
  | saving (t : Nat)
  /-- CRSTR has asked for the restore of context c (R414). -/
  | crstr (c : Nat)
  /-- WFI waits for an event (R416). -/
  | wfi
  /-- A WLAPP is on its way to its unit (R484). -/
  | wlapp
  /-- The unit has refused the append: the reason of R485 and the list's number. -/
  | wlappRefused (reason list : Nat)
  /-- A WLPOP is parked (R403). -/
  | wlpop
  /-- What a parked WLPOP is answered with: its status, for status 0 its item, and the cluster and number of its list (R402, R404, R485). -/
  | answer (status : Nat) (x : Word) (list : Nat × Nat)
  /-- A WLQUIET waits on a channel (R404). -/
  | wlquiet (ch : Nat)
  /-- A BARR or BARRD waits for its release, and its arrival on the channel is still to be made (R389, R465). -/
  | barr (ch : Nat)
  /-- SADVTO has read the coordinate that it walks to (R325). -/
  | key (x : Nat)
  /-- A BIST runs (R415). -/
  | bist
  /-- A BIST has ended with a result (R415). -/
  | bistDone (x : Word)
  /-- What the instruction waited for has happened. -/
  | done
  deriving DecidableEq, Repr

/-- A trap, fault or interrupt on its way to a handler (R447): cause code, detail word, faulting address, and whether it is an attributed asynchronous
fault. -/
structure Trap where
  code : Nat
  detail : Word
  addr : Word
  async : Bool
  deriving DecidableEq, Repr

/-- A context (R66, R77). -/
structure Ctx where
  st : CtxSt
  /-- The move of the machine at which an attempt to issue found the context Waiting (R34); it is tried again after the next move (log entry 1). -/
  hold : Option Nat
  /-- TIME from which the context may issue: the end of the save of an entry to S, of a restore, of a QGSET (R411, R412, R305). -/
  wake : Nat
  /-- Registers with the TIME from which an instruction that depends on them may issue, where the result takes more than a cycle (R29). -/
  late : List (RegName × Nat)
  /-- An entry to S that waits for the context's producers (R411). -/
  entering : Option Trap
  g : Vector Word 64
  v : Vector VWord 16
  m : Vector Mask 4
  p : Vector Mask 8
  /-- Full bits of g and v (R70). -/
  gf : BitVec 64
  vf : BitVec 16
  slots : Vector Slot 8
  pc : Word
  n1 : Word
  n2 : Word
  apc : Bool
  an1 : Bool
  status : Word
  qgd : Word
  ssb : Word
  ssl : Word
  uivec : Word
  uitag : Word
  uicause : Word
  fmode : Word
  fflags : Word
  /-- COUNT, QSSBASE (resolved) and STRIDE that QGSET read (R42, R43, R499). -/
  qcount : Nat
  qbase : Word
  qstride : Nat
  /-- Shadow copies of g56 to g61 and their full bits (R86). -/
  shadow : Vector Word 6
  shadowf : BitVec 6
  /-- Age stamp (R254). -/
  age : Nat
  prods : List Producer
  /-- MXU operations issued and not completed (R359). -/
  mxu : Nat
  /-- Deferred LDFs not answered (R288). -/
  ldfs : Nat
  /-- An LDNM not resolved (R48). -/
  ldnm : Bool
  /-- Pending poisoned-data faults: detail word and address (R453). -/
  poisonQ : List (Word × Word)
  /-- Pending copy faults: tag, code, detail word, address (R453). -/
  copyQ : List (Nat × Nat × Word × Word)
  /-- Pending copy-completion interrupts: tag, handler address, routed to U (R387, R455). -/
  cpyiQ : List (Nat × Word × Bool)
  /-- A stop for pre-emption is asked for (R414). -/
  stopReq : Bool
  prog : Progress
  /-- Words of the SEND packet that is open, its destination core and queue (R396). -/
  send : List Word
  sendTo : Nat × Nat
  /-- The continuation that YIELDS writes: CODE and FRAME (R399). -/
  yields : Option (Word × Word)
  /-- Translations that the instruction that waits has been given: ASID and virtual page, and the level and reason of the fault where the walk ended in one (R174, R175). -/
  walked : List (Nat × Nat × Option (Nat × Nat))
  /-- Flags of results, each with the TIME at which its result is available, when it is ORed into FFLAGS (R85, R335). -/
  flagsAt : List (Nat × BitVec 7)
  deriving DecidableEq, Repr

/-- STATUS of context x at reset (R80): CTX is the context number; a Mizzen core runs at M (R407). -/
def statusReset (miz : Bool) (x : Nat) : Word := BitVec.ofNat 64 (x * 2 ^ 16 + (if miz then 2 * 2 ^ 4 else 0))

/-- Context x right after module reset. Registers without a reset value in the spec are 0 and full (log entry 3). -/
def Ctx.reset (miz : Bool) (x : Nat) : Ctx where
  st := .free
  hold := none
  wake := 0
  late := []
  entering := none
  g := Vector.replicate 64 0
  v := Vector.replicate 16 0
  m := Vector.replicate 4 0
  p := Vector.replicate 8 0
  gf := BitVec.allOnes 64
  vf := BitVec.allOnes 16
  slots := Vector.replicate 8 Slot.closed
  pc := 0
  n1 := 0
  n2 := 0
  apc := false
  an1 := false
  status := statusReset miz x
  qgd := 0
  ssb := 0
  ssl := 0
  uivec := 0
  uitag := 0
  uicause := 0
  fmode := 0
  fflags := 0
  qcount := 0
  qbase := 0
  qstride := 0
  shadow := Vector.replicate 6 0
  shadowf := BitVec.allOnes 6
  age := 0
  prods := []
  mxu := 0
  ldfs := 0
  ldnm := false
  poisonQ := []
  copyQ := []
  cpyiQ := []
  stopReq := false
  prog := .none
  send := []
  sendTo := (0, 0)
  yields := none
  walked := []
  flagsAt := []

/-! ## Copies, translations, windows -/

/-- Attribute of a page (R171). -/
inductive Attr where
  | dir | si | uc
  deriving DecidableEq, Repr

/-- State of a word copy that is held (R176); I is not listed. A U copy carries the region, and whether its grant has returned. -/
inductive WordSt where
  | v (stamp : Nat)
  | d
  | u (region : Nat) (granted : Bool) (ctxs : List Nat)
  deriving DecidableEq, Repr

/-- A copy of a 4-byte word (R176): its physical word number, and the attribute of its page. -/
structure Copy where
  w : Nat
  st : WordSt
  x : Nat
  attr : Attr
  deriving DecidableEq, Repr

/-- A translation (R171, R174, R224): ASID, virtual base, size in bytes, physical base, the flag bits of the leaf entry, and the update region
that tags it. -/
structure Tlb where
  asid : Nat
  va : Nat
  size : Nat
  pa : Nat
  flags : BitVec 10
  region : Option Nat
  deriving DecidableEq, Repr

/-- A window (R186): local base, virtual base and length, the ASID it translates under (R471), its word copies by word number within the window, and the translations that its
fills have used, newest first, until a TLBINV covers them (R189, R470). -/
structure Window where
  base : Nat
  va : Nat
  len : Nat
  asid : Nat
  words : List (Nat × Copy)
  pages : List Tlb
  deriving DecidableEq, Repr

/-- A set of the L1 (R176): the line of each way, and the bits of the tree that orders its ways by use. -/
structure L1Set where
  ways : Vector (Option Nat) 8
  tree : BitVec 7
  deriving DecidableEq, Repr

/-- An outstanding line request of a core (R193): its line, the words that it asks for, and TIME at which it returns. -/
structure Track where
  line : Nat
  mask : BitVec 16
  due : Nat
  deriving DecidableEq, Repr

/-- An event posted and not yet performed: its row of the opcode table, and its operands. -/
structure Ev where
  row : Instr
  a : List Nat
  deriving DecidableEq, Repr

/-- A page walk of a cluster (R175): ASID, virtual 4 KiB page, whether a walker runs it, and who waits for it: the core whose TLB lacks the page, and the core and context of the
instruction; and the events of engines, streams and the MXU that wait for it, each with the core whose TLB lacks the page. -/
structure Walk where
  asid : Nat
  page : Nat
  running : Bool
  joined : List (Nat × Nat × Nat)
  evs : List (Nat × Ev)
  deriving DecidableEq, Repr

/-- Directory state of a word at its home (R177); a word that is not listed is Unheld. -/
inductive DirSt where
  | shared
  | owned (core : Nat)
  deriving DecidableEq, Repr

/-! ## Per-core units -/

/-- A queue register (R93, R395): kind, writer and reader contexts, entries oldest first. -/
structure Queue where
  kind : Nat
  writer : Nat
  reader : Nat
  ents : List Word
  deriving DecidableEq, Repr

/-- An accumulator tile (R353): 64 rows, and its full bit. -/
structure Tile where
  rows : Vector TRow 64
  full : Bool
  deriving DecidableEq, Repr

/-- A halyard channel (R388): the first doubleword and the mask of its domain descriptor, how many arrivals each member has made (members are contexts at core level;
at every other level the core, as member 0) and how many phases have completed since BDOM. The sense bit is the parity of `done` (R60). `spent`: phases that have ended for the others,
and not yet for this core: its COLL stopped at a mismatch (R380), or it sleeps (R257). `colls`: the arrivals made by COLL, as member, arrival number and tag. `far`: the COLL arrivals of
members on other devices (R425), as member, arrival number, operation, bytes and data. -/
structure Chan where
  d0 : Word
  mask : BitVec 192
  arr : List (Nat × Nat)
  done : Nat
  spent : Nat
  colls : List (Nat × Nat × Nat)
  far : List (Nat × Nat × Nat × Nat × List Nat)
  deriving DecidableEq, Repr

/-- A mutex (R393): owner, and contexts waiting in the order of their first attempt. -/
structure Mutex where
  owner : Option Nat
  waiters : List Nat
  deriving DecidableEq, Repr

/-- A semaphore (R394). -/
structure Sem where
  count : BitVec 16
  waiters : List Nat
  deriving DecidableEq, Repr

/-- States of a copy tag (R383). -/
inductive TagSt where
  | idle | busy | srcDone | stopped
  deriving DecidableEq, Repr

/-- An engine command (R373 to R381): its selector, the context (11 once it has retired, R387), ASID and level it was issued under, the eight doublewords of its parameter
block, its mode, and its tag. -/
structure Cmd where
  sel : Nat
  ctx : Nat
  asid : Nat
  priv : Nat
  blk : Vector Word 8
  mode : EngMode
  tag : Nat
  deriving DecidableEq, Repr

/-- A copy tag (R383 to R386): its state and command, units done (R472), bytes or entries left, cause and flags of CPYST, the source words that the command has read, by
virtual word number (R211), and the units that CPYRES has skipped (R473). -/
structure Tag where
  st : TagSt
  cmd : Option Cmd
  done : Nat
  resid : Nat
  cause : Nat
  flags : BitVec 4
  src : List (Nat × Nat)
  skipped : List Nat
  deriving DecidableEq, Repr

/-- A range-lock entry (R213): first byte, length, tag, and whether it is a destination extent. -/
structure Lock where
  a : Nat
  n : Nat
  tag : Nat
  dst : Bool
  deriving DecidableEq, Repr

/-- An arrival that waits for VIS events of copy tags (R391, R387): channel, member, and the tags not yet fired. -/
structure Deferred where
  ch : Nat
  member : Nat
  tags : List Nat
  deriving DecidableEq, Repr

/-- An LDF in the deferral buffer (R288): context, data and status registers, physical and virtual address, whether its registers stand in the saved image (R73),
whether it was issued before the active user-level entry (R86), and the move at which the home recorded it. -/
structure Ldf where
  ctx : Nat
  d : GReg
  c : GReg
  pa : Nat
  va : Word
  saved : Bool
  old : Bool
  at_ : Nat
  deriving DecidableEq, Repr

/-- An update pair (R295, R223): physical address, region, value, the TIME, core and lane of its stamp, the contexts that emitted
what it carries, the attribute of its page, whether its address lies in a window, and whether it is a partial that had its grant when it left its L1 (R227, R234). -/
structure Pair where
  pa : Nat
  region : Nat
  x : Word
  time : Nat
  core : Nat
  lane : Nat
  ctxs : List Nat
  attr : Attr
  window : Bool
  part : Bool
  deriving DecidableEq, Repr

/-- A job-slice record (R237): eight doublewords. -/
abbrev Record := Vector Word 8

/-- The slice on a core (R237 to R249): its record, the queue it came from, the charge recorded at placement, TIME at placement, whether its budget trap
was taken, which dual copy it is and the core of the other copy, whether it has issued RETIRE or YIELDS. -/
structure Slice where
  rec_ : Record
  queue : Nat
  charge : Nat
  start : Nat
  budgetTaken : Bool
  dual : Option (Nat × Nat)
  /-- The signature of a dual copy that has ended: none inside if its range was unreadable (R400, R468). -/
  sig : Option (Option (BitVec 64))
  retired : Bool
  deriving DecidableEq, Repr

/-- Idle states of R255. -/
inductive Idle where
  | run | c1 | c2 | c3 | c4
  deriving DecidableEq, Repr

/-- A core (R93 to R95). Cores 0 to 6143 are compute cores (R19); 6144 + 4e + k is Mizzen core k of I/O die e, which uses context 0 only (log entry 9). -/
structure Core where
  ctxs : Vector Ctx 11
  issuepol : Word
  greedylim : Word
  csap : Word
  deleg : Word
  epoch : Word
  tvec : Word
  /-- Issue selector (R254). -/
  last : Nat
  greedy : Option Nat
  run : Nat
  /-- One more than TIME of the latest issue of the core; 0 before the first (R254). -/
  issued : Nat
  /-- TIME from which the divider (R144), the vector divider (R347) and the member unit (R305) are free. -/
  units : Vector Nat 3
  spad : Memory
  /-- Scratchpad words poisoned (R479): word addresses. -/
  spoison : List Nat
  /-- Words that the L1 holds (R176), by physical word number, and the lines of its sets that have left their reset value. -/
  l1 : List (Nat × Copy)
  l1sets : List (Nat × L1Set)
  /-- The instruction cache: lines by physical line number and their 512 bits, the latest first (R18, R114). -/
  icache : List (Nat × BitVec 512)
  /-- Outstanding line requests (R193). -/
  track : List Track
  /-- Words of SI windows of other cores that this core has stored through the aperture, or loaded while dirty, since its last write-back of SI words, by core and
  physical word (R187, R203, R206). -/
  away : List (Nat × Nat)
  wins : Vector (Option Window) 8
  tlb : List Tlb
  qs : Vector Queue 16
  tiles : Vector Tile 4
  /-- Tiles that an uncorrectable error has poisoned (R481). -/
  tbad : BitVec 4
  cfgv : Bool
  fmt : Vector Word 8
  /-- Format blocks that MXCFG has loaded and that are not yet installed, oldest first, each with the TIME from which it is (R356). -/
  installs : List (Nat × Vector Word 8)
  chans : Vector Chan 8
  bptr : BitVec 3
  mtx : Vector Mutex 8
  sem : Vector Sem 8
  tags : Vector Tag 64
  locks : List Lock
  deferred : List Deferred
  /-- Continuation queue: head index, and for each record, oldest first, what QGSET resolved for its group (R53, R43); its length is the queue's. -/
  cqHead : Nat
  cq : List (Nat × Word × Nat)
  ldfs : List Ldf
  ubuf : List Pair
  slice : Option Slice
  /-- ASID of the latest slice, for the windows (R94). -/
  lastAsid : Option Nat
  idle : Idle
  /-- TIME at which the core entered its idle state: C2 follows 20 µs of C1 (R255), and the die counts the energy windows since C2 (R480). -/
  sleepAt : Nat
  /-- TIME at which the exit latency of a core that wakes ends; 0 while it does not wake (R245, R257). -/
  waking : Nat
  /-- A BIST runs on the core (R415). -/
  testing : Bool
  /-- Mizzen only: whether a machine check is handled, the machine checks that wait, and the count of dropped ones (R457). -/
  handling : Bool
  mcq : List (Nat × Word × Word)
  mcDropped : Nat
  deriving DecidableEq, Repr

/-- Context 0 of the core is the only member of a channel at reset (R93). -/
def Chan.reset : Chan := ⟨0, 1, [], 0, 0, [], []⟩
/-- An idle tag. -/
def Tag.reset : Tag := ⟨.idle, none, 0, 0, 0, 0, [], []⟩
/-- A tile at reset: full; its contents are undefined (R93), here 0 (log entry 4). -/
def Tile.reset : Tile := ⟨Vector.replicate 64 0, true⟩

/-- A core right after module reset (R93, R95). -/
def Core.reset (miz : Bool) : Core where
  ctxs := #v[Ctx.reset miz 0, Ctx.reset miz 1, Ctx.reset miz 2, Ctx.reset miz 3, Ctx.reset miz 4, Ctx.reset miz 5, Ctx.reset miz 6,
    Ctx.reset miz 7, Ctx.reset miz 8, Ctx.reset miz 9, Ctx.reset miz 10]
  issuepol := 0
  greedylim := 64
  csap := 0xBB80
  deleg := 0
  epoch := 0
  tvec := 0
  last := 0
  greedy := none
  run := 0
  issued := 0
  units := Vector.replicate 3 0
  spad := []
  spoison := []
  l1 := []
  l1sets := []
  icache := []
  track := []
  away := []
  wins := Vector.replicate 8 none
  tlb := []
  qs := Vector.replicate 16 ⟨0, 0, 0, []⟩
  tiles := Vector.replicate 4 Tile.reset
  tbad := 0
  cfgv := false
  fmt := Vector.replicate 8 0
  installs := []
  chans := Vector.replicate 8 Chan.reset
  bptr := 0
  mtx := Vector.replicate 8 ⟨none, []⟩
  sem := Vector.replicate 8 ⟨0, []⟩
  tags := Vector.replicate 64 Tag.reset
  locks := []
  deferred := []
  cqHead := 0
  cq := []
  ldfs := []
  ubuf := []
  slice := none
  lastAsid := none
  idle := .c1
  sleepAt := 0
  waking := 0
  testing := false
  handling := false
  mcq := []
  mcDropped := 0

/-! ## Clusters, octets, dies -/

/-- Where a byte of an access lies (R167, R187): plain scratchpad of a core, a window of a core with the physical address behind it, physical memory with the attribute of
its page, or a device register. -/
inductive Place where
  | spad (core off : Nat)
  | win (core win off pa : Nat) (attr : Attr)
  | phys (pa : Nat) (attr : Attr)
  deriving DecidableEq, Repr

/-- The key of a Yard entry (R45): ASID, QGD, node address, tag. -/
abbrev YKey := Nat × Word × Nat × Nat

/-- A participant of a Yard entry or request: core, context, v destination, its m0. -/
structure YPart where
  core : Nat
  ctx : Nat
  d : VReg
  m0 : Mask
  deriving DecidableEq, Repr

/-- An LDNM request waiting for acceptance (R46), with where its node lies, as translated at issue (R307), and TIME at which it reaches the Yard. -/
structure YReq where
  key : YKey
  part : YPart
  node : Place
  at_ : Nat
  deriving DecidableEq, Repr

/-- A Yard entry (R46): key, leader, followers in order of acceptance, where the node lies, what its fetch has read and whether that is poisoned, and TIME at which it closes.
`alone`: the fetch of a request that bypasses (R45), which takes no entry and closes when its data arrives. A leader whose context is lost (R465) has context number 11. -/
structure YEntry where
  key : YKey
  leader : YPart
  followers : List YPart
  node : Place
  x : Nat
  bad : Bool
  alone : Bool
  close : Nat
  deriving DecidableEq, Repr

/-- A slice queue (R241): SQBASE and SQCTL fields, its records on chip, at most 64, oldest first, and those behind them in the ring in memory: how many, and the place in the
ring of the first. -/
structure SliceQ where
  sqbase : Word
  cls : Nat
  en : Bool
  recs : List Record
  ring : Nat
  rhead : Nat
  deriving DecidableEq, Repr

/-- A worklist in use (R401): BASE, ASID, LGCAP, CHAN of its descriptor, HEAD, TAIL, and the WLPOPs parked on it, oldest first: core,
context, item and status registers. -/
structure WList where
  base : Nat
  asid : Nat
  lgcap : Nat
  chan : Nat
  head : Nat
  tail : Nat
  parked : List (Nat × Nat × GReg × GReg)
  deriving DecidableEq, Repr

/-- A cluster (R45, R174, R241, R250, R401, R466). -/
structure Cluster where
  tlb : List Tlb
  /-- Page walks that run or wait for a walker, in order of arrival (R175). -/
  walks : List Walk
  /-- Cached ASID-table entries: ASID and root table (R170, R413). -/
  roots : List (Nat × Nat)
  yreq : List YReq
  yard : List YEntry
  /-- The cycle of the Yard's latest acceptance and the requests accepted in it (R46). -/
  accepted : Nat × Nat
  meetwin : Word
  qs : Vector SliceQ 16
  seq : Word
  ecap : Word
  egrant : Nat
  erem : Int
  urgency : Word
  wltbase : Word
  lists : List (Nat × WList)
  schederr : Word
  schederra : Word
  quar : Vector Word 3
  /-- Records held for a full queue: queue and record (R469). -/
  held : List (Nat × Record)
  /-- For a restarted DUAL record, by SEQ, the pair of cores that failed (R468). -/
  avoid : List (Nat × Nat × Nat)
  mxcap : Vector Word 24
  /-- One more than TIME of its dispatcher's latest selection; 0 before the first (R243). -/
  placed : Nat
  idle : Idle
  deriving DecidableEq, Repr

/-- A cluster right after module reset. -/
def Cluster.reset : Cluster where
  tlb := []
  walks := []
  roots := []
  yreq := []
  yard := []
  accepted := (0, 0)
  meetwin := 0x20
  qs := Vector.replicate 16 ⟨0, 0, false, [], 0, 0⟩
  seq := 0
  ecap := 800
  egrant := 800
  erem := 800
  urgency := 22500
  wltbase := 0
  lists := []
  schederr := 0
  schederra := 0
  quar := Vector.replicate 3 0
  held := []
  avoid := []
  mxcap := Vector.replicate 24 0
  placed := 0
  idle := .run

/-- Where the extents of an MXU operation lie, as translated at issue (R359): virtual 4 KiB page, physical page and attribute of each global page; and for each word in a window,
its word number in the space of the context, the ASID and virtual address of the window's word, and its place. -/
structure MxMap where
  pages : List (Nat × Nat × Attr)
  wins : List (Nat × Nat × Nat × Place)
  deriving DecidableEq, Repr

/-- The operations of the MXU (R359). -/
inductive MxKind where
  | mm | mms | zero | ld | st
  deriving DecidableEq, Repr

/-- An MXU operation issued (R359): who issued it (context 11 for the guest slot), its tile, the format block captured, base and stride operands, K/32 or the row slab,
kept rows and metadata of MXMMS, the blocks of BC8 operands, store type and saturation, and FMODE of the context. -/
structure MxOp where
  kind : MxKind
  core : Nat
  ctx : Nat
  z : ZReg
  fmt : Vector Word 8
  a : Word
  b : Word
  k : Nat
  va : VWord
  vb : VWord
  vc : VWord
  /-- Address and length in words of each block of A and of B, as the offset tables gave them at issue (R358, R160). -/
  ablk : List (Nat × Nat)
  bblk : List (Nat × Nat)
  ty : VType
  sat : Bool
  fmode : Word
  asid : Nat
  priv : Nat
  /-- Where its extents lie. -/
  pages : MxMap
  deriving DecidableEq, Repr

/-- A remote command (R368): the 16 doublewords of its block, the ASID and level of its issuer, its octet's requester core. -/
structure Remote where
  blk : Vector Word 16
  asid : Nat
  priv : Nat
  core : Nat
  deriving DecidableEq, Repr

/-- An octet's MXU (R359, R369): operations issued in order, the one that runs (its requester), the rotating pointer, remote commands on their way, commands
accepted for the guest slot, and the guest slot's tile and format block. -/
structure Octet where
  ops : List MxOp
  running : Option MxOp
  ptr : Nat
  arriving : List Remote
  guest : List Remote
  gtile : Tile
  gfmt : Vector Word 8
  /-- Lines that the tile fetch unit has pinned for the operation that runs (R191). -/
  pins : List Nat
  deriving DecidableEq, Repr

/-- An octet right after module reset. -/
def Octet.reset : Octet := ⟨[], none, 0, [], [], Tile.reset, Vector.replicate 8 0, []⟩

/-- A gang ticket outstanding (R253): ASID, GANGID, GSZ and ticket. -/
structure Ticket where
  asid : Nat
  gang : Nat
  gsz : Nat
  num : Nat
  deriving DecidableEq, Repr

/-- A compute die (R232, R253, R420, R433, R490). -/
structure Die where
  bcfg : Word
  bspbase : Word
  bspsize : Word
  diepwr : Word
  marginv : Word
  /-- PWRMON as last refreshed (R420): PWR, VCORE and TEMP fields. -/
  monPwr : Nat
  monV : Nat
  monTemp : Nat
  tf : Nat
  vf : Nat
  lanemarg : Word
  measuring : Bool
  pwrevt : Word
  droopInWindow : Bool
  /-- Number of the energy window whose start has been performed (R250, R251). -/
  window : Nat
  /-- Lines that each L2 slice holds, by slice number, the latest used first (R17, R176). -/
  l2 : List (Nat × List Nat)
  /-- The Shroud (R185): lines homed on other dies and the mask of their words present on this die, the latest first. -/
  shroud : List (Nat × BitVec 16)
  /-- Self-tests that run on slices of the die: slice, and TIME at which the test ends (R415). -/
  tests : List (Nat × Nat)
  /-- Fused minimum-voltage point in mV (R22). -/
  vmin : Nat
  /-- Supply set point in mV, and the limits on the core clock: steps dropped by droops, and the 1.50 GHz limit (R22, R490, R491). -/
  setpoint : Nat
  droopSteps : Nat
  tempLimit : Bool
  /-- Thirtieths of a core cycle that the die's clock has made up to TIME `since`, at which its frequency last changed (R21, R22). -/
  beats : Nat
  since : Nat
  /-- The TIME of the latest acceptance of pairs by the die's slices, and a slice number for each pair accepted in it (R228). -/
  accepted : Nat × List Nat
  ticketCtr : Nat
  ticketPtr : Nat
  tickets : List Ticket
  fenced : Bool
  tripped : Bool
  idle : Idle
  /-- TIME of the last host, fabric or CXL request to the die (R255). -/
  lastReq : Nat
  /-- TIME at which the exit latency of a die that leaves C4 ends; 0 while it does not wake (R257). -/
  wakeAt : Nat
  deriving DecidableEq, Repr

/-- Die d right after module reset. -/
def Die.reset (d : Nat) : Die where
  bcfg := 16
  bspbase := BitVec.ofNat 64 (d * 0x1000000000 + 0x880000000)
  bspsize := 2048
  diepwr := 0
  marginv := 0
  monPwr := 0
  monV := 450
  monTemp := 0
  tf := 256
  vf := 256
  lanemarg := 0
  measuring := false
  pwrevt := 0
  droopInWindow := false
  window := 0
  l2 := []
  shroud := []
  tests := []
  vmin := 450
  setpoint := 450
  droopSteps := 0
  tempLimit := false
  beats := 0
  since := 0
  accepted := (0, [])
  ticketCtr := 0
  ticketPtr := 0
  tickets := []
  fenced := false
  tripped := false
  idle := .run
  lastReq := 0
  wakeAt := 0

/-- An I/O die (R420): PORTMODE as written, the mode each port trained in, CXLSZ, LANEMARG, and which capacity ports are down. -/
structure IoDie where
  portmode : Vector Word 3
  trained : List (Nat × Nat)
  cxlsz : Vector Word 4
  cxldown : List Nat
  lanemarg : Word
  measuring : Bool
  deriving DecidableEq, Repr

/-- I/O die e right after module reset: PORTMODE is a fuse. -/
def IoDie.reset (e : Nat) : IoDie :=
  ⟨#v[Config.portmode e 0, Config.portmode e 1, Config.portmode e 2], [], Vector.replicate 4 0, [], 0, false⟩

/-! ## Memory side -/

/-- Operators of an update region (R222). -/
inductive UOp where
  | add | min | max | or | and | xor | cnt | lasts
  deriving DecidableEq, Repr

/-- An update region (R221), and whether its release is under way (R225). -/
structure Region where
  asid : Nat
  va : Nat
  pa : Nat
  pages : Nat
  ty : UType
  op : UOp
  leaving : Bool
  deriving DecidableEq, Repr

/-- An entry of a bin (R229): value, or the exact accumulator of F32 ADD as a multiple of 2^-149 with its special marks, or the largest stamp of LASTS. -/
structure BinEnt where
  val : Nat
  acc : Int
  pinf : Bool
  ninf : Bool
  nan : Bool
  ovf : Bool
  osgn : Bool
  hasNum : Bool
  time : Nat
  core : Nat
  lane : Nat
  deriving DecidableEq, Repr

/-- A run in a spill area (R233): the move at which it was written, its physical address and its number of entries. -/
structure Run where
  at_ : Nat
  pa : Nat
  n : Nat
  deriving DecidableEq, Repr

/-- A Pending bin page (R228): region, entries by byte offset, spilled runs oldest first (R233), and the mask of clusters that may hold partials. -/
structure BinPage where
  region : Nat
  ents : List (Nat × BinEnt)
  runs : List Run
  mask : BitVec 32
  deriving DecidableEq, Repr

/-- The boot ROM (R492): STAGE, ATTEMPTS, REASON, ROMDIE, failed attempts so far, whether it waits for its next attempt, and whether step 4 of R430 has ended, so that slices and
launch packets are accepted and the host sees all of BAR0 and BAR2. -/
structure Boot where
  stage : Nat
  attempts : BitVec 32
  reason : Nat
  rom : Nat
  fails : Nat
  waiting : Bool
  up : Bool
  deriving DecidableEq, Repr

/-- Where a message goes: an address of a UALink device (R424, R427), or an endpoint of the Ultra Ethernet: IPv6 address, job ID and endpoint index (R420). -/
inductive Endpoint where
  | ualink (device : Nat) (addr : Word)
  | uet (ip job index : Nat)
  deriving DecidableEq, Repr

/-- What the module has sent to the outside world, oldest first (R421, R427 to R429, R258): also the answer of the management port to a Redfish request, with the mailbox opcode, its status
and its result bytes (R428), and the report of a host link's surprise down (R489). -/
inductive Sent where
  | launchAck (dest : Endpoint) (tag : Word) (code : Int)
  | report (dest : Endpoint) (ws : List Word)
  | msix (link vec : Nat)
  | uet (dest : Endpoint) (data : List Byte)
  | redfish (op status : Nat) (data : List Byte)
  | surpriseDown (link : Nat)
  | barRead (link : Nat) (x : Word) (ok : Bool)
  | peerRead (x : Word) (ok : Bool)
  deriving DecidableEq, Repr

/-- Which agent moves next (log entry 1). -/
inductive Turn where
  /-- The issue selector of a core chooses and issues (R254). -/
  | issue (core : Nat)
  /-- The n-th posted event is performed. -/
  | event (n : Nat)
  /-- TIME advances (R21). -/
  | tick (n : Nat)
  deriving DecidableEq, Repr

/-- The module. -/
structure State where
  time : Nat
  cores : List (Nat × Core)
  clusters : List (Nat × Cluster)
  octets : List (Nat × Octet)
  dies : List (Nat × Die)
  iods : List (Nat × IoDie)
  mem : Memory
  /-- Doublewords of FUT pages whose empty bit is set, by physical address (R183). -/
  fempty : List Nat
  /-- Words of physical memory that are poisoned, by word number (R477 to R479). -/
  poison : List Nat
  /-- Directory state of physical words (R177). -/
  dir : List (Nat × DirSt)
  regions : List (Nat × Region)
  bins : List (Nat × BinPage)
  /-- Applies of bin pages that are under way: page, and TIME at which each ends (R235). -/
  applies : List (Nat × Nat)
  asidtbase : Word
  /-- Mailbox messages queued, oldest first: the message, and the host function it came through (R428, R429). -/
  mbx : List (Nat × Option Nat)
  resdest : Word
  ltol : Word
  boot : Boot
  /-- Latencies of the last LTR message of each host link (R256). -/
  ltr : List (Nat × Nat × Nat)
  /-- Links that are down: kind and index (R489). -/
  downLinks : List (LinkKind × Nat × Nat)
  /-- Ranges of host memory, first address and length, whose requests the host completes with Unsupported Request or Completer Abort: an input from the outside (R500). -/
  hostErrs : List (Nat × Nat)
  sent : List Sent
  reportSeq : Nat
  /-- TIME of the last residency report, and the cluster entries that it carried (R258). -/
  reportAt : Nat
  reported : List Nat
  /-- Entries that the firmware has added to the fused defect map (R434, R493). -/
  fieldMap : List Word
  /-- Update pairs on their way to bin homes, oldest first (R226, R228). -/
  flight : List Pair
  /-- SEND packets on their way: sender core, target core, queue, words (R396). -/
  packets : List (Nat × Nat × Nat × List Word)
  /-- Events posted and not yet performed, oldest first, each with the TIME from which the default schedule performs it (log entries 1 and 6). -/
  pendingEv : List (Nat × Ev)
  turns : List Turn
  /-- The core and context whose instruction is issued, and its head (log entry 10). -/
  act : Nat
  actx : Fin 11
  head : Nat
  /-- The operands of the event that is performed (log entry 10). -/
  ev : List Nat
  /-- Counter of free choices (log entry 8). -/
  fresh : Nat
  /-- Moves made so far: issues, events and idle steps (log entry 1). -/
  moves : Nat
  /-- The lowest core that has not yet had its issue in this cycle (log entry 1). -/
  cursor : Nat
  /-- The part of this cycle that the moves have come to (R238, R243; log entry 1): 0 nothing has moved, 1 selections by the dispatchers, 2 enqueues by joins and of held records, 3 other
  events, 4 issues, 5 launch packets. -/
  phase : Nat
  deriving DecidableEq, Repr

/-- The module right after module reset: no context is live, memory lists nothing, and the boot ROM waits for its link (R430). -/
def State.reset : State where
  time := 0
  cores := []
  clusters := []
  octets := []
  dies := []
  iods := []
  mem := []
  fempty := []
  poison := []
  dir := []
  regions := []
  bins := []
  applies := []
  asidtbase := 0
  mbx := []
  resdest := 0
  ltol := 0xFFFFFFFF
  boot := ⟨0, 0, 0, 0, 0, false, false⟩
  ltr := []
  downLinks := []
  hostErrs := []
  sent := []
  reportSeq := 0
  reportAt := 0
  reported := []
  fieldMap := []
  flight := []
  packets := []
  pendingEv := []
  turns := []
  act := 0
  actx := 0
  head := 0
  ev := []
  fresh := 0
  moves := 0
  cursor := 0
  phase := 0

end Sys2Proof.Machine
end

