-- ==== Sys2Proof/Machine/Access.lean ====
section
/-!
DEFINITION. Reading and changing the units of the module by number; the numbering of R19; the steps of a meaning: a function that
reads and changes the state, or stops with a trap or a wait.
-/

namespace Sys2Proof

/-- Bytes of an element of an update region (R295). -/
def UType.bytes : UType → Nat
  | .i32 | .f32 => 4
  | .i64 => 8
/-- Bytes of an access (R133). -/
def Size.bytes : Size → Nat
  | .b => 1 | .h => 2 | .w => 4 | .d => 8
/-- Bytes of an element (R286). -/
def ESize.bytes : ESize → Nat
  | .b => 1 | .h => 2 | .w => 4
/-- Whether a scope reaches beyond the core (R179). -/
def Scope.wide (sc : Scope) : Bool := sc != .core
/-- Bytes of a query-set field (R302). -/
def QType.bytes : QType → Nat
  | .n8 | .i8 => 1 | .n16 | .i16 => 2 | .n32 | .i32 | .f32 => 4 | .i64 => 8

end Sys2Proof

namespace Sys2Proof.Machine

/-! ## Units by number -/

/-- Mizzen cores are numbered from here (log entry 9). -/
def mizBase : Nat := 6144
/-- Whether a core number is a Mizzen core's. -/
def isMiz (k : Nat) : Bool := decide (mizBase ≤ k)
/-- Core k. -/
def State.core (s : State) (k : Nat) : Core := (sget s.cores k).getD (Core.reset (isMiz k))
/-- Replace core k. -/
def State.setCore (s : State) (k : Nat) (c : Core) : State := { s with cores := sset s.cores k c }
/-- Change core k. -/
def State.modCore (s : State) (k : Nat) (f : Core → Core) : State := s.setCore k (f (s.core k))
/-- A context number. -/
def cix (x : Nat) : Fin 11 := Fin.ofNat 11 x
/-- Context x of a core. -/
def Core.ctx (c : Core) (x : Fin 11) : Ctx := c.ctxs[x]
/-- Replace context x of a core. -/
def Core.setCtx (c : Core) (x : Fin 11) (t : Ctx) : Core := { c with ctxs := c.ctxs.set x t }
/-- Context x of core k. -/
def State.ctx (s : State) (k : Nat) (x : Fin 11) : Ctx := (s.core k).ctx x
/-- Replace context x of core k. -/
def State.setCtx (s : State) (k : Nat) (x : Fin 11) (t : Ctx) : State := s.setCore k ((s.core k).setCtx x t)
/-- Change context x of core k. -/
def State.modCtx (s : State) (k : Nat) (x : Fin 11) (f : Ctx → Ctx) : State := s.setCtx k x (f (s.ctx k x))
/-- The core with the format blocks installed whose time has come (R356). -/
def Core.now (t : Nat) (c : Core) : Core :=
  { c.installs.foldl (fun (c : Core) e => if e.1 ≤ t then { c with fmt := e.2, cfgv := true } else c) c with installs := c.installs.filter fun e => decide (t < e.1) }

/-- A format block is installed in a core at a TIME, after those installed earlier (R356). -/
def Core.install (t : Nat) (f : Vector Word 8) (c : Core) : Core :=
  { c with installs := c.installs.filter (fun e => decide (e.1 ≤ t)) ++ (t, f) :: c.installs.filter fun e => decide (t < e.1) }

/-- Cluster c. -/
def State.cluster (s : State) (c : Nat) : Cluster := (sget s.clusters c).getD Cluster.reset
/-- Change cluster c. -/
def State.modCluster (s : State) (c : Nat) (f : Cluster → Cluster) : State := { s with clusters := sset s.clusters c (f (s.cluster c)) }
/-- Octet o. -/
def State.octet (s : State) (o : Nat) : Octet := (sget s.octets o).getD Octet.reset
/-- Change octet o. -/
def State.modOctet (s : State) (o : Nat) (f : Octet → Octet) : State := { s with octets := sset s.octets o (f (s.octet o)) }
/-- Compute die d. -/
def State.die (s : State) (d : Nat) : Die := (sget s.dies d).getD (Die.reset d)
/-- Change die d. -/
def State.modDie (s : State) (d : Nat) (f : Die → Die) : State := { s with dies := sset s.dies d (f (s.die d)) }
/-- I/O die e. -/
def State.iod (s : State) (e : Nat) : IoDie := (sget s.iods e).getD (IoDie.reset e)
/-- Change I/O die e. -/
def State.modIod (s : State) (e : Nat) (f : IoDie → IoDie) : State := { s with iods := sset s.iods e (f (s.iod e)) }

/-- Cluster of a core (R19). A Mizzen core is given the first cluster of the dies it serves. -/
def clusterOf (k : Nat) : Nat := if isMiz k then (k - mizBase) / 4 * 16 else k / 192
/-- Logical core number in the cluster (R16). -/
def logical (k : Nat) : Nat := k % 192
/-- Octet of a core (R19). -/
def octetOf (k : Nat) : Nat := k / 8
/-- Compute die of a core (R19). -/
def dieOf (k : Nat) : Nat := clusterOf k / 8
/-- The Mizzen core that serves a compute die (R457). -/
def mizOf (d : Nat) : Nat := mizBase + 4 * (d / 2)
/-- The compute cores of a cluster. -/
def coresOf (cl : Nat) : List Nat := (List.range 192).map (192 * cl + ·)

/-! ## Clocks (R21, R22, R490, R491) -/

/-- Steps of 75 MHz that a set point costs below Vmin (R22). -/
def clockSteps (vmin v : Nat) : Nat := if vmin ≤ v then 0 else (10 * (vmin - v) + (vmin - 380) - 1) / (vmin - 380)

/-- The core clock of a die in steps of 75 MHz, 30 of them at 2.25 GHz (R22, R490, R491); it never falls below 1.50 GHz. -/
def Die.clock (y : Die) : Nat :=
  let f := max 20 (30 - (clockSteps y.vmin y.setpoint + y.droopSteps))
  if y.tempLimit then 20 else f

/-- The clock of a core in steps of 75 MHz: a Mizzen core runs at 1.5 GHz (R21). -/
def State.clockOf (s : State) (k : Nat) : Nat := if isMiz k then 20 else (s.die (dieOf k)).clock

/-- Thirtieths of a cycle that the clock of a die has made up to a TIME at or after its last change of frequency. -/
def Die.beatsAt (y : Die) (t : Nat) : Nat := y.beats + (t - y.since) * y.clock

/-- A change of what the clock of a die depends on at a TIME: the cycles made so far stay made (R21, R22, R490, R491). -/
def Die.reclock (t : Nat) (f : Die → Die) (y : Die) : Die := f { y with beats := y.beatsAt t, since := t }

/-- Thirtieths of a cycle that the clock of core k has made up to a TIME. -/
def State.beatsOf (s : State) (k t : Nat) : Nat := if isMiz k then t * 20 else (s.die (dieOf k)).beatsAt t

/-- The number of the cycle of core k that TIME lies in. -/
def State.cycleNo (s : State) (k : Nat) : Nat := s.beatsOf k s.time / 30

/-- Whether a cycle of core k begins at a tick (R21). -/
def State.edge (s : State) (k t : Nat) : Bool := let b := s.beatsOf k t; (b + s.clockOf k) / 30 != b / 30

/-- The ticks of TIME from now to the tick at which the cycle of core k begins that is n cycles after the one that TIME lies in (R21, R29). -/
def State.cyc (s : State) (k n : Nat) : Nat :=
  let c := s.clockOf k
  (30 * (s.cycleNo k + n + 1) - s.beatsOf k s.time + c - 1) / c - 1

/-- The next free choice (log entry 8). -/
def State.freshen (s : State) : State := { s with fresh := s.fresh + 1 }

/-- Cycles from the posting of an event to its default moment (log entry 6): START to the first instruction 6 (R29); a restore 108 (R414); the L2 and DRAM rows of R29 for
what the memory side does; at least 4 to the acceptance of a request at the Yard (R307); the drain of 1 µs after a droop (R490); a lane measurement of 1 ms (R433). -/
def eventDelay : Instr → Nat
  | .contextStartingEnd => 6
  | .contextRestoreComplete => 108
  | .copySrcEvent | .copyVisEvent | .joinContinuationEnqueue | .uGrantRequest | .uGrantReturn | .bushelPairAccept | .fillReturn | .worklistAppendArrival => 70
  | .sendPacketDeliver | .mxremCommandArrival | .guestCommandComplete => 160
  | .ldfDeferredAnswer => 220
  | .worklistQuiescence => 36
  | .yardRequestAccept => 4
  | .droopClockStepEnd => 2250
  | .laneMarginDone => 2250000
  | _ => 1

/-- Post an event behind those posted, for n cycles on. -/
def State.postIn (s : State) (n : Nat) (e : Ev) : State := { s with pendingEv := s.pendingEv ++ [(s.time + n, e)] }

/-- Rows whose delay is counted in cycles of the core that their first operand names (R29, R414). -/
def inCycles : Instr → Bool
  | .contextStartingEnd | .contextRestoreComplete => true
  | _ => false

/-- Ticks of TIME from the posting of an event to its default moment (log entry 6). -/
def State.delayOf (s : State) (e : Ev) : Nat :=
  if inCycles e.row then s.cyc (e.a.headD 0) (eventDelay e.row) else eventDelay e.row

/-- Post an event behind those posted. -/
def State.postMore (s : State) (e : Ev) : State := s.postIn (s.delayOf e) e

/-- Post an event unless it is posted already. -/
def State.post (s : State) (e : Ev) : State := if s.pendingEv.any fun p => p.2 == e then s else s.postMore e

/-! ## Fields of words -/

/-- Bits [lo + w - 1 : lo] of a doubleword. -/
def fld (x : Word) (lo w : Nat) : Nat := bits x.toNat lo w
/-- A bit of a doubleword. -/
def bit (x : Word) (i : Nat) : Bool := x.getLsbD i
/-- x with bits [lo + w - 1 : lo] replaced by the low bits of y. -/
def putBits (x : Word) (lo w y : Nat) : Word :=
  (x &&& ~~~(BitVec.ofNat 64 ((2 ^ w - 1) * 2 ^ lo))) ||| BitVec.ofNat 64 (y % 2 ^ w * 2 ^ lo)
/-- sext(x, n): the low n bits of a number read in two's complement (R2). -/
def sextN (x n : Nat) : Int := if x % 2 ^ n < 2 ^ (n - 1) then (x % 2 ^ n : Nat) else (x % 2 ^ n : Nat) - (2 ^ n : Nat)
/-- sext(x, n) as a doubleword. -/
def sext64 (x n : Nat) : Word := BitVec.ofInt 64 (sextN x n)
/-- A doubleword from a number. -/
def w64 (n : Nat) : Word := BitVec.ofNat 64 n

/-- STATUS.PRIV (R80). -/
def Ctx.priv (c : Ctx) : Nat := fld c.status 4 2
/-- STATUS.PPRIV (R80). -/
def Ctx.ppriv (c : Ctx) : Nat := fld c.status 2 2
/-- STATUS.ASID (R80). -/
def Ctx.asid (c : Ctx) : Nat := fld c.status 32 12
/-- STATUS.UIEN (R80). -/
def Ctx.uien (c : Ctx) : Bool := bit c.status 9
/-- STATUS.UIACT (R80). -/
def Ctx.uiact (c : Ctx) : Bool := bit c.status 10
/-- STATUS.SENDOPEN (R80). -/
def Ctx.sendopen (c : Ctx) : Bool := bit c.status 11
/-- STATUS with a field replaced. -/
def Ctx.setStatus (c : Ctx) (lo w y : Nat) : Ctx := { c with status := putBits c.status lo w y }
/-- A live context (R33). -/
def Ctx.isLive (c : Ctx) : Bool := c.st != .free

/-! ## Steps of a meaning -/

/-- How a meaning stops short of completing its instruction. -/
inductive Stop where
  /-- A synchronous trap: the instruction has no effect (R456). -/
  | trap (t : Trap)
  /-- A trap that keeps the steps completed (R329). -/
  | trapKeep (s : State) (t : Trap)
  /-- The context is Waiting (R34); nothing has happened. -/
  | wait
  /-- The context is Waiting, and what it has asked for stands. -/
  | waitWith (s : State)
  /-- The context is Waiting for the translation of a page under an ASID, which the TLB of a core lacks (R174, R175). -/
  | waitFor (core asid va : Nat)

/-- A step of a meaning: reads and changes the state, or stops. -/
abbrev X := StateT State (Except Stop)

/-- Stop. -/
def stop {α : Type} (e : Stop) : X α := fun _ => .error e
/-- The state. -/
def getS : X State := fun s => .ok (s, s)
/-- Change the state. -/
def modS (f : State → State) : X Unit := fun s => .ok ((), f s)
/-- Run a state function that gives a result. -/
def runS {α : Type} (f : State → α × State) : X α := fun s => .ok (f s)
/-- The core that issues. -/
def co : X Core := fun s => .ok (s.core s.act, s)
/-- Change the core that issues. -/
def modCo (f : Core → Core) : X Unit := fun s => .ok ((), s.modCore s.act f)
/-- The context that issues. -/
def cx : X Ctx := fun s => .ok (s.ctx s.act s.actx, s)
/-- Change the context that issues. -/
def modCx (f : Ctx → Ctx) : X Unit := fun s => .ok ((), s.modCtx s.act s.actx f)
/-- The context waits. -/
def wait {α : Type} : X α := stop .wait
/-- The context waits, and what has been done so far stands. -/
def waitKeep {α : Type} : X α := fun s => .error (.waitWith s)
/-- A synchronous trap (R448). -/
def trap {α : Type} (code : Nat) (detail addr : Word) : X α := stop (.trap ⟨code, detail, addr, false⟩)
/-- Illegal instruction with reason 6 and a subreason (R449); the head is filled in from the state. -/
def illegal6 {α : Type} (sub : Nat) : X α := fun s => .error (.trap ⟨0x02, w64 (s.head * 2 ^ 48 + sub * 2 ^ 8 + 6), 0, false⟩)
/-- Illegal instruction with a reason of R140. -/
def illegalR {α : Type} (r : Nat) : X α := fun s => .error (.trap ⟨0x02, w64 (s.head * 2 ^ 48 + r), 0, false⟩)
/-- Wait unless a condition holds. -/
def waitUnless (b : Bool) : X Unit := if b then pure () else wait
/-- Post an event. -/
def postX (e : Ev) : X Unit := modS (·.post e)
/-- Operand i of the event that is performed; 0 if it has none. -/
def State.arg (s : State) (i : Nat) : Nat := s.ev.getD i 0

/-- How an instruction leaves the sequence of R91: no transfer, or a decision with its target and annul request (R89). -/
structure Flow where
  taken : Bool
  target : Word
  k : Bool
  deriving DecidableEq, Repr

/-- No transfer (R89). -/
def Flow.seq : Flow := ⟨false, 0, false⟩

end Sys2Proof.Machine
end

