-- ==== Sys2Proof/Machine/Flags.lean ====
section
/-!
DEFINITION. Number formats and arithmetic (07): exact values, rounding with its flags, conversions, exact accumulation, BC8 blocks.
A value is a sign, a whole magnitude and a power of two, so every product and sum is formed exactly and rounded once.
-/

namespace Sys2Proof.Machine

/-! ## Flags and modes -/

/-- Flags in the layout of FFLAGS (R85). -/
abbrev Flags := BitVec 7
/-- Inexact. -/
def fNX : Flags := 1
/-- Underflow. -/
def fUF : Flags := 2
/-- Overflow. -/
def fOF : Flags := 4
/-- Division by zero. -/
def fDZ : Flags := 8
/-- Invalid operation. -/
def fNV : Flags := 16
/-- BCENC saturated an element. -/
def fQSAT : Flags := 32
/-- INT8 accumulation wrapped. -/
def fMXOV : Flags := 64

/-- Rounding modes in the coding of FMODE.RM (R85). -/
inductive Rm where
  | rne | rtz | rup | rdn
  deriving DecidableEq, Repr

/-- The mode with a given code. -/
def Rm.ofCode : Nat → Rm
  | 0 => .rne | 1 => .rtz | 2 => .rup | _ => .rdn

/-- How a vector floating-point instruction rounds: its mode, and whether it flushes subnormals (R150). -/
structure FMode where
  rm : Rm
  ftz : Bool
  deriving DecidableEq, Repr

/-- FMODE of a context (R85). -/
def Ctx.mode (c : Ctx) : FMode := ⟨Rm.ofCode (fld c.fmode 0 2), bit c.fmode 2⟩

/-- The mode of the fixed orders: RNE (R148). -/
def FMode.rne (m : FMode) : FMode := ⟨.rne, m.ftz⟩

/-! ## Formats and codes -/

/-- The floating-point formats (R146). -/
inductive FF where
  | f32 | f16 | bf16 | e4m3 | e5m2
  deriving DecidableEq, Repr

/-- Exponent width. -/
def FF.ew : FF → Nat
  | .f32 | .bf16 => 8 | .f16 | .e5m2 => 5 | .e4m3 => 4
/-- Mantissa width. -/
def FF.mw : FF → Nat
  | .f32 => 23 | .f16 => 10 | .bf16 => 7 | .e4m3 => 3 | .e5m2 => 2
/-- Width of a code. -/
def FF.width (F : FF) : Nat := 1 + F.ew + F.mw
/-- Exponent bias. -/
def FF.bias (F : FF) : Nat := 2 ^ (F.ew - 1) - 1
/-- The code of the largest finite value. -/
def FF.maxCode : FF → Nat
  | .f32 => 0x7F7FFFFF | .f16 => 0x7BFF | .bf16 => 0x7F7F | .e4m3 => 0x7E | .e5m2 => 0x7B
/-- Canonical NaN (R147). -/
def FF.qnan : FF → Nat
  | .f32 => 0x7FC00000 | .f16 => 0x7E00 | .bf16 => 0x7FC0 | .e4m3 => 0x7F | .e5m2 => 0x7E
/-- The sign bit of a code. -/
def FF.sgn (F : FF) (neg : Bool) : Nat := if neg then 2 ^ (F.ew + F.mw) else 0
/-- Infinity of a sign; E4M3 has none, and its NaN of that sign stands there (R149). -/
def FF.inf (F : FF) (neg : Bool) : Nat := F.sgn neg + (if F = .e4m3 then 0x7F else (2 ^ F.ew - 1) * 2 ^ F.mw)

/-- A value (R146, R147): NaN, infinity, or (-1)^neg m 2^e. -/
inductive FV where
  | nan (signalling : Bool)
  | inf (neg : Bool)
  | fin (neg : Bool) (m : Nat) (e : Int)
  deriving DecidableEq, Repr

/-- The value of a code (R146, R147). -/
def FF.decode (F : FF) (code : Nat) : FV :=
  let neg := bits code (F.ew + F.mw) 1 == 1
  let e := bits code F.mw F.ew
  let m := bits code 0 F.mw
  if F = .e4m3 then
    if e = 15 ∧ m = 7 then .nan false
    else if e = 0 then .fin neg m (1 - F.bias - F.mw) else .fin neg (2 ^ F.mw + m) (e - F.bias - F.mw : Int)
  else if e = 2 ^ F.ew - 1 then if m = 0 then .inf neg else .nan (decide (m < 2 ^ (F.mw - 1)))
  else if e = 0 then .fin neg m (1 - F.bias - F.mw) else .fin neg (2 ^ F.mw + m) (e - F.bias - F.mw : Int)

/-- A subnormal code reads as a zero of its sign under FTZ (R150). -/
def FF.flush (F : FF) (ftz : Bool) (code : Nat) : Nat := if ftz && bits code F.mw F.ew == 0 then F.sgn (bits code (F.ew + F.mw) 1 == 1) else code

/-- The value an arithmetic operand supplies (R150). -/
def FF.operand (F : FF) (ftz : Bool) (code : Nat) : FV := F.decode (F.flush ftz code)

/-! ## Rounding -/

/-- Number of significant bits. -/
def blen (n : Nat) : Nat := if n = 0 then 0 else Nat.log2 n + 1

/-- m 2^-s rounded to a whole number, s >= 0, where `st` says that the exact value lies strictly above m (by less than 1): the whole number and whether
anything was lost. -/
def roundShift (rm : Rm) (neg : Bool) (m : Nat) (st : Bool) (s : Nat) : Nat × Bool :=
  let q := m / 2 ^ s
  let r := m % 2 ^ s
  let lost := decide (r ≠ 0) || st
  let up := match rm with
    | .rne => if s = 0 then false else
        decide (r > 2 ^ (s - 1)) || (decide (r = 2 ^ (s - 1)) && (st || decide (q % 2 = 1)))
    | .rtz => false
    | .rup => lost && !neg
    | .rdn => lost && neg
  (if up then q + 1 else q, lost)

/-- m 2^e rounded to a multiple of 2^q: the multiple and whether anything was lost. -/
def roundTo (rm : Rm) (neg : Bool) (m : Nat) (e : Int) (st : Bool) (q : Int) : Nat × Bool :=
  if q ≤ e then (m * 2 ^ (e - q).toNat, st) else roundShift rm neg m st (q - e).toNat

/-- The result of an overflow (R149). -/
def FF.overflow (F : FF) (rm : Rm) (sat neg : Bool) : Nat :=
  if sat then F.sgn neg + F.maxCode
  else if F = .e4m3 then F.sgn neg + 0x7F
  else match rm with
    | .rne => F.inf neg
    | .rtz => F.sgn neg + F.maxCode
    | .rup => if neg then F.sgn neg + F.maxCode else F.inf neg
    | .rdn => if neg then F.inf neg else F.sgn neg + F.maxCode

/-- round_fmt (R148, R149) of (-1)^neg m 2^e, or of a value strictly between m and m + 1 when `st`; a magnitude of 0 gives the zero of the sign. Under `ftz` a
tiny result is a zero of its sign (R150). -/
def FF.round (F : FF) (rm : Rm) (sat ftz : Bool) (neg : Bool) (m : Nat) (e : Int) (st : Bool) : Nat × Flags :=
  if m = 0 ∧ !st then (F.sgn neg, 0)
  else
    let E : Int := (blen m : Int) - 1 + e
    let emin : Int := 1 - F.bias
    let (n, lost) := roundTo rm neg m e st (E - F.mw)
    let (n, E) := if n = 2 ^ (F.mw + 1) then (2 ^ F.mw, E + 1) else (n, E)
    let biased := E + F.bias
    let code : Nat := (biased.toNat) * 2 ^ F.mw + (n - 2 ^ F.mw)
    if biased ≥ 1 then
      if biased ≥ 2 ^ F.ew ∨ code > F.maxCode then (F.overflow rm sat neg, fOF ||| fNX)
      else (F.sgn neg + code, if lost then fNX else 0)
    else if ftz then (F.sgn neg, fUF ||| fNX)
    else
      let (n, lost) := roundTo rm neg m e st (emin - F.mw)
      (F.sgn neg + n, if lost then fUF ||| fNX else 0)

/-- The canonical NaN with NV or not (R151). -/
def FF.nanR (F : FF) (nv : Bool) : Nat × Flags := (F.qnan, if nv then fNV else 0)

/-- Whether a value is a signalling NaN. -/
def FV.sig : FV → Bool
  | .nan s => s
  | _ => false
/-- Whether a value is a NaN. -/
def FV.isNan : FV → Bool
  | .nan _ => true
  | _ => false
/-- The value with its sign changed. -/
def FV.neg : FV → FV
  | .nan s => .nan s
  | .inf n => .inf (!n)
  | .fin n m e => .fin (!n) m e
/-- The magnitude. -/
def FV.abs : FV → FV
  | .nan s => .nan s
  | .inf _ => .inf false
  | .fin _ m e => .fin false m e
/-- The sign. -/
def FV.isNeg : FV → Bool
  | .nan _ => false
  | .inf n => n
  | .fin n _ _ => n
/-- Whether a value is a zero. -/
def FV.isZero : FV → Bool
  | .fin _ 0 _ => true
  | _ => false

/-- (-1)^neg m as an integer multiple of 2^q, for q at most the exponent. -/
def scaled (neg : Bool) (m : Nat) (e q : Int) : Int :=
  let n : Int := (m * 2 ^ (e - q).toNat : Nat)
  if neg then -n else n

/-- The exact sum of two values (R148, R151); a NaN result says whether it is invalid. The sign of a zero sum follows R148. -/
def FV.add (rm : Rm) : FV → FV → FV
  | .nan a, .nan b => .nan (a || b)
  | .nan a, _ => .nan a
  | _, .nan b => .nan b
  | .inf a, .inf b => if a = b then .inf a else .nan true
  | .inf a, _ => .inf a
  | _, .inf b => .inf b
  | .fin n1 m1 e1, .fin n2 m2 e2 =>
    let q := min e1 e2
    let t := scaled n1 m1 e1 q + scaled n2 m2 e2 q
    if t = 0 then .fin (if m1 = 0 ∧ m2 = 0 ∧ n1 = n2 then n1 else decide (rm = .rdn)) 0 0
    else .fin (decide (t < 0)) t.natAbs q

/-- The exact product of two values (R151). -/
def FV.mul : FV → FV → FV
  | .nan a, .nan b => .nan (a || b)
  | .nan a, _ => .nan a
  | _, .nan b => .nan b
  | .inf a, y => if y.isZero then .nan true else .inf (a != y.isNeg)
  | x, .inf b => if x.isZero then .nan true else .inf (x.isNeg != b)
  | .fin n1 m1 e1, .fin n2 m2 e2 => .fin (n1 != n2) (m1 * m2) (e1 + e2)

/-- Whether a product of two values is 0 times infinity (R151). -/
def FV.badMul : FV → FV → Bool
  | .inf _, y => y.isZero
  | x, .inf _ => x.isZero
  | _, _ => false

/-- A value rounded into a format (R148 to R151). -/
def FF.put (F : FF) (md : FMode) (sat : Bool) : FV → Nat × Flags
  | .nan s => F.nanR s
  | .inf n => (F.inf n, 0)
  | .fin n m e => F.round md.rm sat md.ftz n m e false

/-! ## Operations on codes -/

/-- Sum of two codes (R336, R151). -/
def fAdd (F : FF) (md : FMode) (a b : Nat) : Nat × Flags := F.put md false (FV.add md.rm (F.operand md.ftz a) (F.operand md.ftz b))
/-- Difference of two codes. -/
def fSub (F : FF) (md : FMode) (a b : Nat) : Nat × Flags := F.put md false (FV.add md.rm (F.operand md.ftz a) (F.operand md.ftz b).neg)
/-- Product of two codes. -/
def fMul (F : FF) (md : FMode) (a b : Nat) : Nat × Flags := F.put md false (FV.mul (F.operand md.ftz a) (F.operand md.ftz b))
/-- Magnitude of a difference, formed exactly and rounded once (R336). -/
def fAbsd (F : FF) (md : FMode) (a b : Nat) : Nat × Flags :=
  F.put md false (FV.add md.rm (F.operand md.ftz a) (F.operand md.ftz b).neg).abs
/-- a b + c with one rounding, the product negated for VFMS (R337). A product 0 times infinity sets NV even beside a quiet NaN (R151). -/
def fFma (F : FF) (md : FMode) (negP : Bool) (a b c : Nat) : Nat × Flags :=
  let x := F.operand md.ftz a
  let y := F.operand md.ftz b
  let p := x.mul y
  let r := FV.add md.rm (if negP then p.neg else p) (F.operand md.ftz c)
  let (v, fl) := F.put md false r
  (v, if x.badMul y then fl ||| fNV else fl)

/-- Order of two values that are not NaN: a < b, with -0 and +0 equal. -/
def FV.lt : FV → FV → Bool
  | .inf a, .inf b => a && !b
  | .inf a, _ => a
  | _, .inf b => !b
  | .fin n1 m1 e1, .fin n2 m2 e2 => decide (scaled n1 m1 e1 (min e1 e2) < scaled n2 m2 e2 (min e1 e2))
  | _, _ => false
/-- Equality of two values that are not NaN, with -0 and +0 equal. -/
def FV.eq (a b : FV) : Bool := !a.isNan && !b.isNan && !a.lt b && !b.lt a

/-- Whether code a stands before code b where -0 stands before +0 (R336). -/
def fBefore (F : FF) (a b : Nat) : Bool :=
  let x := F.decode a
  let y := F.decode b
  x.lt y || (!y.lt x && x.isNeg && !y.isNeg)
/-- Smaller of two codes (R336): NaN operands give the canonical NaN. -/
def fMin (F : FF) (md : FMode) (a b : Nat) : Nat × Flags :=
  let a := F.flush md.ftz a
  let b := F.flush md.ftz b
  if (F.decode a).isNan || (F.decode b).isNan then F.nanR ((F.decode a).sig || (F.decode b).sig)
  else (if fBefore F b a then b else a, 0)
/-- Larger of two codes (R336). -/
def fMax (F : FF) (md : FMode) (a b : Nat) : Nat × Flags :=
  let a := F.flush md.ftz a
  let b := F.flush md.ftz b
  if (F.decode a).isNan || (F.decode b).isNan then F.nanR ((F.decode a).sig || (F.decode b).sig)
  else (if fBefore F a b then b else a, 0)

/-- Ordered comparison of codes: less, equal (R308, R339); false of a NaN. -/
def fLt (F : FF) (a b : Nat) : Bool := !(F.decode a).isNan && !(F.decode b).isNan && (F.decode a).lt (F.decode b)
/-- Equality of codes as values. -/
def fEq (F : FF) (a b : Nat) : Bool := (F.decode a).eq (F.decode b)

/-- Extra bits of a quotient or root, beyond those of any format. -/
def guardBits : Nat := 64

/-- Quotient of two codes, correctly rounded (R347, R151). -/
def fDiv (F : FF) (md : FMode) (a b : Nat) : Nat × Flags :=
  let x := F.operand md.ftz a
  let y := F.operand md.ftz b
  let neg := x.isNeg != y.isNeg
  match x, y with
  | .nan s, y => F.nanR (s || y.sig)
  | _, .nan s => F.nanR s
  | .inf _, .inf _ => F.nanR true
  | .inf _, _ => (F.inf neg, 0)
  | _, .inf _ => (F.sgn neg, 0)
  | .fin _ m1 e1, .fin _ m2 e2 =>
    if m2 = 0 then if m1 = 0 then F.nanR true else (F.inf neg, fDZ)
    else
      let k := guardBits + blen m2
      F.round md.rm false md.ftz neg (m1 * 2 ^ k / m2) (e1 - e2 - k) (decide (m1 * 2 ^ k % m2 ≠ 0))

/-- Whole square root: bits i down to 0 of the root of n, above r. -/
def rootFrom (n : Nat) : Nat → Nat → Nat
  | 0, r => if (r + 1) * (r + 1) ≤ n then r + 1 else r
  | i + 1, r => rootFrom n i (if (r + 2 ^ (i + 1)) * (r + 2 ^ (i + 1)) ≤ n then r + 2 ^ (i + 1) else r)
/-- Whole square root of n. -/
def isqrt (n : Nat) : Nat := rootFrom n (blen n / 2 + 1) 0

/-- Square root of a code, correctly rounded (R347): -0 gives -0, a value below -0 is invalid. -/
def fSqrt (F : FF) (md : FMode) (a : Nat) : Nat × Flags :=
  match F.operand md.ftz a with
  | .nan s => F.nanR s
  | .inf n => if n then F.nanR true else (F.inf false, 0)
  | .fin n m e =>
    if m = 0 then (F.sgn n, 0)
    else if n then F.nanR true
    else
      let (m, e) := if e % 2 = 0 then (m, e) else (2 * m, e - 1)
      let t := m * 2 ^ (2 * guardBits)
      let r := isqrt t
      F.round md.rm false md.ftz false r (e / 2 - guardBits) (decide (r * r ≠ t))

/-! ## Special functions (R348) -/

/-- The result of a bracketed function: exact when nothing is lost, otherwise one of the two codes that bracket it. -/
def bracketed (fn a : Nat) (ftz neg : Bool) (m : Nat) (e : Int) (st : Bool) : Nat × Flags :=
  let lo := FF.f32.round .rtz false ftz neg m e st
  let hi := FF.f32.round (if neg then .rdn else .rup) false ftz neg m e st
  if lo.2 &&& fNX = 0 then lo
  else if hi.2 &&& fOF ≠ 0 then (FF.f32.inf neg, fOF ||| fNX)
  else if (Config.bracketUp fn a != neg) then hi else lo

/-- VRCP (R348). -/
def fRcp (ftz : Bool) (a : Nat) : Nat × Flags :=
  match FF.f32.operand ftz a with
  | .nan s => FF.f32.nanR s
  | .inf n => (FF.f32.sgn n, 0)
  | .fin n m e =>
    if m = 0 then (FF.f32.inf n, fDZ)
    else
      let k := guardBits + blen m
      bracketed 0 a ftz n (2 ^ k / m) (-e - k) (decide (2 ^ k % m ≠ 0))

/-- VRSQ (R348): the root of 1/x, formed as a whole root with guard bits. -/
def fRsq (ftz : Bool) (a : Nat) : Nat × Flags :=
  match FF.f32.operand ftz a with
  | .nan s => FF.f32.nanR s
  | .inf n => if n then FF.f32.nanR true else (0, 0)
  | .fin n m e =>
    if m = 0 then (FF.f32.inf n, fDZ)
    else if n then FF.f32.nanR true
    else
      let (m, e) := if e % 2 = 0 then (m, e) else (2 * m, e - 1)
      let k := 2 * guardBits + 2 * blen m
      let q := 2 ^ k / m
      let r := isqrt q
      bracketed 1 a ftz false r (-(e / 2) - (k / 2 : Nat)) (decide (r * r * m ≠ 2 ^ k))

/-- Fixed point of the reference computations of VEXP2 and VLOG2. -/
def fixBits : Nat := 96

/-- 2^f for a fraction f given by its bits from the top, as a fixed-point number: the running product and the running root of 2. -/
def exp2Frac (f : Nat) : Nat → Nat → Nat → Nat
  | 0, acc, _ => acc
  | i + 1, acc, r =>
    let r := isqrt (r * 2 ^ fixBits)
    exp2Frac f i (if bits f i 1 = 1 then acc * r / 2 ^ fixBits else acc) r

/-- Bits of log2 y after the point, n of them, for y in [1, 2) in fixed point. -/
def log2Frac : Nat → Nat → Nat → Nat
  | 0, acc, _ => acc
  | i + 1, acc, y =>
    let y := y * y / 2 ^ fixBits
    if y ≥ 2 ^ (fixBits + 1) then log2Frac i (2 * acc + 1) (y / 2) else log2Frac i (2 * acc) y

/-- The exponent of a unit in the last place of an FP32 result in the binade of 2^k, on the subnormal grid where it is tiny (R348). -/
def ulpExp (k : Int) : Int := max k (-126) - 23

/-- Whether an FP32 code lies within 2^u of a number (-1)^neg × m × 2^e. -/
def codeWithin (c : Nat) (neg : Bool) (m : Nat) (e u : Int) : Bool :=
  match FF.f32.decode c with
  | .fin cn cm ce =>
    let q := min u (min ce e)
    decide (c < 2 ^ 32) && decide ((scaled cn cm ce q - scaled neg m e q).natAbs ≤ 2 ^ (u - q).toNat)
  | _ => false

/-- VEXP2 (R348). The device's code is free within two units in the last place of the exact result (log entry 8). -/
def fExp2 (ftz : Bool) (a : Nat) : Nat × Flags :=
  match FF.f32.operand ftz a with
  | .nan s => FF.f32.nanR s
  | .inf n => (if n then 0 else FF.f32.inf false, 0)
  | .fin n m e =>
    let whole := decide (0 ≤ e) || decide (m % 2 ^ (-e).toNat = 0)
    -- beyond 2^12 the exponent alone decides
    let big : Bool := decide ((blen m : Int) + e > 12)
    if m = 0 then (0x3F800000, 0)
    else if big then if n then (0, fUF ||| fNX) else (FF.f32.inf false, fOF ||| fNX)
    else
      let t : Int := if 0 ≤ e then scaled n m e 0 * 2 ^ 64 else ((if n then -1 else 1) * ((m * 2 ^ 64 : Nat) : Int)) / ((2 ^ (-e).toNat : Nat) : Int)
      let i := t / 2 ^ 64
      let f := (t % 2 ^ 64).toNat
      if whole then FF.f32.round .rne false ftz false 1 i false
      else
        let y := exp2Frac f 64 (2 ^ fixBits) (2 ^ (fixBits + 1))
        let ref := FF.f32.round .rne false ftz false y (i - fixBits) true
        if ref.2 &&& fOF ≠ 0 then ref
        else
          let c := Config.specialCode 2 a
          (if codeWithin c false y (i - fixBits) (ulpExp i + 1) ∧ c ≤ 0x7F7FFFFF ∧ (!ftz ∨ (ref.1 ≠ 0 ∧ 0x800000 ≤ c)) then c else ref.1, ref.2 ||| fNX)

/-- VLOG2 (R348). The device's code is free within the bound (log entry 8); a tiny one raises UF, and is a zero of its sign under FTZ (R149, R150). -/
def fLog2 (ftz : Bool) (a : Nat) : Nat × Flags :=
  match FF.f32.operand ftz a with
  | .nan s => FF.f32.nanR s
  | .inf n => if n then FF.f32.nanR true else (FF.f32.inf false, 0)
  | .fin n m e =>
    if m = 0 then (FF.f32.inf true, fDZ)
    else if n then FF.f32.nanR true
    else
      let L := blen m - 1
      let E : Int := e + L
      if m = 2 ^ L then FF.f32.round .rne false ftz (decide (E < 0)) E.natAbs 0 false
      else
        let fr := log2Frac 80 0 (m * 2 ^ fixBits / 2 ^ L)
        let t : Int := E * 2 ^ 80 + fr
        let neg := decide (t < 0)
        let ref := FF.f32.round .rne false ftz neg t.natAbs (-80) true
        let c := Config.specialCode 3 a
        let ok := codeWithin c neg t.natAbs (-80) (if E = 0 ∨ E = -1 then -22 else ulpExp ((blen t.natAbs : Int) - 81) + 1)
        let tiny := ok && decide (0 < c % 2 ^ 31) && decide (c % 2 ^ 31 < 0x800000)
        (if tiny && ftz then c / 2 ^ 31 * 2 ^ 31 else if ok then c else ref.1, ref.2 ||| fNX ||| if tiny then fUF else 0)

/-! ## Conversions (R152 to R155) -/

/-- A NaN code of one format carried to another (R152, R153): sign kept, mantissa bits from the top. -/
def nanCvt (S D : FF) (code : Nat) : Nat :=
  let neg := bits code (S.ew + S.mw) 1 == 1
  if D = .e4m3 then D.sgn neg + 0x7F
  else
    let m := bits code 0 S.mw
    let t := if S.mw ≤ D.mw then m * 2 ^ (D.mw - S.mw) else m / 2 ^ (S.mw - D.mw)
    D.sgn neg + (2 ^ D.ew - 1) * 2 ^ D.mw + (if t = 0 then 1 else t)

/-- Conversion to FP32, exact (R152). -/
def toF32 (S : FF) (code : Nat) : Nat :=
  match S.decode code with
  | .nan _ => nanCvt S .f32 code
  | .inf n => FF.f32.inf n
  | .fin n m e => (FF.f32.round .rne false false n m e false).1

/-- Conversion from FP32 to a format (R153). -/
def fromF32 (D : FF) (rm : Rm) (sat : Bool) (code : Nat) : Nat × Flags :=
  if D = .f32 then (code, 0)
  else match FF.f32.decode code with
    | .nan _ => (nanCvt .f32 D code, 0)
    | .inf n => if D = .e4m3 then (D.sgn n + (if sat then D.maxCode else 0x7F), fOF ||| fNX) else (D.inf n, 0)
    | .fin n m e => D.round rm sat false n m e false

/-- A value rounded to an integer of w bits (R155): the low bits of the result and the flags. -/
def toInt (signed : Bool) (w : Nat) (rm : Rm) : FV → Nat × Flags
  | .nan _ => (0, fNV)
  | .inf n => (if n then (if signed then 2 ^ (w - 1) else 0) else (if signed then 2 ^ (w - 1) - 1 else 2 ^ w - 1), fNV)
  | .fin n m e =>
    let (q, lost) := roundTo rm n m e false 0
    let t : Int := if n then -(q : Int) else q
    let lo : Int := if signed then -(2 ^ (w - 1) : Nat) else 0
    let hi : Int := if signed then (2 ^ (w - 1) - 1 : Nat) else (2 ^ w - 1 : Nat)
    if t < lo then ((lo % (2 ^ w : Nat)).toNat, fNV) else if hi < t then (hi.toNat, fNV)
    else ((t % (2 ^ w : Nat)).toNat, if lost then fNX else 0)

/-- An integer rounded into a format (R155). -/
def fromInt (D : FF) (rm : Rm) (sat : Bool) (t : Int) : Nat × Flags := D.round rm sat false (decide (t < 0)) t.natAbs 0 false

/-! ## Exact accumulation (R165, R166) -/

/-- An empty bin entry or accumulator. -/
def BinEnt.zero : BinEnt := ⟨0, 0, false, false, false, false, false, false, 0, 0, 0⟩

/-- exact(x) of R165: a finite FP32 value as a multiple of 2^-149. -/
def exactF32 (code : Nat) : Int :=
  match FF.f32.decode code with
  | .fin n m e => scaled n m e (-149)
  | _ => 0

/-- acc_add (R165). -/
def accAdd (a : BinEnt) (code : Nat) : BinEnt :=
  match FF.f32.decode code with
  | .nan _ => { a with nan := true }
  | .inf n => if n then { a with ninf := true } else { a with pinf := true }
  | .fin _ _ _ =>
    if a.ovf then a
    else
      let t := a.acc + exactF32 code
      if t ≥ 2 ^ 319 ∨ t < -(2 ^ 319) then { a with acc := t, ovf := true, osgn := decide (t < 0) } else { a with acc := t }

/-- Two accumulators of one word merged: the values of both (R230). -/
def accMerge (a b : BinEnt) : BinEnt :=
  let t := a.acc + b.acc
  let a := { a with nan := a.nan || b.nan, pinf := a.pinf || b.pinf, ninf := a.ninf || b.ninf }
  if a.ovf then a
  else if b.ovf then { a with ovf := true, osgn := b.osgn }
  else if t ≥ 2 ^ 319 ∨ t < -(2 ^ 319) then { a with acc := t, ovf := true, osgn := decide (t < 0) } else { a with acc := t }

/-- exact_apply (R166). -/
def exactApply (mem : Nat) (a : BinEnt) : Nat :=
  let v := FF.f32.decode mem
  let pinf := a.pinf || decide (v = .inf false) || (a.ovf && !a.osgn)
  let ninf := a.ninf || decide (v = .inf true) || (a.ovf && a.osgn)
  if a.nan || v.isNan || (pinf && ninf) then 0x7FC00000
  else if pinf then 0x7F800000
  else if ninf then 0xFF800000
  else
    let s := exactF32 mem + a.acc
    if s = 0 then 0 else (FF.f32.round .rne false false (decide (s < 0)) s.natAbs (-149) false).1

/-! ## BC8 blocks (R156 to R161) -/

/-- The value of a decoded element, or NaN for a whole block that is NaN or malformed. -/
inductive BcRes where
  /-- A well-formed block: sign, magnitude and exponent of each element, and its scale (R159). -/
  | ok (vals : List FV)
  /-- X = 255: every element NaN, no flag. -/
  | allNan
  /-- Malformed: every element NaN, NV. -/
  | bad
  deriving DecidableEq, Repr

/-- One token at bit position k (R157, R158): sign, gap (none for a zero element), mantissa, and its length; none if it does not end before bit n. -/
def bcToken (x k n : Nat) : Option (Bool × Option Nat × Nat × Nat) :=
  let b := fun i => bits x (k + i) 1
  let s := b 0 == 1
  let fit := fun (len : Nat) (t : Option Nat) (m : Nat) => if k + len ≤ n then some (s, t, m, len) else none
  if b 1 = 0 then fit 5 (some 0) (bits x (k + 2) 3)
  else if b 2 = 0 then fit 6 (some 1) (bits x (k + 3) 3)
  else if b 3 = 0 then fit 7 (some 2) (bits x (k + 4) 3)
  else if b 4 = 0 then fit 10 (some (3 + bits x (k + 5) 2)) (bits x (k + 7) 3)
  else if b 5 = 0 then fit 13 (some (7 + bits x (k + 6) 4)) (bits x (k + 10) 3)
  else fit 6 none 0

/-- The tokens from bit k on, c of them: the values, or none when the block is malformed (R159). -/
def bcTokens (x n emax : Nat) (sc : Int) : Nat → Nat → Option (List FV)
  | 0, _ => some []
  | c + 1, k =>
    match bcToken x k n with
    | none => none
    | some (s, none, _, len) => (bcTokens x n emax sc c (k + len)).map (FV.fin s 0 0 :: ·)
    | some (s, some g, m, len) =>
      if emax < g then none
      else
        let e := emax - g
        if e = 15 ∧ m = 7 then none
        else
          let v := if e = 0 then FV.fin s m (-9 + sc) else FV.fin s (8 + m) ((e : Int) - 10 + sc)
          (bcTokens x n emax sc c (k + len)).map (v :: ·)

/-- Decode a block of L words (R159). -/
def bcDecode (x L : Nat) : BcRes :=
  if bits x 0 4 ≠ 0 ∨ L < 6 ∨ 14 < L then .bad
  else if bits x 8 8 = 255 then .allNan
  else match bcTokens x (32 * L) (bits x 4 4) ((bits x 8 8 : Int) - 127) 32 16 with
    | some vs => .ok vs
    | none => .bad

/-- Bits of one token from the E4M3 code of an element (R157, R158): the number and its length. -/
def bcPut (emax q : Nat) : Nat × Nat :=
  let s := bits q 7 1
  let e := bits q 3 4
  let m := bits q 0 3
  if e = 0 ∧ m = 0 then (s + 0b111110, 6)
  else
    let g := emax - e
    if g = 0 then (s + m * 4, 5)
    else if g = 1 then (s + 0b10 + m * 8, 6)
    else if g = 2 then (s + 0b110 + m * 16, 7)
    else if g ≤ 6 then (s + 0b1110 + (g - 3) * 32 + m * 128, 10)
    else (s + 0b11110 + (g - 7) * 64 + m * 1024, 13)

/-- Tokens of a list of codes, from bit k on: the number and the end position. -/
def bcPack (emax : Nat) : List Nat → Nat → Nat × Nat
  | [], k => (0, k)
  | q :: t, k =>
    let (x, len) := bcPut emax q
    let (y, e) := bcPack emax t (k + len)
    (x * 2 ^ k + y, e)

/-- A block from its scale and element codes: its number and length in words (R156). -/
def bcBlock (X : Nat) (qs : List Nat) : Nat × Nat :=
  let emax := qs.foldl (fun a q => if bits q 0 7 = 0 then a else max a (bits q 3 4)) 0
  let (t, e) := bcPack emax qs 16
  (X * 256 + emax * 16 + t, (e + 31) / 32)

/-- The passes of R161 from scale X, `left` more allowed: scale, codes and flags. -/
def bcPasses (vals : List FV) : Nat → Nat → Nat × List Nat × Flags
  | left, X =>
    let rs := vals.map fun v => match v with
      | .fin n m e => FF.e4m3.round .rne false false n m (e - ((X : Int) - 127)) false
      | .inf n => (FF.e4m3.sgn n + 0x7F, fOF ||| fNX)
      | .nan _ => (0x7F, 0)
    let ovf := rs.any fun r => r.2 &&& fOF ≠ 0
    let fl := rs.foldl (fun a r => a ||| r.2) 0
    if !ovf then (X, rs.map (·.1), fl)
    else match left with
      | 0 => (X, (rs.map fun r => if r.2 &&& fOF ≠ 0 then bits r.1 7 1 * 128 + 0x7E else r.1), (fl &&& ~~~fOF) ||| fQSAT)
      | left' + 1 =>
        if X = 254 then (X, (rs.map fun r => if r.2 &&& fOF ≠ 0 then bits r.1 7 1 * 128 + 0x7E else r.1), (fl &&& ~~~fOF) ||| fQSAT)
        else bcPasses vals left' (X + 1)

/-- floor(log2) of the largest finite magnitude, none when there is none above 0. -/
def topExp (vals : List FV) : Option Int :=
  vals.foldl (fun a v => match v with
    | .fin _ m e => if m = 0 then a else
        let t := (blen m : Int) - 1 + e
        match a with
        | none => some t
        | some u => some (max u t)
    | _ => a) none

/-- The scale that bc8_encode_block starts with (R161). Where every input is infinite there is no finite value, of which the rule takes the largest; the scale is then that of
amax = 0, 127 (DESIGN CHOICE, log entry 51). -/
def bcStart (vals : List FV) : Nat := match topExp vals with
  | none => 127
  | some t => (max 0 (min 254 (t - 8 + 127))).toNat

/-- The passes of bc8_encode_block over 32 FP32 codes (R351). -/
def bcPassCount (codes : List Nat) : Nat :=
  let vals := codes.map FF.f32.decode
  if vals.any FV.isNan then 1 else (bcPasses vals 3 (bcStart vals)).1 - bcStart vals + 1

/-- bc8_encode_block (R161) of 32 FP32 codes: the block, its length in words, and the flags. -/
def bcEncode (codes : List Nat) : Nat × Nat × Flags :=
  let vals := codes.map FF.f32.decode
  if vals.any FV.isNan then
    let (b, l) := bcBlock 255 (List.replicate 32 0)
    (b, l, fNV)
  else
    let (X, qs, fl) := bcPasses vals 3 (bcStart vals)
    let (b, l) := bcBlock X qs
    (b, l, fl)

end Sys2Proof.Machine
end

