-- ==== Sys2Proof/Machine/Holders.lean ====
section
/-!
DEFINITION. Physical words and their homes (R168, R169), the directory (R177), the Shroud (R185), the lines of an L2 slice and of an L1 (R17, R176), the copies that cores
hold and the transitions they make (R176 to R181), bin pages and their apply (R228 to R235), and reads and writes at a home.
-/

namespace Sys2Proof.Machine

/-! ## Physical memory -/

/-- REGBASE (R418). -/
def regBase : Nat := 0xF000000000000
/-- Whether a physical address is in device register space (R418). -/
def isReg (pa : Nat) : Bool := decide (regBase ≤ pa) && decide (pa < regBase + 0x400000)
/-- Host memory (R422) begins here, fabric peers (R424) after it. -/
def hostBase : Nat := 0x8000000000000
/-- First physical address of the peers' memory (R424). -/
def peerBase : Nat := 0x9000000000000

/-- Home die of a physical address (R168). -/
def homeDie (pa : Nat) : Nat :=
  if pa < 0x40000000000 then pa / 0x1000000000 else (pa - 0x100000000000) / 0x10000000000 / 2

/-- home_slice (R169). -/
def homeSlice (a : Nat) : Nat :=
  bits a 6 6 ^^^ bits a 12 6 ^^^ bits a 18 6 ^^^ bits a 24 6 ^^^ bits a 30 6 ^^^ bits a 36 6 ^^^ bits a 42 6 ^^^ bits a 48 4

/-- Fitted size in bytes of capacity port p (R168, R420, R423). -/
def State.fitted (s : State) (p : Nat) : Nat := fld ((s.iod (p / 4)).cxlsz[Fin.ofNat 4 (p % 4)]) 0 16 * 2 ^ 30

/-- The populated ranges (R168, R418, R422, R424). -/
def State.populated (s : State) (pa : Nat) : Bool :=
  if pa < 0x4000000000 then decide (pa % 0x1000000000 < 0x900000000)
  else if pa < 0x100000000000 then false
  else if pa < 0x180000000000 then
    let p := (pa - 0x100000000000) / 0x10000000000
    decide ((pa - 0x100000000000) % 0x10000000000 < s.fitted p)
  else if pa < hostBase then false
  else if pa < peerBase then true
  else if pa < peerBase + 2 ^ 48 then true
  else isReg pa

/-- Device d of the fabric, of those whose memory the peers' range shows (R424). -/
def peerOf (pa : Nat) : Nat := (pa - peerBase) / 2 ^ 38

/-- Whether a fabric port carries peer accesses: it has trained in a UALink mode and is not down (R424, R489). -/
def State.portUp (s : State) (e j : Nat) : Bool :=
  let m := (sget (s.iod e).trained j).getD 0
  (m == 1 || m == 2) && !s.downLinks.contains (.fabric, e, j)

/-- Whether accesses to a physical address return poison whatever memory holds: a capacity port that is down (R489), a fabric port that does not lead to its peer (R424, R489), or host
memory that the host answers with Unsupported Request or Completer Abort (R500). -/
def State.unreachable (s : State) (pa : Nat) : Bool :=
  if 0x100000000000 ≤ pa ∧ pa < 0x180000000000 then
    let p := (pa - 0x100000000000) / 0x10000000000
    (s.iod (p / 4)).cxldown.contains (p % 4)
  else if hostBase ≤ pa ∧ pa < peerBase then s.hostErrs.any fun r => decide (hostBase + r.1 ≤ pa) && decide (pa < hostBase + r.1 + r.2)
  else if peerBase ≤ pa ∧ pa < regBase then !s.portUp (Config.peerPort (peerOf pa)).1 (Config.peerPort (peerOf pa)).2
  else false

/-- The compute die through which traffic between a compute die and an I/O die passes (R13); none where their link is direct. -/
def viaDie (d e : Nat) : Option Nat := if d / 2 = e then none else some ((d + 2) % 4)

/-- Whether the link of two dies is down; I/O die e is die 4 + e there (R12). -/
def State.dieLinkDown (s : State) (i j : Nat) : Bool := s.downLinks.any fun l => l.1 == .dieLink && (l.2 == (i, j) || l.2 == (j, i))

/-- Whether two compute dies cannot reach each other over their direct link (R13, R478). -/
def State.pairCut (s : State) (d h : Nat) : Bool := d != h && ((s.die d).fenced || (s.die h).fenced || s.dieLinkDown d h)

/-- Whether traffic between an I/O die and a compute die cannot pass (R13, R478). -/
def State.routeCut (s : State) (e d : Nat) : Bool :=
  (s.die d).fenced || match viaDie d e with
    | some v => (s.die v).fenced || s.dieLinkDown v d || s.dieLinkDown v (4 + e)
    | none => s.dieLinkDown d (4 + e)

/-- Whether core k and a compute die cannot reach each other (R13, R478): a Mizzen core stands on its I/O die. -/
def State.apart (s : State) (k h : Nat) : Bool := if isMiz k then s.routeCut (dieOf k / 2) h else s.pairCut (dieOf k) h

/-- Whether a request of core k to a physical address is answered poisoned because a die or a link on its route of R13 is down: the way to its home and, behind the home, to the
capacity port (R478); to the host link of its side, or that link (R422, R489); or to the I/O die of the peer's port. -/
def State.cutOff (s : State) (k pa : Nat) : Bool :=
  let e := dieOf k / 2
  if pa < 0x180000000000 then
    s.apart k (homeDie pa) || (decide (0x100000000000 ≤ pa) && s.dieLinkDown (homeDie pa) (4 + homeDie pa / 2))
  else if hostBase ≤ pa ∧ pa < peerBase then s.downLinks.any (fun l => l.1 == .host && l.2.1 == e) || !isMiz k && s.routeCut e (dieOf k)
  else if peerBase ≤ pa ∧ pa < regBase then !isMiz k && s.routeCut (Config.peerPort (peerOf pa)).1 (dieOf k)
  else false

/-- Whether memory holds poison in a word, or cannot be reached (R478, R479). -/
def State.rawPoison (s : State) (w : Nat) : Bool := s.poison.contains w || s.unreachable (4 * w)
/-- Whether a read of a word of physical memory answers poison: it holds poison, or its page could not be applied and stays Pending (R479). -/
def State.poisoned (s : State) (w : Nat) : Bool := s.rawPoison w || (sget s.bins (4 * w / 4096 * 4096)).isSome
/-- Whether a read of a word by core k answers poison. -/
def State.poisonedFor (s : State) (k w : Nat) : Bool := s.poisoned w || s.cutOff k (4 * w)

/-- The 4 bytes of a physical word. -/
def State.word (s : State) (w : Nat) : Nat := s.mem.readN (4 * w) 4
/-- Write a whole physical word: its poison is cleared (R479). -/
def State.setWord (s : State) (w x : Nat) : State := { s with mem := s.mem.writeN (4 * w) 4 x, poison := s.poison.erase w }

/-- The words of a span become poisoned (R478, R479). -/
def State.markPoison (s : State) (w : Nat) : Nat → State
  | 0 => s
  | n + 1 => State.markPoison { s with poison := if s.poison.contains w then s.poison else s.poison ++ [w] } (w + 1) n

/-! ## Copies (R176) -/

/-- Whether a copy reads as V or D (R176). -/
def Copy.valid (epoch : Nat) (c : Copy) : Bool :=
  match c.st with
  | .v stamp => c.attr != .si || stamp == epoch
  | .d => true
  | .u _ _ _ => false

/-- Every copy the core holds: its L1 and its windows. -/
def Core.copies (c : Core) : List Copy := (c.l1.map (·.2)) ++ c.wins.toList.flatMap fun w =>
  match w with
  | some w => w.words.map (·.2)
  | none => []

/-- Change every copy of the core; a copy changed to none goes to I. -/
def Core.mapCopies (f : Copy → Option Copy) (c : Core) : Core :=
  let g : List (Nat × Copy) → List (Nat × Copy) := fun l => l.filterMap fun e => (f e.2).map fun y => (e.1, y)
  { c with l1 := g c.l1, wins := vmap (fun w => w.map fun w => { w with words := g w.words }) c.wins }

/-- The D value of a word under DIR, if the core holds it. -/
def Core.dirty (c : Core) (w : Nat) : Option Nat := (c.copies.find? fun y => y.w == w && y.st == .d && y.attr == .dir).map (·.x)

/-- The epoch stamp of the core (R95). -/
def Core.ep (c : Core) : Nat := fld c.epoch 0 16

/-- Region, grant and contexts of a U partial; an I64 partial is held in its first word. -/
def Copy.uPart? (c : Copy) : Option (Nat × Bool × List Nat) :=
  match c.st with
  | .u r g xs => some (r, g, xs)
  | _ => none

/-- A V or D copy. -/
def Copy.held (y : Copy) : Bool := y.uPart?.isNone

/-- A V or D copy of a word under DIR. -/
def Copy.heldDir (w : Nat) (y : Copy) : Bool := y.w == w && y.attr == .dir && y.held

/-! ## The directory and the Shroud (R177, R185) -/

/-- A word becomes Shared when a fill returns it, unless it stays owned. -/
def State.dirShared (s : State) (w : Nat) : State :=
  match sget s.dir w with
  | some _ => s
  | none => { s with dir := sset s.dir w .shared }

/-- A word becomes Owned by core k. -/
def State.dirOwn (s : State) (w k : Nat) : State := { s with dir := sset s.dir w (.owned k) }

/-- A word becomes Unheld. -/
def State.dirFree (s : State) (w : Nat) : State := { s with dir := sdel s.dir w }

/-- A D copy of core k under DIR is written back and stays as V: the word is Shared. -/
def State.dirClean (s : State) (w k : Nat) : State := if sget s.dir w = some (.owned k) then { s with dir := sset s.dir w .shared } else s

/-- A D copy of core k is written back, or discarded, and goes to I: the word is Unheld. -/
def State.dirLose (s : State) (w k : Nat) : State := if sget s.dir w = some (.owned k) then s.dirFree w else s

/-- Sets and ways of the Shroud (R185); the set of a line is its number modulo the sets, and the entry replaced is the oldest of its set (log entry 7). -/
def shroudSets : Nat := 65536
/-- Ways. -/
def shroudWays : Nat := 16

/-- Whether the Shroud of a die records a word as present. -/
def State.shroudHas (s : State) (d w : Nat) : Bool := match (s.die d).shroud.find? fun e => e.1 == w / 16 with
  | some e => e.2.getLsbD (w % 16)
  | none => false

/-- Whether the snoop or invalidation of a word reaches a core (R184, R185): it is on the home die, or its Shroud records the word. -/
def State.mayHold (s : State) (k w : Nat) : Bool := dieOf k == homeDie (4 * w) || s.shroudHas (dieOf k) w

/-- Bit of the mask of a Shroud entry cleared, and the entry freed when its mask is 0. -/
def clearMask (line i : Nat) (l : List (Nat × BitVec 16)) : List (Nat × BitVec 16) :=
  l.filterMap fun e => if e.1 = line then
      let m := e.2 &&& ~~~(BitVec.ofNat 16 (2 ^ i))
      if m = 0 then none else some (line, m)
    else some e

/-- A word has left core k: the Shroud of its die forgets it when no other core of the die holds it (R185). -/
def State.shroudLose (s : State) (k w : Nat) : State :=
  let d := dieOf k
  if s.shroudHas d w ∧ !(s.cores.any fun e => dieOf e.1 == d && e.2.copies.any fun y => y.w == w && y.held) then
    s.modDie d fun y => { y with shroud := clearMask (w / 16) (w % 16) y.shroud }
  else s

/-! ## Transitions of copies (R179) -/

/-- A D value of core k reaches the home of its word; where it cannot, the word is poisoned at its home (R478). -/
def State.putBack (s : State) (k : Nat) (y : Copy) : State :=
  (if s.apart k (homeDie (4 * y.w)) then s.markPoison y.w 1 else s.setWord y.w y.x).dirClean y.w k

/-- Write back the D words of a core that satisfy a test, and no others; they become V (R179). -/
def State.backOnly (s : State) (k : Nat) (p : Copy → Bool) : State :=
  let c := s.core k
  let ds := c.copies.filter fun y => y.st == .d && p y
  if ds.isEmpty then s
  else
    let s := ds.foldl (fun s y => s.putBack k y) s
    s.modCore k (Core.mapCopies fun y => some (if y.st = .d ∧ p y then { y with st := .v c.ep } else y))

/-- A list of cores, with those whose windows its cores have stored to or loaded from since their last write-back (`away`), and so on, n steps far. -/
def State.awayFrom (s : State) : Nat → List Nat → List Nat
  | 0, l => l
  | n + 1, l =>
    let new := (l.flatMap fun k => (s.core k).away.map (·.1)).eraseDups.filter fun j => !l.contains j
    if new.isEmpty then l else State.awayFrom s n (l ++ new)

/-- Write-back of every D word of SI pages of cores (R179, R197), and of the cores whose windows they have stored to or loaded from (R203, R206). All of them take their places in one
move, so that no store to an SI word passes an older one (R197). -/
def State.siFlushOf (s : State) (ks : List Nat) : State :=
  (s.awayFrom s.cores.length ks).foldl (fun s j =>
    let s := s.backOnly j (·.attr == .si)
    if (s.core j).away.isEmpty then s else s.modCore j fun c => { c with away := [] }) s

/-- Write-back of every D word of SI pages of a core (R179, R197), and of those in windows of other cores that it has stored to or loaded (R203, R206). -/
def State.siFlush (s : State) (k : Nat) : State := s.siFlushOf [k]

/-- Write back the D words of a core that satisfy a test; they become V (R179). Where one of them lies on an SI page, every D word of the core's SI pages is written back with it, so that
its stores keep their program order (R197). -/
def State.writeBack (s : State) (k : Nat) (p : Copy → Bool) : State :=
  (if (s.core k).copies.any fun y => y.st == .d && p y && y.attr == .si then s.siFlush k else s).backOnly k p

/-- The V and D copies of a core that satisfy a test go to I; a D value is discarded. -/
def State.loseCopies (s : State) (k : Nat) (p : Copy → Bool) : State :=
  let gone := (s.core k).copies.filter fun y => y.held && p y
  if gone.isEmpty then s
  else gone.foldl (fun s y => (s.dirLose y.w k).shroudLose k y.w) (s.modCore k (Core.mapCopies fun y => if y.held && p y then none else some y))

/-- The V and D copies of a core that satisfy a test go to I, D words written back first. -/
def State.dropCopies (s : State) (k : Nat) (p : Copy → Bool) : State := (s.writeBack k p).loseCopies k p

/-- A snoop for a word cannot reach the die of core k (R478): the word is poisoned, and core k no longer owns it. Where the die is not fenced yet, the failure of the link with this
snoop is posted: it raises 0x84 and 0x81 and fences the die (LINK_FAILURE). -/
def State.snoopLost (s : State) (k w : Nat) : State :=
  let s := (s.markPoison w 1).dirLose w k
  if isMiz k || (s.die (dieOf k)).fenced || (s.die (homeDie (4 * w))).fenced then s else s.post ⟨.linkFailure, [3, homeDie (4 * w), dieOf k, 4 * w, 4]⟩

/-- Recall of a word from its owner, unless that is one core: its D copy is written back and becomes V (R179). -/
def State.recall (s : State) (but : Option Nat) (w : Nat) : State :=
  match sget s.dir w with
  | some (.owned k) =>
    if some k = but then s
    else if s.apart k (homeDie (4 * w)) then s.snoopLost k w
    else s.writeBack k fun y => y.w == w && y.attr == .dir
  | _ => s

/-- The invalidation snoop of a word is broadcast to the other dies (R184): one that a failed link keeps from it is fenced as R478 says. -/
def State.broadcast (s : State) (w : Nat) : State :=
  let h := homeDie (4 * w)
  if s.downLinks.isEmpty ∨ 4 ≤ h then s
  else (List.range 4).foldl (fun s d =>
    if d = h ∨ !s.dieLinkDown h d ∨ (s.die h).fenced ∨ (s.die d).fenced then s else (s.markPoison w 1).post ⟨.linkFailure, [3, h, d, 4 * w, 4]⟩) s

/-- Invalidation of a word in every core but one that may hold it: DIR copies go to I, a D copy written back first unless it is discarded (R179, R184). U partials stay until
their page is applied (R227, R234). -/
def State.invalidate (s : State) (but : Option Nat) (discard : Bool) (w : Nat) : State :=
  s.cores.foldl (fun s e =>
    if some e.1 = but ∨ !s.mayHold e.1 w ∨ !(e.2.copies.any (Copy.heldDir w)) then s
    else if s.apart e.1 (homeDie (4 * w)) then s.snoopLost e.1 w
    else if discard then s.loseCopies e.1 (Copy.heldDir w)
    else s.dropCopies e.1 (Copy.heldDir w)) (s.broadcast w)

/-- A die is fenced (R478): no copy of its cores is trusted any more. Their copies of words of other homes go to I, and a word that one of them held in D is poisoned at its home. -/
def State.distrust (s : State) (d : Nat) : State :=
  s.cores.foldl (fun s e =>
    if isMiz e.1 || dieOf e.1 != d then s
    else
      let far : Copy → Bool := fun y => homeDie (4 * y.w) != d
      let s := (e.2.copies.filter fun y => y.st == .d && far y).foldl (fun s y => s.markPoison y.w 1) s
      s.loseCopies e.1 far) s

/-- An entry of the Shroud is replaced (R185): the words of its line leave every holder of the die, D words written back. -/
def State.shroudEvict (s : State) (d line : Nat) : State :=
  let s := s.cores.foldl (fun s e => if dieOf e.1 = d then s.dropCopies e.1 fun y => y.w / 16 == line else s) s
  s.modDie d fun y => { y with shroud := y.shroud.filter fun e => e.1 != line }

/-- A word homed on another die is about to enter core k (R185). -/
def State.shroudAdd (s : State) (k w : Nat) : State :=
  let d := dieOf k
  let line := w / 16
  if d = homeDie (4 * w) ∨ s.shroudHas d w then s
  else
    let set := (s.die d).shroud.filter fun e => e.1 % shroudSets == line % shroudSets
    let s := if set.any fun e => e.1 == line then s
      else if set.length < shroudWays then s
      else match set.getLast? with
        | some e => s.shroudEvict d e.1
        | none => s
    s.modDie d fun y =>
      let m := match y.shroud.find? fun e => e.1 == line with
        | some e => e.2
        | none => 0
      { y with shroud := (line, m ||| BitVec.ofNat 16 (2 ^ (w % 16))) :: y.shroud.filter fun e => e.1 != line }

/-- Write-back of the D words of SI windows that this core, or its engines, have changed or loaded through another holder than its own accesses (R203, R206, R212, R217), with the
older SI words of the cores whose windows they are (R197). -/
def State.flushAway (s : State) (k : Nat) : State :=
  if (s.core k).away.isEmpty then s
  else
    let js := ((s.core k).away.map (·.1)).eraseDups
    (s.modCore k fun c => { c with away := [] }).siFlushOf js

/-- The epoch step of an acquire (R179, R180). -/
def State.epochStep (s : State) (k : Nat) : State :=
  let e := ((s.core k).ep + 1) % 65536
  let s := s.modCore k fun c => { c with epoch := w64 e }
  if e / 32768 ≠ (e + 65535) % 65536 / 32768 then
    s.loseCopies k fun y => match y.st with
      | .v stamp => y.attr == .si && stamp / 32768 == e / 32768
      | _ => false
  else s

/-! ## Bin pages (R228 to R234) -/

/-- The base of the bin page of an address (R221). -/
def pageOf (pa : Nat) : Nat := pa / 4096 * 4096

/-- Signed reading of a number of w bits. -/
def asInt (w x : Nat) : Int := sextN x w

/-- Smaller or larger of two numbers of w bits, signed (R222). -/
def sMin (w a b : Nat) : Nat := if asInt w b < asInt w a then b else a
/-- Larger of two numbers of w bits, signed. -/
def sMax (w a b : Nat) : Nat := if asInt w a < asInt w b then b else a

/-- Whether stamp (a1, a2, a3) is larger than (b1, b2, b3) (R223). -/
def stampGt (a1 a2 a3 b1 b2 b3 : Nat) : Bool :=
  decide (b1 < a1) || (decide (a1 = b1) && (decide (b2 < a2) || (decide (a2 = b2) && decide (b3 < a3))))

/-- A new bin entry from the first value (R229). -/
def entNew (op : UOp) (ty : UType) (v time core lane : Nat) : BinEnt :=
  match op with
  | .add => if ty = .f32 then accAdd BinEnt.zero v else { BinEnt.zero with val := v }
  | .min | .max =>
    if ty = .f32 then
      if (FF.f32.decode v).isNan then { BinEnt.zero with nan := true } else { BinEnt.zero with val := v, hasNum := true }
    else { BinEnt.zero with val := v }
  | .or | .and | .xor => { BinEnt.zero with val := v }
  | .cnt => { BinEnt.zero with val := 1 }
  | .lasts => { BinEnt.zero with val := v, time := time, core := core, lane := lane }

/-- combine (R229). -/
def entAdd (op : UOp) (ty : UType) (e : BinEnt) (v time core lane : Nat) : BinEnt :=
  let w := 8 * ty.bytes
  match op with
  | .add => if ty = .f32 then accAdd e v else { e with val := (e.val + v) % 2 ^ w }
  | .min => if ty = .f32 then
      if (FF.f32.decode v).isNan then { e with nan := true }
      else if !e.hasNum then { e with val := v, hasNum := true }
      else { e with val := if fBefore .f32 v e.val then v else e.val }
    else { e with val := sMin w e.val v }
  | .max => if ty = .f32 then
      if (FF.f32.decode v).isNan then { e with nan := true }
      else if !e.hasNum then { e with val := v, hasNum := true }
      else { e with val := if fBefore .f32 e.val v then v else e.val }
    else { e with val := sMax w e.val v }
  | .or => { e with val := e.val ||| v }
  | .and => { e with val := e.val &&& v }
  | .xor => { e with val := e.val ^^^ v }
  | .cnt => { e with val := (e.val + 1) % 2 ^ w }
  | .lasts => if stampGt time core lane e.time e.core e.lane then { e with val := v, time := time, core := core, lane := lane } else e

/-- Two entries of one word merged (R230, R234). -/
def entMerge (op : UOp) (ty : UType) (a b : BinEnt) : BinEnt :=
  match op with
  | .add => if ty = .f32 then accMerge a b else entAdd op ty a b.val 0 0 0
  | .cnt => { a with val := (a.val + b.val) % 2 ^ (8 * ty.bytes) }
  | .min | .max => if ty = .f32 then
      let a := { a with nan := a.nan || b.nan }
      if b.hasNum then { entAdd op ty a b.val 0 0 0 with nan := a.nan } else a
    else entAdd op ty a b.val 0 0 0
  | .lasts => entAdd op ty a b.val b.time b.core b.lane
  | _ => entAdd op ty a b.val 0 0 0

/-- apply_word (R234). -/
def applyWord (op : UOp) (ty : UType) (mem : Nat) (e : BinEnt) : Nat :=
  let w := 8 * ty.bytes
  match op with
  | .add => if ty = .f32 then exactApply mem e else (mem + e.val) % 2 ^ w
  | .min | .max =>
    if ty = .f32 then
      if (FF.f32.decode mem).isNan then if e.hasNum then e.val else 0x7FC00000
      else if !e.hasNum then mem
      else if op = .min then if fBefore .f32 e.val mem then e.val else mem
      else if fBefore .f32 mem e.val then e.val else mem
    else if op = .min then sMin w mem e.val else sMax w mem e.val
  | .or => mem ||| e.val
  | .and => mem &&& e.val
  | .xor => mem ^^^ e.val
  | .cnt => (mem + e.val) % 2 ^ w
  | .lasts => e.val

/-- A region; one that is not listed reads as an empty I32 ADD region. -/
def State.region (s : State) (r : Nat) : Region := (sget s.regions r).getD ⟨0, 0, 0, 0, .i32, .add, false⟩

/-- Enter a value in the bin of a Pending page (R229). -/
def State.binAdd (s : State) (page off v time core lane : Nat) : State :=
  match sget s.bins page with
  | none => s
  | some b =>
    let r := s.region b.region
    let e := match sget b.ents off with
      | some e => entAdd r.op r.ty e v time core lane
      | none => entNew r.op r.ty v time core lane
    { s with bins := sset s.bins page { b with ents := sset b.ents off e } }

/-- A Quiet page becomes Pending: every V and D copy of its words is invalidated, D words written back (R228). -/
def State.makePending (s : State) (page region : Nat) : State :=
  if (sget s.bins page).isSome then s
  else
    let inPage : Copy → Bool := fun y => decide (4 * y.w / 4096 = page / 4096)
    let s := s.cores.foldl (fun s e => if e.2.copies.any fun y => y.held && inPage y then s.dropCopies e.1 inPage else s) s
    { s with bins := sset s.bins page ⟨region, [], [], 0⟩ }

/-- Whether the grant request of a partial has reached the home: its grant has returned, or is on its way (R227, R234). -/
def State.granted (s : State) (k : Nat) (y : Copy) : Bool := match y.st with
  | .u _ g _ => g || s.pendingEv.any fun p => p.2.row == .uGrantReturn && p.2.a == [k, 4 * y.w]
  | _ => false

/-- Recall of the U partials of a page whose grant request has reached the home; each goes into the bin as one pair (R227, R234). One that had its grant and has left its L1 since is
recalled on its way: its pairs have counted as combined. -/
def State.recallPartials (s : State) (page : Nat) : State :=
  let here : Pair → Bool := fun p => p.part && pageOf p.pa == page
  let s := (s.flight.filter here).foldl (fun s p => s.binAdd page (p.pa % 4096) p.x.toNat 0 0 0) s
  let s := { s with flight := s.flight.filter fun p => !here p }
  s.cores.foldl (fun s e =>
    let hit : Copy → Bool := fun y => decide (4 * y.w / 4096 = page / 4096) && s.granted e.1 y
    if e.2.l1.any fun y => hit y.2 then
      let t := (e.2.l1.filter fun y => hit y.2).foldl (fun s y => s.binAdd page (4 * y.2.w % 4096) y.2.x 0 0 0) s
      t.modCore e.1 fun c => { c with l1 := c.l1.filter fun y => !hit y.2 }
    else s) s

/-! ## Spilled runs (R231, R233) -/

/-- Bytes of a bin entry (R231). -/
def Region.entBytes (r : Region) : Nat := if r.op = .lasts then 24 else if r.op = .add ∧ r.ty = .f32 then 48 else 16

/-- The marks of an entry: PINF, NINF, NAN, OVF, OSGN, and whether it holds a number. -/
def BinEnt.marks (e : BinEnt) : Nat :=
  e.pinf.toNat + 2 * e.ninf.toNat + 4 * e.nan.toNat + 8 * e.ovf.toNat + 16 * e.osgn.toNat + 32 * e.hasNum.toNat

/-- The bytes of an entry in a run, as a number (R231): word offset and marks or stamp in the first doubleword, then the value or the accumulator. The places within the bytes are
the model's (log entry 45). -/
def encEnt (r : Region) (off : Nat) (e : BinEnt) : Nat :=
  if r.entBytes = 24 then off + 2 ^ 16 * e.core + 2 ^ 32 * e.lane + 2 ^ 64 * (e.val + 2 ^ 64 * e.time)
  else if r.entBytes = 48 then off + 2 ^ 16 * e.marks + 2 ^ 64 * (BitVec.ofInt 320 e.acc).toNat
  else off + 2 ^ 16 * e.marks + 2 ^ 64 * e.val

/-- The offset and entry that bytes of a run hold. -/
def decEnt (r : Region) (x : Nat) : Nat × BinEnt :=
  let m := bits x 16 8
  let e : BinEnt := { BinEnt.zero with
    pinf := bits m 0 1 == 1, ninf := bits m 1 1 == 1, nan := bits m 2 1 == 1, ovf := bits m 3 1 == 1, osgn := bits m 4 1 == 1, hasNum := bits m 5 1 == 1 }
  (bits x 0 16,
   if r.entBytes = 24 then { BinEnt.zero with core := bits x 16 16, lane := bits x 32 32, val := bits x 64 64, time := bits x 128 64 }
   else if r.entBytes = 48 then { e with acc := (BitVec.ofNat 320 (x / 2 ^ 64)).toInt }
   else { e with val := bits x 64 64 })

/-- The words that n bytes from an address touch. -/
def wordsOf (pa n : Nat) : List Nat := (List.range ((pa % 4 + n + 3) / 4)).map (pa / 4 + ·)

/-- Whether an error has poisoned a word of a run (R477): its entries are lost. -/
def State.runBad (s : State) (r : Region) (run : Run) : Bool := (wordsOf run.pa (run.n * r.entBytes)).any s.rawPoison

/-- The entries of a run, as memory holds them; none where an error has hit it (R477). -/
def State.runEnts (s : State) (r : Region) (run : Run) : List (Nat × BinEnt) :=
  if s.runBad r run then [] else (List.range run.n).map fun i => decEnt r (s.mem.readN (run.pa + r.entBytes * i) r.entBytes)

/-- The entries of a bin and its runs, combined word by word (R234). -/
def State.allEnts (s : State) (b : BinPage) : List (Nat × BinEnt) :=
  let r := s.region b.region
  b.runs.foldl (fun m run => (s.runEnts r run).foldl (fun m oe =>
    sset m oe.1 (match sget m oe.1 with
      | some e => entMerge r.op r.ty e oe.2
      | none => oe.2)) m) b.ents

/-! ## Apply (R234, R235) -/

/-- Clear the poison of the words that n bytes cover whole (R479). -/
def State.unpoison (s : State) (pa n : Nat) : State :=
  { s with poison := s.poison.filter fun w => !(decide (pa ≤ 4 * w) && decide (4 * w + 4 ≤ pa + n)) }

/-- Cycles that the apply of the page of an address adds to the access that waits for it (R235); 0 where the page is Quiet. -/
def State.applyCost (s : State) (pa : Nat) : Nat :=
  match sget s.bins (pageOf pa) with
  | none => 0
  | some b =>
    let bytes := b.runs.foldl (fun n run => n + run.n * (s.region b.region).entBytes) 0
    24 + (if b.mask = 0 then 0 else 160) + (b.ents.length + 15) / 16 + (if b.runs.isEmpty then 0 else 220 + (bytes + 63) / 64) + 70

/-- Ticks for which an apply of the page of an address is still under way (R235). -/
def State.applyLeft (s : State) (pa : Nat) : Nat := (sget s.applies (pageOf pa)).getD 0 - s.time

/-- Whether an entry of a bin is for a word that is poisoned and that the apply would have to read (R479). -/
def State.entBad (s : State) (r : Region) (page : Nat) (oe : Nat × BinEnt) : Bool := r.op != .lasts && (wordsOf (page + oe.1) r.ty.bytes).any s.rawPoison

/-- apply_page (R234), which takes the time of R235. Where a word to be read is poisoned the page stays Pending (R479), unless the apply is the one of a release of its region: then the
entries of poisoned words are dropped and the page is Quiet (DESIGN CHOICE, log entry 34). Where an error has hit a run, every word of the page is poisoned (R477). -/
def State.applyAs (s : State) (last : Bool) (page : Nat) : State :=
  match sget s.bins page with
  | none => s
  | some _ =>
    let s := s.recallPartials page
    match sget s.bins page with
    | none => s
    | some b =>
      let r := s.region b.region
      let all := s.allEnts b
      let n := r.ty.bytes
      if !last ∧ all.any (s.entBad r page) then s
      else
        let good := all.filter fun oe => !s.entBad r page oe
        let mem := good.foldl (fun m oe => m.writeN (page + oe.1) n (applyWord r.op r.ty (m.readN (page + oe.1) n) oe.2)) s.mem
        let t := { s with
          mem := mem, bins := sdel s.bins page
          applies := sset (s.applies.filter fun a => decide (s.time < a.2)) page (s.time + s.applyCost page) }
        let t := if r.op = .lasts then all.foldl (fun s oe => s.unpoison (page + oe.1) n) t else t
        if b.runs.any (s.runBad r) then (t.markPoison (page / 4) 1024).post ⟨.machineCheck, [0, 4, 3, 64 * homeDie page + homeSlice page, page]⟩ else t

/-- apply_page (R234). -/
def State.applyPage (s : State) (page : Nat) : State := s.applyAs false page

/-! ## The L2 of a die (R17, R176, R191, R231) -/

/-- Ticks for which a slice of a die is still under test (R415). -/
def State.testLeft (s : State) (d sl : Nat) : Nat := ((sget (s.die d).tests sl).getD 0) - s.time

/-- Ticks for which the home of an address does not serve it: its slice is under test (R415), or its page is being applied (R235). -/
def State.homeWait (s : State) (pa : Nat) : Nat := if pa < 0x8000000000000 then max (s.testLeft (homeDie pa) (homeSlice pa)) (s.applyLeft pa) else 0

/-- Lines that an L2 slice of a die holds beside its bins. -/
def Die.l2Size (y : Die) : Nat := 196608 - 1024 * fld y.bcfg 0 5

/-- Whether a physical address has its home in an L2 slice. -/
def hasSlice (pa : Nat) : Bool := decide (pa < hostBase)

/-- Whether the home slice of a line holds it. -/
def State.l2Has (s : State) (pa : Nat) : Bool :=
  hasSlice pa && ((sget (s.die (homeDie pa)).l2 (homeSlice pa)).getD []).contains (pa / 64)

/-- Whether an MXU has pinned a line (R191). -/
def State.pinned (s : State) (line : Nat) : Bool := s.octets.any fun o => o.2.pins.contains line

/-- The lines of a full slice without the one used longest ago that no MXU has pinned. -/
def dropOldest (pin : Nat → Bool) : List Nat → List Nat
  | [] => []
  | l :: t => if t.all pin then (if pin l then l :: t else t) else l :: dropOldest pin t

/-- n lines leave a full slice, the one used longest ago first, as far as no MXU has pinned them (R191, R231). -/
def dropLines (pin : Nat → Bool) : Nat → List Nat → List Nat
  | 0, l => l
  | n + 1, l => dropLines pin n (dropOldest pin l)

/-- The lines of every slice of a die that its L2 has no room for leave it (R231). -/
def State.trimL2 (s : State) (d : Nat) : State :=
  s.modDie d fun y => { y with l2 := y.l2.map fun e => (e.1, dropLines s.pinned (e.2.length - y.l2Size) e.2) }

/-- The home slice of an address uses its line (log entry 7). -/
def State.l2Use (s : State) (pa : Nat) : State :=
  if hasSlice pa then
    let line := pa / 64
    s.modDie (homeDie pa) fun y =>
      let ls := (sget y.l2 (homeSlice pa)).getD []
      let rest := ls.filter (· != line)
      { y with l2 := sset y.l2 (homeSlice pa) (line :: dropLines s.pinned (rest.length + 1 - y.l2Size) rest) }
  else s

/-- An access to a line reaches its home: a Pending page is applied first (R192, R220, R234), and the slice holds the line. -/
def State.touch (s : State) (pa : Nat) : State := (s.applyPage (pageOf pa)).l2Use pa

/-- An access to the lines of n bytes reaches their homes. -/
def State.touchAll (s : State) (pa n : Nat) : State := (List.range ((pa % 64 + n + 63) / 64)).foldl (fun s i => s.touch (pa / 64 * 64 + 64 * i)) s

/-! ## Reads and writes at the home -/

/-- A directory read at the home: D copies under DIR are recalled first (R173, R179). n bytes that lie in words w to w + c - 1. -/
def State.homeRecall (s : State) (w : Nat) : Nat → State
  | 0 => s
  | c + 1 => State.homeRecall (s.recall none w) (w + 1) c

/-- Number of words that n bytes from an address touch. -/
def spanWords (pa n : Nat) : Nat := (pa % 4 + n + 3) / 4

/-- n bytes read at their home (R173, R181). -/
def State.homeRead (s : State) (pa n : Nat) : Nat × State :=
  let s := (s.touchAll pa n).homeRecall (pa / 4) (spanWords pa n)
  (s.mem.readN pa n, s)

/-- Whether any word of n bytes is poisoned. -/
def State.anyPoison (s : State) (pa n : Nat) : Bool := (List.range (spanWords pa n)).any fun i => s.poisoned (pa / 4 + i)

/-- Whether any word of n bytes is poisoned for core k. -/
def State.anyPoisonFor (s : State) (k pa n : Nat) : Bool := s.anyPoison pa n || s.cutOff k pa

/-- Whether n bytes cover a word whole. -/
def wholeWord (pa n w : Nat) : Bool := decide (pa ≤ 4 * w) && decide (4 * w + 4 ≤ pa + n)

/-- Invalidate c words from w on in every core but one, for a write of n bytes at pa: the D value of a word that the write covers whole is discarded (R179). -/
def State.homeInvalidate (s : State) (but : Option Nat) (pa n : Nat) (w : Nat) : Nat → State
  | 0 => s
  | c + 1 =>
    let s := s.invalidate but (wholeWord pa n w) w
    State.homeInvalidate (if but.isNone ∧ !(s.cores.any fun e => e.2.copies.any fun y => y.w == w && y.held) then s.dirFree w else s) but pa n (w + 1) c

/-- The copies of the words of n bytes that core k holds go to I, D words written back first (R179). -/
def State.dropAt (s : State) (k pa n : Nat) : State :=
  let mine : Copy → Bool := fun y => y.held && decide (pa / 4 ≤ y.w) && decide (y.w < pa / 4 + spanWords pa n)
  if (s.core k).copies.any mine then s.dropCopies k mine else s

/-- n bytes written at their home; copies under DIR go to I (R179). A write that does not reach memory is dropped (R489, R500). -/
def State.homeWrite (s : State) (pa n x : Nat) : State :=
  let s := (s.touchAll pa n).homeInvalidate none pa n (pa / 4) (spanWords pa n)
  if s.unreachable pa then s else { s with mem := s.mem.writeN pa n x }.unpoison pa n

/-! ## Partials and lines that leave an L1 (R176, R179, R226, R227) -/

/-- Send a pair on its way to its bin home. -/
def State.sendPair (s : State) (p : Pair) : State :=
  { s with flight := s.flight ++ [p] }.postMore ⟨.bushelPairAccept, [homeDie p.pa, homeSlice (pageOf p.pa)]⟩

/-- A U partial of a core leaves as one pair (R227). -/
def State.sendPartial (s : State) (k : Nat) (y : Copy) : State :=
  match y.uPart? with
  | none => s
  | some (r, _, xs) =>
    let got := s.granted k y
    (s.modCore k fun c => { c with l1 := sdel c.l1 y.w }).sendPair ⟨4 * y.w, r, w64 y.x, 0, k, 0, xs, .dir, false, got⟩

/-- Words of the L1 of a core that satisfy a test leave it: V silently, D written back, a partial sent (R179, R227). -/
def State.leaveL1 (s : State) (k : Nat) (p : Nat → Bool) : State :=
  let us := ((s.core k).l1.map (·.2)).filter fun y => p y.w && y.uPart?.isSome
  let s := us.foldl (fun s y => s.sendPartial k y) s
  let here := (s.core k).l1.map (·.1)
  s.dropCopies k fun y => p y.w && here.contains y.w

/-- The nodes on the way to a way of a set, each with the side that the way lies on. -/
def plruPath (way : Nat) : List (Nat × Bool) := [(0, way / 4 == 1), (1 + way / 4, way / 2 % 2 == 1), (3 + way / 2, way % 2 == 1)]

/-- The tree after a use of a way: every node on its way points to the other side (R176). -/
def plruUse (tree : BitVec 7) (way : Nat) : BitVec 7 :=
  (plruPath way).foldl (fun t n => if n.2 then t &&& ~~~(BitVec.ofNat 7 (2 ^ n.1)) else t ||| BitVec.ofNat 7 (2 ^ n.1)) tree

/-- The way that a tree points to. -/
def plruVictim (tree : BitVec 7) : Nat :=
  let b0 := (tree.getLsbD 0).toNat
  let b1 := (tree.getLsbD (1 + b0)).toNat
  4 * b0 + 2 * b1 + (tree.getLsbD (3 + 2 * b0 + b1)).toNat

/-- Sets of the L1 (R176). -/
def l1Sets : Nat := 64
/-- Set i of an L1. -/
def Core.l1Set (c : Core) (i : Nat) : L1Set := (sget c.l1sets i).getD ⟨Vector.replicate 8 none, 0⟩

/-- The way that a line of a set takes: its own, else the lowest free one, else the one that the tree points to (R176; log entry 7). -/
def L1Set.wayFor (y : L1Set) (line : Nat) : Fin 8 :=
  match (List.finRange 8).find? fun i => y.ways[i] == some line with
  | some i => i
  | none => match (List.finRange 8).find? fun i => y.ways[i].isNone with
    | some i => i
    | none => Fin.ofNat 8 (plruVictim y.tree)

/-- A line is used in the L1 of a core: it has a slot, for which the line of another slot leaves where the set is full (R176, R179). -/
def State.l1Use (s : State) (k line : Nat) : State :=
  let y := (s.core k).l1Set (line % l1Sets)
  let i := y.wayFor line
  let s := match y.ways[i] with
    | some old => if old = line then s else s.leaveL1 k fun w => w / 16 == old
    | none => s
  s.modCore k fun c => { c with l1sets := sset c.l1sets (line % l1Sets) ⟨y.ways.set i (some line), plruUse y.tree i.val⟩ }

end Sys2Proof.Machine
end

