-- ==== Sys2Proof/Machine/Mem.lean ====
section
/-!
DEFINITION. Translation (R170 to R175), the checks of an access in the order of R451, line requests (R193), loads and stores of bytes, release and acquire, and future words.
Every load is performed and every store takes its place at its issue (log entry 5).
-/

namespace Sys2Proof.Machine

/-! ## Translation (R170 to R175) -/

/-- V, R, W, X, US, ATTR, FUT, ENG and C of an entry (R171). -/
def Tlb.attr (t : Tlb) : Attr := match bits t.flags.toNat 5 2 with
  | 0 => .dir
  | 1 => .si
  | _ => .uc
/-- R (R171). -/
def Tlb.r (t : Tlb) : Bool := t.flags.getLsbD 1
/-- W. -/
def Tlb.w (t : Tlb) : Bool := t.flags.getLsbD 2
/-- X. -/
def Tlb.x (t : Tlb) : Bool := t.flags.getLsbD 3
/-- US. -/
def Tlb.us (t : Tlb) : Bool := t.flags.getLsbD 4
/-- FUT. -/
def Tlb.fut (t : Tlb) : Bool := t.flags.getLsbD 7
/-- ENG. -/
def Tlb.eng (t : Tlb) : Bool := t.flags.getLsbD 8

/-- Whether a translation covers an address of an ASID. -/
def Tlb.covers (asid va : Nat) (t : Tlb) : Bool := t.asid == asid && decide (t.va ≤ va) && decide (va < t.va + t.size)
/-- The physical address of a covered address. -/
def Tlb.at (t : Tlb) (va : Nat) : Nat := t.pa + (va - t.va)

/-- The region that a physical page belongs to under an ASID (R224); one whose release is under way gives no tag (R225). -/
def State.regionAt (s : State) (asid pa : Nat) : Option Nat :=
  (s.regions.find? fun r => r.2.asid == asid && !r.2.leaving && decide (r.2.pa ≤ pa) && decide (pa < r.2.pa + 4096 * r.2.pages)).map (·.1)

/-- A page fault found by the walker: level and reason (R450). -/
abbrev WalkErr := Nat × Nat

/-- The checks of R171 and R172 on a leaf at a level; the translation it gives. -/
def leafOf (asid va level e : Nat) (group : List Nat) : Except WalkErr Tlb :=
  let size := if level = 2 then 2 ^ 30 else if level = 3 then 2 ^ 21 else 4096
  let pa := bits e 12 40 * 4096
  if level = 1 ∨ pa % size ≠ 0 then .error (level, 1)
  else
    let big := decide (bits e 9 1 = 1) && (group.zipIdx.all fun g =>
      decide (g.1 - g.1 / 4096 % 16 * 4096 = e - e / 4096 % 16 * 4096) && decide (g.1 / 4096 % 16 = g.2))
    let size := if big then 65536 else size
    let pa := pa / size * size
    let attr := bits e 5 2
    if hostBase ≤ pa ∧ (attr ≠ 2 ∨ (pa < peerBase ∧ bits e 7 1 = 1)) then .error (level, 1)
    else .ok ⟨asid, va / size * size, size, pa, BitVec.ofNat 10 e, none⟩

/-- The walk from a table at a level, `left` levels to go (R170, R171). -/
def State.walk (asid va : Nat) : Nat → Nat → State → Except WalkErr Tlb × State
  | 0, _, s => (.error (4, 1), s)
  | left + 1, table, s =>
    let level := 4 - left
    if !s.populated table then (.error (level, 2), s)
    else
      let idx := bits va (48 - 9 * level) 9
      let (e, s) := s.homeRead (table + 8 * idx) 8
      let r := bits e 1 1
      let w := bits e 2 1
      let x := bits e 3 1
      let c := bits e 9 1
      if e % 2 = 0 then (.error (level, 0), s)
      else if bits e 52 12 ≠ 0 ∨ bits e 10 2 ≠ 0 ∨ bits e 5 2 = 3 ∨ (w = 1 ∧ r = 0) ∨ (c = 1 ∧ level ≠ 4) ∨ (bits e 7 1 = 1 ∧ bits e 5 2 = 1) then
        (.error (level, 1), s)
      else if r = 0 ∧ w = 0 ∧ x = 0 then
        if level = 4 then (.error (4, 1), s) else State.walk asid va left (bits e 12 40 * 4096) s
      else
        let (group, s) := if c = 1 then
            (List.range 16).foldl (fun (acc : List Nat × State) i =>
              let (g, s) := acc.2.homeRead (table + 8 * (idx / 16 * 16 + i)) 8
              (acc.1 ++ [g], s)) ([], s)
          else ([], s)
        (leafOf asid va level e group, s)

/-- The root table of an ASID, from the cached entries or the ASID table (R170). -/
def State.root (s : State) (cl asid : Nat) : Except WalkErr Nat × State :=
  match sget (s.cluster cl).roots asid with
  | some r => (.ok r, s)
  | none =>
    let (e, s) := s.homeRead (fld s.asidtbase 15 37 * 32768 + 8 * asid) 8
    if e % 2 = 0 ∨ bits e 52 12 ≠ 0 ∨ bits e 1 11 ≠ 0 then (.error (0, 3), s)
    else
      let r := bits e 12 40 * 4096
      (.ok r, s.modCluster cl fun c => { c with roots := sset c.roots asid r })

/-- A page walk (R170 to R173): the translation, tagged with the region that the 4 KiB page walked lies in (R224). A larger translation carries that tag for every page of it: the
rule names the physical page that the walk yields, and does not say which page of a larger one (DESIGN CHOICE, log entry 7). -/
def State.pageWalk (s : State) (cl asid va : Nat) : Except WalkErr Tlb × State :=
  match s.root cl asid with
  | (.error e, s) => (.error e, s)
  | (.ok r, s) => match State.walk asid va 4 r s with
    | (.error e, s) => (.error e, s)
    | (.ok t, s) => (.ok { t with region := s.regionAt asid (t.at va / 4096 * 4096) }, s)

/-- Entries of the core TLB, and sets and ways of the cluster TLB (R174). -/
def coreTlbSize : Nat := 64
/-- Sets of the cluster TLB. -/
def clusterTlbSets : Nat := 1024
/-- Ways of the cluster TLB. -/
def clusterTlbWays : Nat := 8

/-- The set of the cluster TLB that a translation goes to: its page number under its own size (log entry 7). -/
def Tlb.set (t : Tlb) : Nat := t.va / t.size % clusterTlbSets

/-- The first n entries of a list that satisfy a test, and all that do not. -/
def keepFirst {α : Type} (p : α → Bool) : Nat → List α → List α
  | _, [] => []
  | n, x :: t => if p x then (match n with
      | 0 => keepFirst p 0 t
      | n + 1 => x :: keepFirst p n t) else x :: keepFirst p n t

/-- A translation enters a cluster TLB: the oldest of its set leaves where the set is full (log entry 7). -/
def clusterFill (t : Tlb) (l : List Tlb) : List Tlb := t :: keepFirst (fun x => x.set == t.set) (clusterTlbWays - 1) l

/-- A translation enters the TLB of core k. -/
def State.coreFill (s : State) (k : Nat) (t : Tlb) : State := s.modCore k fun c => { c with tlb := (t :: c.tlb).take coreTlbSize }

/-- A translation, from the core TLB, the cluster TLB or a walk (R174). The accesses of an instruction wait for their walks before they come here (R175); what a walk costs
elsewhere is not counted (log entry 6). -/
def State.translate (s : State) (k asid va : Nat) : Except WalkErr Tlb × State :=
  match (s.core k).tlb.find? (Tlb.covers asid va) with
  | some t => (.ok t, s)
  | none =>
    match (s.cluster (clusterOf k)).tlb.find? (Tlb.covers asid va) with
    | some t => (.ok t, s.coreFill k t)
    | none =>
      match s.pageWalk (clusterOf k) asid va with
      | (.error e, s) => (.error e, s)
      | (.ok t, s) => (.ok t, (s.modCluster (clusterOf k) fun c => { c with tlb := clusterFill t c.tlb }).coreFill k t)

/-- The ends of the walks that an event has waited for, which stand behind its own m operands: ASID, virtual page, and the level and reason of the fault, or level 8 for a translation. -/
def evWalks : List Nat → List (Nat × Nat × WalkErr)
  | a :: p :: l :: r :: t => (a, p, l, r) :: evWalks t
  | _ => []

/-- How a walk has ended that the event which is performed, of m operands of its own, has waited for (R175): in a fault, or in a translation. -/
def State.evWalk (s : State) (m asid va : Nat) : Option (Option WalkErr) :=
  ((evWalks (s.ev.drop m)).find? fun f => f.1 == asid && f.2.1 == va / 4096).map fun f => if f.2.2.1 = 8 then none else some f.2.2

/-- The translation of an access of an event of m operands of its own: none where the event has to wait for a walk (R175). -/
def State.transEv (s : State) (m j asid va : Nat) : Option (Except WalkErr Tlb × State) :=
  match s.evWalk m asid va with
  | some (some e) => some (.error e, s)
  | some none => some (s.translate j asid va)
  | none => if ((s.core j).tlb.find? (Tlb.covers asid va)).isNone then none else some (s.translate j asid va)

/-- How a walk for the instruction of a context has ended (R175): in a fault, or in a translation. -/
def Ctx.walkEnd (t : Ctx) (asid va : Nat) : Option (Option WalkErr) :=
  (t.walked.find? fun w => w.1 == asid && w.2.1 == va / 4096).map (·.2.2)

/-! ## Checks of an access (R280, R451) -/

/-- What one access asks: address, bytes, KIND of R450, whether it needs W (else R), whether the range lock sees a store (else a load), the alignment it must have, whether
it needs FUT, whether its base is g62, whether it is a scalar doubleword that register space takes, whether the range lock is checked, and whether it is performed at the home
even where a window maps the address (R290), whether an instruction makes it, which takes the fault that its walk has ended in (R175), and for an access of an event how many operands
of its own the event has. -/
structure Req where
  va : Word
  n : Nat
  kind : Nat
  wr : Bool
  align : Nat := 1
  fut : Bool := false
  stk : Bool := false
  dev : Bool := false
  lock : Bool := true
  home : Bool := false
  own : Bool := false
  ev : Option Nat := none
  deriving DecidableEq, Repr

/-- log2 of the access bytes (R450). -/
def sizeLog (n : Nat) : Nat := min 7 (Nat.log2 n)

/-- Detail word of codes 0x08 to 0x0B (R450). -/
def memDetail (n level reason kind : Nat) : Word := w64 (sizeLog n * 2 ^ 12 + level * 2 ^ 8 + reason * 2 ^ 4 + kind)

/-- A check that failed: its place in the order of R451, and the trap. -/
abbrev Failed := Nat × Trap

/-- A failed check as a trap. -/
def failed (stage code n level reason kind : Nat) (addr : Word) : Failed := (stage, ⟨code, memDetail n level reason kind, addr, false⟩)

/-- The first address of the aperture (R167). -/
def aperBase : Nat := 0x00FF00000000
/-- The range of R167 an address lies in: local, aperture, global. -/
def rangeOf (a : Nat) : Nat := if a < 0x20000 then 0 else if aperBase ≤ a ∧ a < aperBase + 192 * 0x20000 then 1 else 2

/-- An address of core k's own scratchpad through the aperture, as the local address that it is served as (R167); another address as it is. -/
def ownLocal (k a : Nat) : Nat := if rangeOf a = 1 ∧ (a - aperBase) / 0x20000 = logical k then (a - aperBase) % 0x20000 else a

/-- The window of a core that a local offset lies in (R187). -/
def Core.winAt (c : Core) (off : Nat) : Option (Nat × Window) :=
  (c.wins.toList.zipIdx.findSome? fun e => match e.1 with
    | some w => if w.base ≤ off ∧ off < w.base + w.len then some (e.2, w) else none
    | none => none)

/-- The window of a core that a virtual address lies in (R176). -/
def Core.winVa (c : Core) (va : Nat) : Option (Nat × Window) :=
  (c.wins.toList.zipIdx.findSome? fun e => match e.1 with
    | some w => if w.va ≤ va ∧ va < w.va + w.len then some (e.2, w) else none
    | none => none)

/-- Permission of a translation for an access (R171): the missing bit of R450. -/
def permMissing (t : Tlb) (wr : Bool) (priv : Nat) (fut : Bool) : Option Nat :=
  if !wr && !t.r then some 0 else if wr && !t.w then some 1 else if priv = 0 ∧ !t.us then some 3 else if fut ∧ !t.fut then some 4 else none

/-- The translation of an access. An instruction's own access, and one of an event of engines, streams or the MXU, waits for the walk where the core TLB lacks the page, and takes the fault that
its walk has ended in (R174, R175). -/
def transFor (q : Req) (k asid va : Nat) : X (Except WalkErr Tlb) := fun s =>
  match q.ev with
  | some m => match s.transEv m k asid va with
    | some r => .ok r
    | none => .error (.waitFor k asid va)
  | none => if q.own then
    match (s.ctx s.act s.actx).walkEnd asid va with
    | some (some e) => .ok (.error e, s)
    | some none => .ok (s.translate k asid va)
    | none => if ((s.core k).tlb.find? (Tlb.covers asid va)).isNone then .error (.waitFor k asid va) else .ok (s.translate k asid va)
  else .ok (s.translate k asid va)

/-- A translation that a fill of window wi of core j has used (R189): it takes the place of an older one of the same page. -/
def State.notePage (s : State) (j wi : Nat) (t : Tlb) : State :=
  s.modCore j fun c => { c with wins := c.wins.set (Fin.ofNat 8 wi) ((c.wins[Fin.ofNat 8 wi]).map fun w =>
    if w.pages.head? = some t then w else { w with pages := t :: w.pages.filter fun p => !(p.va == t.va && p.size == t.size) }) }

/-- The newest translation that a window's fills have used for one of its addresses. -/
def Window.page (w : Window) (va : Nat) : Option Tlb := w.pages.find? (Tlb.covers w.asid va)

/-- The place of a window byte whose word is I: where the fill's translation finds the page, or the fault of the fill (R189, R471). -/
def winFillPlace (q : Req) (priv j wi off : Nat) (w : Window) : X (Except Failed Place) := do
  let va := w.va + off
  match ← transFor q j w.asid va with
  | .error (l, r) => pure (.error (failed 4 0x08 q.n l r 5 (w64 (va / 4 * 4))))
  | .ok t =>
    let s ← getS
    if !s.populated (t.at va) then pure (.error (failed 4 0x08 q.n 0 2 5 (w64 (va / 4 * 4))))
    else match permMissing t q.wr priv q.fut with
      | some r => pure (.error (failed 5 0x09 q.n 0 r 5 (w64 (va / 4 * 4))))
      | none => do
        modS fun s => s.notePage j wi t
        pure (.ok (if t.attr = .uc then .phys (t.at va) .uc else .win j wi off (t.at va) t.attr))

/-- Where a byte of a window lies (R187): a word that is V or D in the window, or the word that a fill brings. A word that is V or D is checked for R, W and US by the translation
of its fill (R171, R470). -/
def winPlace (q : Req) (priv j wi off : Nat) (w : Window) : X (Except Failed Place) := do
  let s ← getS
  match (sget w.words (off / 4)).filter (Copy.valid (s.core j).ep), w.page (w.va + off) with
  | some y, some t => match permMissing t q.wr priv q.fut with
    | some r => pure (.error (failed 5 0x09 q.n 0 r q.kind q.va))
    | none => pure (.ok (.win j wi off (4 * y.w + off % 4) y.attr))
  | _, _ => winFillPlace q priv j wi off w

/-- Where one byte of an access lies (R167, R176, R187), for core k under an ASID and level. An access that is performed at the home (R290), and a prefetch into a home slice, translates a
global address that a window maps under the window's ASID (R471); R167 names the ASID of STATUS, and the rules do not say which holds there (DESIGN CHOICE, log entry 55). -/
def bytePlace (q : Req) (k asid priv va : Nat) : X (Except Failed Place) := do
  let s ← getS
  match rangeOf va with
  | 2 =>
    let asid := match (s.core k).winVa va with
      | some (_, w) => if q.home then w.asid else asid
      | none => asid
    match if q.home then none else (s.core k).winVa va with
    | some (wi, w) => winPlace q priv k wi (va - w.va) w
    | none => do
      match ← transFor q k asid va with
      | .error (l, r) => pure (.error (failed 4 0x08 q.n l r q.kind (w64 va)))
      | .ok t =>
        let s ← getS
        if !s.populated (t.at va) then pure (.error (failed 4 0x08 q.n 0 2 q.kind (w64 va)))
        else match permMissing t q.wr priv q.fut with
          | some r => pure (.error (failed 5 0x09 q.n 0 r q.kind q.va))
          | none => pure (.ok (.phys (t.at va) t.attr))
  | r =>
    let j := if r = 0 then k else 192 * clusterOf k + (va - aperBase) / 0x20000
    let off := if r = 0 then va else (va - aperBase) % 0x20000
    if q.fut then pure (.error (failed 5 0x09 q.n 0 4 q.kind q.va))
    else match (s.core j).winAt off with
      | some (wi, w) => winPlace q priv j wi (off - w.base) w
      | none => pure (.ok (.spad j off))

/-- The places of n bytes from an address, or the first failure in the order of R451. -/
def placesFrom (q : Req) (k asid priv : Nat) : Nat → Nat → X (Except Failed (List Place))
  | 0, _ => pure (.ok [])
  | n + 1, va => do
    match ← bytePlace q k asid priv va with
    | .error e =>
      match ← placesFrom q k asid priv n (va + 1) with
      | .error e2 => pure (.error (if e2.1 < e.1 then e2 else e))
      | .ok _ => pure (.error e)
    | .ok p =>
      match ← placesFrom q k asid priv n (va + 1) with
      | .error e => pure (.error e)
      | .ok ps => pure (.ok (p :: ps))

/-- Attribute of the page behind a place; none for plain scratchpad. -/
def Place.attr? : Place → Option Attr
  | .spad _ _ => none
  | .win _ _ _ _ a => some a
  | .phys _ a => some a

/-- Physical address behind a place. -/
def Place.pa? : Place → Option Nat
  | .spad _ _ => none
  | .win _ _ _ pa _ => some pa
  | .phys pa _ => some pa

/-- The location behind a place (R324). -/
def Place.loc : Place → Loc
  | .spad j off => .spad j off
  | .win _ _ _ pa _ => .mem pa
  | .phys pa _ => .mem pa

/-! ## Latencies (R29, R30, R184, R188, R190, R235) -/

/-- Cycles that a scratchpad access of a class at an offset waits for its bank, in a cycle (R30): class 0 scalar and member, 1 vector, 2 copy and NI, 3 MXU. -/
def bankWait (cls off t : Nat) : Nat := (16 + cls - off / 8 % 4 - t % 4) % 4

/-- The wait of core k for a bank of core j, now. -/
def State.slotWait (s : State) (k cls off : Nat) : Nat := bankWait cls off (s.cycleNo k)

/-- Ticks of TIME until the home of an address answers core k (R29, R500): the rows from the local L2 on are fixed in time. A DIR word that another die owns, or may hold, costs
the remote-die latency (R184), and the apply of a Pending page (R235) and the rest of a self-test of the home slice (R415) are added. -/
def State.homeLatency (s : State) (k pa : Nat) (dir : Bool) : Nat :=
  let near := if homeDie pa = dieOf k then 70 else 160
  let far := dir && match sget s.dir (pa / 4) with
    | some (.owned j) => dieOf j != homeDie pa
    | _ => false
  let base := if isReg pa then 160
    else if hostBase ≤ pa then 2000
    else if s.l2Has pa then near
    else if 0x100000000000 ≤ pa then 900
    else max near 220
  (if far then max base 160 else base) + max (s.applyCost pa) (s.applyLeft pa) + (if hasSlice pa then s.testLeft (homeDie pa) (homeSlice pa) else 0)

/-- Ticks until the outstanding request that covers a word returns; 0 where none does (R193). -/
def Core.trackWait (c : Core) (w t : Nat) : Nat :=
  c.track.foldl (fun n e => if e.line = w / 16 ∧ e.mask.getLsbD (w % 16) then max n (e.due - t) else n) 0

/-- Ticks until the outstanding requests for a line return, after which a further one for it is sent; 0 where there is none (R193). -/
def Core.lineWait (c : Core) (line t : Nat) : Nat := c.track.foldl (fun n e => if e.line = line then max n (e.due - t) else n) 0

/-- Ticks from an access of a class by core k to its result at a place (R29, R30, R188, R190, R193, R500; log entry 6). -/
def State.latencyAt (s : State) (k cls : Nat) : Place → Nat
  | .spad j off => if j = k then s.cyc k (5 + s.slotWait k cls off) else s.cyc k (24 + s.slotWait k 2 off)
  | .win j i off pa attr =>
    let here := ((s.core j).wins[Fin.ofNat 8 i].bind fun w => sget w.words (off / 4)).any fun (y : Copy) => y.valid (s.core j).ep
    let base := if j = k then s.cyc k (7 + s.slotWait k cls off) else s.cyc k (24 + s.slotWait k 2 off)
    if here then max base ((s.core j).trackWait (pa / 4) s.time)
    else max base (s.homeLatency j pa (attr == .dir) + if attr = .uc then 0 else (s.core j).lineWait (pa / 64) s.time)
  | .phys pa attr =>
    if (sget (s.core k).l1 (pa / 4)).any fun (y : Copy) => y.valid (s.core k).ep then max (s.cyc k 9) ((s.core k).trackWait (pa / 4) s.time)
    else s.homeLatency k pa (attr == .dir) + if attr = .uc then 0 else (s.core k).lineWait (pa / 64) s.time

/-- Ticks to the last byte of an access. -/
def State.latencyOf (s : State) (k cls : Nat) (ps : List Place) : Nat := ps.foldl (fun n p => max n (s.latencyAt k cls p)) 1

/-- The range-lock check (R214): the entry that an access of a core meets, and the first locked byte touched. -/
def Core.lockHit (c : Core) (va n : Nat) (store : Bool) : Option (Lock × Nat) :=
  c.locks.foldl (fun (best : Option (Lock × Nat)) l =>
    if (l.dst || store) && decide (l.a < va + n) && decide (va < l.a + l.n) then
      match best with
      | some b => if max l.a va < b.2 then some (l, max l.a va) else best
      | none => some (l, max l.a va)
    else best) none

/-- The other name of an address of core k's own scratchpad: aperture for local, local for aperture (R167). -/
def aliasOf (k a : Nat) : Option Nat :=
  if a < 0x20000 then some (aperBase + logical k * 0x20000 + a) else if ownLocal k a = a then none else some (ownLocal k a)

/-- The range-lock check of an access of core k under both names of its own scratchpad; the byte is given by the name of the access. -/
def Core.lockOn (c : Core) (k va n : Nat) (store : Bool) : Option (Lock × Nat) :=
  match c.lockHit va n store with
  | some h => some h
  | none => (aliasOf k va).bind fun b => (c.lockHit b n store).map fun h => (h.1, h.2 + va - b)

/-- A range of bytes under every name that core k has for them (R167). -/
def extNames (k : Nat) (e : Nat × Nat) : List (Nat × Nat) :=
  let own := aperBase + logical k * 0x20000
  e :: ((if e.1 < 0x20000 then [(own + e.1, min e.2 (0x20000 - e.1))] else []) ++
    (if e.1 < own + 0x20000 ∧ own < e.1 + e.2 then [(max e.1 own - own, min (e.1 + e.2) (own + 0x20000) - max e.1 own)] else []))

/-- Range-lock trap (R450). -/
def lockTrap (l : Lock) (a : Nat) (store : Bool) : Trap :=
  ⟨0x11, w64 (l.tag + (if l.dst then 64 else 0) + (if store then 128 else 0) + a * 256), 0, false⟩

/-- The checks of one access in the order of R451, for core k, an ASID and level, and the stack limits of its context: the places of its bytes, or the failure with its
stage. An access that begins below 2^48 and runs past it takes the alignment fault of an access that crosses the ranges of R167 (DESIGN CHOICE, log entry 28: the spec does not say
which fault it is). -/
def checkReq (q : Req) (k asid priv : Nat) (ssl ssb : Word) : X (Except Failed (List Place)) := do
  let a := q.va.toNat
  if q.stk && (decide (a < ssl.toNat) || decide (ssb.toNat < a + q.n - 1)) then pure (.error (failed 1 0x0B q.n 0 1 q.kind q.va))
  else if 2 ^ 48 ≤ a then pure (.error (failed 2 0x08 q.n 0 4 q.kind q.va))
  else if rangeOf a ≠ rangeOf (a + q.n - 1) ∨ 2 ^ 48 < a + q.n ∨ (rangeOf a = 1 ∧ (a - aperBase) / 0x20000 ≠ (a + q.n - 1 - aperBase) / 0x20000) then
    pure (.error (failed 3 0x0A q.n 0 1 q.kind q.va))
  else
    match ← placesFrom q k asid priv q.n a with
    | .error e => pure (.error e)
    | .ok ps =>
      let s ← getS
      let attrs := ps.filterMap Place.attr?
      if a % q.align ≠ 0 ∨ (ps.any fun p => (p.pa?.map isReg).getD false) ∧ !(q.dev ∧ a % 8 = 0 ∧ q.n = 8 ∧ rangeOf a = 2 ∧ ((s.core k).winVa a).isNone) then
        pure (.error (failed 6 0x0A q.n 0 0 q.kind q.va))
      else if attrs.any (· != attrs.headD .dir) then pure (.error (failed 6 0x0A q.n 0 2 q.kind q.va))
      else if q.lock then
        match (s.core k).lockOn k a q.n q.wr with
        | some (l, b) => pure (.error (7, lockTrap l b q.wr))
        | none => pure (.ok ps)
      else pure (.ok ps)

/-- The checks of one access of the issuing context, not yet raised. -/
def checkOne (q : Req) : X (Except Failed (List Place)) := do
  let s ← getS
  let c ← cx
  checkReq { q with own := true } s.act c.asid c.priv c.ssl c.ssb

/-- The failure that is reported of several accesses: the earliest stage, then the lowest access (R451). -/
def firstFail : List (Except Failed (List Place)) → Option Failed
  | [] => none
  | .ok _ :: t => firstFail t
  | .error e :: t => match firstFail t with
    | some e2 => some (if e2.1 < e.1 then e2 else e)
    | none => some e

/-- The places of accesses none of which failed. -/
def okPlaces : List (Except Failed (List Place)) → List (List Place)
  | [] => []
  | .ok p :: t => p :: okPlaces t
  | .error _ :: t => okPlaces t

/-- The checks of every access of an instruction, all before any is performed (R280, R451). -/
def checkAll (qs : List Req) : X (List (List Place)) := do
  let rs ← qs.mapM checkOne
  match firstFail rs with
  | some e => stop (.trap e.2)
  | none => pure (okPlaces rs)

/-- The checks of the one access of an instruction. -/
def check (q : Req) : X (List Place) := do
  match ← checkOne q with
  | .error e => stop (.trap e.2)
  | .ok p => pure p

/-! ## Accesses that hardware makes -/

/-- The places of an access that hardware makes for core k under an ASID and level, or its first failure (R451). -/
def State.placesAt (s : State) (k asid priv : Nat) (q : Req) : Except Failed (List Place) × State :=
  match checkReq { q with lock := false, stk := false } k asid priv 0 0 s with
  | .ok r => r
  | .error _ => (.error (0, ⟨0, 0, 0, false⟩), s)

/-- The places of an access that an event of m operands of its own makes for core k under an ASID and level, or its first failure (R451); or the core, ASID and address whose translation it has
to wait for (R175). -/
def State.placesEv (s : State) (m k asid priv : Nat) (q : Req) : Except (Nat × Nat × Nat) (Except Failed (List Place) × State) :=
  match checkReq { q with lock := false, stk := false, ev := some m } k asid priv 0 0 s with
  | .ok r => .ok r
  | .error (.waitFor j a v) => .error (j, a, v)
  | .error _ => .ok (.error (0, ⟨0, 0, 0, false⟩), s)

/-! ## Streams (R320 to R324) -/

/-- COUNT0, COUNT1, POS0 and LEN of a descriptor (R320, R321). -/
def Slot.count0 (s : Slot) : Nat := fld s.d1 0 32
/-- Rows remaining. -/
def Slot.count1 (s : Slot) : Nat := fld s.d2 0 32
/-- Index in the current row. -/
def Slot.pos0 (s : Slot) : Nat := fld s.d3 32 32
/-- Bytes of an element: ESIZE, or 4 for the coordinates of a fibre. -/
def Slot.esize (s : Slot) : Nat := if s.fibre then 4 else 2 ^ fld s.d3 0 2
/-- Elements not yet consumed. -/
def Slot.left (s : Slot) : Nat :=
  if s.fibre then fld s.d2 0 32 else if s.count0 = 0 then 0 else s.count1 * s.count0 - s.pos0

/-- The descriptor advanced by n elements, or to its end (R325), and the buffered elements after them. -/
def Slot.adv (s : Slot) (n : Nat) : Slot :=
  let n := min n s.left
  let s := { s with buf := s.buf.drop n }
  if s.fibre then
    { s with d0 := s.d0 + w64 (4 * n), d1 := if s.d1 = 0 then 0 else s.d1 + w64 (4 * n), d2 := putBits s.d2 0 32 (fld s.d2 0 32 - n) }
  else if s.count0 = 0 then s
  else
    let t := s.pos0 + n
    let rows := t / s.count0
    { s with d0 := s.d0 + BitVec.ofInt 64 (rows * sextN (fld s.d2 32 32) 32), d2 := putBits s.d2 0 32 (s.count1 - rows),
             d3 := putBits s.d3 32 32 (t % s.count0) }

/-- Address of the next element (R320, R321). -/
def Slot.addr (s : Slot) : Word := if s.fibre then s.d0 else s.d0 + BitVec.ofInt 64 (s.pos0 * sextN (fld s.d1 32 32) 32)

/-- The value a pop delivers to a g register: extended under SX, or coordinate and value of a fibre (R321, R322). -/
def Slot.value (s : Slot) (e : Elem) : Word :=
  if s.fibre then w64 (e.x % 2 ^ 32 + e.y % 2 ^ 32 * 2 ^ 32)
  else if bit s.d3 2 then sext64 e.x (8 * s.esize) else w64 (e.x % 2 ^ (8 * s.esize))

/-- Elements a refill holds: 256 bytes beyond the position (R323). -/
def Slot.cap (s : Slot) : Nat := 256 / s.esize

/-- Elements that a read of the register consumes: one, or a strip of 32 (R322). -/
def Slot.strip (s : Slot) : Nat := min (if s.vec then 32 else 1) s.left

/-- Whether an input stream register reads as empty (R322). -/
def Slot.isEmpty (s : Slot) : Bool := !s.out && decide (s.buf.length < s.strip)

/-- What a read of a g register in stream mode gives (R322). -/
def Slot.readG (s : Slot) : Word := if s.out then 0 else match s.buf with
  | e :: _ => if s.left = 0 then 0 else s.value e
  | [] => 0

/-- Lanes of a vector from a list of 32-bit values, lane 0 first. -/
def lanesOf (xs : List Nat) : Nat := xs.foldr (fun x r => x % 2 ^ 32 + 2 ^ 32 * r) 0

/-- What a read of a v register in stream mode gives (R322). -/
def Slot.readV (s : Slot) : VWord :=
  if s.out then 0 else BitVec.ofNat 1024 (lanesOf ((s.buf.take s.strip).map fun e => (s.value e).toNat))

/-- The slot after a read of its register (R322). -/
def Slot.popped (s : Slot) : Slot := if s.out then s else s.adv s.strip

/-- The checks of an element at a slot's position, for a refill or push (R323): its data, then the value of a valued fibre. -/
def Slot.reqs (s : Slot) (wr lock : Bool) : List Req :=
  { va := s.addr, n := s.esize, kind := 4, wr := wr, lock := lock } ::
  (if s.fibre && s.d1 != 0 then [{ va := s.d1, n := 4, kind := 4, wr := wr, lock := lock }] else [])

/-- Ticks until the refill of a slot has the element after those fetched: the latency of the place where it lies (R29), 5 and the wait for its bank in scratchpad (R30, R330). -/
def State.refillTicks (s : State) (k : Nat) (x : Fin 11) (i : Fin 8) : Nat :=
  let c := s.ctx k x
  let p := c.slots[i].adv c.slots[i].buf.length
  if !p.used || p.out || p.left == 0 then 1
  else match (s.placesAt k c.asid c.priv { va := p.addr, n := p.esize, kind := 4, wr := false }).1 with
    | .ok ps => s.latencyOf k 2 ps
    | .error _ => 1

/-- The refill of a slot begins n ticks from now, unless it is under way: what it fetches is there after the latency of its place (R323, R330). -/
def State.refillIn (s : State) (n k : Nat) (x : Fin 11) (i : Fin 8) : State :=
  let e : Ev := ⟨.streamRefill, [k, x.val, i.val]⟩
  if s.pendingEv.any fun p => p.2 == e then s else s.postIn (n + s.refillTicks k x i) e

/-! ## Waits of loads and stores (R193, R199, R219) -/

/-- Whether a context has pairs not yet accepted or combined (R203, R226). -/
def State.pairsOut (s : State) (k x : Nat) : Bool :=
  (s.core k).ubuf.any (·.ctxs.contains x) || s.flight.any (fun p => p.core == k && p.ctxs.contains x) ||
  (s.core k).l1.any fun y => match y.2.st with
    | .u _ g xs => !g && xs.contains x
    | _ => false

/-- Whether an access of a context to a physical page must wait: the context has pairs for the page not yet accepted (R219), or a partial of the core has no grant
yet. -/
def State.mustWait (s : State) (k x pa : Nat) : Bool :=
  let pg := pa / 4096
  (s.core k).ubuf.any (fun p => p.ctxs.contains x && decide (p.pa / 4096 = pg)) ||
  s.flight.any (fun p => p.core == k && p.ctxs.contains x && decide (p.pa / 4096 = pg)) ||
  (s.core k).l1.any fun y => decide (4 * y.2.w / 4096 = pg) && match y.2.st with
    | .u _ g _ => !g
    | _ => false

/-- The word of a place that a holder of core k, or of the core of the window, may hold: that core, the word, its attribute and the copy that is held. -/
def State.holdAt (s : State) (k : Nat) : Place → Option (Nat × Nat × Attr × Option Copy)
  | .phys _ .uc | .spad _ _ => none
  | .phys pa attr => some (k, pa / 4, attr, (sget (s.core k).l1 (pa / 4)).filter (Copy.valid (s.core k).ep))
  | .win j wi off pa attr => some (j, pa / 4, attr, (((s.core j).wins[Fin.ofNat 8 wi]).bind fun w => sget w.words (off / 4)).filter (Copy.valid (s.core j).ep))

/-- The words for which an access of core k needs a request (R178, R193), each with the core that makes it and whether it is under DIR: an I word that no outstanding request covers, for a
load, and for a store of a part of an SI word; for a store under DIR a word that is not D. -/
def State.needs (s : State) (k : Nat) (store : Bool) (ps : List Place) : List (Nat × Nat × Bool) :=
  let ws := ps.filterMap (s.holdAt k)
  (ws.filterMap fun h =>
    let asked := (s.core h.1).track.any fun e => e.line == h.2.1 / 16 && decide (s.time < e.due) && e.mask.getLsbD (h.2.1 % 16)
    let part := decide ((ws.filter fun g => g.1 == h.1 && g.2.1 == h.2.1).length < 4)
    let need := if store && h.2.2.1 == .dir then !h.2.2.2.any (fun c => c.st == .d) else h.2.2.2.isNone && !asked && (!store || part)
    if need then some (h.1, h.2.1, h.2.2.1 == .dir) else none).eraseDups

/-- The lines of words that need a request, each with the core that makes it. -/
def needLines (ns : List (Nat × Nat × Bool)) : List (Nat × Nat) := (ns.map fun n => (n.1, n.2.1 / 16)).eraseDups

/-- The lines for which an access of core k needs a request (R193). -/
def State.newLines (s : State) (k : Nat) (store : Bool) (ps : List Place) : List (Nat × Nat) := needLines (s.needs k store ps)

/-- Entries that track line requests (R193). -/
def trackSize : Nat := 32

/-- Whether a core's tracking entries are too few for the requests of an access (R193). One that needs more than all of them issues when every entry is free (log entry 46). -/
def State.trackFull (s : State) (k : Nat) (store : Bool) (ps : List Place) : Bool :=
  let ls := s.newLines k store ps
  ls.any fun l =>
    let live := ((s.core l.1).track.filter fun e => decide (s.time < e.due)).length
    live != 0 && decide (trackSize < live + (ls.filter fun m => m.1 == l.1).length)

/-- Wait for the context's own pairs for the pages that an access touches (R219). -/
def waitPairs (ps : List Place) : X Unit := do
  let s ← getS
  waitUnless (!ps.any fun p => match p.pa? with
    | some pa => s.mustWait s.act s.actx.val pa
    | none => false)

/-- Wait for the pairs that an access must see (R219) and for free tracking entries (R193). -/
def waitFill (store : Bool) (ps : List Place) : X Unit := do
  waitPairs ps
  let s ← getS
  waitUnless (!s.trackFull s.act store ps)

/-- A store waits until an earlier LDNM of the context has been performed (R199). -/
def waitNode : X Unit := do
  let t ← cx
  waitUnless (!t.ldnm)

/-- Whether a place lies in the 64-byte node that begins at another. -/
def inNode (node p : Place) : Bool := match node.loc, p.loc with
  | .spad j o, .spad k i => j == k && decide (o ≤ i) && decide (i < o + 64)
  | .mem a, .mem b => decide (a ≤ b) && decide (b < a + 64)
  | _, _ => false

/-- Whether a context has an LDNM whose node is not read yet and holds one of the places. -/
def State.nodeAhead (s : State) (k x : Nat) (ps : List Place) : Bool :=
  (s.cluster (clusterOf k)).yreq.any fun q => q.part.core == k && q.part.ctx == x && ps.any (inNode q.node)

/-- The waits of a load: the Yard reads the node of an earlier LDNM of the context first, so that two loads of one word keep their order (R196); the model performs every other load at its
issue (log entry 5). -/
def waitLoad (ps : List Place) : X Unit := do
  let s ← getS
  waitUnless (!s.nodeAhead s.act s.actx.val ps)
  waitFill false ps

/-- The waits of a store. -/
def waitStore (ps : List Place) : X Unit := do
  waitNode
  waitFill true ps

/-! ## Fills and ownership (R176, R178, R179, R193) -/

/-- A request of core k for words of a line is outstanding for n ticks, or from when an earlier one for the line returns (R193). -/
def State.request (s : State) (k line : Nat) (mask : BitVec 16) (n : Nat) : State :=
  s.modCore k fun c =>
    let live := c.track.filter fun e => decide (s.time < e.due)
    let from_ := live.foldl (fun t e => if e.line = line then max t e.due else t) s.time
    { c with track := live ++ [⟨line, mask, from_ + n⟩] }

/-- A core never holds a word in two places (R176): before a word that is I where it is accessed is filled or stored there, its copies in the L1 and in every window leave, D written back
first. Which copy leaves where the L1 path and a window, or two windows, name one word through different virtual addresses is not said (DESIGN CHOICE, log entry 7). -/
def State.onlyHere (s : State) (k w : Nat) : State :=
  if (s.core k).copies.any fun y => y.w == w && y.held then s.dropCopies k fun y => y.w == w else s

/-- The requests for words that need one: one for each line (R178, R193). -/
def State.requestAll (s : State) (ns : List (Nat × Nat × Bool)) : State :=
  (needLines ns).foldl (fun s l =>
    let here := ns.filter fun n => n.1 == l.1 && n.2.1 / 16 == l.2
    s.request l.1 l.2 (here.foldl (fun m n => m ||| BitVec.ofNat 16 (2 ^ (n.2.1 % 16))) 0) (here.foldl (fun t n => max t (s.homeLatency l.1 (4 * n.2.1) n.2.2)) 0)) s

/-- The mask of the words of a line that satisfy a test. -/
def maskOf (p : Nat → Bool) : BitVec 16 := (List.range 16).foldl (fun m i => if p i then m ||| BitVec.ofNat 16 (2 ^ i) else m) 0

/-- One word that a fill returns to core k: its place in the directory and the Shroud, and its value (R177, R179, R185); none where it is poisoned (R479). -/
def State.fillWord (s : State) (k w : Nat) (attr : Attr) : Option Copy × State :=
  let s := if attr = .dir then s.recall (some k) w else s
  if s.poisonedFor k w then (none, s)
  else
    let s := (s.shroudAdd k w).dirShared w
    (some ⟨w, .v (s.core k).ep, s.word w, attr⟩, s)

/-- Fill the invalid words of a line in the L1 of a core (R178, R179); poisoned words stay I. -/
def State.fillL1 (s : State) (k line : Nat) (attr : Attr) : State :=
  let n := s.homeLatency k (64 * line) (attr == .dir)
  let s := (s.touch (64 * line)).l1Use k line
  let inv : Nat → Bool := fun i => match sget (s.core k).l1 (16 * line + i) with
    | some y => !(y.valid (s.core k).ep || y.uPart?.isSome)
    | none => true
  let s := s.request k line (maskOf inv) n
  ((List.range 16).filter inv).foldl (fun s i =>
    let w := 16 * line + i
    match (s.onlyHere k w).fillWord k w attr with
    | (some y, s) => s.modCore k fun c => { c with l1 := sset c.l1 w y }
    | (none, s) => s.modCore k fun c => { c with l1 := sdel c.l1 w }) s

/-- Set or remove a word of a window. -/
def Core.putWin (c : Core) (wi i : Nat) (o : Option Copy) : Core :=
  match c.wins[Fin.ofNat 8 wi] with
  | some w => { c with wins := c.wins.set (Fin.ofNat 8 wi) (some { w with words := match o with
      | some y => sset w.words i y
      | none => sdel w.words i }) }
  | none => c

/-- The copy of a word in a window. -/
def Core.winCopy (c : Core) (wi off : Nat) : Option Copy := (c.wins[Fin.ofNat 8 wi]).bind fun w => sget w.words (off / 4)

/-- The local scratchpad word behind a word of a window (R186). -/
def Core.winSlot (c : Core) (wi i : Nat) : Nat := ((c.wins[Fin.ofNat 8 wi]).map fun w => w.base / 4 + i).getD i

/-- Whether an error has hit the scratchpad word that holds a window's word (R481). -/
def Core.winBad (c : Core) (wi i : Nat) : Bool := c.spoison.contains (c.winSlot wi i)

/-- The scratchpad word behind a window's word is written whole (R479). -/
def Core.cleanWin (c : Core) (wi i : Nat) : Core := { c with spoison := c.spoison.erase (c.winSlot wi i) }

/-- Fill the invalid words of a line of a window, whose words lie from physical address pa on (R187). -/
def State.fillWin (s : State) (j wi off pa : Nat) (attr : Attr) : State :=
  let n := s.homeLatency j pa (attr == .dir)
  let s := s.touch pa
  let inv : Nat → Bool := fun i => !((s.core j).winCopy wi (off / 64 * 64 + 4 * i)).any (Copy.valid (s.core j).ep)
  let s := s.request j (pa / 64) (maskOf inv) n
  ((List.range 16).filter inv).foldl (fun s i =>
    let w := pa / 64 * 16 + i
    match (s.onlyHere j w).fillWord j w attr with
    | (o, s) => s.modCore j fun c => (c.putWin wi (off / 64 * 16 + i) o).cleanWin wi (off / 64 * 16 + i)) s

/-- Byte i of a number. -/
def byteN (x i : Nat) : Nat := x / 256 ^ i % 256
/-- A number with byte i replaced. -/
def setByteN (x i b : Nat) : Nat := x - byteN x i * 256 ^ i + b % 256 * 256 ^ i

/-- The value that a valid copy gives a byte. -/
def hitByte (ep : Nat) (o : Option Copy) (i : Nat) : Option Nat := (o.filter (Copy.valid ep)).map fun y => byteN y.x i

/-- Core k has taken part in the SI window of another core: the word is written back with the core's own (R203, R206). -/
def State.noteAway (s : State) (k j w : Nat) (attr : Attr) : State :=
  if attr = .si ∧ !(s.core k).away.contains (j, w) then s.modCore k fun c => { c with away := (j, w) :: c.away } else s

/-- Load one byte from its place, for core k: the byte and whether it is poisoned. -/
def State.loadByte (s : State) (k : Nat) : Place → (Nat × Bool) × State
  | .spad j off => (((s.core j).spad.read off |>.toNat, (s.core j).spoison.contains (off / 4)), s)
  | .phys pa .uc =>
    let (b, s) := s.homeRead pa 1
    ((b, s.poisonedFor k (pa / 4)), s)
  | .phys pa attr =>
    let hit := fun (s : State) => hitByte (s.core k).ep (sget (s.core k).l1 (pa / 4)) (pa % 4)
    match hit s with
    | some b => ((b, false), s.l1Use k (pa / 64))
    | none =>
      let s := s.fillL1 k (pa / 64) attr
      (((hit s).getD 0, (hit s).isNone), s)
  | .win j wi off pa attr =>
    let hit := fun (s : State) => hitByte (s.core j).ep ((s.core j).winCopy wi off) (off % 4)
    match hit s with
    | some b => ((b, (s.core j).winBad wi (off / 4)), if j ≠ k ∧ (((s.core j).winCopy wi off).any fun y => y.st == .d) then s.noteAway k j (pa / 4) attr else s)
    | none =>
      let s := s.fillWin j wi off pa attr
      (((hit s).getD 0, (hit s).isNone), s)

/-- Load the bytes of a list of places, least significant first (R2). -/
def State.loadPlaces (s : State) (k : Nat) : List Place → (Nat × Bool) × State
  | [] => ((0, false), s)
  | p :: t =>
    let ((b, bad), s) := s.loadByte k p
    let ((x, bad2), s) := s.loadPlaces k t
    ((b + 256 * x, bad || bad2), s)

/-- Whether a store to a word that the storing core does not hold is performed at the home, with no copy: a part of a word that is poisoned, which stays poisoned (R479); a word of a page
that an apply has left Pending, of which no line is granted (R228; the entries of the page stay: DESIGN CHOICE, log entry 34); or a word whose home cannot be reached (R478). -/
def State.storesHome (s : State) (j w : Nat) (whole : Bool) : Bool :=
  !whole && s.rawPoison w || (sget s.bins (pageOf (4 * w))).isSome || s.cutOff j (4 * w)

/-- Core j becomes able to store to a word: under DIR it gets ownership, the word leaves every other holder, and a D value that the store does not cover whole is written back first;
an I word is filled first unless it is stored whole (R178, R179). The D copy that the store then changes; none where the store is performed at the home. -/
def State.ownWord (s : State) (j w : Nat) (attr : Attr) (whole : Bool) (o : Option Copy) : Option Copy × State :=
  match o.filter (Copy.valid (s.core j).ep) with
  | some y =>
    if attr = .dir ∧ y.st ≠ .d then
      let s := (s.touch (4 * w)).invalidate (some j) whole w
      (some { y with st := .d }, s.dirOwn w j)
    else (some { y with st := .d }, s)
  | none =>
    if attr = .dir then
      let s := (s.touch (4 * w)).invalidate (some j) whole w
      if s.storesHome j w whole then (none, s.dirFree w)
      else
        let s := (s.shroudAdd j w).dirOwn w j
        (some ⟨w, .d, s.word w, attr⟩, s)
    else if whole then (some ⟨w, .d, 0, attr⟩, s)
    else
      let s := s.touch (4 * w)
      if s.storesHome j w false then (none, s)
      else
        let s := (s.shroudAdd j w).dirShared w
        (some ⟨w, .d, s.word w, attr⟩, s)

/-- What a store by core k does at the first byte of it in a word, before any byte is written: the write-backs that come before it (R197), and its word in D. -/
def State.prepStore (s : State) (k : Nat) (whole : Bool) : Place → State
  | .spad j _ => if j = k then s else s.siFlush k
  | .phys pa .uc => (s.siFlush k).touch pa
  | .phys pa attr =>
    let s := if attr = .dir then s.siFlush k else s
    let s := if (sget (s.core k).l1 (pa / 4)).any (Copy.valid (s.core k).ep) then s else s.onlyHere k (pa / 4)
    let s := s.l1Use k (pa / 64)
    let (o, s) := s.ownWord k (pa / 4) attr whole (sget (s.core k).l1 (pa / 4))
    s.modCore k fun c => { c with l1 := match o with
      | some y => sset c.l1 (pa / 4) y
      | none => sdel c.l1 (pa / 4) }
  | .win j wi off pa attr =>
    let s := if attr = .dir ∨ j ≠ k then s.siFlush k else s
    let s := if ((s.core j).winCopy wi off).any (Copy.valid (s.core j).ep) then s else s.onlyHere j (pa / 4)
    let (o, s) := s.ownWord j (pa / 4) attr whole ((s.core j).winCopy wi off)
    let s := s.modCore j fun c => c.putWin wi (off / 4) o
    if j = k then s else s.noteAway k j (pa / 4) attr

/-- Prepare the words of a store; `first`: the byte is the first of the store. -/
def State.prepPlaces (s : State) (k : Nat) (first : Bool) : List Place → State
  | [] => s
  | p :: t =>
    let off := match p with
      | .spad _ off => off
      | .win _ _ _ pa _ => pa
      | .phys pa _ => pa
    (if first ∨ off % 4 = 0 then s.prepStore k (decide (off % 4 = 0) && decide (3 ≤ t.length)) p else s).prepPlaces k false t

/-- Write one byte of physical memory at its home, for core k, where it can be reached; a write that cannot be is dropped (R478, R489, R500). -/
def State.homeByte (s : State) (k pa b : Nat) : State :=
  if s.cutOff k pa || s.unreachable pa then s else { s with mem := s.mem.write pa (BitVec.ofNat 8 b) }

/-- Write one byte at its place, whose word is prepared. -/
def State.storeByte (s : State) (k : Nat) (b : Nat) : Place → State
  | .spad j off => s.modCore j fun c => { c with spad := c.spad.write off (BitVec.ofNat 8 b) }
  | .phys pa .uc => s.homeByte k pa b
  | .phys pa _ => match sget (s.core k).l1 (pa / 4) with
    | some y => s.modCore k fun c => { c with l1 := sset c.l1 (pa / 4) { y with x := setByteN y.x (pa % 4) b } }
    | none => s.homeByte k pa b
  | .win j wi off pa _ => match (s.core j).winCopy wi off with
    | some y => s.modCore j fun c => c.putWin wi (off / 4) (some { y with x := setByteN y.x (off % 4) b })
    | none => s.homeByte j pa b

/-- Write the low bytes of a number at a list of places, in ascending order. -/
def State.writePlaces (s : State) (k : Nat) : List Place → Nat → State
  | [], _ => s
  | p :: t, x => (s.storeByte k (x % 256) p).writePlaces k t (x / 256)

/-- Store the low bytes of a number at a list of places, for core k (R179, R193, R197). -/
def State.storePlaces (s : State) (k : Nat) (ps : List Place) (x : Nat) : State :=
  let ns := s.needs k true ps
  ((s.requestAll ns).prepPlaces k true ps).writePlaces k ps x

/-- Clear the poison of words stored whole by core k (R479): four bytes in a row from a word boundary. -/
def State.clearStored (s : State) (k : Nat) : List Place → State
  | [] => s
  | p :: t =>
    let s := match p with
      | .spad j off => if off % 4 = 0 ∧ 3 ≤ t.length ∧ (s.core j).spoison.contains (off / 4) then
          s.modCore j fun c => { c with spoison := c.spoison.erase (off / 4) } else s
      | .phys pa _ => if pa % 4 = 0 ∧ 3 ≤ t.length ∧ !s.cutOff k pa then { s with poison := s.poison.erase (pa / 4) } else s
      | .win j wi off pa _ => if pa % 4 = 0 ∧ 3 ≤ t.length ∧ !s.cutOff j pa then
          { s with poison := s.poison.erase (pa / 4) }.modCore j fun c => c.cleanWin wi (off / 4) else s
    s.clearStored k t

/-! ## Buffered stream elements (R218, R324) -/

/-- The byte that a store of x puts at a location, where it stores there. -/
def byteAt (l : Loc) : List Loc → Nat → Option Nat
  | [], _ => none
  | m :: t, x => if l = m then some (x % 256) else byteAt l t (x / 256)

/-- A number with every byte replaced that a store puts at its location. -/
def patchBytes (ls : List Loc) (x : Nat) : List Loc → Nat → Nat → Nat
  | [], _, y => y
  | l :: t, i, y => patchBytes ls x t (i + 1) (match byteAt l ls x with
    | some b => setByteN y i b
    | none => y)

/-- Bytes of a stream element replaced by a store of x at locations (R324). -/
def patchElem (ls : List Loc) (x : Nat) (e : Elem) : Elem :=
  { e with x := patchBytes ls x (e.at_.take e.n) 0 e.x, y := patchBytes ls x (e.at_.drop e.n) 0 e.y }

/-- Whether any slot of a core has elements fetched. -/
def Core.buffers (c : Core) : Bool := c.ctxs.toList.any fun t => t.slots.toList.any fun sl => !sl.buf.isEmpty

/-- A store by any context of a core updates the stream buffers of the core, whatever address named the bytes (R324). -/
def State.patchStreams (s : State) (k : Nat) (ls : List Loc) (x : Nat) : State :=
  if (s.core k).buffers then
    s.modCore k fun c => { c with ctxs := c.ctxs |> vmap fun t =>
      { t with slots := t.slots |> vmap fun sl => { sl with buf := sl.buf.map (patchElem ls x) } } }
  else s

/-- The elements of a buffer before the first that holds a byte at a location of a kind. -/
def cutAt (hit : Loc → Bool) (buf : List Elem) : List Elem := buf.takeWhile fun e => !(e.at_.any hit)

/-- Elements that hold a byte at a location of a kind, and those behind them, leave the buffers of core k, and their refills start again (R218, R219). -/
def State.cutStreams (s : State) (k : Nat) (hit : Loc → Bool) : State :=
  if (s.core k).buffers then
    (List.finRange 11).foldl (fun (s : State) (x : Fin 11) => (List.finRange 8).foldl (fun (s : State) (i : Fin 8) =>
      let sl := (s.ctx k x).slots[i]
      let buf := cutAt hit sl.buf
      if buf.length = sl.buf.length then s
      else (s.modCtx k x fun t => { t with slots := t.slots.set i { sl with buf := buf } }).refillIn 0 k x i) s) s
  else s

/-- Load n bytes at checked places for the issuing core: the number, and whether any byte is poisoned. -/
def loadP (ps : List Place) : X (Nat × Bool) := runS fun s => s.loadPlaces s.act ps

/-- Store the low bytes of a number at checked places for the issuing core. -/
def storeP (ps : List Place) (x : Nat) : X Unit :=
  modS fun s => ((s.storePlaces s.act ps x).clearStored s.act ps).patchStreams s.act (ps.map Place.loc) x

/-! ## Release and acquire (R202 to R207) -/

/-- A release by the issuing context (R203): waits for its loads and its update pairs, then writes back SI words. It does not wait for a deferred LDF, which R209 says has returned nothing
and is answered later, as an acquire of its own: R203 does not say whether such an LDF counts as an earlier load (DESIGN CHOICE, log entry 5). -/
def release (sc : Scope) : X Unit := do
  let s ← getS
  let t ← cx
  waitUnless (!t.ldnm && !s.pairsOut s.act s.actx.val)
  if sc.wide then modS fun s => s.siFlush s.act else pure ()

/-- The refill of every open input stream of a context starts again (R324). -/
def dropBuffers (c : Ctx) : Ctx := { c with slots := c.slots |> vmap fun sl => { sl with buf := [] } }

/-- An acquire by a context (R204): the epoch step beyond CORE, and stream buffers discarded (R324). -/
def State.acquire (s : State) (k : Nat) (x : Fin 11) (wide : Bool) : State :=
  let s := if wide then s.epochStep k else s
  if (s.ctx k x).slots.toList.any fun sl => !sl.buf.isEmpty then
    let s := s.modCtx k x dropBuffers
    (List.range 8).foldl (fun s i => if (s.ctx k x).slots[Fin.ofNat 8 i].used then s.refillIn 0 k x (Fin.ofNat 8 i) else s) s
  else s

/-- An acquire by the issuing context. -/
def acquire (sc : Scope) : X Unit := modS fun s => s.acquire s.act s.actx sc.wide

/-! ## Future words (R183, R288, R289) -/

/-- Whether the empty bit of a doubleword is set. -/
def State.isEmpty (s : State) (pa : Nat) : Bool := s.fempty.contains pa

/-- Base of the image of context x (R97). -/
def Core.imageAt (c : Core) (x : Nat) : Nat := c.csap.toNat % 2 ^ 17 / 64 * 64 + 3456 * x

/-- A value written into a register field of the saved image of context x, and its bit set full (R73). A register that is shadowed goes to the shadow field (R86). A value for g62 meets no
check of the stack limits there: R76 checks every write of g62, and the spec does not say what a refused one does to an image (DESIGN CHOICE, log entry 53). -/
def Core.fillImage (c : Core) (x : Nat) (r : GReg) (y : Word) (old : Bool) : Core :=
  let b := c.imageAt x
  let shadowed := old && bit (w64 (c.spad.readN (b + 3232) 8)) 10 && decide (56 ≤ r.val) && decide (r.val < 62)
  if r = 0 then c
  else if shadowed then
    let c := { c with spad := c.spad.writeN (b + 3344 + 8 * (r.val - 56)) 8 y.toNat }
    c.setCtx (cix x) { c.ctx (cix x) with shadowf := (c.ctx (cix x)).shadowf ||| BitVec.ofNat 6 (2 ^ (r.val - 56)) }
  else
    let m := c.spad.writeN (b + 8 * r.val) 8 y.toNat
    let fb := m.readN (b + 3328 + r.val / 8) 1
    { c with spad := m.writeN (b + 3328 + r.val / 8) 1 (fb ||| 2 ^ (r.val % 8)) }

/-- A WFI that a context waits in ends (R416). -/
def Ctx.endWfi (c : Ctx) : Ctx := if c.prog = .wfi then { c with prog := .done } else c

/-- One waiter of a word answered (R288, R73): its registers get the value and status 0, as a producer that completes next, or in the saved image, where a WFI of the handler that runs
ends (R416). Where the answer is poisoned, it sets neither full and makes fault 0x0C pending (R474). -/
def State.answerOne (s : State) (k : Nat) (x : Word) (l : Ldf) : State :=
  let s := s.modCore k fun c => { c with ldfs := c.ldfs.erase l }
  let bad : Option (Word × Word) := if s.poisonedFor k (l.pa / 4) || s.poisonedFor k (l.pa / 4 + 1) then some (memDetail 8 0 0 2, l.va) else none
  if l.saved then
    match bad with
    | some f => s.modCtx k (cix l.ctx) fun c => { c with poisonQ := c.poisonQ ++ [f] }.endWfi
    | none => ((s.modCore k fun c => (c.fillImage l.ctx l.d x l.old).fillImage l.ctx l.c 0 l.old).modCtx k (cix l.ctx) Ctx.endWfi).acquire k (cix l.ctx) true
  else
    (s.modCtx k (cix l.ctx) fun c => { c with prods := c.prods ++ [⟨[.g l.d x, .g l.c 0], 0, bad, l.old, true, s.time + 220, none, false, none⟩] }).postMore
      ⟨.ldfDeferredAnswer, [k, l.ctx]⟩

/-- A waiter put into a list in the order in which the home recorded them. -/
def byRecord (e : Nat × Ldf) : List (Nat × Ldf) → List (Nat × Ldf)
  | [] => [e]
  | f :: t => if e.2.at_ < f.2.at_ then e :: f :: t else f :: byRecord e t

/-- The waiters of a word with their cores, in the order in which the home recorded them (R288). -/
def State.waiters (s : State) (pa : Nat) : List (Nat × Ldf) :=
  (s.cores.flatMap fun e => (e.2.ldfs.filter (·.pa == pa)).map fun l => (e.1, l)).foldl (fun r e => byRecord e r) []

/-- The waiters of a word answered (R288). -/
def State.answer (s : State) (pa : Nat) (x : Word) : State := (s.waiters pa).foldl (fun s e => s.answerOne e.1 x e.2) s

/-- The cores through whose holders an access of core k goes: its own, and the owner of a window (R187). -/
def holdersOf (k : Nat) (ps : List Place) : List Nat := (k :: ps.filterMap fun p => match p with
  | .win j _ _ _ _ => some j
  | _ => none).eraseDups

/-- n bytes read at their home for a synchronisation operation of core k: the copies of the holders that the access goes through, and every DIR copy, are written back and go to I (R179,
R183, R290). -/
def State.syncRead (s : State) (k : Nat) (ps : List Place) (pa n : Nat) : Nat × State :=
  let s := (holdersOf k ps).foldl (fun s j => s.dropAt j pa n) (s.touchAll pa n)
  let s := s.homeInvalidate none pa 0 (pa / 4) (spanWords pa n)
  (s.mem.readN pa n, s)

/-- Fill a word as STF does (R289): write it, set it full, answer its waiters. -/
def State.fillFuture (s : State) (pa : Nat) (x : Word) : State :=
  let s := s.homeWrite pa 8 x.toNat
  { s with fempty := s.fempty.erase pa }.answer pa x

/-- Clear a word as CLRF does (R289). -/
def State.clearFuture (s : State) (pa : Nat) : State :=
  let s := (s.touch pa).homeInvalidate none pa 0 (pa / 4) 2
  if s.fempty.contains pa then s else { s with fempty := pa :: s.fempty }

end Sys2Proof.Machine
end

