-- ==== Sys2Proof/Machine/Operands.lean ====
section
/-!
DEFINITION. Operands: reading and writing general, vector, mask and tile registers with their full bits and T bits (R66 to R73), registers in
stream mode (R322 to R324), long-latency producers (R70), the stack rule of g62 (R76).
-/

namespace Sys2Proof.Machine

/-! ## Registers of a context -/

/-- Write a general register; g0 discards (R67). -/
def Ctx.setG (c : Ctx) (r : GReg) (x : Word) : Ctx := if r = 0 then c else { c with g := c.g.set r x }
/-- The value of a general register that is not in stream mode; g0 reads 0 (R67). -/
def Ctx.getG (c : Ctx) (r : GReg) : Word := if r = 0 then 0 else c.g[r]
/-- Write a vector register. -/
def Ctx.setV (c : Ctx) (r : VReg) (x : VWord) : Ctx := { c with v := c.v.set r x }
/-- The value of a vector register that is not in stream mode. -/
def Ctx.getV (c : Ctx) (r : VReg) : VWord := c.v[r]
/-- A mask operand (R105). -/
def Ctx.getM (c : Ctx) : MOpd → Mask
  | .m i => c.m[i]
  | .p i => c.p[i]
/-- Write a mask operand as it stands. -/
def Ctx.putM (c : Ctx) (o : MOpd) (x : Mask) : Ctx :=
  match o with
  | .m i => { c with m := c.m.set i x }
  | .p i => { c with p := c.p.set i x }

/-- A word with bit i set or cleared. -/
def setBit {w : Nat} (x : BitVec w) (i : Nat) (b : Bool) : BitVec w :=
  if b then x ||| BitVec.ofNat w (2 ^ i) else x &&& ~~~(BitVec.ofNat w (2 ^ i))

/-- Full bit of a general register; g0 is always full (R67). -/
def Ctx.gFull (c : Ctx) (r : GReg) : Bool := decide (r = 0) || c.gf.getLsbD r.val
/-- Full bit of a vector register. -/
def Ctx.vFull (c : Ctx) (r : VReg) : Bool := c.vf.getLsbD r.val
/-- Set the full bit of a general register. -/
def Ctx.markG (c : Ctx) (r : GReg) (b : Bool) : Ctx := if r = 0 then c else { c with gf := setBit c.gf r.val b }
/-- Set the full bit of a vector register. -/
def Ctx.markV (c : Ctx) (r : VReg) (b : Bool) : Ctx := { c with vf := setBit c.vf r.val b }

/-- low_bits(n) (R42). -/
def lowBits (w n : Nat) : BitVec w := BitVec.ofNat w (2 ^ n - 1)

/-! ## Streams (R317 to R324) -/

/-- The slot in which a general register is open (R87). -/
def Ctx.slotG (c : Ctx) (r : GReg) : Option (Fin 8) :=
  if 32 ≤ r.val ∧ r.val < 48 then
    (List.finRange 8).find? fun i => c.slots[i].used && !c.slots[i].vec && c.slots[i].idx == BitVec.ofNat 4 (r.val - 32)
  else none
/-- The slot in which a vector register is open (R87). -/
def Ctx.slotV (c : Ctx) (r : VReg) : Option (Fin 8) :=
  if 8 ≤ r.val then (List.finRange 8).find? fun i => c.slots[i].used && c.slots[i].vec && c.slots[i].idx == BitVec.ofNat 4 (r.val - 8)
  else none

/-! ## Reading registers -/

/-- A register named by a field. -/
inductive Ref where
  | g (r : GReg)
  | v (r : VReg)
  | z (r : ZReg)
  deriving DecidableEq, Repr

/-- A register that an instruction needs full: the field of R450 (0 to 3 for A, B, C, E; 7 for D), or 8 for a destination that is only written, and its T bit. -/
structure Opnd where
  ref : Ref
  field : Nat
  t : Bool
  deriving DecidableEq, Repr

end Sys2Proof.Machine

namespace Sys2Proof

/-- A g source. -/
def GSrc.op (a : GSrc) (f : Nat) : Machine.Opnd := ⟨.g a.r, f, a.t⟩
/-- A v source. -/
def VSrc.op (a : VSrc) (f : Nat) : Machine.Opnd := ⟨.v a.r, f, a.t⟩
/-- A z source. -/
def ZSrc.op (a : ZSrc) (f : Nat) : Machine.Opnd := ⟨.z a.r, f, a.t⟩

end Sys2Proof

namespace Sys2Proof.Machine

/-- A g register that is written. -/
def dG (r : GReg) : Opnd := ⟨.g r, 8, false⟩
/-- A v register that is written. -/
def dV (r : VReg) : Opnd := ⟨.v r, 8, false⟩
/-- A g register that is read through D. -/
def sG (r : GReg) : Opnd := ⟨.g r, 7, false⟩
/-- A v register that is read through D. -/
def sV (r : VReg) : Opnd := ⟨.v r, 7, false⟩
/-- A v register that is written, and read through D where the form keeps elements of it (R333, R334). -/
def mV (r : VReg) (reads : Bool) : Opnd := if reads then sV r else dV r
/-- A tile written. -/
def dZ (r : ZReg) : Opnd := ⟨.z r, 7, false⟩

/-- Whether a register reads as empty for a context (R70, R322). -/
def isEmptyRef (c : Core) (t : Ctx) : Ref → Bool
  | .g r => match t.slotG r with
    | some i => t.slots[i].isEmpty
    | none => !t.gFull r
  | .v r => match t.slotV r with
    | some i => t.slots[i].isEmpty
    | none => !t.vFull r
  | .z r => !c.tiles[r].full

/-- Class and number of a register in the detail word of an empty-operand trap (R450). -/
def Ref.code : Ref → Nat
  | .g r => r.val * 64
  | .v r => 16 + r.val * 64
  | .z r => 32 + r.val * 64

/-- The slot of a register in stream mode. -/
def Ctx.slotOf (t : Ctx) : Ref → Option (Fin 8)
  | .g r => t.slotG r
  | .v r => t.slotV r
  | .z _ => none

/-- The operand of the lowest field (R450). -/
def lowestField : List Opnd → Option Opnd
  | [] => none
  | o :: t => match lowestField t with
    | some p => some (if p.field < o.field then p else o)
    | none => some o

/-- The refill of a slot of the issuing context starts again (R323). -/
def State.askRefill (s : State) (i : Fin 8) : State := s.refillIn 0 s.act s.actx i

/-- An empty stream register that is waited for: the fault its refill would meet, or the refill again and a wait (R323). -/
def streamWait (i : Fin 8) : X Unit := do
  let s ← getS
  let sl := (s.ctx s.act s.actx).slots[i]
  let sl := (sl.adv sl.buf.length)
  let ps ← checkAll (sl.reqs false false)
  waitLoad ps.flatten
  let (_, bad) ← loadP ps.flatten
  if bad then trap 0x0C (memDetail sl.esize 0 0 4) sl.addr
  else do
    fun _ => .ok ((), s.askRefill i)
    waitKeep

/-- The operand checks of R71 and R72: an empty register named with T = 0 or written holds the context; otherwise the empty operand of the lowest field
traps, and the refill of an empty stream starts again (R323). An empty input stream that is only written holds the context too (R72), and no fault of its refill is raised there, because
the instruction does not pop it (R323, R458). -/
def ready (os : List Opnd) : X Unit := do
  let c ← co
  let t ← cx
  let em := os.filter fun o => isEmptyRef c t o.ref
  match em.filter (!·.t) with
  | o :: _ => match t.slotOf o.ref with
    | some i =>
      if o.field = 8 then do
        modS (·.askRefill i)
        waitKeep
      else streamWait i
    | none => wait
  | [] => match lowestField em with
    | some o =>
      let e : Trap := ⟨0x10, w64 (o.field + o.ref.code), 0, false⟩
      match t.slotOf o.ref with
      | some i => fun s => .error (.trapKeep (s.askRefill i) e)
      | none => stop (.trap e)
    | none => pure ()

/-- The value of a g operand; a stream register is read without being popped. -/
def Ctx.readG (t : Ctx) (r : GReg) : Word := match t.slotG r with
  | some i => t.slots[i].readG
  | none => t.getG r
/-- The value of a v operand. -/
def Ctx.readV (t : Ctx) (r : VReg) : VWord := match t.slotV r with
  | some i => t.slots[i].readV
  | none => t.getV r

/-- Read a g operand. -/
def rdG (r : GReg) : X Word := fun s => .ok ((s.ctx s.act s.actx).readG r, s)
/-- Read a v operand. -/
def rdV (r : VReg) : X VWord := fun s => .ok ((s.ctx s.act s.actx).readV r, s)

/-- The range-lock entry that the bytes of a stream element meet: its data, then its value (R214, R323). -/
def Core.elemLock (c : Core) (k : Nat) (e : Elem) : Option (Lock × Nat) :=
  match c.lockOn k e.a e.n false with
  | some h => some h
  | none => e.va.bind fun va => c.lockOn k va 4 false

/-- The range-lock check of the elements that an instruction pops when it reads a register (R323). -/
def popLock (r : Ref) : X Unit := do
  let s ← getS
  let t := s.ctx s.act s.actx
  match t.slotOf r with
  | none => pure ()
  | some i =>
    let sl := t.slots[i]
    if sl.out || sl.left == 0 then pure ()
    else match (sl.buf.take sl.strip).findSome? ((s.core s.act).elemLock s.act) with
      | some (l, b) => stop (.trap (lockTrap l b false))
      | none => pure ()

/-- The range-lock checks of every stream that the sources name. They come after the checks of the instruction's accesses and of what it writes, and before its update-region fault (R451). -/
def popLocks (rs : List Ref) : X Unit := rs.forM popLock

/-- Pop the stream of a register that an instruction reads, its range-lock check made (R322). -/
def popFree (r : Ref) : X Unit := do
  let t ← cx
  match t.slotOf r with
  | none => pure ()
  | some i =>
    if t.slots[i].out || t.slots[i].left == 0 then pure ()
    else do
      modCx fun t => { t with slots := t.slots.set i t.slots[i].popped }
      modS (·.askRefill i)

/-- Pop the stream of a register that an instruction reads (R322). -/
def popOne (r : Ref) : X Unit := do
  popLock r
  popFree r

/-- Pop every stream that the sources name, once each (R322). A meaning pops last, so that every other fault of the instruction comes first (R451). -/
def pops (rs : List Ref) : X Unit := rs.eraseDups.forM popOne

/-! ## Writing registers -/

/-- One checked element stored at the position of an output stream, which advances (R322). -/
def putElem (i : Fin 8) (ps : List (List Place)) (x : Word) : X Unit := do
  match ps with
  | [p] => storeP p x.toNat
  | [p, q] => do
    storeP p (x.toNat % 2 ^ 32)
    storeP q (x.toNat / 2 ^ 32)
  | _ => pure ()
  modCx fun t => { t with slots := t.slots.set i (t.slots[i].adv 1) }

/-- Push elements to an output stream (R322): stores at the next positions, all checked before the first is performed (R280); those past its end are discarded. -/
def pushElems (i : Fin 8) (xs : List Word) : X Unit := do
  let t ← cx
  let sl := t.slots[i]
  let xs := xs.take sl.left
  let m := (sl.reqs true true).length
  if xs.isEmpty then pure ()
  else do
    let ps ← checkAll (xs.zipIdx.flatMap fun e => (sl.adv e.2).reqs true true)
    waitStore ps.flatten
    (xs.zipIdx).forM fun e => putElem i ((ps.drop (m * e.2)).take m) e.1

/-- Push one element to an output stream (R322). -/
def pushElem (i : Fin 8) (x : Word) : X Unit := pushElems i [x]

/-- Lane j of a vector of 32-bit lanes. -/
def lane32 (x : VWord) (j : Nat) : Nat := bits x.toNat (32 * j) 32

/-- A write of g62 must stay within [SSL, SSB] (R76). -/
def Ctx.stackBad (t : Ctx) (r : GReg) (x : Word) : Bool := r == 62 && (decide (x.toNat < t.ssl.toNat) || decide (t.ssb.toNat < x.toNat))

/-- Write a g register (R67, R76, R322). -/
def wrG (r : GReg) (x : Word) : X Unit := do
  let t ← cx
  match t.slotG r with
  | some i => if t.slots[i].out then pushElem i x else pure ()
  | none => if t.stackBad r x then trap 0x0B (memDetail 1 0 0 0) x else modCx (·.setG r x)

/-- Write a v register (R322). -/
def wrV (r : VReg) (x : VWord) : X Unit := do
  let t ← cx
  match t.slotV r with
  | some i => if t.slots[i].out then pushElems i ((List.range 32).map fun j => w64 (lane32 x j)) else pure ()
  | none => modCx (·.setV r x)

/-- Write a mask operand: bits COUNT and up are cleared where the rule says so while the context is bound (R43, R303). -/
def Ctx.writeM (c : Ctx) (trim : Bool) (o : MOpd) (x : Mask) : Ctx :=
  c.putM o (if c.qgd ≠ 0 ∧ (trim ∨ o = .m 0) then x &&& lowBits 256 c.qcount else x)

/-- Flags of a result that is available at a TIME, when they are ORed into FFLAGS (R85, R335). -/
def Ctx.orFlags (c : Ctx) (due : Nat) (f : Flags) : Ctx := if f = 0 then c else { c with flagsAt := c.flagsAt ++ [(due, f)] }

/-- FFLAGS as an instruction reads it at a TIME: the flags of every result available by then are in it. -/
def Ctx.flagsNow (c : Ctx) (t : Nat) : Word := c.fflags ||| (c.flagsAt.foldl (fun (f : Flags) e => if e.1 ≤ t then f ||| e.2 else f) 0).setWidth 64

/-- FFLAGS written at a TIME: the flags of results available from then on are still to be ORed in (R85). -/
def Ctx.putFlags (c : Ctx) (t : Nat) (y : Word) : Ctx := { c with fflags := y, flagsAt := c.flagsAt.filter fun e => decide (t ≤ e.1) }

/-- The flags of results on their way to the issuing context are in FFLAGS after n ticks. -/
def orFlagsIn (n : Nat) (f : Flags) : X Unit := modS fun s => s.modCtx s.act s.actx (·.orFlags (s.time + n) f)

/-- The flags of results on their way to the issuing context are in FFLAGS after n cycles. -/
def orFlags (n : Nat) (f : Flags) : X Unit := do
  let s ← getS
  orFlagsIn (s.cyc s.act n) f

/-- A destination whose result is late: not g0, on which nothing depends (R67), and no register in stream mode, which the result does not reach (R322). -/
def Ctx.lateDest (t : Ctx) : RegName → Bool
  | .g r => decide (r ≠ 0) && (t.slotG r).isNone
  | .v r => (t.slotV r).isNone
  | .k _ => true

/-- The registers that an instruction has written at a TIME, each with the TIME from which an instruction that depends on the result may issue (R29): what was late before of them is no
longer waited for. -/
def Ctx.setLate (c : Ctx) (t : Nat) (ds : List (RegName × Nat)) : Ctx :=
  { c with late := (ds.filter fun d => decide (t < d.2) && c.lateDest d.1) ++ c.late.filter fun e => decide (t < e.2) && !ds.any fun d => d.1 == e.1 }

/-! ## Long-latency producers (R70) -/

/-- A destination of a producer that is written at once: g0, a register in stream mode. -/
def Ctx.atOnce (t : Ctx) : Dest → Bool
  | .g r _ => r == 0 || (t.slotG r).isSome
  | .v r _ => (t.slotV r).isSome

/-- Mark a destination empty. -/
def Ctx.markEmpty (t : Ctx) : Dest → Ctx
  | .g r _ => t.markG r false
  | .v r _ => t.markV r false

/-- Write a destination at once. -/
def wrDest : Dest → X Unit
  | .g r x => wrG r x
  | .v r x => wrV r x

/-- A long-latency producer (R70): its destinations are empty until its completion writes the values fixed here. A poisoned response carries the address of its access
(R453), and `peer` is the address of an access to a peer, whose completion may fail to come (R489). `ldf`: the ready answer of an LDF, whose completion is an acquire (R204). `lat`: ticks to
its completion. -/
def produceAs (lat : Nat) (ldf : Bool) (ds : List Dest) (fl : Flags) (poison peer : Option Word) : X Unit := do
  let t ← cx
  let st ← getS
  let (now, later) := ds.partition t.atOnce
  if poison.isNone then now.forM wrDest else pure ()
  match later.find? fun d => match d with
      | .g r x => poison.isNone && t.stackBad r x
      | .v _ _ => false with
  | some (.g _ x) => trap 0x0B (memDetail 1 0 0 0) x
  | _ => do
    let code := match ds.head? with
      | some (.g r _) => Ref.code (.g r)
      | some (.v r _) => Ref.code (.v r)
      | none => 0
    modCx fun t =>
      let t := later.foldl Ctx.markEmpty t
      let detail := w64 (7 + code + 2 ^ 12)
      { t with prods := t.prods ++ [⟨later, fl, poison.map fun a => (detail, a), false, ldf, st.time + lat, none, ldf, peer.map fun a => (detail, a, st.time)⟩] }
    modS fun s => s.postIn lat ⟨if ldf then .ldfDeferredAnswer else .producerComplete, [s.act, s.actx.val]⟩

/-- A long-latency producer that is no LDF and asks no peer. -/
def produce (lat : Nat) (ds : List Dest) (fl : Flags) (poison : Option Word) : X Unit := produceAs lat false ds fl poison none

/-- The address of an access that goes to a peer (R424). -/
def peerAddr (ps : List Place) (a : Word) : Option Word :=
  if ps.any fun p => (p.pa?.map fun x => decide (peerBase ≤ x) && decide (x < regBase)).getD false then some a else none

/-- Write one destination of a completed producer: g56 to g61 of a producer older than the active user-level entry go to the shadow (R86). -/
def Ctx.complete1 (old : Bool) (t : Ctx) : Dest → Ctx
  | .g r x =>
    if old && t.uiact && decide (56 ≤ r.val) && decide (r.val < 62) then
      { t with shadow := t.shadow.set (Fin.ofNat 6 (r.val - 56)) x, shadowf := setBit t.shadowf (r.val - 56) true }
    else (t.setG r x).markG r true
  | .v r x => (t.setV r x).markV r true

/-- A producer completes (R70, R453): its results, full bits and flags; or the poisoned-data fault it makes pending. -/
def Ctx.complete (t : Ctx) (p : Producer) : Ctx :=
  match p.poison with
  | some q => { t with poisonQ := t.poisonQ ++ [q] }
  | none => (p.dests.foldl (Ctx.complete1 p.old) t).orFlags p.due p.flags

/-! ## Common shapes -/

/-- Two g sources and a g destination. -/
def opGGG (d : GReg) (a b : GSrc) (f : Word → Word → Word) : X Unit := do
  ready [a.op 0, b.op 1, dG d]
  let x ← rdG a.r
  let y ← rdG b.r
  wrG d (f x y)
  pops [.g a.r, .g b.r]

/-- One g source and a g destination. -/
def opGG (d : GReg) (a : GSrc) (f : Word → Word) : X Unit := do
  ready [a.op 0, dG d]
  let x ← rdG a.r
  wrG d (f x)
  pops [.g a.r]

end Sys2Proof.Machine
end

