-- ==== Sys2Proof/Machine/Fetch.lean ====
section
/-!
DEFINITION. Instruction lines (R99 to R103), fetching a line (R108, R109, R114, R167, R171, R436), next_head (R88, R108), and the three
addresses that a context starts with.
-/

namespace Sys2Proof.Machine

/-! ## Lines -/

/-- Head i of a line image (R99). -/
def lineHead (img i : Nat) : Nat := bits img (16 * i) 16
/-- TL of head i (R100). -/
def lineTL (img i : Nat) : Nat := bits img (16 * i + 14) 2
/-- L of head i (R100). -/
def lineL (img i : Nat) : Bool := bits img (16 * i + 13) 1 == 1

/-- The lowest index from i on, of n, whose head has L = 1 (R101). -/
def lastFrom (img : Nat) : Nat → Nat → Option Nat
  | 0, _ => none
  | n + 1, i => if lineL img i then some i else lastFrom img n (i + 1)

/-- The sum of the TL fields of the first n heads (R101, R102). -/
def tailSum (img : Nat) : Nat → Nat
  | 0 => 0
  | n + 1 => tailSum img n + lineTL img n

/-- The last head of a well-formed line, or the kind of the line format fault (R101, R449). -/
def lineLast (img : Nat) : Except Nat Nat :=
  match lastFrom img 32 0 with
  | none => .error 0
  | some h =>
    let t := tailSum img (h + 1)
    if 32 < h + 1 + t then .error 1
    else if bits img (16 * (h + 1)) (16 * (31 - t - h)) ≠ 0 then .error 2
    else .ok h

/-- tail_of (R102). -/
def lineTail (img i : Nat) : Nat := bits img (512 - 16 * (tailSum img i + lineTL img i)) (16 * lineTL img i)

/-! ## Fetching -/

/-- Lines that the instruction cache of a core holds (R18). -/
def icacheSize : Nat := 512

/-- The D value of a word that a store of core k's contexts has left in its own holders, or in a window of another core (R114, R201). -/
def State.ownStore (s : State) (k w : Nat) : Option Nat :=
  let d : Copy → Bool := fun y => y.w == w && y.st == .d
  match (s.core k).copies.find? d with
  | some y => some y.x
  | none => (s.core k).away.findSome? fun a => if a.2 = w then ((s.core a.1).copies.find? d).map (·.x) else none

/-- A line as core k fetches it: what its home holds, with the words that its own contexts have stored and that are still D (R114). -/
def State.lineFor (s : State) (k line : Nat) : Nat × State :=
  let (img, s) := s.homeRead (64 * line) 64
  ((List.range 16).foldl (fun m i => match s.ownStore k (16 * line + i) with
    | some x => m - bits m (32 * i) 32 * 2 ^ (32 * i) + x % 2 ^ 32 * 2 ^ (32 * i)
    | none => m) img, s)

/-- The translation of a fetch by context x of core k: the fault that the walk for it has ended in, else what the TLBs or a walk give (R174, R175). -/
def State.transFetch (s : State) (k : Nat) (x : Fin 11) (a : Nat) : Except WalkErr Tlb × State :=
  match (s.ctx k x).walkEnd (s.ctx k x).asid a with
  | some (some e) => (.error e, s)
  | _ => s.translate k (s.ctx k x).asid a

/-- The image of the line at a head address, as context x of core k sees it, or the fault of the fetch (R108, R114, R419, R458). A line once fetched stays in the instruction cache of
the core until FENCE.INSN, or until newer lines have filled the cache (log entry 7). A line that is not there delays the next issue of the context by the latency of R29 for it (R436). -/
def State.fetchLine (s : State) (k : Nat) (x : Fin 11) (a : Nat) : Except Trap Nat × State :=
  let c := s.ctx k x
  if rangeOf a ≠ 2 then (.error ⟨0x09, memDetail 2 0 2 3, w64 a, false⟩, s)
  else match s.transFetch k x a with
  | (.error (l, r), s) => (.error ⟨0x08, memDetail 2 l r 3, w64 a, false⟩, s)
  | (.ok t, s) =>
    let pa := t.at a
    if !s.populated pa then (.error ⟨0x08, memDetail 2 0 2 3, w64 a, false⟩, s)
    else if !t.x then (.error ⟨0x09, memDetail 2 0 2 3, w64 a, false⟩, s)
    else if c.priv = 0 ∧ !t.us then (.error ⟨0x09, memDetail 2 0 3 3, w64 a, false⟩, s)
    else if isReg pa then (.error ⟨0x0A, memDetail 2 0 0 3, w64 a, false⟩, s)
    else match (s.core k).icache.find? (·.1 == pa / 64) with
      | some e => (.ok e.2.toNat, s)
      | none =>
        let n := s.homeLatency k (pa / 64 * 64) true
        let (img, s) := s.lineFor k (pa / 64)
        let s := s.modCore k fun c => { c with icache := ((pa / 64, BitVec.ofNat 512 img) :: c.icache).take icacheSize }
        (.ok img, s.modCtx k x fun c => { c with wake := max c.wake (s.time + n) })

/-- 2^48. -/
def vaTop : Nat := 0x1000000000000

/-- next_head(a), from the lines that the context fetches (R88, R108); a + 2 where a is no head, or its line cannot be fetched (log entry 15). -/
def State.nextHead (s : State) (k : Nat) (x : Fin 11) (a : Nat) : Nat × State :=
  match s.fetchLine k x a with
  | (.ok img, s) =>
    (match lineLast img with
      | .ok h => if a % 2 = 0 ∧ a % 64 / 2 = h then (a / 64 * 64 + 64) % vaTop else (a + 2) % vaTop
      | .error _ => (a + 2) % vaTop, s)
  | (.error _, s) => ((a + 2) % vaTop, s)

/-- The address in bits [47:1] of a doubleword (R83, R411). -/
def addrBits (x : Word) : Nat := x.toNat % vaTop / 2 * 2

/-- An address for PC, N1 or N2: bit 0 is kept, and is no head when it reaches PC (R78, R108, R265). -/
def pcBits (x : Word) : Nat := x.toNat % vaTop

/-- PC ← target, N1 ← next_head(target), N2 ← next_head(N1), annul bits clear (R35, R36, R86). -/
def State.aim (s : State) (k : Nat) (x : Fin 11) (target : Word) : State :=
  let a := pcBits target
  let (b, s) := s.nextHead k x a
  let (c, s) := s.nextHead k x b
  s.modCtx k x fun t => { t with pc := w64 a, n1 := w64 b, n2 := w64 c, apc := false, an1 := false }

/-- The OPs that a Mizzen core performs (R407). -/
def mizOp (op : Nat) : Bool :=
  decide (op ≤ 0x08) || (decide (0x10 ≤ op) && decide (op ≤ 0x24)) || (decide (0x30 ≤ op) && decide (op ≤ 0x32)) ||
  (decide (0x36 ≤ op) && decide (op ≤ 0x39)) || op == 0x7E

/-- ACC = I32 of a format block (R354). -/
def accInt (f : Vector Word 8) : Bool := bit f[0] 11

/-- The types that MXST takes for an accumulate type (R365). -/
def storeTypeOk (int : Bool) (ty : VType) : Bool :=
  if int then ty == .i32 || ty == .i16 || ty == .i8 || ty == .f32
  else ty == .f32 || ty == .bf16 || ty == .f16 || ty == .e4m3 || ty == .e5m2

/-- Whether a selector names a form that this core does not have, which is reason 3 (R140): WFI, UIRET, CSAVE and CRSTR on a Mizzen core (R407), and MXST of a type that the installed
accumulate type does not take (R365). -/
def Core.noForm (c : Core) (miz : Bool) (head tail : Nat) : Bool :=
  match opFmt (bits head 6 7) with
  | none => false
  | some fm =>
    let f := (unpack fm (bits head 0 6) tail).f
    (miz && bits head 6 7 == 0x7E && [2, 6, 7, 9].contains f) ||
    (c.cfgv && bits head 6 7 == 0x74 && bits f 8 3 == 2 && !storeTypeOk (accInt c.fmt) (VType.ofCode (bits f 4 4)))

/-- The reason of R140 for an encoding that names no instruction on this core: 1 to 5 in that order. -/
def Core.reason (c : Core) (miz : Bool) (head tail : Nat) (e : Illegal) : Nat :=
  if 3 < e.number ∧ c.noForm miz head tail then 3 else e.number

/-- The instruction at an address: its head and the instruction, or the trap of the attempt (R108, R139, R141). -/
def State.fetch (s : State) (k : Nat) (x : Fin 11) (a : Nat) : Except Trap (Nat × Instr) × State :=
  match s.fetchLine k x a with
  | (.error t, s) => (.error t, s)
  | (.ok img, s) =>
    match lineLast img with
    | .error kind => (.error ⟨0x03, w64 (a / 64 * 64 + kind), 0, false⟩, s)
    | .ok h =>
      let i := a % 64 / 2
      if a % 2 = 1 ∨ h < i then (.error ⟨0x03, w64 (a / 64 * 64 + 3), 0, false⟩, s)
      else if isMiz k && !mizOp (bits (lineHead img i) 6 7) then (.error ⟨0x02, w64 (lineHead img i * 2 ^ 48 + 1), 0, false⟩, s)
      else match decode (lineHead img i) (lineTail img i) with
        | .ok ins => (.ok (lineHead img i, ins), s)
        | .error e => (.error ⟨0x02, w64 (lineHead img i * 2 ^ 48 + ((s.core k).now s.time).reason (isMiz k) (lineHead img i) (lineTail img i) e), 0, false⟩, s)

end Sys2Proof.Machine
end

