-- ==== Sys2Proof/Machine/Sched.lean ====
section
/-!
DEFINITION. What the hardware does for contexts and slices outside an instruction of its own: reports (R457, R466), group counts (R55, R56,
R460), starting contexts (R35, R36, R52 to R54), the records of slices, enqueuing, placing and ending slices (R237 to R249, R467 to
R469), and a lost context (R465).
-/

namespace Sys2Proof.Machine

/-! ## Reports -/

/-- A machine check for a Mizzen core (R457): at most 64 wait, and a further one is counted and dropped. -/
def State.machineCheck (s : State) (mz code : Nat) (detail addr : Word) : State :=
  if (s.core mz).mcq.length < 64 then
    (s.modCore mz fun c => { c with mcq := c.mcq ++ [(code, detail, addr)] }).post ⟨.machineCheck, [mz]⟩
  else s.modCore mz fun c => { c with mcDropped := c.mcDropped + 1 }

/-- The detail word of a machine check (R457): unit kind, unit number, core or 0xFFFF, syndrome. -/
def mcDetail (unit num core synd : Nat) : Word := w64 (unit * 2 ^ 60 + num % 4096 * 2 ^ 48 + core * 2 ^ 32 + synd)

/-- An event recorded in SCHEDERR of a cluster (R466). -/
def State.schedErr (s : State) (cl kind queue code core : Nat) (addr : Word) : State :=
  let c := s.cluster cl
  if bit c.schederr 31 then
    s.modCluster cl fun c => { c with schederr := putBits c.schederr 32 16 (min 65535 (fld c.schederr 32 16 + 1)) }
  else
    let s := s.modCluster cl fun c => { c with
      schederr := w64 (2 ^ 32 + 2 ^ 31 + kind * 2 ^ 24 + queue * 2 ^ 20 + code * 2 ^ 13 + core % 8192), schederra := addr }
    { s with sent := s.sent ++ [.msix 0 1, .msix 1 1] }

/-! ## Accesses by hardware -/

/-- A doubleword that hardware reads: none if it cannot be reached or is poisoned. -/
def State.readAt (s : State) (k asid priv : Nat) (va : Word) : Option Nat × State :=
  match s.placesAt k asid priv { va := va, n := 8, kind := 0, wr := false } with
  | (.error _, s) => (none, s)
  | (.ok ps, s) => match s.loadPlaces k ps with
    | ((_, true), s) => (none, s)
    | ((x, false), s) => (some x, s)

/-- A doubleword that hardware writes; nothing if it cannot be reached. -/
def State.writeAt (s : State) (k asid priv : Nat) (va : Word) (x : Nat) : State :=
  match s.placesAt k asid priv { va := va, n := 8, kind := 1, wr := true } with
  | (.error _, s) => s
  | (.ok ps, s) => ((s.storePlaces k ps x).clearStored k ps).patchStreams k (ps.map Place.loc) x

/-! ## Worklists: items (R401) -/

/-- Address of the item at an offset (R401). -/
def WList.item (l : WList) (o : Nat) : Word := w64 (l.base + 8 * (o % 2 ^ l.lgcap))

/-- Items held. -/
def WList.size (l : WList) : Nat := l.tail - l.head

/-- Keep a list on chip. -/
def State.setList (s : State) (cl n : Nat) (l : WList) : State := s.modCluster cl fun c => { c with lists := sset c.lists n l }

/-- The first core of a cluster: its compaction unit uses its translations. -/
def unitCore (cl : Nat) : Nat := 192 * cl

/-- An item that a parked WLPOP was answered with goes back to the head of its list, because the WLPOP has had no effect (R456; log entry 31). -/
def State.unpop (s : State) (cl n : Nat) (x : Word) : State :=
  match sget (s.cluster cl).lists n with
  | none => s
  | some l =>
    if l.head = 0 ∨ 2 ^ l.lgcap ≤ l.size then s
    else (s.writeAt (unitCore cl) l.asid 1 (l.item (l.head - 1)) x.toNat).setList cl n { l with head := l.head - 1 }

/-! ## Query groups (R55, R56, R460) -/

/-- LIVE of a descriptor (R41). -/
def State.live (s : State) (k asid priv : Nat) (qgd : Word) : Option Nat × State := s.readAt k asid priv (qgd + 24)

/-- The completion word of a descriptor: its physical address, or the fault of its translation (R460). -/
def State.complPlace (s : State) (k asid priv : Nat) (compl : Word) : Except Trap Nat × State :=
  match s.placesAt k asid priv { va := compl, n := 8, kind := 2, wr := true, align := 8, fut := true, home := true } with
  | (.error e, s) => (.error e.2, s)
  | (.ok ps, s) => (match ps.head?.bind Place.pa? with
      | some pa => .ok pa
      | none => .error ⟨0x09, memDetail 8 0 4 2, compl, false⟩, s)

/-- Whether a decrement of a group would bring LIVE to 0 and its COMPL fails (R460): the fault. -/
def State.complCheck (s : State) (k asid priv : Nat) (qgd : Word) : Option Trap × State :=
  match s.live k asid priv qgd with
  | (some 1, s) =>
    match s.readAt k asid priv (qgd + 16) with
    | (some a, s) => match s.complPlace k asid priv (w64 a) with
      | (.error t, s) => (some t, s)
      | (.ok _, s) => (none, s)
    | (none, s) => (none, s)
  | (_, s) => (none, s)

/-- The change of LIVE by one (R55). -/
def State.addLive (s : State) (k asid priv : Nat) (qgd : Word) (d : Word) : Option Nat × State :=
  match s.live k asid priv qgd with
  | (some n, s) =>
    let n := (w64 n + d).toNat
    (some n, s.writeAt k asid priv (qgd + 24) n)
  | (none, s) => (none, s)

/-- A decrement of LIVE, and the fill of the completion word with a value when it reaches 0 (R55, R56). -/
def State.groupLeave (s : State) (k asid priv : Nat) (qgd fillVal : Word) : State :=
  match s.addLive k asid priv qgd (BitVec.allOnes 64) with
  | (some 0, s) =>
    match s.readAt k asid priv (qgd + 16) with
    | (some a, s) => match s.complPlace k asid priv (w64 a) with
      | (.ok pa, s) => s.fillFuture pa fillVal
      | (.error _, s) => s
    | (none, s) => s
  | (_, s) => s

/-! ## Starting contexts -/

/-- A context with every register at the state of R35 and R36: SSB, SSL and UIVEC are kept, g62 is SSB. UITAG, UICAUSE, STATUS.PPRIV, UIEN and UIACT and the shadow registers, of
which the two rules and R84 say nothing, are 0 (DESIGN CHOICE, log entry 38). -/
def Ctx.fresh (c : Ctx) (x : Nat) (time : Nat) : Ctx :=
  { Ctx.reset false x with st := .starting, ssb := c.ssb, ssl := c.ssl, uivec := c.uivec, g := (Vector.replicate 64 0).set 62 c.ssb, age := time }

/-- Copy g1 to g15 and v0 to v3 (R36). -/
def copyRegs (src dst : Ctx) : Ctx :=
  let t := (List.finRange 15).foldl (fun (t : Ctx) i => { t with g := t.g.set (i.val + 1) (src.g[i.val + 1]) }) dst
  (List.finRange 4).foldl (fun (t : Ctx) i => { t with v := t.v.set i.val (src.v[i.val]) }) t

/-- STATUS of a context that starts at a level and under an ASID (R80). -/
def statusAt (x priv asid : Nat) : Word := w64 (asid % 4096 * 2 ^ 32 + x * 2 ^ 16 + priv % 4 * 2 ^ 4)

/-- Context x of core k enters Starting with prepared registers at a target (R33, R36). -/
def State.begin_ (s : State) (k : Nat) (x : Fin 11) (c : Ctx) (priv asid : Nat) (target : Word) : State :=
  let s := s.setCtx k x { c with status := statusAt x.val priv asid }
  (s.aim k x target).postMore ⟨.contextStartingEnd, [k, x.val]⟩

/-- The lowest-numbered Free helper (R36). -/
def Core.freeHelper (c : Core) : Option (Fin 11) := (List.finRange 11).find? fun x => decide (x ≠ 0) && (c.ctx x).st == .free

/-- Start a helper for a parent (R36, R52). -/
def State.startFor (s : State) (k : Nat) (p : Ctx) (x : Fin 11) (target : Word) (m0 : Mask) (bound : Bool) : State :=
  let c := copyRegs p ((s.ctx k x).fresh x.val s.time)
  let c := { c with fmode := p.fmode, m := c.m.set 0 m0 }
  let c := if bound then { c with qgd := p.qgd, qcount := p.qcount, qbase := p.qbase, qstride := p.qstride } else c
  s.begin_ k x c p.priv p.asid target

/-- Address of record i of the continuation queue (R53). -/
def Core.cqAddr (c : Core) (i : Nat) : Nat := c.csap.toNat % 2 ^ 17 / 64 * 64 + 38016 + 704 * ((c.cqHead + i) % 64)

/-- The fields of a continuation record (R53): offset, bytes, value. -/
def cqFields (p : Ctx) (target : Word) (sel : Mask) : List (Nat × Nat × Nat) :=
  [(0, 8, target.toNat), (8, 8, p.qgd.toNat), (16, 8, p.fmode.toNat), (24, 8, p.asid * 2 ^ 32 + p.priv * 2 ^ 4), (32, 32, sel.toNat)] ++
  ((List.finRange 15).map fun i => (64 + 8 * i.val, 8, (p.g[i.val + 1]).toNat)) ++ [(184, 8, 0)] ++
  ((List.finRange 4).map fun i => (192 + 128 * i.val, 128, (p.v[i.val]).toNat))

/-- Write fields from a base (R2). -/
def Memory.writeFields (m : Memory) (base : Nat) (fs : List (Nat × Nat × Nat)) : Memory :=
  fs.foldl (fun m f => m.writeN (base + f.1) f.2.1 f.2.2) m

/-- Enqueue a continuation record (R53). -/
def State.cqPut (s : State) (k : Nat) (p : Ctx) (target : Word) (sel : Mask) : State :=
  s.modCore k fun c => { c with
    spad := c.spad.writeFields (c.cqAddr c.cq.length) (cqFields p target sel), cq := c.cq ++ [(p.qcount, p.qbase, p.qstride)] }

/-- The oldest record claims a Free helper (R54); its m0 has no bit from COUNT up (R43). -/
def State.cqClaim (s : State) (k : Nat) : State :=
  let c := s.core k
  match c.freeHelper, c.cq with
  | some x, q :: rest =>
    let a := c.cqAddr 0
    let rd := fun (off n : Nat) => c.spad.readN (a + off) n
    let t := (c.ctx x).fresh x.val s.time
    let t := (List.finRange 15).foldl (fun (t : Ctx) i => { t with g := t.g.set (i.val + 1) (w64 (rd (64 + 8 * i.val) 8)) }) t
    let t := (List.finRange 4).foldl (fun (t : Ctx) i => { t with v := t.v.set i.val (BitVec.ofNat 1024 (rd (192 + 128 * i.val) 128)) }) t
    let t := { t with fmode := w64 (rd 16 8 % 8), qgd := w64 (rd 8 8), qcount := q.1, qbase := q.2.1, qstride := q.2.2 }
    let t := t.writeM true (.m 0) (BitVec.ofNat 256 (rd 32 32))
    let s := s.modCore k fun c => { c with cqHead := (c.cqHead + 1) % 64, cq := rest }
    s.begin_ k x t (bits (rd 24 8) 4 2) (bits (rd 24 8) 32 12) (w64 (rd 0 8))
  | _, _ => s

/-! ## Job-slice records (R237) -/

/-- JOIN. -/
def Record.join (r : Record) : Word := r[2]
/-- DEADLINE. -/
def Record.deadline (r : Record) : Nat := (r[3]).toNat
/-- BUDGET. -/
def Record.budget (r : Record) : Nat := fld r[4] 0 32
/-- CLASS. -/
def Record.cls (r : Record) : Nat := fld r[4] 32 2
/-- EWT. -/
def Record.ewt (r : Record) : Nat := fld r[4] 36 4
/-- RESTART. -/
def Record.restart (r : Record) : Bool := bit r[4] 40
/-- DUAL. -/
def Record.dual (r : Record) : Bool := bit r[4] 41
/-- GANG. -/
def Record.gang (r : Record) : Bool := bit r[4] 42
/-- QUEUE. -/
def Record.queue (r : Record) : Nat := fld r[4] 48 4
/-- CLUSTER. -/
def Record.cluster (r : Record) : Nat := fld r[4] 52 5
/-- ASID. -/
def Record.asid (r : Record) : Nat := fld r[5] 32 12
/-- GANGID. -/
def Record.gangid (r : Record) : Nat := fld r[5] 16 16
/-- GSZ. -/
def Record.gsz (r : Record) : Nat := fld r[5] 0 6
/-- SEQ. -/
def Record.seq (r : Record) : Nat := (r[7]).toNat

/-- Whether a record keeps every "must" of R237. -/
def Record.musts (r : Record) : Bool :=
  fld r[0] 48 16 == 0 && !bit r[0] 0 && fld r[4] 34 2 == 0 && fld r[4] 43 5 == 0 && fld r[4] 57 7 == 0 && fld r[5] 44 20 == 0 && fld r[5] 6 10 == 0

/-- A record from the number of its 64 bytes. -/
def recordOf (x : Nat) : Record := Vector.ofFn fun i => w64 (bits x (64 * i.val) 64)

/-- The number of a record's 64 bytes. -/
def Record.number (r : Record) : Nat := r.toList.foldr (fun w n => w.toNat + 2 ^ 64 * n) 0

/-- Records that a queue holds on chip (R241). -/
def onChip : Nat := 64
/-- Records that the ring of a queue holds: 2^(CAP + 6) (R241). -/
def SliceQ.cap (q : SliceQ) : Nat := 2 ^ (fld q.sqbase 0 4 + 6)
/-- SQCTL.COUNT (R241). -/
def SliceQ.count (q : SliceQ) : Nat := q.recs.length + q.ring
/-- The physical address of record i of those in the ring (R241; log entry 27). -/
def SliceQ.slot (q : SliceQ) (i : Nat) : Nat := fld q.sqbase 12 40 * 4096 + 64 * ((q.rhead + i) % q.cap)
/-- Queue q of a cluster. -/
def State.sliceQ (s : State) (cl q : Nat) : SliceQ := (s.cluster cl).qs[Fin.ofNat 16 q]
/-- Change a queue of a cluster. -/
def State.modSliceQ (s : State) (cl q : Nat) (f : SliceQ → SliceQ) : State :=
  s.modCluster cl fun c => { c with qs := c.qs.set (Fin.ofNat 16 q) (f c.qs[Fin.ofNat 16 q]) }

/-- The codes of R397 that every enqueue can meet, as positive numbers: 3, 4, 2, 1 in the order of R397; 0 if the record is accepted. -/
def State.enqCode (s : State) (cl q : Nat) (r : Record) : Nat :=
  let sq := s.sliceQ cl q
  if !r.musts then 3
  else if r.dual && r.gang then 4
  else if !sq.en then 2
  else if sq.cap ≤ sq.count then 1
  else 0

/-- Write CLASS and SEQ and append a record to a queue (R238): on chip while the ring is empty and fewer than 64 are there, else in the ring in memory (R241). -/
def State.enqueue (s : State) (cl q : Nat) (r : Record) : State :=
  let sq := s.sliceQ cl q
  let r := (r.set 4 (putBits r[4] 32 2 sq.cls)).set 7 (s.cluster cl).seq
  let s := s.modCluster cl fun c => { c with seq := c.seq + 1 }
  if sq.recs.length < onChip ∧ sq.ring = 0 then s.modSliceQ cl q fun y => { y with recs := y.recs ++ [r] }
  else (s.modSliceQ cl q fun y => { y with ring := y.ring + 1 }).homeWrite (sq.slot sq.ring) 64 (Record.number r)

/-- The first record of the ring moves on chip where a place is free (R241). -/
def State.refillQ (s : State) (cl q : Nat) : State :=
  let sq := s.sliceQ cl q
  if sq.ring = 0 ∨ onChip ≤ sq.recs.length then s
  else
    let (x, s) := s.homeRead (sq.slot 0) 64
    s.modSliceQ cl q fun y => { y with recs := y.recs ++ [recordOf x], ring := y.ring - 1, rhead := (y.rhead + 1) % y.cap }

/-- A record on chip leaves its queue (R245). -/
def State.unqueue (s : State) (cl q : Nat) (r : Record) : State := (s.modSliceQ cl q fun y => { y with recs := y.recs.erase r }).refillQ cl q

/-- An enqueue by hardware (R469): held when the queue is full, dropped and recorded when it is refused. -/
def State.hwEnqueue (s : State) (cl q core : Nat) (r : Record) (addr : Word) : State :=
  match s.enqCode cl q r with
  | 0 => s.enqueue cl q r
  | 1 => (s.modCluster cl fun c => { c with held := c.held ++ [(q, r)] }).post ⟨.heldRecordEnqueue, [cl]⟩
  | n => s.schedErr cl 1 q n core addr

/-! ## Placing a slice (R245, R94) -/

/-- A core with the state of the previous slice set as R94 says, but for its windows. -/
def Core.forSlice (c : Core) : Core :=
  { c with mtx := Vector.replicate 8 ⟨none, []⟩, sem := Vector.replicate 8 ⟨0, []⟩, qs := Vector.replicate 16 ⟨0, 0, 0, []⟩,
           tiles := Vector.replicate 4 Tile.reset, tbad := 0, fmt := Vector.replicate 8 0, cfgv := false, installs := [] }

/-- The bytes of a window's range as plain scratchpad: the values of V and D words, 0 for I words (R294). -/
def Core.plainWindow (c : Core) (w : Window) : Memory :=
  (w.words.filter fun y => y.2.valid c.ep).foldl (fun m y => m.writeN (w.base + 4 * y.1) 4 y.2.x)
    (c.spad.filter fun e => !(decide (w.base ≤ e.1) && decide (e.1 < w.base + w.len)))

/-- Write back and unmap a window (R294, R94). -/
def State.unmapWindow (s : State) (k : Nat) (i : Fin 8) : State :=
  match (s.core k).wins[i] with
  | none => s
  | some w =>
    let plain := (s.core k).plainWindow w
    let here : Copy → Bool := fun y => w.words.any fun e => e.2 == y
    (s.dropCopies k here).modCore k fun c => { c with
      wins := c.wins.set i none, spad := plain,
      spoison := c.spoison.filter fun x => !(decide (w.base ≤ 4 * x) && decide (4 * x < w.base + w.len)) }

/-- Packets addressed to a core that wait for room are offered again (R396). -/
def State.offerPackets (s : State) (k : Nat) : State :=
  s.packets.foldl (fun s p => if p.2.1 = k then s.post ⟨.sendPacketDeliver, [p.1]⟩ else s) s

/-! ## Idle states and waking (R243, R255 to R257) -/

/-- Whether a core is idle (R243): no slice, no live context, and no test on it. -/
def Core.isIdle (c : Core) : Bool := c.slice.isNone && !c.testing && (List.finRange 11).all fun x => (c.ctx x).st == .free

/-- Whether a core sleeps in C2 or deeper (R255). -/
def Core.asleep (c : Core) : Bool := c.idle != .run && c.idle != .c1

/-- A latency tolerance in ns, where 0xFFFF_FFFF is unlimited (R256). -/
def tolerance (x : Nat) : Nat := if x = 0xFFFFFFFF then 2 ^ 64 else x

/-- L (R256): the smallest of LTOL and the latencies of the last LTR message of each link. -/
def State.latencyL (s : State) : Nat := s.ltr.foldl (fun n e => min n (min e.2.1 e.2.2)) (tolerance (fld s.ltol 0 32))

/-- The state that an idle core enters (R255, R256): C1, whose exit latency is 40 ns, where that fits. -/
def State.idleState (s : State) : Idle := if 40 ≤ s.latencyL then .c1 else .run

/-- L has changed: idle cores that were kept awake enter C1 where it now fits (R255, R256). -/
def State.settleIdle (s : State) : State :=
  { s with cores := s.cores.map fun e => (e.1, if e.2.isIdle ∧ e.2.idle = .run ∧ !isMiz e.1 then { e.2 with idle := s.idleState, sleepAt := s.time } else e.2) }

/-- Ticks that a core in C2 takes to wake, with its cluster and die (R255). -/
def State.exitLatency (s : State) (k : Nat) : Nat :=
  if (s.die (dieOf k)).idle = .c4 then 4500000 else if (s.cluster (clusterOf k)).idle = .c3 then 112500 else 4500

/-- A sleeping core begins to wake, unless it wakes already (R245, R257). -/
def State.wakeUp (s : State) (k : Nat) : State :=
  if (s.core k).asleep ∧ (s.core k).waking = 0 then
    let n := s.exitLatency k
    (s.modCore k fun c => { c with waking := s.time + n }).postIn n ⟨.wakeExitLatencyEnd, [k]⟩
  else s

/-- Context 0 of a core enters Starting with its slice (R35, R245): an acquire at MOD scope (R240, R397). -/
def State.startSlice (s : State) (k : Nat) : State :=
  match (s.core k).slice with
  | none => s
  | some sl =>
    let t := (s.ctx k 0).fresh 0 s.time
    let t := t.setG 1 (sl.rec_[1] + w64 (64 * (sl.dual.map (·.1)).getD 0))
    let s := s.setCtx k 0 { t with status := statusAt 0 0 sl.rec_.asid }
    (((s.aim k 0 sl.rec_[0]).acquire k 0 true).offerPackets k).postMore ⟨.contextStartingEnd, [k, 0]⟩

/-- Place a record on a core; `dual` names the copy of a DUAL record and the core of the other (R245, R400). A core in C2 wakes first. -/
def State.place (s : State) (k : Nat) (r : Record) (q charge : Nat) (dual : Option (Nat × Nat)) : State :=
  let s := if (s.core k).lastAsid = some r.asid then s else (List.finRange 8).foldl (fun s i => s.unmapWindow k i) s
  let s := s.modCore k fun c => { c.forSlice with slice := some ⟨r, q, charge, s.time, false, dual, none, false⟩, lastAsid := some r.asid }
  if (s.core k).asleep then s.wakeUp k else (s.modCore k fun c => { c with idle := .run }).startSlice k

/-! ## Joining and ending -/

/-- n bytes read at their home, none where poisoned. -/
def State.homeTry (s : State) (pa n : Nat) : Option Nat × State :=
  let (x, s) := s.homeRead pa n
  (if s.anyPoison pa n then none else some x, s)

/-- Step 2 of R240 on a join block, with the failure word of R467 written first if there is one; step 3 is the event posted when the counter goes from 1 to 0. The
counter's value before the decrement; none if the block is unusable. `k` is the core concerned; `free` lists the cores that become free after the last step. A block that
translates and lacks a permission at the level, or whose counter is poisoned, is taken as one that cannot be translated (DESIGN CHOICE, log entry 50: R240 names only the
translation). -/
def State.joinSteps (s : State) (k asid priv : Nat) (join : Word) (failw : Option Word) (free : List Nat) : Option Word × State :=
  let cl := clusterOf k
  match s.placesAt k asid priv { va := join, n := 8, kind := 2, wr := true } with
  | (.error _, s) => (none, s.schedErr cl 5 0 1 k join)
  | (.ok ps, s) =>
    match ps.head?.bind Place.pa? with
    | none => (none, s.schedErr cl 5 0 1 k join)
    | some pa =>
      let s := match failw with
        | none => s
        | some w =>
          let (old, s) := s.homeRead (pa + 8) 8
          s.homeWrite (pa + 8) 8 (if bits old 60 4 = 0 then w.toNat else (w64 old ||| w64 (2 ^ 59)).toNat)
      let (x, s) := s.homeRead pa 8
      if s.anyPoison pa 8 then (none, s.schedErr cl 5 0 1 k join)
      else
        let s := s.homeWrite pa 8 (w64 x - 1).toNat
        (some (w64 x), if x = 1 then s.postMore ⟨.joinContinuationEnqueue, k :: pa :: join.toNat :: free⟩ else s)

/-- Step 3 of R240: the continuation record at +64 is read and enqueued in the cluster and queue that it names (R240, R469). -/
def State.joinContinue (s : State) (k pa : Nat) (join : Word) : State :=
  match s.homeTry (pa + 64) 64 with
  | (none, s) => s.schedErr (clusterOf k) 5 0 2 k (join + 64)
  | (some y, s) =>
    let r := recordOf y
    s.hwEnqueue r.cluster r.queue k r (join + 64)

/-- The continuation of a join block that lies in scratchpad, read where it lies (R398). -/
def State.joinLocal (s : State) (k asid priv : Nat) (join : Word) : State :=
  match s.placesAt k asid priv { va := join + 64, n := 64, kind := 0, wr := false } with
  | (.error _, s) => s.schedErr (clusterOf k) 5 0 2 k (join + 64)
  | (.ok ps, s) => match s.loadPlaces k ps with
    | ((_, true), s) => s.schedErr (clusterOf k) 5 0 2 k (join + 64)
    | ((y, false), s) =>
      let r := recordOf y
      s.hwEnqueue r.cluster r.queue k r (join + 64)

/-- The core that ran a slice is free (R39, R240). -/
def State.freeCore (s : State) (k : Nat) : State :=
  s.modCore k fun c => { c.setCtx 0 { c.ctx 0 with st := .free, yields := none } with slice := none, idle := s.idleState, sleepAt := s.time }

/-- The failure word of R467. -/
def failWord (kind core seq : Nat) : Word := w64 (kind * 2 ^ 60 + core % 8192 * 2 ^ 32 + seq % 2 ^ 32)

/-- The record at SNAP (R467), read under the slice's ASID. -/
def State.snapRecord (s : State) (k asid : Nat) (snap : Word) : Option Record × State :=
  match s.placesAt k asid 0 { va := snap, n := 64, kind := 0, wr := false } with
  | (.error _, s) => (none, s)
  | (.ok ps, s) => match s.loadPlaces k ps with
    | ((_, true), s) => (none, s)
    | ((x, false), s) => (some (recordOf x), s)

/-- Not restartable (R467): the failure word, then steps 2 and 3 of R240. -/
def State.failJoin (s : State) (k : Nat) (r : Record) (kind core : Nat) : State :=
  if r.join = 0 then s else (s.joinSteps k r.asid 0 r.join (some (failWord kind core r.seq)) []).2

/-- A slice of core k fails with a kind of R467; `core` is the core that the failure word names, `pair` the dual pair it ran on. -/
def State.failSlice (s : State) (k : Nat) (sl : Slice) (kind core : Nat) (pair : Option (Nat × Nat)) : State :=
  let r := sl.rec_
  let cl := clusterOf k
  if !r.restart then s.failJoin k r kind core
  else
    match s.snapRecord k r.asid r[6] with
    | (none, s) => (s.schedErr cl 4 0 0 k r[6]).failJoin k r 4 core
    | (some n, s) =>
      if s.enqCode cl sl.queue n ≠ 0 then (s.schedErr cl 4 0 0 k r[6]).failJoin k r 4 core
      else
        let s := match pair with
          | some p => s.modCluster cl fun c => { c with avoid := (c.seq.toNat, p.1, p.2) :: c.avoid }
          | none => s
        s.enqueue cl sl.queue n

/-- The other copy of a dual slice that has failed ends without a join of its own. -/
def Slice.orphan (sl : Slice) : Slice := { sl with rec_ := (sl.rec_.set 2 0).set 4 (putBits sl.rec_[4] 40 2 0), dual := none }

/-! ## Barriers: an arrival (R388 to R391) -/

/-- LEVEL of a channel's domain: 0 core to 5 pod (R388). -/
def Chan.level (c : Chan) : Nat := fld c.d0 0 3

/-- Arrivals that a member has made (R388). -/
def Chan.arrivals (c : Chan) (m : Nat) : Nat := (sget c.arr m).getD 0

/-- Cycles from the last arrival to the phase's end as members see it, by level (R32). -/
def barrierDelay : Nat → Nat
  | 0 => 2
  | 1 => 6
  | 2 => 18
  | 3 => 48
  | _ => 140

/-- DOMID of a domain. -/
def Chan.domid (c : Chan) : Nat := fld c.d0 16 16
/-- COUNT of a domain. -/
def Chan.count (c : Chan) : Nat := fld c.d0 32 32

/-- The channel of a core. -/
def State.chan (s : State) (k ch : Nat) : Chan := (s.core k).chans[Fin.ofNat 8 ch]

/-- Bits of a mask that are set, from a base. -/
def maskMembers (m : BitVec 192) (n base : Nat) : List Nat := ((List.range n).filter fun i => m.getLsbD i).map (base + ·)

/-- The cores that share the domain of channel ch of core k, for die, module and pod level (R388): those of this module. -/
def State.sharing (s : State) (k ch : Nat) : List Nat :=
  let b := s.chan k ch
  (s.cores.map (·.1)).filter fun j => !isMiz j && (s.chan j ch).level == b.level && (s.chan j ch).domid == b.domid && (b.level != 3 || dieOf j == dieOf k)

/-- The members of the domain of channel ch of core k, as core and member (R59, R388). A member on another device (R425) is known by its arrivals, under the core of this module whose channel
has received them and a number from 1 up (log entry 64). -/
def State.members (s : State) (k ch : Nat) : List (Nat × Nat) :=
  let b := s.chan k ch
  if b.level = 0 then (maskMembers b.mask 11 0).map fun x => (k, x)
  else if b.level = 1 then (maskMembers b.mask 8 (8 * octetOf k)).map fun j => (j, 0)
  else if b.level = 2 then (maskMembers b.mask 192 (192 * clusterOf k)).map fun j => (j, 0)
  else (s.sharing k ch).flatMap fun j => (j, 0) :: if b.level = 5 then (((s.chan j ch).arr.map (·.1)).filter (· != 0)).map fun m => (j, m) else []

/-- One arrival of a member, posted to every check of the phase (R60). A member core that sleeps begins to wake for it (R257). -/
def State.arrive (s : State) (k ch member : Nat) : State :=
  let s := s.modCore k fun c =>
    let b := c.chans[Fin.ofNat 8 ch]
    { c with chans := c.chans.set (Fin.ofNat 8 ch) { b with arr := sset b.arr member (b.arrivals member + 1) } }
  let s := (s.members k ch).foldl (fun s m => s.wakeUp m.1) s
  s.postIn (barrierDelay (s.core k).chans[Fin.ofNat 8 ch].level) ⟨.barrierPhaseComplete, [k, ch]⟩

/-! ## A lost context (R465) -/

/-- The groups that the contexts and records of a core carry: descriptor, ASID and level (R465). -/
def Core.bound (c : Core) : List (Word × Nat × Nat) :=
  (c.ctxs.toList.filterMap fun t => if t.st ≠ .free ∧ t.qgd ≠ 0 then some (t.qgd, t.asid, t.priv) else none) ++
  (c.cq.zipIdx.filterMap fun q =>
    let a := c.cqAddr q.2
    let g := w64 (c.spad.readN (a + 8) 8)
    let st := c.spad.readN (a + 24) 8
    if g ≠ 0 then some (g, bits st 32 12, bits st 4 2) else none)

/-- The arrivals of BARR and BARRD instructions of a core that wait for their releases (R389, R465): channel and member. -/
def Core.unreleased (c : Core) : List (Nat × Nat) :=
  (List.finRange 11).filterMap fun x => match (c.ctx x).prog with
    | .barr ch => some (ch, if (c.chans[Fin.ofNat 8 ch]).level = 0 then x.val else 0)
    | _ => none

/-- A context whose image is discarded (R465). -/
def Ctx.discard (c : Ctx) (x : Nat) : Ctx :=
  { Ctx.reset false x with ssb := c.ssb, ssl := c.ssl, uivec := c.uivec }

/-- Whatever a Waiting instruction has asked for is withdrawn (R405): the instruction will be issued again. -/
def State.withdraw (s : State) (k : Nat) (x : Fin 11) : State :=
  let s := s.modCore k fun c => { c with
    mtx := vmap (fun m => { m with waiters := m.waiters.erase x.val }) c.mtx, sem := vmap (fun m => { m with waiters := m.waiters.erase x.val }) c.sem }
  let s := { s with clusters := s.clusters.map fun (e : Nat × Cluster) => (e.1, { e.2 with
    lists := e.2.lists.map fun (l : Nat × WList) => (l.1, { l.2 with parked := l.2.parked.filter fun q => !(q.1 == k && q.2.1 == x.val) }) }) }
  let s := { s with pendingEv := s.pendingEv.filter fun (e : Nat × Ev) =>
    !(e.2.row == Instr.worklistAppendArrival && e.2.a.getD 4 0 == k && e.2.a.getD 5 0 == x.val) }
  let s := match (s.ctx k x).prog with
    | .answer 0 y l => s.unpop l.1 l.2 y
    | _ => s
  s.modCtx k x fun c => { c with prog := .none, walked := [] }

/-- The step of R465 on core k; `quarantine` after machine check 0x83. What its contexts have asked for is withdrawn. The other copy of a dual slice runs on as an orphan; where it has ended
already, and waited for this one, its core is free. -/
def State.loseContext (s : State) (k : Nat) (quarantine : Bool) : State :=
  let early := (s.core k).unreleased.filter fun a => decide (2 ≤ (s.chan k a.1).level)
  let s := (List.finRange 11).foldl (fun s x => s.withdraw k x) s
  let c := s.core k
  let groups := c.bound
  let late := c.deferred.filter fun d => decide (2 ≤ (c.chans[Fin.ofNat 8 d.ch]).level)
  let s := s.modCore k fun c => { c with
    ctxs := #v[(c.ctx 0).discard 0, (c.ctx 1).discard 1, (c.ctx 2).discard 2, (c.ctx 3).discard 3, (c.ctx 4).discard 4, (c.ctx 5).discard 5,
      (c.ctx 6).discard 6, (c.ctx 7).discard 7, (c.ctx 8).discard 8, (c.ctx 9).discard 9, (c.ctx 10).discard 10]
    tags := vmap (fun t => { t with st := .idle, cmd := none }) c.tags, locks := [], deferred := []
    tiles := Vector.replicate 4 Tile.reset, tbad := 0, cqHead := 0, cq := [], ldfs := [] }
  let s := s.modOctet (octetOf k) fun o => { o with
    ops := o.ops.filter (·.core != k), running := o.running.filter (·.core != k), pins := if o.running.any (·.core == k) then [] else o.pins }
  let s := s.modCluster (clusterOf k) fun cl => { cl with
    yreq := cl.yreq.filter fun q => q.part.core != k
    yard := (cl.yard.filter fun e => !(e.alone && e.leader.core == k)).map fun (e : YEntry) => { e with
      leader := if e.leader.core = k then { e.leader with ctx := 11 } else e.leader, followers := e.followers.filter fun q => q.core != k } }
  let s := early.foldl (fun s a => s.arrive k a.1 a.2) s
  let s := late.foldl (fun s d => s.arrive k d.ch d.member) s
  let s := groups.foldl (fun s g => s.groupLeave k g.2.1 g.2.2 g.1 2) s
  let s := if quarantine then s.modCluster (clusterOf k) fun cl =>
      let j := Fin.ofNat 3 (logical k / 64)
      { cl with quar := cl.quar.set j (cl.quar[j] ||| w64 (2 ^ (logical k % 64))) }
    else s
  match (s.core k).slice with
  | none => s.freeCore k
  | some sl =>
    let s := s.schedErr (clusterOf k) 3 0 0 k sl.rec_.join
    let s := s.freeCore k
    match sl.dual with
    | none => s.failSlice k sl 1 k none
    | some d =>
      let ended := ((s.core d.2).slice.any fun y => y.sig.isSome)
      let s := if ended then s.freeCore d.2 else s.modCore d.2 fun c => { c with slice := c.slice.map Slice.orphan }
      s.failSlice k sl 1 (min k d.2) (some (k, d.2))

end Sys2Proof.Machine
end

