-- ==== Sys2Proof/Machine/Registers.lean ====
section
/-!
DEFINITION. Device registers (R418 to R420, R232, R241, R250, R256, R369, R401, R411, R433, R466, R490, R492): where each lies, its fields
with their access and level, and what a read and a write do under R412 and R419.
-/

namespace Sys2Proof.Machine

/-- A device register (R418). -/
inductive Reg where
  | modid | asidtbase | mbxdb | resdest | ltol | bootstat
  | bcfg (d : Nat) | bspbase (d : Nat) | bspsize (d : Nat) | diepwr (d : Nat) | marginv (d : Nat) | pwrmon (d : Nat) | lanemarg (d : Nat)
  | pwrevt (d : Nat)
  | portmode (e : Nat) (j : Fin 3) | cxlsz (e : Nat) (j : Fin 4) | ioLanemarg (e : Nat)
  | sqbase (c : Nat) (q : Fin 16) | sqctl (c : Nat) (q : Fin 16) | ecap (c : Nat) | egrant (c : Nat) | erem (c : Nat) | urgency (c : Nat)
  | wltbase (c : Nat) | schederr (c : Nat) | schederra (c : Nat) | quar (c : Nat) (j : Fin 3) | mxcap (c : Nat) (k : Fin 24) | tvec (k : Nat)
  deriving DecidableEq, Repr

/-- The register at an offset from REGBASE; none where no block assigns one (R418, R419). -/
def regAt (off : Nat) : Option Reg :=
  let i := off % 0x10000
  if off = 0 then some .modid
  else if off = 0x8 then some .asidtbase
  else if off = 0x10 then some .mbxdb
  else if off = 0x18 then some .resdest
  else if off = 0x20 then some .ltol
  else if off = 0x28 then some .bootstat
  else if off < 0x100000 then none
  else if off < 0x140000 then
    let d := (off - 0x100000) / 0x10000
    if i = 0 then some (.bcfg d) else if i = 8 then some (.bspbase d) else if i = 0x10 then some (.bspsize d)
    else if i = 0x18 then some (.diepwr d) else if i = 0x20 then some (.marginv d) else if i = 0x28 then some (.pwrmon d)
    else if i = 0x30 then some (.lanemarg d) else if i = 0x38 then some (.pwrevt d) else none
  else if off < 0x180000 then none
  else if off < 0x1A0000 then
    let e := (off - 0x180000) / 0x10000
    if i < 0x18 then some (.portmode e (Fin.ofNat 3 (i / 8))) else if i < 0x38 then some (.cxlsz e (Fin.ofNat 4 ((i - 0x18) / 8)))
    else if i = 0x38 then some (.ioLanemarg e) else none
  else if off < 0x200000 then none
  else if off < 0x400000 then
    let c := (off - 0x200000) / 0x10000
    if i < 0x80 then some (.sqbase c (Fin.ofNat 16 (i / 8)))
    else if i < 0x100 then some (.sqctl c (Fin.ofNat 16 ((i - 0x80) / 8)))
    else if i = 0x100 then some (.ecap c) else if i = 0x108 then some (.egrant c) else if i = 0x110 then some (.erem c)
    else if i = 0x118 then some (.urgency c) else if i = 0x120 then some (.wltbase c) else if i = 0x128 then some (.schederr c)
    else if i = 0x130 then some (.schederra c) else if 0x138 ≤ i ∧ i < 0x150 then some (.quar c (Fin.ofNat 3 ((i - 0x138) / 8)))
    else if 0x200 ≤ i ∧ i < 0x2C0 then some (.mxcap c (Fin.ofNat 24 ((i - 0x200) / 8)))
    else if 0x800 ≤ i ∧ i < 0xE00 then some (.tvec (192 * c + (i - 0x800) / 8))
    else none
  else none

/-- Access of a field (the tables' Access column). -/
inductive Acc where
  | ro | rw | wo | w1c
  deriving DecidableEq, Repr

/-- A field of a register: lowest bit, width, access, level (0 U, 1 S, 2 M). -/
structure Field where
  lo : Nat
  w : Nat
  acc : Acc
  lvl : Nat
  deriving DecidableEq, Repr

/-- The fields of a register, reserved ones included (their access decides whether the register is readable at a level, R412). -/
def Reg.fields : Reg → List Field
  | .modid => [⟨0, 64, .ro, 0⟩]
  | .asidtbase => [⟨52, 12, .ro, 2⟩, ⟨15, 37, .rw, 2⟩, ⟨0, 15, .ro, 2⟩]
  | .mbxdb => [⟨52, 12, .ro, 1⟩, ⟨6, 46, .wo, 1⟩, ⟨0, 6, .ro, 1⟩]
  | .resdest => [⟨62, 2, .rw, 2⟩, ⟨52, 10, .ro, 2⟩, ⟨0, 52, .rw, 2⟩]
  | .ltol => [⟨32, 32, .ro, 2⟩, ⟨0, 32, .rw, 1⟩]
  | .bootstat => [⟨0, 64, .ro, 1⟩]
  | .bcfg _ => [⟨5, 59, .ro, 2⟩, ⟨0, 5, .rw, 2⟩]
  | .bspbase _ => [⟨52, 12, .ro, 2⟩, ⟨20, 32, .rw, 2⟩, ⟨0, 20, .ro, 2⟩]
  | .bspsize _ => [⟨14, 50, .ro, 2⟩, ⟨0, 14, .rw, 2⟩]
  | .diepwr _ => [⟨1, 63, .ro, 2⟩, ⟨0, 1, .rw, 2⟩]
  | .marginv _ => [⟨5, 59, .ro, 2⟩, ⟨0, 5, .rw, 2⟩]
  | .pwrmon _ => [⟨0, 64, .ro, 1⟩]
  | .lanemarg _ | .ioLanemarg _ => [⟨32, 32, .ro, 2⟩, ⟨31, 1, .wo, 2⟩, ⟨30, 1, .ro, 2⟩, ⟨28, 2, .rw, 2⟩, ⟨16, 12, .ro, 2⟩, ⟨0, 16, .rw, 2⟩]
  | .pwrevt _ => [⟨3, 61, .ro, 1⟩, ⟨2, 1, .w1c, 2⟩, ⟨1, 1, .w1c, 1⟩, ⟨0, 1, .w1c, 1⟩]
  | .portmode _ j => if j = 2 then [⟨0, 16, .rw, 2⟩] else [⟨0, 64, .rw, 2⟩]
  | .cxlsz _ _ => [⟨0, 64, .ro, 1⟩]
  | .sqbase _ _ => [⟨52, 12, .ro, 2⟩, ⟨12, 40, .rw, 2⟩, ⟨4, 8, .ro, 2⟩, ⟨0, 4, .rw, 2⟩]
  | .sqctl _ _ => [⟨49, 15, .ro, 2⟩, ⟨32, 17, .ro, 1⟩, ⟨3, 29, .ro, 2⟩, ⟨1, 2, .rw, 2⟩, ⟨0, 1, .rw, 2⟩]
  | .ecap _ => [⟨16, 48, .ro, 2⟩, ⟨0, 16, .rw, 2⟩]
  | .egrant _ => [⟨0, 64, .ro, 1⟩]
  | .erem _ => [⟨0, 64, .ro, 1⟩]
  | .urgency _ => [⟨32, 32, .ro, 2⟩, ⟨0, 32, .rw, 2⟩]
  | .wltbase _ => [⟨52, 12, .ro, 1⟩, ⟨15, 37, .rw, 1⟩, ⟨0, 15, .ro, 1⟩]
  | .schederr _ => [⟨32, 32, .ro, 1⟩, ⟨31, 1, .w1c, 1⟩, ⟨0, 31, .ro, 1⟩]
  | .schederra _ => [⟨0, 64, .ro, 1⟩]
  | .quar _ _ => [⟨0, 64, .rw, 2⟩]
  | .mxcap _ _ => [⟨0, 64, .rw, 1⟩]
  | .tvec _ => [⟨48, 16, .ro, 2⟩, ⟨1, 47, .rw, 2⟩, ⟨0, 1, .ro, 2⟩]

/-- The value of a register with every field. -/
def State.regGet (s : State) : Reg → Word
  | .modid => Config.modid
  | .asidtbase => s.asidtbase
  | .mbxdb => 0
  | .resdest => s.resdest
  | .ltol => s.ltol
  | .bootstat => w64 (s.boot.attempts.toNat * 2 ^ 32 + s.boot.reason * 2 ^ 16 + s.boot.rom * 2 ^ 4 + s.boot.stage)
  | .bcfg d => (s.die d).bcfg
  | .bspbase d => (s.die d).bspbase
  | .bspsize d => (s.die d).bspsize
  | .diepwr d => (s.die d).diepwr
  | .marginv d => (s.die d).marginv
  | .pwrmon d => let y := s.die d; w64 (y.monPwr % 2 ^ 16 * 2 ^ 48 + y.monV % 2 ^ 12 * 2 ^ 36 + y.monTemp % 2 ^ 12 * 2 ^ 24 + y.tf * 2 ^ 12 + y.vf)
  | .lanemarg d => (s.die d).lanemarg
  | .pwrevt d => (s.die d).pwrevt
  | .portmode e j => (s.iod e).portmode[j]
  | .cxlsz e j => (s.iod e).cxlsz[j]
  | .ioLanemarg e => (s.iod e).lanemarg
  | .sqbase c q => (s.cluster c).qs[q].sqbase
  | .sqctl c q => let y := (s.cluster c).qs[q]; w64 (y.count * 2 ^ 32 + y.cls * 2 + (if y.en then 1 else 0))
  | .ecap c => (s.cluster c).ecap
  | .egrant c => w64 (s.cluster c).egrant
  | .erem c => w64 ((BitVec.ofInt 32 (s.cluster c).erem).toNat)
  | .urgency c => (s.cluster c).urgency
  | .wltbase c => (s.cluster c).wltbase
  | .schederr c => (s.cluster c).schederr
  | .schederra c => (s.cluster c).schederra
  | .quar c j => (s.cluster c).quar[j]
  | .mxcap c k => (s.cluster c).mxcap[k]
  | .tvec k => (s.core k).tvec

/-- What a reader at a level sees of a value (R412): fields above the level, and fields that are only written, read as 0. -/
def readFields (fs : List Field) (x : Word) (lvl : Nat) : Word :=
  fs.foldl (fun r f => if f.lvl ≤ lvl ∧ f.acc ≠ .wo then putBits r f.lo f.w (fld x f.lo f.w) else r) 0

/-- Whether some field is readable at a level (R412). -/
def readable (fs : List Field) (lvl : Nat) : Bool := fs.any fun f => decide (f.lvl ≤ lvl) && f.acc != .wo

/-- A register load at a level: none for the privilege fault (R412, R419). An offset that no block assigns reads 0. -/
def State.regRead (s : State) (pa lvl : Nat) : Option Word :=
  match regAt (pa - regBase) with
  | none => some 0
  | some r => if readable r.fields lvl then some (readFields r.fields (s.regGet r) lvl) else none

/-- Whether a write of x at a level would change a field above the level, or perform the action of one (R7, R412): a field of more than one bit that is only written acts on every
value, a single bit on 1. -/
def refuses (fs : List Field) (old x : Word) (lvl : Nat) : Bool :=
  fs.any fun f => decide (lvl < f.lvl) && match f.acc with
    | .ro => false
    | .rw => fld old f.lo f.w != fld x f.lo f.w
    | .w1c => fld old f.lo f.w &&& fld x f.lo f.w != 0
    | .wo => f.w != 1 || fld x f.lo f.w != 0

/-- The value with every writable field taken from x: RW fields as written, W1C bits cleared where x has 1; WO fields are acted on apart (R412). -/
def writeFields (fs : List Field) (old x : Word) (lvl : Nat) : Word :=
  fs.foldl (fun r f => if lvl < f.lvl then r else match f.acc with
    | .rw => putBits r f.lo f.w (fld x f.lo f.w)
    | .w1c => if fld x f.lo f.w = 1 then putBits r f.lo f.w 0 else r
    | _ => r) old

/-- Pages whose bin home lies on a die, applied one after another (R232, R233). -/
def State.applyDie (s : State) (d : Nat) : State :=
  (s.bins.map (·.1)).foldl (fun s p => if homeDie p = d then s.applyPage p else s) s

/-- The mailbox row for an opcode (R428); an unknown opcode is answered by the first. -/
def mbxRow (op : Nat) : Instr :=
  if op = 2 then .mbxAttestationReport else if op = 3 then .mbxSetMarginv else if op = 4 then .mbxSendUet
  else if op = 5 then .mbxIdentityCertificate else .mbxReadDefectMap

/-- COMPL of the message at a physical address, filled as STF would (R428). -/
def State.mbxFill (s : State) (msg : Nat) (x : Word) : State :=
  let (c, s) := s.homeRead (msg + 8) 8
  s.fillFuture (c / 8 * 8) x

/-- A write to MBXDB (R428): the message is queued, or refused as busy when 256 are queued. -/
def State.mbxQueue (s : State) (msg : Nat) : State :=
  if 256 ≤ s.mbx.length then s.mbxFill msg 1
  else
    let (op, s) := s.homeRead msg 4
    { s with mbx := s.mbx ++ [(msg, none)] }.postMore ⟨mbxRow op, []⟩

/-- Start a lane margin measurement of unit u: 0 to 3 the compute dies, 4 and 5 the I/O dies; one that runs starts anew (R433). -/
def State.laneStart (s : State) (u : Nat) : State :=
  let s := if u < 4 then s.modDie u fun y => { y with measuring := true, lanemarg := putBits y.lanemarg 30 1 0 }
    else s.modIod (u - 4) fun y => { y with measuring := true, lanemarg := putBits y.lanemarg 30 1 0 }
  let done : Ev := ⟨.laneMarginDone, [u]⟩
  { s with pendingEv := s.pendingEv.filter fun e => e.2 != done }.postMore done

/-- Address of descriptor n of a cluster (R401). -/
def State.listAt (s : State) (cl n : Nat) : Nat := fld (s.cluster cl).wltbase 15 37 * 32768 + 32 * n

/-- HEAD and TAIL written back to the descriptor (R485, R487). -/
def State.listBack (s : State) (cl n : Nat) (l : WList) : State := s.homeWrite (s.listAt cl n + 16) 8 (l.head + 2 ^ 32 * l.tail)

/-- A cluster's table moves: the lists on chip are written back to the old one, and those on which no WLPOP is parked are in use no longer (DESIGN CHOICE, log entry 31). -/
def State.listsBack (s : State) (cl : Nat) : State :=
  ((s.cluster cl).lists.foldl (fun s e => s.listBack cl e.1 e.2) s).modCluster cl fun c => { c with lists := c.lists.filter fun e => !e.2.parked.isEmpty }

/-- Step 4 of R430 ends when the payload enables dispatch: with the first slice queue that it enables (DESIGN CHOICE, log entry 65: the spec names no other sign of that end). -/
def State.dispatchOn (s : State) (en : Bool) : State := if en = true ∧ s.boot.stage = 4 then { s with boot := { s.boot with up := true } } else s

/-- Put a register's new value y, as merged from the write of x (R418 to R420 and the tables of the registers). -/
def State.regPut (s : State) (r : Reg) (x y : Word) : State :=
  match r with
  | .asidtbase => { s with asidtbase := y }
  | .mbxdb => s.mbxQueue (fld x 6 46 * 64)
  | .resdest => { s with resdest := y }
  | .ltol => { s with ltol := y }.settleIdle
  | .bcfg d => ((s.applyDie d).modDie d fun z => if fld y 0 5 ≤ 24 then { z with bcfg := y } else z).trimL2 d
  | .bspbase d => (s.applyDie d).modDie d fun z => { z with bspbase := y }
  | .bspsize d => (s.applyDie d).modDie d fun z => if fld y 0 14 ≤ 8192 then { z with bspsize := y } else z
  | .diepwr d => s.modDie d fun z => { z with diepwr := y }
  | .marginv d => s.modDie d fun z => { z with marginv := y }
  | .lanemarg d =>
    let s := s.modDie d fun z => { z with lanemarg := y }
    if bit x 31 then s.laneStart d else s
  | .ioLanemarg e =>
    let s := s.modIod e fun z => { z with lanemarg := y }
    if bit x 31 then s.laneStart (4 + e) else s
  | .pwrevt d => s.modDie d fun z => { z with pwrevt := y }
  | .portmode e j => s.modIod e fun z => { z with portmode := z.portmode.set j y }
  | .sqbase c q => s.modCluster c fun z =>
      let o := z.qs[q]
      if o.count ≠ 0 then z
      else { z with qs := z.qs.set q { o with sqbase := if fld y 0 4 ≤ 10 then y else putBits y 0 4 (fld o.sqbase 0 4), rhead := 0 } }
  | .sqctl c q => (s.dispatchOn (bit y 0)).modCluster c fun z =>
      let o := z.qs[q]
      { z with qs := z.qs.set q { o with cls := if o.count ≠ 0 then o.cls else fld y 1 2, en := bit y 0 } }
  | .ecap c => s.modCluster c fun z => { z with ecap := y }
  | .urgency c => s.modCluster c fun z => { z with urgency := y }
  | .wltbase c => (s.listsBack c).modCluster c fun z => { z with wltbase := y }
  | .schederr c => s.modCluster c fun z => { z with schederr := if bit x 31 then putBits y 32 16 0 else y }
  | .quar c j => s.modCluster c fun z => { z with quar := z.quar.set j y }
  | .mxcap c k => s.modCluster c fun z => { z with mxcap := z.mxcap.set k y }
  | .tvec k => s.modCore k fun z => { z with tvec := y }
  | .modid | .bootstat | .pwrmon _ | .cxlsz _ _ | .egrant _ | .erem _ | .schederra _ => s

/-- The unit whose block holds a register (R418): a compute die, a cluster or a core; none for the module's block and the I/O dies. -/
inductive RegUnit where
  | module
  | die (d : Nat)
  | cluster (c : Nat)
  | core (k : Nat)
  deriving DecidableEq, Repr

/-- The unit of a register (R418). -/
def Reg.unit : Reg → RegUnit
  | .modid | .asidtbase | .mbxdb | .resdest | .ltol | .bootstat | .portmode _ _ | .cxlsz _ _ | .ioLanemarg _ => .module
  | .bcfg d | .bspbase d | .bspsize d | .diepwr d | .marginv d | .pwrmon d | .lanemarg d | .pwrevt d => .die d
  | .sqbase c _ | .sqctl c _ | .ecap c | .egrant c | .erem c | .urgency c | .wltbase c | .schederr c | .schederra c | .quar c _ | .mxcap c _ => .cluster c
  | .tvec k => .core k

/-- A register store at a level: none for the privilege fault, which writes nothing (R412, R419). -/
def State.regWrite (s : State) (pa lvl : Nat) (x : Word) : Option State :=
  match regAt (pa - regBase) with
  | none => some s
  | some r =>
    let old := s.regGet r
    if refuses r.fields old x lvl then none
    else some (s.regPut r x (writeFields r.fields old x lvl))

/-- A privilege fault whose detail word holds the head (R448). -/
def privTrap {α : Type} : X α := fun s => .error (.trap ⟨0x04, w64 s.head, 0, false⟩)

end Sys2Proof.Machine
end

