-- ==== Sys2Proof/Machine/Ops.lean ====
section
/-!
DEFINITION. The context image (R97, R98), taking a trap, fault or interrupt and returning from it (R86, R411, R446 to R457), the end of an issue (R91,
R254), and running the meaning of an instruction.
-/

namespace Sys2Proof.Machine

/-! ## Control registers and the image -/

/-- STREAMMAP (R87). -/
def Ctx.streammap (c : Ctx) : Nat :=
  (List.finRange 8).foldr (fun i r =>
    let s := c.slots[i]
    (if s.used then 128 + (if s.out then 64 else 0) + (if s.vec then 32 else 0) + s.idx.toNat else 0) + 256 * (r : Nat)) 0

/-- ANUL (R79). -/
def Ctx.anul (c : Ctx) : Nat := (if c.apc then 1 else 0) + (if c.an1 then 2 else 0)

/-- The control registers 0x00 to 0x0D in order (R77). N1 and N2 are given as the context holds them, with bit 0 of an odd target that is still pending: an image restores it, for the fetch that
faults (R92, R108), where R8 and R78 give their bits no such place (DESIGN CHOICE, log entry 17). -/
def Ctx.cregs (c : Ctx) : List Nat :=
  [c.pc.toNat, c.n1.toNat, c.n2.toNat, c.anul, c.status.toNat, c.qgd.toNat, c.ssb.toNat, c.ssl.toNat, c.uivec.toNat, c.uitag.toNat,
   c.uicause.toNat, c.fmode.toNat, c.fflags.toNat, c.streammap]

/-- The doublewords of a slot in an image (R97, R320, R321): a closed slot is written 0. -/
def Slot.image (s : Slot) : List Nat :=
  if s.used then [s.d0.toNat, s.d1.toNat, s.d2.toNat, (putBits s.d3 7 1 (if s.fibre then 1 else 0)).toNat] else [0, 0, 0, 0]

/-- Doublewords laid out from an offset. -/
def layFrom (off : Nat) : List Nat → List (Nat × Nat × Nat)
  | [] => []
  | x :: t => (off, 8, x) :: layFrom (off + 8) t

/-- The fields of an image: offset, bytes, value (R97). -/
def Ctx.image (c : Ctx) : List (Nat × Nat × Nat) :=
  layFrom 0 (0 :: (c.g.toList.tail.map BitVec.toNat)) ++
  (c.v.toList.zipIdx.map fun e => (512 + 128 * e.2, 128, e.1.toNat)) ++
  (c.m.toList.zipIdx.map fun e => (2560 + 32 * e.2, 32, e.1.toNat)) ++
  (c.p.toList.zipIdx.map fun e => (2688 + 32 * e.2, 32, e.1.toNat)) ++
  layFrom 2944 (c.slots.toList.flatMap Slot.image) ++
  layFrom 3200 c.cregs ++
  [(3312, 16, 0), (3328, 10, (setBit c.gf 0 true).toNat + 2 ^ 64 * c.vf.toNat), (3338, 6, 0)] ++
  layFrom 3344 (c.shadow.toList.map BitVec.toNat) ++ [(3392, 64, 0)]

/-- The flags of every result of the context are in FFLAGS (R85). -/
def Ctx.settle (c : Ctx) : Ctx := { c with fflags := c.flagsAt.foldl (fun f e => f ||| e.2.setWidth 64) c.fflags, flagsAt := [] }

/-- Write the image of context x of core k (R97), with the flags of its results (R85); a deferred LDF then stands in it (R73). -/
def State.saveImage (s : State) (k : Nat) (x : Fin 11) : State :=
  s.modCore k fun c =>
    let c := c.setCtx x (c.ctx x).settle
    let b := c.imageAt x.val
    { c with spad := c.spad.writeFields b (c.ctx x).image,
             spoison := c.spoison.filter fun w => !(decide (b ≤ 4 * w) && decide (4 * w < b + 3456)),
             ldfs := c.ldfs.map fun l => if l.ctx = x.val then { l with saved := true } else l }

/-- A slot read from an image (R97). -/
def Slot.ofImage (m : Nat) (d : Nat → Nat) : Slot :=
  if bits m 7 1 = 1 then
    ⟨true, bits m 6 1 == 1, bits m 5 1 == 1, BitVec.ofNat 4 (if bits m 5 1 = 1 then bits m 0 3 else bits m 0 4), bits (d 24) 7 1 == 1,
     w64 (d 0), w64 (d 8), w64 (d 16), putBits (w64 (d 24)) 7 1 0, []⟩
  else Slot.closed

/-- A vector of the words that a function gives. -/
def vecOf {α : Type} (n : Nat) (f : Nat → α) : Vector α n := ⟨((List.range n).map f).toArray, by simp⟩

/-- The group values of a context whose QGD an image gives: as QGSET resolved them, or read from the descriptor where the image names another group (R41,
R43). -/
def State.regroup (s : State) (k : Nat) (old new : Ctx) : Ctx × State :=
  if new.qgd = old.qgd ∨ new.qgd = 0 then ({ new with qcount := old.qcount, qbase := old.qbase, qstride := old.qstride }, s)
  else
    match s.readAt k new.asid new.priv new.qgd with
    | (none, s) => ({ new with qcount := 0, qbase := 0, qstride := 0 }, s)
    | (some b, s) => match s.readAt k new.asid new.priv (new.qgd + 8) with
      | (none, s) => ({ new with qcount := 0, qbase := 0, qstride := 0 }, s)
      | (some cs, s) =>
        let b := if b < 0x20000 then new.qgd.toNat / 0x20000 * 0x20000 + b else b
        ({ new with qcount := bits cs 16 16, qbase := w64 b, qstride := bits cs 0 16 }, s)

/-- A context read from its image, at level priv (R97, R411): reserved bits are ignored; SENDOPEN is the NI's and CTX the context's own. The full bits of the shadow copies of g56 to
g61 have no place in the image that R97 lays out; they stay with the context across a save and a restore (DESIGN CHOICE, log entry 47). -/
def Ctx.ofImage (c : Ctx) (m : Memory) (b priv : Nat) : Ctx :=
  let rd := fun off n => m.readN (b + off) n
  let cr := fun i => w64 (rd (3200 + 8 * i) 8)
  let st := cr 4
  let st := w64 (fld st 32 12 * 2 ^ 32 + fld c.status 16 4 * 2 ^ 16 + fld c.status 11 1 * 2 ^ 11 + fld st 9 2 * 2 ^ 9 + priv % 4 * 2 ^ 4 + fld st 2 2 * 2 ^ 2)
  { c with
    g := (vecOf 64 fun i => w64 (rd (8 * i) 8)).set 0 0
    v := vecOf 16 fun i => BitVec.ofNat 1024 (rd (512 + 128 * i) 128)
    m := vecOf 4 fun i => BitVec.ofNat 256 (rd (2560 + 32 * i) 32)
    p := vecOf 8 fun i => BitVec.ofNat 256 (rd (2688 + 32 * i) 32)
    slots := vecOf 8 fun i => Slot.ofImage (rd (3304 + i) 1) fun o => rd (2944 + 32 * i + o) 8
    pc := w64 (pcBits (cr 0)), n1 := w64 (pcBits (cr 1)), n2 := w64 (pcBits (cr 2))
    apc := bit (cr 3) 0, an1 := bit (cr 3) 1
    status := st, qgd := cr 5
    ssb := w64 (fld (cr 6) 4 44 * 16), ssl := w64 (fld (cr 7) 4 44 * 16)
    uivec := w64 (addrBits (cr 8)), uitag := w64 (fld (cr 9) 0 6), uicause := w64 (fld (cr 10) 8 8 * 256 + fld (cr 10) 0 2)
    fmode := w64 (fld (cr 11) 0 3), fflags := w64 (fld (cr 12) 0 7)
    gf := BitVec.ofNat 64 (rd 3328 8), vf := BitVec.ofNat 16 (rd 3336 2)
    shadow := vecOf 6 fun i => w64 (rd (3344 + 8 * i) 8) }

/-- Post the refill of every open input stream of a context (R323, R97). -/
def State.refillAll (s : State) (k : Nat) (x : Fin 11) : State :=
  (List.finRange 8).foldl (fun s i =>
    if (s.ctx k x).slots[i].used ∧ !(s.ctx k x).slots[i].out then s.refillIn 0 k x i else s) s

/-- m0 of a bound context has no bit from COUNT up (R43). -/
def Ctx.trimM0 (c : Ctx) : Ctx := if c.qgd = 0 then c else c.putM (.m 0) (c.m[0] &&& lowBits 256 c.qcount)

/-- Restore context x of core k from its image, at level priv (R97, R411, R414). -/
def State.loadImage (s : State) (k : Nat) (x : Fin 11) (priv : Nat) : State :=
  let c := s.core k
  let old := c.ctx x
  let t := old.ofImage c.spad (c.imageAt x.val) priv
  let (t, s) := s.regroup k old t
  let s := s.setCtx k x t.trimM0
  let s := s.modCore k fun c => { c with ldfs := c.ldfs.map fun l => if l.ctx = x.val then { l with saved := false } else l }
  s.refillAll k x

/-! ## Entry -/

/-- The cause word (R447). -/
def Trap.cause (t : Trap) : Word := w64 (t.code * 256 + (if t.async then 0x10000 else 0))

/-- Whether g58 holds the faulting address for a cause code (R447), or the address of the pair of an update-region fault: R475 gives it, where R447 has 0 (log entry 38). -/
def addrCode (code : Nat) : Bool := (decide (8 ≤ code) && decide (code ≤ 12)) || code == 0x13 || (decide (0x20 ≤ code) && decide (code ≤ 0x26))

/-- A context is drained when its producers, MXU operations and LDNM have written their results (R73, R411). -/
def Ctx.drained (c : Ctx) : Bool := c.prods.isEmpty && c.mxu == 0 && !c.ldnm

/-- The registers of a handler at S or M (R447): detail, cause, address. -/
def Ctx.handlerRegs (c : Ctx) (t : Trap) (keepAddr : Bool) : Ctx :=
  let c := (((c.setG 56 t.detail).setG 57 t.cause).setG 58 (if keepAddr then t.addr else 0))
  ((c.markG 56 true).markG 57 true).markG 58 true

/-- Entry to S of a drained context, or to M on a Mizzen core (R411, R447): the image is written, then the level changes and the handler starts. -/
def State.enter (s : State) (k : Nat) (x : Fin 11) (t : Trap) : State :=
  let s := s.saveImage k x
  let lvl := if isMiz k then 2 else 1
  let target := if isMiz k then Config.mizzenEntry 0 else w64 (addrBits (s.core k).tvec)
  let s := s.modCtx k x fun c =>
    ({ (c.setStatus 2 2 c.priv).setStatus 4 2 lvl with entering := none, wake := s.time + s.cyc k 108 }).handlerRegs t (addrCode t.code || decide (0x80 ≤ t.code))
  s.aim k x target

/-- Entry to S (R411): machine check 0x85 where TVEC is 0; else a wait for the producers, then the entry. -/
def State.enterS (s : State) (k : Nat) (x : Fin 11) (t : Trap) : State :=
  if !isMiz k && addrBits (s.core k).tvec == 0 then
    (s.machineCheck (mizOf (dieOf k)) 0x85 (mcDetail 0 k k 0) 0).loseContext k false
  else
    let s := s.withdraw k x
    if (s.ctx k x).drained then s.enter k x t else s.modCtx k x fun c => { c with entering := some t }

/-- Shadow copies of g56 to g61 and their full bits (R86). -/
def Ctx.shadowUp (c : Ctx) : Ctx :=
  { c with shadow := #v[c.g[56], c.g[57], c.g[58], c.g[59], c.g[60], c.g[61]], shadowf := BitVec.ofNat 6 (bits c.gf.toNat 56 6) }

/-- Entry to a user-level handler (R86): code, tag, detail word and handler address. g60 and g61 hold N1 and N2 with bit 0 of an odd target that is still pending (DESIGN CHOICE, log entry
17). -/
def State.enterU (s : State) (k : Nat) (x : Fin 11) (code tag : Nat) (detail handler : Word) : State :=
  let s := s.withdraw k x
  let s := s.modCtx k x fun c =>
    let pcs := (c.pc, c.n1, c.n2)
    let an := c.anul
    let c := c.shadowUp
    let c := ((((((c.setG 56 detail).setG 57 0).setG 58 0).setG 59 pcs.1).setG 60 pcs.2.1).setG 61 pcs.2.2)
    let c := (List.range 6).foldl (fun (c : Ctx) i => c.markG (Fin.ofNat 64 (56 + i)) true) c
    let c : Ctx := { c with uicause := w64 (code * 256 + an), uitag := w64 tag, prods := c.prods.map fun (q : Producer) => { q with old := true } }
    (c.setStatus 10 1 1).setStatus 9 1 0
  let s := s.modCore k fun c => { c with ldfs := c.ldfs.map fun l => if l.ctx = x.val then { l with old := true } else l }
  s.aim k x (w64 (addrBits handler))

/-- UIRET (R86). -/
def State.leaveU (s : State) (k : Nat) (x : Fin 11) : State :=
  let s := s.modCore k fun c => { c with ldfs := c.ldfs.map fun l => if l.ctx = x.val then { l with old := false } else l }
  s.modCtx k x fun c =>
    let pc := w64 (pcBits (c.getG 59))
    let n1 := w64 (pcBits (c.getG 60))
    let n2 := w64 (pcBits (c.getG 61))
    let c := (List.finRange 6).foldl (fun (c : Ctx) i =>
      (c.setG (Fin.ofNat 64 (56 + i.val)) (c.shadow[i])).markG (Fin.ofNat 64 (56 + i.val)) (c.shadowf.getLsbD i.val)) c
    let ps := c.prods.map fun q => { q with old := false }
    let c : Ctx := { c with pc := pc, n1 := n1, n2 := n2, apc := bit c.uicause 0, an1 := bit c.uicause 1, prods := ps }
    (c.setStatus 10 1 0).setStatus 9 1 1

/-- Whether a synchronous trap is delegated to U (R455). -/
def delegated (c : Core) (t : Ctx) (code : Nat) : Bool :=
  ((code == 0x10 && bit c.deleg 0) || (code == 0x11 && bit c.deleg 1)) && t.priv == 0 && t.uien && !t.uiact && addrBits t.uivec != 0

/-- Take a trap, fault or interrupt in a context (R446, R447, R454, R455): at S on a compute core it becomes machine check 0x82 and the context is lost. -/
def State.takeTrap (s : State) (k : Nat) (x : Fin 11) (t : Trap) : State :=
  let c := s.ctx k x
  if isMiz k then s.enterS k x t
  else if c.priv ≠ 0 then (s.machineCheck (mizOf (dieOf k)) 0x82 (mcDetail 0 k k 0) 0).loseContext k false
  else if delegated (s.core k) c t.code then s.enterU k x t.code 0 t.detail c.uivec
  else s.enterS k x t

/-! ## The end of an issue -/

/-- The step of R91 on the three addresses, for an instruction that leaves a flow, with next_head(N2). -/
def Ctx.advance (c : Ctx) (f : Flow) (nh : Nat) : Ctx :=
  { c with pc := c.n1, n1 := c.n2, n2 := if f.taken then w64 (pcBits f.target) else w64 nh, apc := c.an1 || f.k, an1 := f.k, prog := .none, hold := none, walked := [] }

/-- The issue selector after context x has issued (R254). -/
def Core.noteIssue (c : Core) (x : Fin 11) : Core :=
  if bit c.issuepol 0 then { c with last := x.val }
  else
    let lim := if fld c.greedylim 0 8 = 0 then 256 else fld c.greedylim 0 8
    if c.greedy = some x.val ∧ c.run < lim then { c with last := x.val, run := c.run + 1 } else { c with last := x.val, greedy := some x.val, run := 1 }

/-- A core has had its issue in this cycle (R18; log entry 1). -/
def State.cycle (s : State) : State := { s with moves := s.moves + 1, cursor := s.act + 1 }.modCore s.act fun c => { c with issued := s.time + 1 }

/-- The issue of a context whose instruction traps, or whose fetch fails, is an issue too: the selector has chosen it (R92, R254). -/
def State.issued (s : State) : State := (s.modCore s.act (Core.noteIssue · s.actx)).cycle

/-- The end of an issue of the issuing context (R91, R254). -/
def State.finish (s : State) (f : Flow) : State :=
  let k := s.act
  let x := s.actx
  let (nh, s) := if f.taken then (0, s) else s.nextHead k x (s.ctx k x).n2.toNat
  let s := s.modCtx k x (Ctx.advance · f nh)
  (s.modCore k (Core.noteIssue · x)).cycle

/-! ## Walks (R174, R175) -/

/-- Page walkers of a cluster (R174). -/
def walkers : Nat := 32

/-- Ticks of the reads of a walk from a table, one home read per level (R174). -/
def State.walkReads (k va : Nat) : Nat → Nat → State → Nat
  | 0, _, _ => 0
  | left + 1, table, s =>
    if !s.populated table then 0
    else
      let pa := table + 8 * bits va (48 - 9 * (4 - left)) 9
      let (e, t) := s.homeRead pa 8
      s.homeLatency k pa true + if e % 2 = 0 ∨ bits e 1 3 ≠ 0 then 0 else State.walkReads k va left (bits e 12 40 * 4096) t

/-- Ticks of a walk of a cluster (R174). -/
def State.walkTicks (s : State) (cl asid va : Nat) : Nat :=
  let k := 192 * cl
  let entry := fld s.asidtbase 15 37 * 32768 + 8 * asid
  match s.root cl asid with
  | (.ok r, t) => (if (sget (s.cluster cl).roots asid).isSome then 0 else s.homeLatency k entry true) + State.walkReads k va 4 r t
  | (.error _, _) => s.homeLatency k entry true

/-- A walk begins: its end is posted. -/
def State.postWalk (s : State) (cl asid page : Nat) : State :=
  s.postIn (s.walkTicks cl asid (4096 * page)) ⟨.pageWalkComplete, [cl, asid, 4096 * page]⟩

/-- The walk of a cluster for a page is joined as a function says, or a new one, which waits for a walker while all run (R175). -/
def State.intoWalk (s : State) (cl asid page : Nat) (f : Walk → Walk) : State :=
  let ws := (s.cluster cl).walks
  let me : Walk → Bool := fun w => w.asid == asid && w.page == page
  if ws.any me then s.modCluster cl fun c => { c with walks := ws.map fun w => if me w then f w else w }
  else
    let run := decide ((ws.filter (·.running)).length < walkers)
    let s := s.modCluster cl fun c => { c with walks := ws ++ [f ⟨asid, page, run, [], []⟩] }
    if run then s.postWalk cl asid page else s

/-- Context x of core k joins the walk of its cluster for a page that the TLB of core j lacks, or a new one, which waits for a walker while all run (R175). -/
def State.joinWalk (s : State) (cl asid page j k x : Nat) : State :=
  s.intoWalk cl asid page fun w => if w.joined.contains (j, k, x) then w else { w with joined := w.joined ++ [(j, k, x)] }

/-- Context x of core k asks for a translation that the TLB of core j lacks: 8 cycles where the cluster TLB holds it, else a walk (R174, R175). -/
def State.askWalk (s : State) (k : Nat) (x : Fin 11) (j asid va : Nat) : State :=
  match (s.cluster (clusterOf j)).tlb.find? (Tlb.covers asid va) with
  | some t => (s.coreFill j t).modCtx k x fun c => { c with wake := s.time + s.cyc k 8, walked := (asid, va / 4096, none) :: c.walked }
  | none => s.joinWalk (clusterOf j) asid (va / 4096) j k x.val

/-- An event needs a translation that the TLB of core j lacks: it is performed 8 cycles on where the cluster TLB holds it, and else when the walk that it joins has ended (R174, R175). -/
def State.askWalkEv (s : State) (j asid va : Nat) (e : Ev) : State :=
  match (s.cluster (clusterOf j)).tlb.find? (Tlb.covers asid va) with
  | some t => (s.coreFill j t).postIn (s.cyc j 8) ⟨e.row, e.a ++ [asid, va / 4096, 8, 0]⟩
  | none => s.intoWalk (clusterOf j) asid (va / 4096) fun w => if w.evs.contains (j, e) then w else { w with evs := w.evs ++ [(j, e)] }

/-- The event that is performed is performed again when a translation that it needs is there (R175). -/
def State.again (s : State) (row : Instr) (w : Nat × Nat × Nat) : State := s.askWalkEv w.1 w.2.1 w.2.2 ⟨row, s.ev⟩

/-- The context is found Waiting (R34). -/
def State.holding (s : State) : State := s.modCtx s.act s.actx fun c => { c with hold := some s.moves }

/-- Run the meaning of an instruction for the issuing context. A synchronous trap is taken from the state before it (R456). -/
def issue (m : X Flow) (s : State) : Host.Outcome State Fault Refusal :=
  match m s with
  | .ok (f, s') => .next (s'.finish f)
  | .error (.trap t) => .next (s.takeTrap s.act s.actx t).issued
  | .error (.trapKeep s' t) => .next (s'.takeTrap s.act s.actx t).issued
  | .error .wait => .next s.holding
  | .error (.waitWith s') => .next s'.holding
  | .error (.waitFor j asid va) => .next (s.askWalk s.act s.actx j asid va).holding

/-- Run the meaning of an instruction that is no control transfer (R89). -/
def issueSeq (m : X Unit) (s : State) : Host.Outcome State Fault Refusal :=
  issue (do
    m
    pure Flow.seq) s

/-- Run the meaning of an instruction that leaves no instruction behind it to issue: RETIRE, YIELDS, ERET, UIRET, TRAP set the context's addresses themselves. -/
def issueLast (m : X Unit) (s : State) : Host.Outcome State Fault Refusal :=
  match m s with
  | .ok (_, s') => .next ((s'.modCtx s.act s.actx fun c => { c with prog := .none, hold := none }).modCore s.act (Core.noteIssue · s.actx)).cycle
  | .error e => issue (fun _ => .error e) s

/-- A move that performs an event (log entries 1 and 11). -/
def event (f : State → State) (s : State) : Host.Outcome State Fault Refusal := .next { f s with moves := s.moves + 1 }

end Sys2Proof.Machine
end

