-- ==== Sys2Proof/Machine/Control.lean ====
section
/-!
DEFINITION. The control forms, OP 0x00 to 0x0C (R263 to R271): transfers, NOP, RETIRE, YLD, START, SPLIT, WAITF.
-/

namespace Sys2Proof.Machine

/-- A context with an unresolved LDNM does not issue an instruction that names m0 (R48). -/
def needMembership : X Unit := do
  let t ← cx
  waitUnless (!t.ldnm)

/-- The same for the mask operands of an instruction (R48). -/
def needMasks (os : List MOpd) : X Unit := if os.any (· == MOpd.m 0) then needMembership else pure ()

/-- line_base of an address (R108). -/
def lineBase (a : Nat) : Nat := a / 64 * 64

/-- A target from a line offset in n bits and a head index (R110, R111, R269). -/
def lineTarget (pc : Word) (loff n hidx : Nat) : Word :=
  w64 (((lineBase pc.toNat : Int) + 64 * sextN loff n + 2 * hidx) % (vaTop : Int)).toNat

/-- The condition of B.cc (R263). -/
def condHolds (cc : Cond) (a b : Word) : Bool :=
  match cc with
  | .eq => a == b
  | .ne => a != b
  | .lt => decide (a.toInt < b.toInt)
  | .ge => decide (b.toInt ≤ a.toInt)
  | .ltu => decide (a.toNat < b.toNat)
  | .geu => decide (b.toNat ≤ a.toNat)
  | .z => a == 0
  | .nz => a != 0

/-- Whether a condition reads B (R110). -/
def condUsesB (cc : Cond) : Bool := cc != .z && cc != .nz

/-- The annul request of B.cc (R89, R263). -/
def annuls (an : Annul) (taken : Bool) : Bool :=
  match an with
  | .none => false
  | .notTaken => !taken
  | .taken => taken

/-- NOP (R267). -/
def execNop (s : State) : Host.Outcome State Fault Refusal := issueSeq (pure ()) s

/-- RETIRE (R268, R38, R39): the context goes to Retiring; the later steps are HELPER_RETIRE_COMPLETE and SLICE_END. -/
def execRetire (s : State) : Host.Outcome State Fault Refusal :=
  issueLast (do
    needMembership
    let t ← cx
    if t.sendopen then illegal6 2
    else do
      let st ← getS
      modCx fun t => { t with st := .retiring }
      if st.actx = 0 then do
        modCo fun c => { c with slice := c.slice.map fun sl => { sl with retired := true } }
        modS fun s => s.postMore ⟨.sliceEnd, [s.act]⟩
      else modS fun s => s.postMore ⟨.helperRetireComplete, [s.act, s.actx.val]⟩) s

/-- YLD (R267, R254). -/
def execYld (s : State) : Host.Outcome State Fault Refusal :=
  issueSeq (do
    let st ← getS
    modCx fun t => { t with age := st.time }) s

/-- A transfer that is taken without an annul request (R89). -/
def goTo (target : Word) : Flow := ⟨true, target, false⟩

/-- next_head(N2) of the issuing context (R90). -/
def linkAddr : X Word := fun s =>
  let (a, s') := s.nextHead s.act s.actx (s.ctx s.act s.actx).n2.toNat
  .ok (w64 a, s')

/-- RET (R265). -/
def execRet (s : State) : Host.Outcome State Fault Refusal :=
  issue (do
    ready [dG 63]
    let x ← rdG 63
    pure (goTo x)) s

/-- JR (R265). -/
def execJr (a : GSrc) (s : State) : Host.Outcome State Fault Refusal :=
  issue (do
    ready [a.op 0]
    let x ← rdG a.r
    pops [.g a.r]
    pure (goTo x)) s

/-- CALLR (R265, R90). -/
def execCallr (a : GSrc) (s : State) : Host.Outcome State Fault Refusal :=
  issue (do
    ready [a.op 0, dG 63]
    let x ← rdG a.r
    wrG 63 (← linkAddr)
    pops [.g a.r]
    pure (goTo x)) s

/-- The target in IMM32 of J and CALL (R111). -/
def longTarget (pc : Word) (imm : BitVec 32) : Word := lineTarget pc (bits imm.toNat 0 27) 27 (bits imm.toNat 27 5)

/-- J (R264). -/
def execJ (imm : BitVec 32) (s : State) : Host.Outcome State Fault Refusal :=
  issue (do
    let t ← cx
    pure (goTo (longTarget t.pc imm))) s

/-- CALL (R264, R90). -/
def execCall (imm : BitVec 32) (s : State) : Host.Outcome State Fault Refusal :=
  issue (do
    ready [dG 63]
    let t ← cx
    wrG 63 (← linkAddr)
    pure (goTo (longTarget t.pc imm))) s

/-- B.cc (R263). -/
def execBcc (a b : GSrc) (cc : Cond) (an : Annul) (hidx : BitVec 5) (loff : BitVec 13) (s : State) : Host.Outcome State Fault Refusal :=
  issue (do
    ready (if condUsesB cc then [a.op 0, b.op 1] else [a.op 0])
    let x ← rdG a.r
    let y ← rdG b.r
    let t ← cx
    let taken := condHolds cc x y
    pops (if condUsesB cc then [.g a.r, .g b.r] else [.g a.r])
    pure ⟨taken, lineTarget t.pc loff.toNat 13 hidx.toNat, annuls an taken⟩) s

/-- START and SPLIT are eligible only when g1 to g15 and v0 to v3 are full (R36, R51). -/
def passReady : X Unit := do
  let t ← cx
  waitUnless (decide (bits t.gf.toNat 1 15 = 2 ^ 15 - 1) && decide (bits t.vf.toNat 0 4 = 15))

/-- The target of START and SPLIT in IMM20 (R269). -/
def startTarget (pc : Word) (imm : BitVec 20) : Word := lineTarget pc (bits imm.toNat 0 15) 15 (bits imm.toNat 15 5)

/-- START (R269, R36). -/
def execStart (d : GReg) (a : GSrc) (imm : BitVec 20) (s : State) : Host.Outcome State Fault Refusal :=
  issueSeq (do
    needMembership
    passReady
    ready [a.op 0, dG d]
    let x ← rdG a.r
    let t ← cx
    let c ← co
    let target := if a.r = 0 then startTarget t.pc imm else w64 ((x + sext64 imm.toNat 20).toNat % vaTop)
    match c.freeHelper, c.cq with
    | some y, [] => do
      modS fun s => s.startFor s.act t y target 0 false
      wrG d (w64 y.val)
    | _, _ => wrG d (BitVec.allOnes 64)
    pops [.g a.r]) s

/-- One more live context or record for a bound context (R51, R55). -/
def liveUp (t : Ctx) : X Unit :=
  if t.qgd = 0 then pure () else modS fun s => (s.addLive s.act t.asid t.priv t.qgd 1).2

/-- SPLIT (R270, R51 to R53). -/
def execSplit (d : GReg) (a : MOpd) (imm : BitVec 20) (s : State) : Host.Outcome State Fault Refusal :=
  issueSeq (do
    needMembership
    passReady
    ready [dG d]
    let t ← cx
    let c ← co
    let m0 := t.getM (.m 0)
    let sel := m0 &&& t.getM a
    let rest := m0 &&& ~~~(t.getM a)
    let target := startTarget t.pc imm
    if sel = 0 then wrG d 0
    else if rest = 0 then wrG d 1
    else match c.freeHelper, c.cq with
      | some y, [] => do
        modS fun s => s.startFor s.act t y target sel true
        modCx (·.writeM false (.m 0) rest)
        liveUp t
        wrG d 2
      | _, _ =>
        if c.cq.length < 64 then do
          modS fun s => s.cqPut s.act t target sel
          modCx (·.writeM false (.m 0) rest)
          liveUp t
          wrG d 3
        else wrG d 4) s

/-- WAITF (R271). -/
def execWaitf (s : State) : Host.Outcome State Fault Refusal :=
  issueSeq (do
    let c ← co
    let t ← cx
    waitUnless ((List.finRange 64).all (fun r => !isEmptyRef c t (.g r)) && (List.finRange 16).all (fun r => !isEmptyRef c t (.v r)))) s

end Sys2Proof.Machine
end

