-- ==== Sys2Proof/Machine/Contexts.lean ====
section
/-!
DEFINITION. What happens to a context outside an issue: the events of an instruction boundary (R452), the choice of the context that issues (R254), results
that arrive (R70, R288), the ends of Starting, of Retiring and of a slice (R33, R38, R39), stops and restores (R414), and which machine check is next (R457).
-/

namespace Sys2Proof.Machine

/-! ## Boundaries (R452) -/

/-- Whether a Waiting instruction can be interrupted: it has not yet been answered. -/
def Progress.open_ : Progress → Bool
  | .none | .wfi | .wlapp | .wlpop | .wlquiet _ | .barr _ | .key _ => true
  | _ => false

/-- Whether a context stands at an instruction boundary (R452): what it waits for can be withdrawn. -/
def Ctx.atBoundary (c : Ctx) : Bool := (c.st == .live || c.st == .retiring) && c.entering.isNone && c.prog.open_

/-- A context that a stop holds at its boundary (R73, R405, R414): it issues nothing more, and stops when its producers have written their results. -/
def Ctx.stopping (c : Ctx) : Bool :=
  c.st == .live && c.stopReq && c.priv == 0 && !c.sendopen && !c.ldnm && c.entering.isNone && c.prog.open_

/-- Whether the budget trap of a core is due (R246, R247). -/
def State.budgetDue (s : State) (k : Nat) : Bool :=
  match (s.core k).slice with
  | some sl => sl.rec_.budget != 0 && decide (sl.start + sl.rec_.budget ≤ s.time) && !sl.budgetTaken && !sl.retired
  | none => false

/-- Whether a pending copy-completion interrupt can be taken (R452, R455). -/
def Ctx.cpyiReady (c : Ctx) (q : Nat × Word × Bool) : Bool := !q.2.2 || (c.uien && !c.uiact)

/-- The entry of a list with the lowest first component among those that a test admits. -/
def lowestOf {α : Type} (p : Nat × α → Bool) : List (Nat × α) → Option (Nat × α)
  | [] => none
  | e :: t => match lowestOf p t with
    | some b => some (if p e && decide (e.1 ≤ b.1) then e else b)
    | none => if p e then some e else none

/-- The event that context x of core k takes at its boundary, in the order of R452. -/
def State.boundary (s : State) (k : Nat) (x : Fin 11) : Option Ev :=
  let c := s.ctx k x
  if !c.atBoundary then none
  else if c.stopping then (if c.drained then some ⟨.contextStop, [k, x.val]⟩ else none)
  else if c.priv == 1 || c.sendopen then none
  else if !c.poisonQ.isEmpty then some ⟨.poisonedDataFault, [k, x.val]⟩
  else if x = 0 ∧ c.st = .live ∧ s.budgetDue k = true then some ⟨.budgetTrap, [k]⟩
  else if !c.copyQ.isEmpty then some ⟨.copyFaultEntry, [k, x.val]⟩
  else if c.cpyiQ.any c.cpyiReady then some ⟨.copyCompletionInterrupt, [k, x.val]⟩
  else none

/-- The boundary event of the lowest context of a core that has one. -/
def State.boundaryOf (s : State) (k : Nat) : Option Ev := (List.finRange 11).findSome? (s.boundary k)

/-! ## The issue selector (R254) -/

/-- A Ready context: live, not found Waiting at this move (log entry 1), not in a stop, an entry to S or a restore. -/
def Ctx.ready (c : Ctx) (time moves : Nat) : Bool :=
  c.st == .live && c.entering.isNone && c.hold != some moves && decide (c.wake ≤ time) && !c.stopping

/-- The first Ready context from a number on, cyclically. -/
def firstFrom (r : Fin 11 → Bool) (from_ : Nat) : Option (Fin 11) := ((List.range 11).map fun i => cix (from_ + i)).find? r

/-- The context of a list with the smallest age stamp, the lower number on equal stamps. -/
def oldest (age : Fin 11 → Nat) : List (Fin 11) → Option (Fin 11)
  | [] => none
  | x :: t => match oldest age t with
    | some y => some (if age y < age x then y else x)
    | none => some x

/-- select_issue (R254). -/
def Core.select (c : Core) (time moves : Nat) : Option (Fin 11) :=
  let r : Fin 11 → Bool := fun x => (c.ctx x).ready time moves
  if bit c.issuepol 0 then firstFrom r (c.last + 1)
  else
    let lim := if fld c.greedylim 0 8 = 0 then 256 else fld c.greedylim 0 8
    let all := (List.finRange 11).filter r
    match c.greedy with
    | some g =>
      if r (cix g) ∧ c.run < lim then some (cix g)
      else
        let rest := all.filter (· != cix g)
        oldest (fun x => (c.ctx x).age) (if rest.isEmpty then all else rest)
    | none => oldest (fun x => (c.ctx x).age) all

/-! ## Results -/

/-- The entry to S of a context that has drained (R411). -/
def State.tryEnter (s : State) (k : Nat) (x : Fin 11) : State :=
  match (s.ctx k x).entering with
  | some t => if (s.ctx k x).drained then s.enter k x t else s
  | none => s

/-- Contexts of a core that wait in WFI see an event (R416). -/
def State.wake (s : State) (k : Nat) (p : Fin 11 → Bool) : State :=
  (List.finRange 11).foldl (fun s x => if (s.ctx k x).prog == .wfi && p x then s.modCtx k x fun c => { c with prog := .done } else s) s

/-- The producer whose result comes first, the oldest of equal ones (log entry 6). -/
def firstDue : List Producer → Option Producer
  | [] => none
  | p :: t => match firstDue t with
    | some q => some (if q.due < p.due then q else p)
    | none => some p

/-- A tile with the half row of index x replaced, full (R366). -/
def Tile.putHalf (t : Tile) (x : Nat) (v : VWord) : Tile :=
  let i : Fin 64 := Fin.ofNat 64 (x / 2)
  let other := bits (t.rows[i]).toNat (1024 * (1 - x % 2)) 1024
  ⟨t.rows.set i (BitVec.ofNat 2048 (if x % 2 = 0 then v.toNat + 2 ^ 1024 * other else other + 2 ^ 1024 * v.toNat)), true⟩

/-- The half row that a completed ZWR writes (R353, R366). -/
def Core.putTile (c : Core) (o : Option (ZReg × Nat × VWord)) : Core := match o with
  | none => c
  | some z => { c with tiles := c.tiles.set z.1 (c.tiles[z.1].putHalf z.2.1 z.2.2) }

/-- A producer of a kind, the one whose result comes first, is taken from the list and completes (R70). -/
def State.completeOne (s : State) (k : Nat) (x : Fin 11) (ldf : Bool) : State :=
  match firstDue ((s.ctx k x).prods.filter (·.ldf == ldf)) with
  | none => s
  | some p => (s.modCtx k x fun c => { c with prods := c.prods.erase p }.complete p).modCore k (·.putTile p.tile)

/-- PRODUCER_COMPLETE (R70). -/
def execProducerComplete (s : State) : Host.Outcome State Fault Refusal :=
  event (fun s => (s.completeOne (s.arg 0) (cix (s.arg 1)) false).tryEnter (s.arg 0) (cix (s.arg 1))) s

/-- Whether a result goes to a register in stream mode, which no producer sets empty (R280, R322). -/
def Ctx.streamed (t : Ctx) : Dest → Bool
  | .g r _ => (t.slotG r).isSome && t.gFull r
  | .v r _ => (t.slotV r).isSome && t.vFull r

/-- The part of a deferred answer that is pushed to a stream (R280, R322) or that the stack limits refuse (R76). -/
def answerDest (d : Dest) : X Unit := do
  let t ← cx
  match d with
  | .g r x => if t.streamed d || t.stackBad r x then wrG r x else pure ()
  | .v _ _ => pure ()

/-- Run steps for context x of core k outside an issue of its own. -/
def State.runAs (s : State) (k : Nat) (x : Fin 11) (m : X Unit) : Except Stop State :=
  match m { s with act := k, actx := x } with
  | .ok (_, t) => .ok { t with act := s.act, actx := s.actx, head := s.head }
  | .error e => .error e

/-- The producer of an LDF completes (R288): its registers, an acquire (R204), and the wake of a WFI where the LDF was deferred (R416). -/
def State.ldfDone (s : State) (k : Nat) (x : Fin 11) (p : Producer) (ds : List Dest) : State :=
  let s := s.modCtx k x fun c => { c with prods := c.prods.erase p }.complete { p with dests := ds }
  let s := if p.poison.isSome then s else s.acquire k x true
  if p.entry then s else s.wake k (· == x)

/-- A context that takes an event while Retiring is live again, at its RETIRE or YIELDS (R405). -/
def State.revive (s : State) (k : Nat) (x : Fin 11) : State :=
  if (s.ctx k x).st = .retiring then s.modCtx k x fun c => { c with st := .live, yields := none } else s

/-- LDF_DEFERRED_ANSWER (R288): the value and status are written, as an acquire. A register in stream mode is pushed (R280), which waits as any push does; an answer that the stack
limits (R76) or the push refuse takes its fault, and that register keeps its value. R446 has the codes of such a fault synchronous: it is taken as one, at the next instruction boundary of the
context, before the instruction at PC has any effect (DESIGN CHOICE, log entry 53). -/
def execLdfDeferredAnswer (s : State) : Host.Outcome State Fault Refusal :=
  event (fun s =>
    let k := s.arg 0
    let x := cix (s.arg 1)
    match firstDue ((s.ctx k x).prods.filter (·.ldf)) with
    | none => s
    | some p =>
      let t := s.ctx k x
      let bad : Dest → Bool := fun d => t.streamed d || match d with
        | .g r v => t.stackBad r v
        | .v _ _ => false
      let plain := p.dests.filter fun d => !bad d
      if p.poison.isSome then (s.ldfDone k x p plain).tryEnter k x
      else match s.runAs k x (p.dests.forM answerDest) with
        | .ok s => (s.ldfDone k x p plain).tryEnter k x
        | .error (.trap e) | .error (.trapKeep _ e) =>
          if t.atBoundary then ((s.ldfDone k x p plain).revive k x).takeTrap k x e else s.postMore ⟨.ldfDeferredAnswer, [k, x.val]⟩
        | .error _ => s.postMore ⟨.ldfDeferredAnswer, [k, x.val]⟩) s

/-! ## Faults taken at a boundary -/

/-- Perform an event whose condition is that it is the one due at the boundary of its context (R452). -/
def atBoundary (k : Nat) (x : Fin 11) (row : Instr) (f : State → State) (s : State) : State :=
  match s.boundary k x with
  | some e => if e.row = row then f s else s
  | none => s

/-- POISONED_DATA_FAULT (R453). -/
def execPoisonedDataFault (s : State) : Host.Outcome State Fault Refusal :=
  event (fun s =>
    let k := s.arg 0
    let x := cix (s.arg 1)
    atBoundary k x .poisonedDataFault (fun s => match (s.ctx k x).poisonQ with
      | [] => s
      | q :: rest => ((s.revive k x).modCtx k x fun c => { c with poisonQ := rest }).takeTrap k x ⟨0x0C, q.1, q.2, true⟩) s) s

/-- BUDGET_TRAP (R246): taken once per placement. -/
def execBudgetTrap (s : State) : Host.Outcome State Fault Refusal :=
  event (fun s =>
    let k := s.arg 0
    atBoundary k 0 .budgetTrap (fun s =>
      (s.modCore k fun c => { c with slice := c.slice.map fun sl => { sl with budgetTaken := true } }).takeTrap k 0 ⟨0x14, 0, 0, true⟩) s) s

/-- COPY_FAULT_ENTRY (R452, R453): the lowest tag first. -/
def execCopyFaultEntry (s : State) : Host.Outcome State Fault Refusal :=
  event (fun s =>
    let k := s.arg 0
    let x := cix (s.arg 1)
    atBoundary k x .copyFaultEntry (fun s => match lowestOf (fun _ => true) (s.ctx k x).copyQ with
      | none => s
      | some q => ((s.revive k x).modCtx k x fun c => { c with copyQ := c.copyQ.erase q }).takeTrap k x ⟨q.2.1, q.2.2.1, q.2.2.2, true⟩) s) s

/-- COPY_COMPLETION_INTERRUPT (R387, R455): to U at its handler, or to S; the lowest tag first. -/
def execCopyCompletionInterrupt (s : State) : Host.Outcome State Fault Refusal :=
  event (fun s =>
    let k := s.arg 0
    let x := cix (s.arg 1)
    atBoundary k x .copyCompletionInterrupt (fun s => match lowestOf (s.ctx k x).cpyiReady (s.ctx k x).cpyiQ with
      | none => s
      | some q =>
        let s := (s.revive k x).modCtx k x fun c => { c with cpyiQ := c.cpyiQ.erase q }
        if q.2.2 then s.enterU k x 0x30 q.1 (w64 q.1) q.2.1 else s.takeTrap k x ⟨0x30, w64 q.1, 0, true⟩) s) s

/-! ## Stops and restores (R414) -/

/-- The step of R91 for context x of core k, outside an issue of its own. -/
def State.stepOver (s : State) (k : Nat) (x : Fin 11) : State :=
  let (nh, s) := s.nextHead k x (s.ctx k x).n2.toNat
  s.modCtx k x (Ctx.advance · Flow.seq nh)

/-- CONTEXT_STOP (R414, R73, R405): every producer has written its result; a WFI ends first, and the image is written. -/
def execContextStop (s : State) : Host.Outcome State Fault Refusal :=
  event (fun s =>
    let k := s.arg 0
    let x := cix (s.arg 1)
    atBoundary k x .contextStop (fun s =>
      let s := if (s.ctx k x).prog = .wfi then s.stepOver k x else s.withdraw k x
      (s.saveImage k x).modCtx k x fun c => { c with st := .stopped, stopReq := false, hold := none }) s) s

/-- CONTEXT_RESTORE_COMPLETE (R414): the Stopped context becomes Ready with a new age stamp, and the CRSTR that asked for it ends. -/
def execContextRestoreComplete (s : State) : Host.Outcome State Fault Refusal :=
  event (fun s =>
    let k := s.arg 0
    let x := cix (s.arg 1)
    if (s.ctx k x).st ≠ .stopped then s
    else
      let c := s.core k
      let s := s.loadImage k x (min 1 (bits (c.spad.readN (c.imageAt x.val + 3232) 8) 4 2))
      let s := s.modCtx k x fun c => { c with st := .live, age := s.time, hold := none, prog := .none }
      (List.finRange 11).foldl (fun s y => if (s.ctx k y).prog == .crstr x.val then s.modCtx k y fun c => { c with prog := .done } else s) s) s

/-! ## Starting and Retiring -/

/-- CONTEXT_STARTING_END (R33). -/
def execContextStartingEnd (s : State) : Host.Outcome State Fault Refusal :=
  event (fun s =>
    let k := s.arg 0
    let x := cix (s.arg 1)
    if (s.ctx k x).st = .starting then s.modCtx k x fun c => { c with st := .live } else s) s

/-- Steps 1 and 2 of R38 are done: every register is full and every pair has left the buffer; for a bound context the release of step 4 can be made. -/
def State.retireReady (s : State) (k : Nat) (x : Fin 11) : Bool :=
  let c := s.ctx k x
  c.drained && !(s.core k).ldfs.any (·.ctx == x.val) && !(s.core k).ubuf.any (·.ctxs.contains x.val) &&
  (c.qgd == 0 || !s.pairsOut k x.val)

/-- Steps 3 and 4 of R38: streams closed, and the group left (R55, R56); the fault of R460 if its completion cannot be filled. -/
def State.retireSteps (s : State) (k : Nat) (x : Fin 11) : Option Trap × State :=
  let s := s.modCtx k x fun c => { c with slots := Vector.replicate 8 Slot.closed }
  let c := s.ctx k x
  if c.qgd = 0 then (none, s)
  else match s.complCheck k c.asid c.priv c.qgd with
    | (some t, s) => (some t, s)
    | (none, s) =>
      let s := (s.siFlush k).groupLeave k c.asid c.priv c.qgd 1
      (none, s.modCtx k x fun c => { c with qgd := 0 })

/-- The copy commands of a context that has retired go on without it (R387), and its copy faults are pending for context 0 (R453). -/
def State.leaveTags (s : State) (k : Nat) (x : Fin 11) : State :=
  let q := (s.ctx k x).copyQ
  let s := s.modCore k fun c => { c with
    tags := vmap (fun t => { t with cmd := t.cmd.map fun (m : Cmd) => if m.ctx = x.val then { m with ctx := 11 } else m }) c.tags }
  if q.isEmpty then s else (s.modCtx k x fun c => { c with copyQ := [] }).modCtx k 0 fun c => { c with copyQ := c.copyQ ++ q }

/-! ## The end of a slice (R39, R240, R248, R249, R400) -/

/-- One byte taken into a CRC-64 (R400). -/
def crcByte (c b : Nat) : Nat :=
  (List.range 8).foldl (fun c _ => if 2 ^ 63 ≤ c then (2 * c % 2 ^ 64) ^^^ 0x42F0E1EBA9EA3693 else 2 * c) (c ^^^ b * 2 ^ 56)

/-- The CRC-64 of n bytes from an address, read as loads of core k under an ASID; none if one faults or is poisoned (R400, R468). -/
def State.crcOver (s : State) (k asid : Nat) : Nat → Nat → Nat → Option Nat × State
  | 0, _, c => (some c, s)
  | n + 1, a, c =>
    match s.placesAt k asid 0 { va := w64 a, n := 1, kind := 0, wr := false } with
    | (.error _, s) => (none, s)
    | (.ok ps, s) => match s.loadPlaces k ps with
      | ((_, true), s) => (none, s)
      | ((b, false), s) => State.crcOver s k asid n (a + 1) (crcByte c b)

/-- The signature of a dual copy whose frame is at an address (R400). -/
def State.signature (s : State) (k asid : Nat) (frame : Word) : Option (BitVec 64) × State :=
  match s.readAt k asid 0 frame with
  | (none, s) => (none, s)
  | (some out, s) => match s.readAt k asid 0 (frame + 8) with
    | (none, s) => (none, s)
    | (some len, s) => match s.crcOver k asid len out 0 with
      | (none, s) => (none, s)
      | (some c, s) => (some (w64 c), s)

/-- A slice ends by YIELDS (R248, R469). -/
def State.yieldSlice (s : State) (k : Nat) (sl : Slice) (code frame : Word) : State :=
  s.hwEnqueue (clusterOf k) sl.queue k ((sl.rec_.set 0 code).set 1 frame) 0

/-- Cores become free (R39, R240, R249). -/
def State.freeCores (s : State) (ks : List Nat) : State := ks.foldl State.freeCore s

/-- A slice ends by RETIRE (R240): its join, and its cores are free when that is done. -/
def State.joinSlice (s : State) (k : Nat) (sl : Slice) (cores : List Nat) : State :=
  if sl.rec_.join = 0 then s.freeCores cores
  else match s.joinSteps k sl.rec_.asid 0 sl.rec_.join none cores with
    | (some 1, s) => s
    | (_, s) => s.freeCores cores

/-- Whether the conditions of R39 hold. -/
def Core.sliceDone (c : Core) : Bool :=
  ((List.finRange 11).all fun x => x == 0 || (c.ctx x).st == .free) && c.cq.isEmpty && c.tags.toList.all fun t => t.st == .idle

/-- Whether the release of R240 step 1 can be made: no pair of the core is on its way. -/
def State.coreQuiet (s : State) (k : Nat) : Bool := (List.range 11).all fun x => !s.pairsOut k x

/-- The end of the slice of core k, whose join and release are done with (R39, R240, R248, R400): a dual copy hands its signature on. -/
def State.endSlice (s : State) (k : Nat) (sl : Slice) (yields : Option (Word × Word)) : State :=
  match sl.dual with
  | some d =>
    let (g, s) := s.signature k sl.rec_.asid (sl.rec_[1] + w64 (64 * d.1))
    let s := s.modCore k fun c => { c with slice := c.slice.map fun sl => { sl with sig := some g } }
    (match (s.core d.2).slice.bind (·.sig) with
    | some _ => s.postMore ⟨.dualSignatureCompare, [min k d.2]⟩
    | none => s)
  | none => match yields with
    | some y => (s.yieldSlice k sl y.1 y.2).freeCore k
    | none => s.joinSlice k sl [k]

/-- The end of the slice of core k where context 0 is Retiring and the conditions of R39 hold; else it is looked at again in the next cycle, if `again`. The release of a slice with a JOIN is
made first (R240 step 1). -/
def State.sliceEnd (again : Bool) (s : State) (k : Nat) : State :=
  let later : State → State := fun s => if again then s.postMore ⟨.sliceEnd, [k]⟩ else s
  let c := s.ctx k 0
  if c.st ≠ .retiring then s
  else if !s.retireReady k 0 || !c.poisonQ.isEmpty then later s
  else match s.retireSteps k 0 with
    | (some t, s) => (s.revive k 0).takeTrap k 0 t
    | (none, s) =>
      if !(s.core k).sliceDone || !c.copyQ.isEmpty || c.cpyiQ.any c.cpyiReady then later s
      else match (s.core k).slice with
        | none => s.freeCore k
        | some sl =>
          if sl.rec_.join = 0 then s.endSlice k sl c.yields
          else if !s.coreQuiet k then later s
          else (s.siFlush k).endSlice k sl c.yields

/-- SLICE_END (R39, R240, R248, R400). -/
def execSliceEnd (s : State) : Host.Outcome State Fault Refusal := event (fun s => State.sliceEnd true s (s.arg 0)) s

/-- HELPER_RETIRE_COMPLETE (R38, R54): the last helper to end lets the slice end in the same cycle (R39). -/
def execHelperRetireComplete (s : State) : Host.Outcome State Fault Refusal :=
  event (fun s =>
    let k := s.arg 0
    let x := cix (s.arg 1)
    if (s.ctx k x).st ≠ .retiring then s
    else if !s.retireReady k x || !(s.ctx k x).poisonQ.isEmpty then s.postMore ⟨.helperRetireComplete, [k, x.val]⟩
    else match s.retireSteps k x with
      | (some t, s) => (s.revive k x).takeTrap k x t
      | (none, s) => State.sliceEnd false (((s.leaveTags k x).modCtx k x fun c => { c with st := .free }).cqClaim k) k) s

/-- JOIN_CONTINUATION_ENQUEUE (R240 step 3): operands the core, the physical and virtual address of the join block, and the cores that become free after it. For an SJOIN on a join block
in scratchpad (R398) the second operand is 2^64 plus the ASID and level under which the block is read where it lies. -/
def execJoinContinuationEnqueue (s : State) : Host.Outcome State Fault Refusal :=
  event (fun s =>
    let cores := (s.ev.drop 3).filter fun k => (s.ctx k 0).st == .retiring
    if 2 ^ 64 ≤ s.arg 1 then s.joinLocal (s.arg 0) ((s.arg 1 - 2 ^ 64) / 4) (s.arg 1 % 4) (w64 (s.arg 2))
    else (s.joinContinue (s.arg 0) (s.arg 1) (w64 (s.arg 2))).freeCores cores) s

/-- DUAL_SIGNATURE_COMPARE (R249, R467, R468): k is the lower core of the pair, and both cores are freed after the join. Where the copies have ended by YIELDS, one record is enqueued
again, with the CODE and FRAME that the copy of the lower core named (DESIGN CHOICE, log entry 49: the spec does not say which copy's operands count). -/
def execDualSignatureCompare (s : State) : Host.Outcome State Fault Refusal :=
  event (fun s =>
    let k := s.arg 0
    match (s.core k).slice with
    | none => s
    | some sl => match sl.dual, sl.sig with
      | some d, some g => match (s.core d.2).slice.bind (·.sig) with
        | none => s
        | some h =>
          if g.isNone || h.isNone then (s.failSlice k sl 3 (min k d.2) (some (k, d.2))).freeCores [k, d.2]
          else if g ≠ h then (s.failSlice k sl 2 (min k d.2) (some (k, d.2))).freeCores [k, d.2]
          else match (s.ctx k 0).yields with
            | some y => (s.yieldSlice k sl y.1 y.2).freeCores [k, d.2]
            | none => s.joinSlice k sl [k, d.2]
      | _, _ => s) s

/-! ## Machine checks (R457) -/

/-- The machine check taken next: the oldest, corrected errors last. -/
def nextCheck (q : List (Nat × Word × Word)) : Option (Nat × Word × Word) :=
  match q.find? (·.1 != 0x88) with
  | some e => some e
  | none => q.head?

end Sys2Proof.Machine
end

