-- ==== Sys2Proof/Machine/Memory.lean ====
section
/-!
DEFINITION. Scalar and vector loads and stores, gather and scatter, futures, synchronisation atomics, fences and prefetch: OP 0x30 to 0x39 (R280
to R292).
-/

namespace Sys2Proof.Machine

/-! ## One access -/

/-- Whether a byte lies in plain scratchpad of core k, whichever address names it (R167, R280). -/
def Place.plain (k : Nat) : Place → Bool
  | .spad j _ => j == k
  | _ => false

/-- Whether every byte lies in plain scratchpad of the issuing core (R280). -/
def plainPlaces (k : Nat) (ps : List Place) : Bool := ps.all (Place.plain k)

/-- Whether a byte lies in a window (R479). -/
def inWindow (ps : List Place) : Bool := ps.any fun p => match p with
  | .win _ _ _ _ _ => true
  | _ => false

/-- The device register that an access names (R418, R419). -/
def regPlace (ps : List Place) : Option Nat := match ps.head? with
  | some (.phys pa _) => if isReg pa then some pa else none
  | _ => none

/-- The bytes of a load as a doubleword: extended by sign or by zero (R282). -/
def extend (n : Nat) (u : Bool) (x : Nat) : Word := if u then w64 (x % 2 ^ (8 * n)) else sext64 x (8 * n)

/-- A load of n bytes into g: a plain scratchpad load writes at once, any other is a long-latency producer (R70, R280); poison under R479. `rs`: the registers of the address, whose streams
are popped before an acquire discards what they have fetched. -/
def loadG (rs : List Ref) (d : GReg) (a : Word) (sz : Size) (u acq stk : Bool) : X Unit := do
  let n := sz.bytes
  let ps ← check { va := a, n := n, kind := 0, wr := false, align := if acq then n else 1, stk := stk, dev := n == 8 }
  match regPlace ps with
  | some pa => do
    let s ← getS
    let t ← cx
    match s.regRead pa t.priv with
    | none => privTrap
    | some x => produce (s.latencyOf s.act 0 ps) [.g d x] 0 none
  | none => do
    waitLoad ps
    let s ← getS
    let (x, bad) ← loadP ps
    if plainPlaces s.act ps then
      if bad then trap 0x0C (memDetail n 0 0 0) a else wrG d (extend n u x)
    else if bad && inWindow ps then trap 0x0C (memDetail n 0 0 5) a
    else produceAs (s.latencyOf s.act 0 ps) false [.g d (extend n u x)] 0 (if bad then some a else none) (peerAddr ps a)
  pops rs
  if acq then acquire .mod else pure ()

/-- Ticks for which a store to a device register holds its context: about the latency of a remote-die L2 access (R419, R29). -/
def regStoreTicks : Nat := 160

/-- A store of the low bytes of x (R283): a release of ST.REL completes first, and the write-backs of R197 come before a store to a device register, which is a UC store. -/
def storeG (x : Word) (a : Word) (sz : Size) (rel stk : Bool) : X Unit := do
  let n := sz.bytes
  let ps ← check { va := a, n := n, kind := 1, wr := true, align := if rel then n else 1, stk := stk, dev := n == 8 }
  if rel then release .mod else pure ()
  match regPlace ps with
  | some pa => do
    let s ← getS
    let t ← cx
    waitNode
    match (s.siFlush s.act).regWrite pa t.priv x with
    | none => privTrap
    | some s' => do
      modS fun _ => s'
      modCx fun c => { c with wake := s.time + regStoreTicks }
  | none => do
    waitStore ps
    storeP ps x.toNat

/-- ea(base, off) of a signed displacement in 20 bits (R280). -/
def eaDisp (base : Word) (disp : BitVec 20) : Word := base + sext64 disp.toNat 20

/-- LD (R282). -/
def execLd (d : GReg) (a : GSrc) (sz : Size) (u acq : Bool) (disp : BitVec 20) (s : State) : Host.Outcome State Fault Refusal :=
  issueSeq (do
    ready [a.op 0, dG d]
    let x ← rdG a.r
    loadG [.g a.r] d (eaDisp x disp) sz u acq (a.r == 62)) s

/-- ST (R283): gD is read through D. -/
def execSt (d : GReg) (a : GSrc) (sz : Size) (rel : Bool) (disp : BitVec 20) (s : State) : Host.Outcome State Fault Refusal :=
  issueSeq (do
    ready [a.op 0, sG d]
    let x ← rdG a.r
    let y ← rdG d
    storeG y (eaDisp x disp) sz rel (a.r == 62)
    pops [.g a.r, .g d]) s

/-- LDX (R284). -/
def execLdx (d : GReg) (a b : GSrc) (sh : BitVec 3) (sz : Size) (u acq : Bool) (s : State) : Host.Outcome State Fault Refusal :=
  issueSeq (do
    ready [a.op 0, b.op 1, dG d]
    let x ← rdG a.r
    let y ← rdG b.r
    loadG [.g a.r, .g b.r] d (x + (y <<< sh.toNat)) sz u acq (a.r == 62)) s

/-- STX (R284). -/
def execStx (d : GReg) (a b : GSrc) (sh : BitVec 3) (sz : Size) (rel : Bool) (s : State) : Host.Outcome State Fault Refusal :=
  issueSeq (do
    ready [a.op 0, b.op 1, sG d]
    let x ← rdG a.r
    let y ← rdG b.r
    let z ← rdG d
    storeG z (x + (y <<< sh.toNat)) sz rel (a.r == 62)
    pops [.g a.r, .g b.r, .g d]) s

/-! ## Vector accesses (R285 to R287) -/

/-- LDV (R285). -/
def execLdv (d : VReg) (a : GSrc) (disp : BitVec 20) (s : State) : Host.Outcome State Fault Refusal :=
  issueSeq (do
    ready [a.op 0, dV d]
    let x ← rdG a.r
    let ea := eaDisp x disp
    let ps ← check { va := ea, n := 128, kind := 0, wr := false, stk := a.r == 62 }
    waitLoad ps
    let s ← getS
    let (y, bad) ← loadP ps
    if plainPlaces s.act ps then
      if bad then trap 0x0C (memDetail 128 0 0 0) ea else wrV d (BitVec.ofNat 1024 y)
    else if bad && inWindow ps then trap 0x0C (memDetail 128 0 0 5) ea
    else produceAs (s.latencyOf s.act 1 ps) false [.v d (BitVec.ofNat 1024 y)] 0 (if bad then some ea else none) (peerAddr ps ea)
    pops [.g a.r]) s

/-- STV (R285). -/
def execStv (d : VReg) (a : GSrc) (disp : BitVec 20) (s : State) : Host.Outcome State Fault Refusal :=
  issueSeq (do
    ready [a.op 0, sV d]
    let x ← rdG a.r
    let y ← rdV d
    let ea := eaDisp x disp
    let ps ← check { va := ea, n := 128, kind := 1, wr := true, stk := a.r == 62 }
    waitStore ps
    storeP ps y.toNat
    pops [.g a.r, .v d]) s

/-- Whether element i is active under an optional predicate. -/
def Ctx.active (t : Ctx) (pr : Option PReg) (i : Nat) : Bool := match pr with
  | none => true
  | some p => t.p[p].getLsbD i

/-- The number whose fields of w bits are the entries of a list, lowest first. -/
def packLanes (w : Nat) (xs : List Nat) : Nat := xs.foldr (fun x r => x % 2 ^ w + 2 ^ w * r) 0

/-- Load each of a list of accesses in order: value, whether poisoned, address. -/
def loadList : List (Word × List Place) → X (List (Nat × Bool × Word))
  | [] => pure []
  | (a, ps) :: t => do
    let (x, bad) ← loadP ps
    let r ← loadList t
    pure ((x, bad, a) :: r)

/-- Cycles of the elements of a vector access at some offsets of a core's own scratchpad: 5 + max over banks of 4 × (k − 1) + w, with k the elements in a bank (R299). -/
def State.spreadCycles (s : State) (k : Nat) (offs : List Nat) : Nat :=
  5 + ((List.range 16).map fun b =>
    let n := (offs.filter fun o => decide (o / 8 % 16 = b)).length
    if n = 0 then 0 else 4 * (n - 1) + s.slotWait k 1 (8 * b)).foldl max 0

/-- The offset of an element that lies in plain scratchpad of core k. -/
def plainOff (k : Nat) (ps : List Place) : Option Nat := match ps.head? with
  | some (.spad j off) => if j = k then some off else none
  | _ => none

/-- Ticks to the last element of a vector access (R29, R190, R299). -/
def State.spreadLatency (s : State) (k : Nat) (ps : List (List Place)) : Nat :=
  let offs := ps.filterMap (plainOff k)
  max (if offs.isEmpty then 1 else s.cyc k (s.spreadCycles k offs)) (s.latencyOf k 1 (ps.flatten.filter (!·.plain k)))

/-- The elements of a vector load: element number and address of each active one, checked, then loaded. The list holds, for every element, its value or 0; then whether
all lie in plain scratchpad, the first poisoned access, the ticks to the last element, and the first access to a peer. -/
def gatherElems (addrs : List (Option Word)) (w : Nat) (stk : Bool) : X (List Nat × Bool × Option (Word × Bool) × Nat × Option Word) := do
  let act := addrs.filterMap id
  let ps ← checkAll (act.map fun a => { va := a, n := w, kind := 0, wr := false, align := w, stk := stk })
  waitLoad ps.flatten
  let s ← getS
  let xs ← loadList (act.zip ps)
  let plain := (act.zip ps).all fun e => plainPlaces s.act e.2
  let bad := (xs.zip ps).findSome? fun e => if e.1.2.1 then some (e.1.2.2, inWindow e.2) else none
  let vals := (addrs.foldl (fun (acc : List Nat × List (Nat × Bool × Word)) o => match o, acc.2 with
    | some _, x :: t => (acc.1 ++ [x.1], t)
    | _, t => (acc.1 ++ [0], t)) ([], xs)).1
  pure (vals, plain, bad, s.spreadLatency s.act ps, (act.zip ps).findSome? fun e => peerAddr e.2 e.1)

/-- Write the destination of a vector load (R280, R479). `late`: a long-latency producer wherever its elements lie. -/
def vecResult (d : VReg) (x : VWord) (plain late : Bool) (bad : Option (Word × Bool)) (w : Nat) (lat : Nat × Option Word) : X Unit :=
  match bad with
  | some (a, win) =>
    if win then trap 0x0C (memDetail w 0 0 5) a
    else if plain && !late then trap 0x0C (memDetail w 0 0 0) a
    else produceAs lat.1 false [.v d x] 0 (some a) lat.2
  | none => if plain && !late then wrV d x else produceAs lat.1 false [.v d x] 0 none lat.2

/-- The addresses of the active elements of LDVS and STVS (R286). -/
def strideAddrs (t : Ctx) (pr : Option PReg) (base stride : Word) (n : Nat) : List (Option Word) :=
  (List.range n).map fun i => if t.active pr i then some (base + stride * w64 i) else none

/-- LDVS (R286). -/
def execLdvs (d : VReg) (a b : GSrc) (pr : Option PReg) (sz : ESize) (s : State) : Host.Outcome State Fault Refusal :=
  issueSeq (do
    ready [a.op 0, b.op 1, dV d]
    let x ← rdG a.r
    let y ← rdG b.r
    let t ← cx
    let w := sz.bytes
    let (vals, plain, bad, lat) ← gatherElems (strideAddrs t pr x y (128 / w)) w (a.r == 62)
    vecResult d (BitVec.ofNat 1024 (packLanes (8 * w) vals)) plain false bad w lat
    pops [.g a.r, .g b.r]) s

/-- Check every active element, then store them in ascending order (R286, R287). -/
def scatterElems (elems : List (Option Word × Nat)) (w : Nat) (stk : Bool) : X Unit := do
  let act := elems.filterMap fun e => e.1.map fun a => (a, e.2)
  let ps ← checkAll (act.map fun e => { va := e.1, n := w, kind := 1, wr := true, align := w, stk := stk })
  waitStore ps.flatten
  (act.zip ps).forM fun e => storeP e.2 e.1.2

/-- STVS (R286). -/
def execStvs (d : VReg) (a b : GSrc) (pr : Option PReg) (sz : ESize) (s : State) : Host.Outcome State Fault Refusal :=
  issueSeq (do
    ready [a.op 0, b.op 1, sV d]
    let x ← rdG a.r
    let y ← rdG b.r
    let z ← rdV d
    let t ← cx
    let w := sz.bytes
    scatterElems ((strideAddrs t pr x y (128 / w)).zipIdx.map fun e => (e.1, bits z.toNat (8 * w * e.2) (8 * w))) w (a.r == 62)
    pops [.g a.r, .g b.r, .v d]) s

/-- The addresses of the active lanes of GATH, SCATV and UPDV (R287, R296). -/
def indexAddrs (t : Ctx) (pr : Option PReg) (base : Word) (idx : VWord) (sc : Nat) : List (Option Word) :=
  (List.range 32).map fun i => if t.active pr i then some (base + (sext64 (lane32 idx i) 32 <<< sc)) else none

/-- GATH (R287): always a long-latency producer. -/
def execGath (d : VReg) (a : GSrc) (b : VSrc) (pr : Option PReg) (sc : BitVec 2) (u : Bool) (sz : ESize) (s : State) :
    Host.Outcome State Fault Refusal :=
  issueSeq (do
    ready [a.op 0, b.op 1, dV d]
    let x ← rdG a.r
    let y ← rdV b.r
    let t ← cx
    let w := sz.bytes
    let (vals, plain, bad, lat) ← gatherElems (indexAddrs t pr x y sc.toNat) w (a.r == 62)
    vecResult d (BitVec.ofNat 1024 (packLanes 32 (vals.map fun v => (extend w u v).toNat))) plain true bad w lat
    pops [.g a.r, .v b.r]) s

/-- SCATV (R287). -/
def execScatv (d : VReg) (a : GSrc) (b : VSrc) (pr : Option PReg) (sc : BitVec 2) (sz : ESize) (s : State) : Host.Outcome State Fault Refusal :=
  issueSeq (do
    ready [a.op 0, b.op 1, sV d]
    let x ← rdG a.r
    let y ← rdV b.r
    let z ← rdV d
    let t ← cx
    scatterElems ((indexAddrs t pr x y sc.toNat).zipIdx.map fun e => (e.1, lane32 z e.2)) sz.bytes (a.r == 62)
    pops [.g a.r, .v b.r, .v d]) s

/-! ## Accesses at the home (R288 to R290) -/

/-- The physical address behind the places of an access (R290). -/
def homePa (ps : List Place) : Option Nat := ps.head?.bind Place.pa?

/-- An atomic on n bytes: the old value and whether it is poisoned; a poisoned one writes nothing (R290, R479). The write-backs of R197 come before its write. -/
def atomic (ps : List Place) (n : Nat) (f : Nat → Option Nat) : X (Nat × Bool) :=
  match homePa ps with
  | some pa => fun s =>
    let (old, s) := s.syncRead s.act ps pa n
    if s.anyPoisonFor s.act pa n then .ok ((old, true), s)
    else match f old with
      | some y => .ok ((old, false), ((s.siFlush s.act).homeWrite pa n y).patchStreams s.act (ps.map Place.loc) y)
      | none => .ok ((old, false), s)
  | none => do
    let (old, bad) ← loadP ps
    if bad then pure (old, true)
    else match f old with
      | some y => do
        storeP ps y
        pure (old, false)
      | none => pure (old, false)

/-- Ticks of an atomic (R299): 9 + w in scratchpad, in two slots of class 2 (R290); at a home the home's latency. In another core's scratchpad two rows of R299 apply, 24 + w and 9 + w, and
the rule does not say how they add up: 28 + w, the way of R190 with the second slot (DESIGN CHOICE, log entry 56). -/
def State.atomicLatency (s : State) (k : Nat) (ps : List Place) : Nat := match ps.head? with
  | some (.spad j off) => s.cyc k ((if j = k then 9 else 28) + s.slotWait k 2 off)
  | some (.win _ _ _ pa attr) | some (.phys pa attr) => s.homeLatency k pa (attr == .dir)
  | none => 1

/-- The result of an atomic (R290). -/
def atomicG (d : GReg) (a : Word) (dw stk : Bool) (f : Nat → Option Nat) : X Unit := do
  let n := if dw then 8 else 4
  let ps ← check { va := a, n := n, kind := 2, wr := true, align := n, stk := stk, home := true }
  waitNode
  waitPairs ps
  let s ← getS
  let (old, bad) ← atomic ps n f
  produceAs (s.atomicLatency s.act ps) false [.g d (sext64 old (8 * n))] 0 (if bad then some a else none) (peerAddr ps a)

/-- SWAP (R290). -/
def execSwap (d : GReg) (a b : GSrc) (dw : Bool) (s : State) : Host.Outcome State Fault Refusal :=
  issueSeq (do
    ready [a.op 0, b.op 1, dG d]
    let x ← rdG a.r
    let y ← rdG b.r
    atomicG d x dw (a.r == 62) fun _ => some y.toNat
    pops [.g a.r, .g b.r]) s

/-- CAS (R290). -/
def execCas (d : GReg) (a b c : GSrc) (dw : Bool) (s : State) : Host.Outcome State Fault Refusal :=
  issueSeq (do
    ready [a.op 0, b.op 1, c.op 2, dG d]
    let x ← rdG a.r
    let y ← rdG b.r
    let z ← rdG c.r
    atomicG d x dw (a.r == 62) fun old => if old = (if dw then z.toNat else fld z 0 32) then some y.toNat else none
    pops [.g a.r, .g b.r, .g c.r]) s

/-- FADD (R290). -/
def execFadd (d : GReg) (a b : GSrc) (dw : Bool) (s : State) : Host.Outcome State Fault Refusal :=
  issueSeq (do
    ready [a.op 0, b.op 1, dG d]
    let x ← rdG a.r
    let y ← rdG b.r
    atomicG d x dw (a.r == 62) fun old => some ((old + y.toNat) % 2 ^ (if dw then 64 else 32))
    pops [.g a.r, .g b.r]) s

/-- Entries of the deferral buffer (R288). -/
def deferralSize : Nat := 256

/-- Entries of the deferral buffer that are in use: LDFs that are deferred, and those whose ready answer is on its way (R288). -/
def Core.deferrals (c : Core) : Nat := c.ldfs.length + (c.ctxs.toList.flatMap fun t => t.prods.filter (·.entry)).length

/-- The home decides an LDF (R288): ready, or deferred with its waiter recorded. A register in stream mode is not set empty: the answer is pushed (R280). -/
def ldfHome (d c : GReg) (a : Word) (ps : List Place) (pa : Nat) : X Unit := do
  let s ← getS
  let lat := s.atomicLatency s.act ps
  let (x, bad) ← runS fun s =>
    let (x, s) := s.syncRead s.act ps pa 8
    ((x, s.anyPoisonFor s.act pa 8), s)
  if bad then produceAs lat true [.g d 0, .g c 0] 0 (some a) (peerAddr ps a)
  else if s.isEmpty pa then do
    modCx fun t => [d, c].foldl (fun (u : Ctx) r => if (t.slotG r).isSome then u else u.markG r false) t
    modCo fun y => { y with ldfs := y.ldfs ++ [⟨s.actx.val, d, c, pa, a, false, false, s.moves⟩] }
  else produceAs lat true [.g d (w64 x), .g c 0] 0 none (peerAddr ps a)

/-- LDF (R288). -/
def execLdf (d : GReg) (a : GSrc) (c : GReg) (s : State) : Host.Outcome State Fault Refusal :=
  issueSeq (do
    ready [a.op 0, dG d, dG c]
    let x ← rdG a.r
    let ps ← check { va := x, n := 8, kind := 2, wr := false, align := 8, fut := true, stk := a.r == 62, home := true }
    waitPairs ps
    let y ← co
    if deferralSize ≤ y.deferrals then wrG c 1
    else match homePa ps with
      | some pa => ldfHome d c x ps pa
      | none => pure ()
    pops [.g a.r]) s

/-- The checked place of STF and CLRF (R289). -/
def futurePlace (a : Word) (stk : Bool) : X (Option Nat × List Place) := do
  let ps ← check { va := a, n := 8, kind := 2, wr := true, align := 8, fut := true, stk := stk, home := true }
  pure (homePa ps, ps)

/-- STF (R289): gD is read through D. -/
def execStf (d : GReg) (a : GSrc) (s : State) : Host.Outcome State Fault Refusal :=
  issueSeq (do
    ready [a.op 0, sG d]
    let x ← rdG a.r
    let y ← rdG d
    let (pa, ps) ← futurePlace x (a.r == 62)
    release .mod
    waitPairs ps
    match pa with
    | some pa => modS fun s => ((s.dropAt s.act pa 8).fillFuture pa y).patchStreams s.act (ps.map Place.loc) y.toNat
    | none => pure ()
    pops [.g a.r, .g d]) s

/-- CLRF (R289). -/
def execClrf (a : GSrc) (s : State) : Host.Outcome State Fault Refusal :=
  issueSeq (do
    ready [a.op 0]
    let x ← rdG a.r
    let (pa, ps) ← futurePlace x (a.r == 62)
    waitNode
    waitPairs ps
    match pa with
    | some pa => modS fun s => ((s.siFlush s.act).dropAt s.act pa 8).clearFuture pa
    | none => pure ()
    pops [.g a.r]) s

/-! ## Fences and prefetch (R291, R292) -/

/-- FENCE.FULL (R207). -/
def execFenceFull (sc : Scope) (s : State) : Host.Outcome State Fault Refusal :=
  issueSeq (do
    release sc
    acquire sc) s

/-- FENCE.ACQ (R204): every earlier load of the context has been performed. -/
def execFenceAcq (sc : Scope) (s : State) : Host.Outcome State Fault Refusal :=
  issueSeq (do
    waitNode
    acquire sc) s

/-- FENCE.REL (R203). -/
def execFenceRel (sc : Scope) (s : State) : Host.Outcome State Fault Refusal := issueSeq (release sc) s

/-- FENCE.ENG (R217): no command of the context is on its way, but for one stopped by a copy fault, and no MXU operation. What they wrote into windows of SI pages is performed beyond
the core where the scope is wider. The elements that streams of the context have fetched are loads before the fence, so that later pops fetch them again. -/
def execFenceEng (sc : Scope) (s : State) : Host.Outcome State Fault Refusal :=
  issueSeq (do
    let st ← getS
    let c ← co
    let t ← cx
    waitUnless (t.mxu == 0 && !c.tags.toList.any fun g =>
      (g.st == .busy || g.st == .srcDone) && (g.cmd.map (·.ctx)) == some st.actx.val)
    if sc.wide then modS fun s => s.flushAway s.act else pure ()
    modS fun s => s.acquire s.act s.actx false) s

/-- FENCE.INSN (R114). -/
def execFenceInsn (s : State) : Host.Outcome State Fault Refusal := issueSeq (modCo fun c => { c with icache := [] }) s

/-- The V copy of a word in the L1 of core k. -/
def State.cleanCopy (s : State) (k w : Nat) : Option Copy := (sget (s.core k).l1 w).filter fun y => y.valid (s.core k).ep && y.st != .d

/-- Ownership of a word that core k holds in V under DIR (R178, R179). -/
def State.ownClean (s : State) (k w : Nat) : State := match s.cleanCopy k w with
  | some y => if y.attr = .dir then ((s.invalidate (some k) false w).dirOwn w k).modCore k fun c => { c with l1 := sset c.l1 w { y with st := .d } } else s
  | none => s

/-- Ownership of the words of a line that core k holds in V under DIR, by one request (R178, R179, R292). -/
def State.ownLine (s : State) (k line : Nat) : State :=
  let need := maskOf fun i => (s.cleanCopy k (16 * line + i)).isSome
  if need = 0 then s
  else (List.range 16).foldl (fun s i => s.ownClean k (16 * line + i)) (s.request k line need (s.homeLatency k (64 * line) true))

/-- The V copy of a word of a window of core k. -/
def State.cleanWinCopy (s : State) (k wi i : Nat) : Option Copy := ((s.core k).winCopy wi (4 * i)).filter fun y => y.valid (s.core k).ep && y.st != .d

/-- Ownership of the words of a line that core k holds in V in a window under DIR, whose words begin at word i of the window, by one request (R178, R179, R292). -/
def State.ownWinLine (s : State) (k wi i line : Nat) : State :=
  let need := maskOf fun j => (s.cleanWinCopy k wi (i + j)).isSome
  if need = 0 then s
  else (List.range 16).foldl (fun s j => match s.cleanWinCopy k wi (i + j) with
    | some y => ((s.invalidate (some k) false y.w).dirOwn y.w k).modCore k fun c => c.putWin wi (i + j) (some { y with st := .d })
    | none => s) (s.request k line need (s.homeLatency k (64 * line) true))

/-- The line of a prefetch (R292): into its home slice; or into the holder that serves its address, the L1 or a window (R176), with ownership of its words for the W form. -/
def State.prefetch (s : State) (k : Nat) (lv : PLevel) (w : Bool) : Place → State
  | .spad _ _ => s
  | .phys pa attr =>
    if attr = .uc ∨ (sget s.bins (pageOf pa)).isSome then s
    else if lv = .l2 then s.l2Use pa
    else
      let s := s.fillL1 k (pa / 64) attr
      if w && attr == .dir then s.ownLine k (pa / 64) else s
  | .win _ wi off pa attr =>
    if attr = .uc ∨ (sget s.bins (pageOf pa)).isSome then s
    else
      let s := s.fillWin k wi off pa attr
      if w && attr == .dir then s.ownWinLine k wi (off / 64 * 16) (pa / 64) else s

/-- Whether every tracking entry of a core is busy (R193). -/
def State.trackBusy (s : State) (k : Nat) : Bool := decide (trackSize ≤ ((s.core k).track.filter fun e => decide (s.time < e.due)).length)

/-- PREF (R292): dropped without effect where it would fault, for UC and Pending pages, and while every tracking entry is busy. -/
def execPref (a : GSrc) (lv : PLevel) (w : Bool) (disp : BitVec 20) (s : State) : Host.Outcome State Fault Refusal :=
  issueSeq (do
    ready [a.op 0]
    let x ← rdG a.r
    let s ← getS
    let t ← cx
    let ea := eaDisp x disp
    if 2 ^ 48 ≤ ea.toNat ∨ rangeOf ea.toNat ≠ 2 ∨ s.trackBusy s.act then pure ()
    else match ← bytePlace { va := ea, n := 1, kind := 0, wr := w, home := lv == .l2, own := true } s.act t.asid t.priv ea.toNat with
      | .error _ => pure ()
      | .ok p => modS fun s => s.prefetch s.act lv w p
    pops [.g a.r]) s

end Sys2Proof.Machine
end

