-- ==== Sys2Proof/Machine/Updates.lean ====
section
/-!
DEFINITION. Windows, update pairs and update regions: OP 0x3A to 0x3D (R293 to R298), the update buffer, U partials and the Bushel (10), the requests that
homes serve (R179, R290), and invalidation of translations (R413, R189).
-/

namespace Sys2Proof.Machine

/-! ## Windows (R293, R294) -/

/-- Bytes from CSAP that the images and the continuation queue take (R53, R97). -/
def saveArea : Nat := 38016 + 64 * 704

/-- Whether two ranges of bytes overlap. -/
def overlaps (a n b m : Nat) : Bool := decide (a < b + m) && decide (b < a + n)

/-- Whether a range-lock extent of core k overlaps a range (R293, R294). -/
def Core.lockedOver (c : Core) (k a n : Nat) : Bool := c.locks.any fun l => (extNames k (a, n)).any fun e => overlaps l.a l.n e.1 e.2

/-- The result code of WMAP (R293). Where several refusals apply it is the lowest code: the rule gives them no order (DESIGN CHOICE, log entry 57). -/
def Core.wmapCode (c : Core) (w : Fin 8) (base va len : Nat) : Nat :=
  let others := c.wins.toList.filterMap id
  if (c.wins[w]).isSome then 1
  else if base % 256 ≠ 0 ∨ va % 256 ≠ 0 ∨ len % 256 ≠ 0 ∨ len < 256 ∨ 131072 < len ∨ 0x20000 < base + len then 2
  else if (others.any fun o => overlaps o.base o.len base len) ∨ overlaps (c.imageAt 0) saveArea base len = true then 3
  else if (others.any fun o => overlaps o.va o.len va len) ∨ rangeOf va ≠ 2 ∨ rangeOf (va + len - 1) ≠ 2 ∨ 2 ^ 48 < va + len then 4
  else 0

/-- WMAP (R293). -/
def execWmap (d : GReg) (a b c : GSrc) (w : BitVec 3) (s : State) : Host.Outcome State Fault Refusal :=
  issueSeq (do
    ready [a.op 0, b.op 1, c.op 2, dG d]
    let base ← rdG a.r
    let va ← rdG b.r
    let len ← rdG c.r
    let y ← co
    let t ← cx
    let s ← getS
    let i := Fin.ofNat 8 w.toNat
    waitUnless (!(y.lockedOver s.act base.toNat len.toNat || y.lockedOver s.act va.toNat len.toNat))
    let code := y.wmapCode i base.toNat va.toNat len.toNat
    wrG d (w64 code)
    if code = 0 then
      modCo fun y => { y with wins := y.wins.set i (some ⟨base.toNat, va.toNat, len.toNat, t.asid, [], []⟩) }
    else pure ()
    pops [.g a.r, .g b.r, .g c.r]) s

/-- The issuing context issues nothing more for n ticks: its instruction has not completed before then (R34). -/
def holdFor (n : Nat) : X Unit := do
  let s ← getS
  modCx fun c => { c with wake := max c.wake (s.time + n) }

/-- Ticks until the homes have accepted the write-backs of the D words of core k that satisfy a test (R29, R294). -/
def State.backTicks (s : State) (k : Nat) (p : Copy → Bool) : Nat :=
  ((s.core k).copies.filter fun y => y.st == .d && p y).foldl (fun n y => max n (s.homeLatency k (4 * y.w) false)) 0

/-- Whether a copy is one of window i of a core. -/
def Core.inWin (c : Core) (i : Fin 8) (y : Copy) : Bool := (c.wins[i]).any fun w => w.words.any fun e => e.2 == y

/-- Wait until no range-lock extent of the core overlaps a window (R294). -/
def windowUnlocked (w : BitVec 3) : X Unit := do
  let s ← getS
  let y := s.core s.act
  match y.wins[Fin.ofNat 8 w.toNat] with
  | none => pure ()
  | some o => waitUnless (!(y.lockedOver s.act o.base o.len || y.lockedOver s.act o.va o.len))

/-- WUNMAP (R294). -/
def execWunmap (w : BitVec 3) (s : State) : Host.Outcome State Fault Refusal :=
  issueSeq (do
    windowUnlocked w
    let s ← getS
    let i := Fin.ofNat 8 w.toNat
    modS fun s => s.unmapWindow s.act i
    holdFor (s.backTicks s.act ((s.core s.act).inWin i))) s

/-- WFLUSH (R294): the D words of the window become V. -/
def execWflush (w : BitVec 3) (s : State) : Host.Outcome State Fault Refusal :=
  issueSeq (do
    let s ← getS
    let here := (s.core s.act).inWin (Fin.ofNat 8 w.toNat)
    modS fun s => s.writeBack s.act here
    holdFor (s.backTicks s.act here)) s

/-- Whether a fill of window i of a core is outstanding (R193, R294). -/
def Core.winBusy (c : Core) (i : Fin 8) (t : Nat) : Bool :=
  (c.wins[i]).any fun w => w.words.any fun y => decide (c.trackWait y.2.w t ≠ 0)

/-- WINV (R294): the D values are discarded. -/
def execWinv (w : BitVec 3) (s : State) : Host.Outcome State Fault Refusal :=
  issueSeq (do
    windowUnlocked w
    let s ← getS
    let i := Fin.ofNat 8 w.toNat
    waitUnless (!(s.core s.act).winBusy i s.time)
    modS fun s => s.loseCopies s.act ((s.core s.act).inWin i)) s

/-! ## Invalidation of translations (R413, R189) -/

/-- Whether a copy of a core is a window word whose ASID and virtual address satisfy a test. -/
def Core.winHit (c : Core) (hit : Nat → Nat → Bool) (y : Copy) : Bool :=
  c.wins.toList.any fun o => o.any fun (w : Window) => w.words.any fun e => e.2 == y && hit w.asid (w.va + 4 * e.1)

/-- Words of the windows of core k whose ASID and virtual address satisfy a test go to I, D words written back first (R189). A core in C2 or deeper that holds such words wakes
(R257). -/
def State.dropWindowWords (s : State) (k : Nat) (hit : Nat → Nat → Bool) : State :=
  let p := (s.core k).winHit hit
  if (s.core k).copies.any p then
    let s := if (s.core k).asleep then s.post ⟨.unitWake, [k]⟩ else s
    s.dropCopies k p
  else s

/-- Walks that run for a page whose ASID and virtual address satisfy a test start again (R175). -/
def State.restartWalks (s : State) (hit : Nat → Nat → Bool) : State :=
  s.clusters.foldl (fun s e => (e.2.walks.filter fun w => w.running && hit w.asid (4096 * w.page)).foldl (fun s w =>
    { s with pendingEv := s.pendingEv.filter fun p => p.2 != (⟨.pageWalkComplete, [e.1, w.asid, 4096 * w.page]⟩ : Ev) }.postWalk e.1 w.asid w.page) s) s

/-- The translations that a window's fills have used, without those that an invalidation removes (R189). -/
def Core.forgetPages (t : Tlb → Bool) (c : Core) : Core :=
  { c with wins := vmap (fun o => o.map fun (w : Window) => { w with pages := w.pages.filter fun x => !t x }) c.wins }

/-- Remove translations and cached ASID-table entries in every core and cluster, drop the window words they cover, and restart the walks for them (R413, R189, R175). -/
def State.tlbInv (s : State) (t : Tlb → Bool) (root : Nat → Bool) (win : Nat → Nat → Bool) : State :=
  let s := (s.cores.map (·.1)).foldl (fun s k => s.dropWindowWords k win) s
  { s with
    cores := s.cores.map fun (e : Nat × Core) => (e.1, { e.2.forgetPages t with tlb := e.2.tlb.filter fun x => !t x })
    clusters := s.clusters.map fun (e : Nat × Cluster) =>
      (e.1, { e.2 with tlb := e.2.tlb.filter fun x => !t x, roots := e.2.roots.filter fun r => !root r.1 }) }.restartWalks win

/-- The pages, by virtual base and size, that translations of an ASID held in a TLB, or made for the fills of a window, have and that meet a range (R413, R189). -/
def State.pagesMeeting (s : State) (asid va n : Nat) : List (Nat × Nat) :=
  let ts := (s.cores.flatMap fun e => e.2.tlb) ++ s.clusters.flatMap fun e => e.2.tlb
  let held := (ts.filter fun x => x.asid == asid).map fun x => (x.va, x.size)
  let wins := s.cores.flatMap fun e => e.2.wins.toList.flatMap fun o => match o with
    | some w => if w.asid = asid then w.pages.map fun x => (x.va, x.size) else []
    | none => []
  ((held ++ wins).filter fun p => overlaps p.1 p.2 va n).eraseDups

/-- Whether an address of an ASID lies on a page that an invalidation of a virtual range covers. -/
def State.covered (s : State) (asid va n : Nat) : Nat → Nat → Bool :=
  let ps := s.pagesMeeting asid va n
  fun a v => a == asid && (overlaps (pageOf va) (pageOf (va + n - 1) + 4096 - pageOf va) v 1 || ps.any fun p => overlaps p.1 p.2 v 1)

/-- Remove the translations of an ASID that meet a virtual range, and the window words on the pages they cover. -/
def State.tlbInvRange (s : State) (asid va n : Nat) : State :=
  s.tlbInv (fun x => x.asid == asid && overlaps x.va x.size va n) (fun _ => false) (s.covered asid va n)

/-- Whether an operation that keeps a translation made before is outstanding: an LDNM whose node is not fetched, or an MXU operation (R413). -/
def State.keepsPage (s : State) (p : Nat → Nat → Bool) : Bool :=
  (s.clusters.any fun e => e.2.yreq.any fun q => p q.key.1 q.key.2.2.1) ||
  s.octets.any fun e => (e.2.ops ++ e.2.running.toList).any fun o => (o.pages.pages.any fun g => p o.asid (g.1 * 4096)) || o.pages.wins.any fun w => p w.2.1 w.2.2.1

/-- Ticks of an invalidation of translations in every cluster (R413). -/
def tlbInvTicks : Nat := 400

/-! ## Update pairs (R295, R296) -/

/-- Pairs an update buffer holds (R226). -/
def bufferSize : Nat := 128

/-- Detail word of the update-region fault (R475). -/
def regionTrap (reason lane region : Nat) (a : Word) : Failed := (8, ⟨0x13, w64 (region * 2 ^ 16 + lane * 16 + reason), a, false⟩)

/-- The region and attribute that the translation of a checked address gives a pair (R224): the window's ASID where a window covers the address. A pair whose address is a local one is
refused for want of a region tag, in the local range of a window too: R226 has the window's translation for pairs whose address falls in a window, and does not say that a local address
does (DESIGN CHOICE, log entry 52). -/
def regionFor (a : Word) (ty : UType) (lane : Nat) : X (Except Failed (Nat × Attr × Bool)) := do
  let s ← getS
  let t ← cx
  let win := (s.core s.act).winVa a.toNat
  let asid := match win with
    | some (_, w) => w.asid
    | none => t.asid
  if rangeOf a.toNat ≠ 2 then pure (.error (regionTrap 1 lane 0 a))
  else match (s.translate s.act asid a.toNat).1 with
    | .error _ => pure (.error (regionTrap 1 lane 0 a))
    | .ok e => match e.region with
      | none => pure (.error (regionTrap 1 lane 0 a))
      | some r => if (s.region r).ty = ty then pure (.ok (r, e.attr, win.isSome)) else pure (.error (regionTrap 2 lane r a))

/-- One pair checked under R224 and R214: its physical address, region, attribute and whether a window covers it. -/
def checkPair (ty : UType) (stk : Bool) (lane : Nat) (a : Word) : X (Except Failed (Nat × Nat × Attr × Bool)) := do
  match ← checkOne { va := a, n := ty.bytes, kind := 6, wr := true, align := ty.bytes, stk := stk, home := true } with
  | .error e => pure (.error e)
  | .ok ps => match ← regionFor a ty lane with
    | .error e => pure (.error e)
    | .ok r => pure (.ok ((ps.head?.bind Place.pa?).getD 0, r))

/-- The first failure of a list in the order of R451. -/
def firstFailure {α : Type} : List (Except Failed α) → Option Failed
  | [] => none
  | .ok _ :: t => firstFailure t
  | .error e :: t => match firstFailure t with
    | some e2 => some (if e2.1 < e.1 then e2 else e)
    | none => some e

/-- The pairs of an instruction enter the update buffer (R226): lane, address and value of each. `refs`: the registers that it reads, whose range-lock checks come before an update-region fault
(R451). Elements of a stream that lie in their bin pages are fetched again, which waits for
the pairs and applies the pages (R218, R219). -/
def emit (refs : List Ref) (ty : UType) (stk : Bool) (ps : List (Nat × Word × Word)) : X Unit := do
  let y ← co
  waitUnless (decide (y.ubuf.length + ps.length ≤ bufferSize))
  let rs ← ps.mapM fun p => checkPair ty stk p.1 p.2.1
  match firstFailure rs with
  | some e => do
    if e.1 = 8 then popLocks refs else pure ()
    stop (.trap e.2)
  | none => do
    popLocks refs
    let s ← getS
    let new := (ps.zip rs).filterMap fun e => match e.2 with
      | .ok (pa, r, attr, win) => some (Pair.mk pa r (w64 (e.1.2.2.toNat % 2 ^ (8 * ty.bytes))) s.time s.act e.1.1 [s.actx.val] attr win false)
      | .error _ => none
    if new.isEmpty then pure ()
    else do
      modCo fun y => { y with ubuf := y.ubuf ++ new }
      modS fun s => s.cutStreams s.act fun l => match l with
        | .mem pa => new.any fun p => pageOf p.pa == pageOf pa
        | .spad _ _ => false
      modS fun s => s.post ⟨.updateBufferDrain, [s.act]⟩

/-- UPD (R295). -/
def execUpd (a b : GSrc) (ty : UType) (s : State) : Host.Outcome State Fault Refusal :=
  issueSeq (do
    ready [a.op 0, b.op 1]
    let x ← rdG a.r
    let y ← rdG b.r
    emit [.g a.r, .g b.r] ty (a.r == 62) [(0, x, y)]
    pops [.g a.r, .g b.r]) s

/-- UPDV (R296). -/
def execUpdv (a : GSrc) (b c : VSrc) (pr : Option PReg) (sc : BitVec 2) (ty : UType) (s : State) : Host.Outcome State Fault Refusal :=
  issueSeq (do
    ready [a.op 0, b.op 1, c.op 2]
    let x ← rdG a.r
    let y ← rdV b.r
    let z ← rdV c.r
    let t ← cx
    let lanes := (indexAddrs t pr x y sc.toNat).zipIdx.filterMap fun e => e.1.map fun ad => (e.2, ad, sext64 (lane32 z e.2) 32)
    emit [.g a.r, .v b.r, .v c.r] ty (a.r == 62) lanes
    pops [.g a.r, .v b.r, .v c.r]) s

/-! ## Draining and U partials (R226, R227) -/

/-- BINS of a die (R232). -/
def State.binsOf (s : State) (d : Nat) : Nat := fld (s.die d).bcfg 0 5

/-- Whether a pair may be combined in the L1 of its core (R226). -/
def State.combines (s : State) (p : Pair) : Bool :=
  let r := s.region p.region
  !p.window && p.attr == .dir && r.ty != .f32 && r.op != .cnt && r.op != .lasts && s.binsOf (homeDie p.pa) != 0

/-- Contexts of two pairs together. -/
def joinCtxs (a b : List Nat) : List Nat := a ++ b.filter fun x => !a.contains x

/-- A pair combined into the partial of its word, or into a new partial in a line of the L1, which asks for its grant (R227). -/
def State.combine (s : State) (p : Pair) : State :=
  let r := s.region p.region
  let w := p.pa / 4
  match (sget (s.core p.core).l1 w).bind fun y => y.uPart?.map fun u => (y.x, u) with
  | some (x, (rid, g, xs)) =>
    let e := entAdd r.op r.ty { BinEnt.zero with val := x } p.x.toNat 0 0 0
    s.modCore p.core fun c => { c with l1 := sset c.l1 w ⟨w, .u rid g (joinCtxs xs p.ctxs), e.val, .dir⟩ }
  | none =>
    let s := (s.dropAt p.core p.pa r.ty.bytes).l1Use p.core (p.pa / 64)
    (s.modCore p.core fun c => { c with l1 := sset c.l1 w ⟨w, .u p.region false p.ctxs, p.x.toNat, .dir⟩ }).postMore
      ⟨.uGrantRequest, [p.core, p.pa]⟩

/-- One pair leaves the buffer (R226). -/
def State.drainOne (s : State) (p : Pair) : State := if s.combines p then s.combine p else s.sendPair p

/-- UPDATE_BUFFER_DRAIN (R226): four pairs a cycle. -/
def execUpdateBufferDrain (s : State) : Host.Outcome State Fault Refusal :=
  event (fun s =>
    let k := s.arg 0
    let b := (s.core k).ubuf
    let s := s.modCore k fun c => { c with ubuf := b.drop 4 }
    let s := (b.take 4).foldl State.drainOne s
    if 4 < b.length then s.post ⟨.updateBufferDrain, [k]⟩ else s) s

/-- The region of the partial of a word that core k holds; of a word that has left, the region that its address lies in (R227). -/
def State.partialRegion (s : State) (k pa : Nat) : Option Nat :=
  match (sget (s.core k).l1 (pa / 4)).bind Copy.uPart? with
  | some u => some u.1
  | none => (s.regions.find? fun r => decide (r.2.pa ≤ pa) && decide (pa < r.2.pa + 4096 * r.2.pages)).map (·.1)

/-- Ticks for which a bin home keeps an access to a page waiting: the rest of a self-test of its slice (R415), or of an apply of the page that is under way (R235). -/
def State.binWait (s : State) (pa : Nat) : Nat := max (s.testLeft (homeDie pa) (homeSlice (pageOf pa))) (s.applyLeft pa)

/-- U_GRANT_REQUEST (R227, R228): the page becomes Pending and the cluster joins its mask. Where the die keeps no bins, no grant is given (R232) and the
partial leaves as a pair. A slice under test serves it after the test (R415), and an apply of its page ends first (R235). -/
def execUGrantRequest (s : State) : Host.Outcome State Fault Refusal :=
  event (fun s =>
    let k := s.arg 0
    let pa := s.arg 1
    match s.partialRegion k pa with
    | none => s
    | some rid =>
      let left := s.binWait pa
      if left ≠ 0 then s.postIn left ⟨.uGrantRequest, [k, pa]⟩
      else if s.binsOf (homeDie pa) = 0 then
        match sget (s.core k).l1 (pa / 4) with
        | some y => s.sendPartial k y
        | none => s
      else
        let s := s.makePending (pageOf pa) rid
        let s := match sget s.bins (pageOf pa) with
          | some b => { s with bins := sset s.bins (pageOf pa) { b with mask := setBit b.mask (clusterOf k) true } }
          | none => s
        s.postMore ⟨.uGrantReturn, [k, pa]⟩) s

/-- Whether a cluster stands in the mask of a Pending page (R228). -/
def State.inMask (s : State) (page cl : Nat) : Bool := (sget s.bins page).any fun b => b.mask.getLsbD cl

/-- U_GRANT_RETURN (R227): the pairs of the word count as combined. Where the page was applied meanwhile, so that the cluster no longer stands in its mask, the grant is asked for
again (R228, R234). -/
def execUGrantReturn (s : State) : Host.Outcome State Fault Refusal :=
  event (fun s =>
    let k := s.arg 0
    let pa := s.arg 1
    match sget (s.core k).l1 (pa / 4) with
    | none => s
    | some y => match y.uPart? with
      | none => s
      | some (r, _, xs) =>
        if s.inMask (pageOf pa) (clusterOf k) then
          s.modCore k fun c => { c with l1 := sset c.l1 (pa / 4) { y with st := .u r true xs } }
        else s.postMore ⟨.uGrantRequest, [k, pa]⟩) s

/-! ## The Bushel (R228 to R234) -/

/-- Chunks that n entries take (R231). -/
def Region.chunks (r : Region) (n : Nat) : Nat := (n + 64 / r.entBytes - 1) / (64 / r.entBytes)

/-- The Pending pages of a slice of a die. -/
def State.pagesAt (s : State) (d sl : Nat) : List (Nat × BinPage) := s.bins.filter fun b => homeDie b.1 == d && homeSlice b.1 == sl

/-- Chunks in use at a slice. -/
def State.chunksUsed (s : State) (d sl : Nat) : Nat :=
  (s.pagesAt d sl).foldl (fun n b => n + (s.region b.2.region).chunks b.2.ents.length) 0

/-- Bytes of the spill area of a die in use (R233). -/
def State.spillUsed (s : State) (d : Nat) : Nat :=
  s.bins.foldl (fun n b => if homeDie b.1 = d then
    b.2.runs.foldl (fun n r => n + r.n * (s.region b.2.region).entBytes) n else n) 0

/-- Bytes of the spill area of a die (R232). -/
def State.spillSize (s : State) (d : Nat) : Nat := fld (s.die d).bspsize 0 14 * 2 ^ 20

/-- The page of a slice whose bin has the most entries, the lowest on equal counts. -/
def largestBin : List (Nat × BinPage) → Option (Nat × BinPage)
  | [] => none
  | b :: t => match largestBin t with
    | some c => some (if b.2.ents.length < c.2.ents.length then c else b)
    | none => some b

/-- The region of a die whose oldest run was written first (R233). -/
def State.oldestRun (s : State) (d : Nat) : Option Nat :=
  (s.bins.foldl (fun (best : Option (Nat × Nat)) b =>
    if homeDie b.1 = d then match b.2.runs.head?, best with
      | some r, some q => if r.at_ < q.1 then some (r.at_, b.2.region) else best
      | some r, none => some (r.at_, b.2.region)
      | none, _ => best
    else best) none).map (·.2)

/-- Apply every Pending page of a region that satisfies a test; `last`: the region is released (R225). -/
def State.applyRegion (s : State) (last : Bool) (r : Nat) (p : Nat → Bool) : State :=
  (s.bins.filter fun b => b.2.region == r && p b.1).foldl (fun s b => s.applyAs last b.1) s

/-- Force-applies of a full spill area: region after region, until a quarter is free (R233). -/
def State.freeSpill (d : Nat) : Nat → State → State
  | 0, s => s
  | n + 1, s => match s.oldestRun d with
    | none => s
    | some r =>
      let s := s.applyRegion false r fun p => homeDie p == d
      if s.spillUsed d ≤ s.spillSize d * 3 / 4 then s else State.freeSpill d n s

/-- The physical base of the spill area of a die (R232). -/
def State.spillBase (s : State) (d : Nat) : Nat := fld (s.die d).bspbase 20 32 * 2 ^ 20

/-- The runs that the spill area of a die holds: first byte and bytes of each. -/
def State.spillRuns (s : State) (d : Nat) : List (Nat × Nat) :=
  s.bins.flatMap fun b => if homeDie b.1 = d then b.2.runs.map fun r => (r.pa, r.n * (s.region b.2.region).entBytes) else []

/-- Where a run of n bytes goes in the spill area of a die: the lowest place that no other run overlaps (log entry 45); none where it does not fit. -/
def State.spillPlace (s : State) (d n : Nat) : Option Nat :=
  let rs := s.spillRuns d
  let fits := fun a => decide (s.spillBase d ≤ a) && decide (a + n ≤ s.spillBase d + s.spillSize d) && !rs.any fun r => overlaps r.1 r.2 a n
  ((s.spillBase d :: rs.map fun r => r.1 + r.2).filter fits).min?

/-- A run written to memory (R233). -/
def State.writeRun (s : State) (r : Region) (pa : Nat) (es : List (Nat × BinEnt)) : State :=
  es.zipIdx.foldl (fun s e => { s with mem := s.mem.writeN (pa + r.entBytes * e.2) r.entBytes (encEnt r e.1.1 e.1.2) }.unpoison (pa + r.entBytes * e.2) r.entBytes) s

/-- Spill the bin with the most entries of a slice, or free space as R233 says where its run does not fit. The entries of a bin are kept by rising offset, as a run lists them. -/
def State.spill (s : State) (d sl : Nat) : State :=
  match largestBin (s.pagesAt d sl) with
  | none => s
  | some (p, b) =>
    let r := s.region b.region
    match s.spillPlace d (b.ents.length * r.entBytes) with
    | some pa =>
      let s := s.writeRun r pa b.ents
      { s with bins := sset s.bins p { b with ents := [], runs := b.runs ++ [⟨s.moves, pa, b.ents.length⟩] } }
    | none => if (s.oldestRun d).isSome then State.freeSpill d s.bins.length s else s.applyPage p

/-- Make room for a new entry in the bin of a page, trying n times (R233). -/
def State.roomFor (d sl page rid : Nat) : Nat → State → State
  | 0, s => s
  | n + 1, s =>
    let r := s.region rid
    let cnt := ((sget s.bins page).map fun b => b.ents.length).getD 0
    if r.chunks (cnt + 1) = r.chunks cnt ∨ s.chunksUsed d sl < s.binsOf d * 1024 then s
    else State.roomFor d sl page rid n (s.spill d sl)

/-- A pair accepted at a slice that keeps bins (R228, R229). -/
def State.acceptPair (s : State) (d sl : Nat) (p : Pair) : State :=
  let page := pageOf p.pa
  let off := p.pa % 4096
  let have_ := ((sget s.bins page).bind fun b => sget b.ents off).isSome
  let s := if have_ then s else State.roomFor d sl page p.region (s.bins.length + 2) s
  (s.makePending page p.region).binAdd page off p.x.toNat p.time p.core p.lane

/-- A pair applied at its line home on a die without bins (R232). One for a word that is poisoned is dropped: R479 has such an entry stay in its bin, and there is none (DESIGN CHOICE, log
entry 58). -/
def State.applyPair (s : State) (p : Pair) : State :=
  let r := s.region p.region
  let n := r.ty.bytes
  let (old, s) := s.homeRead p.pa n
  if s.anyPoison p.pa n ∧ r.op ≠ .lasts then s
  else s.homeWrite p.pa n (applyWord r.op r.ty old (entNew r.op r.ty p.x.toNat p.time p.core p.lane))

/-- Pairs that a slice of a die has accepted in this cycle (R228). -/
def State.acceptedNow (s : State) (d sl : Nat) : Nat :=
  let a := (s.die d).accepted
  if a.1 = s.time then a.2.count sl else 0

/-- A slice of a die accepts a pair in this cycle. -/
def State.noteAccept (s : State) (d sl : Nat) : State :=
  s.modDie d fun y => { y with accepted := (s.time, sl :: if y.accepted.1 = s.time then y.accepted.2 else []) }

/-- Pairs that a slice of a die accepts in a cycle: 16, or 1 where it keeps no bins (R228, R232). -/
def State.acceptRate (s : State) (d : Nat) : Nat := if s.binsOf d = 0 then 1 else 16

/-- BUSHEL_PAIR_ACCEPT (R228, R229, R232): the oldest pair on its way to the slice. A slice under test serves it after the test (R415), an apply of its page ends first (R235), and a pair
beyond those of the cycle waits. -/
def execBushelPairAccept (s : State) : Host.Outcome State Fault Refusal :=
  event (fun s =>
    let d := s.arg 0
    let sl := s.arg 1
    match s.flight.find? fun p => homeDie p.pa == d && homeSlice (pageOf p.pa) == sl with
    | none => s
    | some p =>
      let left := max (s.binWait p.pa) (if s.acceptRate d ≤ s.acceptedNow d sl then 1 else 0)
      if left ≠ 0 then s.postIn left ⟨.bushelPairAccept, [d, sl]⟩
      else
      let s := { s with flight := s.flight.erase p }.noteAccept d sl
      if s.binsOf d = 0 then s.applyPair p else s.acceptPair d sl p) s

/-- BIN_PAGE_APPLY (R234). -/
def execBinPageApply (s : State) : Host.Outcome State Fault Refusal := event (fun s => s.applyPage (pageOf (s.arg 0))) s

/-! ## Regions (R297, R298, R221, R225, R236) -/

/-- Raise the privilege fault below a level (R408). -/
def needPriv (lvl : Nat) : X Unit := do
  let t ← cx
  if t.priv < lvl then privTrap else pure ()

/-- Type and operator of the codes of R297. -/
def utypeOf (n : Nat) : Option UType := if n = 0 then some .i32 else if n = 1 then some .i64 else if n = 2 then some .f32 else none
/-- Operator of a code of R297. -/
def uopOf (n : Nat) : Option UOp := [UOp.add, .min, .max, .or, .and, .xor, .cnt, .lasts][n]?

/-- Whether an operator applies to a type (R222). -/
def opAllowed (op : UOp) (ty : UType) : Bool := ty != .f32 || op == .add || op == .min || op == .max || op == .lasts

/-- The populated range of R168 that a physical address lies in; host memory, the peers and the registers, which are none of them, are 20 and up. -/
def popRange (pa : Nat) : Nat :=
  if pa < 0x4000000000 then pa / 0x1000000000
  else if pa < hostBase then 4 + (pa - 0x100000000000) / 0x10000000000
  else if pa < peerBase then 20 else if pa < regBase then 21 else 22

/-- The pages of a region from a virtual base: their physical bases, none where a page breaks R221. -/
def State.regionPages (k asid : Nat) : Nat → Nat → State → Option (List Nat) × State
  | 0, _, s => (some [], s)
  | n + 1, va, s =>
    if rangeOf va ≠ 2 ∨ 2 ^ 48 ≤ va then (none, s)
    else match s.translate k asid va with
      | (.error _, s) => (none, s)
      | (.ok t, s) =>
        if !t.w || t.fut || t.attr == .si then (none, s)
        else match State.regionPages k asid n (va + 4096) s with
          | (none, s) => (none, s)
          | (some l, s) => (some (t.at va :: l), s)

/-- Whether a list of pages is contiguous from a base. -/
def contiguous : Nat → List Nat → Bool
  | _, [] => true
  | pa, p :: t => decide (p = pa) && contiguous (pa + 4096) t

/-- The lowest free region id (R221). -/
def State.freeRegion (s : State) : Option Nat := (List.range 1024).find? fun i => (sget s.regions i).isNone

/-- UREG on a record (R297, R221, R476): the value written, and the state. -/
def State.ureg (s : State) (k asid rec_ : Nat) : Int × State :=
  let base := bits rec_ 0 64
  let pages := bits rec_ 64 32
  if base % 4096 ≠ 0 ∨ pages = 0 ∨ 262144 < pages then (-6, s)
  else match utypeOf (bits rec_ 96 8), uopOf (bits rec_ 104 8) with
    | some ty, some op =>
      if !opAllowed op ty then (-5, s)
      else match State.regionPages k asid pages base s with
        | (none, s) => (-2, s)
        | (some l, s) =>
          let pa := l.headD 0
          let n := 4096 * pages
          if !contiguous pa l ∨ popRange pa ≠ popRange (pa + n - 1) ∨ 20 ≤ popRange pa ∨ !s.populated pa ∨ !s.populated (pa + n - 1) then (-3, s)
          else if s.regions.any fun r => overlaps r.2.pa (4096 * r.2.pages) pa n then (-4, s)
          else match s.freeRegion with
            | none => (-1, s)
            | some i =>
              let quiet := { s with regions := sset s.regions i ⟨asid, base, pa, pages, ty, op, false⟩, bins := s.bins.filter fun b => !(decide (pa ≤ b.1) && decide (b.1 < pa + n)) }
              (i, quiet.tlbInvRange asid base n)
    | _, _ => (-5, s)

/-- The first of n pages from an address whose translation an instruction of the issuing context has to wait for (R174, R175); none where a walk has ended in a fault before it. -/
def State.unwalked (s : State) (asid : Nat) : Nat → Nat → Option Nat
  | 0, _ => none
  | n + 1, va =>
    if rangeOf va ≠ 2 ∨ 2 ^ 48 ≤ va then none
    else match (s.ctx s.act s.actx).walkEnd asid va with
      | some (some _) => none
      | some none => State.unwalked s asid n (va + 4096)
      | none => if ((s.core s.act).tlb.find? (Tlb.covers asid va)).isNone then some va else State.unwalked s asid n (va + 4096)

/-- The pages that UREG translates for a record: none where it is refused before (R476). -/
def uregPages (rec_ : Nat) : Nat :=
  let pages := bits rec_ 64 32
  if bits rec_ 0 12 ≠ 0 ∨ 262144 < pages then 0
  else match utypeOf (bits rec_ 96 8), uopOf (bits rec_ 104 8) with
    | some ty, some op => if opAllowed op ty then pages else 0
    | _, _ => 0

/-- UREG (R297): it waits for the walks of its pages (R175), and for the operations that keep a translation of the range, as TLBINV does (R221, R413). -/
def execUreg (d : GReg) (a : GSrc) (s : State) : Host.Outcome State Fault Refusal :=
  issueSeq (do
    needPriv 1
    ready [a.op 0, dG d]
    let x ← rdG a.r
    let ps ← check { va := x, n := 16, kind := 0, wr := false, align := 16, stk := a.r == 62 }
    waitLoad ps
    let t ← cx
    let st ← getS
    let (y, bad) ← loadP ps
    if bad then
      if inWindow ps then trap 0x0C (memDetail 16 0 0 5) x
      else if plainPlaces st.act ps then trap 0x0C (memDetail 16 0 0 0) x
      else produce (st.latencyOf st.act 0 ps) [.g d 0] 0 (some x)
    else do
      let s0 ← getS
      match s0.unwalked t.asid (uregPages y) (bits y 0 64) with
      | some va => stop (.waitFor s0.act t.asid va)
      | none => pure ()
      let r ← runS fun s => s.ureg s.act t.asid y
      if 0 ≤ r then do
        waitUnless (!s0.keepsPage (s0.covered t.asid (bits y 0 64) (4096 * bits y 64 32)))
        holdFor tlbInvTicks
      else pure ()
      wrG d (BitVec.ofInt 64 r)
    pops [.g a.r]) s

/-- Whether a pair of a region is on its way, or a partial of it has no grant (R225). -/
def State.regionBusy (s : State) (r : Nat) : Bool :=
  s.flight.any (·.region == r) || s.cores.any fun e => e.2.ubuf.any (·.region == r) || e.2.l1.any fun y => match y.2.st with
    | .u q g _ => q == r && !g
    | _ => false

/-- The region that an id names for the issuing context. -/
def State.ownRegion (s : State) (id asid : Nat) : Option Region := (sget s.regions id).filter (·.asid == asid)

/-- The release of a region is under way (R225 step 1): no translation carries its tag any more. -/
def State.startRelease (s : State) (id : Nat) (r : Region) : State :=
  { s with regions := sset s.regions id { r with leaving := true } }.tlbInv
    (fun x => x.region == some id || x.asid == r.asid && overlaps x.va x.size r.va (4096 * r.pages)) (fun _ => false) (s.covered r.asid r.va (4096 * r.pages))

/-- Ticks until the Pending pages of a region that satisfy a test have been applied (R235, R236). -/
def State.applyTicks (s : State) (id : Nat) : Nat := (s.bins.filter fun b => b.2.region == id).foldl (fun n b => max n (s.applyCost b.1)) 0

/-- UREG.REL (R297, R225). Its applies are the last of the region: R225 does not say what becomes of entries whose words are poisoned when the id is freed; they are dropped (DESIGN CHOICE,
log entry 34). -/
def execUregRel (d : GReg) (a : GSrc) (s : State) : Host.Outcome State Fault Refusal :=
  issueSeq (do
    needPriv 1
    ready [a.op 0, dG d]
    let x ← rdG a.r
    let t ← cx
    let id := fld x 0 10
    let s0 ← getS
    match s0.ownRegion id t.asid with
    | none => do
      wrG d (BitVec.allOnes 64)
      pops [.g a.r]
    | some r => do
      popLocks [.g a.r]
      if r.leaving then pure () else modS fun s => s.startRelease id r
      let s1 ← getS
      if s1.regionBusy id || s1.keepsPage (s1.covered t.asid r.va (4096 * r.pages)) then waitKeep
      else do
        holdFor (tlbInvTicks + s1.applyTicks id)
        modS fun s => s.applyRegion true id fun _ => true
        modS fun s => { s with regions := sdel s.regions id }
        wrG d 0
        pops [.g a.r]) s

/-- The partials of a region whose grant request has not reached the home leave every core as pairs (R227). -/
def State.sendPartials (s : State) (id : Nat) : State :=
  s.cores.foldl (fun s e => ((e.2.l1.map (·.2)).filter fun y => (y.uPart?.any fun u => u.1 == id) && !s.granted e.1 y).foldl (fun s y => s.sendPartial e.1 y) s) s

/-- UFLUSH (R298, R236): the apply of a page recalls the partials that have their grant, or whose grant is on its way; it completes when the last apply has ended. -/
def execUflush (a : GSrc) (s : State) : Host.Outcome State Fault Refusal :=
  issueSeq (do
    ready [a.op 0]
    let x ← rdG a.r
    let t ← cx
    let s0 ← getS
    match s0.ownRegion (fld x 0 10) t.asid with
    | none => pure ()
    | some _ => do
      modS fun s => (s.sendPartials (fld x 0 10)).applyRegion false (fld x 0 10) fun _ => true
      holdFor (s0.applyTicks (fld x 0 10))
    pops [.g a.r]) s

/-- The partials of a core that hold a pair of a context. -/
def Core.partialsOf (c : Core) (x : Nat) : List Copy := (c.l1.map (·.2)).filter fun y => match y.st with
  | .u _ _ xs => xs.contains x
  | _ => false

/-- UWAIT (R236): sends the partials that hold its pairs, and waits until every pair has been accepted. -/
def execUwait (s : State) : Host.Outcome State Fault Refusal :=
  issueSeq (do
    modS fun s => ((s.core s.act).partialsOf s.actx.val).foldl (fun s y => s.sendPartial s.act y) s
    let s1 ← getS
    if s1.pairsOut s1.act s1.actx.val then waitKeep else pure ()) s

/-! ## Requests that homes serve (R179, R181, R185, R187, R175, R290) -/

/-- Attribute of a code (R171). -/
def attrOf (n : Nat) : Attr := if n = 0 then .dir else if n = 1 then .si else .uc

/-- A request that reaches the home slice of an address as an event: the slice serves it at once, or after a self-test (R415). -/
def State.atHome (s : State) (pa : Nat) (e : Ev) (f : State → State) : State :=
  let left := s.testLeft (homeDie pa) (homeSlice pa)
  if left = 0 ∨ !hasSlice pa then f s else s.postIn left e

/-- HOME_READ_REQUEST (R179): words owned elsewhere are recalled; the response goes back to the core. -/
def execHomeReadRequest (s : State) : Host.Outcome State Fault Refusal :=
  event (fun s =>
    let k := s.arg 0
    let pa := s.arg 1
    s.atHome pa ⟨.homeReadRequest, s.ev⟩ fun s =>
      let s := s.touch pa
      let s := if attrOf (s.arg 3) = .dir then (List.range (spanWords pa (s.arg 2))).foldl (fun s i => s.recall (some k) (pa / 4 + i)) s else s
      s.postMore ⟨.fillReturn, [k, pa, s.arg 3]⟩) s

/-- FILL_RETURN (R178, R187): the words of the line that are I become V. -/
def execFillReturn (s : State) : Host.Outcome State Fault Refusal :=
  event (fun s => if attrOf (s.arg 2) = .uc then s else s.fillL1 (s.arg 0) (s.arg 1 / 64) (attrOf (s.arg 2))) s

/-- HOME_OWNERSHIP_REQUEST (R179): every other holder of the words is invalidated, and the core owns those that it holds in V. -/
def execHomeOwnershipRequest (s : State) : Host.Outcome State Fault Refusal :=
  event (fun s =>
    let k := s.arg 0
    let pa := s.arg 1
    let n := spanWords pa (s.arg 2)
    s.atHome pa ⟨.homeOwnershipRequest, s.ev⟩ fun s => (List.range n).foldl (fun s i => s.ownClean k (pa / 4 + i)) ((s.touch pa).homeInvalidate (some k) pa 0 (pa / 4) n)) s

/-- HOME_ATOMIC (R290, R289): an operation performed at a home; a poisoned word is left as it is (R479). Codes of the
operation: 0 SWAP.W, 1 SWAP.D, 2 CAS.W, 3 CAS.D, 4 FADD.W, 5 FADD.D, 6 STF, 7 CLRF. -/
def State.homeAtomic (s : State) (op pa : Nat) (x y : Word) : State :=
  let n := if op = 0 ∨ op = 2 ∨ op = 4 then 4 else 8
  if op = 6 then s.fillFuture pa x
  else if op = 7 then s.clearFuture pa
  else
    let (old, s) := s.homeRead pa n
    if s.anyPoison pa n then s
    else
      let m := 2 ^ (8 * n)
      if op ≤ 1 then s.homeWrite pa n x.toNat
      else if op ≤ 3 then if old = x.toNat % m then s.homeWrite pa n y.toNat else s
      else s.homeWrite pa n ((old + x.toNat) % m)

/-- HOME_ATOMIC (R290). -/
def execHomeAtomic (s : State) : Host.Outcome State Fault Refusal :=
  event (fun s => s.atHome (s.arg 1) ⟨.homeAtomic, s.ev⟩ (·.homeAtomic (s.arg 0) (s.arg 1) (w64 (s.arg 2)) (w64 (s.arg 3)))) s

/-- WRITE_BACK_ARRIVAL (R181). -/
def execWriteBackArrival (s : State) : Host.Outcome State Fault Refusal :=
  event (fun s => s.writeBack (s.arg 0) (·.w == s.arg 1 / 4)) s

/-- A snoop of the words of n bytes reaches a die (R185): its cores write back D words that its Shroud records, and on an invalidation drop their copies under DIR. A core in C2 or
deeper wakes for it (R257). -/
def State.snoop (s : State) (d pa n : Nat) (inv : Bool) : State :=
  let hit : Copy → Bool := fun y => y.attr == .dir && y.held && decide (pa / 4 ≤ y.w) && decide (y.w < pa / 4 + spanWords pa n)
  s.cores.foldl (fun (s : State) (e : Nat × Core) =>
    let reached : Copy → Bool := fun y => hit y && s.mayHold e.1 y.w
    if dieOf e.1 = d ∧ e.2.copies.any reached then
      let s := if e.2.asleep then s.post ⟨.unitWake, [e.1]⟩ else s
      if inv then s.dropCopies e.1 reached else s.writeBack e.1 reached
    else s) s

/-- SHROUD_SNOOP (R185). -/
def execShroudSnoop (s : State) : Host.Outcome State Fault Refusal :=
  event (fun s => s.snoop (s.arg 0) (s.arg 1) (s.arg 2) (s.arg 3 == 1)) s

/-- The translation that a walk has given enters the TLB of a core that waits for it. -/
def State.walkFill (s : State) (w : Walk) (r : Except WalkErr Tlb) (k : Nat) : State :=
  match r with
  | .ok t => if ((s.core k).tlb.find? (Tlb.covers w.asid (4096 * w.page))).isSome then s else s.coreFill k t
  | .error _ => s

/-- An event that has waited for a walk goes on: it finds how the walk has ended behind its own operands. -/
def Walk.goOn (w : Walk) (r : Except WalkErr Tlb) (e : Ev) : Ev := match r with
  | .ok _ => ⟨e.row, e.a ++ [w.asid, w.page, 8, 0]⟩
  | .error (l, why) => ⟨e.row, e.a ++ [w.asid, w.page, l, why]⟩

/-- A walk has ended for those that wait for it (R175): the core TLB has the page, or the instruction or the event finds the fault. -/
def State.walkDone (s : State) (w : Walk) (r : Except WalkErr Tlb) : State :=
  let how := match r with
    | .ok _ => none
    | .error e => some e
  let s := w.joined.foldl (fun s j => (s.walkFill w r j.1).modCtx j.2.1 (cix j.2.2) fun c => { c with walked := (w.asid, w.page, how) :: c.walked }) s
  w.evs.foldl (fun s e => (s.walkFill w r e.1).postIn 0 (w.goOn r e.2)) s

/-- The walk that has waited longest for a walker starts (R175). -/
def State.nextWalk (s : State) (cl : Nat) : State :=
  match (s.cluster cl).walks.find? (!·.running) with
  | none => s
  | some w =>
    (s.modCluster cl fun c => { c with walks := c.walks.map fun v => if v = w then { w with running := true } else v }).postWalk cl w.asid w.page

/-- PAGE_WALK_COMPLETE (R175): the translation enters the cluster TLB; a walk that fails installs nothing. Those that have joined it go on, and a walk that waits takes the walker. -/
def execPageWalkComplete (s : State) : Host.Outcome State Fault Refusal :=
  event (fun s =>
    let cl := s.arg 0
    let (r, s) := s.pageWalk cl (s.arg 1) (s.arg 2)
    let s := match r with
      | .ok t => s.modCluster cl fun c => { c with tlb := clusterFill t c.tlb }
      | .error _ => s
    match (s.cluster cl).walks.find? fun w => w.running && w.asid == s.arg 1 && w.page == s.arg 2 / 4096 with
    | none => s
    | some w => ((s.modCluster cl fun c => { c with walks := c.walks.erase w }).walkDone w r).nextWalk cl) s

end Sys2Proof.Machine
end

