-- ==== Sys2Proof/Machine/Member.lean ====
section
/-!
DEFINITION. Query sets: QGSET, LDNM and the Yard, the side-storage forms and the mask instructions: OP 0x40 to 0x48 (14), with the
descriptor and the meeting rules of R41 to R50 and R460.
-/

namespace Sys2Proof.Machine

/-! ## QGSET (R42, R306, R460) -/

/-- The cluster-wide address of a local offset of a core (R41, R167). -/
def apertureOf (k off : Nat) : Nat := aperBase + logical k * 0x20000 + off

/-- The core and offset that a scratchpad address names for core k (R41). -/
def spadAt (k a : Nat) : Option (Nat × Nat) :=
  if rangeOf a = 0 then some (k, a)
  else if rangeOf a = 1 then some (192 * clusterOf k + (a - aperBase) / 0x20000, (a - aperBase) % 0x20000)
  else none

/-- The stack check of an access through g62 (R76, R451). -/
def stackCheck (stk : Bool) (a : Word) (n kind : Nat) : X Unit := do
  let t ← cx
  if stk && (decide (a.toNat < t.ssl.toNat) || decide (t.ssb.toNat < a.toNat + n - 1)) then trap 0x0B (memDetail n 0 1 kind) a else pure ()

/-- The value that checked places give an access that is no long-latency producer: poison traps precisely (R479). -/
def loadDone (a : Word) (n : Nat) (ps : List Place) : X Nat := do
  let (x, bad) ← loadP ps
  if bad then trap 0x0C (memDetail n 0 0 (if inWindow ps then 5 else 0)) a else pure x

/-- Load from checked places that are no long-latency producer. -/
def loadNow (a : Word) (n : Nat) (ps : List Place) : X Nat := do
  waitLoad ps
  loadDone a n ps

/-- The rows that a descriptor on core k describes: QSSBASE resolved, COUNT and STRIDE; none where R42 step 3 refuses it. A QSSBASE that is no scratchpad address, of which that step does not
speak, is refused like rows that pass the end of the scratchpad (DESIGN CHOICE, log entry 59). -/
def groupOf (k : Nat) (d : Nat) : Option (Nat × Nat × Nat) :=
  let count := bits d 80 16
  let stride := bits d 64 16
  if bits d 96 32 ≠ 0 ∨ count < 1 ∨ 256 < count ∨ stride < 8 ∨ 256 < stride ∨ stride % 8 ≠ 0 then none
  else match spadAt k (bits d 0 64) with
    | none => none
    | some (j, off) => if 0x20000 < off + count * stride then none else some (apertureOf j off, count, stride)

/-- The completion word's home address, or the fault of R460. -/
def complPa (a : Word) : X Nat := fun s =>
  let t := s.ctx s.act s.actx
  match s.complPlace s.act t.asid t.priv a with
  | (.error e, _) => .error (.trap e)
  | (.ok pa, s) => .ok (pa, s)

/-- The check of R460 for leaving the group that the context is bound to. -/
def leaveCheck : X Unit := fun s =>
  let t := s.ctx s.act s.actx
  if t.qgd = 0 then .ok ((), s)
  else match s.complCheck s.act t.asid t.priv t.qgd with
    | (some e, _) => .error (.trap e)
    | (none, s) => .ok ((), s)

/-- group_decrement (R42): the release of R38 step 4 and the decrement of R55. -/
def leaveGroup : X Unit := do
  let t ← cx
  if t.qgd = 0 then pure ()
  else do
    release .mod
    modS fun s => s.groupLeave s.act t.asid t.priv t.qgd 1

/-- Ticks until the fills that some places need have returned, or their accesses at the home. -/
def State.fillTicks (s : State) (k : Nat) (ps : List Place) : Nat :=
  ps.foldl (fun n p => match p with
    | .win j wi off pa attr =>
      if ((s.core j).winCopy wi off).any (Copy.valid (s.core j).ep) then max n ((s.core j).trackWait (pa / 4) s.time) else max n (s.homeLatency j pa (attr == .dir))
    | .phys pa attr => max n (s.homeLatency k pa (attr == .dir))
    | .spad _ _ => n) 0

/-- Ticks of QGSET for a descriptor at an offset of core j (R305): from the return of a window's fill. -/
def State.qgsetTicks (s : State) (j off : Nat) (ps : List Place) : Nat :=
  s.fillTicks j ps + s.cyc s.act (if j = s.act then 6 + s.slotWait s.act 0 off else 26 + s.slotWait s.act 2 off)

/-- QGSET (R42, R306): the context issues again after the time of R305, which the release of an old group lengthens. -/
def execQgset (a : GSrc) (b : MOpd) (s : State) : Host.Outcome State Fault Refusal :=
  issueSeq (do
    needMembership
    ready [a.op 0]
    let x ← rdG a.r
    stackCheck (a.r == 62) x 32 0
    let st ← getS
    match spadAt st.act x.toNat with
    | none => illegal6 12
    | some (j, off) => do
      if x.toNat % 32 ≠ 0 then trap 0x0A (memDetail 32 0 0 0) x else pure ()
      let ps ← check { va := x, n := 32, kind := 0, wr := false, align := 32 }
      let n := st.qgsetTicks j off ps
      let d ← loadNow x 32 ps
      match groupOf j d with
      | none => illegal6 12
      | some (base, count, stride) => do
        leaveCheck
        let pa ← complPa (w64 (bits d 128 64))
        let lp ← check { va := x + 24, n := 8, kind := 1, wr := true, align := 8 }
        let t ← cx
        let mask := t.getM b
        let st ← getS
        waitStore lp
        waitPairs [.phys pa .dir]
        leaveGroup
        modCx fun t => { t with qgd := w64 (apertureOf j off), qcount := count, qbase := w64 base, qstride := stride,
                                m := t.m.set 0 (mask &&& lowBits 256 count) }
        storeP lp 1
        modS fun s => ((s.siFlush s.act).dropAt s.act pa 8).clearFuture pa
        holdFor (n + if t.qgd = 0 then 0 else st.backTicks st.act (·.attr == .si))
    pops [.g a.r]) s

/-! ## LDNM and the Yard (R45 to R50, R307) -/

/-- A place n bytes on. -/
def Place.plus (n : Nat) : Place → Place
  | .spad j off => .spad j (off + n)
  | .win j wi off pa at_ => .win j wi (off + n) (pa + n) at_
  | .phys pa at_ => .phys (pa + n) at_

/-- The 64 bytes of a node, a place each. -/
def nodePlaces (node : Place) : List Place := (List.range 64).map fun i => node.plus i

/-- Where n words are read or written whose place was translated before (R307, R359): the physical address then found, and in a window only while its offset still maps to that address and its
words are copies of it. -/
def State.livePlace (s : State) (n : Nat) : Place → Place
  | .win j wi off pa attr =>
    let here := ((s.core j).wins[Fin.ofNat 8 wi]).any fun w => decide (off < w.len) && (w.page (w.va + off)).any fun t => t.at (w.va + off) == pa
    let same := (List.range n).all fun i => (((s.core j).winCopy wi (off + 4 * i)).filter (Copy.valid (s.core j).ep)).all fun y => y.w == pa / 4 + i
    if here && same then .win j wi off pa attr else .phys pa .uc
  | p => p

/-- A node as core k reads it: 64 bytes, whether one is poisoned, and the ticks until its data arrives (R29, R299). -/
def State.readNode (s : State) (k : Nat) (node : Place) : (Nat × Bool × Nat) × State :=
  let ps := nodePlaces (s.livePlace 16 node)
  let n := s.latencyOf k 0 ps
  let ((x, bad), s) := s.loadPlaces k ps
  ((x, bad, n), s)

/-- A fetch that bypasses the Yard starts (R45): it leaves m0 as it is. -/
def State.fetchAlone (s : State) (cl : Nat) (q : YReq) : State :=
  let ((x, bad, n), s) := s.readNode q.part.core q.node
  (s.modCluster cl fun c => { c with yard := c.yard ++ [⟨q.key, q.part, [], q.node, x, bad, true, s.time + n⟩] }).postIn n ⟨.yardEntryResolve, [cl]⟩

/-- Cycles from the issue of an LDNM until its request reaches the Yard (R307). -/
def toYard : Nat := 4

/-- LDNM (R307): the offer, which reaches the Yard after its way; where the context is unbound or m0 is empty, the fetch of its own (R45). -/
def execLdnm (d : VReg) (a : GSrc) (tag : BitVec 20) (s : State) : Host.Outcome State Fault Refusal :=
  issueSeq (do
    needMembership
    ready [a.op 0, dV d]
    let x ← rdG a.r
    let ps ← check { va := x, n := 64, kind := 0, wr := false, align := 64, stk := a.r == 62 }
    waitLoad ps
    let st ← getS
    let t ← cx
    match ps.head? with
    | none => pure ()
    | some node => do
      let va := match spadAt st.act x.toNat with
        | some (j, off) => apertureOf j off
        | none => x.toNat
      let m0 := t.getM (.m 0)
      let n := st.cyc st.act toYard
      let q : YReq := ⟨(t.asid, t.qgd, va, tag.toNat), ⟨st.act, st.actx.val, d, m0⟩, node, st.time + n⟩
      modCx fun t => { (if (t.slotV d).isSome then t else t.markV d false) with ldnm := true }
      let cl := clusterOf st.act
      if t.qgd == 0 || m0 == 0 then modS fun s => s.fetchAlone cl q
      else modS fun s => (s.modCluster cl fun c => { c with yreq := c.yreq ++ [q] }).postIn n ⟨.yardRequestAccept, [cl]⟩
    pops [.g a.r]) s

/-- The result of an LDNM is written, in stream mode as R280 says: its load has been performed. -/
def writeNode (d : VReg) (v : VWord) : X Unit := do
  modCx fun t => { t with ldnm := false }
  wrV d v
  modCx fun t => if (t.slotV d).isSome then t else t.markV d true

/-- An LDNM of a participant resolves (R47, R479): its destination and m0, of which a bound context keeps no bit from its COUNT up (R43). A push to a stream waits, or takes its fault, as any
push does (R280); where it waits, the node waits with it as the fetch of a request that bypasses. The fault is synchronous (R446): it is taken at the next boundary of the context (DESIGN
CHOICE, log entry 53). -/
def State.ldnmDone (s : State) (cl : Nat) (e : YEntry) (p : YPart) (m0 : Option Mask) : State :=
  let x := cix p.ctx
  if 11 ≤ p.ctx ∨ !(s.ctx p.core x).ldnm then s
  else
    let s := s.modCtx p.core x fun t => match m0 with
      | some m => t.writeM false (.m 0) m
      | none => t
    let later : State → State := fun s => (s.modCluster cl fun c => { c with
      yard := c.yard ++ [{ e with leader := p, followers := [], alone := true, close := s.time + 1 }] }).postMore ⟨.yardEntryResolve, [cl]⟩
    if e.bad then
      (s.modCtx p.core x fun t => { t with
        ldnm := false, poisonQ := t.poisonQ ++ [(w64 (7 + Ref.code (.v p.d) + 2 ^ 12), w64 e.key.2.2.1)] }).tryEnter p.core x
    else match s.runAs p.core x (writeNode p.d (BitVec.ofNat 1024 e.x)) with
      | .ok s => s.tryEnter p.core x
      | .error (.trap t) | .error (.trapKeep _ t) =>
        if (s.ctx p.core x).atBoundary then ((s.modCtx p.core x fun c => { c with ldnm := false }).revive p.core x).takeTrap p.core x t else later s
      | .error _ => later s

/-- Entries of the Yard (R45). -/
def yardSize : Nat := 64

/-- Core k takes part in a node that another core has fetched: the D words of SI windows in it are written back with its own (R206). -/
def State.noteNode (s : State) (k : Nat) (node : Place) : State :=
  (List.range 16).foldl (fun s i => match (s.livePlace 16 node).plus (4 * i) with
    | .win j wi off pa attr => if j ≠ k ∧ ((s.core j).winCopy wi off).any (fun y => y.st == .d) then s.noteAway k j (pa / 4) attr else s
    | _ => s) s

/-- One request accepted (R45, R46): it follows, leads a new entry whose node fetch starts, or bypasses. -/
def State.yardAccept (s : State) (cl : Nat) (q : YReq) : State :=
  let live := (s.cluster cl).yard.filter fun e => !e.alone && decide (s.time < e.close)
  match live.find? fun e => e.key == q.key with
  | some e =>
    if q.part.ctx = 0 then s.fetchAlone cl q
    else (s.noteNode q.part.core e.node).modCluster cl fun c => { c with
      yard := c.yard.map fun (f : YEntry) => if f == e then { f with followers := f.followers ++ [q.part] } else f }
  | none =>
    if yardSize ≤ live.length then s.fetchAlone cl q
    else
      let ((x, bad, n), s) := s.readNode q.part.core q.node
      let n := max n (s.cyc q.part.core (fld (s.cluster cl).meetwin 0 8))
      (s.modCluster cl fun c => { c with yard := c.yard ++ [⟨q.key, q.part, [], q.node, x, bad, false, s.time + n⟩] }).postIn n ⟨.yardEntryResolve, [cl]⟩

/-- Order in which requests of one cycle are taken (R46): those of context 0 first, then by core and context. -/
def YReq.before (a b : YReq) : Bool :=
  let f := fun (q : YReq) => (if q.part.ctx = 0 then 0 else 2 ^ 32) + logical q.part.core * 16 + q.part.ctx
  decide (f a ≤ f b)

/-- Insertion in an order. -/
def insertBy {α : Type} (le : α → α → Bool) (x : α) : List α → List α
  | [] => [x]
  | y :: t => if le x y then x :: y :: t else y :: insertBy le x t
/-- A list in an order, stable. -/
def sortBy {α : Type} (le : α → α → Bool) (l : List α) : List α := l.foldr (insertBy le) []

/-- Requests that the Yard accepts in a cycle (R46). -/
def yardWidth : Nat := 8

/-- YARD_REQUEST_ACCEPT (R46): the requests that have arrived, at most eight a cycle, in order of arrival. -/
def execYardRequestAccept (s : State) : Host.Outcome State Fault Refusal :=
  event (fun s =>
    let cl := s.arg 0
    let c := s.cluster cl
    let now := s.cycleNo (192 * cl)
    let used := if c.accepted.1 = now then c.accepted.2 else 0
    let here := c.yreq.filter fun q => decide (q.at_ ≤ s.time)
    let qs := here.take (yardWidth - used)
    let s := s.modCluster cl fun c => { c with yreq := c.yreq.filter fun q => !qs.contains q, accepted := (now, used + qs.length) }
    let s := (sortBy YReq.before qs).foldl (fun s q => s.yardAccept cl q) s
    if qs.length < here.length then s.postIn 1 ⟨.yardRequestAccept, [cl]⟩ else s) s

/-- An entry resolves (R47); the fetch of a request that bypasses ends (R45). -/
def State.yardResolve (s : State) (cl : Nat) (e : YEntry) : State :=
  let s := s.modCluster cl fun c => { c with yard := c.yard.erase e }
  if e.alone then s.ldnmDone cl e e.leader none
  else
    let union := e.followers.foldl (fun m q => m ||| q.m0) e.leader.m0
    e.followers.foldl (fun s q => s.ldnmDone cl e q (some 0)) (s.ldnmDone cl e e.leader (some union))

/-- YARD_ENTRY_RESOLVE (R47): the oldest entry whose window has ended. -/
def execYardEntryResolve (s : State) : Host.Outcome State Fault Refusal :=
  event (fun s =>
    let cl := s.arg 0
    match (s.cluster cl).yard.find? fun e => decide (e.close ≤ s.time) with
    | some e => s.yardResolve cl e
    | none => if (s.cluster cl).yard.isEmpty then s else s.postMore ⟨.yardEntryResolve, [cl]⟩) s

/-! ## Rows (R301, R302, R499) -/

/-- QSSBASE and STRIDE that a side-storage instruction uses (R499): where the descriptor now holds others than QGSET resolved, either pair. -/
def rowLayout : X (Nat × Nat) := fun s =>
  let t := s.ctx s.act s.actx
  let own := (t.qbase.toNat, t.qstride)
  match s.readAt s.act t.asid t.priv t.qgd with
  | (none, s) => .ok (own, s)
  | (some b, s) => match s.readAt s.act t.asid t.priv (t.qgd + 8) with
    | (none, s) => .ok (own, s)
    | (some cs, s) =>
      let j := 192 * clusterOf s.act + (t.qgd.toNat - aperBase) / 0x20000
      let new := match spadAt j b with
        | some (i, off) => (apertureOf i off, cs % 65536)
        | none => (b, cs % 65536)
      if new = own then .ok (own, s)
      else .ok (if Config.choice s.fresh then own else new, s.freshen)

/-- The check of one field of a row: R301 adds to an access that it lies within the stride. -/
def checkField (q : Req) (fits : Bool) : X (Except Failed (List Place)) := do
  match ← checkOne q with
  | .error e => pure (.error (if 6 ≤ e.1 ∧ !fits then failed 6 0x0A q.n 0 0 q.kind q.va else e))
  | .ok ps => pure (if fits then .ok ps else .error (failed 6 0x0A q.n 0 0 q.kind q.va))

/-- The rows of the selected members, checked (R301): member, cluster-wide address and places of each field; then the waits of their accesses, of the first `n` of them. -/
def rowsOf (ty : QType) (off : Nat) (sel : List Nat) (wr : Bool) (reads : Nat := 256) : X (List (Nat × Word × List Place)) := do
  let t ← cx
  if t.qgd = 0 then illegal6 1
  else if sel.isEmpty then pure []
  else do
    let (base, stride) ← rowLayout
    let s ← getS
    let n := ty.bytes
    let kind := if wr then 1 else 0
    match spadAt s.act base with
    | none => trap 0x0A (memDetail n 0 1 kind) (w64 base)
    | some (_, o) =>
      if rangeOf base ≠ 1 ∨ 0x20000 < o + (sel.getLast?.getD 0 + 1) * stride then trap 0x0A (memDetail n 0 1 kind) (w64 base)
      else do
        let addr := fun (i : Nat) => w64 (base + i * stride + off)
        let rs ← sel.mapM fun i => checkField { va := addr i, n := n, kind := kind, wr := wr, align := n } (decide (off + n ≤ stride))
        match firstFail rs with
        | some e => stop (.trap e.2)
        | none => do
          waitFill wr ((okPlaces rs).take reads).flatten
          pure ((sel.zip (okPlaces rs)).map fun e => (e.1, addr e.1, e.2))

/-- The members that a mask selects, ascending. -/
def members (m : Mask) : List Nat := (List.range 256).filter fun i => m.getLsbD i

/-- The selected members (R301). -/
def selected : X (List Nat) := do
  let t ← cx
  pure (members (t.getM (.m 0)))

/-- A field extended to 64 bits (R302). -/
def fieldExt (ty : QType) (x : Nat) : Word :=
  match ty with
  | .i8 | .i16 | .i32 => sext64 x (8 * ty.bytes)
  | _ => w64 (x % 2 ^ (8 * ty.bytes))

/-- fld(i) of R302. -/
def getField (ty : QType) (row : Nat × Word × List Place) : X Word := do
  let x ← loadDone row.2.1 ty.bytes row.2.2
  pure (fieldExt ty x)

/-- The words of a row that are I in a window are filled with their line before the row is stored (R187, R301). -/
def fillRow (row : Nat × Word × List Place) : X Unit := modS fun s => row.2.2.foldl (fun s p => match p with
  | .win j wi off pa attr => if ((s.core j).winCopy wi off).any (Copy.valid (s.core j).ep) then s else s.fillWin j wi off pa attr
  | _ => s) s

/-- put(i, x) of R302. -/
def putField (row : Nat × Word × List Place) (x : Word) : X Unit := storeP row.2.2 x.toNat

/-! ## Timing (R305) -/

/-- Whether the rows lie in the scratchpad of core k. -/
def rowsHere (k : Nat) (rows : List (Nat × Word × List Place)) : Bool := rows.all fun r => (spadAt k r.2.1.toNat).any fun e => e.1 == k

/-- Ticks of a side-storage instruction over some rows, of which it accesses the first `reads` (R305): c chunks and the way to them, from the return of the last window fill. -/
def State.rowTicks (s : State) (k : Nat) (rows : List (Nat × Word × List Place)) (reads : Nat := 256) : Nat :=
  let j := ((rows.head?.bind fun r => spadAt k r.2.1.toNat).map (·.1)).getD k
  s.fillTicks j ((rows.take reads).flatMap (·.2.2)) + s.cyc k (((rows.map (·.1 / 32)).eraseDups).length + if rowsHere k rows then 7 else 27)

/-- The member unit is busy, and the destination late, until a side-storage instruction has completed (R305); one that selects no member takes one issue (R301). -/
def noteRows (d : Option RegName) (n : Nat) (rows : List (Nat × Word × List Place)) : X Unit :=
  do
    let s ← getS
    if rows.isEmpty then modCx fun t => t.setLate s.time (d.toList.map fun r => (r, s.time))
    else do
      modCo fun c => { c with units := c.units.set 2 (s.time + n) }
      modCx fun t => t.setLate s.time (d.toList.map fun r => (r, s.time + n))

/-- fld(i) of each row, in order. -/
def getFields (ty : QType) : List (Nat × Word × List Place) → X (List (Nat × Word))
  | [] => pure []
  | r :: t => do
    let x ← getField ty r
    let xs ← getFields ty t
    pure ((r.1, x) :: xs)

/-- Whether a type compares as unsigned (R308). -/
def qUnsigned (ty : QType) : Bool := ty == .n8 || ty == .n16 || ty == .n32

/-- The outcome of QCMP for one field (R308). -/
def qcond (ty : QType) (cc : QCond) (x y : Word) : Bool :=
  let lt := if ty = .f32 then fLt .f32 (fld x 0 32) (fld y 0 32) else if qUnsigned ty then decide (x.toNat < y.toNat) else decide (x.toInt < y.toInt)
  let gt := if ty = .f32 then fLt .f32 (fld y 0 32) (fld x 0 32) else if qUnsigned ty then decide (y.toNat < x.toNat) else decide (y.toInt < x.toInt)
  let eq := if ty = .f32 then fEq .f32 (fld x 0 32) (fld y 0 32) else x == y
  let and_ := if ty = .f32 then fld (x &&& y) 0 32 != 0 else x &&& y != 0
  match cc with
  | .eq => eq
  | .ne => !eq
  | .lt => lt
  | .ge => gt || eq
  | .le => lt || eq
  | .gt => gt
  | .tst => and_
  | .ntst => !and_

/-- A mask from the members it holds. -/
def membersMask (l : List Nat) : Mask := l.foldl (fun m i => setBit m i true) 0

/-- QCMP (R308). -/
def execQcmp (d : MOpd) (a : GSrc) (off : BitVec 12) (ty : QType) (cc : QCond) (s : State) : Host.Outcome State Fault Refusal :=
  issueSeq (do
    needMembership
    ready [a.op 0]
    let y ← rdG a.r
    let sel ← selected
    let rows ← rowsOf ty off.toNat sel false
    let st ← getS
    let xs ← getFields ty rows
    modCx fun t => t.writeM true d (membersMask ((xs.filter fun e => qcond ty cc e.2 y).map (·.1)))
    noteRows (some (.k d)) (st.rowTicks st.act rows) rows
    pops [.g a.r]) s

/-- Change the field of every row; the flags raised, as a union (R309). -/
def updateFields (ty : QType) (f : Word → Word × Flags) : List (Nat × Word × List Place) → X Flags
  | [] => pure 0
  | r :: t => do
    let x ← getField ty r
    putField r (f x).1
    let fl ← updateFields ty f t
    pure ((f x).2 ||| fl)

/-- The shape of QADD, QADDI and QFADD (R309). -/
def qupdate (ty : QType) (off : BitVec 12) (f : Word → Word × Flags) : X Unit := do
  let sel ← selected
  let rows ← rowsOf ty off.toNat sel true
  let st ← getS
  let n := st.rowTicks st.act rows
  let fl ← updateFields ty f rows
  orFlagsIn n fl
  noteRows none n rows

/-- QADD (R309). -/
def execQadd (a : GSrc) (off : BitVec 12) (ty : QType) (s : State) : Host.Outcome State Fault Refusal :=
  issueSeq (do
    needMembership
    ready [a.op 0]
    let y ← rdG a.r
    qupdate ty off fun x => (x + y, 0)
    pops [.g a.r]) s

/-- QADDI (R309). -/
def execQaddi (off : BitVec 12) (ty : QType) (imm : BitVec 5) (s : State) : Host.Outcome State Fault Refusal :=
  issueSeq (do
    needMembership
    qupdate ty off fun x => (x + sext64 imm.toNat 5, 0)) s

/-- QFADD (R309): subnormals honoured. -/
def execQfadd (a : GSrc) (off : BitVec 12) (s : State) : Host.Outcome State Fault Refusal :=
  issueSeq (do
    needMembership
    ready [a.op 0]
    let y ← rdG a.r
    let t ← cx
    qupdate .f32 off fun x =>
      let r := fAdd .f32 ⟨t.mode.rm, false⟩ (fld x 0 32) (fld y 0 32)
      (w64 r.1, r.2)
    pops [.g a.r]) s

/-- QST (R310). -/
def execQst (a : GSrc) (off : BitVec 12) (ty : QType) (s : State) : Host.Outcome State Fault Refusal :=
  issueSeq (do
    needMembership
    ready [a.op 0]
    let y ← rdG a.r
    let sel ← selected
    let rows ← rowsOf ty off.toNat sel true
    let st ← getS
    rows.forM fillRow
    rows.forM fun r => putField r y
    noteRows none (st.rowTicks st.act rows) rows
    pops [.g a.r]) s

/-- QLD (R310): the lowest selected member. -/
def execQld (d : GReg) (off : BitVec 12) (ty : QType) (s : State) : Host.Outcome State Fault Refusal :=
  issueSeq (do
    needMembership
    ready [dG d]
    let sel ← selected
    let rows ← rowsOf ty off.toNat sel false 1
    let st ← getS
    match rows with
    | [] => wrG d 0
    | r :: _ => do
      let x ← getField ty r
      wrG d x
    noteRows (some (.g d)) (st.rowTicks st.act rows 1) rows) s

/-- A field offset in gA beyond 4095 fits no stride (R311, R301). -/
def gOffset (x : Word) : Nat := x.toNat

/-- The members of chunk k (R311). -/
def inChunk (k : Nat) (sel : List Nat) : List Nat := sel.filter fun i => i / 32 == k

/-- Rows of a chunk for QGATH and QSCAT: an offset in gA that no stride holds is misaligned for the lowest member (R311). -/
def chunkRows (ty : QType) (x : Word) (k : Nat) (wr : Bool) : X (List (Nat × Word × List Place)) := do
  let sel ← selected
  let sel := inChunk k sel
  let t ← cx
  if t.qgd ≠ 0 ∧ !sel.isEmpty ∧ 256 ≤ gOffset x then
    trap 0x0A (memDetail ty.bytes 0 0 (if wr then 1 else 0)) (t.qbase + w64 (sel.headD 0 * t.qstride) + x)
  else rowsOf ty (gOffset x) sel wr

/-- QGATH (R311). -/
def execQgath (d : VReg) (a : GSrc) (k : BitVec 3) (ty : QType) (s : State) : Host.Outcome State Fault Refusal :=
  issueSeq (do
    needMembership
    ready [a.op 0, dV d]
    let x ← rdG a.r
    let rows ← chunkRows ty x k.toNat false
    let st ← getS
    let xs ← getFields ty rows
    noteRows (some (.v d)) (st.rowTicks st.act rows) rows
    wrV d (BitVec.ofNat 1024 (lanesOf ((List.range 32).map fun j =>
      ((xs.find? fun e => e.1 == 32 * k.toNat + j).map fun e => fld e.2 0 32).getD 0)))
    pops [.g a.r]) s

/-- QSCAT (R311): vD is read through D. -/
def execQscat (d : VReg) (a : GSrc) (k : BitVec 3) (ty : QType) (s : State) : Host.Outcome State Fault Refusal :=
  issueSeq (do
    needMembership
    ready [a.op 0, sV d]
    let x ← rdG a.r
    let z ← rdV d
    let rows ← chunkRows ty x k.toNat true
    let st ← getS
    rows.forM fillRow
    rows.forM fun r => putField r (w64 (lane32 z (r.1 % 32)))
    noteRows none (st.rowTicks st.act rows) rows
    pops [.g a.r, .v d]) s

/-! ## Masks (R312 to R314) -/

/-- Write a mask of R303. -/
def wrM (d : MOpd) (x : Mask) : X Unit := modCx (·.writeM true d x)

/-- A mask from two masks (R312). -/
def maskOp (d a b : MOpd) (f : Mask → Mask → Mask) : X Unit := do
  needMasks [d, a, b]
  let t ← cx
  wrM d (f (t.getM a) (t.getM b))

/-- MAND (R312). -/
def execMand (d a b : MOpd) (s : State) : Host.Outcome State Fault Refusal := issueSeq (maskOp d a b fun x y => x &&& y) s
/-- MOR (R312). -/
def execMor (d a b : MOpd) (s : State) : Host.Outcome State Fault Refusal := issueSeq (maskOp d a b fun x y => x ||| y) s
/-- MXOR (R312). -/
def execMxor (d a b : MOpd) (s : State) : Host.Outcome State Fault Refusal := issueSeq (maskOp d a b fun x y => x ^^^ y) s
/-- MANDN (R312). -/
def execMandn (d a b : MOpd) (s : State) : Host.Outcome State Fault Refusal := issueSeq (maskOp d a b fun x y => x &&& ~~~y) s

/-- A number from a mask (R313). -/
def maskG (d : GReg) (a : MOpd) (f : Mask → Word) : X Unit := do
  needMasks [a]
  ready [dG d]
  let t ← cx
  wrG d (f (t.getM a))

/-- MPOPC (R313). -/
def execMpopc (d : GReg) (a : MOpd) (s : State) : Host.Outcome State Fault Refusal := issueSeq (maskG d a fun m => w64 (members m).length) s
/-- MFIRST (R313). -/
def execMfirst (d : GReg) (a : MOpd) (s : State) : Host.Outcome State Fault Refusal :=
  issueSeq (maskG d a fun m => match (members m).head? with
    | some i => w64 i
    | none => BitVec.allOnes 64) s
/-- MTEST (R313). -/
def execMtest (d : GReg) (a : MOpd) (s : State) : Host.Outcome State Fault Refusal := issueSeq (maskG d a fun m => if m = 0 then 0 else 1) s

/-- MSET (R314). -/
def execMset (d : MOpd) (s : State) : Host.Outcome State Fault Refusal :=
  issueSeq (do
    needMasks [d]
    wrM d (BitVec.allOnes 256)) s
/-- MCLR (R314). -/
def execMclr (d : MOpd) (s : State) : Host.Outcome State Fault Refusal :=
  issueSeq (do
    needMasks [d]
    wrM d 0) s
/-- MMOV (R314). -/
def execMmov (d a : MOpd) (s : State) : Host.Outcome State Fault Refusal := issueSeq (maskOp d a a fun x _ => x) s

/-- A mask with quarter q replaced. -/
def putQuarter (m : Mask) (q : Nat) (x : Word) : Mask :=
  (m &&& ~~~(BitVec.ofNat 256 ((2 ^ 64 - 1) * 2 ^ (64 * q)))) ||| BitVec.ofNat 256 (x.toNat * 2 ^ (64 * q))

/-- MFROMG (R314). -/
def execMfromg (d : MOpd) (a : GSrc) (q : Fin 4) (s : State) : Host.Outcome State Fault Refusal :=
  issueSeq (do
    needMasks [d]
    ready [a.op 0]
    let x ← rdG a.r
    let t ← cx
    wrM d (putQuarter (t.getM d) q.val x)
    pops [.g a.r]) s

/-- MTOG (R314). -/
def execMtog (d : GReg) (a : MOpd) (q : Fin 4) (s : State) : Host.Outcome State Fault Refusal :=
  issueSeq (maskG d a fun m => w64 (bits m.toNat (64 * q.val) 64)) s

end Sys2Proof.Machine
end

