-- ==== Sys2Proof/Machine/Vector.lean ====
section
/-!
DEFINITION. The vector forms: OP 0x58 to 0x68 (16). Every form reads its sources at issue and writes its destination then; an instruction that depends on it waits for its latency,
after which its flags are in FFLAGS (R334, R335, R351).
-/

namespace Sys2Proof

/-- Number of elements (R331). -/
def VType.count (t : VType) : Nat := 1024 / t.width
/-- Whether a type is an I type, read as signed. -/
def VType.signed : VType → Bool
  | .i8 | .i16 | .i32 => true
  | _ => false
/-- The floating format of a type; none for INT types. -/
def VType.ff : VType → Option Machine.FF
  | .f16 => some .f16
  | .bf16 => some .bf16
  | .f32 => some .f32
  | .e4m3 => some .e4m3
  | .e5m2 => some .e5m2
  | _ => none

end Sys2Proof

namespace Sys2Proof.Machine

/-! ## Elements (R333) -/

/-- Element i of a register whose elements have w bits. -/
def elem (w : Nat) (x : VWord) (i : Nat) : Nat := bits x.toNat (w * i) w

/-- A register from its elements. -/
def ofElems (w : Nat) (xs : List Nat) : VWord := BitVec.ofNat 1024 (packLanes w xs)

/-- The value of an element of an INT type. -/
def vInt (t : VType) (x : Nat) : Int := if t.signed then asInt t.width x else (x % 2 ^ t.width : Nat)

/-- An exact integer written in w bits (R142). -/
def wrapTo (w : Nat) (x : Int) : Nat := (x % (2 ^ w : Nat)).toNat

/-- Union of the flags of a list of results. -/
def flagsOf (l : List (Nat × Flags)) : Flags := l.foldl (fun a r => a ||| r.2) 0

/-- Active elements are computed, inactive ones kept, over n elements of w bits (R333). -/
def perLane (w n : Nat) (act : Nat → Bool) (old : VWord) (f : Nat → Nat × Flags) : VWord × Flags :=
  let rs := (List.range n).map fun i => if act i then f i else (elem w old i, 0)
  (ofElems w (rs.map (·.1)), flagsOf rs)

/-- The old destination, read where the form keeps elements of it (R333). -/
def oldV (d : VReg) (reads : Bool) : X VWord := if reads then rdV d else pure 0

/-- The register that a form pops for reading its destination (R334). -/
def oldRef (d : VReg) (reads : Bool) : List Ref := if reads then [.v d] else []

/-- Write a vector result; its flags are in FFLAGS after its latency of n cycles, 5 for most floating forms (R335, R351). -/
def putV (d : VReg) (r : VWord × Flags) (n : Nat := 5) : X Unit := do
  wrV d r.1
  orFlags n r.2

/-- A form of two v sources: f gets the mode, the sources and the old destination (R333). -/
def lane2 (d : VReg) (a b : VSrc) (ty : VType) (pr : Option PReg) (readsD : Bool) (f : FMode → Nat → Nat → Nat → Nat × Flags)
    (n : Nat := 5) : X Unit := do
  let rd := readsD || pr.isSome
  ready [a.op 0, b.op 1, mV d rd]
  let x ← rdV a.r
  let y ← rdV b.r
  let z ← oldV d rd
  let t ← cx
  let w := ty.width
  putV d (perLane w ty.count (t.active pr) z fun i => f t.mode (elem w x i) (elem w y i) (elem w z i)) n
  pops ([.v a.r, .v b.r] ++ oldRef d rd)

/-- A form of one v source. -/
def lane1 (d : VReg) (a : VSrc) (ty : VType) (pr : Option PReg) (f : FMode → Nat → Nat × Flags) (n : Nat := 8) : X Unit := do
  ready [a.op 0, mV d pr.isSome]
  let x ← rdV a.r
  let z ← oldV d pr.isSome
  let t ← cx
  let w := ty.width
  putV d (perLane w ty.count (t.active pr) z fun i => f t.mode (elem w x i)) n
  pops (.v a.r :: oldRef d pr.isSome)

/-- An operation by class: integer on values, floating on codes (R331). -/
def byClass (ty : VType) (fi : Int → Int → Int) (ff : FF → FMode → Nat → Nat → Nat × Flags) (md : FMode) (x y : Nat) : Nat × Flags :=
  match ty.ff with
  | some F => ff F md x y
  | none => (wrapTo ty.width (fi (vInt ty x) (vInt ty y)), 0)

/-- Smaller of two integers. -/
def iMin (x y : Int) : Int := if y < x then y else x
/-- Larger of two integers. -/
def iMax (x y : Int) : Int := if x < y then y else x

/-! ## Arithmetic and logic (R336 to R338) -/

/-- VADD (R336). -/
def execVadd (d : VReg) (a b : VSrc) (ty : VType) (pr : Option PReg) (s : State) : Host.Outcome State Fault Refusal :=
  issueSeq (lane2 d a b ty pr false fun md x y _ => byClass ty (· + ·) fAdd md x y) s
/-- VSUB (R336). -/
def execVsub (d : VReg) (a b : VSrc) (ty : VType) (pr : Option PReg) (s : State) : Host.Outcome State Fault Refusal :=
  issueSeq (lane2 d a b ty pr false fun md x y _ => byClass ty (· - ·) fSub md x y) s
/-- VMUL (R336). -/
def execVmul (d : VReg) (a b : VSrc) (ty : VType) (pr : Option PReg) (s : State) : Host.Outcome State Fault Refusal :=
  issueSeq (lane2 d a b ty pr false fun md x y _ => byClass ty (· * ·) fMul md x y) s
/-- VMULH (R336): INT types only. -/
def execVmulh (d : VReg) (a b : VSrc) (ty : VType) (pr : Option PReg) (s : State) : Host.Outcome State Fault Refusal :=
  issueSeq (lane2 d a b ty pr false fun _ x y _ => (wrapTo ty.width (vInt ty x * vInt ty y / (2 ^ ty.width : Nat)), 0)) s
/-- VMIN (R336). -/
def execVmin (d : VReg) (a b : VSrc) (ty : VType) (pr : Option PReg) (s : State) : Host.Outcome State Fault Refusal :=
  issueSeq (lane2 d a b ty pr false fun md x y _ => byClass ty iMin fMin md x y) s
/-- VMAX (R336). -/
def execVmax (d : VReg) (a b : VSrc) (ty : VType) (pr : Option PReg) (s : State) : Host.Outcome State Fault Refusal :=
  issueSeq (lane2 d a b ty pr false fun md x y _ => byClass ty iMax fMax md x y) s
/-- VABSD (R336). -/
def execVabsd (d : VReg) (a b : VSrc) (ty : VType) (pr : Option PReg) (s : State) : Host.Outcome State Fault Refusal :=
  issueSeq (lane2 d a b ty pr false fun md x y _ => byClass ty (fun x y => ((x - y).natAbs : Int)) fAbsd md x y) s

/-- A multiply-add of floating codes; an INT type does not occur (R332). -/
def fmaOf (ty : VType) (negP : Bool) (md : FMode) (x y z : Nat) : Nat × Flags :=
  match ty.ff with
  | some F => fFma F md negP x y z
  | none => (z, 0)

/-- VFMA (R337). -/
def execVfma (d : VReg) (a b : VSrc) (ty : VType) (pr : Option PReg) (s : State) : Host.Outcome State Fault Refusal :=
  issueSeq (lane2 d a b ty pr true fun md x y z => fmaOf ty false md x y z) s
/-- VFMS (R337). -/
def execVfms (d : VReg) (a b : VSrc) (ty : VType) (pr : Option PReg) (s : State) : Host.Outcome State Fault Refusal :=
  issueSeq (lane2 d a b ty pr true fun md x y z => fmaOf ty true md x y z) s

/-- VAND (R338). -/
def execVand (d : VReg) (a b : VSrc) (ty : VType) (pr : Option PReg) (s : State) : Host.Outcome State Fault Refusal :=
  issueSeq (lane2 d a b ty pr false fun _ x y _ => (x &&& y, 0)) s
/-- VOR (R338). -/
def execVor (d : VReg) (a b : VSrc) (ty : VType) (pr : Option PReg) (s : State) : Host.Outcome State Fault Refusal :=
  issueSeq (lane2 d a b ty pr false fun _ x y _ => (x ||| y, 0)) s
/-- VXOR (R338). -/
def execVxor (d : VReg) (a b : VSrc) (ty : VType) (pr : Option PReg) (s : State) : Host.Outcome State Fault Refusal :=
  issueSeq (lane2 d a b ty pr false fun _ x y _ => (x ^^^ y, 0)) s
/-- VANDN (R338): a and not b. -/
def execVandn (d : VReg) (a b : VSrc) (ty : VType) (pr : Option PReg) (s : State) : Host.Outcome State Fault Refusal :=
  issueSeq (lane2 d a b ty pr false fun _ x y _ => (x - (x &&& y), 0)) s

/-- A shift distance: the low log2(w) bits (R145). -/
def shiftBy (ty : VType) (y : Nat) : Nat := y % ty.width

/-- VSHL (R338). -/
def execVshl (d : VReg) (a b : VSrc) (ty : VType) (pr : Option PReg) (s : State) : Host.Outcome State Fault Refusal :=
  issueSeq (lane2 d a b ty pr false fun _ x y _ => (x * 2 ^ shiftBy ty y % 2 ^ ty.width, 0)) s
/-- VSHR (R338): zeros enter for every type. -/
def execVshr (d : VReg) (a b : VSrc) (ty : VType) (pr : Option PReg) (s : State) : Host.Outcome State Fault Refusal :=
  issueSeq (lane2 d a b ty pr false fun _ x y _ => (x / 2 ^ shiftBy ty y, 0)) s
/-- VSRA (R338): bit w - 1 enters for every type. -/
def execVsra (d : VReg) (a b : VSrc) (ty : VType) (pr : Option PReg) (s : State) : Host.Outcome State Fault Refusal :=
  issueSeq (lane2 d a b ty pr false fun _ x y _ => (wrapTo ty.width (asInt ty.width x / (2 ^ shiftBy ty y : Nat)), 0)) s

/-! ## Comparison and selection (R339) -/

/-- The condition of VCMP on two elements, and NV for a signalling NaN. -/
def vcond (ty : VType) (cc : VCond) (x y : Nat) : Bool × Flags :=
  let (lt, gt, eq, fl) := match ty.ff with
    | some F => (fLt F x y, fLt F y x, fEq F x y, if (F.decode x).sig || (F.decode y).sig then fNV else (0 : Flags))
    | none => (decide (vInt ty x < vInt ty y), decide (vInt ty y < vInt ty x), x == y, 0)
  (match cc with
    | .eq => eq
    | .ne => !eq
    | .lt => lt
    | .ge => gt || eq
    | .le => lt || eq
    | .gt => gt, fl)

/-- VCMP (R339). -/
def execVcmp (d : MOpd) (a b : VSrc) (cc : VCond) (ty : VType) (pr : Option PReg) (s : State) : Host.Outcome State Fault Refusal :=
  issueSeq (do
    needMasks [d]
    ready [a.op 0, b.op 1]
    let x ← rdV a.r
    let y ← rdV b.r
    let t ← cx
    let w := ty.width
    let rs := (List.range ty.count).map fun i => if t.active pr i then vcond ty cc (elem w x i) (elem w y i) else (false, 0)
    modCx fun t => t.writeM false d (membersMask ((rs.zipIdx.filter fun e => e.1.1).map (·.2)))
    orFlags 3 (rs.foldl (fun f r => f ||| r.2) 0)
    pops [.v a.r, .v b.r]) s

/-- VSEL (R339). -/
def execVsel (d : VReg) (a b : VSrc) (ty : VType) (pr : PReg) (s : State) : Host.Outcome State Fault Refusal :=
  issueSeq (do
    ready [a.op 0, b.op 1, dV d]
    let x ← rdV a.r
    let y ← rdV b.r
    let t ← cx
    let w := ty.width
    wrV d (ofElems w ((List.range ty.count).map fun i => if t.active (some pr) i then elem w x i else elem w y i))
    pops [.v a.r, .v b.r]) s

/-! ## Moving elements (R340, R341) -/

/-- VBCAST (R340). -/
def execVbcast (d : VReg) (a : GSrc) (ty : VType) (pr : Option PReg) (s : State) : Host.Outcome State Fault Refusal :=
  issueSeq (do
    ready [a.op 0, mV d pr.isSome]
    let x ← rdG a.r
    let z ← oldV d pr.isSome
    let t ← cx
    putV d (perLane ty.width ty.count (t.active pr) z fun _ => (fld x 0 ty.width, 0))
    pops (.g a.r :: oldRef d pr.isSome)) s

/-- VEXTR (R340). -/
def execVextr (d : GReg) (a : VSrc) (b : GSrc) (ty : VType) (s : State) : Host.Outcome State Fault Refusal :=
  issueSeq (do
    ready [a.op 0, b.op 1, dG d]
    let x ← rdV a.r
    let y ← rdG b.r
    let e := elem ty.width x (y.toNat % ty.count)
    wrG d (if ty.signed then sext64 e ty.width else w64 e)
    pops [.v a.r, .g b.r]) s

/-- VINS (R340). -/
def execVins (d : VReg) (a b : GSrc) (ty : VType) (s : State) : Host.Outcome State Fault Refusal :=
  issueSeq (do
    ready [a.op 0, b.op 1, sV d]
    let x ← rdG a.r
    let y ← rdG b.r
    let z ← rdV d
    let w := ty.width
    wrV d (ofElems w ((List.range ty.count).map fun i => if i = y.toNat % ty.count then fld x 0 w else elem w z i))
    pops [.g a.r, .g b.r, .v d]) s

/-- VPERM (R340). -/
def execVperm (d : VReg) (a b : VSrc) (ty : VType) (pr : Option PReg) (s : State) : Host.Outcome State Fault Refusal :=
  issueSeq (do
    ready [a.op 0, b.op 1, mV d pr.isSome]
    let x ← rdV a.r
    let y ← rdV b.r
    let z ← oldV d pr.isSome
    let t ← cx
    let w := ty.width
    putV d (perLane w ty.count (t.active pr) z fun i => (elem w x (elem w y i % ty.count), 0))
    pops ([.v a.r, .v b.r] ++ oldRef d pr.isSome)) s

/-- VROT (R340). -/
def execVrot (d : VReg) (a : VSrc) (b : GSrc) (ty : VType) (s : State) : Host.Outcome State Fault Refusal :=
  issueSeq (do
    ready [a.op 0, b.op 1, dV d]
    let x ← rdV a.r
    let y ← rdG b.r
    let w := ty.width
    wrV d (ofElems w ((List.range ty.count).map fun i => elem w x ((i + y.toNat) % ty.count)))
    pops [.v a.r, .g b.r]) s

/-- VCOMPRESS (R341). -/
def execVcompress (d : VReg) (a : VSrc) (ty : VType) (pr : PReg) (s : State) : Host.Outcome State Fault Refusal :=
  issueSeq (do
    ready [a.op 0, dV d]
    let x ← rdV a.r
    let t ← cx
    let w := ty.width
    wrV d (ofElems w (((List.range ty.count).filter (t.active (some pr))).map fun i => elem w x i))
    pops [.v a.r]) s

/-- Elements spread over the set positions of a predicate, 0 elsewhere: from position i on, n positions, taking element k next. -/
def spread (act : Nat → Bool) (get : Nat → Nat) : Nat → Nat → Nat → List Nat
  | 0, _, _ => []
  | n + 1, i, k => if act i then get k :: spread act get n (i + 1) (k + 1) else 0 :: spread act get n (i + 1) k

/-- VEXPAND (R341). -/
def execVexpand (d : VReg) (a : VSrc) (ty : VType) (pr : PReg) (s : State) : Host.Outcome State Fault Refusal :=
  issueSeq (do
    ready [a.op 0, dV d]
    let x ← rdV a.r
    let t ← cx
    let w := ty.width
    wrV d (ofElems w (spread (t.active (some pr)) (elem w x) ty.count 0 0))
    pops [.v a.r]) s

/-! ## Conversions (R342) -/

/-- An exact integer in an INT type: its low bits, or clamped under SAT. -/
def intTo (dt : VType) (sat : Bool) (x : Int) : Nat :=
  let lo : Int := if dt.signed then -(2 ^ (dt.width - 1) : Nat) else 0
  let hi : Int := if dt.signed then (2 ^ (dt.width - 1) - 1 : Nat) else (2 ^ dt.width - 1 : Nat)
  wrapTo dt.width (if sat then if x < lo then lo else if hi < x then hi else x else x)

/-- cvt of R342. -/
def cvtElem (st dt : VType) (rm : Rm) (sat : Bool) (x : Nat) : Nat × Flags :=
  if st = dt then (x, 0)
  else match st.ff, dt.ff with
    | some S, some D => fromF32 D rm sat (toF32 S x)
    | some S, none => toInt dt.signed dt.width rm (S.decode x)
    | none, some D => fromInt D rm sat (vInt st x)
    | none, none => (intTo dt (sat && decide (dt.width ≤ st.width)) (vInt st x), 0)

/-- VCVT (R342). -/
def execVcvt (d : VReg) (a : VSrc) (dt ty : VType) (part : BitVec 2) (sat : Bool) (pr : Option PReg) (s : State) :
    Host.Outcome State Fault Refusal :=
  issueSeq (do
    let m := 1024 / max ty.width dt.width
    let narrow := decide (dt.width < ty.width)
    let rd := pr.isSome || narrow
    ready [a.op 0, mV d rd]
    let x ← rdV a.r
    let z ← oldV d rd
    let t ← cx
    let base := m * part.toNat
    let cv := fun i => cvtElem ty dt t.mode.rm sat (elem ty.width x i)
    putV d (if dt.width ≤ ty.width then
      perLane dt.width dt.count (fun j => decide (base ≤ j) && decide (j < base + m) && t.active pr (j - base)) z fun j => cv (j - base)
    else perLane dt.width dt.count (t.active pr) z fun i => cv (base + i))
    pops (.v a.r :: oldRef d rd)) s

/-! ## Reductions, scans, sorting (R343 to R345, R164) -/

/-- The largest and smallest value of an INT type. -/
def vTop (t : VType) : Int := if t.signed then (2 ^ (t.width - 1) - 1 : Nat) else (2 ^ t.width - 1 : Nat)
/-- The smallest. -/
def vBottom (t : VType) : Int := if t.signed then -(2 ^ (t.width - 1) : Nat) else 0

/-- One level of the tree of R164. -/
def treeLevel (F : FF) (md : FMode) : List Nat → List Nat × Flags
  | x :: y :: t =>
    let r := fAdd F md x y
    let (xs, fl) := treeLevel F md t
    (r.1 :: xs, r.2 ||| fl)
  | l => (l, 0)

/-- The tree of R164, n levels. -/
def treeSum (F : FF) (md : FMode) : Nat → List Nat → Nat × Flags
  | 0, l => (l.headD 0, 0)
  | n + 1, l =>
    let (xs, fl) := treeLevel F md l
    let (x, fl2) := treeSum F md n xs
    (x, fl ||| fl2)

/-- A reduction of one v source to a g register (R343): of the active elements in order, and whether each lane is active. -/
def reduce (d : GReg) (a : VSrc) (ty : VType) (pr : Option PReg) (f : FMode → List (Nat × Bool) → Word × Flags) : X Unit := do
  ready [a.op 0, dG d]
  let x ← rdV a.r
  let t ← cx
  let r := f t.mode ((List.range ty.count).map fun i => (elem ty.width x i, t.active pr i))
  wrG d r.1
  orFlags 8 r.2
  pops [.v a.r]

/-- A fold of floating codes by an operation, inactive lanes contributing an identity. -/
def foldF (f : Nat → Nat → Nat × Flags) (ident : Nat) (l : List (Nat × Bool)) : Nat × Flags :=
  l.foldl (fun (a : Nat × Flags) e =>
    let r := f a.1 (if e.2 then e.1 else ident)
    (r.1, a.2 ||| r.2)) (ident, 0)

/-- VREDADD (R343, R164). -/
def execVredadd (d : GReg) (a : VSrc) (ty : VType) (pr : Option PReg) (s : State) : Host.Outcome State Fault Refusal :=
  issueSeq (reduce d a ty pr fun md l => match ty.ff with
    | some F =>
      let r := treeSum F md.rne (Nat.log2 ty.count) (l.map fun e => if e.2 then e.1 else F.sgn true)
      (w64 r.1, r.2)
    | none => (BitVec.ofInt 64 (l.foldl (fun (n : Int) e => if e.2 then n + vInt ty e.1 else n) 0), 0)) s

/-- VREDMIN (R343). -/
def execVredmin (d : GReg) (a : VSrc) (ty : VType) (pr : Option PReg) (s : State) : Host.Outcome State Fault Refusal :=
  issueSeq (reduce d a ty pr fun md l => match ty.ff with
    | some F =>
      let r := foldF (fMin F md) (F.inf false) l
      (w64 r.1, r.2)
    | none => (BitVec.ofInt 64 (l.foldl (fun (n : Int) e => if e.2 then iMin n (vInt ty e.1) else n) (vTop ty)), 0)) s

/-- VREDMAX (R343). -/
def execVredmax (d : GReg) (a : VSrc) (ty : VType) (pr : Option PReg) (s : State) : Host.Outcome State Fault Refusal :=
  issueSeq (reduce d a ty pr fun md l => match ty.ff with
    | some F =>
      let r := foldF (fMax F md) (F.inf true) l
      (w64 r.1, r.2)
    | none => (BitVec.ofInt 64 (l.foldl (fun (n : Int) e => if e.2 then iMax n (vInt ty e.1) else n) (vBottom ty)), 0)) s

/-- VREDOR (R343). -/
def execVredor (d : GReg) (a : VSrc) (ty : VType) (pr : Option PReg) (s : State) : Host.Outcome State Fault Refusal :=
  issueSeq (reduce d a ty pr fun _ l =>
    let x := l.foldl (fun n e => if e.2 then n ||| e.1 else n) 0
    (if ty.signed then sext64 x ty.width else w64 x, 0)) s

/-- identity and combine of R344 for an operator and type. -/
def scanOp (sop : ScanOp) (ty : VType) (md : FMode) : Nat × (Nat → Nat → Nat × Flags) :=
  match ty.ff, sop with
  | some F, .add => (F.sgn true, fAdd F md.rne)
  | some F, .min => (F.inf false, fMin F md)
  | some F, .max => (F.inf true, fMax F md)
  | some _, .or => (0, fun x _ => (x, 0))
  | none, .add => (0, fun x y => ((x + y) % 2 ^ ty.width, 0))
  | none, .min => (wrapTo ty.width (vTop ty), byClass ty iMin fMin md)
  | none, .max => (wrapTo ty.width (vBottom ty), byClass ty iMax fMax md)
  | none, .or => (0, fun x y => (x ||| y, 0))

/-- The prefixes of R344 over elements with their activity: result and flags of each step. -/
def scanFrom (ident : Nat) (f : Nat → Nat → Nat × Flags) : Nat → List (Nat × Bool) → List (Nat × Flags)
  | _, [] => []
  | acc, e :: t =>
    let r := f acc (if e.2 then e.1 else ident)
    r :: scanFrom ident f r.1 t

/-- VSCAN (R344). -/
def execVscan (d : VReg) (a : VSrc) (sop : ScanOp) (ty : VType) (pr : Option PReg) (s : State) : Host.Outcome State Fault Refusal :=
  issueSeq (do
    ready [a.op 0, mV d pr.isSome]
    let x ← rdV a.r
    let z ← oldV d pr.isSome
    let t ← cx
    let w := ty.width
    let es := (List.range ty.count).map fun i => (elem w x i, t.active pr i)
    let rs := scanFrom (scanOp sop ty t.mode).1 (scanOp sop ty t.mode).2 (scanOp sop ty t.mode).1 es
    putV d (ofElems w ((rs.zip es).zipIdx.map fun e => if e.1.2.2 then e.1.1.1 else elem w z e.2), flagsOf rs) 12
    pops (.v a.r :: oldRef d pr.isSome)) s

/-- The position of an element in the order of VSORT (R345). -/
def sortKey (ty : VType) (x : Nat) : Int :=
  match ty.ff with
  | some _ => if 2 ^ (ty.width - 1) ≤ x then (2 ^ ty.width - 1 - x : Nat) else (2 ^ (ty.width - 1) + x : Nat)
  | none => vInt ty x

/-- VSORT (R345). -/
def execVsort (d : VReg) (a : VSrc) (ord : SortOrd) (ty : VType) (pr : Option PReg) (s : State) : Host.Outcome State Fault Refusal :=
  issueSeq (do
    ready [a.op 0, dV d]
    let x ← rdV a.r
    let t ← cx
    let w := ty.width
    let es := ((List.range ty.count).filter (t.active pr)).map fun i => elem w x i
    let le := fun (p q : Nat) => if ord = .asc then decide (sortKey ty p ≤ sortKey ty q) else decide (sortKey ty q ≤ sortKey ty p)
    wrV d (ofElems w (sortBy le es))
    pops [.v a.r]) s

/-! ## Dot products, division, roots, special functions (R346 to R348) -/

/-- The exact sum of products (R346, R162): NaN where an operand is NaN, a product is 0 times infinity, or infinite products have both signs. The last two are
invalid whatever else the sum holds (R151). -/
def dotSum (rm : Rm) (ps : List (FV × FV)) : FV :=
  let prods := ps.map fun p => p.1.mul p.2
  let bad := (ps.any fun p => p.1.badMul p.2) || (prods.any (· == .inf false) && prods.any (· == .inf true))
  if bad then .nan true
  else match prods with
    | p :: t => t.foldl (FV.add rm) p
    | [] => .fin false 0 0

/-- A lane of VDOT4 on floating types (R346). -/
def dot4F (F : FF) (md : FMode) (xs ys : List Nat) (acc : Nat) : Nat × Flags :=
  let ps := (xs.zip ys).map fun e => (F.operand md.ftz e.1, F.operand md.ftz e.2)
  FF.f32.put md false (FV.add md.rm (FF.f32.operand md.ftz acc) (dotSum md.rm ps))

/-- VDOT4 (R346). -/
def execVdot4 (d : VReg) (a b : VSrc) (ty : VType) (pr : Option PReg) (s : State) : Host.Outcome State Fault Refusal :=
  issueSeq (do
    ready [a.op 0, b.op 1, sV d]
    let x ← rdV a.r
    let y ← rdV b.r
    let z ← rdV d
    let t ← cx
    putV d (perLane 32 32 (t.active pr) z fun i =>
      let xs := (List.range 4).map fun j => elem 8 x (4 * i + j)
      let ys := (List.range 4).map fun j => elem 8 y (4 * i + j)
      match ty.ff with
      | some F => dot4F F t.mode xs ys (elem 32 z i)
      | none => (wrapTo 32 ((xs.zip ys).foldl (fun (n : Int) e => n + vInt ty e.1 * vInt ty e.2) (elem 32 z i)), 0))
    pops [.v a.r, .v b.r, .v d]) s

/-- VRCP (R348). -/
def execVrcp (d : VReg) (a : VSrc) (ty : VType) (pr : Option PReg) (s : State) : Host.Outcome State Fault Refusal :=
  issueSeq (lane1 d a ty pr fun md x => fRcp md.ftz x) s
/-- VRSQ (R348). -/
def execVrsq (d : VReg) (a : VSrc) (ty : VType) (pr : Option PReg) (s : State) : Host.Outcome State Fault Refusal :=
  issueSeq (lane1 d a ty pr fun md x => fRsq md.ftz x) s
/-- VEXP2 (R348). -/
def execVexp2 (d : VReg) (a : VSrc) (ty : VType) (pr : Option PReg) (s : State) : Host.Outcome State Fault Refusal :=
  issueSeq (lane1 d a ty pr fun md x => fExp2 md.ftz x) s
/-- VLOG2 (R348). -/
def execVlog2 (d : VReg) (a : VSrc) (ty : VType) (pr : Option PReg) (s : State) : Host.Outcome State Fault Refusal :=
  issueSeq (lane1 d a ty pr fun md x => fLog2 md.ftz x) s

/-- VDIV (R347). -/
def execVdiv (d : VReg) (a b : VSrc) (ty : VType) (pr : Option PReg) (s : State) : Host.Outcome State Fault Refusal :=
  issueSeq (lane2 d a b ty pr false (fun md x y z => match ty.ff with
    | some F => fDiv F md x y
    | none => (z, 0)) 20) s
/-- VSQRT (R347). -/
def execVsqrt (d : VReg) (a : VSrc) (ty : VType) (pr : Option PReg) (s : State) : Host.Outcome State Fault Refusal :=
  issueSeq (lane1 d a ty pr (fun md x => match ty.ff with
    | some F => fSqrt F md x
    | none => (x, 0)) 20) s

/-! ## BC8 (R349, R350) -/

/-- Cycles of BCENC (R351). -/
def bcencCycles (codes : List Nat) : Nat := 12 + 4 * (bcPassCount codes - 1)

/-- BCENC (R349). -/
def execBcenc (d : VReg) (a : VSrc) (c : GReg) (_ty : VType) (s : State) : Host.Outcome State Fault Refusal :=
  issueSeq (do
    ready [a.op 0, dV d, dG c]
    let x ← rdV a.r
    let codes := (List.range 32).map fun i => elem 32 x i
    let (b, l, fl) := bcEncode codes
    wrG c (w64 l)
    putV d (BitVec.ofNat 1024 b, fl) (bcencCycles codes)
    pops [.v a.r]) s

/-- BCDEC (R350). -/
def execBcdec (d : VReg) (a : VSrc) (b : GSrc) (_ty : VType) (s : State) : Host.Outcome State Fault Refusal :=
  issueSeq (do
    ready [a.op 0, b.op 1, dV d]
    let x ← rdV a.r
    let y ← rdG b.r
    putV d (match (if y.toNat < 6 ∨ 14 < y.toNat then .bad else bcDecode x.toNat y.toNat) with
      | .ok vs =>
        let rs := vs.map (FF.f32.put ⟨.rne, false⟩ false)
        (ofElems 32 (rs.map (·.1)), flagsOf rs)
      | .allNan => (ofElems 32 (List.replicate 32 0x7FC00000), 0)
      | .bad => (ofElems 32 (List.replicate 32 0x7FC00000), fNV)) 8
    pops [.v a.r, .g b.r]) s

end Sys2Proof.Machine
end

