-- ==== Sys2Proof/Machine/Matrix.lean ====
section
/-!
DEFINITION. Matrix forms: OP 0x70 to 0x77 (17), the octet's MXU (R359), the sums of R162 and R163, and remote commands (R368, R369).
-/

namespace Sys2Proof.Machine

/-! ## The format block (R354 to R356) -/

/-- AFMT. -/
def aFmt (f : Vector Word 8) : Nat := fld f[0] 0 4
/-- BFMT. -/
def bFmt (f : Vector Word 8) : Nat := fld f[0] 4 4
/-- A block that R355 and R356 accept. -/
def fmtOk (f : Vector Word 8) : Bool :=
  fld f[0] 12 52 == 0 && fld f[0] 8 3 == 0 && f[7] == 0 &&
  ((aFmt f == 0 && bFmt f == 0 && !accInt f) || (aFmt f == 4 && bFmt f == 4 && accInt f) ||
   (decide (1 ≤ aFmt f) && decide (aFmt f ≤ 3) && decide (1 ≤ bFmt f) && decide (bFmt f ≤ 3) && !accInt f))

/-- Bytes of a dense element (R357). -/
def fmtBytes (c : Nat) : Nat := if c = 0 then 2 else 1

/-- The value of a dense element (R357). -/
def fmtValue (c x : Nat) : FV :=
  if c = 0 then FF.bf16.decode x else if c = 1 then FF.e4m3.decode x else if c = 2 then FF.e5m2.decode x
  else .fin (decide (asInt 8 x < 0)) (asInt 8 x).natAbs 0

/-- MXCFG (R356): the block is installed, and the context issues again, 2 cycles after the load completes. An operation issued before then captures the block installed before. -/
def execMxcfg (a : GSrc) (s : State) : Host.Outcome State Fault Refusal :=
  issueSeq (do
    ready [a.op 0]
    let x ← rdG a.r
    let ps ← check { va := x, n := 64, kind := 0, wr := false, align := 64, stk := a.r == 62 }
    let st ← getS
    let y ← loadNow x 64 ps
    let f := recordOf y
    let n := st.latencyOf st.act 0 ps + st.cyc st.act 2
    if fmtOk f then do
      modCo fun c => (c.now st.time).install (st.time + n) f
      holdFor n
    else illegal6 5
    pops [.g a.r]) s

/-! ## Checks at issue (R359) -/

/-- The parts of n bytes from an address that lie in one 4 KiB page each; n is at most 4096. -/
def pieces (a : Word) (n : Nat) : List (Word × Nat) :=
  let first := 4096 - a.toNat % 4096
  if n = 0 then [] else if n ≤ first then [(a, n)] else [(a, first), (a + w64 first, n - first)]

/-- Two maps together. -/
def MxMap.and (x y : MxMap) : MxMap :=
  ⟨x.pages ++ y.pages.filter fun g => !x.pages.contains g, x.wins ++ y.wins.filter fun g => !x.wins.contains g⟩

/-- No extent. -/
def MxMap.none : MxMap := ⟨[], []⟩

/-- The physical addresses of the pages and window words of a map. -/
def MxMap.pas (m : MxMap) : List Nat := (m.pages.map fun p => p.2.1 * 4096) ++ m.wins.filterMap fun w => w.2.2.2.pa?

/-- The failure of two checks that R451 reports, or what both give. -/
def bothChecks {α : Type} (join : α → α → α) (x y : Except Failed α) : Except Failed α :=
  match x, y with
  | .error e, .error e2 => .error (if e2.1 < e.1 then e2 else e)
  | .error e, .ok _ => .error e
  | .ok _, .error e => .error e
  | .ok p, .ok q => .ok (join p q)

/-- The window of core k that a scratchpad or aperture address lies in, with the address of a byte of it in the window's virtual range. -/
def State.winOf (s : State) (k va : Nat) : Option (Nat × Nat) :=
  let j := if rangeOf va = 0 then k else 192 * clusterOf k + (va - aperBase) / 0x20000
  let off := if rangeOf va = 0 then va else (va - aperBase) % 0x20000
  ((s.core j).winAt off).map fun w => (w.2.asid, w.2.va + (off - w.2.base))

/-- Who translates: an instruction, or an event with so many operands of its own. -/
abbrev Who := Option Nat

/-- The check of words of scratchpad, from the number of the first: those that lie in windows are kept (R187, R359); register space takes no such access. -/
def mxWords (q : Req) (k asid priv : Nat) : Nat → Nat → X (Except Failed MxMap)
  | 0, _ => pure (.ok MxMap.none)
  | n + 1, w => do
    let r ← bytePlace q k asid priv (4 * w)
    let s ← getS
    let r : Except Failed MxMap := match r with
      | .error e => .error e
      | .ok p =>
        if (p.pa?.map isReg).getD false then .error (failed 6 0x0A q.n 0 0 7 (w64 (4 * w)))
        else match s.winOf k (4 * w) with
          | some v => .ok ⟨[], [(w, v.1, v.2, p)]⟩
          | none => .ok MxMap.none
    let rs ← mxWords q k asid priv n (w + 1)
    pure (bothChecks MxMap.and r rs)

/-- The check of one piece, whose elements have es bytes: where it lies, or its failure. It waits for its walk (R175). -/
def mxPiece (who : Who) (k asid priv es : Nat) (wr lock : Bool) (p : Word × Nat) : X (Except Failed MxMap) := do
  let s ← getS
  let a := p.1.toNat
  let q : Req := { va := p.1, n := es, kind := 7, wr := wr, own := who.isNone, ev := who }
  let locked : Except Failed MxMap := if lock then match (s.core k).lockOn k a p.2 wr with
      | some h => .error (7, lockTrap h.1 h.2 wr)
      | none => .ok MxMap.none
    else .ok MxMap.none
  if 2 ^ 48 ≤ a then pure (.error (failed 2 0x08 es 0 4 7 p.1))
  else if rangeOf a ≠ 2 then do
    let r ← mxWords q k asid priv (spanWords a p.2) (a / 4)
    pure (bothChecks MxMap.and r locked)
  else do
    let t ← transFor q k asid a
    let s ← getS
    pure (match t with
      | .error (l, r) => .error (failed 4 0x08 es l r 7 p.1)
      | .ok t =>
        if !s.populated (t.at a) then .error (failed 4 0x08 es 0 2 7 p.1)
        else match permMissing t wr priv false with
          | some r => .error (failed 5 0x09 es 0 r 7 p.1)
          | none =>
            if isReg (t.at a) then .error (failed 6 0x0A es 0 0 7 p.1)
            else bothChecks MxMap.and (.ok ⟨[(a / 4096, t.at a / 4096, t.attr)], []⟩) locked)

/-- The checks of a list of extents: where they lie, or the failure that R451 reports. -/
def mxExtents (who : Who) (k asid priv es : Nat) (wr lock : Bool) : List (Word × Nat) → X (Except Failed MxMap)
  | [] => pure (.ok MxMap.none)
  | p :: t => do
    let r ← mxPiece who k asid priv es wr lock p
    let rs ← mxExtents who k asid priv es wr lock t
    pure (bothChecks MxMap.and r rs)

/-- The extents of rows of n bytes at a stride. -/
def rowExtents (a stride : Word) (rows n : Nat) : List (Word × Nat) := (List.range rows).flatMap fun i => pieces (a + stride * w64 i) n

/-- An alignment failure unless a condition holds. -/
def alignedOr (ok : Bool) (es : Nat) (a : Word) : Except Failed MxMap :=
  if ok then .ok MxMap.none else .error (failed 6 0x0A es 0 0 7 a)

/-- SSL and SSB where a base register is g62, whose accesses the stack limits bound (R76). -/
abbrev Limits := Option (Word × Word)

/-- The failure of the first element of es bytes, in rows of n, that lies outside the stack limits (R76). -/
def stackRows (l : Limits) (a stride : Word) (rows n es : Nat) : Except Failed MxMap :=
  match l with
  | none => .ok MxMap.none
  | some (ssl, ssb) =>
    match ((List.range rows).flatMap fun i => (List.range n).map fun j => a + stride * w64 i + w64 (j * es)).find?
        fun ea => decide (ea.toNat < ssl.toNat) || decide (ssb.toNat < ea.toNat + es - 1) with
    | some ea => .error (failed 1 0x0B es 0 1 7 ea)
    | none => .ok MxMap.none

/-- The checks of rows of n elements of es bytes at a stride: stack limits, extents, alignment. -/
def mxRows (who : Who) (k asid priv : Nat) (wr lock : Bool) (l : Limits) (a stride : Word) (rows n es : Nat) : X (Except Failed MxMap) := do
  let r ← mxExtents who k asid priv es wr lock (rowExtents a stride rows (n * es))
  pure (bothChecks MxMap.and (stackRows l a stride rows n es) (bothChecks MxMap.and r (alignedOr (a.toNat % es == 0 && stride.toNat % es == 0) es a)))

/-- A page list used as translation: the physical address of a global virtual one. -/
def pageLookup (pages : List (Nat × Nat × Attr)) (va : Nat) : Option (Nat × Attr) :=
  (pages.find? fun p => p.1 == va / 4096).map fun p => (p.2.1 * 4096 + va % 4096, p.2.2)

/-- The place of a byte of an operation, as translated at issue (R359). -/
def State.mxPlace (s : State) (k : Nat) (m : MxMap) (va : Nat) : Option Place :=
  if rangeOf va = 2 then (pageLookup m.pages va).map fun p => .phys p.1 p.2
  else match m.wins.find? fun w => w.1 == va / 4 with
    | some w => some (s.livePlace 1 (w.2.2.2.plus (va % 4)))
    | none => if rangeOf va = 0 then some (.spad k va) else some (.spad (192 * clusterOf k + (va - aperBase) / 0x20000) ((va - aperBase) % 0x20000))

/-- The places of n bytes of an operation. -/
def State.mxPlaces (s : State) (k : Nat) (m : MxMap) (va n : Nat) : List Place := (List.range n).filterMap fun i => s.mxPlace k m (va + i)

/-- An operand of n bytes read, global ones at their home as directory reads (R191): its value, and whether it is poisoned. -/
def State.mxRead (s : State) (k : Nat) (m : MxMap) (va n : Nat) : (Nat × Bool) × State :=
  match s.mxPlace k m va with
  | some (.phys pa _) =>
    let (x, s) := s.homeRead pa n
    ((x, s.anyPoisonFor k pa n), s)
  | _ => s.loadPlaces k (s.mxPlaces k m va n)

/-- What core k has the MXU write into windows of SI pages is written back by its FENCE.ENG, as its own (R203, R217). -/
def State.noteWrites (s : State) (k : Nat) (ps : List Place) : State :=
  ps.foldl (fun s p => match p with
    | .win j _ _ pa attr => s.noteAway k j (pa / 4) attr
    | _ => s) s

/-- A result of n bytes written, global ones at their home; the issuing core's own copies go to I (R216). A write that cannot reach its home is dropped (R478). -/
def State.mxWrite (s : State) (k : Nat) (m : MxMap) (va n x : Nat) : State :=
  match s.mxPlace k m va with
  | some (.phys pa _) => if s.cutOff k pa then s.dropAt k pa n else (s.dropAt k pa n).homeWrite pa n x
  | _ => let ps := s.mxPlaces k m va n
    ((s.storePlaces k ps x).clearStored k ps).noteWrites k ps

/-! ## BC8 operands (R358, R160) -/

/-- Where block n of a tensor begins, and its length, from the entry of its group. -/
def blockAt (data : Word) (entry n : Nat) : Nat × Nat :=
  let lens := (List.range (n % 8)).foldl (fun t j => t + bits entry (32 + 4 * j) 4) 0
  ((data + w64 (4 * (bits entry 0 32 + lens))).toNat, bits entry (32 + 4 * (n % 8)) 4)

/-- One block of an operand, with where its table entry and the block lie, or the failure of the entry or the block. The table is read once, at issue. -/
def blockOf (who : Who) (k asid priv : Nat) (lock : Bool) (ot data : Word) (n : Nat) : X (Except Failed (List (Nat × Nat) × MxMap)) := do
  let ea := ot + w64 (8 * (n / 8))
  match ← mxPiece who k asid priv 8 false lock (ea, 8) with
  | .error e => pure (.error e)
  | .ok pg => do
    let (x, _) ← runS fun s => s.mxRead k pg ea.toNat 8
    let b := blockAt data x n
    let r ← mxExtents who k asid priv 4 false lock (pieces (w64 b.1) (4 * b.2))
    pure (r.map fun pg2 => ([b], pg.and pg2))

/-- The blocks of an operand. Every block is checked, and of several failures the one is given that R451 reports. -/
def blocksOf (who : Who) (k asid priv : Nat) (lock : Bool) (ot data : Word) : List Nat → X (Except Failed (List (Nat × Nat) × MxMap))
  | [] => pure (.ok ([], MxMap.none))
  | n :: t => do
    let r ← blockOf who k asid priv lock ot data n
    let rs ← blocksOf who k asid priv lock ot data t
    pure (bothChecks (fun x y => (x.1 ++ y.1, x.2.and y.2)) r rs)

/-- The block numbers of A (R358): row i, chunk c. -/
def aBlocks (a stride : Word) (rows kc : Nat) : List Nat :=
  (List.range rows).flatMap fun i => (List.range kc).map fun c => (a + stride * w64 i + w64 c).toNat

/-- One operand of a multiply checked: its blocks and where it lies. The block numbers of a BC8 operand are given. -/
def mxSide (who : Who) (k asid priv : Nat) (lock : Bool) (fmt : Nat) (l : Limits) (base stride ot data : Word) (rows n : Nat) (blocks : List Nat) :
    X (Except Failed (List (Nat × Nat) × MxMap)) := do
  if fmt = 3 then do
    let r ← blocksOf who k asid priv lock ot data blocks
    let al := bothChecks MxMap.and (alignedOr (ot.toNat % 8 == 0) 8 ot) (alignedOr (data.toNat % 4 == 0) 4 data)
    pure (bothChecks (fun x _ => x) r (al.map fun p => ([], p)))
  else do
    let r ← mxRows who k asid priv false lock l base stride rows n (fmtBytes fmt)
    pure (r.map fun p => ([], p))

/-- Everything a multiply translates and checks at issue: where A (none for MXMMS) and B lie, and their blocks; `la`, `lb`: the stack limits of their bases. -/
def mulCheck (who : Who) (k asid priv : Nat) (lock : Bool) (f : Vector Word 8) (a : Option (Word × Limits)) (b : Word) (lb : Limits) (kc : Nat) :
    X (Except Failed (MxMap × List (Nat × Nat) × List (Nat × Nat))) := do
  let ra ← match a with
    | none => pure (.ok ([], MxMap.none))
    | some (a, la) => mxSide who k asid priv lock (aFmt f) la a f[1] f[3] f[4] 64 (32 * kc) (aBlocks a f[1] 64 kc)
  let rb ← mxSide who k asid priv lock (bFmt f) lb b f[2] f[5] f[6] (32 * kc) 64 (aBlocks b f[2] 64 kc)
  pure (bothChecks (fun x y => (x.1.and y.1, x.2.1 ++ y.2.1, x.2.2 ++ y.2.2)) (ra.map fun x => (x.2, x.1, [])) (rb.map fun y => (y.2, [], y.1)))

/-! ## Issue -/

/-- An MXU operation of the issuing context, without operands. -/
def baseOp (s : State) (kind : MxKind) (z : ZReg) : MxOp :=
  let t := s.ctx s.act s.actx
  ⟨kind, s.act, s.actx.val, z, ((s.core s.act).now s.time).fmt, 0, 0, 0, 0, 0, 0, [], [], .f32, false, t.fmode, t.asid, t.priv, MxMap.none⟩

/-- Put an operation in its octet's MXU: the tile is empty until it completes (R353). A store waits for an earlier LDNM, as every store does (R199). -/
def mxIssue (o : MxOp) : X Unit := do
  if o.kind = .st then waitNode else pure ()
  let s ← getS
  if o.pages.pas.any fun pa => s.mustWait s.act s.actx.val pa then wait
  else do
    modCo fun c => { c with tiles := c.tiles.set o.z { c.tiles[o.z] with full := false } }
    modCx fun t => { t with mxu := t.mxu + 1 }
    modS fun s => (s.modOctet (octetOf s.act) fun y => { y with ops := y.ops ++ [o] }).postMore ⟨.mxuOperationStart, [octetOf s.act]⟩

/-- The stack limits of the issuing context for a base register. -/
def limitsOf (t : Ctx) (r : GReg) : Limits := if r = 62 then some (t.ssl, t.ssb) else none

/-- The checks of a multiply by the issuing context, after its earlier SI stores have reached their homes (R211). -/
def checkMul (f : Vector Word 8) (a : Option (Word × GReg)) (b : Word × GReg) (kc : Nat) : X (MxMap × List (Nat × Nat) × List (Nat × Nat)) := do
  modS fun s => s.siFlush s.act
  let s ← getS
  let t ← cx
  match ← mulCheck none s.act t.asid t.priv true f (a.map fun x => (x.1, limitsOf t x.2)) b.1 (limitsOf t b.2) kc with
  | .error e => stop (.trap e.2)
  | .ok r => pure r

/-- The context of R354 must be installed (R356). -/
def needFmt : X (Vector Word 8) := do
  let s ← getS
  let c := (s.core s.act).now s.time
  if c.cfgv then pure c.fmt else illegal6 5

/-- MXMM (R360). -/
def execMxmm (d : ZReg) (a b : GSrc) (k : BitVec 4) (s : State) : Host.Outcome State Fault Refusal :=
  issueSeq (do
    ready [a.op 0, b.op 1, dZ d]
    let x ← rdG a.r
    let y ← rdG b.r
    let f ← needFmt
    let (pg, ab, bb) ← checkMul f (some (x, a.r)) (y, b.r) (k.toNat + 1)
    let s ← getS
    mxIssue { baseOp s .mm d with a := x, b := y, k := k.toNat + 1, pages := pg, ablk := ab, bblk := bb }
    pops [.g a.r, .g b.r]) s

/-- The index of kept value p of row r and group g (R361). -/
def keptIndex (vc : VWord) (r g p : Nat) : Nat := bits vc.toNat (48 * r + 12 * g + 3 * p) 3

/-- The first row and group whose indices are not strictly ascending (R362). -/
def badMeta (vc : VWord) : Option (Nat × Nat) :=
  ((List.range 16).flatMap fun r => (List.range 4).map fun g => (r, g)).find? fun e =>
    !(decide (keptIndex vc e.1 e.2 0 < keptIndex vc e.1 e.2 1) && decide (keptIndex vc e.1 e.2 1 < keptIndex vc e.1 e.2 2) &&
      decide (keptIndex vc e.1 e.2 2 < keptIndex vc e.1 e.2 3))

/-- MXMMS (R361, R362). -/
def execMxmms (d : ZReg) (a b c : VSrc) (e : GSrc) (slab : BitVec 2) (s : State) : Host.Outcome State Fault Refusal :=
  issueSeq (do
    ready [a.op 0, b.op 1, c.op 2, e.op 3, dZ d]
    let x ← rdV a.r
    let y ← rdV b.r
    let z ← rdV c.r
    let w ← rdG e.r
    let f ← needFmt
    if aFmt f = 0 ∨ aFmt f = 3 then illegal6 5
    else do
      let (pg, _, bb) ← checkMul f none (w, e.r) 1
      popLocks [.v a.r, .v b.r, .v c.r, .g e.r]
      match badMeta z with
      | some m => trap 0x12 (w64 (m.2 * 16 + m.1)) 0
      | none => do
        let s ← getS
        mxIssue { baseOp s .mms d with b := w, k := slab.toNat, va := x, vb := y, vc := z, pages := pg, bblk := bb }
        pops [.v a.r, .v b.r, .v c.r, .g e.r]) s

/-- MXZERO (R364). -/
def execMxzero (d : ZReg) (s : State) : Host.Outcome State Fault Refusal :=
  issueSeq (do
    ready [dZ d]
    let s ← getS
    mxIssue (baseOp s .zero d)) s

/-- The rows of MXLD and MXST checked for the issuing context, after its earlier SI stores have reached their homes (R211). -/
def checkRows (a : Word × GReg) (stride : Word) (es : Nat) (wr : Bool) : X MxMap := do
  modS fun s => s.siFlush s.act
  let s ← getS
  let t ← cx
  match ← mxRows none s.act t.asid t.priv wr true (limitsOf t a.2) a.1 stride 64 64 es with
  | .error e => stop (.trap e.2)
  | .ok p => pure p

/-- MXLD (R364). -/
def execMxld (d : ZReg) (a b : GSrc) (s : State) : Host.Outcome State Fault Refusal :=
  issueSeq (do
    ready [a.op 0, b.op 1, dZ d]
    let x ← rdG a.r
    let y ← rdG b.r
    let pg ← checkRows (x, a.r) y 4 false
    let s ← getS
    mxIssue { baseOp s .ld d with a := x, b := y, pages := pg }
    pops [.g a.r, .g b.r]) s

/-- MXST (R365). -/
def execMxst (a b : GSrc) (c : ZSrc) (sat : Bool) (ty : VType) (s : State) : Host.Outcome State Fault Refusal :=
  issueSeq (do
    let st ← getS
    let y0 := (st.core st.act).now st.time
    if y0.cfgv && !storeTypeOk (accInt y0.fmt) ty then illegalR 3
    else do
      ready [a.op 0, b.op 1, c.op 2]
      let x ← rdG a.r
      let y ← rdG b.r
      let _ ← needFmt
      let pg ← checkRows (x, a.r) y (ty.width / 8) true
      let s ← getS
      mxIssue { baseOp s .st c.r with a := x, b := y, ty := ty, sat := sat, pages := pg }
      pops [.g a.r, .g b.r]) s

/-! ## Tiles -/

/-- Element j of a row. -/
def rowElem (r : TRow) (j : Nat) : Nat := bits r.toNat (32 * j) 32
/-- A row from its elements. -/
def rowOf (xs : List Nat) : TRow := BitVec.ofNat 2048 (packLanes 32 xs)
/-- A tile with every element x. -/
def Tile.fill (x : Nat) : Vector TRow 64 := Vector.replicate 64 (rowOf (List.replicate 64 x))

/-- The half row of index x (R366). -/
def halfRow (t : Tile) (x : Nat) : VWord := BitVec.ofNat 1024 (bits (t.rows[Fin.ofNat 64 (x / 2)]).toNat (1024 * (x % 2)) 1024)

/-- A tile that an error has poisoned answers its readers with poison, which has no address (R479, R481). -/
def Core.tilePoison (c : Core) (z : ZReg) : Option Word := if c.tbad.getLsbD z.val then some 0 else none

/-- ZRD (R366). -/
def execZrd (d : VReg) (a : ZSrc) (b : GSrc) (s : State) : Host.Outcome State Fault Refusal :=
  issueSeq (do
    ready [a.op 0, b.op 1, dV d]
    let y ← rdG b.r
    let c ← co
    let st ← getS
    produce (st.cyc st.act 10) [.v d (halfRow c.tiles[a.r] (y.toNat % 128))] 0 (c.tilePoison a.r)
    pops [.g b.r]) s

/-- A ZWR is on its way for n ticks: its tile is empty until it completes (R353). -/
def produceTile (n : Nat) (z : ZReg) (x : Nat) (v : VWord) : X Unit := do
  let st ← getS
  modCo fun c => { c with tiles := c.tiles.set z { c.tiles[z] with full := false } }
  modCx fun t => { t with prods := t.prods ++ [⟨[], 0, none, false, false, st.time + n, some (z, x, v), false, none⟩] }
  modS fun s => s.postIn n ⟨.producerComplete, [s.act, s.actx.val]⟩

/-- ZWR (R366). -/
def execZwr (d : ZReg) (a : VSrc) (b : GSrc) (s : State) : Host.Outcome State Fault Refusal :=
  issueSeq (do
    ready [a.op 0, b.op 1, dZ d]
    let v ← rdV a.r
    let y ← rdG b.r
    let st ← getS
    produceTile (st.cyc st.act 6) d (y.toNat % 128) v
    pops [.v a.r, .g b.r]) s

/-- MXWAIT (R367). -/
def execMxwait (d : ZReg) (s : State) : Host.Outcome State Fault Refusal := issueSeq (ready [dZ d]) s

/-! ## MXPRUNE (R363) -/

/-- Insert an index before the first that it precedes in the order of R363. -/
def pruneBefore (vals : List Int) (i j : Nat) : Bool :=
  let mi := (vals.getD i 0).natAbs
  let mj := (vals.getD j 0).natAbs
  decide (mj < mi) || (decide (mi = mj) && decide (i ≤ j))

/-- The four indices kept of a group, ascending. -/
def pruneKeep (vals : List Int) : List Nat :=
  let first := (sortBy (pruneBefore vals) (List.range 8)).take 4
  (List.range 8).filter first.contains

/-- A field of w bits at bit lo replaced. -/
def putField1024 (x lo w y : Nat) : Nat := x - bits x lo w * 2 ^ lo + y % 2 ^ w * 2 ^ lo

/-- MXPRUNE on quarter q of a slab (R363): kept register, metadata register. -/
def prune (kept meta_ src : VWord) (q : Nat) : VWord × VWord :=
  let groups := (List.range 4).flatMap fun rho => (List.range 4).map fun g => (rho, g)
  let r := groups.foldl (fun (acc : Nat × Nat) e =>
    let bytes := (List.range 8).map fun i => bits src.toNat (8 * (32 * e.1 + 8 * e.2 + i)) 8
    let keep := pruneKeep (bytes.map (asInt 8))
    keep.zipIdx.foldl (fun (acc : Nat × Nat) p =>
      (putField1024 acc.1 (8 * (64 * (q % 2) + 16 * e.1 + 4 * e.2 + p.2)) 8 (bytes.getD p.1 0),
       putField1024 acc.2 (48 * (4 * q + e.1) + 12 * e.2 + 3 * p.2) 3 p.1)) acc) (kept.toNat, meta_.toNat)
  (BitVec.ofNat 1024 r.1, BitVec.ofNat 1024 r.2)

/-- MXPRUNE (R363): vD and vA are read and written. -/
def execMxprune (d : VReg) (a b : VSrc) (q : BitVec 2) (s : State) : Host.Outcome State Fault Refusal :=
  issueSeq (do
    ready [a.op 0, b.op 1, sV d]
    let k ← rdV d
    let m ← rdV a.r
    let x ← rdV b.r
    let r := prune k m x q.toNat
    wrV d r.1
    wrV a.r r.2
    pops [.v d, .v a.r, .v b.r]) s

/-! ## Execution (R359, R162, R163) -/

/-- Read a list of elements of n bytes: their values, and the first poisoned address. -/
def State.mxReads (o : MxOp) (n : Nat) : List Nat → State → (List Nat × Option Nat) × State
  | [], s => (([], none), s)
  | a :: t, s =>
    let ((x, bad), s) := s.mxRead o.core o.pages a n
    let ((xs, b2), s) := State.mxReads o n t s
    ((x :: xs, if bad then some a else b2), s)

/-- Rows of 32-element chunks of a dense operand, from the addresses of the first elements of its runs. -/
def State.mxDense (o : MxOp) (fmt : Nat) : List (List Nat) → State → (List (List FV) × Option Nat) × State
  | [], s => (([], none), s)
  | r :: t, s =>
    let ((xs, b1), s) := State.mxReads o (fmtBytes fmt) r s
    let ((rs, b2), s) := State.mxDense o fmt t s
    ((xs.map (fmtValue fmt) :: rs, b1.orElse fun _ => b2), s)

/-- The 32 elements of each block; NV for a malformed one (R358, R159). -/
def State.mxBlocks (o : MxOp) : List (Nat × Nat) → State → (List (List FV) × Flags × Option Nat) × State
  | [], s => (([], 0, none), s)
  | b :: t, s =>
    let ((ws, bad), s) := State.mxReads o 4 ((List.range (if b.2 < 6 ∨ 14 < b.2 then 0 else b.2)).map fun i => b.1 + 4 * i) s
    let r := if b.2 < 6 ∨ 14 < b.2 then BcRes.bad else bcDecode (packLanes 32 ws) b.2
    let (vs, fl) := match r with
      | .ok vs => (vs, (0 : Flags))
      | .allNan => (List.replicate 32 (FV.nan false), 0)
      | .bad => (List.replicate 32 (FV.nan false), fNV)
    let ((rs, fl2, b2), s) := State.mxBlocks o t s
    ((vs :: rs, fl ||| fl2, bad.orElse fun _ => b2), s)

/-- Consecutive groups of n entries. -/
def groupsOf {α : Type} (n : Nat) : Nat → List α → List (List α)
  | 0, _ => []
  | m + 1, l => l.take n :: groupsOf n m (l.drop n)

/-- The address of an element. -/
def elemAt (base stride : Word) (i off : Nat) : Nat := (base + stride * w64 i + w64 off).toNat

/-- A by rows and chunks (R357, R358). -/
def State.mxA (o : MxOp) (s : State) : (List (List (List FV)) × Flags × Option Nat) × State :=
  if aFmt o.fmt = 3 then
    let ((bs, fl, bad), s) := State.mxBlocks o o.ablk s
    ((groupsOf o.k 64 bs, fl, bad), s)
  else
    let n := fmtBytes (aFmt o.fmt)
    let ((rs, bad), s) := State.mxDense o (aFmt o.fmt)
      ((List.range 64).flatMap fun i => (List.range o.k).map fun c => (List.range 32).map fun e => elemAt o.a o.fmt[1] i ((32 * c + e) * n)) s
    ((groupsOf o.k 64 rs, 0, bad), s)

/-- B by columns and chunks, kc chunks (R357, R358). -/
def State.mxB (o : MxOp) (kc : Nat) (s : State) : (List (List (List FV)) × Flags × Option Nat) × State :=
  if bFmt o.fmt = 3 then
    let ((bs, fl, bad), s) := State.mxBlocks o o.bblk s
    ((groupsOf kc 64 bs, fl, bad), s)
  else
    let n := fmtBytes (bFmt o.fmt)
    let ((rs, bad), s) := State.mxDense o (bFmt o.fmt)
      ((List.range (32 * kc)).map fun k => (List.range 64).map fun j => elemAt o.b o.fmt[2] k (j * n)) s
    (((List.range 64).map fun j => groupsOf 32 kc (rs.map fun r => r.getD j (.fin false 0 0)), 0, bad), s)

/-- One chunk added to an accumulator (R162, R163). -/
def accChunk (int : Bool) (z : Nat) (a b : List FV) : Nat × Flags :=
  let sum := dotSum .rne (a.zip b)
  if int then
    let t := asInt 32 z + (match sum with
      | .fin n m e => scaled n m e (min e 0)
      | _ => 0)
    (wrapTo 32 t, if t < -(2 ^ 31) ∨ 2 ^ 31 ≤ t then fMXOV else 0)
  else FF.f32.put ⟨.rne, false⟩ false (FV.add .rne (FF.f32.decode z) sum)

/-- Every chunk of a row and a column added in ascending order. -/
def accAll (int : Bool) : List (List FV) → List (List FV) → Nat → Nat × Flags
  | a :: as_, b :: bs, z =>
    let r := accChunk int z a b
    let t := accAll int as_ bs r.1
    (t.1, r.2 ||| t.2)
  | _, _, z => (z, 0)

/-- A row of the tile multiplied. -/
def mulRow (int : Bool) (a : List (List FV)) (cols : List (List (List FV))) (row : TRow) : TRow × Flags :=
  let rs := cols.zipIdx.map fun c => accAll int a c.1 (rowElem row c.2)
  (rowOf (rs.map (·.1)), flagsOf rs)

/-- Rows from row i0 on multiplied by the rows of A. -/
def mulRows (int : Bool) (cols : List (List (List FV))) : Nat → List (List (List FV)) → Vector TRow 64 → Vector TRow 64 × Flags
  | _, [], rows => (rows, 0)
  | i, a :: t, rows =>
    let r := mulRow int a cols rows[Fin.ofNat 64 i]
    let q := mulRows int cols (i + 1) t (rows.set (Fin.ofNat 64 i) r.1)
    (q.1, r.2 ||| q.2)

/-- The restored row r of a slab (R362). -/
def slabRow (o : MxOp) (r : Nat) : List FV :=
  let v := if r < 8 then o.va else o.vb
  (List.range 32).map fun k =>
    match (List.range 4).find? fun p => decide (keptIndex o.vc r (k / 8) p = k % 8) with
    | some p => fmtValue (aFmt o.fmt) (bits v.toNat (8 * (16 * (r % 8) + 4 * (k / 8) + p)) 8)
    | none => .fin false 0 0

/-- The tile, flags and first poisoned address that an operation gives, from the tile before it. -/
def State.mxRun (s : State) (o : MxOp) (rows : Vector TRow 64) : (Vector TRow 64 × Flags × Option Nat) × State :=
  let int := accInt o.fmt
  match o.kind with
  | .zero => ((Tile.fill 0, 0, none), s)
  | .mm =>
    let ((a, f1, b1), s) := s.mxA o
    let ((b, f2, b2), s) := s.mxB o o.k
    match b1.orElse fun _ => b2 with
    | some p => ((Tile.fill (if int then 0 else 0x7FC00000), f1 ||| f2, some p), s)
    | none =>
      let r := mulRows int b 0 a rows
      ((r.1, f1 ||| f2 ||| r.2, none), s)
  | .mms =>
    let ((b, f2, b2), s) := s.mxB o 1
    match b2 with
    | some p => ((Tile.fill (if int then 0 else 0x7FC00000), f2, some p), s)
    | none =>
      let r := mulRows int b (16 * o.k) ((List.range 16).map fun r => [slabRow o r]) rows
      ((r.1, f2 ||| r.2, none), s)
  | .ld =>
    let r := (List.range 64).foldl (fun (acc : Vector TRow 64 × Option Nat × State) i =>
      let ((xs, bad), s) := State.mxReads o 4 ((List.range 64).map fun j => elemAt o.a o.b i (4 * j)) acc.2.2
      (acc.1.set (Fin.ofNat 64 i) (rowOf xs), acc.2.1.orElse (fun _ => bad), s)) (rows, none, s)
    match r.2.1 with
    | some p => ((Tile.fill 0, 0, some p), r.2.2)
    | none => ((r.1, 0, none), r.2.2)
  | .st =>
    let n := o.ty.width / 8
    let src : VType := if int then .i32 else .f32
    let r := (List.range 64).foldl (fun (acc : Flags × State) i => (List.range 64).foldl (fun (acc : Flags × State) j =>
      let c := cvtElem src o.ty (Rm.ofCode (fld o.fmode 0 2)) o.sat (rowElem rows[Fin.ofNat 64 i] j)
      (acc.1 ||| c.2, acc.2.mxWrite o.core o.pages (elemAt o.a o.b i (j * n)) n c.1)) acc) (0, s)
    ((rows, r.1, none), r.2)

/-- The first of the nine requesters from the pointer on that has an operation (R359). -/
def Octet.next (y : Octet) : Option Nat :=
  ((List.range 9).map fun i => (y.ptr + i) % 9).find? fun r =>
    if r = 8 then !y.guest.isEmpty else y.ops.any fun o => o.core % 8 == r

/-- A guest command as an operation of context 11 of its issuer's core (R369). -/
def Remote.op (r : Remote) : MxOp :=
  ⟨.mm, r.core, 11, 0, vecOf 8 fun i => r.blk[Fin.ofNat 16 (8 + i)], r.blk[2], r.blk[3], fld r.blk[1] 16 4 + 1, 0, 0, 0, [], [], .f32, false, 0, r.asid, r.priv, MxMap.none⟩

/-- Cycles from the start of an operation to its completion (R355, R359), without its first operands and its writes. -/
def MxOp.cycles (o : MxOp) : Nat := match o.kind with
  | .mm => (if aFmt o.fmt = 0 then 64 else 32) * o.k + 12
  | .mms => 18
  | .zero => 4
  | .ld | .st => 32

/-- The first and last byte of each of some runs of n bytes. -/
def runEnds (n : Nat) (as_ : List Nat) : List Nat := as_.flatMap fun a => [a, a + n - 1]

/-- First and last bytes of the rows or blocks of A and B in chunks from c0 to c1, or of the rows of a tile load, with how many bytes of scratchpad they hold (R357, R358, R359). -/
def MxOp.extent (o : MxOp) (c0 c1 : Nat) : List Nat × Nat :=
  let local_ := fun (a : Word) n => if rangeOf a.toNat = 2 then 0 else n
  let blocks := fun (bs : List (Nat × Nat)) (per : Nat) =>
    ((bs.zipIdx.filter fun b => decide (c0 ≤ b.2 % per) && decide (b.2 % per < c1)).flatMap fun b => [b.1.1, b.1.1 + 4 * b.1.2 - 1], 0)
  let na := fmtBytes (aFmt o.fmt)
  let nb := fmtBytes (bFmt o.fmt)
  let sideA := if aFmt o.fmt = 3 then blocks o.ablk o.k
    else (runEnds (32 * (c1 - c0) * na) ((List.range 64).map fun i => elemAt o.a o.fmt[1] i (32 * c0 * na)), local_ o.a (64 * 32 * (c1 - c0) * na))
  let sideB := fun kc => if bFmt o.fmt = 3 then blocks o.bblk kc
    else (runEnds (64 * nb) ((List.range (32 * (c1 - c0))).map fun r => elemAt o.b o.fmt[2] (32 * c0 + r) 0), local_ o.b (64 * 32 * (c1 - c0) * nb))
  match o.kind with
  | .mm => (sideA.1 ++ (sideB o.k).1, sideA.2 + (sideB o.k).2)
  | .mms => sideB 1
  | .ld => (runEnds 256 ((List.range (if c1 ≤ 1 then 1 else 64)).map fun i => elemAt o.a o.b i 0), local_ o.a 256)
  | .zero | .st => ([], 0)

/-- The lines of global memory from the one of an address to the one of another, in an operation. -/
def MxOp.linesOf (o : MxOp) : List Nat → List Nat
  | a :: b :: t => ((List.range (b / 64 + 1 - a / 64)).filterMap fun i =>
      if rangeOf a = 2 then (pageLookup o.pages.pages (64 * (a / 64 + i))).map (·.1 / 64) else none) ++ o.linesOf t
  | _ => []

/-- The chunks of an operation's operands. -/
def MxOp.chunks (o : MxOp) : Nat := match o.kind with
  | .mm => o.k
  | .mms => 1
  | .ld => 2
  | .zero | .st => 0

/-- The lines that the tile fetch unit pins for an operation (R191): those of all its operands, which are never more than the 4,096 of 256 KiB. -/
def MxOp.lines (o : MxOp) : List Nat := (o.linesOf (o.extent 0 o.chunks).1).eraseDups

/-- Ticks until the first chunk of operands is present (R359): the lines that are not pinned come from their homes, and scratchpad is read through class 3 at 128 bytes in 4 cycles. -/
def State.firstChunk (s : State) (o : MxOp) : Nat :=
  let e := o.extent 0 1
  let far := (o.linesOf e.1).foldl (fun n l => if s.pinned l then n else max n (s.homeLatency o.core (64 * l) true)) 0
  let wins := e.1.foldl (fun n a => match s.mxPlace o.core o.pages a with
    | some p => if rangeOf a = 2 then n else max n (s.latencyAt o.core 3 p)
    | none => n) 0
  max (max far wins) (s.cyc o.core (4 * ((e.2 + 127) / 128)))

/-- Ticks until the writes of a store are performed with respect to the issuing core (R216, R359). -/
def State.writeTicks (s : State) (o : MxOp) : Nat :=
  if o.kind = .st then (List.range 64).foldl (fun n i => match s.mxPlace o.core o.pages (elemAt o.a o.b i 0) with
    | some p => max n (s.latencyAt o.core 3 p)
    | none => n) 0
  else 0

/-- Ticks from the start of an operation to its completion (R359). -/
def State.mxTicks (s : State) (o : MxOp) : Nat := s.firstChunk o + s.cyc o.core o.cycles + s.writeTicks o

/-- Ask for the next operation of an octet. -/
def State.mxNext (s : State) (o : Nat) : State := if (s.octet o).next.isSome then s.post ⟨.mxuOperationStart, [o]⟩ else s

/-- COMPL of a command filled as STF does, under the issuer's ASID, as a release at MOD scope (R369). -/
def State.remoteFill (s : State) (r : Remote) (x : Nat) : State :=
  let s := s.siFlush r.core
  match s.complPlace r.core r.asid r.priv r.blk[6] with
  | (.ok pa, s) => s.fillFuture pa (w64 x)
  | (.error _, s) => s

/-- Type of a code of R331. -/
def vtypeOf (n : Nat) : Option VType := [VType.i8, .n8, .i16, .n16, .i32, .n32, .f16, .bf16, .f32, .e4m3, .e5m2][n]?

/-- The type in which a command stores its tile. -/
def Remote.ty (r : Remote) : VType := (vtypeOf (fld r.blk[1] 24 4)).getD .f32

/-- The store of a guest command's tile, as an operation (R369). -/
def Remote.storeOp (r : Remote) (m : MxMap) : MxOp := { r.op with kind := .st, a := r.blk[4], b := r.blk[5], ty := r.ty, sat := bit r.blk[1] 28, pages := m }

/-- The checks of a guest command: its multiply, with where its operands and its output lie, or the failure of one of them (R369). -/
def guestCheck (r : Remote) : X (Except Failed MxOp) := do
  let p := r.op
  let a ← mulCheck (some 1) r.core r.asid r.priv false p.fmt (some (p.a, none)) p.b none p.k
  let b ← mxRows (some 1) r.core r.asid r.priv true false none r.blk[4] r.blk[5] 64 64 (r.ty.width / 8)
  pure (bothChecks (fun x y => { x with pages := x.pages.and y.pages }) (a.map fun x => { p with pages := x.1, ablk := x.2.1, bblk := x.2.2 }) (b.map fun y => { p with pages := y }))

/-- The array starts a guest command (R369): the slot installs its block and zeroes its tile. One that faults is answered with status 4, and nothing of it is performed. -/
def State.guestStart (s : State) (o : Nat) (r : Remote) : State :=
  match guestCheck r s with
  | .error (.waitFor j a v) => s.again .mxuOperationStart (j, a, v)
  | .error _ => s
  | .ok (q, s) =>
    let s := s.modOctet o fun y => { y with gfmt := r.op.fmt, gtile := ⟨Tile.fill 0, true⟩, ptr := 0 }
    match q with
    | .error _ => ((s.modOctet o fun y => { y with guest := y.guest.drop 1 }).remoteFill r 4).mxNext o
    | .ok p =>
      (s.modOctet o fun y => { y with running := some p, pins := p.lines }).postIn
        (s.firstChunk p + s.cyc (8 * o) (4 + p.cycles + 32) + s.writeTicks (r.storeOp p.pages)) ⟨.guestCommandComplete, [o]⟩

/-- MXU_OPERATION_START (R359). -/
def execMxuOperationStart (s : State) : Host.Outcome State Fault Refusal :=
  event (fun s =>
    let o := s.arg 0
    let y := s.octet o
    match y.running, y.next with
    | none, some r =>
      if r = 8 then match y.guest.head? with
        | some g => s.guestStart o g
        | none => s
      else match y.ops.find? fun p => p.core % 8 == r with
        | some p => (s.modOctet o fun y => { y with running := some p, ops := y.ops.erase p, ptr := r + 1, pins := p.lines }).postIn (s.mxTicks p) ⟨.mxuOperationComplete, [o]⟩
        | none => s
    | _, _ => s) s

/-- Whether an operation writes its whole tile without reading it. -/
def MxKind.fresh : MxKind → Bool
  | .zero | .ld => true
  | .mm | .mms | .st => false

/-- MXU_OPERATION_COMPLETE (R353, R359, R479): the tile is full, and the flags are ORed into FFLAGS. An operation that reads a poisoned tile makes 0x0C pending; one that writes the
tile whole ends its poison (R481; log entry 54). -/
def execMxuOperationComplete (s : State) : Host.Outcome State Fault Refusal :=
  event (fun s =>
    let o := s.arg 0
    match (s.octet o).running with
    | none => s.mxNext o
    | some p =>
      if p.ctx = 11 then s
      else
        let s := s.modOctet o fun y => { y with running := none, pins := [] }
        let ((rows, fl, bad), s) := s.mxRun p (s.core p.core).tiles[p.z].rows
        let bad := bad.orElse fun _ => if p.kind.fresh then none else ((s.core p.core).tilePoison p.z).map BitVec.toNat
        let s := s.modCore p.core fun c => { c with
          tiles := c.tiles.set p.z ⟨rows, true⟩, tbad := if p.kind.fresh then setBit c.tbad p.z.val false else c.tbad }
        let x := cix p.ctx
        let s := s.modCtx p.core x fun t => { t.orFlags s.time fl with
          mxu := t.mxu - 1
          poisonQ := match bad with
            | some a => t.poisonQ ++ [(w64 (7 + Ref.code (.z p.z) + 2 ^ 12), w64 a)]
            | none => t.poisonQ }
        (s.tryEnter p.core x).mxNext o) s

/-! ## Remote commands (R368, R369) -/

/-- MXREM (R368). -/
def execMxrem (a : GSrc) (s : State) : Host.Outcome State Fault Refusal :=
  issueSeq (do
    ready [a.op 0]
    let x ← rdG a.r
    let ps ← check { va := x, n := 128, kind := 0, wr := false, align := 128, stk := a.r == 62 }
    release .mod
    let y ← loadNow x 128 ps
    holdFor (s.latencyOf s.act 0 ps)
    let s ← getS
    let t ← cx
    let r : Remote := ⟨vecOf 16 fun i => w64 (bits y (64 * i) 64), t.asid, t.priv, s.act⟩
    let o := fld r.blk[1] 0 10 % 768
    modS fun s => (s.modOctet o fun q => { q with arriving := q.arriving ++ [r] }).postMore ⟨.mxremCommandArrival, [o]⟩
    pops [.g a.r]) s

/-- Whether a command's format block and fields are legal (R368, R354, R365). -/
def Remote.legal (r : Remote) : Bool :=
  fmtOk r.op.fmt && fld r.blk[1] 29 35 == 0 && fld r.blk[1] 20 4 == 0 && fld r.blk[1] 10 6 == 0 && decide (fld r.blk[1] 0 10 < 768) && r.blk[7] == 0 &&
  match vtypeOf (fld r.blk[1] 24 4) with
  | some t => storeTypeOk (accInt r.op.fmt) t
  | none => false

/-- MXREM_COMMAND_ARRIVAL (R369). -/
def execMxremCommandArrival (s : State) : Host.Outcome State Fault Refusal :=
  event (fun s =>
    let o := s.arg 0
    match (s.octet o).arriving with
    | [] => s
    | r :: rest =>
      let s := s.modOctet o fun y => { y with arriving := rest }
      let key := (s.cluster (o / 24)).mxcap[Fin.ofNat 24 (o % 24)]
      if key = 0 ∨ r.blk[0] ≠ key then s.remoteFill r 1
      else if 8 ≤ (s.octet o).guest.length then s.remoteFill r 2
      else if !r.legal then s.remoteFill r 3
      else (s.modOctet o fun y => { y with guest := y.guest ++ [r] }).post ⟨.mxuOperationStart, [o]⟩) s

/-- The COMPL word of a finished command (R482): status, and NX, UF, OF, NV and MXOV from bit 8 up. -/
def remoteWord (status : Nat) (fl : Flags) : Nat :=
  status + 256 * (bits fl.toNat 0 3 + 8 * bits fl.toNat 4 1 + 16 * bits fl.toNat 6 1)

/-- A guest command has run (R369): its multiply from a zeroed tile and its store, or status 4 where an operand is poisoned. -/
def State.guestRun (s : State) (o : Nat) (r : Remote) (p : MxOp) : State :=
  let ((rows, f1, bad), s) := s.mxRun p (Tile.fill 0)
  let s := s.modOctet o fun y => { y with gtile := ⟨rows, true⟩ }
  match bad with
  | some _ => s.remoteFill r 4
  | none =>
    let ((_, f2, _), s) := s.mxRun (r.storeOp p.pages) rows
    s.remoteFill r (remoteWord 0 (f1 ||| f2))

/-- GUEST_COMMAND_COMPLETE (R369). -/
def execGuestCommandComplete (s : State) : Host.Outcome State Fault Refusal :=
  event (fun s =>
    let o := s.arg 0
    match (s.octet o).running, (s.octet o).guest with
    | some p, r :: rest =>
      if p.ctx = 11 then (State.guestRun (s.modOctet o fun y => { y with running := none, pins := [], guest := rest }) o r p).mxNext o else s
    | _, _ => s.mxNext o) s

end Sys2Proof.Machine
end

