-- ==== Sys2Proof/Machine/Streams.lean ====
section
/-!
DEFINITION. Streams and fibres: OP 0x50 to 0x56 (15), and the refill of input streams (R323).
-/

namespace Sys2Proof.Machine

/-! ## Stream operands -/

/-- The register that a stream operand names (R317). -/
def sref (d : SOpd) : Ref := if d.val < 16 then .g (Fin.ofNat 64 (32 + d.val)) else .v (Fin.ofNat 16 (d.val - 8))

/-- The slot of a register of the issuing context that must be open in a kind (R317). -/
def openSlot (r : Ref) (ok : Slot → Bool) : X (Fin 8) := do
  let t ← cx
  match t.slotOf r with
  | some i => if ok t.slots[i] then pure i else illegal6 3
  | none => illegal6 3

/-- A slot of the issuing context. -/
def slotAt (i : Fin 8) : X Slot := do
  let t ← cx
  pure t.slots[i]

/-- Replace a slot of the issuing context. -/
def setSlot (i : Fin 8) (sl : Slot) : X Unit := modCx fun t => { t with slots := t.slots.set i sl }

/-! ## Refill (R323) -/

/-- The places of the accesses that a refill makes for a context: none if one would fault; or the core, ASID and address whose translation it has to wait for (R175). -/
def State.placesOf (s : State) (k asid priv : Nat) : List Req → Except (Nat × Nat × Nat) (Option (List (List Place)) × State)
  | [] => .ok (some [], s)
  | q :: t => match s.placesEv 3 k asid priv q with
    | .error w => .error w
    | .ok (.error _, s) => .ok (none, s)
    | .ok (.ok p, s) => match State.placesOf s k asid priv t with
      | .error w => .error w
      | .ok (none, s) => .ok (none, s)
      | .ok (some ps, s) => .ok (some (p :: ps), s)

/-- The element after those buffered, read as a load of the context; none at the end of the stream, where the refill stops, and where it has to wait (R323). -/
def State.fetchElem (s : State) (k : Nat) (x : Fin 11) (i : Fin 8) (sl : Slot) : Option Elem × State :=
  let c := s.ctx k x
  let p := sl.adv sl.buf.length
  if p.left = 0 then (none, s)
  else match s.placesOf k c.asid c.priv (p.reqs false false) with
    | .error w => (none, s.again .streamRefill w)
    | .ok (none, s) => (none, s)
    | .ok (some ps, s) =>
      if (ps.flatten.any fun q => match q.pa? with
        | some pa => s.mustWait k x.val pa
        | none => false) || s.trackFull k false ps.flatten
      then (none, s.post ⟨.streamRefill, [k, x.val, i.val]⟩)
      else
        let ((a, bad), s) := s.loadPlaces k (ps.headD [])
        let ((b, bad2), s) := s.loadPlaces k (ps.tail.headD [])
        if bad || bad2 then (none, s)
        else (some ⟨p.addr.toNat, p.esize, a, if p.fibre && p.d1 != 0 then some p.d1.toNat else none, b, ps.flatten.map Place.loc⟩, s)

/-- Fetch elements, at most n more, into the buffer of slot i. -/
def State.refill (k : Nat) (x : Fin 11) (i : Fin 8) : Nat → State → State
  | 0, s => s
  | n + 1, s =>
    let sl := (s.ctx k x).slots[i]
    if sl.cap ≤ sl.buf.length then s
    else match s.fetchElem k x i sl with
      | (none, s) => s
      | (some e, s) => State.refill k x i n (s.modCtx k x fun t => { t with slots := t.slots.set i { sl with buf := sl.buf ++ [e] } })

/-- STREAM_REFILL (R323): fetches until the buffer holds 256 bytes beyond the position, the stream ends, or an element would fault. -/
def execStreamRefill (s : State) : Host.Outcome State Fault Refusal :=
  event (fun s =>
    let k := s.arg 0
    let x := cix (s.arg 1)
    let i := Fin.ofNat 8 (s.arg 2)
    let sl := (s.ctx k x).slots[i]
    if !sl.used || sl.out then s else State.refill k x i sl.cap s) s

/-! ## SOPEN and SCLOSE (R319 to R321, R326) -/

/-- The refill of a slot that is closed is no longer due. -/
def State.noRefill (s : State) (k x i : Nat) : State := { s with pendingEv := s.pendingEv.filter fun e => !(e.2.row == Instr.streamRefill && e.2.a.take 3 == [k, x, i]) }

/-- A register leaves stream mode: its slot is freed, and it is 0 and full (R326). -/
def closeStream (r : Ref) : X Unit := do
  let t ← cx
  match t.slotOf r with
  | none => pure ()
  | some i =>
    modS fun s => s.noRefill s.act s.actx.val i.val
    modCx fun t =>
      let t : Ctx := { t with slots := t.slots.set i Slot.closed }
      match r with
      | .g g => (t.setG g 0).markG g true
      | .v v => (t.setV v 0).markV v true
      | .z _ => t

/-- The slot that a descriptor describes, before it has a register (R320, R321); none where it is illegal. -/
def slotFor (r : Ref) (fibre out : Bool) (d : Nat) : Option Slot :=
  let d0 := w64 (bits d 0 64)
  let d1 := w64 (bits d 64 64)
  let d2 := w64 (bits d 128 64)
  let d3 := putBits (w64 (bits d 192 64)) 7 1 0
  let (vec, idx) := match r with
    | .g g => (false, g.val - 32)
    | .v v => (true, v.val - 8)
    | .z _ => (false, 0)
  let sl : Slot := ⟨true, out, vec, BitVec.ofNat 4 idx, fibre, d0, d1, d2, d3, []⟩
  if fibre then if fld d2 32 32 ≠ 0 ∨ d3 ≠ 0 then none else some sl
  else if fld d3 8 24 ≠ 0 ∨ fld d3 3 4 ≠ 0 ∨ (sl.count0 ≠ 0 ∧ sl.count0 ≤ sl.pos0) ∨ (vec ∧ fld d3 0 2 = 3) then none
  else some sl

/-- Whether the addresses and distances of a descriptor are multiples of its element size (R320, R321). -/
def Slot.aligned (s : Slot) : Bool :=
  let e := s.esize
  if s.fibre then decide (s.d0.toNat % 4 = 0) && decide (s.d1.toNat % 4 = 0)
  else decide (s.d0.toNat % e = 0) && decide (fld s.d1 32 32 % e = 0) && decide (fld s.d2 32 32 % e = 0)

/-- The address that an alignment fault of SOPEN reports: VBASE where only it is misaligned, else the first base. -/
def Slot.badAddr (s : Slot) : Word := if s.fibre ∧ s.d0.toNat % 4 = 0 then s.d1 else s.d0

/-- The register of a g or v operand, as one that a result reaches late (R29). -/
def Ref.late : Ref → Option RegName
  | .g r => some (.g r)
  | .v r => some (.v r)
  | .z _ => none

/-- A register in stream mode whose SOPEN has its descriptor at a TIME (R330). -/
def lateStream (r : Ref) (due : Nat) : X Unit := modCx fun t => match r.late with
  | some n => { t with late := (n, due) :: t.late.filter fun e => e.1 != n }
  | none => t

/-- SOPEN (R319). It closes the stream of a register that is open, as SCLOSE does, whether or not an element of it is buffered: R72 has a writer wait for an empty register, and R319 names no
wait (DESIGN CHOICE, log entry 60). -/
def sopen (d : SOpd) (a : GSrc) (fibre out : Bool) : X Unit := do
  let r := sref d
  let t ← cx
  ready (if (t.slotOf r).isSome then [a.op 0] else [a.op 0, ⟨r, 8, false⟩])
  let x ← rdG a.r
  let ps ← check { va := x, n := 32, kind := 0, wr := false, align := 32, stk := a.r == 62 }
  let s ← getS
  let lat := s.latencyOf s.act 0 ps
  let y ← loadNow x 32 ps
  match slotFor r fibre out y with
  | none => illegal6 4
  | some sl =>
    if !sl.aligned then trap 0x0A (memDetail sl.esize 0 0 4) sl.badAddr
    else do
      pops [.g a.r]
      closeStream r
      let t ← cx
      match (List.finRange 8).find? fun i => !t.slots[i].used with
      | none => illegal6 4
      | some i => do
        match r with
        | .g g => modCx (·.setG g 0)
        | .v v => modCx (·.setV v 0)
        | .z _ => pure ()
        setSlot i sl
        lateStream r (s.time + lat)
        if out then pure () else modS fun s => s.refillIn lat s.act s.actx i

/-- SOPEN.A (R319, R320). -/
def execSopenA (d : SOpd) (a : GSrc) (out : Bool) (s : State) : Host.Outcome State Fault Refusal := issueSeq (sopen d a false out) s

/-- SOPEN.F (R319, R321). -/
def execSopenF (d : SOpd) (a : GSrc) (out : Bool) (s : State) : Host.Outcome State Fault Refusal := issueSeq (sopen d a true out) s

/-- SCLOSE (R326). -/
def execSclose (a : SOpd) (s : State) : Host.Outcome State Fault Refusal := issueSeq (closeStream (sref a)) s

/-! ## Positions (R325, R326) -/

/-- Refill a slot after its position has moved. -/
def askRefill (i : Fin 8) : X Unit := do
  let sl ← slotAt i
  if sl.out then pure () else modS (·.askRefill i)

/-- SADV (R325). -/
def execSadv (d : SOpd) (a : GSrc) (imm : BitVec 20) (s : State) : Host.Outcome State Fault Refusal :=
  issueSeq (do
    ready [a.op 0]
    let i ← openSlot (sref d) fun _ => true
    let x ← rdG a.r
    pops [.g a.r]
    let sl ← slotAt i
    setSlot i (sl.adv (x.toNat + imm.toNat))
    askRefill i) s

/-- The next element of an input fibre, waited for where it is not buffered (R322, R323); none at the end. -/
def nextElem (i : Fin 8) : X (Option Elem) := do
  let sl ← slotAt i
  if sl.left = 0 then pure none
  else match sl.buf with
    | e :: _ => pure (some e)
    | [] => do
      streamWait i
      wait

/-- The first n elements of a stream, or all that are left, are buffered before any of them is popped (R322, R323). -/
def waitElems (i : Fin 8) (n : Nat) : X Unit := do
  let sl ← slotAt i
  if sl.buf.length < min n sl.left then streamWait i else pure ()

/-- Pop one element of slot i, with the range-lock check of R323. -/
def popElem (i : Fin 8) : X Unit := do
  let sl ← slotAt i
  let s ← getS
  match (sl.buf.take 1).findSome? ((s.core s.act).elemLock s.act) with
  | some (l, b) => stop (.trap (lockTrap l b false))
  | none => do
    setSlot i (sl.adv 1)
    askRefill i

/-- A walk (R329): it has ended where a test says so; else one pass of its loop takes a cycle, and its effects are final. Where the walk has not ended then, the instruction is issued
again. -/
def walkStep (done : X Bool) (pass_ : X Unit) : X Unit := do
  if ← done then pure ()
  else do
    pass_
    if ← done then pure ()
    else do
      let s ← getS
      modCx fun t => { t with wake := s.time + s.cyc s.act 1 }
      waitKeep

/-- Input fibres (R325, R327). -/
def Slot.inFibre (s : Slot) : Bool := s.fibre && !s.out

/-- The coordinate that SADVTO walks to (R325): read at its first step, and kept while it walks. Where gA is the fibre itself, its read pops that fibre before the walk. -/
def walkKey (i : Fin 8) (a : GSrc) (imm : BitVec 20) : X Nat := do
  let t ← cx
  match t.prog with
  | .key y => pure y
  | _ => do
    ready [a.op 0]
    let x ← rdG a.r
    let key := fld (x + sext64 imm.toNat 20) 0 32
    if t.slotG a.r = some i then pops [.g a.r] else pure ()
    modCx fun t => { t with prog := .key key }
    pure key

/-- SADVTO (R325). A stream gA other than the fibre is popped when the walk ends, so that a walk that is stopped reads the same element again (R329); of the fibre itself a walk that is
stopped and issued again reads the element at which it stopped (DESIGN CHOICE, log entry 60). -/
def execSadvto (d : SOpd) (a : GSrc) (imm : BitVec 20) (s : State) : Host.Outcome State Fault Refusal :=
  issueSeq (do
    let i ← openSlot (sref d) Slot.inFibre
    let key ← walkKey i a imm
    walkStep (do
      let sl ← slotAt i
      pure (sl.left == 0 || (sl.buf.head?.any fun e => decide (key ≤ e.x % 2 ^ 32)))) (do
      match ← nextElem i with
      | none => pure ()
      | some e => if e.x % 2 ^ 32 < key then popElem i else pure ())
    let t ← cx
    if t.slotG a.r = some i then pure () else pops [.g a.r]) s

/-- STEND (R326). -/
def execStend (d : GReg) (a : SOpd) (s : State) : Host.Outcome State Fault Refusal :=
  issueSeq (do
    ready [dG d]
    let t ← cx
    let done := match t.slotOf (sref a) with
      | none => true
      | some i => t.slots[i].left == 0
    wrG d (if done then 1 else 0)) s

/-- SPEEK (R326). -/
def execSpeek (d : GReg) (a : SOpd) (s : State) : Host.Outcome State Fault Refusal :=
  issueSeq (do
    let t ← cx
    ready (if (t.slotOf (sref a)).isSome then [⟨sref a, 0, false⟩, dG d] else [dG d])
    let i ← openSlot (sref a) fun _ => true
    let sl ← slotAt i
    let s ← getS
    match (if sl.out || sl.left == 0 then [] else sl.buf.take 1).findSome? ((s.core s.act).elemLock s.act) with
    | some (l, b) => stop (.trap (lockTrap l b false))
    | none => wrG d sl.readG) s

/-! ## SISECT and SMERGE (R327 to R329) -/

/-- SISECT (R327). -/
def execSisect (d a b c : GReg) (s : State) : Host.Outcome State Fault Refusal :=
  issueSeq (do
    ready [sG d]
    let i ← openSlot (.g a) Slot.inFibre
    let j ← openSlot (.g b) Slot.inFibre
    let o ← if c = 0 then pure none else do
      let o ← openSlot (.g c) (·.out)
      pure (some o)
    walkStep (do
      let t ← cx
      pure (t.slots[i].left == 0 || t.slots[j].left == 0)) (do
      let x ← nextElem i
      let y ← nextElem j
      match x, y with
      | some x, some y =>
        if x.x % 2 ^ 32 < y.x % 2 ^ 32 then popElem i
        else if y.x % 2 ^ 32 < x.x % 2 ^ 32 then popElem j
        else do
          if i = j then waitElems i 2 else pure ()
          let v ← rdG d
          wrG d (v + 1)
          match o with
          | some o => pushElem o (w64 (x.y % 2 ^ 32 * 2 ^ 32 + x.x % 2 ^ 32))
          | none => pure ()
          popElem i
          popElem j
      | _, _ => pure ())
    pops [.g d]) s

/-- SMERGE (R328). -/
def execSmerge (d a b : GReg) (s : State) : Host.Outcome State Fault Refusal :=
  issueSeq (do
    let o ← openSlot (.g d) fun sl => sl.fibre && sl.out
    let i ← openSlot (.g a) Slot.inFibre
    let j ← openSlot (.g b) Slot.inFibre
    walkStep (do
      let t ← cx
      pure (t.slots[o].left == 0 || (t.slots[i].left == 0 && t.slots[j].left == 0))) (do
      let x ← nextElem i
      let y ← nextElem j
      let sa ← slotAt i
      let sb ← slotAt j
      match x, y with
      | none, none => pure ()
      | some x, none => do
        pushElem o (sa.value x)
        popElem i
      | none, some y => do
        pushElem o (sb.value y)
        popElem j
      | some x, some y =>
        if x.x % 2 ^ 32 < y.x % 2 ^ 32 then do
          pushElem o (sa.value x)
          popElem i
        else if y.x % 2 ^ 32 < x.x % 2 ^ 32 then do
          pushElem o (sb.value y)
          popElem j
        else do
          if i = j then waitElems i 2 else pure ()
          pushElem o (sa.value x)
          popElem i
          popElem j)) s

end Sys2Proof.Machine
end

