-- ==== Sys2Proof/Machine/Engines.lean ====
section
/-!
DEFINITION. The copy engines: OP 0x78 and 0x79 (R372 to R387), their units and copy faults (R472, R473), the SRC and VIS events (R212, R213), and command doorbells
(R395).
-/

namespace Sys2Proof.Machine

/-! ## Parameter blocks (R375 to R381) -/

/-- CONV of CTRL (R375). -/
def Cmd.conv (c : Cmd) : Nat := fld c.blk[7] 8 2
/-- VIS scope of CTRL (R375). -/
def Cmd.vis (c : Cmd) : Nat := fld c.blk[7] 0 3
/-- HANDLER (R375). -/
def Cmd.handler (c : Cmd) : Word := c.blk[6]
/-- The doubleword of ROWS and the source stride of CPY and CPYM (R376, R377). -/
def Cmd.rowWord (c : Cmd) : Word := if c.sel = 0 then c.blk[2] else c.blk[1]
/-- ROWS. -/
def Cmd.rows (c : Cmd) : Nat := fld c.rowWord 0 32
/-- SSTRIDE. -/
def Cmd.sstride (c : Cmd) : Int := sextN (fld c.rowWord 32 32) 32
/-- ROWBYTES. -/
def Cmd.rowBytes (c : Cmd) : Nat := if c.sel = 0 then fld c.blk[3] 0 32 else fld c.blk[2] 0 32
/-- Bytes of a destination row (R376). -/
def Cmd.dstBytes (c : Cmd) : Nat := if c.conv = 1 then c.rowBytes / 2 else if c.conv = 2 then 2 * c.rowBytes else c.rowBytes
/-- DSTRIDE; the rows of CPYM follow one another. -/
def Cmd.dstride (c : Cmd) : Int := if c.sel = 0 then sextN (fld c.blk[3] 32 32) 32 else c.dstBytes
/-- DSTOFF of CPYM (R377). -/
def Cmd.dstOff (c : Cmd) : Nat := fld c.blk[2] 32 32
/-- The logical cores that MASK of CPYM names. -/
def Cmd.maskCores (c : Cmd) : List Nat :=
  (List.range 192).filter fun i => if i < 64 then bit c.blk[3] i else if i < 128 then bit c.blk[4] (i - 64) else bit c.blk[5] (i - 128)
/-- First bytes of destination row 0. -/
def Cmd.bases (c : Cmd) : List Nat :=
  if c.sel = 0 then [c.blk[1].toNat] else c.maskCores.map fun i => aperBase + i * 0x20000 + c.dstOff
/-- ELEN of GATHR and SCATR (R378). -/
def Cmd.elen (c : Cmd) : Nat := fld c.blk[2] 32 13
/-- COUNT of GATHR and SCATR. -/
def Cmd.count (c : Cmd) : Nat := fld c.blk[2] 0 32
/-- DIM of EMBAG (R379). -/
def Cmd.dim (c : Cmd) : Nat := fld c.blk[5] 0 10
/-- RFMT of EMBAG. -/
def Cmd.rfmt (c : Cmd) : Nat := fld c.blk[5] 10 2
/-- RSTRIDE of EMBAG. -/
def Cmd.rstride (c : Cmd) : Nat := fld c.blk[5] 16 16
/-- BAGS of EMBAG. -/
def Cmd.bags (c : Cmd) : Nat := fld c.blk[5] 32 16
/-- Bytes of a row element of EMBAG. -/
def Cmd.esize (c : Cmd) : Nat := if c.rfmt = 0 then 4 else if c.rfmt = 1 then 2 else 1
/-- Format of a row element of EMBAG. -/
def Cmd.efmt (c : Cmd) : FF := if c.rfmt = 0 then .f32 else if c.rfmt = 1 then .bf16 else .e4m3
/-- OP of COLL (R380). -/
def Cmd.cop (c : Cmd) : Nat := fld c.blk[2] 16 4
/-- BYTES of COLL. -/
def Cmd.cbytes (c : Cmd) : Nat := fld c.blk[2] 0 13
/-- CHAN of COLL. -/
def Cmd.cchan (c : Cmd) : Nat := fld c.blk[3] 0 3

/-- An address from an integer (R2). -/
def addrOf (x : Int) : Nat := (BitVec.ofInt 64 x).toNat

/-- The smallest range that holds rows of n bytes at a stride: base and length. -/
def rowsExtent (base : Nat) (rows : Nat) (stride : Int) (n : Nat) : Nat × Nat :=
  let last := (base : Int) + (rows - 1 : Nat) * stride
  (addrOf (min base last), (max (base : Int) last - min (base : Int) last).toNat + n)

/-- A command with nothing to move (R374). -/
def Cmd.empty (c : Cmd) : Bool :=
  if c.sel < 2 then c.rows == 0 || c.dstBytes == 0 else if c.sel < 4 then c.count == 0 else false

/-- The source extent (R381); `n` is the number of indices of an EMBAG. -/
def Cmd.srcExt (c : Cmd) (n : Nat) : Option (Nat × Nat) :=
  if c.empty then none
  else if c.sel < 2 then some (rowsExtent c.blk[0].toNat c.rows c.sstride c.rowBytes)
  else if c.sel = 2 then some (c.blk[0].toNat, 4 * c.count)
  else if c.sel = 3 then some (c.blk[1].toNat, c.count * c.elen)
  else if c.sel = 4 then if n = 0 then none else some (c.blk[1].toNat, 4 * n)
  else some (c.blk[0].toNat, c.cbytes)

/-- The destination extent (R381), for the core with a logical number. -/
def Cmd.dstExt (c : Cmd) (lc : Nat) : Option (Nat × Nat) :=
  if c.empty then none
  else if c.sel = 0 then some (rowsExtent c.blk[1].toNat c.rows c.dstride c.dstBytes)
  else if c.sel = 1 then if c.maskCores.contains lc then some (c.dstOff, c.rows * c.dstBytes) else none
  else if c.sel = 2 then some (c.blk[1].toNat, c.count * c.elen)
  else if c.sel = 3 then none
  else if c.sel = 4 then if c.dim = 0 then none else some (c.blk[4].toNat, 4 * c.dim * c.bags)
  else some (c.blk[1].toNat, c.cbytes)

/-- Whether two extents of a command of core k overlap, whatever names they use. -/
def extOverlap (k : Nat) (a b : Option (Nat × Nat)) : Bool :=
  match a, b with
  | some x, some y => (extNames k x).any fun e => overlaps e.1 e.2 y.1 y.2
  | _, _ => false

/-- The limits of CTRL (R375). -/
def Cmd.ctrlOk (c : Cmd) : Bool :=
  fld c.blk[7] 11 53 == 0 && fld c.blk[7] 6 2 == 0 && c.conv != 3 && decide (c.vis ≤ 5) &&
  (decide (c.sel < 2) || (c.conv == 0 && fld c.blk[7] 3 3 == 0))

/-- The limits of the other fields (R376 to R380, R488). -/
def Cmd.fieldsOk (c : Cmd) : Bool :=
  if c.sel < 2 then
    decide (c.rows * c.rowBytes ≤ 2 ^ 32) && !(c.conv == 1 && (c.rowBytes % 2 == 1 || bit c.blk[0] 0 || c.bases.any (· % 2 == 1))) &&
    (if c.sel = 0 then c.blk[4] == 0 && c.blk[5] == 0
      else !c.maskCores.isEmpty && decide (c.dstOff + c.rows * c.dstBytes ≤ 0x20000))
  else if c.sel < 4 then
    fld c.blk[2] 45 19 == 0 && c.blk[3] == 0 && c.blk[4] == 0 && c.blk[5] == 0 && decide (1 ≤ c.elen) && decide (c.elen ≤ 4096) && fld c.blk[0] 0 2 == 0
  else if c.sel = 4 then
    fld c.blk[5] 48 16 == 0 && fld c.blk[5] 12 4 == 0 && decide (1 ≤ c.bags) && decide (c.rfmt ≤ 2) && decide (c.dim * c.esize ≤ 512) &&
    decide (c.dim * c.esize ≤ c.rstride) && c.rstride % c.esize == 0
  else
    fld c.blk[2] 20 44 == 0 && fld c.blk[2] 13 3 == 0 && fld c.blk[3] 3 61 == 0 && c.blk[4] == 0 && c.blk[5] == 0 && decide (c.cop ≤ 5) &&
    decide (8 ≤ c.cbytes) && decide (c.cbytes ≤ 4096) && c.cbytes % 8 == 0

/-- Whether a command passes step 2 of R374, for the core with a logical number. -/
def Cmd.ok (c : Cmd) (lc n : Nat) : Bool := c.ctrlOk && c.fieldsOk && !extOverlap lc (c.srcExt n) (c.dstExt lc)

/-! ## Accesses of an engine (R171, R211, R472) -/

/-- A copy fault found: its code, 0 for a source or 1 for a destination, and the address of R472. Two codes are no fault: 0 where the access waits for a translation, of which the core and
ASID are given in the second place, and 1 where its home serves it only after so many ticks. -/
abbrev CopyFail := Nat × Nat × Word

/-- The parts of n bytes from an address that lie in one 64-byte line each. -/
def linePieces (va n : Nat) : List (Nat × Nat) :=
  (List.range ((va % 64 + n + 63) / 64)).map fun i =>
    let lo := max va (va / 64 * 64 + 64 * i)
    (lo % 2 ^ 64, min (va + n) (va / 64 * 64 + 64 * (i + 1)) - lo)

/-- The core, ASID and virtual address whose page ENG guards for an access of an engine of core k: none for plain scratchpad (R171). -/
def State.engPage (s : State) (k : Nat) (c : Cmd) (va : Nat) : Option (Nat × Nat × Nat) :=
  if rangeOf va = 2 then match (s.core k).winVa va with
    | some w => some (k, w.2.asid, va)
    | none => some (k, c.asid, va)
  else (s.winOf k va).map fun w => (if rangeOf va = 0 then k else 192 * clusterOf k + (va - aperBase) / 0x20000, w.1, w.2)

/-- The translation of a page that ENG guards: the one that the fills of a window have used where the place is in it, else the one in the core TLB (R171, R189). -/
def State.engTlb (s : State) (j asid a : Nat) : Place → Except WalkErr Tlb
  | .win i wi _ _ _ => match (s.core i).wins[Fin.ofNat 8 wi].bind fun w => w.page a with
    | some t => .ok t
    | none => (s.translate j asid a).1
  | _ => (s.translate j asid a).1

/-- A wait for the home of a place (R415, R235). -/
def State.homeBusy (s : State) (p : Place) (va : Nat) : Option CopyFail := match p with
  | .phys pa _ => if s.homeWait pa = 0 then none else some (1, s.homeWait pa, w64 va)
  | _ => none

/-- Where an engine of core k finds a byte (R171, R176, R187), its copy fault, or what it waits for. Device registers take no engine access (R419). -/
def State.engPlace (s : State) (who : Who) (k : Nat) (c : Cmd) (wr : Bool) (va : Nat) : Except CopyFail Place × State :=
  let side := if wr then 1 else 0
  if 2 ^ 48 ≤ va then (.error (0x20, side, w64 va), s)
  else match bytePlace { va := w64 va, n := 1, kind := 4, wr := wr, own := who.isNone, ev := who } k c.asid c.priv va s with
    | .error (.waitFor j a v) => (.error (0, 4096 * j + a, w64 v), s)
    | .error _ => (.error (0x20, side, w64 va), s)
    | .ok (.error e, s) => (.error (if e.2.code = 0x09 then 0x21 else 0x20, side, w64 va), s)
    | .ok (.ok p, s) =>
      if (p.pa?.map isReg).getD false then (.error (0x21, side, w64 va), s)
      else match s.engPage k c va with
        | none => (.ok p, s)
        | some (j, asid, a) => match s.engTlb j asid a p with
          | .ok t => (if t.eng then (match s.homeBusy p va with
              | some w => .error w
              | none => .ok p) else .error (0x22, side, w64 va), s)
          | .error _ => (.ok p, s)

/-- Whether a physical address lies in the capacity tier (R168). -/
def inCapacity (pa : Nat) : Bool := decide (0x100000000000 ≤ pa) && decide (pa < 0x180000000000)

/-- Change a copy tag. -/
def State.modTag (s : State) (k tag : Nat) (f : Tag → Tag) : State :=
  s.modCore k fun c => { c with tags := c.tags.set (Fin.ofNat 64 tag) (f c.tags[Fin.ofNat 64 tag]) }
/-- A copy tag. -/
def State.tag (s : State) (k tag : Nat) : Tag := (s.core k).tags[Fin.ofNat 64 tag]

/-- n bytes from the words that a command has read; none unless it has read them all. -/
def kept (ws : List (Nat × Nat)) (va : Nat) : Nat → Option Nat
  | 0 => some 0
  | n + 1 => match sget ws (va / 4), kept ws (va + 1) n with
    | some x, some y => some (byteN x (va % 4) + 256 * y)
    | _, _ => none

/-- Words added to those that a command has read: n of them from word number w, as one number. -/
def keep (ws : List (Nat × Nat)) (w x : Nat) : Nat → List (Nat × Nat)
  | 0 => ws
  | n + 1 => keep (if (sget ws w).isSome then ws else sset ws w (x % 2 ^ 32)) (w + 1) (x / 2 ^ 32) n

/-- The place of the first byte of a word. -/
def Place.wordPlace : Place → Place
  | .spad j off => .spad j (off / 4 * 4)
  | .win j i off pa a => .win j i (off / 4 * 4) (pa / 4 * 4) a
  | .phys pa a => .phys (pa / 4 * 4) a

/-- The words of n bytes of one line read by an engine, as one number, or the fault; `cap` is the address that a read outside the capacity tier reports (R379). -/
def State.engWords (s : State) (who : Who) (k : Nat) (c : Cmd) (cap : Option Word) (va n : Nat) : Except CopyFail Nat × State :=
  match s.engPlace who k c false va with
  | (.error e, s) => (.error e, s)
  | (.ok p, s) =>
    match cap.filter fun _ => !((p.pa?.map inCapacity).getD false) with
    | some a => (.error (0x24, 0, a), s)
    | none => match p.wordPlace with
      | .phys pa _ =>
        let (x, s) := s.homeRead pa (4 * spanWords va n)
        (if s.anyPoisonFor k pa (4 * spanWords va n) then .error (0x26, 0, w64 va) else .ok x, s)
      | p =>
        let ((x, bad), s) := s.loadPlaces k ((List.range (4 * spanWords va n)).map p.plus)
        (if bad then .error (0x26, 0, w64 va) else .ok x, s)

/-- n bytes as they are now, no part of the command's source. -/
def State.engPeek (s : State) (k : Nat) (c : Cmd) (va n : Nat) : Except CopyFail Nat × State :=
  match s.engWords (some 2) k c none va n with
  | (.error e, s) => (.error e, s)
  | (.ok x, s) => (.ok (bits x (8 * (va % 4)) (8 * n)), s)

/-- A line outside the capacity tier, as a read that must lie in it reports it, or a wait (R379, R488). -/
def State.offTier (s : State) (who : Who) (k : Nat) (c : Cmd) (cap : Option Word) (va : Nat) : Option CopyFail := cap.bind fun a =>
  match (s.engPlace who k c false va).1 with
  | .ok p => if (p.pa?.map inCapacity).getD false then none else some (0x24, 0, a)
  | .error e => if e.1 < 2 then some e else none

/-- Bytes of one line read by an engine: each word of the source is read once, and then kept with the tag (R211). -/
def State.engReadPiece (s : State) (who : Who) (k : Nat) (c : Cmd) (cap : Option Word) (va n : Nat) : Except CopyFail Nat × State :=
  match s.offTier who k c cap va, kept (s.tag k c.tag).src va n with
  | some e, _ => (.error e, s)
  | none, some x => (.ok x, s)
  | none, none => match s.engWords who k c cap va n with
    | (.error e, s) => (.error e, s)
    | (.ok x, s) =>
      let s := s.modTag k c.tag fun t => { t with src := keep t.src (va / 4) x (spanWords va n) }
      (.ok ((kept (s.tag k c.tag).src va n).getD 0), s)

/-- The pieces of a read, least significant first. -/
def State.engReads (who : Who) (k : Nat) (c : Cmd) (cap : Option Word) : List (Nat × Nat) → State → Except CopyFail Nat × State
  | [], s => (.ok 0, s)
  | p :: t, s => match s.engReadPiece who k c cap p.1 p.2 with
    | (.error e, s) => (.error e, s)
    | (.ok x, s) => match State.engReads who k c cap t s with
      | (.error e, s) => (.error e, s)
      | (.ok y, s) => (.ok (x + 2 ^ (8 * p.2) * y), s)

/-- n bytes read by an engine, in an event of two operands. -/
def State.engRead (s : State) (k : Nat) (c : Cmd) (va : Word) (n : Nat) : Except CopyFail Nat × State :=
  State.engReads (some 2) k c none (linePieces va.toNat n) s

/-- The first fault that writes of lines would meet. -/
def State.engCheck (k : Nat) (c : Cmd) : List (Nat × Nat) → State → Option CopyFail × State
  | [], s => (none, s)
  | p :: t, s => match s.engPlace (some 2) k c true p.1 with
    | (.error e, s) => (some e, s)
    | (.ok _, s) => State.engCheck k c t s

/-- Bytes of lines written by an engine (R212). What it leaves D in a window over an SI page is noted, and written back when VIS fires (R212). -/
def State.engWrites (k : Nat) (c : Cmd) : List (Nat × Nat) → Nat → State → State
  | [], _, s => s
  | p :: t, x, s =>
    let s := match s.engPlace (some 2) k c true p.1 with
      | (.error _, s) => s
      | (.ok (.phys pa _), s) => if s.cutOff k pa then s.dropAt k pa p.2 else (s.dropAt k pa p.2).homeWrite pa p.2 (x % 2 ^ (8 * p.2))
      | (.ok q, s) =>
        let qs := (List.range p.2).map q.plus
        ((s.storePlaces k qs x).clearStored k qs).noteWrites k qs
    State.engWrites k c t (x / 2 ^ (8 * p.2)) s

/-! ## Units (R472) -/

/-- A part of a destination row on one page: its address, its offset in the row, its length, and the source row. -/
structure CopyPart where
  dst : Nat
  j : Nat
  n : Nat
  src : Nat
  deriving DecidableEq, Repr

/-- A unit (R472). -/
inductive EUnit where
  | page (ps : List CopyPart)
  | entry (i : Nat)
  | bag (b : Nat)
  | message
  deriving DecidableEq, Repr

/-- The parts of a destination row. -/
def rowParts (dst n src : Nat) : List CopyPart :=
  (List.range ((dst % 4096 + n + 4095) / 4096)).map fun i =>
    let lo := max dst (dst / 4096 * 4096 + 4096 * i)
    ⟨lo, lo - dst, min (dst + n) (dst / 4096 * 4096 + 4096 * (i + 1)) - lo, src⟩

/-- A part added to the unit of its page, or to a new one behind the others. -/
def addPart (l : List (Nat × List CopyPart)) (p : CopyPart) : List (Nat × List CopyPart) :=
  match l with
  | [] => [(p.dst / 4096, [p])]
  | e :: t => if e.1 = p.dst / 4096 then (e.1, e.2 ++ [p]) :: t else e :: addPart t p

/-- The units of a command, in ascending order (R472). -/
def Cmd.units (c : Cmd) : List EUnit :=
  if c.empty then []
  else if c.sel < 2 then
    (((List.range c.rows).flatMap fun (r : Nat) => c.bases.flatMap fun (b : Nat) =>
      rowParts (addrOf ((b : Int) + (r : Int) * c.dstride)) c.dstBytes (addrOf (c.blk[0].toNat + (r : Int) * c.sstride))).foldl addPart []).map fun e => .page e.2
  else if c.sel < 4 then (List.range c.count).map .entry
  else if c.sel = 4 then (List.range c.bags).map .bag
  else [.message]

/-- What a unit counts in RESID (R385). -/
def EUnit.size : EUnit → Nat
  | .page ps => ps.foldl (fun n p => n + p.n) 0
  | .entry _ => 1
  | .bag _ => 1
  | .message => 0

/-- NV, OF, UF and NX as CPYST gives them (R385). -/
def tagFlags (f : Flags) : BitVec 4 := BitVec.ofNat 4 (f.toNat % 8 + (if f.getLsbD 4 then 8 else 0))

/-- One element converted (R375, R152, R153). -/
def Cmd.convert (c : Cmd) (x : Nat) : Nat × Flags :=
  let f8 : FF := if bit c.blk[7] 10 then .e5m2 else .e4m3
  let rm := Rm.ofCode (fld c.blk[7] 3 2)
  let sat := bit c.blk[7] 5
  if c.conv = 1 then fromF32 f8 rm sat (toF32 .bf16 x) else fromF32 .bf16 rm sat (toF32 f8 x)

/-- What a part writes: its bytes as a number, and flags. -/
def State.readPart (s : State) (k : Nat) (c : Cmd) (p : CopyPart) : Except CopyFail (Nat × Flags) × State :=
  let (so, sn, cut) := if c.conv = 1 then (2 * p.j, 2 * p.n, 0) else if c.conv = 2 then (p.j / 2, (p.j + p.n + 1) / 2 - p.j / 2, p.j % 2) else (p.j, p.n, 0)
  match s.engRead k c (w64 (p.src + so)) sn with
  | (.error e, s) => (.error e, s)
  | (.ok x, s) =>
    if c.conv = 0 then (.ok (x, 0), s)
    else
      let (wi, wo) := if c.conv = 1 then (16, 8) else (8, 16)
      let rs := (List.range (8 * sn / wi)).map fun i => c.convert (bits x (wi * i) wi)
      (.ok (packLanes wo (rs.map (·.1)) / 256 ^ cut % 256 ^ p.n, rs.foldl (fun f r => f ||| r.2) 0), s)

/-- What the parts of a unit write: address, length and value of each, and flags. -/
def State.readParts (k : Nat) (c : Cmd) : List CopyPart → State → Except CopyFail (List (Nat × Nat × Nat) × Flags) × State
  | [], s => (.ok ([], 0), s)
  | p :: t, s => match s.readPart k c p with
    | (.error e, s) => (.error e, s)
    | (.ok x, s) => match State.readParts k c t s with
      | (.error e, s) => (.error e, s)
      | (.ok r, s) => (.ok ((p.dst, p.n, x.1) :: r.1, x.2 ||| r.2), s)

/-- Pieces as they are now, least significant first. -/
def State.engPeeks (s : State) (k : Nat) (c : Cmd) : List (Nat × Nat) → Except CopyFail Nat × State
  | [] => (.ok 0, s)
  | p :: t => match s.engPeek k c p.1 p.2 with
    | (.error e, s) => (.error e, s)
    | (.ok x, s) => match State.engPeeks s k c t with
      | (.error e, s) => (.error e, s)
      | (.ok y, s) => (.ok (x + 2 ^ (8 * p.2) * y), s)

/-- Core and offset that entry i of a GATHR or SCATR names (R378); none inside where they are out of range. -/
def State.readEntry (s : State) (k : Nat) (c : Cmd) (i : Nat) : Except CopyFail (Option (Nat × Nat)) × State :=
  match s.engRead k c (c.blk[0] + w64 (4 * i)) 4 with
  | (.error e, s) => (.error e, s)
  | (.ok e, s) => (.ok (if 192 ≤ bits e 17 8 ∨ 0x20000 < bits e 0 17 + c.elen then none else some (bits e 17 8, bits e 0 17)), s)

/-- The bytes, from an offset on a core, that entries 0 to n - 1 of a SCATR have also written: one that CPYRES has skipped has written nothing (R473). -/
def State.earlierBytes (k : Nat) (c : Cmd) (at_ : Nat × Nat) : Nat → State → List Nat × State
  | 0, s => ([], s)
  | n + 1, s =>
    let (r, s) := State.earlierBytes k c at_ n s
    if (s.tag k c.tag).skipped.contains n then (r, s)
    else match s.readEntry k c n with
    | (.ok (some e), s) => (if e.1 = at_.1 then r ++ (List.range c.elen).filter fun i => decide (e.2 ≤ at_.2 + i) && decide (at_.2 + i < e.2 + c.elen) else r, s)
    | (_, s) => (r, s)

/-- The element that a SCATR writes where earlier entries name the same bytes: word by word one of the two, a free choice (R378, log entry 13). -/
def State.mixed (s : State) (off elen old new : Nat) (shared : List Nat) : Nat × State :=
  let x := (List.range elen).foldl (fun x i =>
    if shared.contains i && Config.choice (s.fresh + ((off + i) / 4 - off / 4)) then setByteN x i (byteN old i) else x) new
  (x, { s with fresh := s.fresh + (elen + 7) / 4 })

/-- What an entry of GATHR or SCATR writes. -/
def State.runEntry (s : State) (k : Nat) (c : Cmd) (i : Nat) : Except CopyFail (Nat × Nat × Nat) × State :=
  match s.readEntry k c i with
  | (.error e, s) => (.error e, s)
  | (.ok none, s) => (.error (0x23, c.sel - 2, c.blk[0] + w64 (4 * i)), s)
  | (.ok (some p), s) =>
    let far := w64 (aperBase + p.1 * 0x20000 + p.2)
    let near := c.blk[1] + w64 (i * c.elen)
    if c.sel = 2 then match s.engRead k c far c.elen with
      | (.error e, s) => (.error e, s)
      | (.ok x, s) => (.ok (near.toNat, c.elen, x), s)
    else match s.engRead k c near c.elen with
      | (.error e, s) => (.error e, s)
      | (.ok x, s) =>
        let (shared, s) := State.earlierBytes k c p i s
        if shared.isEmpty then (.ok (far.toNat, c.elen, x), s)
        else
          let (old, s) := s.engPeeks k c (linePieces far.toNat c.elen)
          let (x, s) := s.mixed p.2 c.elen (match old with
            | .ok y => y
            | .error _ => x) x shared
          (.ok (far.toNat, c.elen, x), s)

/-- The rows of a bag with their weights: indices j from `j` on, n of them (R379). -/
def State.bagRows (k : Nat) (c : Cmd) (bagAt : Word) : Nat → Nat → State → Except CopyFail (List (Nat × Nat)) × State
  | 0, _, s => (.ok [], s)
  | n + 1, j, s =>
    match s.engRead k c (c.blk[1] + w64 (4 * j)) 4 with
    | (.error e, s) => (.error e, s)
    | (.ok ix, s) =>
      match if c.blk[2] = 0 then (.ok 0x3F800000, s) else s.engRead k c (c.blk[2] + w64 (4 * j)) 4 with
      | (.error e, s) => (.error e, s)
      | (.ok w, s) =>
        match State.engReads (some 2) k c (some bagAt) (linePieces (c.blk[0] + w64 (ix * c.rstride)).toNat (c.dim * c.esize)) s with
        | (.error e, s) => (.error e, s)
        | (.ok row, s) => match State.bagRows k c bagAt n (j + 1) s with
          | (.error e, s) => (.error e, s)
          | (.ok r, s) => (.ok ((w, row) :: r), s)

/-- Element e of a bag: the sum in index order (R379). -/
def Cmd.pool (c : Cmd) (rows : List (Nat × Nat)) (e : Nat) : Nat × Flags :=
  rows.foldl (fun (a : Nat × Flags) r =>
    let x := toF32 c.efmt (bits r.2 (8 * c.esize * e) (8 * c.esize))
    let y := fFma .f32 ⟨.rne, false⟩ false r.1 x a.1
    (y.1, a.2 ||| y.2)) (0, 0)

/-- What a bag writes (R379, R488). -/
def State.runBag (s : State) (k : Nat) (c : Cmd) (b : Nat) : Except CopyFail ((Nat × Nat × Nat) × Flags) × State :=
  let bagAt := c.blk[3] + w64 (4 * b)
  match s.engRead k c bagAt 8 with
  | (.error e, s) => (.error e, s)
  | (.ok o, s) =>
    let o0 := bits o 0 32
    let o1 := bits o 32 32
    if o1 < o0 ∨ o0 + 4096 < o1 then (.error (0x24, 0, bagAt), s)
    else match State.bagRows k c bagAt (o1 - o0) o0 s with
      | (.error e, s) => (.error e, s)
      | (.ok rows, s) =>
        let rs := (List.range c.dim).map (c.pool rows)
        (.ok (((c.blk[4] + w64 (4 * c.dim * b)).toNat, 4 * c.dim, packLanes 32 (rs.map (·.1))), rs.foldl (fun f r => f ||| r.2) 0), s)

/-- What a unit writes; every read is made before the destination is checked. What a COLL reads is kept with its tag until its phase completes (R380). -/
def State.readUnit (s : State) (k : Nat) (c : Cmd) : EUnit → Except CopyFail (List (Nat × Nat × Nat) × Flags) × State
  | .page ps => State.readParts k c ps s
  | .entry i => match s.runEntry k c i with
    | (.error e, s) => (.error e, s)
    | (.ok w, s) => (.ok ([w], 0), s)
  | .bag b => match s.runBag k c b with
    | (.error e, s) => (.error e, s)
    | (.ok r, s) => (.ok ([r.1], r.2), s)
  | .message =>
    match s.engRead k c c.blk[0] c.cbytes with
    | (.error e, s) => (.error e, s)
    | (.ok _, s) => (.ok ([], 0), s)

/-- The lines that a unit writes, for the check of its destination. -/
def unitLines (c : Cmd) (ws : List (Nat × Nat × Nat)) : List (Nat × Nat) :=
  if c.sel = 5 then linePieces c.blk[1].toNat c.cbytes else ws.flatMap fun w => linePieces w.1 w.2.1

/-- One unit: translated and checked before any of its bytes is written (R472). -/
def State.runUnit (s : State) (k tag : Nat) (c : Cmd) (u : EUnit) : Option CopyFail × State :=
  match s.readUnit k c u with
  | (.error e, s) => (some e, s)
  | (.ok r, s) => match State.engCheck k c (unitLines c r.1) s with
    | (some e, s) => (some e, s)
    | (none, s) =>
      let s := r.1.foldl (fun s w => State.engWrites k c (linePieces w.1 w.2.1) w.2.2 s) s
      (none, s.modTag k tag fun t => { t with done := t.done + 1, resid := t.resid - u.size, flags := t.flags ||| tagFlags r.2 })

/-- Units in ascending order, up to the first that fails. -/
def State.runUnits (k tag : Nat) (c : Cmd) : List EUnit → State → Option CopyFail × State
  | [], s => (none, s)
  | u :: t, s => match s.runUnit k tag c u with
    | (some e, s) => (some e, s)
    | (none, s) => State.runUnits k tag c t s

/-! ## Events (R212, R213, R383, R387) -/

/-- The doorbell queues of a core try again. -/
def State.ringBells (s : State) (k : Nat) : State :=
  (List.range 16).foldl (fun s q =>
    let y := (s.core k).qs[Fin.ofNat 16 q]
    if y.kind = 2 ∧ !y.ents.isEmpty then s.post ⟨.engineDoorbell, [k, q]⟩ else s) s

/-- A tag takes a state; contexts in WFI see it (R416). -/
def State.setTag (s : State) (k tag : Nat) (st : TagSt) : State := (s.modTag k tag fun t => { t with st := st }).wake k fun _ => true

/-- SRC fires: the source lock is freed (R212, R213). -/
def State.srcFire (s : State) (k tag : Nat) : State :=
  ((s.modCore k fun c => { c with locks := c.locks.filter fun l => !(l.tag == tag && !l.dst) }).setTag k tag .srcDone).ringBells k

/-- The arrivals that waited for a tag's VIS (R210, R391). -/
def State.fireDeferred (s : State) (k tag : Nat) : State :=
  let ds := (s.core k).deferred.map fun d => { d with tags := d.tags.erase tag }
  let s := s.modCore k fun c => { c with deferred := ds.filter fun d => !d.tags.isEmpty }
  (ds.filter fun d => d.tags.isEmpty).foldl (fun s d => s.arrive k d.ch d.member) s

/-- VIS fires: the destination lock is freed, the tag is Idle, and the actions of its mode follow (R212, R213, R387, R455); the slice whose last condition this is ends in the same cycle
(R39). -/
def State.visFire (s : State) (k tag : Nat) : State :=
  let s := if (s.tag k tag).cmd.any fun c => c.vis != 0 then s.flushAway k else s
  let s := s.modCore k fun c => { c with locks := c.locks.filter fun l => l.tag != tag }
  let s := (s.setTag k tag .idle).modTag k tag fun t => { t with resid := 0, src := [], skipped := [] }
  let s := match (s.tag k tag).cmd with
    | some c => if c.mode = EngMode.ui ∧ c.ctx < 11 ∧ (s.ctx k (cix c.ctx)).isLive = true then
        let toU := bit (s.core k).deleg 2 && c.handler != 0
        s.modCtx k (cix c.ctx) fun t => { t with cpyiQ := t.cpyiQ ++ [(tag, c.handler, toU)] }
      else s
    | none => s
  State.sliceEnd false ((s.fireDeferred k tag).ringBells k) k

/-- A command stops at a unit (R472, R453): the fault is pending for its context, or for context 0 if that one is not live. -/
def State.stopTag (s : State) (k tag : Nat) (c : Cmd) (f : CopyFail) : State :=
  let s := (s.setTag k tag .stopped).modTag k tag fun t => { t with cause := f.1 }
  let detail := w64 ((s.tag k tag).resid % 2 ^ 32 * 2 ^ 32 + f.2.1 * 64 + tag)
  s.modCtx k (cix (if c.ctx < 11 ∧ (s.ctx k (cix c.ctx)).isLive = true then c.ctx else 0)) fun t => { t with copyQ := t.copyQ ++ [(tag, f.1, detail, f.2.2)] }

/-- The channel that a COLL arrives on; the check of its phase. -/
def State.checkColl (s : State) (k : Nat) (c : Cmd) : State := if c.sel = 5 then s.postMore ⟨.barrierPhaseComplete, [k, c.cchan]⟩ else s

/-- What a unit waits for, and the event that is then performed again: a translation (R175), or its home (R415, R235). -/
def State.unitWait (s : State) (row : Instr) (f : CopyFail) : Option State :=
  if f.1 = 0 then some (s.again row (f.2.1 / 4096, f.2.1 % 4096, f.2.2.toNat))
  else if f.1 = 1 then some (s.postIn f.2.1 ⟨row, s.ev⟩)
  else none

/-- COPY_SRC_EVENT (R212): every unit left is done and SRC fires; a command with a unit that fails goes on with COPY_FAULT. A COLL then waits for its phase (R380). -/
def execCopySrcEvent (s : State) : Host.Outcome State Fault Refusal :=
  event (fun s =>
    let k := s.arg 0
    let tag := s.arg 1
    let t := s.tag k tag
    match t.st, t.cmd with
    | .busy, some c => match State.runUnits k tag c (c.units.drop t.done) s with
      | (some f, _) => (s.unitWait .copySrcEvent f).getD (s.post ⟨.copyFault, [k, tag]⟩)
      | (none, s) =>
        let s := s.srcFire k tag
        if c.sel = 5 then s.checkColl k c else s.postMore ⟨.copyVisEvent, [k, tag]⟩
    | _, _ => s) s

/-- COPY_VIS_EVENT (R212). -/
def execCopyVisEvent (s : State) : Host.Outcome State Fault Refusal :=
  event (fun s => if (s.tag (s.arg 0) (s.arg 1)).st = .srcDone then s.visFire (s.arg 0) (s.arg 1) else s) s

/-- COPY_FAULT (R472): the units before the failing one are done, and the command stops. -/
def execCopyFault (s : State) : Host.Outcome State Fault Refusal :=
  event (fun s =>
    let k := s.arg 0
    let tag := s.arg 1
    let t := s.tag k tag
    match t.st, t.cmd with
    | .busy, some c => match State.runUnits k tag c (c.units.drop t.done) s with
      | (some f, t) => (s.unitWait .copyFault f).getD (t.stopTag k tag c f)
      | (none, _) => s.post ⟨.copySrcEvent, [k, tag]⟩
    | _, _ => s) s

/-! ## Issue (R373, R374) -/

/-- The member that an arrival of context x counts for (R59). -/
def Chan.member (c : Chan) (x : Nat) : Nat := if c.level = 0 then x else 0

/-- Phases that have ended for a member: all that have ended, or those before one at whose mismatch its COLL has stopped (R380). -/
def Chan.endedFor (b : Chan) (m : Nat) : Nat := if b.colls.any fun e => e.1 == m && decide (e.2.1 ≤ b.done + b.spent) then b.done else b.done + b.spent

/-- The phases that have ended elsewhere end for the core, as far as no COLL of it stands stopped in one (R257, R473). -/
def Chan.settle (b : Chan) : Chan :=
  let n := b.done + b.spent
  let last := (b.colls.filter fun e => decide (e.2.1 ≤ n)).foldl (fun m e => min m (e.2.1 - 1)) n
  { b with done := last, spent := n - last }

/-- Arrivals of a member whose phase has not completed, those that wait for copies included (R389, R391). -/
def Core.outstanding (c : Core) (ch x : Nat) : Nat :=
  let b := c.chans[Fin.ofNat 8 ch]
  let m := b.member x
  b.arrivals m - b.endedFor m + (c.deferred.filter fun d => d.ch == ch && d.member == b.member x).length

/-- The number of indices of an EMBAG, OFFS[BAGS], 0 where it cannot be read, and the source words read for it: after the earlier stores of the core (R211). Or what its read waits for. -/
def State.bagIndices (s : State) (who : Who) (k : Nat) (c : Cmd) : Except CopyFail (Nat × List (Nat × Nat)) :=
  if c.sel ≠ 4 then .ok (0, [])
  else match State.engReads who k c none (linePieces (c.blk[3] + w64 (4 * c.bags)).toNat 4) (s.siFlush k) with
    | (.ok n, s) => .ok (n, (s.tag k c.tag).src)
    | (.error e, _) => if e.1 < 2 then .error e else .ok (0, [])

/-- Whether a command must wait for lock entries or for overlapping extents (R213, R215). -/
def Core.mustQueue (c : Core) (k : Nat) (src dst : Option (Nat × Nat)) : Bool :=
  let hit : Option (Nat × Nat) → Lock → Bool := fun e l => extOverlap k e (some (l.a, l.n))
  decide (16 < c.locks.length + src.toList.length + dst.toList.length) || c.locks.any fun l => (l.dst && hit src l) || hit dst l

/-- The channel on which a command arrives: that of its mode, or of a COLL. -/
def Cmd.arrival (c : Cmd) : Option Nat := match c.mode with
  | .arr ch => some ch.val
  | _ => if c.sel = 5 then some c.cchan else none

/-- Ticks from the start of a command until every source word has been read (R382; log entry 6). -/
def State.cmdTicks (s : State) (k : Nat) (c : Cmd) : Nat :=
  let first := match (s.placesAt k c.asid c.priv { va := c.blk[0], n := 1, kind := 4, wr := false }).1 with
    | .ok ps => s.latencyOf k 2 ps
    | .error _ => 1
  let bytes := c.units.foldl (fun n u => n + u.size) 0
  if c.sel < 2 then first + s.cyc k (bytes / 128)
  else if c.sel < 4 then first + s.cyc k (24 + c.count + c.elen / 64)
  else if c.sel = 4 then 900
  else first + s.cyc k (2 * ((c.cbytes + 63) / 64))

/-- A command starts (R374 step 4): its locks, its tag, the stores before it (R211), its arrival (R380, R387), and its events. -/
def State.startCmd (s : State) (k tag : Nat) (c : Cmd) (src dst : Option (Nat × Nat)) (ws : List (Nat × Nat)) : State :=
  let s := (s.siFlush k).modCore k fun y => { y with
    locks := y.locks ++ (src.toList.map fun e => Lock.mk e.1 e.2 tag false) ++ dst.toList.map fun e => Lock.mk e.1 e.2 tag true }
  let s := (s.modTag k tag fun _ => ⟨.busy, some c, 0, (c.units.foldl (fun n u => n + u.size) 0), 0, 0, ws, []⟩).wake k fun _ => true
  let s := match c.mode with
    | .arr ch => s.modCore k fun y => { y with deferred := y.deferred ++ [Deferred.mk ch.val (y.chans[ch].member c.ctx) [tag]] }
    | _ => s
  let s := if c.sel = 5 then
      let b := (s.core k).chans[Fin.ofNat 8 c.cchan]
      let m := b.member c.ctx
      (s.modCore k fun y => { y with chans := y.chans.set (Fin.ofNat 8 c.cchan) { b with colls := b.colls ++ [(m, b.arrivals m + 1, tag)] } }).arrive k c.cchan m
    else s
  if c.empty then (s.srcFire k tag).visFire k tag else s.postIn (s.cmdTicks k c) ⟨.copySrcEvent, [k, tag]⟩

/-- Whether a command can start now for context x of core k (R213, R215, R218, R389): an earlier LDNM has been performed, which its writes and its release come after (R199, R203). -/
def State.canStart (s : State) (k x : Nat) (c : Cmd) (src dst : Option (Nat × Nat)) : Bool :=
  !(s.core k).mustQueue k src dst && !s.pairsOut k x && !(s.ctx k (cix x)).ldnm && match c.arrival with
    | some ch => decide ((s.core k).outstanding ch x < 2)
    | none => true

/-- An engine command (R373, R374). -/
def engine (sel : Nat) (d : GReg) (a : GSrc) (tag : BitVec 6) (md : EngMode) : X Unit := do
  ready [a.op 0, dG d]
  let x ← rdG a.r
  let ps ← check { va := x, n := 64, kind := 0, wr := false, align := 64, stk := a.r == 62 }
  let st ← getS
  let y ← loadNow x 64 ps
  holdFor (st.latencyOf st.act 0 ps)
  let s ← getS
  let t ← cx
  let c : Cmd := ⟨sel, s.actx.val, t.asid, t.priv, recordOf y, md, tag.toNat⟩
  if (s.tag s.act tag.toNat).st ≠ .idle then wrG d 1
  else match s.bagIndices none s.act c with
    | .error e => if e.1 = 0 then stop (.waitFor (e.2.1 / 4096) (e.2.1 % 4096) e.2.2.toNat) else wait
    | .ok n =>
      if !c.ok (logical s.act) n.1 then wrG d 2
      else do
        let src := c.srcExt n.1
        let dst := c.dstExt (logical s.act)
        waitUnless (s.canStart s.act s.actx.val c src dst)
        wrG d 0
        modS fun s => s.startCmd s.act tag.toNat c src dst n.2
  pops [.g a.r]

/-- CPY (R376). -/
def execCpy (d : GReg) (a : GSrc) (tag : BitVec 6) (md : EngMode) (s : State) : Host.Outcome State Fault Refusal := issueSeq (engine 0 d a tag md) s
/-- CPYM (R377). -/
def execCpym (d : GReg) (a : GSrc) (tag : BitVec 6) (md : EngMode) (s : State) : Host.Outcome State Fault Refusal := issueSeq (engine 1 d a tag md) s
/-- GATHR (R378). -/
def execGathr (d : GReg) (a : GSrc) (tag : BitVec 6) (md : EngMode) (s : State) : Host.Outcome State Fault Refusal := issueSeq (engine 2 d a tag md) s
/-- SCATR (R378). -/
def execScatr (d : GReg) (a : GSrc) (tag : BitVec 6) (md : EngMode) (s : State) : Host.Outcome State Fault Refusal := issueSeq (engine 3 d a tag md) s
/-- EMBAG (R379). -/
def execEmbag (d : GReg) (a : GSrc) (tag : BitVec 6) (md : EngMode) (s : State) : Host.Outcome State Fault Refusal := issueSeq (engine 4 d a tag md) s
/-- COLL (R380). -/
def execColl (d : GReg) (a : GSrc) (tag : BitVec 6) (md : EngMode) (s : State) : Host.Outcome State Fault Refusal := issueSeq (engine 5 d a tag md) s

/-! ## Doorbells (R395) -/

/-- The mode of a doorbell; none for the code that R373 makes illegal. -/
def bellMode (e : Word) : Option EngMode :=
  match fld e 57 2 with
  | 0 => some .none
  | 1 => some .ui
  | 2 => some (.arr (Fin.ofNat 8 (fld e 59 3)))
  | _ => none

/-- The parameter block of a doorbell, read as a load of its writer context; none where it cannot be read. Or the translation that it waits for. -/
def State.bellBlock (s : State) (k x : Nat) (a : Nat) : Except (Nat × Nat × Nat) (Option Record × State) :=
  if a % 64 ≠ 0 then .ok (none, s)
  else
    let t := s.ctx k (cix x)
    match s.placesEv 2 k t.asid t.priv { va := w64 a, n := 64, kind := 0, wr := false } with
    | .error w => .error w
    | .ok (.error _, s) => .ok (none, s)
    | .ok (.ok ps, s) => .ok (match s.loadPlaces k ps with
      | ((_, true), s) => (none, s)
      | ((y, false), s) => (some (recordOf y), s))

/-- A doorbell that is refused: its tag stays Idle and CPYST reads cause 0x27 (R395). -/
def State.bellRefused (s : State) (k tag : Nat) : State := s.modTag k tag fun t => { t with cause := 0x27, resid := 0, flags := 0 }

/-- The oldest entry of a doorbell queue has been taken. -/
def State.bellTaken (s : State) (k : Nat) (qi : Fin 16) : State :=
  (s.modCore k fun c => { c with qs := c.qs.set qi { c.qs[qi] with ents := c.qs[qi].ents.drop 1 } }).ringBells k

/-- Whether a doorbell names a command that its issue refuses with status 2 (R374, R395). -/
def Cmd.bellBad (c : Cmd) (e : Word) (k n : Nat) : Bool :=
  decide (6 ≤ c.sel) || fld e 62 2 != 0 || (c.sel == 5 && fld e 57 2 == 2) || (fld e 57 2 != 2 && fld e 59 3 != 0) || !c.ok (logical k) n

/-- The command of a doorbell of queue qi starts as if the writer context had issued it, is refused, or waits (R395). -/
def State.ringCmd (s : State) (k : Nat) (qi : Fin 16) (e : Word) (c : Cmd) : State :=
  match s.bagIndices (some 2) k c with
  | .error f => (s.unitWait .engineDoorbell f).getD s
  | .ok n =>
    if c.bellBad e k n.1 then (s.bellRefused k c.tag).bellTaken k qi
    else
      let src := c.srcExt n.1
      let dst := c.dstExt (logical k)
      if s.canStart k c.ctx c src dst then (s.startCmd k c.tag c src dst n.2).bellTaken k qi else s.post ⟨.engineDoorbell, [k, qi.val]⟩

/-- ENGINE_DOORBELL (R395): the oldest entry is issued as if the writer context had issued it, once its tag is Idle. -/
def execEngineDoorbell (s : State) : Host.Outcome State Fault Refusal :=
  event (fun s =>
    let k := s.arg 0
    let qi : Fin 16 := Fin.ofNat 16 (s.arg 1)
    let q := (s.core k).qs[qi]
    match q.kind, q.ents with
    | 2, e :: _ =>
      let tag := fld e 51 6
      if (s.tag k tag).st ≠ .idle then s
      else match bellMode e with
        | none => (s.bellRefused k tag).bellTaken k qi
        | some md => match s.bellBlock k q.writer (fld e 0 48) with
          | .error w => s.again .engineDoorbell w
          | .ok (none, s) => (s.bellRefused k tag).bellTaken k qi
          | .ok (some blk, s) =>
            let t := s.ctx k (cix q.writer)
            s.ringCmd k qi e ⟨fld e 48 3, q.writer, t.asid, t.priv, blk, md, tag⟩
    | _, _ => s) s

/-! ## Completion (R384 to R386) -/

/-- The scope of a level or of CTRL.VIS: 0 CORE to 5 POD (R375, R388). -/
def scopeOf (n : Nat) : Scope := [Scope.core, .oct, .clu, .die, .mod, .pod].getD n .pod

/-- The scope at which VIS of a command acquires (R202): its VIS scope, or for COLL the level of its channel. -/
def State.visScope (s : State) (k : Nat) (o : Option Cmd) : Scope := match o with
  | none => .core
  | some c => scopeOf (if c.sel = 5 then (s.core k).chans[Fin.ofNat 8 c.cchan].level else c.vis)

/-- CPYWAIT (R384): a return of 0 on VIS is an acquire (R202). -/
def execCpywait (d : GReg) (tag : BitVec 6) (vis : Bool) (s : State) : Host.Outcome State Fault Refusal :=
  issueSeq (do
    ready [dG d]
    let s ← getS
    let t := s.tag s.act tag.toNat
    match t.st with
    | .stopped => wrG d 1
    | .busy => wait
    | .srcDone => if vis then wait else wrG d 0
    | .idle => do
      wrG d 0
      if vis then acquire (s.visScope s.act t.cmd) else pure ()) s

/-- The status word of CPYST (R385). -/
def Tag.word (t : Tag) : Word :=
  let st := match t.st with
    | .idle => 0
    | .busy => 1
    | .srcDone => 2
    | .stopped => 3
  let cause := if t.st = .stopped ∨ (t.st = .idle ∧ t.cause = 0x27) then t.cause else 0
  w64 ((if t.st = .idle then 0 else t.resid % 2 ^ 32) * 2 ^ 32 + cause * 2 ^ 24 + t.flags.toNat * 2 ^ 16 + st)

/-- CPYST (R385). -/
def execCpyst (d : GReg) (tag : BitVec 6) (s : State) : Host.Outcome State Fault Refusal :=
  issueSeq (do
    ready [dG d]
    let s ← getS
    produce (s.cyc s.act 1) [.g d (s.tag s.act tag.toNat).word] 0 none) s

/-- A COLL that is resumed after a mismatch ends: its phase is complete for this core (R473). -/
def State.endColl (s : State) (k tag : Nat) (c : Cmd) : State :=
  let ch := Fin.ofNat 8 c.cchan
  let b := (s.core k).chans[ch]
  match b.colls.find? (·.2.2 == tag) with
  | none => s
  | some e => s.modCore k fun y => { y with chans := y.chans.set ch { b with colls := b.colls.erase e }.settle }

/-- A Stopped command continues (R473). -/
def State.resume (s : State) (k tag : Nat) (c : Cmd) : State :=
  let t := s.tag k tag
  if t.cause = 0x25 then
    (((s.endColl k tag c).setTag k tag .srcDone).modTag k tag fun t => { t with cause := 0 }).postMore ⟨.copyVisEvent, [k, tag]⟩
  else
    let skip := t.cause = 0x23 ∨ t.cause = 0x24 ∨ t.cause = 0x26
    let n := (((c.units.drop t.done).head?).map EUnit.size).getD 0
    ((s.setTag k tag .busy).modTag k tag fun t => { t with
      cause := 0, done := if skip then t.done + 1 else t.done, skipped := if skip then t.skipped ++ [t.done] else t.skipped, resid := if skip then t.resid - n else t.resid }).postMore ⟨.copySrcEvent, [k, tag]⟩

/-- CPYRES (R386, R473). -/
def execCpyres (d : GReg) (tag : BitVec 6) (s : State) : Host.Outcome State Fault Refusal :=
  issueSeq (do
    needPriv 1
    ready [dG d]
    let s ← getS
    let t := s.tag s.act tag.toNat
    match t.st, t.cmd with
    | .stopped, some c => do
      wrG d 0
      modS fun s => s.resume s.act tag.toNat c
    | _, _ => wrG d 1) s

end Sys2Proof.Machine
end

