-- ==== Sys2Proof/Machine/Barriers.lean ====
section
/-!
DEFINITION. Halyard channels: OP 0x7A (R388 to R392), the completion of a phase (R60, R388) and the reduction of a COLL (R380).
-/

namespace Sys2Proof.Machine

/-! ## Phases (R60, R388) -/

/-- Whether a member has arrived in the phase that has not completed. -/
def State.arrived (s : State) (lvl ch : Nat) (m : Nat × Nat) : Bool :=
  let b := s.chan m.1 ch
  b.level == lvl && decide (b.done + b.spent < b.arrivals m.2)

/-- The arrivals that complete a phase now; none while a member is missing (R60, R388). -/
def State.phaseOf (s : State) (k ch : Nat) : Option (List (Nat × Nat)) :=
  let b := s.chan k ch
  let ms := s.members k ch
  let here := ms.filter (s.arrived b.level ch)
  if b.level < 3 then if here.length = ms.length ∧ here ≠ [] then some here else none
  else if b.count ≤ here.length ∧ here ≠ [] then some here else none

/-- The COLL command, with its core and tag, that is a member's arrival in the phase that has not completed. -/
def State.collOf (s : State) (ch : Nat) (m : Nat × Nat) : Option (Nat × Nat × Cmd) :=
  let b := s.chan m.1 ch
  match b.colls.find? fun e => e.1 == m.2 && e.2.1 == b.done + b.spent + 1 with
  | none => none
  | some e =>
    let t := s.tag m.1 e.2.2
    if t.st = .idle then none else t.cmd.map fun c => (m.1, e.2.2, c)

/-- The operation, bytes and data of the COLL that is the arrival of a member on another device in the phase that has not completed (R425). -/
def State.farColl (s : State) (ch : Nat) (m : Nat × Nat) : Option (Nat × Nat × List Nat) :=
  let b := s.chan m.1 ch
  (b.far.find? fun e => e.1 == m.2 && e.2.1 == b.done + b.spent + 1).map (·.2.2)

/-- A phase of a channel completes: for its core at once, or, while the core sleeps or an earlier phase is still to end for it, behind that. -/
def Chan.endPhase (b : Chan) (now : Bool) : Chan :=
  let n := b.done + b.spent + 1
  let b := { b with colls := b.colls.filter (·.2.1 != n), far := b.far.filter (·.2.1 != n) }
  if now && b.spent == 0 then { b with done := n } else { b with spent := b.spent + 1 }

/-- Change a channel of a core. -/
def State.modChan (s : State) (k ch : Nat) (f : Chan → Chan) : State :=
  s.modCore k fun c => { c with chans := c.chans.set (Fin.ofNat 8 ch) (f c.chans[Fin.ofNat 8 ch]) }

/-- One phase of a channel of a core completes, and contexts in WFI see it (R416). A core that sleeps wakes, and sees it after its exit latency (R257). -/
def State.phaseDone (s : State) (k ch : Nat) : State :=
  if (s.core k).asleep then ((s.wakeUp k).modChan k ch (·.endPhase false)).postIn ((s.core k).waking - s.time + s.exitLatency k) ⟨.barrierPhaseComplete, [k, ch % 8 + 8]⟩
  else (s.modChan k ch (·.endPhase true)).wake k fun _ => true

/-- A core that has woken sees the phases that ended while it slept (R257). -/
def State.phaseSeen (s : State) (k ch : Nat) : State :=
  if (s.core k).asleep then s.postMore ⟨.barrierPhaseComplete, [k, ch % 8 + 8]⟩ else (s.modChan k ch Chan.settle).wake k fun _ => true

/-- An arrival of a member on another device reaches a pod-level channel of core k as a message of the fabric (R425): a plain one, or a COLL with its operation, bytes and data. -/
def State.farArrival (s : State) (k ch m : Nat) (coll : List Nat) : State :=
  if (s.chan k ch).level ≠ 5 ∨ m = 0 then s
  else
    let s := s.modChan k ch fun b =>
      let n := b.arrivals m + 1
      { b with arr := sset b.arr m n, far := match coll with
          | o :: bytes :: ws => if o = 0 then b.far else b.far ++ [(m, n, o - 1, bytes, ws)]
          | _ => b.far }
    ((s.members k ch).foldl (fun s m => s.wakeUp m.1) s).postIn (barrierDelay 5) ⟨.barrierPhaseComplete, [k, ch % 8]⟩

/-! ## COLL (R380) -/

/-- One reduction: operator and element type of an OP (R380). -/
def collOp (n : Nat) : UOp × UType :=
  ([(.add, .f32), (.add, .i64), (.min, .f32), (.max, .f32), (.min, .i64), (.max, .i64)] : List (UOp × UType)).getD n (.add, .i64)

/-- The reduction of one element over every arrival (R380, R165, R166). -/
def collElem (op : UOp) (ty : UType) (xs : List Nat) : Nat :=
  match xs with
  | [] => 0
  | x :: t =>
    let e := t.foldl (fun e y => entAdd op ty e y 0 0 0) (entNew op ty x 0 0 0)
    if ty = .f32 then if op = .add then exactApply 0 e else if e.hasNum then e.val else 0x7FC00000
    else e.val

/-- The result of a COLL: the doublewords of every arrival reduced element by element. -/
def collResult (op : Nat) (bytes : Nat) (srcs : List (List Nat)) : Nat :=
  let (o, ty) := collOp op
  let n := ty.bytes
  packLanes (8 * n) ((List.range (bytes / n)).map fun i =>
    collElem o ty (srcs.map fun (ws : List Nat) => if n = 8 then ws.getD i 0 else bits (ws.getD (i / 2) 0) (32 * (i % 2)) 32))

/-- Whether the commands of a phase agree: one for each arrival, those of other devices among them, with one OP and BYTES (R380, R425). -/
def collsAgree (n : Nat) (cs : List (Nat × Nat × Cmd)) (fs : List (Nat × Nat × List Nat)) : Bool :=
  let shapes := (cs.map fun c => (c.2.2.cop, c.2.2.cbytes)) ++ fs.map fun f => (f.1, f.2.1)
  decide (shapes.length = n) && shapes.all fun c => shapes.head? == some c

/-- A mismatch: every COLL of the phase stops with 0x25, and the phase has ended for its core when it is resumed; for the members that are none it completes now (R380, R473). -/
def State.collMismatch (s : State) (ch : Nat) (here : List (Nat × Nat)) (cs : List (Nat × Nat × Cmd)) : State :=
  let s := cs.foldl (fun s c => if (s.tag c.1 c.2.1).st = .stopped then s else s.stopTag c.1 c.2.1 c.2.2 (0x25, 0, c.2.2.blk[0])) s
  (here.map (·.1)).eraseDups.foldl (fun s j => if cs.any fun c => c.1 == j then s.modChan j ch fun b => { b with spent := b.spent + 1 } else s.phaseDone j ch) s

/-- The fault that the destination of a COLL would meet now, or what its writes wait for. -/
def State.collBlocked (s : State) (c : Nat × Nat × Cmd) : Option CopyFail := (State.engCheck c.1 c.2.2 (linePieces c.2.2.blk[1].toNat c.2.2.cbytes) s).1

/-- A destination that is a fault now, or waited for, with its command. -/
def State.collStop (s : State) (cs : List (Nat × Nat × Cmd)) : Option (Nat × Nat × CopyFail) := cs.findSome? fun c => (s.collBlocked c).map fun f => (c.1, c.2.1, f)

/-- The doublewords of n bytes. -/
def dwords (n x : Nat) : List Nat := (List.range (n / 8)).map fun i => bits x (64 * i) 64

/-- A phase of COLLs whose sources have been read: every destination is written, and every VIS fires (R380). A destination that has become unwritable stops its command
first. -/
def State.collFinish (s : State) (ch : Nat) (here : List (Nat × Nat)) (cs : List (Nat × Nat × Cmd)) (fs : List (Nat × Nat × List Nat)) : State :=
  match s.collStop cs with
  | some (j, tag, f) => (s.unitWait .barrierPhaseComplete f).getD
      ((s.setTag j tag .busy).modTag j tag (fun t => { t with done := 0 }) |>.post ⟨.copySrcEvent, [j, tag]⟩)
  | none =>
    let read := fun (c : Nat × Nat × Cmd) => kept (s.tag c.1 c.2.1).src c.2.2.blk[0].toNat c.2.2.cbytes
    let srcs := (cs.filterMap fun c => (read c).map (dwords c.2.2.cbytes)) ++ fs.map (·.2.2)
    let s := cs.foldl (fun s c => if (read c).isNone then s
      else State.engWrites c.1 c.2.2 (linePieces c.2.2.blk[1].toNat c.2.2.cbytes) (collResult c.2.2.cop c.2.2.cbytes srcs) s) s
    let s := cs.foldl (fun s c => s.visFire c.1 c.2.1) s
    (here.map (·.1)).eraseDups.foldl (fun s j => s.phaseDone j ch) s

/-- The phase of channel ch of core k completes when every member has arrived, and a COLL's when every source has been read (R380, R388). -/
def State.checkPhase (s : State) (k ch : Nat) : State :=
  match s.phaseOf k ch with
  | none => s
  | some here =>
    let again := fun (s : State) => s.post ⟨.barrierPhaseComplete, [k, ch]⟩
    let cs := here.filterMap (s.collOf ch)
    let fs := here.filterMap (s.farColl ch)
    if cs.isEmpty then again ((here.map (·.1)).eraseDups.foldl (fun s j => s.phaseDone j ch) s)
    else if !collsAgree here.length cs fs then s.collMismatch ch here cs
    else if cs.all fun c => (s.tag c.1 c.2.1).st == .srcDone then again (s.collFinish ch here cs fs)
    else s

/-- BARRIER_PHASE_COMPLETE (R60, R388, R389). Operands: the core, and the channel; its number plus 8 where a core that slept sees the phases that have ended, and plus 16 where a message of the
fabric brings an arrival of another device (R425), with its member and, for a COLL, its operation plus 1, its bytes and its doublewords behind it (log entry 64). -/
def execBarrierPhaseComplete (s : State) : Host.Outcome State Fault Refusal :=
  event (fun s =>
    let k := s.arg 0
    let ch := s.arg 1
    if ch < 8 then s.checkPhase k ch
    else if ch < 16 then s.phaseSeen k (ch - 8)
    else s.farArrival k (ch - 16) (s.arg 2) (s.ev.drop 3)) s

/-! ## Instructions (R388 to R392) -/

/-- A release at the level of a channel, for an arrival on it (R202). While it is waited for, the arrival is known to be still to be made (R465). -/
def releaseAt (ch : BReg) (b : Chan) : X Unit := do
  let s ← getS
  let t ← cx
  if t.ldnm || s.pairsOut s.act s.actx.val then do
    modCx fun t => { t with prog := .barr ch.val }
    waitKeep
  else release (scopeOf b.level)

/-- Wait while two arrivals of the context's member are outstanding (R389). -/
def roomToArrive (ch : BReg) : X Unit := do
  let c ← co
  let s ← getS
  waitUnless (decide (c.outstanding ch.val s.actx.val < 2))

/-- The arrival of the issuing context. -/
def arriveNow (ch : BReg) : X Unit := do
  let c ← co
  modS fun s => s.arrive s.act ch.val (c.chans[ch].member s.actx.val)

/-- BARR (R389). -/
def execBarr (d : BReg) (s : State) : Host.Outcome State Fault Refusal :=
  issueSeq (do
    roomToArrive d
    let c ← co
    releaseAt d c.chans[d]
    arriveNow d) s

/-- BWAIT (R390). -/
def execBwait (d : BReg) (s : State) : Host.Outcome State Fault Refusal :=
  issueSeq (do
    let c ← co
    let s ← getS
    waitUnless (c.outstanding d.val s.actx.val == 0)
    acquire (scopeOf c.chans[d].level)) s

/-- BARRD (R391, R210): the release is performed at issue, the arrival when every named tag has fired VIS. -/
def execBarrd (d : BReg) (a : GSrc) (s : State) : Host.Outcome State Fault Refusal :=
  issueSeq (do
    ready [a.op 0]
    let x ← rdG a.r
    roomToArrive d
    let c ← co
    popLocks [.g a.r]
    releaseAt d c.chans[d]
    let s ← getS
    let tags := (List.range 64).filter fun i => bit x i && c.tags[Fin.ofNat 64 i].st != .idle
    if tags.isEmpty then arriveNow d
    else modCo fun y => { y with deferred := y.deferred ++ [⟨d.val, c.chans[d].member s.actx.val, tags⟩] }
    pops [.g a.r]) s

/-- BWANY (R392). -/
def execBwany (d : GReg) (a : GSrc) (s : State) : Host.Outcome State Fault Refusal :=
  issueSeq (do
    ready [a.op 0, dG d]
    let x ← rdG a.r
    let c ← co
    let s ← getS
    if fld x 0 8 = 0 then do
      wrG d (BitVec.allOnes 64)
      pops [.g a.r]
    else match ((List.range 8).map fun i => (c.bptr.toNat + i) % 8).find? fun i => bit x i && c.outstanding i s.actx.val == 0 with
      | none => wait
      | some i => do
        wrG d (w64 i)
        modCo fun y => { y with bptr := BitVec.ofNat 3 (i + 1) }
        pops [.g a.r]
        acquire (scopeOf c.chans[Fin.ofNat 8 i].level)) s

/-- Whether a domain descriptor is legal (R388). -/
def domainOk (d0 : Word) (m : Nat) : Bool :=
  let lvl := fld d0 0 3
  decide (lvl ≤ 5) && fld d0 3 13 == 0 &&
  (if lvl = 0 then m != 0 && decide (m < 2 ^ 11) else if lvl = 1 then m != 0 && decide (m < 2 ^ 8) else if lvl = 2 then m != 0 else fld d0 32 32 != 0)

/-- BDOM (R388): arrivals pending on the channel are discarded. -/
def execBdom (d : BReg) (a : GSrc) (s : State) : Host.Outcome State Fault Refusal :=
  issueSeq (do
    needPriv 1
    ready [a.op 0]
    let x ← rdG a.r
    let ps ← check { va := x, n := 32, kind := 0, wr := false, align := 32, stk := a.r == 62 }
    let y ← loadNow x 32 ps
    let d0 := w64 (bits y 0 64)
    let m := bits y 64 192
    if domainOk d0 m then
      modCo fun c => { c with chans := c.chans.set d ⟨d0, BitVec.ofNat 192 m, [], 0, 0, [], []⟩, deferred := c.deferred.filter fun e => e.ch != d.val }
    else illegal6 6
    pops [.g a.r]) s

end Sys2Proof.Machine
end

