-- ==== Sys2Proof/Machine/Sync.lean ====
section
/-!
DEFINITION. Mutexes, semaphores, queue registers, SEND packets and the slice instructions: OP 0x7B to 0x7D but for the worklists (R393 to R399), and the delivery
of packets (R396).
-/

namespace Sys2Proof.Machine

/-! ## Mutexes and semaphores (R393, R394) -/

/-- Whether a context is the one that a waiting list serves next. -/
def servedNext (ws : List Nat) (x : Nat) : Bool := match ws.head? with
  | none => true
  | some y => y == x

/-- A context joins a waiting list at its first attempt. -/
def queueUp (ws : List Nat) (x : Nat) : List Nat := if ws.contains x then ws else ws ++ [x]

/-- MTXLK (R393). -/
def execMtxlk (n : BitVec 3) (s : State) : Host.Outcome State Fault Refusal :=
  issueSeq (do
    let c ← co
    let s ← getS
    let i : Fin 8 := Fin.ofNat 8 n.toNat
    let m := c.mtx[i]
    let x := s.actx.val
    if m.owner = some x then pure ()
    else if m.owner.isNone && servedNext m.waiters x then modCo fun c => { c with mtx := c.mtx.set i ⟨some x, m.waiters.erase x⟩ }
    else do
      modCo fun c => { c with mtx := c.mtx.set i { m with waiters := queueUp m.waiters x } }
      waitKeep) s

/-- Contexts of the issuing core in WFI see an event (R416). -/
def wakeCore (p : Fin 11 → Bool) : X Unit := modS fun s => s.wake s.act p

/-- MTXUL (R393). -/
def execMtxul (n : BitVec 3) (s : State) : Host.Outcome State Fault Refusal :=
  issueSeq (do
    let c ← co
    let s ← getS
    let i : Fin 8 := Fin.ofNat 8 n.toNat
    if c.mtx[i].owner = some s.actx.val then do
      modCo fun c => { c with mtx := c.mtx.set i { c.mtx[i] with owner := none } }
      wakeCore fun _ => true
    else pure ()) s

/-- SEMP (R394). -/
def execSemp (n : BitVec 3) (s : State) : Host.Outcome State Fault Refusal :=
  issueSeq (do
    let c ← co
    let s ← getS
    let i : Fin 8 := Fin.ofNat 8 n.toNat
    let m := c.sem[i]
    let x := s.actx.val
    if m.count ≠ 0 ∧ servedNext m.waiters x then modCo fun c => { c with sem := c.sem.set i ⟨m.count - 1, m.waiters.erase x⟩ }
    else do
      modCo fun c => { c with sem := c.sem.set i { m with waiters := queueUp m.waiters x } }
      waitKeep) s

/-- SEMV (R394): at 65,535 the count stays, and with no increment there is no event for WFI (R416). -/
def execSemv (n : BitVec 3) (s : State) : Host.Outcome State Fault Refusal :=
  issueSeq (do
    let i : Fin 8 := Fin.ofNat 8 n.toNat
    let c ← co
    if c.sem[i].count = 65535 then pure ()
    else do
      modCo fun c => { c with sem := c.sem.set i { c.sem[i] with count := c.sem[i].count + 1 } }
      wakeCore fun _ => true) s

/-! ## Queue registers (R395) -/

/-- Entries that a queue register holds (R93). -/
def queueSize : Nat := 8

/-- QCFG.SET (R395): the bits that must be 0 are ignored (log entry 16). -/
def execQcfgSet (a : GSrc) (q : BitVec 4) (s : State) : Host.Outcome State Fault Refusal :=
  issueSeq (do
    ready [a.op 0]
    let x ← rdG a.r
    modCo fun c => { c with qs := c.qs.set (Fin.ofNat 16 q.toNat) ⟨fld x 0 2, fld x 4 4, fld x 8 4, []⟩ }
    modS fun s => s.offerPackets s.act
    pops [.g a.r]) s

/-- QCFG.PUT (R395). -/
def execQcfgPut (a : GSrc) (q : BitVec 4) (s : State) : Host.Outcome State Fault Refusal :=
  issueSeq (do
    ready [a.op 0]
    let x ← rdG a.r
    let c ← co
    let s ← getS
    let i : Fin 16 := Fin.ofNat 16 q.toNat
    let y := c.qs[i]
    if (y.kind = 1 ∨ y.kind = 2) ∧ y.writer = s.actx.val then do
      waitUnless (decide (y.ents.length < queueSize))
      modCo fun c => { c with qs := c.qs.set i { y with ents := y.ents ++ [x] } }
      if y.kind = 1 then wakeCore fun z => z.val == y.reader
      else postX ⟨.engineDoorbell, [s.act, i.val]⟩
      pops [.g a.r]
    else illegal6 8) s

/-- QCFG.GET (R395). -/
def execQcfgGet (d : GReg) (q : BitVec 4) (s : State) : Host.Outcome State Fault Refusal :=
  issueSeq (do
    ready [dG d]
    let c ← co
    let s ← getS
    let i : Fin 16 := Fin.ofNat 16 q.toNat
    let y := c.qs[i]
    if (y.kind = 1 ∨ y.kind = 3) ∧ y.reader = s.actx.val then
      match y.ents with
      | [] => wait
      | e :: rest => do
        wrG d e
        modCo fun c => { c with qs := c.qs.set i { y with ents := rest } }
        modS fun s => s.offerPackets s.act
    else illegal6 8) s

/-! ## Packets (R396) -/

/-- Whether the NI of a core holds a packet that keeps context x from beginning one: one not yet delivered, or one that another context has open. -/
def State.niBusy (s : State) (k : Nat) (x : Fin 11) : Bool :=
  s.packets.any (·.1 == k) || (List.finRange 11).any fun y => y != x && (s.ctx k y).sendopen

/-- One word of a packet; `last` for SEND.E. -/
def sendWord (a b : GSrc) (last : Bool) : X Unit := do
  ready [a.op 0, b.op 1]
  let x ← rdG a.r
  let y ← rdG b.r
  let s ← getS
  let t ← cx
  let dest := (fld x 0 13, fld x 13 4)
  if t.sendopen && (t.priv != 0 || t.sendTo != dest || (t.send.length == 7 && !last)) then illegal6 10
  else do
    waitUnless (t.sendopen || !s.niBusy s.act s.actx)
    let ws := (if t.sendopen then t.send else []) ++ [y]
    if last then do
      modCx fun t => ({ t with send := [] }).setStatus 11 1 0
      modS fun s => { s with packets := s.packets ++ [(s.act, dest.1, dest.2, ws)] }.postMore ⟨.sendPacketDeliver, [s.act]⟩
    else modCx fun t => ({ t with send := ws, sendTo := dest }).setStatus 11 1 1
    pops [.g a.r, .g b.r]

/-- SEND (R396). -/
def execSend (a b : GSrc) (s : State) : Host.Outcome State Fault Refusal := issueSeq (sendWord a b false) s
/-- SEND.E (R396). -/
def execSendE (a b : GSrc) (s : State) : Host.Outcome State Fault Refusal := issueSeq (sendWord a b true) s

/-- Whether an older packet of the same die is on its way to the same core: packets of one route arrive in order (R13, R396). -/
def State.overtakes (s : State) (p : Nat × Nat × Nat × List Word) : Bool :=
  (s.packets.takeWhile (· != p)).any fun q => dieOf q.1 == dieOf p.1 && q.2.1 == p.2.1

/-- SEND_PACKET_DELIVER (R396, R464): the packet of a sender enters its target queue whole once there is room, or is discarded and recorded. A packet for a core that sleeps wakes it,
and is delivered after the exit latency (R257). -/
def execSendPacketDeliver (s : State) : Host.Outcome State Fault Refusal :=
  event (fun s =>
    match s.packets.find? (·.1 == s.arg 0) with
    | none => s
    | some p =>
      let j := p.2.1
      let i : Fin 16 := Fin.ofNat 16 p.2.2.1
      let y := (s.core j).qs[i]
      if s.overtakes p then s.postMore ⟨.sendPacketDeliver, [s.arg 0]⟩
      else if j < mizBase ∧ (s.core j).asleep = true then
        let s := s.wakeUp j
        s.postIn ((s.core j).waking - s.time) ⟨.sendPacketDeliver, [s.arg 0]⟩
      else if mizBase ≤ j ∨ y.kind ≠ 3 then { s with packets := s.packets.erase p }.schedErr (clusterOf j % 32) 2 0 0 j 0
      else if queueSize < y.ents.length + p.2.2.2.length then s
      else
        ({ s with packets := s.packets.erase p }.modCore j fun c => { c with qs := c.qs.set i { y with ents := y.ents ++ p.2.2.2 } }).wake j
          fun z => z.val == y.reader) s

/-! ## Slices (R397 to R399) -/

/-- SLICE (R397). -/
def execSlice (d : GReg) (a b : GSrc) (s : State) : Host.Outcome State Fault Refusal :=
  issueSeq (do
    ready [a.op 0, b.op 1, dG d]
    let x ← rdG a.r
    let y ← rdG b.r
    let ps ← check { va := x, n := 64, kind := 0, wr := false, align := 64, stk := a.r == 62 }
    release .mod
    let st ← getS
    let n ← loadNow x 64 ps
    holdFor (st.latencyOf st.act 0 ps)
    let r := recordOf n
    let s ← getS
    let t ← cx
    let cl := fld y 16 5
    let q := fld y 0 4
    let code := if t.priv = 0 ∧ r.asid ≠ t.asid then 5 else s.enqCode cl q r
    wrG d (0 - w64 code)
    if code = 0 then modS fun s => s.enqueue cl q r else pure ()
    pops [.g a.r, .g b.r]) s

/-- SJOIN (R398, R240). -/
def execSjoin (d : GReg) (a : GSrc) (s : State) : Host.Outcome State Fault Refusal :=
  issueSeq (do
    ready [a.op 0, dG d]
    let x ← rdG a.r
    let ps ← check { va := x, n := 8, kind := 2, wr := true, align := 128, stk := a.r == 62, home := true }
    waitPairs ps
    release .mod
    let st ← getS
    let (old, bad) ← atomic ps 8 fun y => some ((w64 y - 1).toNat)
    let t ← cx
    if !bad && old == 1 then
      match homePa ps with
      | some pa => modS fun s => s.postMore ⟨.joinContinuationEnqueue, [s.act, pa, x.toNat]⟩
      | none => modS fun s => s.postIn 1 ⟨.joinContinuationEnqueue, [s.act, 2 ^ 64 + t.asid * 4 + t.priv, x.toNat]⟩
    else pure ()
    produce (st.atomicLatency st.act ps) [.g d (w64 old)] 0 (if bad then some x else none)
    pops [.g a.r]) s

/-- YIELDS (R399): the context goes to Retiring as by RETIRE, with the continuation that the slice's end enqueues (R248). -/
def execYields (a b : GSrc) (s : State) : Host.Outcome State Fault Refusal :=
  issueLast (do
    ready [a.op 0, b.op 1]
    let x ← rdG a.r
    let y ← rdG b.r
    let st ← getS
    let t ← cx
    if st.actx ≠ 0 then illegal6 7
    else if t.sendopen then illegal6 2
    else do
      pops [.g a.r, .g b.r]
      modCx fun t => { t with st := .retiring, yields := some (x, y) }
      modCo fun c => { c with slice := c.slice.map fun sl => { sl with retired := true } }
      modS fun s => s.postMore ⟨.sliceEnd, [s.act]⟩) s

end Sys2Proof.Machine
end

