-- ==== Sys2Proof/Machine/Worklists.lean ====
section
/-!
DEFINITION. Worklists: WLAPP, WLPOP and WLQUIET of OP 0x7C (R401 to R404), the compaction units (R484 to R487) and quiescence.
-/

namespace Sys2Proof.Machine

/-! ## Lists (R401) -/

/-- A list read from its descriptor; none where EN is 0 or the descriptor cannot be read (R401, R486). -/
def State.readList (s : State) (cl n : Nat) : Option WList × State :=
  match s.homeTry (s.listAt cl n) 32 with
  | (none, s) => (none, s)
  | (some d, s) =>
    (if bits d 192 1 = 0 then none
     else some ⟨bits d 0 64, bits d 96 12, bits d 64 5, bits d 197 3, bits d 128 32, bits d 160 32, []⟩, s)

/-- A list of a cluster: its descriptor, with HEAD, TAIL and the parked WLPOPs from the chip while the list is in use (R401). A list whose EN is found 0 is in use no longer, unless a WLPOP
is parked on it (DESIGN CHOICE, log entry 31). -/
def State.list (s : State) (cl n : Nat) : Option WList × State :=
  match s.readList cl n, sget (s.cluster cl).lists n with
  | r, none => r
  | (some d, s), some l => (some { d with head := l.head, tail := l.tail, parked := l.parked }, s)
  | (none, s), some l => (none, if l.parked.isEmpty then s.modCluster cl fun c => { c with lists := sdel c.lists n } else s)

/-- The answer of a parked WLPOP; its context issues the instruction again and finds it. -/
def State.answerPop (s : State) (list : Nat × Nat) (p : Nat × Nat × GReg × GReg) (status : Nat) (x : Word) : State :=
  s.modCtx p.1 (cix p.2.1) fun c => { c with prog := .answer status x list }

/-! ## Appends (R402, R484, R485) -/

/-- The reason for which the unit refuses an append; 0 if it accepts it (R485). -/
def WList.refuses (l : WList) : Nat := if l.size = 2 ^ l.lgcap then 1 else if l.tail = 0xFFFFFFFF then 2 else 0

/-- The list is frozen (R485). -/
def State.freeze (s : State) (cl n : Nat) (l : WList) : State :=
  let s := s.listBack cl n l
  let (f, s) := s.homeRead (s.listAt cl n + 24) 8
  let s := s.homeWrite (s.listAt cl n + 24) 8 (f / 2 * 2)
  let s := s.modCluster cl fun c => { c with lists := sdel c.lists n }
  l.parked.foldl (fun s p => s.answerPop (cl, n) p 2 0) s

/-- An accepted append (R402): the item is stored at TAIL; the oldest parked WLPOP takes it. -/
def State.append (s : State) (cl n : Nat) (l : WList) (x : Nat) : State :=
  let s := s.writeAt (unitCore cl) l.asid 1 (l.item l.tail) x
  match l.parked with
  | p :: rest => (s.answerPop (cl, n) p 0 (w64 x)).setList cl n { l with head := l.head + 1, tail := l.tail + 1, parked := rest }
  | [] => s.setList cl n { l with tail := l.tail + 1 }

/-- WORKLIST_APPEND_ARRIVAL (R402, R485): the operands are cluster, list, ASID, item, core and context. The stores of the core to SI pages that came before the append are visible before
the item (R197). -/
def execWorklistAppendArrival (s : State) : Host.Outcome State Fault Refusal :=
  event (fun s =>
    let cl := s.arg 0
    let n := s.arg 1
    let k := s.arg 4
    let x := cix (s.arg 5)
    let item := s.arg 3
    if (s.ctx k x).prog ≠ .wlapp then s
    else match s.list cl n with
      | (none, s) => s.modCtx k x fun c => { c with prog := .none }
      | (some l, s) =>
        if l.asid ≠ s.arg 2 then s.modCtx k x fun c => { c with prog := .none }
        else match l.refuses with
          | 0 => ((s.siFlush k).append cl n l item).modCtx k x fun c => { c with prog := .done }
          | r => (s.freeze cl n l).modCtx k x fun c => { c with prog := .wlappRefused r n }) s

/-- The list that an operand names: cluster and number (R401). -/
def listOf (x : Word) : Nat × Nat := (fld x 16 5, fld x 0 10)

/-- The list that the issuing context may use (R401); illegal 6/9 otherwise. -/
def useList (x : Word) : X WList := do
  let t ← cx
  let l ← runS fun s => s.list (listOf x).1 (listOf x).2
  match l with
  | some l => if l.asid = t.asid then pure l else illegal6 9
  | none => illegal6 9

/-- The issuing context has asked for something and waits. -/
def waitIn (p : Progress) : X Unit := do
  modCx fun t => { t with prog := p }
  waitKeep

/-- Ticks until an append reaches its unit: 24 cycles within the cluster, the remote-die latency for another die's, the L2 latency between (R484, R29; log entry 6). -/
def State.appendTicks (s : State) (k cl : Nat) : Nat := if clusterOf k = cl then s.cyc k 24 else if dieOf k = cl / 8 then 70 else 160

/-- WLAPP (R402, R484): it waits for its unit's answer; a refusal is cause 0x18 (R485). Its sources are checked before it asks, and popped when the unit has accepted (R456). -/
def execWlapp (a b : GSrc) (s : State) : Host.Outcome State Fault Refusal :=
  issueSeq (do
    let t ← cx
    match t.prog with
    | .done => [Ref.g a.r, .g b.r].eraseDups.forM popFree
    | .wlappRefused r n => trap 0x18 (w64 (r * 2 ^ 10 + n)) 0
    | .wlapp => waitKeep
    | _ => do
      ready [a.op 0, b.op 1]
      let x ← rdG a.r
      let y ← rdG b.r
      waitNode
      let _ ← useList x
      popLocks [.g a.r, .g b.r]
      modS fun s => s.postIn (s.appendTicks s.act (listOf x).1) ⟨.worklistAppendArrival, [(listOf x).1, (listOf x).2, t.asid, y.toNat, s.act, s.actx.val]⟩
      waitIn .wlapp) s

/-! ## Pops (R403) -/

/-- Take the item at HEAD: its value, and whether it is poisoned or cannot be read. -/
def State.pop (s : State) (cl n : Nat) (l : WList) : Option Nat × State :=
  let (x, s) := s.readAt (unitCore cl) l.asid 1 (l.item l.head)
  (x, s.setList cl n { l with head := l.head + 1 })

/-- WLPOP and WLPOP.NW (R403). -/
def execWlpop (d : GReg) (a : GSrc) (c : GReg) (nw : Bool) (s : State) : Host.Outcome State Fault Refusal :=
  issueSeq (do
    let t ← cx
    match t.prog with
    | .answer st y _ => do
      produce 160 (if st = 0 then [.g d y, .g c 0] else [.g c (w64 st)]) 0 none
      popFree (.g a.r)
    | .wlpop => waitKeep
    | _ => do
      ready [a.op 0, dG d, dG c]
      let x ← rdG a.r
      let l ← useList x
      let (cl, n) := listOf x
      if l.size ≠ 0 then do
        let y ← runS fun s => s.pop cl n l
        produce 160 [.g d (w64 (y.getD 0)), .g c 0] 0 (if y.isNone then some (l.item l.head) else none)
        pops [.g a.r]
      else if nw then do
        modS fun s => s.setList cl n l
        produce 160 [.g c 1] 0 none
        pops [.g a.r]
      else do
        popLocks [.g a.r]
        modS fun s => (s.setList cl n { l with parked := l.parked ++ [(s.act, s.actx.val, d, c)] }).post ⟨.worklistQuiescence, [s.act, l.chan]⟩
        waitIn .wlpop) s

/-! ## Quiescence (R404, R487) -/

/-- The cores of the domain of channel ch of core k. -/
def State.domainCores (s : State) (k ch : Nat) : List Nat := ((s.members k ch).map (·.1)).eraseDups

/-- The lists of a cluster with EN = 1 and a channel: number and list, those not on chip read from their descriptors. -/
def State.chanLists (cl ch : Nat) : Nat → State → List (Nat × WList) × State
  | 0, s => ([], s)
  | n + 1, s =>
    let (r, s) := State.chanLists cl ch n s
    match s.list cl n with
    | (some l, s) => (if l.chan = ch then (n, l) :: r else r, s)
    | (none, s) => (r, s)

/-- Lists a cluster's table holds (R401). -/
def tableSize : Nat := 1024

/-- The lists of the clusters of a domain: cluster, number, list. -/
def State.domainLists (ch : Nat) : List Nat → State → List (Nat × Nat × WList) × State
  | [], s => ([], s)
  | cl :: t, s =>
    let (r, s) := State.chanLists cl ch tableSize s
    let (rs, s) := State.domainLists ch t s
    (r.map (fun e => (cl, e.1, e.2)) ++ rs, s)

/-- Whether a core has a context parked on one of some lists or waiting in WLQUIET on a channel (R404). -/
def State.idleOn (s : State) (ls : List (Nat × Nat × WList)) (ch j : Nat) : Bool :=
  (ls.any fun l => l.2.2.parked.any fun p => p.1 == j) || (List.finRange 11).any fun x => (s.ctx j x).prog == .wlquiet ch

/-- Whether every core of a domain of die level or wider is known in this module. -/
def State.domainWhole (s : State) (k ch : Nat) : Bool :=
  let b := s.chan k ch
  decide (b.level < 3) || decide (b.count ≤ (s.sharing k ch).length)

/-- Whether quiescence holds for the lists of a domain (R404). -/
def State.quiet (s : State) (k ch : Nat) (ls : List (Nat × Nat × WList)) : Bool :=
  s.domainWhole k ch && ls.all (fun l => l.2.2.size == 0) &&
  !s.pendingEv.any (fun e => e.2.row == .worklistAppendArrival && ls.any fun l => l.1 == e.2.a.getD 0 0 && l.2.1 == e.2.a.getD 1 0) &&
  (s.domainCores k ch).all (s.idleOn ls ch)

/-- Quiescence is declared: HEAD and TAIL of every list are written back, every parked WLPOP gets status 1, and every WLQUIET completes (R404, R487). -/
def State.declareQuiet (s : State) (k ch : Nat) (ls : List (Nat × Nat × WList)) : State :=
  let s := ls.foldl (fun s l => s.listBack l.1 l.2.1 l.2.2) s
  let s := ls.foldl (fun s l => l.2.2.parked.foldl (fun s p => s.answerPop (l.1, l.2.1) p 1 0) (s.setList l.1 l.2.1 { l.2.2 with parked := [] })) s
  (s.domainCores k ch).foldl (fun s j => (List.finRange 11).foldl (fun s x =>
    if (s.ctx j x).prog == .wlquiet ch then s.modCtx j x fun c => { c with prog := .done } else s) s) s

/-- WORKLIST_QUIESCENCE (R404): checked again as long as a context of core k waits for it. -/
def execWorklistQuiescence (s : State) : Host.Outcome State Fault Refusal :=
  event (fun s =>
    let k := s.arg 0
    let ch := s.arg 1
    let (ls, s) := State.domainLists ch ((s.domainCores k ch).map clusterOf).eraseDups s
    if !s.idleOn ls ch k then s
    else if s.quiet k ch ls then s.declareQuiet k ch ls
    else s.post ⟨.worklistQuiescence, [k, ch]⟩) s

/-- WLQUIET (R404). -/
def execWlquiet (d : BReg) (s : State) : Host.Outcome State Fault Refusal :=
  issueSeq (do
    let t ← cx
    match t.prog with
    | .done => pure ()
    | .wlquiet _ => waitKeep
    | _ => do
      modS fun s => s.post ⟨.worklistQuiescence, [s.act, d.val]⟩
      waitIn (.wlquiet d.val)) s

end Sys2Proof.Machine
end

