-- ==== Sys2Proof/Machine/System.lean ====
section
/-!
DEFINITION. System forms: OP 0x7E (R407 to R416), and the end of a self-test.
-/

namespace Sys2Proof.Machine

/-! ## Entering and leaving S (R410, R411) -/

/-- TRAP (R410): its own step is made first, and the handler is entered from the state it leaves. -/
def execTrap (n : BitVec 20) (s : State) : Host.Outcome State Fault Refusal :=
  if !isMiz s.act && (s.ctx s.act s.actx).priv != 0 then issue (illegal6 11) s
  else .next ((s.finish Flow.seq).takeTrap s.act s.actx ⟨0x01, w64 n.toNat, 0, false⟩)

/-- ERET (R411): the context's own results are written first, then the image is read back; on a Mizzen core the next machine check can be taken (R457). -/
def execEret (s : State) : Host.Outcome State Fault Refusal :=
  issueLast (do
    needPriv 1
    let t ← cx
    if t.priv < t.ppriv then illegal6 11
    else do
      waitUnless t.drained
      modS fun s =>
        let s := (s.loadImage s.act s.actx t.ppriv).modCtx s.act s.actx fun c => { c with wake := s.time + s.cyc s.act 114 }
        if isMiz s.act then
          let s := s.modCore s.act fun c => { c with handling := false }
          if (s.core s.act).mcq.isEmpty then s else s.post ⟨.machineCheck, [s.act]⟩
        else s) s

/-- Not on a Mizzen core (R407). -/
def noMizzen : X Unit := do
  let s ← getS
  if isMiz s.act then illegalR 3 else pure ()

/-- UIRET (R86, R411). -/
def execUiret (s : State) : Host.Outcome State Fault Refusal :=
  issueLast (do
    noMizzen
    let t ← cx
    if !t.uiact then illegal6 11 else modS fun s => s.leaveU s.act s.actx) s

/-! ## Control registers (R77 to R87, R95, R412) -/

/-- The fields of a control register. -/
def cregFields : CReg → List Field
  | .pc | .n1 | .n2 | .anul | .qgd | .uitag | .streammap | .epoch | .time => [⟨0, 64, .ro, 0⟩]
  | .status => [⟨44, 20, .ro, 0⟩, ⟨32, 12, .rw, 1⟩, ⟨10, 22, .ro, 0⟩, ⟨9, 1, .rw, 0⟩, ⟨4, 5, .ro, 0⟩, ⟨2, 2, .rw, 1⟩, ⟨0, 2, .ro, 0⟩]
  | .ssb | .ssl => [⟨48, 16, .ro, 1⟩, ⟨4, 44, .rw, 1⟩, ⟨0, 4, .ro, 1⟩]
  | .uivec => [⟨48, 16, .ro, 0⟩, ⟨1, 47, .rw, 0⟩, ⟨0, 1, .ro, 0⟩]
  | .uicause => [⟨2, 62, .ro, 0⟩, ⟨0, 2, .rw, 0⟩]
  | .fmode => [⟨3, 61, .ro, 0⟩, ⟨0, 3, .rw, 0⟩]
  | .fflags => [⟨7, 57, .ro, 0⟩, ⟨0, 7, .rw, 0⟩]
  | .issuepol => [⟨1, 63, .ro, 1⟩, ⟨0, 1, .rw, 1⟩]
  | .greedylim => [⟨8, 56, .ro, 1⟩, ⟨0, 8, .rw, 1⟩]
  | .csap => [⟨17, 47, .ro, 1⟩, ⟨6, 11, .rw, 1⟩, ⟨0, 6, .ro, 1⟩]
  | .deleg => [⟨3, 61, .ro, 1⟩, ⟨0, 3, .rw, 1⟩]
  | .meetwin => [⟨8, 56, .ro, 1⟩, ⟨0, 8, .rw, 1⟩]

/-- The lowest level that MFCR and MTCR of a register need (R412). -/
def cregLevel : CReg → Nat
  | .ssb | .ssl | .issuepol | .greedylim | .csap | .deleg | .meetwin => 1
  | _ => 0

/-- The value of a control register with every field. Bit 0 of N1 and N2 is reserved and reads 0 (R8, R78), whatever bit the pending target keeps for R108. -/
def State.cregGet (s : State) (k : Nat) (x : Fin 11) (r : CReg) : Word :=
  let t := s.ctx k x
  let c := s.core k
  match r with
  | .pc => t.pc
  | .n1 => t.n1 &&& ~~~(1 : Word)
  | .n2 => t.n2 &&& ~~~(1 : Word)
  | .anul => w64 t.anul
  | .status => t.status
  | .qgd => t.qgd
  | .ssb => t.ssb
  | .ssl => t.ssl
  | .uivec => t.uivec
  | .uitag => t.uitag
  | .uicause => t.uicause
  | .fmode => t.fmode
  | .fflags => t.flagsNow s.time
  | .streammap => w64 t.streammap
  | .issuepol => c.issuepol
  | .greedylim => c.greedylim
  | .csap => c.csap
  | .deleg => c.deleg
  | .epoch => c.epoch
  | .meetwin => (s.cluster (clusterOf k)).meetwin
  | .time => w64 s.time

/-- MFCR (R412). -/
def execMfcr (d : GReg) (cr : CReg) (s : State) : Host.Outcome State Fault Refusal :=
  issueSeq (do
    needPriv (cregLevel cr)
    ready [dG d]
    let s ← getS
    let t ← cx
    wrG d (readFields (cregFields cr) (s.cregGet s.act s.actx cr) t.priv)) s

/-- Whether R95 and R412 refuse a new CSAP for context x of a core. -/
def Core.csapRefused (c : Core) (x : Fin 11) (y : Word) : Bool :=
  let b := y.toNat
  decide (0x20000 < b + saveArea) || (c.wins.toList.any fun o => match o with
    | some w => overlaps w.base w.len b saveArea
    | none => false) ||
  ((List.finRange 11).any fun z => z != x && ((c.ctx z).st == .stopped || ((c.ctx z).isLive && (c.ctx z).priv == 1))) || !c.cq.isEmpty

/-- A new CSAP for context x: its image is copied to the new area first (R412). -/
def Core.moveCsap (c : Core) (x : Fin 11) (y : Word) : Core :=
  let new := { c with csap := y }
  { new with spad := c.spad.writeN (new.imageAt x.val) 3456 (c.spad.readN (c.imageAt x.val) 3456) }

/-- Put the new value of a control register. -/
def State.cregPut (s : State) (k : Nat) (x : Fin 11) (r : CReg) (y : Word) : State :=
  match r with
  | .status => s.modCtx k x fun t => { t with status := y }
  | .ssb => s.modCtx k x fun t => { t with ssb := y }
  | .ssl => s.modCtx k x fun t => { t with ssl := y }
  | .uivec => s.modCtx k x fun t => { t with uivec := y }
  | .uicause => s.modCtx k x fun t => { t with uicause := y }
  | .fmode => s.modCtx k x fun t => { t with fmode := y }
  | .fflags => s.modCtx k x fun t => t.putFlags s.time y
  | .issuepol => s.modCore k fun c => { c with issuepol := y }
  | .greedylim => s.modCore k fun c => { c with greedylim := y }
  | .csap => s.modCore k fun c => c.moveCsap x y
  | .deleg => s.modCore k fun c => { c with deleg := y }
  | .meetwin => s.modCluster (clusterOf k) fun c => { c with meetwin := y }
  | .pc | .n1 | .n2 | .anul | .qgd | .uitag | .streammap | .epoch | .time => s

/-- MTCR (R412). -/
def execMtcr (a : GSrc) (cr : CReg) (s : State) : Host.Outcome State Fault Refusal :=
  issueSeq (do
    if !cr.writable then illegalR 3 else pure ()
    needPriv (cregLevel cr)
    ready [a.op 0]
    let x ← rdG a.r
    let s ← getS
    let t ← cx
    let c ← co
    let old := s.cregGet s.act s.actx cr
    if refuses (cregFields cr) old x t.priv then privTrap
    else
      let y := writeFields (cregFields cr) old x t.priv
      if cr = .status ∧ fld y 2 2 = 3 then illegal6 11
      else if cr = .csap ∧ c.csapRefused s.actx y = true then illegal6 11
      else do
        modS fun s => s.cregPut s.act s.actx cr y
        pops [.g a.r]) s

/-! ## Translations (R413) -/

/-- The common part of the forms: a release at MOD scope, a wait for the operations of R413, and the ticks until every cluster has answered. -/
def tlbPrepare (p : Nat → Nat → Bool) : X Unit := do
  release .mod
  let s ← getS
  waitUnless (!s.keepsPage p)
  holdFor tlbInvTicks

/-- TLBINV.PAGE (R413). -/
def execTlbinvPage (d : GReg) (a : GSrc) (s : State) : Host.Outcome State Fault Refusal :=
  issueSeq (do
    needPriv 1
    ready [a.op 0, sG d]
    let asid ← rdG d
    let va ← rdG a.r
    let s ← getS
    tlbPrepare (s.covered (fld asid 0 12) va.toNat 1)
    modS fun s => s.tlbInvRange (fld asid 0 12) va.toNat 1
    pops [.g d, .g a.r]) s

/-- TLBINV.ASID (R413). -/
def execTlbinvAsid (d : GReg) (s : State) : Host.Outcome State Fault Refusal :=
  issueSeq (do
    needPriv 1
    ready [sG d]
    let asid ← rdG d
    let n := fld asid 0 12
    tlbPrepare fun i _ => i == n
    modS fun s => s.tlbInv (fun t => t.asid == n) (fun i => i == n) fun i _ => i == n
    pops [.g d]) s

/-- TLBINV.ALL (R413). -/
def execTlbinvAll (s : State) : Host.Outcome State Fault Refusal :=
  issueSeq (do
    needPriv 1
    tlbPrepare fun _ _ => true
    modS fun s => s.tlbInv (fun _ => true) (fun _ => true) fun _ _ => true) s

/-! ## Stopping and restarting contexts (R414) -/

/-- The status that CSAVE gives at once; none where it waits for the stop. A context in the wait of YIELDS can be stopped (R405). -/
def csaveStatus (s : State) (c : Nat) : Option Nat :=
  let t := s.ctx s.act (cix c)
  if 11 ≤ c ∨ c = s.actx.val ∨ t.st = .free then some 1
  else if t.st = .stopped then some 2
  else if t.priv ≠ 0 ∨ t.entering.isSome then some 3
  else if t.st = .retiring ∧ t.yields.isNone then some 4
  else none

/-- CSAVE (R414). It ends a WFI of the context that it names (R416), which takes its issue; the context stops after it, or, where a stop is deferred, goes on until it can (R48, R405). -/
def execCsave (d : GReg) (a : GSrc) (s : State) : Host.Outcome State Fault Refusal :=
  issueSeq (do
    noMizzen
    needPriv 1
    ready [a.op 0, dG d]
    let x ← rdG a.r
    let t ← cx
    let s ← getS
    match t.prog with
    | .csave c =>
      if (s.ctx s.act (cix c)).st = .stopped then waitIn (.saving (s.time + s.cyc s.act 108))
      else match csaveStatus s c with
        | some 3 => waitKeep
        | some n => do
          wrG d (w64 n)
          pops [.g a.r]
        | none => waitKeep
    | .saving n =>
      if n ≤ s.time then do
        wrG d 0
        pops [.g a.r]
      else waitKeep
    | _ =>
      let c := fld x 0 4
      match csaveStatus s c with
      | some n => do
        wrG d (w64 n)
        pops [.g a.r]
      | none => do
        modS fun s => s.modCtx s.act (cix c) fun t =>
          let t : Ctx := { t with stopReq := true, st := if t.st = .retiring then .live else t.st, yields := if t.st = .retiring then none else t.yields }
          t.endWfi
        waitIn (.csave c)) s

/-- CRSTR (R414). -/
def execCrstr (d : GReg) (a : GSrc) (s : State) : Host.Outcome State Fault Refusal :=
  issueSeq (do
    noMizzen
    needPriv 1
    ready [a.op 0, dG d]
    let x ← rdG a.r
    let t ← cx
    let s ← getS
    match t.prog with
    | .done => do
      wrG d 0
      pops [.g a.r]
    | .crstr _ => waitKeep
    | _ =>
      let c := fld x 0 4
      if 11 ≤ c ∨ (s.ctx s.act (cix c)).st ≠ .stopped then do
        wrG d 1
        pops [.g a.r]
      else do
        modS fun s => s.postMore ⟨.contextRestoreComplete, [s.act, c]⟩
        waitIn (.crstr c)) s

/-! ## Self-test and waiting (R415, R416) -/

/-- The result that BIST gives without a test: 3 for an illegal descriptor, 2 for a busy target (R415). -/
def State.bistRefused (s : State) (x : Word) : Option Nat :=
  let target := fld x 2 13
  let kind := fld x 0 2
  if fld x 15 49 ≠ 0 then some 3
  else if kind = 2 then
    if 256 ≤ target then some 3
    else if (s.cluster (target / 8)).idle = .c3 then none else some 2
  else if mizBase ≤ target then some 3
  else if (s.core target).isIdle then none else some 2

/-- The pages whose bin home is a slice are applied one after another (R234, R415). -/
def State.applySlice (s : State) (d sl : Nat) : State := (s.pagesAt d sl).foldl (fun s p => s.applyPage p.1) s

/-- A test of a slice begins: its Pending pages have been applied, its lines leave the slice, and what comes to it waits (R415). -/
def State.testSlice (s : State) (d sl n : Nat) : State :=
  (s.applySlice d sl).modDie d fun y => { y with l2 := sdel y.l2 sl, tests := sset y.tests sl (s.time + n) }

/-- Cycles of a test by its kind: 300 µs, 100 µs, 5 ms and 2 ms (R415). -/
def bistCycles : Nat → Nat
  | 0 => 675000
  | 1 => 225000
  | 2 => 11250000
  | _ => 4500000

/-- BIST (R415). -/
def execBist (d : GReg) (a : GSrc) (s : State) : Host.Outcome State Fault Refusal :=
  issueSeq (do
    needPriv 2
    ready [a.op 0, dG d]
    let x ← rdG a.r
    let t ← cx
    let s ← getS
    match t.prog with
    | .bistDone y => do
      wrG d y
      pops [.g a.r]
    | .bist => waitKeep
    | _ => match s.bistRefused x with
      | some n => do
        wrG d (w64 n)
        pops [.g a.r]
      | none => do
        let target := fld x 2 13
        modS fun s => if fld x 0 2 = 2 then s.testSlice (target / 64) (target % 64) (bistCycles 2) else s.modCore target fun c => { c with testing := true }
        modS fun s => s.postIn (bistCycles (fld x 0 2)) ⟨.bistComplete, [s.act, x.toNat]⟩
        waitIn .bist) s

/-- A scratchpad whose contents are lost: every byte is a free value (R415). -/
def lostSpad (seed : Nat) : Memory := (List.range 0x20000).foldl (fun m a => m.write a ((Config.freeWord (seed + a)).setWidth 8)) []

/-- The result of a test (R415): pass, or a failure whose address and rows are free values. -/
def bistResult (r : Word) : Word := if bit r 0 then putBits (putBits r 2 14 0) 0 2 1 else 0

/-! ## The fused defect map (R434, R493) -/

/-- The entries of the map: fused at shipment, then added by the firmware. -/
def State.defects (s : State) : List Word := Config.defectMap ++ s.fieldMap

/-- Field entries that can be fused, and entries that the map holds (R434). -/
def fieldRoom : Nat := 64
/-- Entries of the map. -/
def mapRoom : Nat := 512

/-- An entry added by the firmware: beyond 64, or beyond the 512 of the map, nothing is recorded (R434, R493). -/
def State.addField (s : State) (e : Nat) : State :=
  if (s.defects.filter fun w => bit w 59).length < fieldRoom ∧ s.defects.length < mapRoom then { s with fieldMap := s.fieldMap ++ [w64 (e + 2 ^ 59)] } else s

/-- The KIND 1 entry of a core: die, cluster, triad and site (R434). -/
def coreEntry (k : Nat) : Nat :=
  2 ^ 60 + dieOf k * 2 ^ 56 + clusterOf k % 8 * 2 ^ 53 + logical k / 24 * 2 ^ 50 + logical k % 24 * 2 ^ 45

/-- Whether the spare of a core's triad is in use or disabled: an entry of KIND 1 names its triad (R434). -/
def State.spareGone (s : State) (k : Nat) : Bool := s.defects.any fun w => fld w 60 4 == 1 && fld w 50 9 % 256 == coreEntry k / 2 ^ 50 % 256

/-- The field entries of a test that failed (R493): a core, or the failing rows of an L2 slice, which are free values. -/
def State.addTest (s : State) (kind target fails : Nat) : State :=
  if kind ≠ 2 then if s.spareGone target then s else s.addField (coreEntry target)
  else
    let used := (s.defects.filter fun w => fld w 60 4 == 2 && fld w 56 2 == target / 64 && fld w 50 6 == target % 64).length
    if 16 < used + fails then s
    else (List.range fails).foldl (fun s i =>
      s.freshen.addField (2 * 2 ^ 60 + target / 64 * 2 ^ 56 + target % 64 * 2 ^ 50 + fld (Config.freeWord s.fresh) 0 16 * 2 ^ 34 + (used + i) * 2 ^ 30)) s

/-- BIST_COMPLETE (R415): operands the Mizzen core and the descriptor. The contents tested are lost. -/
def execBistComplete (s : State) : Host.Outcome State Fault Refusal :=
  event (fun s =>
    let mz := s.arg 0
    let x := w64 (s.arg 1)
    if (s.ctx mz 0).prog ≠ .bist then s
    else
      let y := bistResult (Config.freeWord s.fresh)
      let s := { s with fresh := s.fresh + 1 }
      let target := fld x 2 13
      let here := (s.core target).l1.map (·.1)
      let s := if fld x 0 2 = 1 then s.loseCopies target fun y => here.contains y.w else s
      let s := if fld x 0 2 = 2 then s.modDie (target / 64) fun y => { y with tests := sdel y.tests (target % 64) }
        else s.modCore target fun c =>
          let c := { c with testing := false }
          if fld x 0 2 = 0 then { c with spad := lostSpad s.fresh, spoison := [] } else if fld x 0 2 = 1 then { c with l1 := [], l1sets := [], icache := [] } else c
      let s := if fld y 0 2 = 1 then { s with fresh := s.fresh + 0x20000 }.addTest (fld x 0 2) target (fld y 16 16) else { s with fresh := s.fresh + 0x20000 }
      s.modCtx mz 0 fun c => { c with prog := .bistDone y }) s

/-- WFI (R416). -/
def execWfi (s : State) : Host.Outcome State Fault Refusal :=
  issueSeq (do
    noMizzen
    let t ← cx
    match t.prog with
    | .done => pure ()
    | .wfi => waitKeep
    | _ => if t.cpyiQ.isEmpty then waitIn .wfi else pure ()) s

end Sys2Proof.Machine
end

