-- ==== Sys2Proof/Machine/Placement.lean ====
section
/-!
DEFINITION. The cluster dispatcher and the gang arbiter (R241 to R253, R466, R469), the energy window (R250, R251, R490), launch packets and residency reports
(R258, R259, R427).
-/

namespace Sys2Proof.Machine

/-! ## Keys (R243) -/

/-- DEADLINE of a record without one (R237). -/
def noDeadline : Nat := 2 ^ 64 - 1

/-- overdue(r) (R243). -/
def Record.overdue (r : Record) (time : Nat) : Bool := r.deadline != noDeadline && decide (r.deadline < time)

/-- urgent (R243): overdue, or due within the horizon of URGENCY. -/
def Record.urgent (r : Record) (time horizon : Nat) : Bool := r.deadline != noDeadline && decide (r.deadline ≤ time + horizon)

/-- The sort key of a record of queue q (R243). -/
def Record.key (r : Record) (time q : Nat) : List Nat := [if r.overdue time then 0 else 1, r.cls, r.deadline, q, r.seq]

/-- Lexicographic order of keys. -/
def keyLt : List Nat → List Nat → Bool
  | [], [] => false
  | [], _ :: _ => true
  | _ :: _, [] => false
  | a :: s, b :: t => decide (a < b) || (a == b && keyLt s t)

/-- A candidate: its key, its cluster, its queue, its record. -/
structure Cand where
  key : List Nat
  cl : Nat
  q : Nat
  rec_ : Record
  deriving DecidableEq, Repr

/-- Insert a candidate into a sorted list; on equal keys the lower cluster comes first (R252). -/
def Cand.insert (c : Cand) : List Cand → List Cand
  | [] => [c]
  | d :: t => if keyLt (c.key ++ [c.cl]) (d.key ++ [d.cl]) then c :: d :: t else d :: Cand.insert c t

/-- Sort candidates in ascending order of key (R243). -/
def sortCands (l : List Cand) : List Cand := l.foldr Cand.insert []

/-- The records on chip in a cluster that satisfy a test (R242). -/
def State.onChipRecs (s : State) (cl : Nat) (p : Record → Bool) : List Cand :=
  let c := s.cluster cl
  (List.finRange 16).flatMap fun q => (c.qs[q].recs.filter p).map fun r => ⟨r.key s.time q.val, cl, q.val, r⟩

/-! ## Cores (R243, R245, R466) -/

/-- QUAR of a logical core (R466). -/
def Cluster.quarantined (c : Cluster) (l : Nat) : Bool := bit c.quar[Fin.ofNat 3 (l / 64)] (l % 64)

/-- The idle cores of a cluster in the order in which place() takes them (R245): those not in C2 first, the lowest number first; quarantined cores are skipped. -/
def State.idleCores (s : State) (cl : Nat) : List Nat :=
  let c := s.cluster cl
  let idle := (coresOf cl).filter fun k => !c.quarantined (logical k) && (s.core k).isIdle
  (idle.filter fun k => !(s.core k).asleep) ++ idle.filter fun k => (s.core k).asleep

/-- The cores that place() gives a record (R245, R468): one, or for a DUAL record two of different octets, none of the pair that failed. -/
def pickCores (c : Cluster) (idle : List Nat) (r : Record) : Option (Nat × Option Nat) :=
  if r.dual then
    let bad := c.avoid.find? fun a => a.1 == r.seq
    let ok := idle.filter fun k => match bad with
      | some a => k != a.2.1 && k != a.2.2
      | none => true
    match ok with
    | [] => none
    | k :: t => (t.find? fun j => octetOf j != octetOf k).map fun j => (k, some j)
  else idle.head?.map fun k => (k, none)

/-! ## Energy (R243, R250) -/

/-- charge(r) (R243). -/
def charge (r : Record) (egrant : Nat) : Nat := min (r.ewt * (if r.dual then 2 else 1)) egrant

/-- Whether the energy left admits a charge (R243). -/
def Cluster.affords (c : Cluster) (n : Nat) : Bool := decide (0 < c.egrant) && decide ((n : Int) ≤ c.erem)

/-- URGENCY.TICKS (R250). -/
def Cluster.horizon (c : Cluster) : Nat := fld c.urgency 0 32

/-! ## Gangs (R252, R253) -/

/-- The members on chip in a die that carry a pair and a GSZ, in the order of R243. -/
def State.gangCands (s : State) (d asid gang gsz : Nat) : List Cand :=
  sortCands ((List.range 8).flatMap fun i =>
    s.onChipRecs (8 * d + i) fun r => r.gang && r.asid == asid && r.gangid == gang && r.gsz == gsz)

/-- The members that form the gang now; none while it is not complete (R252). -/
def State.gangMembers (s : State) (d asid gang gsz : Nat) : Option (List Cand) :=
  let l := s.gangCands d asid gang gsz
  if gsz + 1 ≤ l.length then some (l.take (gsz + 1)) else none

/-- Insert a pair with its GSZ in ascending order, once. -/
def insertGang (g : Nat × Nat × Nat) : List (Nat × Nat × Nat) → List (Nat × Nat × Nat)
  | [] => [g]
  | h :: t => if g = h then h :: t else if keyLt [g.1, g.2.1, g.2.2] [h.1, h.2.1, h.2.2] then g :: h :: t else h :: insertGang g t

/-- The complete gangs of a die, in ascending order of (ASID, GANGID). -/
def State.completeGangs (s : State) (d : Nat) : List (Nat × Nat × Nat) :=
  (((List.range 8).flatMap fun i => s.onChipRecs (8 * d + i) fun r => r.gang).foldl (fun l c => insertGang (c.rec_.asid, c.rec_.gangid, c.rec_.gsz) l) []).filter
    fun g => (s.gangMembers d g.1 g.2.1 g.2.2).isSome

/-- Tickets are withdrawn from gangs that are no longer complete, and complete gangs without one take theirs (R253). -/
def State.takeTickets (s : State) (d : Nat) : State :=
  let full := s.completeGangs d
  let die := s.die d
  let kept := die.tickets.filter fun t => full.contains (t.asid, t.gang, t.gsz)
  let new := full.filter fun g => !kept.any fun t => t.asid == g.1 && t.gang == g.2.1 && t.gsz == g.2.2
  if kept = die.tickets ∧ new = [] then s
  else s.modDie d fun y => { y with
    tickets := kept ++ new.zipIdx.map fun e => ⟨e.1.1, e.1.2.1, e.1.2.2, (y.ticketCtr + e.2) % 65536⟩
    ticketCtr := (y.ticketCtr + new.length) % 65536 }

/-- The nearest ticket ahead of the pointer (R253). -/
def Die.granted (y : Die) : Option Ticket :=
  (y.tickets.foldl (fun (best : Option Ticket) t => match best with
    | none => some t
    | some b => if (t.num + 65536 - y.ticketPtr) % 65536 < (b.num + 65536 - y.ticketPtr) % 65536 then some t else best) none)

/-! ## Selection (R243, R244) -/

/-- The records of a cluster that are no gang members, in the order of R243. -/
def State.plainCands (s : State) (cl : Nat) : List Cand := sortCands (s.onChipRecs cl fun r => !r.gang)

/-- select_slice over records in order (R243): the record chosen with its cores, and whether an earlier one blocks. `reserve` cores are kept from records that sort
after `gkey` (R253); the search stops at the first record that sorts after `before`. -/
def choose (c : Cluster) (time : Nat) (idle : List Nat) (reserve : Nat) (gkey : List Nat) (before : Option (List Nat)) :
    Bool → List Cand → Option (Cand × Nat × Option Nat) × Bool
  | blocked, [] => (none, blocked)
  | blocked, r :: t =>
    if (before.map fun b => keyLt b r.key) = some true then (none, blocked)
    else
      let urgent := r.rec_.urgent time c.horizon
      let keep := if keyLt gkey r.key then reserve else 0
      if blocked && !urgent then choose c time idle reserve gkey before blocked t
      else match pickCores c idle r.rec_ with
        | none => choose c time idle reserve gkey before blocked t
        | some (k, j) =>
          if idle.length < keep + (if r.rec_.dual then 2 else 1) then choose c time idle reserve gkey before blocked t
          else if urgent || c.affords (charge r.rec_ c.egrant) then (some (r, k, j), blocked)
          else choose c time idle reserve gkey before true t

/-- A record leaves its queue (R245). -/
def State.dequeue (s : State) (c : Cand) : State :=
  (s.unqueue c.cl c.q c.rec_).modCluster c.cl fun y => { y with avoid := y.avoid.filter fun a => a.1 != c.rec_.seq }

/-- EREM loses a charge (R243). -/
def State.spend (s : State) (cl n : Nat) : State := s.modCluster cl fun y => { y with erem := y.erem - n }

/-- place(r) (R245, R249, R400): on its core, or on both, copy 0 on the lower-numbered. -/
def State.placeCand (s : State) (c : Cand) (k : Nat) (j : Option Nat) : State :=
  let n := charge c.rec_ (s.cluster c.cl).egrant
  let s := (s.dequeue c).spend c.cl n
  match j with
  | none => s.place k c.rec_ c.q n none
  | some j => (s.place (min k j) c.rec_ c.q n (some (0, max k j))).place (max k j) c.rec_ c.q 0 (some (1, min k j))

/-- What the granted gang needs: its members (R252, R253). -/
def State.grantedGang (s : State) (d : Nat) : Option (Ticket × List Cand) :=
  match (s.die d).granted with
  | none => none
  | some t => (s.gangMembers d t.asid t.gang t.gsz).map fun l => (t, l)

/-- Whether a cluster has enough idle cores and energy for its members of a gang, and no record that sorts before the gang is placed or blocks there (R252, R253). -/
def State.gangFits (s : State) (gkey : List Nat) (members : List Cand) (cl : Nat) : Bool :=
  let c := s.cluster cl
  let mine := members.filter fun m => m.cl == cl
  let idle := s.idleCores cl
  let urgent := mine.any fun m => m.rec_.urgent s.time c.horizon
  let first := choose c s.time idle 0 gkey (some gkey) false (s.plainCands cl)
  decide (mine.length ≤ idle.length) && (urgent || c.affords ((mine.map fun m => charge m.rec_ c.egrant).foldl (· + ·) 0)) &&
  first.1.isNone && (urgent || !first.2)

/-- GANG_PLACEMENT (R252, R253): every member is placed in one cycle, and the ticket is returned. -/
def State.placeGang (s : State) (d : Nat) (t : Ticket) (members : List Cand) : State :=
  let s := members.foldl (fun s m => match (s.idleCores m.cl).head? with
    | some k => s.placeCand m k none
    | none => s) s
  s.modDie d fun y => { y with tickets := y.tickets.erase t, ticketPtr := (t.num + 1) % 65536 }

/-- What the dispatcher of a cluster places now. -/
inductive Placing where
  | nothing
  | one (c : Cand) (k : Nat) (j : Option Nat)
  | gang (t : Ticket) (members : List Cand)
  deriving DecidableEq, Repr

/-- select_slice() of a cluster, once in a cycle (R243, R252): the granted gang where it has members here and fits everywhere, else one record. No job slice runs before step 4
of the boot has ended (R430), and a die that has tripped places nothing (R491). -/
def State.selectSlice (s : State) (cl : Nat) : Placing :=
  let d := cl / 8
  if s.boot.up = false ∨ (s.die d).tripped = true ∨ s.time < (s.cluster cl).placed ∨ !((s.cluster cl).qs.toList.any fun q => !q.recs.isEmpty) then .nothing
  else
    let g := s.grantedGang d
    let mine := (g.map fun e => (e.2.filter fun m => m.cl == cl).length).getD 0
    let gkey := ((g.bind fun e => e.2.head?).map (·.key)).getD []
    let single := match (choose (s.cluster cl) s.time (s.idleCores cl) mine gkey none false (s.plainCands cl)).1 with
      | some (c, k, j) => .one c k j
      | none => .nothing
    match g with
    | some (t, members) =>
      if mine ≠ 0 ∧ ((members.map (·.cl)).all fun cl => decide ((s.cluster cl).placed ≤ s.time) && s.gangFits gkey members cl) then .gang t members else single
    | none => single

/-- Whether a ticket is to be taken or withdrawn on a die. -/
def State.ticketsDue (s : State) (d : Nat) : Bool :=
  let full := s.completeGangs d
  (s.die d).tickets.any (fun t => !full.contains (t.asid, t.gang, t.gsz)) ||
  full.any fun g => !(s.die d).tickets.any fun t => t.asid == g.1 && t.gang == g.2.1 && t.gsz == g.2.2

/-- Whether the dispatcher of a cluster has something to do. -/
def State.placeDue (s : State) (cl : Nat) : Bool :=
  ((s.cluster cl).qs.toList.any fun q => !q.recs.isEmpty) && (s.ticketsDue (cl / 8) || (s.takeTickets (cl / 8)).selectSlice cl != .nothing)

/-- The dispatcher of a cluster has made its selection of this cycle (R243). -/
def State.notePlaced (s : State) (cl : Nat) : State := s.modCluster cl fun c => { c with placed := s.time + 1 }

/-- DISPATCH_PLACE (R243, R253): the tickets of the cycle are taken, and the dispatcher of a cluster makes its one selection of the cycle; a gang is the selection of every cluster that
holds a member (R252). -/
def execDispatchPlace (s : State) : Host.Outcome State Fault Refusal :=
  event (fun s =>
    let cl := s.arg 0
    let s := s.takeTickets (cl / 8)
    match s.selectSlice cl with
    | .nothing => s
    | .one c k j => (s.placeCand c k j).notePlaced cl
    | .gang t members => (members.map (·.cl)).eraseDups.foldl State.notePlaced (s.placeGang (cl / 8) t members)) s

/-- The oldest record held whose queue has room again. -/
def Cluster.heldReady (c : Cluster) : Option (Nat × Record) :=
  c.held.find? fun h => decide ((c.qs[Fin.ofNat 16 h.1]).count < (c.qs[Fin.ofNat 16 h.1]).cap)

/-- HELD_RECORD_ENQUEUE (R469): in the first cycle in which the queue's COUNT has fallen; the record is never dropped. -/
def execHeldRecordEnqueue (s : State) : Host.Outcome State Fault Refusal :=
  event (fun s =>
    let cl := s.arg 0
    match (s.cluster cl).heldReady with
    | none => s
    | some h => (s.modCluster cl fun c => { c with held := c.held.erase h }).enqueue cl h.1 h.2) s

/-! ## The energy window (R250, R251, R490) -/

/-- TF from PWRMON.TEMP in eighths of a degree: 24 per degree above 95 (R490). -/
def thermalFactor (temp : Nat) : Nat := if temp ≤ 760 then 256 else max 16 (256 - 3 * (temp - 760))

/-- VF (R490). -/
def droopFactor (droop : Bool) (vf : Nat) : Nat := if droop then 128 else min 256 (vf + 32)

/-- MARGINV.OFFS (R433). -/
def Die.offs (y : Die) : Int := sextN (fld y.marginv 0 5) 5

/-- The effective core supply in mV (R433). -/
def Die.supply (y : Die) : Nat := (max 380 (min 650 ((y.setpoint : Int) + 5 * y.offs))).toNat

/-- A die at the start of a window (R420, R490): PWRMON is refreshed from the sensors, whose readings are free values (log entry 8). -/
def Die.newWindow (y : Die) (pwr temp : Nat) : Die :=
  let tf := thermalFactor temp
  let hot := decide (tf < 256)
  { y with
    window := y.window + 1, monPwr := pwr, monTemp := temp, monV := y.supply, tf := tf, vf := droopFactor y.droopInWindow y.vf, droopInWindow := false
    pwrevt := if hot then putBits (putBits y.pwrevt 0 1 1) 16 16 (min 65535 (fld y.pwrevt 16 16 + 1)) else y.pwrevt }

/-- The charge recorded for the slice on a core. -/
def Core.slotCharge (c : Core) : Nat := (c.slice.map (·.charge)).getD 0

/-- The charges of the slices placed on a cluster and not yet ended (R251). -/
def State.charges (s : State) (cl : Nat) : Nat :=
  s.cores.foldl (fun n e => if !isMiz e.1 && clusterOf e.1 == cl then n + e.2.slotCharge else n) 0

/-- EGRANT and EREM of a cluster at the start of a window (R251). -/
def State.grant (s : State) (cl : Nat) : State :=
  let y := s.die (cl / 8)
  let used := s.charges cl
  s.modCluster cl fun c =>
    let g := fld c.ecap 0 16 * min y.tf y.vf / 256
    { c with egrant := g, erem := (g : Int) - used }

/-! ## Fenced dies and thermal limits (R478, R491) -/

/-- Deferred LDFs whose home can no longer be reached are answered poisoned (R474, R478). -/
def State.answerCut (s : State) : State :=
  (s.cores.flatMap fun e => e.2.ldfs.map fun l => (e.1, l)).foldl (fun s e =>
    if s.cutOff e.1 e.2.pa || s.unreachable e.2.pa then s.answerOne e.1 0 e.2 else s) s

/-- Fence a die: no copy of its cores is trusted any more, every slice on it fails with KIND 1, and what waits for an answer from beyond the cut gets a poisoned one (R478, R465). -/
def State.fence (s : State) (d : Nat) : State :=
  let s := (s.modDie d fun y => { y with fenced := true }).distrust d
  (((s.cores.map (·.1)).filter fun k => !isMiz k && dieOf k == d).foldl (fun s k => if (s.core k).slice.isSome then s.loseContext k false else s) s).answerCut

/-- A die trips (R491): it stops its clocks, TRIP is set, and the other dies treat it as unreachable. -/
def State.trip (s : State) (d : Nat) : State :=
  (s.fence d).modDie d (Die.reclock s.time fun y => { y with tripped := true, pwrevt := putBits y.pwrevt 2 1 1 })

/-- The limits of R491 in eighths of a degree: 105 for the clock limit, 100 for its end, 110 for the trip. -/
def hotTemp : Nat := 840
/-- 100 degrees. -/
def coolTemp : Nat := 800
/-- 110 degrees. -/
def tripTemp : Nat := 880

/-- What the hottest sensor of a die calls for (R491): the trip from 110 degrees, a clock of 1.50 GHz from 105, and the end of that limit below 100. -/
def State.heed (s : State) (d temp : Nat) : State :=
  if tripTemp ≤ temp then if (s.die d).tripped then s else s.trip d
  else if hotTemp ≤ temp then s.modDie d (Die.reclock s.time fun y => { y with tempLimit := true })
  else if temp < coolTemp ∧ (s.die d).tempLimit = true then s.modDie d (Die.reclock s.time fun y => { y with tempLimit := false })
  else s

/-- ENERGY_WINDOW (R251, R490, R491): the start of the next window of a die, whose controller heeds the temperature that it reads. -/
def execEnergyWindow (s : State) : Host.Outcome State Fault Refusal :=
  event (fun s =>
    let d := s.arg 0
    if s.time / 22500 ≤ (s.die d).window then s
    else
      let r := Config.freeWord s.fresh
      let s := s.freshen
      let s := s.modDie d fun y => y.newWindow (fld r 0 16) (fld r 16 12)
      ((List.range 8).foldl (fun s i => s.grant (8 * d + i)) s).heed d (fld r 16 12)) s

/-! ## Launch packets and residency reports (R427, R258) -/

/-- KIND of RESDEST (R420). -/
def State.resKind (s : State) : Nat := fld s.resdest 62 2

/-- Physical address of the endpoint block that RESDEST names (R420). -/
def State.resBlock (s : State) : Nat := fld s.resdest 5 47 * 32

/-- The endpoint whose block lies at a physical address (R420): IPv6 address at +0, job ID at +16, endpoint index at +20. -/
def State.endpointAt (s : State) (pa : Nat) : Endpoint × State :=
  let (x, s) := s.homeRead pa 24
  (.uet (bits x 0 128) (bits x 128 32) (bits x 160 32), s)

/-- The endpoint that RESDEST names (R420, R427): the scheduler's device with an address there, or the endpoint of its block. -/
def State.resEndpoint (s : State) (addr : Word) : Endpoint × State :=
  if s.resKind = 1 then (.ualink (fld s.resdest 0 10) addr, s) else s.endpointAt s.resBlock

/-- Whether a packet comes from the endpoint that RESDEST names (R427): its source has the kind of RESDEST, and is the scheduler's device ID or what the endpoint block holds. -/
def State.fromScheduler (s : State) (kind src : Nat) : Bool × State :=
  if kind ≠ s.resKind then (false, s)
  else if kind = 1 then (src == fld s.resdest 0 10, s)
  else if kind = 2 then
    let (e, s) := s.endpointAt s.resBlock
    (e == .uet (bits src 0 128) (bits src 128 32) (bits src 160 32), s)
  else (false, s)

/-- The code that answers a launch packet (R427). -/
def State.launchCode (s : State) (pkt : Nat) : Int :=
  if bits pkt 0 16 ≠ 1 then -6
  else if 32 ≤ bits pkt 16 8 ∨ 16 ≤ bits pkt 24 8 then -7
  else -(s.enqCode (bits pkt 16 8) (bits pkt 24 8) (recordOf (bits pkt 128 512)) : Int)

/-- LAUNCH_PACKET (R427, R259): operands the kind of the source (1 UALink, 2 Ultra Ethernet), the source (a device ID, or the 24 bytes of an endpoint block as a number) and the 80 bytes of
the packet as a number. The answer goes to ACKADDR at the scheduler's device, or to its endpoint. -/
def execLaunchPacket (s : State) : Host.Outcome State Fault Refusal :=
  event (fun s =>
    let pkt := s.arg 2
    if s.boot.up = false then s
    else match s.fromScheduler (s.arg 0) (s.arg 1) with
      | (false, s) => s
      | (true, s) =>
        let code := s.launchCode pkt
        let cl := bits pkt 16 8
        let s := if code = 0 then s.enqueue cl (bits pkt 24 8) (recordOf (bits pkt 128 512)) else s
        let (dest, s) := s.resEndpoint (w64 (bits pkt 64 64))
        { s with sent := s.sent ++ [.launchAck dest (w64 (bits pkt 32 32)) code] }) s

/-- The records that a queue holds in its ring, as memory has them (R241). -/
def State.ringRecs (s : State) (q : SliceQ) : List Record := (List.range q.ring).map fun i => recordOf (s.mem.readN (q.slot i) 64)

/-- Records of a class in a cluster. -/
def State.classCount (s : State) (cl n : Nat) : Nat :=
  ((s.cluster cl).qs.toList.map fun q => ((q.recs ++ s.ringRecs q).filter fun r => r.cls == n).length).foldl (· + ·) 0

/-- The code of an idle state in a report (R258). -/
def Idle.code : Idle → Nat
  | .c3 => 3
  | .c4 => 4
  | _ => 0

/-- The entry of a cluster in a residency report, as a number (R258). A count of 65,536 records or more is reported modulo 2^16, for which the rule gives no value (DESIGN CHOICE, log
entry 48). -/
def State.reportEntry (s : State) (cl : Nat) : Nat :=
  let c := s.cluster cl
  let mine := (s.cores.filter fun e => !isMiz e.1 && clusterOf e.1 == cl).map (·.2)
  let used := (mine.map fun y => (y.ctxs.toList.filter fun t => t.st != .free).length).foldl (· + ·) 0
  let busy := (mine.filter fun y => !y.isIdle).length
  let erem := (BitVec.ofInt 16 (max (-32768) (min 32767 c.erem))).toNat
  s.classCount cl 0 % 65536 + 2 ^ 16 * (s.classCount cl 1 % 65536) + 2 ^ 32 * (s.classCount cl 2 % 65536) + 2 ^ 48 * (s.classCount cl 3 % 65536) +
  2 ^ 64 * (2112 - used) + 2 ^ 80 * (192 - busy) + 2 ^ 88 * c.idle.code + 2 ^ 96 * erem + 2 ^ 112 * (c.egrant % 65536)

/-- The entries of a residency report (R258). -/
def State.entries (s : State) : List Nat := (List.range 32).map s.reportEntry

/-- Whether a residency report is due (R258): 10 µs after the last, or 1 µs after it once its contents have changed; none without an endpoint (R427). -/
def State.reportDue (s : State) : Bool :=
  (s.resKind == 1 || s.resKind == 2) &&
  (decide (s.reportAt + 22500 ≤ s.time) || (decide (s.reportAt + 2250 ≤ s.time) && s.entries != s.reported))

/-- The 68 doublewords of a residency report (R258). R464 has the budget counter of a context in the report, for which the layout has no place (DESIGN CHOICE, log entry 63: the layout is
followed). -/
def State.reportWords (s : State) : List Word :=
  [Config.modid, w64 s.time, w64 s.reportSeq, 0] ++
  s.entries.flatMap fun e => [w64 e, w64 (e / 2 ^ 64)]

/-- The address at the scheduler's device to which reports are written (R427). -/
def reportAddr : Word := 0x3FFFFFE000

/-- RESIDENCY_REPORT (R258, R427): sent to the endpoint of RESDEST; with KIND = 0 nothing is sent. -/
def execResidencyReport (s : State) : Host.Outcome State Fault Refusal :=
  event (fun s =>
    if s.reportDue then
      let (dest, t) := s.resEndpoint reportAddr
      { t with sent := s.sent ++ [.report dest s.reportWords], reportSeq := s.reportSeq + 1, reportAt := s.time, reported := s.entries }
    else s) s

end Sys2Proof.Machine
end

