-- ==== Sys2Proof/Machine/Power.lean ====
section
/-!
DEFINITION. Clock, supply and thermal events of a compute die (R22, R490, R491), lane margining (R433, R493), idle states and
waking (R255 to R257, R480).
-/

namespace Sys2Proof.Machine

/-! ## Clock and supply (R22, R490, R491) -/

/-- A change of a die that its clock may depend on. -/
def State.powerDie (s : State) (d : Nat) (f : Die → Die) : State := s.modDie d (Die.reclock s.time f)

/-- SUPPLY_DROOP (R490). -/
def execSupplyDroop (s : State) : Host.Outcome State Fault Refusal :=
  event (fun s =>
    let d := s.arg 0
    (s.powerDie d fun y => { y with
      droopSteps := y.droopSteps + 1, droopInWindow := true
      pwrevt := putBits (putBits y.pwrevt 1 1 1) 32 16 (min 65535 (fld y.pwrevt 32 16 + 1)) }).postMore ⟨.droopClockStepEnd, [d]⟩) s

/-- DROOP_CLOCK_STEP_END (R490). -/
def execDroopClockStepEnd (s : State) : Host.Outcome State Fault Refusal :=
  event (fun s => s.powerDie (s.arg 0) fun y => { y with droopSteps := y.droopSteps - 1 }) s

/-- DIE_OVERTEMP_CLOCK_LIMIT (R491): operands the die and what its hottest sensor reads, in eighths of a degree: 105 degrees or more. -/
def execDieOvertempClockLimit (s : State) : Host.Outcome State Fault Refusal :=
  event (fun s => if hotTemp ≤ s.arg 1 then s.heed (s.arg 0) (s.arg 1) else s) s

/-- OVERTEMP_CLOCK_LIMIT_END (R491): operands as above: less than 100 degrees. -/
def execOvertempClockLimitEnd (s : State) : Host.Outcome State Fault Refusal :=
  event (fun s => if s.arg 1 < coolTemp then s.heed (s.arg 0) (s.arg 1) else s) s

/-- DIE_SUPPLY_SET_POINT_CHANGE (R22): operands the die and the set point in mV, which lies between 380 and 650. -/
def execDieSupplySetPointChange (s : State) : Host.Outcome State Fault Refusal :=
  event (fun s => s.powerDie (s.arg 0) fun y => { y with setpoint := max 380 (min 650 (s.arg 1)) }) s

/-- THERMAL_TRIP (R491): operands as above: 110 degrees or more. -/
def execThermalTrip (s : State) : Host.Outcome State Fault Refusal :=
  event (fun s => if tripTemp ≤ s.arg 1 then s.heed (s.arg 0) (s.arg 1) else s) s

/-! ## Lane margining (R433, R493) -/

/-- LANEMARG_START (R433): operand the device, 0 to 3 a compute die, 4 and 5 an I/O die. -/
def execLanemargStart (s : State) : Host.Outcome State Fault Refusal := event (fun s => s.laneStart (s.arg 0)) s

/-- LANEMARG with the results of a measurement, which are free values, and DONE. -/
def laneResult (old r : Word) : Word := putBits (putBits old 32 32 (fld r 0 32)) 30 1 1

/-- Whether results call for a lane remap (R493). -/
def laneBad (y : Word) : Bool := decide (fld y 56 8 + fld y 48 8 < 16) || decide (fld y 40 8 + fld y 32 8 < 30)

/-- LANE_MARGIN_DONE (R433, R493). -/
def execLaneMarginDone (s : State) : Host.Outcome State Fault Refusal :=
  event (fun s =>
    let u := s.arg 0
    let r := Config.freeWord s.fresh
    let on := if u < 4 then (s.die u).measuring else (s.iod (u - 4)).measuring
    if !on then s
    else
      let s := s.freshen
      let y := laneResult (if u < 4 then (s.die u).lanemarg else (s.iod (u - 4)).lanemarg) r
      let s := if u < 4 then s.modDie u fun d => { d with measuring := false, lanemarg := y }
        else s.modIod (u - 4) fun d => { d with measuring := false, lanemarg := y }
      match Config.spareLane u (fld y 28 2) (fld y 0 16) with
      | some e => if laneBad y then s.addField (3 * 2 ^ 60 + u * 2 ^ 56 + fld y 28 2 * 2 ^ 54 + e % 2 ^ 24 * 2 ^ 30) else s
      | none => s) s

/-! ## Idle states (R255, R256) -/

/-- 20 µs and 1 ms in ticks of TIME (R255). -/
def c2Wait : Nat := 45000
/-- 1 ms. -/
def c4Wait : Nat := 2250000

/-- Whether core k enters C2 now (R255). -/
def State.c2Due (s : State) (k : Nat) : Bool :=
  let c := s.core k
  decide (c.sleepAt + c2Wait ≤ s.time) && c.idle == .c1 && c.waking == 0 && !isMiz k && c.isIdle && !(s.die (dieOf k)).tripped && decide (2000 ≤ s.latencyL)

/-- CORE_ENTER_C2 (R255): the L1 is written back and invalidated, the core TLB is cleared. -/
def execCoreEnterC2 (s : State) : Host.Outcome State Fault Refusal :=
  event (fun s =>
    let k := s.arg 0
    if !s.c2Due k then s
    else (s.leaveL1 k fun _ => true).modCore k fun c => { c with l1 := [], l1sets := [], tlb := [], idle := .c2, sleepAt := s.time }) s

/-- Whether a cluster enters C3 now (R255): its ungathered gangs hold no ticket once its queues are empty. -/
def State.c3Due (s : State) (cl : Nat) : Bool :=
  let c := s.cluster cl
  c.idle == .run && ((coresOf cl).all fun k => (s.core k).idle == .c2 && (s.core k).waking == 0) &&
  (c.qs.toList.all fun q => q.count == 0) && c.held.isEmpty && decide (50000 ≤ s.latencyL)

/-- CLUSTER_ENTER_C3 (R255): the cluster TLB is cleared. -/
def execClusterEnterC3 (s : State) : Host.Outcome State Fault Refusal :=
  event (fun s =>
    let cl := s.arg 0
    if !s.c3Due cl then s else s.modCluster cl fun c => { c with tlb := [], roots := [], idle := .c3 }) s

/-- Whether a die enters C4 now (R255). -/
def State.c4Due (s : State) (d : Nat) : Bool :=
  let y := s.die d
  y.idle == .run && bit y.diepwr 0 && ((List.range 8).all fun i => (s.cluster (8 * d + i)).idle == .c3) &&
  decide (y.lastReq + c4Wait ≤ s.time) && decide (2000000 ≤ s.latencyL)

/-- A window whose words are all I. -/
def emptyWindow (o : Option Window) : Option Window := o.map fun w => { w with words := [] }

/-- DIE_ENTER_C4 (R255): the L2 is empty, and the scratchpads of its cores are lost; their contents are free values. -/
def execDieEnterC4 (s : State) : Host.Outcome State Fault Refusal :=
  event (fun s =>
    let d := s.arg 0
    if !s.c4Due d then s
    else
      let s := ((s.cores.map (·.1)).filter fun k => !isMiz k && dieOf k == d).foldl (fun s k =>
        { s.loseCopies k fun _ => true with fresh := s.fresh + 0x20000 }.modCore k fun c => { c with
          spad := lostSpad s.fresh, spoison := [], wins := vmap emptyWindow c.wins }) s
      let s := (List.range 8).foldl (fun s i => s.modCluster (8 * d + i) fun c => { c with idle := .c4 }) s
      s.modDie d fun y => { y with idle := .c4, l2 := [] }) s

/-! ## Waking (R257, R480) -/

/-- A die leaves C4; its clusters are still in C3. -/
def State.wakeDie (s : State) (d : Nat) : State :=
  if (s.die d).idle = .c4 then
    ((List.range 8).foldl (fun s i => s.modCluster (8 * d + i) fun c => { c with idle := .c3 }) s).modDie d fun y => { y with idle := .run, wakeAt := 0 }
  else s

/-- Ticks that a die in C4 takes to wake (R255). -/
def c4Exit : Nat := 4500000

/-- A request from a host link, the fabric or a capacity port reaches a die, in the event that is performed: served at once, or after the exit latency of a die in C4, which it wakes
(R255, R257). A memory request of a core of another die whose home lies on a die in C4 is not in R257's list: the home serves it at once, and the die does not wake (DESIGN CHOICE, log entry
21). -/
def State.serve (s : State) (row : Instr) (d : Nat) (f : State → State) : State :=
  let y := s.die d
  if y.idle = .c4 ∧ (y.wakeAt = 0 ∨ s.time < y.wakeAt) then
    let end_ := if y.wakeAt = 0 then s.time + c4Exit else y.wakeAt
    (s.modDie d fun y => { y with wakeAt := end_, lastReq := s.time }).postIn (end_ - s.time) ⟨row, s.ev⟩
  else f ((s.wakeDie d).modDie d fun y => { y with lastReq := s.time })

/-- Such a request to memory: its home serves it when its slice is no longer under test and the page no longer applied (R415, R235). -/
def State.serveAt (s : State) (row : Instr) (pa : Nat) (f : State → State) : State :=
  s.serve row (homeDie pa) fun s => if s.homeWait pa = 0 then f s else s.postIn (s.homeWait pa) ⟨row, s.ev⟩

/-- The cluster of a core that wakes runs. -/
def State.wakeCluster (s : State) (cl : Nat) : State := (s.wakeDie (cl / 8)).modCluster cl fun c => { c with idle := .run }

/-- A request from the outside to a unit's registers (R255, R257): its die has had a request, and a unit that sleeps begins to wake. The ticks until it serves the request. -/
def State.wakeUnit (s : State) (u : RegUnit) : Nat × State :=
  let ask (d : Nat) : State := s.modDie d fun y => { y with lastReq := s.time, wakeAt := if y.idle = .c4 ∧ y.wakeAt = 0 then s.time + c4Exit else y.wakeAt }
  let left (d : Nat) : Nat := if (s.die d).idle = .c4 then ((ask d).die d).wakeAt - s.time else 0
  match u with
  | .module => (0, s)
  | .die d => (left d, ask d)
  | .cluster c => (if (s.cluster c).idle = .c3 then 112500 else left (c / 8), ask (c / 8))
  | .core k =>
    let t := (ask (dieOf k)).wakeUp k
    (if (s.core k).asleep then (t.core k).waking - s.time else 0, t)

/-- The unit that a request waited for is awake. -/
def State.unitAwake (s : State) (u : RegUnit) : State := match u with
  | .die d => s.wakeDie d
  | .cluster c => s.wakeCluster c
  | .module | .core _ => s

/-- UNIT_WAKE (R257): a sleeping core begins to wake. -/
def execUnitWake (s : State) : Host.Outcome State Fault Refusal := event (fun s => s.wakeUp (s.arg 0)) s

/-- EPOCH and the SI copies of a core that wakes after E energy windows (R480, R180). -/
def Core.wakeEpoch (c : Core) (e : Nat) : Core :=
  let n := (c.ep + e + 1) % 65536
  let drop : Nat → Bool := fun stamp => if 32768 ≤ e + 1 then true else n / 32768 != c.ep / 32768 && stamp / 32768 == n / 32768
  { c with epoch := w64 n }.mapCopies fun (y : Copy) => match y.st with
    | .v stamp => if y.attr = Attr.si ∧ drop stamp = true then none else some y
    | _ => some y

/-- WAKE_EXIT_LATENCY_END (R245, R257, R480): the energy windows since the core entered C2 are counted. A core that was placed on starts its context 0; another is idle again. -/
def execWakeExitLatencyEnd (s : State) : Host.Outcome State Fault Refusal :=
  event (fun s =>
    let k := s.arg 0
    let c := s.core k
    if c.waking = 0 then s
    else
      let s := (s.wakeCluster (clusterOf k)).modCore k fun c => c.wakeEpoch (s.time / 22500 - c.sleepAt / 22500)
      if c.slice.isSome then (s.modCore k fun c => { c with waking := 0, idle := .run }).startSlice k
      else s.modCore k fun c => { c with waking := 0, idle := s.idleState, sleepAt := s.time }) s

/-- HOST_LTR_MESSAGE (R256): operands the link and its snoop and no-snoop latencies in ns. -/
def execHostLtrMessage (s : State) : Host.Outcome State Fault Refusal :=
  event (fun s => { s with ltr := sset s.ltr (s.arg 0) (s.arg 1, s.arg 2) }.settleIdle) s

end Sys2Proof.Machine
end

