-- ==== Sys2Proof/Machine/Platform.lean ====
section
/-!
DEFINITION. The links to the outside: host accesses (R421), UALink peers (R424), link training and link failures (R420, R478, R489), register writes (R232, R419),
and the mailbox (R428, R429, R432, R434).
-/

namespace Sys2Proof.Machine

/-! ## Host and peer requests (R421, R424) -/

/-- Bytes of the module that the host and the peers see: bonded DRAM (R168, R421). -/
def bondedTop : Nat := 0x4000000000

/-- Whether n bytes at an offset of the bonded DRAM are populated. -/
def State.bonded (s : State) (off n : Nat) : Bool := decide (off + n ≤ bondedTop) && s.populated off && s.populated (off + n - 1)

/-- The messages queued by a host access came through its function (R429). -/
def tagMessages (link old : Nat) (m : List (Nat × Option Nat)) : List (Nat × Option Nat) := m.take old ++ (m.drop old).map fun e => (e.1, some link)

/-- Whether a host access through BAR0 is served (R418, R419, R492): a doubleword; before step 4 of the boot has ended, of the module block. -/
def State.bar0Ok (s : State) (off n : Nat) : Bool := n == 8 && off % 8 == 0 && decide (off < (if s.boot.up then 0x400000 else 0x100000))

/-- A host access of n bytes through BAR0 (R418, R419, R421, R492): of a doubleword, at level S. -/
def State.bar0 (s : State) (link off n : Nat) (wr : Bool) (x : Word) : State :=
  if wr then
    if !s.bar0Ok off n then s
    else match s.regWrite (regBase + off) 1 x with
      | some t => { t with mbx := tagMessages link s.mbx.length t.mbx }
      | none => s
  else
    match (if s.bar0Ok off n then s.regRead (regBase + off) 1 else none) with
    | some y => { s with sent := s.sent ++ [.barRead link y true] }
    | none => { s with sent := s.sent ++ [.barRead link 0 false] }

/-- The unit whose register a host access through BAR0 names. -/
def State.barUnit (s : State) (off n : Nat) : RegUnit := if s.bar0Ok off n then ((regAt off).map Reg.unit).getD .module else .module

/-- TIME at which an access of a link is performed that waits and comes before one that arrived as `stamp` says (0: one that arrives now); none if there is none (R421). -/
def State.linkAhead (s : State) (link stamp : Nat) : Option Nat :=
  (s.pendingEv.find? fun e => e.2.row == .hostBarAccess && e.2.a.getD 0 0 == link && e.2.a.getD 6 0 != 0 && (stamp == 0 || decide (e.2.a.getD 6 0 < stamp))).map (·.1)

/-- A host access of n bytes through BAR2 (R421): performed at the home as a UC access; Unsupported Request before step 4 of the boot has ended and in a hole. The I/O die of the link reaches
the home by the route of R13. -/
def State.bar2 (s : State) (link off n : Nat) (wr : Bool) (x : Word) : State :=
  if !(s.boot.up && s.bonded off n) ∨ s.routeCut link (homeDie off) = true then
    if wr then s else { s with sent := s.sent ++ [.barRead link 0 false] }
  else s.serveAt .hostBarAccess off fun s =>
    if wr then s.homeWrite off n x.toNat
    else
      let (y, s) := s.homeRead off n
      { s with sent := s.sent ++ [.barRead link (w64 y) (!s.anyPoison off n)] }

/-- HOST_BAR_ACCESS (R421): operands the link, the BAR, 1 for a write, the offset, the bytes (at most 8) and the data. The accesses of one link are performed in arrival order: one that
waits keeps, as two operands more, the move at which it arrived and whether the unit that it has woken is awake (R257), and none that came later passes it. -/
def execHostBarAccess (s : State) : Host.Outcome State Fault Refusal :=
  event (fun s =>
    let link := s.arg 0
    let args := fun (awake : Nat) => (List.range 6).map s.arg ++ [if s.arg 6 = 0 then s.moves + 1 else s.arg 6, awake]
    match s.linkAhead link (s.arg 6) with
    | some t => s.postIn (t - s.time) ⟨.hostBarAccess, args (s.arg 7)⟩
    | none =>
      let wr := s.arg 2 == 1
      if s.arg 1 = 0 then
        let u := s.barUnit (s.arg 3) (s.arg 4)
        let (n, t) := s.wakeUnit u
        if n ≠ 0 ∧ s.arg 7 = 0 then t.postIn n ⟨.hostBarAccess, args 1⟩
        else (if s.arg 7 = 0 then t else s.unitAwake u).bar0 link (s.arg 3) (s.arg 4) wr (w64 (s.arg 5))
      else { s with ev := args 0 }.bar2 link (s.arg 3) (min 8 (s.arg 4)) wr (w64 (s.arg 5))) s

/-- The code of homeAtomic for a peer's atomic on 4 or 8 bytes: 2 SWAP, 3 CAS, 4 FADD. -/
def peerAtomic (op n : Nat) : Nat := 2 * (op - 2) + (if n = 4 then 0 else 1)

/-- PEER_REQUEST_ARRIVAL (R424): operands the operation (0 read, 1 write, 2 SWAP, 3 CAS, 4 FADD), the offset in the bonded DRAM, the bytes, two values, and the I/O die and port through
which it comes, from which it takes the route of R13 to its home. -/
def execPeerRequestArrival (s : State) : Host.Outcome State Fault Refusal :=
  event (fun s =>
    let op := s.arg 0
    let off := s.arg 1
    let n := min 8 (s.arg 2)
    if !s.portUp (s.arg 5) (s.arg 6) then s
    else if !s.bonded off n ∨ s.routeCut (s.arg 5) (homeDie off) = true then if op = 1 then s else { s with sent := s.sent ++ [.peerRead 0 false] }
    else s.serveAt .peerRequestArrival off fun s =>
      if op = 1 then s.homeWrite off n (s.arg 3)
      else
        let (y, s) := s.homeRead off n
        let s := { s with sent := s.sent ++ [.peerRead (w64 y) (!s.anyPoison off n)] }
        if op = 0 then s else s.homeAtomic (peerAtomic op n) off (w64 (s.arg 3)) (w64 (s.arg 4))) s

/-- 10 ms in ticks of TIME (R489). -/
def peerWait : Nat := 22500000

/-- PEER_REQUEST_TIMEOUT (R489): operands the core and the context. Its oldest request to a peer that has had no completion for 10 ms completes poisoned: the fault of R453 becomes pending, and
the context goes on. -/
def execPeerRequestTimeout (s : State) : Host.Outcome State Fault Refusal :=
  event (fun s =>
    let k := s.arg 0
    let x := cix (s.arg 1)
    match (s.ctx k x).prods.findSome? fun p => (p.peer.filter fun q => decide (q.2.2 + peerWait ≤ s.time)).map fun q => (p, q.1, q.2.1) with
    | none => s
    | some (p, f) => (s.modCtx k x fun c => { c with prods := c.prods.erase p }.complete { p with poison := some f }).tryEnter k x) s

/-! ## Links (R420, R478, R489) -/

/-- The link kind of a code: 0 host, 1 fabric, 2 CXL, 3 die-to-die, 4 management. -/
def linkOf (n : Nat) : LinkKind :=
  if n = 0 then .host else if n = 1 then .fabric else if n = 2 then .cxl else if n = 3 then .dieLink else .management

/-- The number of fabric port j of an I/O die in the module: 72 on each (R11). -/
def fabricPort (e j : Nat) : Nat := 72 * e + j
/-- The number of capacity port j of an I/O die in the module: 4 on each (R11). -/
def cxlPort (e j : Nat) : Nat := 4 * e + j

/-- The Mizzen core 0 of an I/O die. -/
def mizIo (e : Nat) : Nat := mizBase + 4 * e

/-- Whether some fabric port of the module carries UALink traffic. -/
def State.anyPort (s : State) : Bool := s.iods.any fun e => e.2.trained.any fun p => s.portUp e.1 p.1

/-- Whether a pod channel of core k can no longer reach every member (R489): one of the given channels, each a core and a channel, is of its domain; or members lie on other devices and no
port is up. -/
def State.podCut (s : State) (cs : List (Nat × Nat)) (k ch : Nat) : Bool :=
  (s.chan k ch).level == 5 && (cs.any (fun c => c.2 == ch && (s.sharing k ch).contains c.1) || decide ((s.sharing k ch).length < (s.chan k ch).count) && !s.anyPort)

/-- A COLL in flight on a pod channel that can no longer reach every member stops with 0x25 (R489). -/
def State.stopPodColls (s : State) (cs : List (Nat × Nat)) : State :=
  s.cores.foldl (fun s e =>
    (List.finRange 64).foldl (fun s i =>
      let t := e.2.tags[i]
      match t.cmd with
      | some c => if (t.st = .busy ∨ t.st = .srcDone) ∧ c.sel = 5 ∧ s.podCut cs e.1 c.cchan = true then s.stopTag e.1 i.val c (0x25, 0, c.blk[0]) else s
      | none => s) s) s

/-- Pairs of a flat list of operands. -/
def pairsOf : List Nat → List (Nat × Nat)
  | a :: b :: t => (a, b) :: pairsOf t
  | _ => []

/-- A snoop for n bytes at pa, homed on die i, cannot reach die j (R478). -/
def State.dieFence (s : State) (i j pa n : Nat) : State :=
  let s := s.markPoison (pa / 4) (spanWords pa n)
  let s := s.machineCheck (mizOf i) 0x84 (mcDetail 3 j 0xFFFF 0) (w64 pa)
  let s := s.machineCheck (mizOf i) 0x81 (mcDetail 3 j 0xFFFF 0) 0
  s.fence j

/-- LINK_FAILURE (R489, R478, R481): operands the kind of the link and two numbers. Host link e, whose surprise down is reported; fabric port j or capacity port j of I/O die i; the link of
dies i and j (I/O die e is die 4 + e), with the physical address and bytes of a snoop that it cannot carry, 0 bytes for none; the management link of I/O die i. For a fabric port the cores and
numbers of the channels that the fabric connects to every member no more follow: how it is built is no state of the module. -/
def execLinkFailure (s : State) : Host.Outcome State Fault Refusal :=
  event (fun s =>
    let lk := linkOf (s.arg 0)
    let i := s.arg 1
    let j := s.arg 2
    let s := { s with downLinks := (lk, i, j) :: s.downLinks }
    match lk with
    | .management => s
    | .host => State.answerCut { s with sent := s.sent ++ [.surpriseDown i] }
    | .fabric => ((s.machineCheck (mizIo i) 0x81 (mcDetail 4 (fabricPort i j) 0xFFFF 0) 0).stopPodColls (pairsOf (s.ev.drop 3))).answerCut
    | .cxl => ((s.modIod i fun y => { y with cxldown := j :: y.cxldown }).machineCheck (mizIo i) 0x81 (mcDetail 5 (cxlPort i j) 0xFFFF 0) 0).answerCut
    | .dieLink =>
      if s.arg 4 = 0 then (s.machineCheck (if i < 4 then mizOf i else mizIo (i - 4)) 0x81 (mcDetail 3 j 0xFFFF 0) 0).answerCut else s.dieFence i j (s.arg 3) (s.arg 4)) s

/-- LINK_TRAINING (R420, R421, R423, R430, R489): operands the kind, two numbers as for LINK_FAILURE, and 1 where the link trains at reduced width, which is counted as a
corrected event. For a host link the ranges of host memory follow, address and length, whose requests the host does not serve (R500). A fabric port takes the mode of PORTMODE; the firmware reads the capacity behind a capacity port into CXLSZ; the management link of the ROM's die starts its attempt (R430, R492). -/
def execLinkTraining (s : State) : Host.Outcome State Fault Refusal :=
  event (fun s =>
    let lk := linkOf (s.arg 0)
    let i := s.arg 1
    let j := s.arg 2
    let narrow := decide (s.arg 3 = 1)
    let s := { s with downLinks := s.downLinks.filter fun l => !(l == (lk, i, j)) }
    match lk with
    | .host => { s with hostErrs := pairsOf (s.ev.drop 4) }
    | .dieLink => s
    | .fabric =>
      let s := s.modIod i fun y => { y with trained := sset y.trained j (fld y.portmode[Fin.ofNat 3 (j / 32)] (2 * (j % 32)) 2) }
      if narrow then s.machineCheck (mizIo i) 0x88 (mcDetail 4 (fabricPort i j) 0xFFFF 0) 0 else s
    | .cxl =>
      let s := s.modIod i fun y => { y with cxlsz := y.cxlsz.set (Fin.ofNat 4 j) (w64 (min 1024 (Config.fittedGib (cxlPort i j)))) }
      if narrow then s.machineCheck (mizIo i) 0x88 (mcDetail 5 (cxlPort i j) 0xFFFF 0) 0 else s
    | .management =>
      if s.boot.stage = 0 ∧ s.boot.rom = i ∧ s.boot.waiting = false then
        { s with boot := { s.boot with stage := 1, attempts := s.boot.attempts + 1 } }
      else s) s

/-! ## Registers (R232, R412, R419) -/

/-- BIN_CONFIG_WRITE (R232): operands the die, the offset of BCFG, BSPBASE or BSPSIZE in its block, and the data; M writes it. -/
def execBinConfigWrite (s : State) : Host.Outcome State Fault Refusal :=
  event (fun s =>
    if s.arg 1 ≤ 16 then (s.regWrite (regBase + 0x100000 + s.arg 0 % 4 * 0x10000 + s.arg 1) 2 (w64 (s.arg 2))).getD s else s) s

/-- REGISTER_WRITE (R412, R419): operands the level of the requester (0 U, 1 S, 2 M), the physical address and the data. A refused write has no effect. -/
def execRegisterWrite (s : State) : Host.Outcome State Fault Refusal :=
  event (fun s => (s.regWrite (s.arg 1) (s.arg 0) (w64 (s.arg 2))).getD s) s

/-! ## The mailbox (R428)

The event of each row serves the oldest message, or with operands a request of the management port. -/

/-- Write bytes at their home. -/
def State.homeBytes (s : State) (pa : Nat) : List Byte → State
  | [] => s
  | b :: t => State.homeBytes (s.homeWrite pa 1 b.toNat) (pa + 1) t

/-- Read bytes at their home. -/
def State.homeReadBytes (s : State) (pa : Nat) : Nat → List Byte × State
  | 0 => ([], s)
  | n + 1 =>
    let (x, s) := s.homeRead pa 1
    let (l, s) := State.homeReadBytes s (pa + 1) n
    (BitVec.ofNat 8 x :: l, s)

/-- The n low bytes of a number, the lowest first (R2). -/
def leBytes (n x : Nat) : List Byte := (List.range n).map fun i => BitVec.ofNat 8 (x / 256 ^ i)

/-- The oldest message is served: COMPL is filled with the status and the bytes written, and MSI-X vector 0 of its host function is raised (R428, R429). -/
def State.mbxDone (s : State) (status bytes : Nat) : State :=
  match s.mbx with
  | [] => s
  | (msg, link) :: rest =>
    let s := { s with mbx := rest }.mbxFill msg (w64 (bytes % 2 ^ 32 * 2 ^ 32 + status))
    match link with
    | some l => { s with sent := s.sent ++ [.msix l 0] }
    | none => s

/-- ARG i of the oldest message. -/
def State.mbxArg (s : State) (i : Nat) : Nat × State := match s.mbx.head? with
  | some m => s.homeRead (m.1 + 16 + 8 * i) 8
  | none => (0, s)

/-- The management port answers a Redfish request for what a mailbox opcode asks (R428): the status, and the bytes that a message has written to its buffer. It is served while the payload
runs and the port has its link; how Redfish lays a request out is no matter of the spec (DESIGN CHOICE, log entry 66). -/
def State.redfish (s : State) (op status : Nat) (l : List Byte) : State :=
  if s.boot.stage = 4 ∧ !(s.downLinks.any fun d => d.1 == .management && d.2.1 == s.boot.rom) then { s with sent := s.sent ++ [.redfish op status l] } else s

/-- Whether the event that is performed is a request of the management port: its first operand is 1, and the arguments of the request follow. -/
def State.byPort (s : State) : Bool := s.arg 0 == 1

/-- Serve the oldest message if it is of a row (R428): before the payload runs it waits; behind a message of another row it waits too, and that row is asked for. -/
def State.mbxServe (s : State) (row : Instr) (f : State → State) : State :=
  match s.mbx with
  | [] => s
  | m :: _ =>
    let (op, s) := s.homeRead m.1 4
    if s.boot.stage ≠ 4 then s.postMore ⟨row, []⟩
    else if mbxRow op ≠ row then (s.post ⟨mbxRow op, []⟩).postMore ⟨row, []⟩
    else f s

/-- Whether n bytes at a physical address are memory that the firmware can use as a buffer. -/
def State.buffer (s : State) (pa n : Nat) : Bool := s.populated pa && s.populated (pa + n - 1) && !isReg pa

/-- CRC-32 of IEEE 802.3 with one more byte. -/
def crc32Byte (c b : Nat) : Nat := (List.range 8).foldl (fun c _ => if c % 2 = 1 then c / 2 ^^^ 0xEDB88320 else c / 2) (c ^^^ b)
/-- CRC-32 of bytes (R434). -/
def crc32 (l : List Byte) : Nat := (l.foldl (fun c b => crc32Byte c b.toNat) 0xFFFFFFFF) ^^^ 0xFFFFFFFF

/-- The defect map as bytes (R434). -/
def State.mapBytes (s : State) : List Byte :=
  let es := s.defects.flatMap fun e => leBytes 8 e.toNat
  leBytes 2 1 ++ leBytes 2 s.defects.length ++ leBytes 4 (crc32 es) ++ leBytes 8 Config.modid.toNat ++ es

/-- MBX_READ_DEFECT_MAP (R428, R434): also answers a message whose opcode is unknown. -/
def execMbxReadDefectMap (s : State) : Host.Outcome State Fault Refusal :=
  event (fun s => if s.byPort then s.redfish 1 0 s.mapBytes else s.mbxServe .mbxReadDefectMap fun s =>
    let (op, s) := s.homeRead ((s.mbx.head?.map (·.1)).getD 0) 4
    if op ≠ 1 then s.mbxDone 2 0
    else
      let (buf, s) := s.mbxArg 0
      let (len, s) := s.mbxArg 1
      if len < 4112 ∨ s.buffer buf len = false then s.mbxDone 3 0
      else (s.homeBytes buf s.mapBytes).mbxDone 0 s.mapBytes.length) s

/-- The image that runs: the bytes that its attempt fetched (R430). -/
def State.image (s : State) : List Byte := Config.bootImage s.boot.attempts.toNat

/-- A little-endian number of n bytes of a list, from a position (R2). -/
def numAt (l : List Byte) (i n : Nat) : Nat := ((l.drop i).take n).foldr (fun b r => b.toNat + 256 * r) 0

/-- The bytes of an image that its signature covers (R431). -/
def signedPart (l : List Byte) : List Byte := l.take 1809 ++ l.drop 4096

/-- Bytes 0 to 127 of an attestation report (R432). -/
def State.attested (s : State) (nonce : List Byte) : List Byte :=
  leBytes 8 Config.modid.toNat ++ leBytes 8 (numAt s.image 8 4) ++ shake256 (signedPart s.image) 64 ++ nonce ++ leBytes 16 (s.time % 2 ^ 64)

/-- An attestation report (R432). -/
def State.attestation (s : State) (nonce : List Byte) : List Byte :=
  let body := s.attested nonce
  let sig := Config.falconSign body
  body ++ leBytes 2 sig.length ++ sig

/-- MBX_ATTESTATION_REPORT (R428, R432). -/
def execMbxAttestationReport (s : State) : Host.Outcome State Fault Refusal :=
  event (fun s => if s.byPort then s.redfish 2 0 (s.attestation (leBytes 32 (s.arg 1))) else s.mbxServe .mbxAttestationReport fun s =>
    let (nonce, s) := s.mbxArg 0
    let (buf, s) := s.mbxArg 1
    if s.buffer nonce 32 = false ∨ s.buffer buf 2048 = false then s.mbxDone 3 0
    else
      let (n, s) := s.homeReadBytes nonce 32
      let r := s.attestation n
      (s.homeBytes buf r).mbxDone 0 r.length) s

/-- MARGINV of a die set to an offset: the status, 3 for a bad argument (R428, R420). -/
def State.setMarginv (s : State) (d x : Nat) : Nat × State :=
  let v := (BitVec.ofNat 64 x).toInt
  if 4 ≤ d ∨ v < -16 ∨ 15 < v then (3, s) else (0, s.modDie d fun y => { y with marginv := w64 (x % 32) })

/-- MBX_SET_MARGINV (R428, R420). -/
def execMbxSetMarginv (s : State) : Host.Outcome State Fault Refusal :=
  event (fun s =>
    if s.byPort then if s.boot.stage = 4 then (s.setMarginv (s.arg 1) (s.arg 2)).2.redfish 3 (s.setMarginv (s.arg 1) (s.arg 2)).1 [] else s
    else s.mbxServe .mbxSetMarginv fun s =>
      let (d, s) := s.mbxArg 0
      let (x, s) := s.mbxArg 1
      let (st, s) := s.setMarginv d x
      s.mbxDone st 0) s

/-- Bytes of memory sent to an Ultra Ethernet endpoint: the status, 3 for a bad argument (R428, R426). -/
def State.sendUet (s : State) (src len blk : Nat) : Nat × State :=
  if 2 ^ 20 < len ∨ s.buffer src len = false ∨ s.buffer blk 32 = false then (3, s)
  else
    let (l, s) := s.homeReadBytes src len
    let (e, s) := s.endpointAt blk
    (0, { s with sent := s.sent ++ [Sent.uet e l] })

/-- MBX_SEND_UET (R428, R426). -/
def execMbxSendUet (s : State) : Host.Outcome State Fault Refusal :=
  event (fun s =>
    if s.byPort then if s.boot.stage = 4 then (s.sendUet (s.arg 1) (s.arg 2) (s.arg 3)).2.redfish 4 (s.sendUet (s.arg 1) (s.arg 2) (s.arg 3)).1 [] else s
    else s.mbxServe .mbxSendUet fun s =>
      let (src, s) := s.mbxArg 0
      let (len, s) := s.mbxArg 1
      let (blk, s) := s.mbxArg 2
      let (st, s) := s.sendUet src len blk
      s.mbxDone st 0) s

/-- MBX_IDENTITY_CERTIFICATE (R428). -/
def execMbxIdentityCertificate (s : State) : Host.Outcome State Fault Refusal :=
  event (fun s => if s.byPort then s.redfish 5 0 (Config.certificate.take 4096) else s.mbxServe .mbxIdentityCertificate fun s =>
    let (buf, s) := s.mbxArg 0
    if s.buffer buf 4096 = false then s.mbxDone 3 0
    else (s.homeBytes buf (Config.certificate.take 4096)).mbxDone 0 (Config.certificate.take 4096).length) s

end Sys2Proof.Machine
end

