-- ==== Sys2Proof/Machine/Boot.lean ====
section
/-!
DEFINITION. Module reset, power-on and the boot ROM (R6, R430, R431, R490, R492).
-/

namespace Sys2Proof.Machine

/-! ## Reset (R6, R430) -/

/-- Rows whose event comes from outside the module: a reset does not withdraw them (log entry 1). -/
def Instr.outside : Instr → Bool
  | .moduleReset | .powerOn | .launchPacket | .hostLtrMessage | .hostBarAccess | .peerRequestArrival | .linkFailure | .linkTraining | .supplyDroop | .thermalTrip
  | .dhcpv6Reply | .bootFetchFailure | .bootRomFallback => true
  | _ => false

/-- The state right after module reset (R6, R430): every field at its reset value but PWREVT.TRIP (R490), the entries fused into the defect map (R434), memory outside the
module, what has been sent, and the model's own bookkeeping (log entry 1). -/
def State.afterReset (s : State) : State :=
  { State.reset with
    dies := ((s.dies.filter fun e => bit e.2.pwrevt 2).map fun e => (e.1, { Die.reset e.1 with pwrevt := 4 }))
    mem := s.mem.filter fun c => decide (hostBase ≤ c.1) && decide (c.1 < regBase)
    fieldMap := s.fieldMap, sent := s.sent, turns := s.turns, fresh := s.fresh, moves := s.moves
    pendingEv := s.pendingEv.filter fun e => Instr.outside e.2.row }

/-- MODULE_RESET (R430). -/
def execModuleReset (s : State) : Host.Outcome State Fault Refusal := event State.afterReset s

/-- POWER_ON (R490): TRIP is 0. -/
def execPowerOn (s : State) : Host.Outcome State Fault Refusal := event (fun s => { s.afterReset with dies := [] }) s

/-! ## The boot ROM (R430, R492) -/

/-- 10 s in ticks of TIME, which runs from module reset (R430, R21). -/
def linkWait : Nat := 22500000000

/-- Whether the management port of IOD0 has had no link for 10 s after module reset (R430). -/
def State.fallbackDue (s : State) : Bool := s.boot.stage == 0 && s.boot.rom == 0 && s.boot.attempts == 0 && decide (linkWait ≤ s.time)

/-- BOOT_ROM_FALLBACK (R430): the management port of IOD0 has had no link for 10 s. -/
def execBootRomFallback (s : State) : Host.Outcome State Fault Refusal :=
  event (fun s => if s.fallbackDue then { s with boot := { s.boot with rom := 1 } } else s) s

/-- The wait before the next attempt in seconds, by how many have failed (R492). -/
def backOff (fails : Nat) : Nat := 2 ^ min (fails - 1) 6

/-- A failed attempt (R492). -/
def State.bootFail (s : State) (reason : Nat) : State :=
  { s with boot := { s.boot with stage := 0, reason := reason, fails := s.boot.fails + 1, waiting := true } }.postIn (backOff (s.boot.fails + 1) * 2250000000) ⟨.bootRetry, []⟩

/-- DHCPV6_REPLY (R430): step 2 begins. -/
def execDhcpv6Reply (s : State) : Host.Outcome State Fault Refusal :=
  event (fun s => if s.boot.stage = 1 then { s with boot := { s.boot with stage := 2 } } else s) s

/-- BOOT_FETCH_FAILURE (R492): operand the reason, 1 to 3. -/
def execBootFetchFailure (s : State) : Host.Outcome State Fault Refusal :=
  event (fun s => if s.boot.stage < 3 ∧ s.boot.waiting = false then s.bootFail (s.arg 0) else s) s

/-- BOOT_RETRY (R492): the wait has passed, and the ROM starts at step 1. -/
def execBootRetry (s : State) : Host.Outcome State Fault Refusal :=
  event (fun s => if s.boot.waiting then
    { s with boot := { s.boot with stage := 1, waiting := false, attempts := s.boot.attempts + 1 } } else s) s

/-- The reason for which an image is refused (R431, R492); 0 for one that is accepted. -/
def imageReason (l : List Byte) : Nat :=
  let siglen := numAt l 1809 2
  let key := (l.drop 16).take 1793
  if 2 ^ 28 < l.length ∨ l.length ≠ 4096 + numAt l 12 4 then 4
  else if numAt l 0 4 ≠ 0x514B3441 ∨ numAt l 4 4 ≠ Config.bootVersion then 5
  else if numAt (shake256 key 32) 0 32 ≠ Config.roothash then 6
  else if numAt l 8 4 < Config.minsvn then 7
  else if 1462 < siglen then 9
  else if falconVerify key (shake256 (signedPart l) 64) ((l.drop 1811).take siglen) then 0
  else 8

/-- The image in bonded DRAM from physical 0 (R430): at most 256 MiB of it. -/
def State.placeImage (s : State) : State := s.homeBytes 0 (s.image.take (2 ^ 28))

/-- A Mizzen core runs the payload; a machine check that waits is taken at once (R430, R457). -/
def State.startMizzen (s : State) (k : Nat) : State :=
  let s := (s.modCtx k 0 fun c => { c with st := .live }).aim k 0 (Config.mizzenEntry 1)
  if (s.core k).mcq.isEmpty then s else s.post ⟨.machineCheck, [k]⟩

/-- BOOT_IMAGE_VERIFY (R430, R431, R492): the fetch of the image is over and stage 3 begins; then the image is verified, and the payload runs at M on Mizzen core 0 of each I/O die, that of
the ROM's first, if it passes (log entry 9). -/
def execBootImageVerify (s : State) : Host.Outcome State Fault Refusal :=
  event (fun s =>
    if s.boot.stage = 2 then { s.placeImage with boot := { s.boot with stage := 3 } }.postMore ⟨.bootImageVerify, []⟩
    else if s.boot.stage ≠ 3 then s
    else
      match imageReason s.image with
      | 0 =>
        ({ s with boot := { s.boot with stage := 4 } }.startMizzen (mizIo s.boot.rom)).startMizzen (mizIo (1 - s.boot.rom))
      | n => s.bootFail n) s

end Sys2Proof.Machine
end

