-- ==== Sys2Proof/Machine/Program.lean ====
section
/-!
DEFINITION. Placing one instruction where core 0 fetches next, for a state that no program has been loaded into (log entry 10): a page mapped for ASID 0, the
line that holds the instruction, and a live context 0 whose PC points at it.
-/

namespace Sys2Proof.Machine

/-- The virtual address of the line. -/
def codeVa : Nat := 0x40000
/-- The physical page that holds it. -/
def codePa : Nat := 0x200000

/-- An instruction line with one instruction: its head, a NOP behind it unless it ends the line, and its tail at the end of the line (R99 to R102). -/
def oneLine (head tail : Nat) : Nat :=
  let tl := bits head 14 2
  head + (if bits head 13 1 = 1 then 0 else 0x2000 * 2 ^ 16) + tail % 2 ^ (16 * tl) * 2 ^ (512 - 16 * tl)

/-- A line that holds one NOP. -/
def nopLine : Nat := 0x2000

/-- The ASID table entry, the four tables and the two lines: physical address, bytes, value (R170, R171, R99). -/
def codeMap (head tail : Nat) : List (Nat × Nat × Nat) :=
  [(0x108000, 8, 0x100001), (0x100000, 8, 0x101001), (0x101000, 8, 0x102001), (0x102000, 8, 0x103001), (0x103200, 8, codePa + 0x1F),
   (codePa, 64, oneLine head tail), (codePa + 64, 64, nopLine), (codePa + 128, 64, nopLine)]

/-- A context that issues next at the line: nothing of an earlier instruction is left. -/
def Ctx.ready0 (c : Ctx) : Ctx :=
  { c.setStatus 32 12 0 with
    st := .live, hold := none, wake := 0, late := [], entering := none, prog := .none, stopReq := false, poisonQ := [], copyQ := [], cpyiQ := [], walked := []
    pc := w64 codeVa, apc := false, an1 := false }

/-- The translation of the page (R171): V, R, W, X and US. -/
def codeTlb : Tlb := ⟨0, codeVa, 4096, codePa, 0x1F, none⟩

/-- A core whose context 0 is its only live one, and which holds the translation of the line. -/
def Core.ready0 (c : Core) : Core :=
  let t := (c.ctx 0).ready0
  { c with
    tlb := [codeTlb], icache := [], track := [], slice := none, cq := [], units := Vector.replicate 3 0, issued := 0, idle := .run, waking := 0
    ctxs := (vmap (fun (x : Ctx) => { x with st := .free }) c.ctxs).set 0 t }

/-- A die whose core clock is at its full rate, so that every tick begins a cycle (R22, R490, R491). -/
def Die.ready0 (y : Die) : Die := { y with tripped := false, tempLimit := false, droopSteps := 0, setpoint := 650 }

/-- The line of an instruction is mapped, core 0 holds it in its instruction cache and is about to issue it. -/
def State.placeInstr (s : State) (head tail : Nat) : State :=
  let s := (codeMap head tail).foldl (fun s e => s.homeWrite e.1 e.2.1 e.2.2) s
  let s := { s with asidtbase := 0x108000 }.modCore 0 Core.ready0
  let s := s.modCluster 0 fun c => { c with tlb := [], roots := [] }
  let s := s.modDie 0 Die.ready0
  (s.aim 0 0 (w64 codeVa)).modCtx 0 0 fun c => { c with wake := 0 }

end Sys2Proof.Machine
end

