-- ==== Sys2Proof/Machine/Errors.lean ====
section
/-!
DEFINITION. Errors in the memories (R477, R481), which reach the machine as machine checks, and the taking of a machine check (R457).
-/

namespace Sys2Proof.Machine

/-! ## What an error hits (R481; log entry 54)

An array has the number that the syndrome of R481 gives it: 0 bonded DRAM, 1 L2, 2 scratchpad, 3 L1, 4 Bushel, 5 MXU accumulator, 6 register file, 7 queue register, 8 NI buffer,
9 Shroud. `unit` is the core, for the L2 and the Bushel 64 x die + slice, for the Shroud the die; `index` the entry: a physical word, a line, a scratchpad word, a bin page, a tile, a
context, a queue, a tag. -/

/-- The unit kind of an array in the detail word (R457). -/
def errorKind : Nat → Nat
  | 0 => 2
  | 1 => 1
  | 4 => 6
  | 5 => 7
  | 9 => 8
  | _ => 0

/-- The compute die that holds an entry. -/
def errorDie (array unit index : Nat) : Nat := match array with
  | 0 => homeDie (4 * index)
  | 1 | 4 => unit / 64
  | 9 => unit
  | _ => dieOf unit

/-- The number of the unit in the detail word: a die, a slice, an octet or a core (R457, R19). -/
def errorUnit (array unit index : Nat) : Nat := match array with
  | 0 => homeDie (4 * index)
  | 5 => octetOf unit
  | _ => unit

/-- The core that the detail word names; 0xFFFF for none. -/
def errorCore (array unit : Nat) : Nat := if array = 0 ∨ array = 1 ∨ array = 4 ∨ array = 9 then 0xFFFF else unit

/-- The machine check of an error: array and entry in its syndrome (R481). -/
def State.reportError (s : State) (code array unit index pa : Nat) : State :=
  s.machineCheck (mizOf (errorDie array unit index)) code
    (mcDetail (errorKind array) (errorUnit array unit index) (errorCore array unit) (array * 2 ^ 24 + index % 2 ^ 24)) (w64 pa)

/-- A bin page loses the entries of a chunk, or of a run behind its chunks (R477): those elsewhere are applied, and every word of the page is poisoned. -/
def State.binLost (s : State) (page x : Nat) : State :=
  let s := s.recallPartials page
  match sget s.bins page with
  | none => s
  | some b =>
    let r := s.region b.region
    let per := 64 / r.entBytes
    let n := r.chunks b.ents.length
    let b := if x < n then { b with ents := b.ents.take (per * x) ++ b.ents.drop (per * x + per) } else { b with runs := b.runs.eraseIdx (x - n) }
    let s := { s with bins := sset s.bins page b }.applyPage page
    { s with bins := sdel s.bins page }.markPoison (page / 4) 1024

/-- The L1 copy of a word that an error hits (R481): a V word goes to I and is fetched again, with no report; of a D or U word the value is lost, and the word is poisoned at its
home. -/
def State.l1Lost (s : State) (k w : Nat) : State :=
  match sget (s.core k).l1 w with
  | none => s
  | some y =>
    let gone := if y.held then s.loseCopies k fun c => c.w == w && c.st == y.st else s.modCore k fun c => { c with l1 := sdel c.l1 w }
    match y.st with
    | .v _ => gone
    | .d => (gone.markPoison w 1).reportError 0x80 3 k w (4 * w)
    | .u r _ _ => (gone.markPoison w (max 1 ((s.region r).ty.bytes / 4))).reportError 0x80 3 k w (4 * w)

/-- The first word of what the L1 holds of a word: of a U partial of 8 bytes, whose value lies with its first word, that one (R227). -/
def State.l1First (s : State) (k w : Nat) : Nat :=
  let wide := (sget (s.core k).l1 (w - 1)).any fun y => match y.st with
    | .u r _ _ => (s.region r).ty.bytes == 8
    | _ => false
  if w ≠ 0 ∧ wide = true ∧ (sget (s.core k).l1 w).isNone then w - 1 else w

/-- The D word of a window that lies in a scratchpad word of core k. -/
def Core.winDirty (c : Core) (index : Nat) : Option Copy :=
  (List.finRange 8).findSome? fun i => match c.wins[i] with
    | some w => if w.base ≤ 4 * index ∧ 4 * index < w.base + w.len then (sget w.words (index - w.base / 4)).filter fun y => y.st == .d else none
    | none => none

/-- An error in a scratchpad word (R481): the word is poisoned. Where it holds the D word of a window, the value is lost, and the word is poisoned at its home; where it holds a V word, its readers
find the poison. -/
def State.spadLost (s : State) (k index : Nat) : State :=
  match (s.core k).winDirty index with
  | some y => (s.loseCopies k fun c => c.w == y.w && c.st == .d).markPoison y.w 1
  | none => s.modCore k fun c => { c with spoison := if c.spoison.contains index then c.spoison else c.spoison ++ [index] }

/-- The address of the element that the next entry of a GATHR or SCATR reads (R376, R378); of the entry, where that cannot be read. -/
def State.entrySource (s : State) (k : Nat) (c : Cmd) (i : Nat) : Word :=
  if c.sel = 3 then c.blk[1] + w64 (i * c.elen)
  else match (s.readEntry k c i).1 with
    | .ok (some p) => w64 (aperBase + p.1 * 0x20000 + p.2)
    | _ => c.blk[0] + w64 (4 * i)

/-- An error that is not corrected (R477, R481); x is the number of words in the DRAM, and the chunk or run in a bin page. -/
def State.hardError (s : State) (array unit index x : Nat) : State :=
  match array with
  | 0 => (s.markPoison index x).reportError 0x80 0 unit index (4 * index)
  | 1 => (s.markPoison (16 * index) 16).reportError 0x80 1 unit index (64 * index)
  | 2 => (s.spadLost unit index).reportError 0x80 2 unit index 0
  | 3 => s.l1Lost unit (s.l1First unit index)
  | 4 => (s.binLost (pageOf index) x).reportError 0x80 4 unit index (pageOf index)
  | 5 => (s.modCore unit fun c => { c with tbad := setBit c.tbad (index % 4) true }).reportError 0x80 5 unit index 0
  | 6 | 7 => (s.reportError 0x80 array unit index 0).loseContext unit false
  | 8 => match (s.tag unit index).cmd with
    | some c => if (s.tag unit index).st = .busy ∧ (c.sel = 2 ∨ c.sel = 3) then s.stopTag unit index c (0x26, 0, s.entrySource unit c (s.tag unit index).done) else s
    | none => s
  | 9 => (s.shroudEvict unit index).reportError 0x88 9 unit index 0
  | _ => s

/-- An error whose array needs no report of its own kind (R481, R489): poison that a Firkin delivers; a clean line of the L2, which is fetched again; a word of an image that is being
saved (R465). -/
def State.softError (s : State) (array unit index x : Nat) : State :=
  match array with
  | 0 => s.markPoison index x
  | 1 => s.modDie (unit / 64) fun y => { y with l2 := sset y.l2 (unit % 64) (((sget y.l2 (unit % 64)).getD []).erase index) }
  | 2 => (s.reportError 0x83 2 unit index 0).loseContext unit true
  | _ => s

/-! ## Machine checks (R457) -/

/-- A machine check is taken at once on a Mizzen core unless it handles one; it waits while the core enters a handler, and until the payload runs. It is no attributed fault: ASYNC is 0
(R447). -/
def State.takeCheck (s : State) (mz : Nat) : State :=
  if !isMiz mz || (s.core mz).handling || (s.ctx mz 0).st ≠ .live then s
  else if (s.ctx mz 0).entering.isSome then s.postMore ⟨.machineCheck, [mz]⟩
  else match nextCheck (s.core mz).mcq with
    | none => s
    | some e =>
      let d := putBits e.2.1 24 8 (if (s.core mz).mcDropped = 0 then fld e.2.1 24 8 else min 255 (s.core mz).mcDropped)
      let s := s.modCore mz fun c => { c with mcq := c.mcq.erase e, handling := true, mcDropped := 0 }
      s.enterS mz 0 ⟨e.1, d, e.2.2, false⟩

/-- MACHINE_CHECK (R457, R481): operand the Mizzen core; or an error in a memory: 0, its array, whether it is corrected (0), not corrected (1) or of the kinds of `softError` (2), its
unit, its entry and x; with kind 3 only the report that an apply has met such an error in a run (R477), whose entry is a physical page. -/
def execMachineCheck (s : State) : Host.Outcome State Fault Refusal :=
  event (fun s =>
    if s.ev.length ≤ 1 then s.takeCheck (s.arg 0)
    else
      let unit := s.arg 3
      let index := s.arg 4
      if s.arg 2 = 0 then s.reportError 0x88 (s.arg 1) unit index 0
      else if s.arg 2 = 3 then s.reportError 0x80 (s.arg 1) unit index index
      else if s.arg 2 = 1 then s.hardError (s.arg 1) unit index (s.arg 5)
      else s.softError (s.arg 1) unit index (s.arg 5)) s

end Sys2Proof.Machine
end

