-- ==== Sys2Proof/Machine/Integer.lean ====
section
/-!
DEFINITION. The integer forms, OP 0x10 to 0x24 (R272 to R278), and the arithmetic they name (R142 to R145).
-/

namespace Sys2Proof.Machine

/-! ## Results -/

/-- The shift amount of a 64-bit operation (R145). -/
def amount (b : Word) : Nat := fld b 0 6
/-- Rotate left by s of 64 bits (R272). -/
def rol64 (a : Word) (s : Nat) : Word := a.rotateLeft s
/-- Signed quotient (R143). -/
def divS (a b : Word) : Word := if b = 0 then BitVec.allOnes 64 else BitVec.ofInt 64 (a.toInt.tdiv b.toInt)
/-- Unsigned quotient (R143). -/
def divU (a b : Word) : Word := if b = 0 then BitVec.allOnes 64 else w64 (a.toNat / b.toNat)
/-- Signed remainder (R143). -/
def remS (a b : Word) : Word := if b = 0 then a else BitVec.ofInt 64 (a.toInt.tmod b.toInt)
/-- Unsigned remainder (R143). -/
def remU (a b : Word) : Word := if b = 0 then a else w64 (a.toNat % b.toNat)
/-- High half of the signed product (R272). -/
def mulHS (a b : Word) : Word := BitVec.ofInt 64 ((a.toInt * b.toInt) / 2 ^ 64)
/-- High half of the unsigned product (R272). -/
def mulHU (a b : Word) : Word := w64 (a.toNat * b.toNat / 2 ^ 64)
/-- 1 or 0. -/
def flag (b : Bool) : Word := if b then 1 else 0
/-- sext(x, 32) of a doubleword (R261). -/
def sextW (x : Word) : Word := sext64 x.toNat 32
/-- Number of leading zeros among the low n bits (R273). -/
def clzN (x : Nat) : Nat → Nat
  | 0 => 0
  | n + 1 => if bits x n 1 = 1 then 0 else clzN x n + 1
/-- Number of trailing zeros from bit i on, of n bits (R273). -/
def ctzN (x : Nat) (i : Nat) : Nat → Nat
  | 0 => 0
  | n + 1 => if bits x i 1 = 1 then 0 else ctzN x (i + 1) n + 1
/-- Number of 1 bits among the low n (R273). -/
def popN (x : Nat) : Nat → Nat
  | 0 => 0
  | n + 1 => popN x n + bits x n 1
/-- BREV of 64 bits: bit i is bit 63 − i. -/
def brev64 (a : Word) : Word := a.reverse
/-- BSWAP of 8 bytes: byte i is byte 7 − i. -/
def bswap64 (a : Word) : Word := w64 ((List.range 8).foldl (fun r i => r + bits a.toNat (8 * i) 8 * 256 ^ (7 - i)) 0)
/-- ABS (R273). -/
def abs64 (a : Word) : Word := if a.toInt < 0 then -a else a
/-- sext(IMM20, 20) as a doubleword (R274). -/
def imm20 (imm : BitVec 20) : Word := sext64 imm.toNat 20
/-- BFX (R277). -/
def bfx (a : Word) (pos len : Nat) : Word := sext64 (a.sshiftRight pos).toNat len
/-- BFXU (R277). -/
def bfxu (a : Word) (pos len : Nat) : Word := w64 (bits a.toNat pos len)
/-- BFI: len bits of a inserted in d at pos, bits past 63 dropped (R277). -/
def bfi (d a : Word) (pos len : Nat) : Word := putBits d pos len a.toNat

/-! ## Shapes -/

/-- A register and an immediate. -/
def opGGI (d : GReg) (a : GSrc) (f : Word → Word) (s : State) : Host.Outcome State Fault Refusal := issueSeq (opGG d a f) s
/-- Two registers. -/
def opG2 (d : GReg) (a b : GSrc) (f : Word → Word → Word) (s : State) : Host.Outcome State Fault Refusal := issueSeq (opGGG d a b f) s

/-! ## Register and register (R272) -/

/-- ADD (R272). -/
def execAdd (d : GReg) (a b : GSrc) (s : State) : Host.Outcome State Fault Refusal := opG2 d a b (fun a b => a + b) s

/-- SUB (R272). -/
def execSub (d : GReg) (a b : GSrc) (s : State) : Host.Outcome State Fault Refusal := opG2 d a b (fun a b => a - b) s

/-- ADD.W (R272). -/
def execAddW (d : GReg) (a b : GSrc) (s : State) : Host.Outcome State Fault Refusal := opG2 d a b (fun a b => sextW (a + b)) s

/-- SUB.W (R272). -/
def execSubW (d : GReg) (a b : GSrc) (s : State) : Host.Outcome State Fault Refusal := opG2 d a b (fun a b => sextW (a - b)) s

/-- AND (R272). -/
def execAnd (d : GReg) (a b : GSrc) (s : State) : Host.Outcome State Fault Refusal := opG2 d a b (fun a b => a &&& b) s

/-- OR (R272). -/
def execOr (d : GReg) (a b : GSrc) (s : State) : Host.Outcome State Fault Refusal := opG2 d a b (fun a b => a ||| b) s

/-- XOR (R272). -/
def execXor (d : GReg) (a b : GSrc) (s : State) : Host.Outcome State Fault Refusal := opG2 d a b (fun a b => a ^^^ b) s

/-- ANDN (R272). -/
def execAndn (d : GReg) (a b : GSrc) (s : State) : Host.Outcome State Fault Refusal := opG2 d a b (fun a b => a &&& ~~~b) s

/-- SHL (R272). -/
def execShl (d : GReg) (a b : GSrc) (s : State) : Host.Outcome State Fault Refusal := opG2 d a b (fun a b => a <<< amount b) s

/-- SHR (R272). -/
def execShr (d : GReg) (a b : GSrc) (s : State) : Host.Outcome State Fault Refusal := opG2 d a b (fun a b => a >>> amount b) s

/-- SRA (R272). -/
def execSra (d : GReg) (a b : GSrc) (s : State) : Host.Outcome State Fault Refusal := opG2 d a b (fun a b => a.sshiftRight (amount b)) s

/-- ROL (R272). -/
def execRol (d : GReg) (a b : GSrc) (s : State) : Host.Outcome State Fault Refusal := opG2 d a b (fun a b => rol64 a (amount b)) s

/-- MUL (R272). -/
def execMul (d : GReg) (a b : GSrc) (s : State) : Host.Outcome State Fault Refusal := opG2 d a b (fun a b => a * b) s

/-- MULH (R272). -/
def execMulh (d : GReg) (a b : GSrc) (s : State) : Host.Outcome State Fault Refusal := opG2 d a b (fun a b => mulHS a b) s

/-- MULHU (R272). -/
def execMulhu (d : GReg) (a b : GSrc) (s : State) : Host.Outcome State Fault Refusal := opG2 d a b (fun a b => mulHU a b) s

/-- MUL.W (R272). -/
def execMulW (d : GReg) (a b : GSrc) (s : State) : Host.Outcome State Fault Refusal := opG2 d a b (fun a b => sextW (a * b)) s

/-- DIV (R272). -/
def execDiv (d : GReg) (a b : GSrc) (s : State) : Host.Outcome State Fault Refusal := opG2 d a b (fun a b => divS a b) s

/-- DIVU (R272). -/
def execDivu (d : GReg) (a b : GSrc) (s : State) : Host.Outcome State Fault Refusal := opG2 d a b (fun a b => divU a b) s

/-- REM (R272). -/
def execRem (d : GReg) (a b : GSrc) (s : State) : Host.Outcome State Fault Refusal := opG2 d a b (fun a b => remS a b) s

/-- REMU (R272). -/
def execRemu (d : GReg) (a b : GSrc) (s : State) : Host.Outcome State Fault Refusal := opG2 d a b (fun a b => remU a b) s

/-- MIN (R272). -/
def execMin (d : GReg) (a b : GSrc) (s : State) : Host.Outcome State Fault Refusal := opG2 d a b (fun a b => if b.toInt < a.toInt then b else a) s

/-- MAX (R272). -/
def execMax (d : GReg) (a b : GSrc) (s : State) : Host.Outcome State Fault Refusal := opG2 d a b (fun a b => if a.toInt < b.toInt then b else a) s

/-- MINU (R272). -/
def execMinu (d : GReg) (a b : GSrc) (s : State) : Host.Outcome State Fault Refusal := opG2 d a b (fun a b => if b.toNat < a.toNat then b else a) s

/-- MAXU (R272). -/
def execMaxu (d : GReg) (a b : GSrc) (s : State) : Host.Outcome State Fault Refusal := opG2 d a b (fun a b => if a.toNat < b.toNat then b else a) s

/-- SLT (R272). -/
def execSlt (d : GReg) (a b : GSrc) (s : State) : Host.Outcome State Fault Refusal := opG2 d a b (fun a b => flag (decide (a.toInt < b.toInt))) s

/-- SLTU (R272). -/
def execSltu (d : GReg) (a b : GSrc) (s : State) : Host.Outcome State Fault Refusal := opG2 d a b (fun a b => flag (decide (a.toNat < b.toNat))) s

/-- SEQ (R272). -/
def execSeq (d : GReg) (a b : GSrc) (s : State) : Host.Outcome State Fault Refusal := opG2 d a b (fun a b => flag (a == b)) s

/-- SNE (R272). -/
def execSne (d : GReg) (a b : GSrc) (s : State) : Host.Outcome State Fault Refusal := opG2 d a b (fun a b => flag (a != b)) s

/-! ## Unary (R273) -/

/-- CLZ (R273). -/
def execClz (d : GReg) (a : GSrc) (s : State) : Host.Outcome State Fault Refusal := opGGI d a (fun a => w64 (clzN a.toNat 64)) s

/-- CTZ (R273). -/
def execCtz (d : GReg) (a : GSrc) (s : State) : Host.Outcome State Fault Refusal := opGGI d a (fun a => w64 (ctzN a.toNat 0 64)) s

/-- POPC (R273). -/
def execPopc (d : GReg) (a : GSrc) (s : State) : Host.Outcome State Fault Refusal := opGGI d a (fun a => w64 (popN a.toNat 64)) s

/-- BREV (R273). -/
def execBrev (d : GReg) (a : GSrc) (s : State) : Host.Outcome State Fault Refusal := opGGI d a (fun a => brev64 a) s

/-- SEXT.B (R273). -/
def execSextB (d : GReg) (a : GSrc) (s : State) : Host.Outcome State Fault Refusal := opGGI d a (fun a => sext64 a.toNat 8) s

/-- SEXT.H (R273). -/
def execSextH (d : GReg) (a : GSrc) (s : State) : Host.Outcome State Fault Refusal := opGGI d a (fun a => sext64 a.toNat 16) s

/-- SEXT.W (R273). -/
def execSextW (d : GReg) (a : GSrc) (s : State) : Host.Outcome State Fault Refusal := opGGI d a (fun a => sext64 a.toNat 32) s

/-- BSWAP (R273). -/
def execBswap (d : GReg) (a : GSrc) (s : State) : Host.Outcome State Fault Refusal := opGGI d a (fun a => bswap64 a) s

/-- ABS (R273). -/
def execAbs (d : GReg) (a : GSrc) (s : State) : Host.Outcome State Fault Refusal := opGGI d a (fun a => abs64 a) s

/-- NEG (R273). -/
def execNeg (d : GReg) (a : GSrc) (s : State) : Host.Outcome State Fault Refusal := opGGI d a (fun a => -a) s

/-! ## Immediates (R274 to R277) -/

/-- ADDI (R274). -/
def execAddi (d : GReg) (a : GSrc) (imm : BitVec 20) (s : State) : Host.Outcome State Fault Refusal := opGGI d a (fun a => a + imm20 imm) s

/-- ANDI (R274). -/
def execAndi (d : GReg) (a : GSrc) (imm : BitVec 20) (s : State) : Host.Outcome State Fault Refusal := opGGI d a (fun a => a &&& imm20 imm) s

/-- ORI (R274). -/
def execOri (d : GReg) (a : GSrc) (imm : BitVec 20) (s : State) : Host.Outcome State Fault Refusal := opGGI d a (fun a => a ||| imm20 imm) s

/-- XORI (R274). -/
def execXori (d : GReg) (a : GSrc) (imm : BitVec 20) (s : State) : Host.Outcome State Fault Refusal := opGGI d a (fun a => a ^^^ imm20 imm) s

/-- SLTI (R274). -/
def execSlti (d : GReg) (a : GSrc) (imm : BitVec 20) (s : State) : Host.Outcome State Fault Refusal := opGGI d a (fun a => flag (decide (a.toInt < (imm20 imm).toInt))) s

/-- SLTIU (R274). -/
def execSltiu (d : GReg) (a : GSrc) (imm : BitVec 20) (s : State) : Host.Outcome State Fault Refusal := opGGI d a (fun a => flag (decide (a.toNat < (imm20 imm).toNat))) s

/-- SHLI (R274). -/
def execShli (d : GReg) (a : GSrc) (sh : BitVec 6) (s : State) : Host.Outcome State Fault Refusal := opGGI d a (fun a => a <<< sh.toNat) s

/-- SHRI (R274). -/
def execShri (d : GReg) (a : GSrc) (sh : BitVec 6) (s : State) : Host.Outcome State Fault Refusal := opGGI d a (fun a => a >>> sh.toNat) s

/-- SRAI (R274). -/
def execSrai (d : GReg) (a : GSrc) (sh : BitVec 6) (s : State) : Host.Outcome State Fault Refusal := opGGI d a (fun a => a.sshiftRight sh.toNat) s

/-- ROLI (R274). -/
def execRoli (d : GReg) (a : GSrc) (sh : BitVec 6) (s : State) : Host.Outcome State Fault Refusal := opGGI d a (fun a => rol64 a sh.toNat) s

/-- LI (R275). -/
def execLi (d : GReg) (imm : BitVec 32) (s : State) : Host.Outcome State Fault Refusal :=
  issueSeq (do
    ready [dG d]
    wrG d (sext64 imm.toNat 32)) s

/-- LIH (R275): gD is read through D. -/
def execLih (d : GReg) (imm : BitVec 32) (s : State) : Host.Outcome State Fault Refusal :=
  issueSeq (do
    ready [sG d]
    let x ← rdG d
    wrG d (w64 (imm.toNat * 2 ^ 32 + fld x 0 32))
    pops [.g d]) s

/-- ADDPC (R276). -/
def execAddpc (d : GReg) (imm : BitVec 20) (s : State) : Host.Outcome State Fault Refusal :=
  issueSeq (do
    ready [dG d]
    let t ← cx
    wrG d (w64 ((t.pc + imm20 imm).toNat % vaTop))) s

/-- BFX (R277); `len` is LEN − 1. -/
def execBfx (d : GReg) (a : GSrc) (len pos : BitVec 6) (s : State) : Host.Outcome State Fault Refusal :=
  opGGI d a (fun a => bfx a pos.toNat (len.toNat + 1)) s

/-- BFXU (R277). -/
def execBfxu (d : GReg) (a : GSrc) (len pos : BitVec 6) (s : State) : Host.Outcome State Fault Refusal :=
  opGGI d a (fun a => bfxu a pos.toNat (len.toNat + 1)) s

/-- BFI (R277): gD is read through D. -/
def execBfi (d : GReg) (a : GSrc) (len pos : BitVec 6) (s : State) : Host.Outcome State Fault Refusal :=
  issueSeq (do
    ready [a.op 0, sG d]
    let x ← rdG a.r
    let y ← rdG d
    wrG d (bfi y x pos.toNat (len.toNat + 1))
    pops [.g a.r, .g d]) s

/-! ## Three sources (R278) -/

/-- Three g sources and a g destination. -/
def opG3 (d : GReg) (a b c : GSrc) (f : Word → Word → Word → Word) (s : State) : Host.Outcome State Fault Refusal :=
  issueSeq (do
    ready [a.op 0, b.op 1, c.op 2, dG d]
    let x ← rdG a.r
    let y ← rdG b.r
    let z ← rdG c.r
    wrG d (f x y z)
    pops [.g a.r, .g b.r, .g c.r]) s

/-- CMOV (R278). -/
def execCmov (d : GReg) (a b c : GSrc) (s : State) : Host.Outcome State Fault Refusal := opG3 d a b c (fun a b c => if c ≠ 0 then a else b) s

/-- MADD (R278). -/
def execMadd (d : GReg) (a b c : GSrc) (s : State) : Host.Outcome State Fault Refusal := opG3 d a b c (fun a b c => a * b + c) s

end Sys2Proof.Machine
end

