-- ==== Sys2Proof/Machine/Dispatch.lean ====
section
/-!
DEFINITION. One arm per constructor of Instr: the meaning of each row of the opcode table.
-/

namespace Sys2Proof.Machine

def exec (i : Instr) (s : State) : Host.Outcome State Fault Refusal :=
  match i with
  | .nop => Sys2Proof.Machine.execNop s
  | .retire => Sys2Proof.Machine.execRetire s
  | .yld => Sys2Proof.Machine.execYld s
  | .ret => Sys2Proof.Machine.execRet s
  | .jr a => Sys2Proof.Machine.execJr a s
  | .callr a => Sys2Proof.Machine.execCallr a s
  | .j imm => Sys2Proof.Machine.execJ imm s
  | .call imm => Sys2Proof.Machine.execCall imm s
  | .bcc a b cc an hidx loff => Sys2Proof.Machine.execBcc a b cc an hidx loff s
  | .start d a imm => Sys2Proof.Machine.execStart d a imm s
  | .split d a imm => Sys2Proof.Machine.execSplit d a imm s
  | .waitf => Sys2Proof.Machine.execWaitf s
  | .add d a b => Sys2Proof.Machine.execAdd d a b s
  | .sub d a b => Sys2Proof.Machine.execSub d a b s
  | .addW d a b => Sys2Proof.Machine.execAddW d a b s
  | .subW d a b => Sys2Proof.Machine.execSubW d a b s
  | .and d a b => Sys2Proof.Machine.execAnd d a b s
  | .or d a b => Sys2Proof.Machine.execOr d a b s
  | .xor d a b => Sys2Proof.Machine.execXor d a b s
  | .andn d a b => Sys2Proof.Machine.execAndn d a b s
  | .shl d a b => Sys2Proof.Machine.execShl d a b s
  | .shr d a b => Sys2Proof.Machine.execShr d a b s
  | .sra d a b => Sys2Proof.Machine.execSra d a b s
  | .rol d a b => Sys2Proof.Machine.execRol d a b s
  | .mul d a b => Sys2Proof.Machine.execMul d a b s
  | .mulh d a b => Sys2Proof.Machine.execMulh d a b s
  | .mulhu d a b => Sys2Proof.Machine.execMulhu d a b s
  | .mulW d a b => Sys2Proof.Machine.execMulW d a b s
  | .div d a b => Sys2Proof.Machine.execDiv d a b s
  | .divu d a b => Sys2Proof.Machine.execDivu d a b s
  | .rem d a b => Sys2Proof.Machine.execRem d a b s
  | .remu d a b => Sys2Proof.Machine.execRemu d a b s
  | .min d a b => Sys2Proof.Machine.execMin d a b s
  | .max d a b => Sys2Proof.Machine.execMax d a b s
  | .minu d a b => Sys2Proof.Machine.execMinu d a b s
  | .maxu d a b => Sys2Proof.Machine.execMaxu d a b s
  | .slt d a b => Sys2Proof.Machine.execSlt d a b s
  | .sltu d a b => Sys2Proof.Machine.execSltu d a b s
  | .seq d a b => Sys2Proof.Machine.execSeq d a b s
  | .sne d a b => Sys2Proof.Machine.execSne d a b s
  | .clz d a => Sys2Proof.Machine.execClz d a s
  | .ctz d a => Sys2Proof.Machine.execCtz d a s
  | .popc d a => Sys2Proof.Machine.execPopc d a s
  | .brev d a => Sys2Proof.Machine.execBrev d a s
  | .sextB d a => Sys2Proof.Machine.execSextB d a s
  | .sextH d a => Sys2Proof.Machine.execSextH d a s
  | .sextW d a => Sys2Proof.Machine.execSextW d a s
  | .bswap d a => Sys2Proof.Machine.execBswap d a s
  | .abs d a => Sys2Proof.Machine.execAbs d a s
  | .neg d a => Sys2Proof.Machine.execNeg d a s
  | .addi d a imm => Sys2Proof.Machine.execAddi d a imm s
  | .andi d a imm => Sys2Proof.Machine.execAndi d a imm s
  | .ori d a imm => Sys2Proof.Machine.execOri d a imm s
  | .xori d a imm => Sys2Proof.Machine.execXori d a imm s
  | .shli d a sh => Sys2Proof.Machine.execShli d a sh s
  | .shri d a sh => Sys2Proof.Machine.execShri d a sh s
  | .srai d a sh => Sys2Proof.Machine.execSrai d a sh s
  | .roli d a sh => Sys2Proof.Machine.execRoli d a sh s
  | .slti d a imm => Sys2Proof.Machine.execSlti d a imm s
  | .sltiu d a imm => Sys2Proof.Machine.execSltiu d a imm s
  | .li d imm => Sys2Proof.Machine.execLi d imm s
  | .lih d imm => Sys2Proof.Machine.execLih d imm s
  | .addpc d imm => Sys2Proof.Machine.execAddpc d imm s
  | .bfx d a len pos => Sys2Proof.Machine.execBfx d a len pos s
  | .bfxu d a len pos => Sys2Proof.Machine.execBfxu d a len pos s
  | .bfi d a len pos => Sys2Proof.Machine.execBfi d a len pos s
  | .cmov d a b c => Sys2Proof.Machine.execCmov d a b c s
  | .madd d a b c => Sys2Proof.Machine.execMadd d a b c s
  | .ld d a sz u acq disp => Sys2Proof.Machine.execLd d a sz u acq disp s
  | .st d a sz rel disp => Sys2Proof.Machine.execSt d a sz rel disp s
  | .ldx d a b sh sz u acq => Sys2Proof.Machine.execLdx d a b sh sz u acq s
  | .stx d a b sh sz rel => Sys2Proof.Machine.execStx d a b sh sz rel s
  | .ldv d a disp => Sys2Proof.Machine.execLdv d a disp s
  | .stv d a disp => Sys2Proof.Machine.execStv d a disp s
  | .ldvs d a b pr sz => Sys2Proof.Machine.execLdvs d a b pr sz s
  | .stvs d a b pr sz => Sys2Proof.Machine.execStvs d a b pr sz s
  | .gath d a b pr sc u sz => Sys2Proof.Machine.execGath d a b pr sc u sz s
  | .scatv d a b pr sc sz => Sys2Proof.Machine.execScatv d a b pr sc sz s
  | .ldf d a c => Sys2Proof.Machine.execLdf d a c s
  | .stf d a => Sys2Proof.Machine.execStf d a s
  | .clrf a => Sys2Proof.Machine.execClrf a s
  | .swap d a b dw => Sys2Proof.Machine.execSwap d a b dw s
  | .cas d a b c dw => Sys2Proof.Machine.execCas d a b c dw s
  | .fadd d a b dw => Sys2Proof.Machine.execFadd d a b dw s
  | .fenceFull sc => Sys2Proof.Machine.execFenceFull sc s
  | .fenceAcq sc => Sys2Proof.Machine.execFenceAcq sc s
  | .fenceRel sc => Sys2Proof.Machine.execFenceRel sc s
  | .fenceEng sc => Sys2Proof.Machine.execFenceEng sc s
  | .fenceInsn => Sys2Proof.Machine.execFenceInsn s
  | .pref a lv w disp => Sys2Proof.Machine.execPref a lv w disp s
  | .wmap d a b c w => Sys2Proof.Machine.execWmap d a b c w s
  | .wunmap w => Sys2Proof.Machine.execWunmap w s
  | .wflush w => Sys2Proof.Machine.execWflush w s
  | .winv w => Sys2Proof.Machine.execWinv w s
  | .upd a b ty => Sys2Proof.Machine.execUpd a b ty s
  | .updv a b c pr sc ty => Sys2Proof.Machine.execUpdv a b c pr sc ty s
  | .ureg d a => Sys2Proof.Machine.execUreg d a s
  | .uregRel d a => Sys2Proof.Machine.execUregRel d a s
  | .uflush a => Sys2Proof.Machine.execUflush a s
  | .uwait => Sys2Proof.Machine.execUwait s
  | .qgset a b => Sys2Proof.Machine.execQgset a b s
  | .ldnm d a tag => Sys2Proof.Machine.execLdnm d a tag s
  | .qcmp d a off ty cc => Sys2Proof.Machine.execQcmp d a off ty cc s
  | .qadd a off ty => Sys2Proof.Machine.execQadd a off ty s
  | .qaddi off ty imm => Sys2Proof.Machine.execQaddi off ty imm s
  | .qfadd a off => Sys2Proof.Machine.execQfadd a off s
  | .qst a off ty => Sys2Proof.Machine.execQst a off ty s
  | .qld d off ty => Sys2Proof.Machine.execQld d off ty s
  | .qgath d a k ty => Sys2Proof.Machine.execQgath d a k ty s
  | .qscat d a k ty => Sys2Proof.Machine.execQscat d a k ty s
  | .mand d a b => Sys2Proof.Machine.execMand d a b s
  | .mor d a b => Sys2Proof.Machine.execMor d a b s
  | .mxor d a b => Sys2Proof.Machine.execMxor d a b s
  | .mandn d a b => Sys2Proof.Machine.execMandn d a b s
  | .mpopc d a => Sys2Proof.Machine.execMpopc d a s
  | .mfirst d a => Sys2Proof.Machine.execMfirst d a s
  | .mtest d a => Sys2Proof.Machine.execMtest d a s
  | .mset d => Sys2Proof.Machine.execMset d s
  | .mclr d => Sys2Proof.Machine.execMclr d s
  | .mmov d a => Sys2Proof.Machine.execMmov d a s
  | .mfromg d a q => Sys2Proof.Machine.execMfromg d a q s
  | .mtog d a q => Sys2Proof.Machine.execMtog d a q s
  | .sopenA d a out => Sys2Proof.Machine.execSopenA d a out s
  | .sopenF d a out => Sys2Proof.Machine.execSopenF d a out s
  | .sadv d a imm => Sys2Proof.Machine.execSadv d a imm s
  | .sadvto d a imm => Sys2Proof.Machine.execSadvto d a imm s
  | .stend d a => Sys2Proof.Machine.execStend d a s
  | .sclose a => Sys2Proof.Machine.execSclose a s
  | .speek d a => Sys2Proof.Machine.execSpeek d a s
  | .sisect d a b c => Sys2Proof.Machine.execSisect d a b c s
  | .smerge d a b => Sys2Proof.Machine.execSmerge d a b s
  | .vadd d a b ty pr => Sys2Proof.Machine.execVadd d a b ty pr s
  | .vsub d a b ty pr => Sys2Proof.Machine.execVsub d a b ty pr s
  | .vmul d a b ty pr => Sys2Proof.Machine.execVmul d a b ty pr s
  | .vmulh d a b ty pr => Sys2Proof.Machine.execVmulh d a b ty pr s
  | .vmin d a b ty pr => Sys2Proof.Machine.execVmin d a b ty pr s
  | .vmax d a b ty pr => Sys2Proof.Machine.execVmax d a b ty pr s
  | .vabsd d a b ty pr => Sys2Proof.Machine.execVabsd d a b ty pr s
  | .vfma d a b ty pr => Sys2Proof.Machine.execVfma d a b ty pr s
  | .vfms d a b ty pr => Sys2Proof.Machine.execVfms d a b ty pr s
  | .vand d a b ty pr => Sys2Proof.Machine.execVand d a b ty pr s
  | .vor d a b ty pr => Sys2Proof.Machine.execVor d a b ty pr s
  | .vxor d a b ty pr => Sys2Proof.Machine.execVxor d a b ty pr s
  | .vandn d a b ty pr => Sys2Proof.Machine.execVandn d a b ty pr s
  | .vshl d a b ty pr => Sys2Proof.Machine.execVshl d a b ty pr s
  | .vshr d a b ty pr => Sys2Proof.Machine.execVshr d a b ty pr s
  | .vsra d a b ty pr => Sys2Proof.Machine.execVsra d a b ty pr s
  | .vcmp d a b cc ty pr => Sys2Proof.Machine.execVcmp d a b cc ty pr s
  | .vsel d a b ty pr => Sys2Proof.Machine.execVsel d a b ty pr s
  | .vbcast d a ty pr => Sys2Proof.Machine.execVbcast d a ty pr s
  | .vextr d a b ty => Sys2Proof.Machine.execVextr d a b ty s
  | .vins d a b ty => Sys2Proof.Machine.execVins d a b ty s
  | .vperm d a b ty pr => Sys2Proof.Machine.execVperm d a b ty pr s
  | .vrot d a b ty => Sys2Proof.Machine.execVrot d a b ty s
  | .vredadd d a ty pr => Sys2Proof.Machine.execVredadd d a ty pr s
  | .vredmin d a ty pr => Sys2Proof.Machine.execVredmin d a ty pr s
  | .vredmax d a ty pr => Sys2Proof.Machine.execVredmax d a ty pr s
  | .vredor d a ty pr => Sys2Proof.Machine.execVredor d a ty pr s
  | .vscan d a sop ty pr => Sys2Proof.Machine.execVscan d a sop ty pr s
  | .vcvt d a dt ty part sat pr => Sys2Proof.Machine.execVcvt d a dt ty part sat pr s
  | .vcompress d a ty pr => Sys2Proof.Machine.execVcompress d a ty pr s
  | .vexpand d a ty pr => Sys2Proof.Machine.execVexpand d a ty pr s
  | .vsort d a ord ty pr => Sys2Proof.Machine.execVsort d a ord ty pr s
  | .vdot4 d a b ty pr => Sys2Proof.Machine.execVdot4 d a b ty pr s
  | .vrcp d a ty pr => Sys2Proof.Machine.execVrcp d a ty pr s
  | .vrsq d a ty pr => Sys2Proof.Machine.execVrsq d a ty pr s
  | .vexp2 d a ty pr => Sys2Proof.Machine.execVexp2 d a ty pr s
  | .vlog2 d a ty pr => Sys2Proof.Machine.execVlog2 d a ty pr s
  | .vdiv d a b ty pr => Sys2Proof.Machine.execVdiv d a b ty pr s
  | .vsqrt d a ty pr => Sys2Proof.Machine.execVsqrt d a ty pr s
  | .bcenc d a c ty => Sys2Proof.Machine.execBcenc d a c ty s
  | .bcdec d a b ty => Sys2Proof.Machine.execBcdec d a b ty s
  | .mxcfg a => Sys2Proof.Machine.execMxcfg a s
  | .mxmm d a b k => Sys2Proof.Machine.execMxmm d a b k s
  | .mxmms d a b c e slab => Sys2Proof.Machine.execMxmms d a b c e slab s
  | .mxprune d a b q => Sys2Proof.Machine.execMxprune d a b q s
  | .mxzero d => Sys2Proof.Machine.execMxzero d s
  | .mxld d a b => Sys2Proof.Machine.execMxld d a b s
  | .mxst a b c sat ty => Sys2Proof.Machine.execMxst a b c sat ty s
  | .zrd d a b => Sys2Proof.Machine.execZrd d a b s
  | .zwr d a b => Sys2Proof.Machine.execZwr d a b s
  | .mxwait d => Sys2Proof.Machine.execMxwait d s
  | .mxrem a => Sys2Proof.Machine.execMxrem a s
  | .cpy d a tag md => Sys2Proof.Machine.execCpy d a tag md s
  | .cpym d a tag md => Sys2Proof.Machine.execCpym d a tag md s
  | .gathr d a tag md => Sys2Proof.Machine.execGathr d a tag md s
  | .scatr d a tag md => Sys2Proof.Machine.execScatr d a tag md s
  | .embag d a tag md => Sys2Proof.Machine.execEmbag d a tag md s
  | .coll d a tag md => Sys2Proof.Machine.execColl d a tag md s
  | .cpywait d tag vis => Sys2Proof.Machine.execCpywait d tag vis s
  | .cpyst d tag => Sys2Proof.Machine.execCpyst d tag s
  | .cpyres d tag => Sys2Proof.Machine.execCpyres d tag s
  | .barr d => Sys2Proof.Machine.execBarr d s
  | .bwait d => Sys2Proof.Machine.execBwait d s
  | .barrd d a => Sys2Proof.Machine.execBarrd d a s
  | .bwany d a => Sys2Proof.Machine.execBwany d a s
  | .bdom d a => Sys2Proof.Machine.execBdom d a s
  | .mtxlk n => Sys2Proof.Machine.execMtxlk n s
  | .mtxul n => Sys2Proof.Machine.execMtxul n s
  | .semp n => Sys2Proof.Machine.execSemp n s
  | .semv n => Sys2Proof.Machine.execSemv n s
  | .qcfgSet a q => Sys2Proof.Machine.execQcfgSet a q s
  | .qcfgPut a q => Sys2Proof.Machine.execQcfgPut a q s
  | .qcfgGet d q => Sys2Proof.Machine.execQcfgGet d q s
  | .slice d a b => Sys2Proof.Machine.execSlice d a b s
  | .sjoin d a => Sys2Proof.Machine.execSjoin d a s
  | .yields a b => Sys2Proof.Machine.execYields a b s
  | .wlapp a b => Sys2Proof.Machine.execWlapp a b s
  | .wlpop d a c nw => Sys2Proof.Machine.execWlpop d a c nw s
  | .wlquiet d => Sys2Proof.Machine.execWlquiet d s
  | .send a b => Sys2Proof.Machine.execSend a b s
  | .sendE a b => Sys2Proof.Machine.execSendE a b s
  | .trap n => Sys2Proof.Machine.execTrap n s
  | .eret => Sys2Proof.Machine.execEret s
  | .uiret => Sys2Proof.Machine.execUiret s
  | .mfcr d cr => Sys2Proof.Machine.execMfcr d cr s
  | .mtcr a cr => Sys2Proof.Machine.execMtcr a cr s
  | .tlbinvPage d a => Sys2Proof.Machine.execTlbinvPage d a s
  | .tlbinvAsid d => Sys2Proof.Machine.execTlbinvAsid d s
  | .tlbinvAll => Sys2Proof.Machine.execTlbinvAll s
  | .csave d a => Sys2Proof.Machine.execCsave d a s
  | .crstr d a => Sys2Proof.Machine.execCrstr d a s
  | .bist d a => Sys2Proof.Machine.execBist d a s
  | .wfi => Sys2Proof.Machine.execWfi s
  | .moduleReset => Sys2Proof.Machine.execModuleReset s
  | .bootRomFallback => Sys2Proof.Machine.execBootRomFallback s
  | .bootImageVerify => Sys2Proof.Machine.execBootImageVerify s
  | .bootRetry => Sys2Proof.Machine.execBootRetry s
  | .dispatchPlace => Sys2Proof.Machine.execDispatchPlace s
  | .contextStartingEnd => Sys2Proof.Machine.execContextStartingEnd s
  | .helperRetireComplete => Sys2Proof.Machine.execHelperRetireComplete s
  | .sliceEnd => Sys2Proof.Machine.execSliceEnd s
  | .joinContinuationEnqueue => Sys2Proof.Machine.execJoinContinuationEnqueue s
  | .dualSignatureCompare => Sys2Proof.Machine.execDualSignatureCompare s
  | .heldRecordEnqueue => Sys2Proof.Machine.execHeldRecordEnqueue s
  | .energyWindow => Sys2Proof.Machine.execEnergyWindow s
  | .budgetTrap => Sys2Proof.Machine.execBudgetTrap s
  | .contextStop => Sys2Proof.Machine.execContextStop s
  | .yardRequestAccept => Sys2Proof.Machine.execYardRequestAccept s
  | .yardEntryResolve => Sys2Proof.Machine.execYardEntryResolve s
  | .producerComplete => Sys2Proof.Machine.execProducerComplete s
  | .ldfDeferredAnswer => Sys2Proof.Machine.execLdfDeferredAnswer s
  | .barrierPhaseComplete => Sys2Proof.Machine.execBarrierPhaseComplete s
  | .copySrcEvent => Sys2Proof.Machine.execCopySrcEvent s
  | .copyVisEvent => Sys2Proof.Machine.execCopyVisEvent s
  | .engineDoorbell => Sys2Proof.Machine.execEngineDoorbell s
  | .copyFault => Sys2Proof.Machine.execCopyFault s
  | .copyFaultEntry => Sys2Proof.Machine.execCopyFaultEntry s
  | .copyCompletionInterrupt => Sys2Proof.Machine.execCopyCompletionInterrupt s
  | .poisonedDataFault => Sys2Proof.Machine.execPoisonedDataFault s
  | .machineCheck => Sys2Proof.Machine.execMachineCheck s
  | .streamRefill => Sys2Proof.Machine.execStreamRefill s
  | .updateBufferDrain => Sys2Proof.Machine.execUpdateBufferDrain s
  | .uGrantRequest => Sys2Proof.Machine.execUGrantRequest s
  | .uGrantReturn => Sys2Proof.Machine.execUGrantReturn s
  | .bushelPairAccept => Sys2Proof.Machine.execBushelPairAccept s
  | .binPageApply => Sys2Proof.Machine.execBinPageApply s
  | .homeReadRequest => Sys2Proof.Machine.execHomeReadRequest s
  | .homeOwnershipRequest => Sys2Proof.Machine.execHomeOwnershipRequest s
  | .homeAtomic => Sys2Proof.Machine.execHomeAtomic s
  | .writeBackArrival => Sys2Proof.Machine.execWriteBackArrival s
  | .shroudSnoop => Sys2Proof.Machine.execShroudSnoop s
  | .fillReturn => Sys2Proof.Machine.execFillReturn s
  | .pageWalkComplete => Sys2Proof.Machine.execPageWalkComplete s
  | .mxuOperationStart => Sys2Proof.Machine.execMxuOperationStart s
  | .mxuOperationComplete => Sys2Proof.Machine.execMxuOperationComplete s
  | .mxremCommandArrival => Sys2Proof.Machine.execMxremCommandArrival s
  | .guestCommandComplete => Sys2Proof.Machine.execGuestCommandComplete s
  | .sendPacketDeliver => Sys2Proof.Machine.execSendPacketDeliver s
  | .worklistAppendArrival => Sys2Proof.Machine.execWorklistAppendArrival s
  | .worklistQuiescence => Sys2Proof.Machine.execWorklistQuiescence s
  | .launchPacket => Sys2Proof.Machine.execLaunchPacket s
  | .residencyReport => Sys2Proof.Machine.execResidencyReport s
  | .coreEnterC2 => Sys2Proof.Machine.execCoreEnterC2 s
  | .clusterEnterC3 => Sys2Proof.Machine.execClusterEnterC3 s
  | .dieEnterC4 => Sys2Proof.Machine.execDieEnterC4 s
  | .unitWake => Sys2Proof.Machine.execUnitWake s
  | .wakeExitLatencyEnd => Sys2Proof.Machine.execWakeExitLatencyEnd s
  | .hostLtrMessage => Sys2Proof.Machine.execHostLtrMessage s
  | .hostBarAccess => Sys2Proof.Machine.execHostBarAccess s
  | .peerRequestArrival => Sys2Proof.Machine.execPeerRequestArrival s
  | .peerRequestTimeout => Sys2Proof.Machine.execPeerRequestTimeout s
  | .linkFailure => Sys2Proof.Machine.execLinkFailure s
  | .supplyDroop => Sys2Proof.Machine.execSupplyDroop s
  | .dieOvertempClockLimit => Sys2Proof.Machine.execDieOvertempClockLimit s
  | .thermalTrip => Sys2Proof.Machine.execThermalTrip s
  | .bistComplete => Sys2Proof.Machine.execBistComplete s
  | .lanemargStart => Sys2Proof.Machine.execLanemargStart s
  | .laneMarginDone => Sys2Proof.Machine.execLaneMarginDone s
  | .binConfigWrite => Sys2Proof.Machine.execBinConfigWrite s
  | .mbxReadDefectMap => Sys2Proof.Machine.execMbxReadDefectMap s
  | .mbxAttestationReport => Sys2Proof.Machine.execMbxAttestationReport s
  | .mbxSetMarginv => Sys2Proof.Machine.execMbxSetMarginv s
  | .mbxSendUet => Sys2Proof.Machine.execMbxSendUet s
  | .mbxIdentityCertificate => Sys2Proof.Machine.execMbxIdentityCertificate s
  | .registerWrite => Sys2Proof.Machine.execRegisterWrite s
  | .droopClockStepEnd => Sys2Proof.Machine.execDroopClockStepEnd s
  | .overtempClockLimitEnd => Sys2Proof.Machine.execOvertempClockLimitEnd s
  | .powerOn => Sys2Proof.Machine.execPowerOn s
  | .linkTraining => Sys2Proof.Machine.execLinkTraining s
  | .dhcpv6Reply => Sys2Proof.Machine.execDhcpv6Reply s
  | .bootFetchFailure => Sys2Proof.Machine.execBootFetchFailure s
  | .contextRestoreComplete => Sys2Proof.Machine.execContextRestoreComplete s
  | .dieSupplySetPointChange => Sys2Proof.Machine.execDieSupplySetPointChange s

end Sys2Proof.Machine
end

