-- ==== Sys2Proof/Machine/Timing.lean ====
section
/-!
DEFINITION. Latencies from an issue to the issue of a dependent instruction (R29, R30, R144, R190, R279, R299, R351): which registers an instruction reads and writes, how long its results
take, and the units that it waits for. Long-latency producers (R70) and side-storage instructions (R305) note theirs where they run. No result depends on them (log entry 6).
-/

namespace Sys2Proof.Machine

/-- The predicate of a form. -/
def predName : Option PReg → List RegName
  | some p => [.k (.p p)]
  | none => []

/-- The registers that START and SPLIT pass to the new context (R36, R51, R435). -/
def passedNames : List RegName := ((List.range 15).map fun i => .g (Fin.ofNat 64 (i + 1))) ++ (List.range 4).map fun i => .v (Fin.ofNat 16 i)

/-- m0, which names the selected members (R301). -/
def m0Name : RegName := .k (.m 0)

/-- The name of a stream operand (R317). -/
def streamName (d : SOpd) : List RegName := (sref d).late.toList

/-- The destination, where the form keeps elements of it (R333, R334). -/
def oldDest (d : VReg) (reads : Bool) : List RegName := if reads then [.v d] else []

/-- The g, v and mask registers that an instruction reads: those that its fields name, those that it implies, and a destination of which it keeps a part. Its result depends on no other. -/
def readNames : Instr → List RegName
  | .jr a => [.g a.r]
  | .callr a => [.g a.r]
  | .ret => [.g 63]
  | .uiret => [.g 59, .g 60, .g 61]
  | .bcc a b _ _ _ _ => [.g a.r, .g b.r]
  | .start _ a _ => .g a.r :: passedNames
  | .split _ a _ => .k a :: m0Name :: passedNames
  | .add _ a b => [.g a.r, .g b.r]
  | .sub _ a b => [.g a.r, .g b.r]
  | .addW _ a b => [.g a.r, .g b.r]
  | .subW _ a b => [.g a.r, .g b.r]
  | .and _ a b => [.g a.r, .g b.r]
  | .or _ a b => [.g a.r, .g b.r]
  | .xor _ a b => [.g a.r, .g b.r]
  | .andn _ a b => [.g a.r, .g b.r]
  | .shl _ a b => [.g a.r, .g b.r]
  | .shr _ a b => [.g a.r, .g b.r]
  | .sra _ a b => [.g a.r, .g b.r]
  | .rol _ a b => [.g a.r, .g b.r]
  | .mul _ a b => [.g a.r, .g b.r]
  | .mulh _ a b => [.g a.r, .g b.r]
  | .mulhu _ a b => [.g a.r, .g b.r]
  | .mulW _ a b => [.g a.r, .g b.r]
  | .div _ a b => [.g a.r, .g b.r]
  | .divu _ a b => [.g a.r, .g b.r]
  | .rem _ a b => [.g a.r, .g b.r]
  | .remu _ a b => [.g a.r, .g b.r]
  | .min _ a b => [.g a.r, .g b.r]
  | .max _ a b => [.g a.r, .g b.r]
  | .minu _ a b => [.g a.r, .g b.r]
  | .maxu _ a b => [.g a.r, .g b.r]
  | .slt _ a b => [.g a.r, .g b.r]
  | .sltu _ a b => [.g a.r, .g b.r]
  | .seq _ a b => [.g a.r, .g b.r]
  | .sne _ a b => [.g a.r, .g b.r]
  | .clz _ a => [.g a.r]
  | .ctz _ a => [.g a.r]
  | .popc _ a => [.g a.r]
  | .brev _ a => [.g a.r]
  | .sextB _ a => [.g a.r]
  | .sextH _ a => [.g a.r]
  | .sextW _ a => [.g a.r]
  | .bswap _ a => [.g a.r]
  | .abs _ a => [.g a.r]
  | .neg _ a => [.g a.r]
  | .addi _ a _ => [.g a.r]
  | .andi _ a _ => [.g a.r]
  | .ori _ a _ => [.g a.r]
  | .xori _ a _ => [.g a.r]
  | .shli _ a _ => [.g a.r]
  | .shri _ a _ => [.g a.r]
  | .srai _ a _ => [.g a.r]
  | .roli _ a _ => [.g a.r]
  | .slti _ a _ => [.g a.r]
  | .sltiu _ a _ => [.g a.r]
  | .lih d _ => [.g d]
  | .bfx _ a _ _ => [.g a.r]
  | .bfxu _ a _ _ => [.g a.r]
  | .bfi d a _ _ => [.g d, .g a.r]
  | .cmov _ a b c => [.g a.r, .g b.r, .g c.r]
  | .madd _ a b c => [.g a.r, .g b.r, .g c.r]
  | .ld _ a _ _ _ _ => [.g a.r]
  | .st d a _ _ _ => [.g d, .g a.r]
  | .ldx _ a b _ _ _ _ => [.g a.r, .g b.r]
  | .stx d a b _ _ _ => [.g d, .g a.r, .g b.r]
  | .ldv _ a _ => [.g a.r]
  | .stv d a _ => [.v d, .g a.r]
  | .ldvs _ a b pr _ => [.g a.r, .g b.r] ++ predName pr
  | .stvs d a b pr _ => [.v d, .g a.r, .g b.r] ++ predName pr
  | .gath _ a b pr _ _ _ => [.g a.r, .v b.r] ++ predName pr
  | .scatv d a b pr _ _ => [.v d, .g a.r, .v b.r] ++ predName pr
  | .ldf _ a _ => [.g a.r]
  | .stf d a => [.g d, .g a.r]
  | .clrf a => [.g a.r]
  | .swap _ a b _ => [.g a.r, .g b.r]
  | .cas _ a b c _ => [.g a.r, .g b.r, .g c.r]
  | .fadd _ a b _ => [.g a.r, .g b.r]
  | .pref a _ _ _ => [.g a.r]
  | .wmap _ a b c _ => [.g a.r, .g b.r, .g c.r]
  | .upd a b _ => [.g a.r, .g b.r]
  | .updv a b c pr _ _ => [.g a.r, .v b.r, .v c.r] ++ predName pr
  | .ureg _ a => [.g a.r]
  | .uregRel _ a => [.g a.r]
  | .uflush a => [.g a.r]
  | .qgset a b => [.g a.r, .k b]
  | .ldnm _ a _ => [.g a.r, m0Name]
  | .qcmp _ a _ _ _ => [.g a.r, m0Name]
  | .qadd a _ _ => [.g a.r, m0Name]
  | .qaddi _ _ _ => [m0Name]
  | .qfadd a _ => [.g a.r, m0Name]
  | .qst a _ _ => [.g a.r, m0Name]
  | .qld _ _ _ => [m0Name]
  | .qgath _ a _ _ => [.g a.r, m0Name]
  | .qscat d a _ _ => [.v d, .g a.r, m0Name]
  | .mand _ a b => [.k a, .k b]
  | .mor _ a b => [.k a, .k b]
  | .mxor _ a b => [.k a, .k b]
  | .mandn _ a b => [.k a, .k b]
  | .mpopc _ a => [.k a]
  | .mfirst _ a => [.k a]
  | .mtest _ a => [.k a]
  | .mmov _ a => [.k a]
  | .mfromg d a _ => [.k d, .g a.r]
  | .mtog _ a _ => [.k a]
  | .sopenA _ a _ => [.g a.r]
  | .sopenF _ a _ => [.g a.r]
  | .sadv d a _ => .g a.r :: streamName d
  | .sadvto d a _ => .g a.r :: streamName d
  | .stend _ a => streamName a
  | .speek _ a => streamName a
  | .sclose a => streamName a
  | .sisect d a b c => [.g d, .g a, .g b, .g c]
  | .smerge d a b => [.g d, .g a, .g b]
  | .vadd d a b _ pr => [.v a.r, .v b.r] ++ predName pr ++ oldDest d pr.isSome
  | .vsub d a b _ pr => [.v a.r, .v b.r] ++ predName pr ++ oldDest d pr.isSome
  | .vmul d a b _ pr => [.v a.r, .v b.r] ++ predName pr ++ oldDest d pr.isSome
  | .vmulh d a b _ pr => [.v a.r, .v b.r] ++ predName pr ++ oldDest d pr.isSome
  | .vmin d a b _ pr => [.v a.r, .v b.r] ++ predName pr ++ oldDest d pr.isSome
  | .vmax d a b _ pr => [.v a.r, .v b.r] ++ predName pr ++ oldDest d pr.isSome
  | .vabsd d a b _ pr => [.v a.r, .v b.r] ++ predName pr ++ oldDest d pr.isSome
  | .vfma d a b _ pr => [.v d, .v a.r, .v b.r] ++ predName pr
  | .vfms d a b _ pr => [.v d, .v a.r, .v b.r] ++ predName pr
  | .vand d a b _ pr => [.v a.r, .v b.r] ++ predName pr ++ oldDest d pr.isSome
  | .vor d a b _ pr => [.v a.r, .v b.r] ++ predName pr ++ oldDest d pr.isSome
  | .vxor d a b _ pr => [.v a.r, .v b.r] ++ predName pr ++ oldDest d pr.isSome
  | .vandn d a b _ pr => [.v a.r, .v b.r] ++ predName pr ++ oldDest d pr.isSome
  | .vshl d a b _ pr => [.v a.r, .v b.r] ++ predName pr ++ oldDest d pr.isSome
  | .vshr d a b _ pr => [.v a.r, .v b.r] ++ predName pr ++ oldDest d pr.isSome
  | .vsra d a b _ pr => [.v a.r, .v b.r] ++ predName pr ++ oldDest d pr.isSome
  | .vcmp _ a b _ _ pr => [.v a.r, .v b.r] ++ predName pr
  | .vsel _ a b _ pr => [.v a.r, .v b.r, .k (.p pr)]
  | .vbcast d a _ pr => [.g a.r] ++ predName pr ++ oldDest d pr.isSome
  | .vextr _ a b _ => [.v a.r, .g b.r]
  | .vins d a b _ => [.v d, .g a.r, .g b.r]
  | .vperm d a b _ pr => [.v a.r, .v b.r] ++ predName pr ++ oldDest d pr.isSome
  | .vrot _ a b _ => [.v a.r, .g b.r]
  | .vredadd _ a _ pr => [.v a.r] ++ predName pr
  | .vredmin _ a _ pr => [.v a.r] ++ predName pr
  | .vredmax _ a _ pr => [.v a.r] ++ predName pr
  | .vredor _ a _ pr => [.v a.r] ++ predName pr
  | .vscan d a _ _ pr => [.v a.r] ++ predName pr ++ oldDest d pr.isSome
  | .vcvt d a dt ty _ _ pr => [.v a.r] ++ predName pr ++ oldDest d (pr.isSome || decide (dt.width < ty.width))
  | .vcompress _ a _ pr => [.v a.r, .k (.p pr)]
  | .vexpand _ a _ pr => [.v a.r, .k (.p pr)]
  | .vsort d a _ _ pr => [.v a.r] ++ predName pr ++ oldDest d pr.isSome
  | .vdot4 d a b _ pr => [.v d, .v a.r, .v b.r] ++ predName pr
  | .vrcp d a _ pr => [.v a.r] ++ predName pr ++ oldDest d pr.isSome
  | .vrsq d a _ pr => [.v a.r] ++ predName pr ++ oldDest d pr.isSome
  | .vexp2 d a _ pr => [.v a.r] ++ predName pr ++ oldDest d pr.isSome
  | .vlog2 d a _ pr => [.v a.r] ++ predName pr ++ oldDest d pr.isSome
  | .vdiv d a b _ pr => [.v a.r, .v b.r] ++ predName pr ++ oldDest d pr.isSome
  | .vsqrt d a _ pr => [.v a.r] ++ predName pr ++ oldDest d pr.isSome
  | .bcenc _ a _ _ => [.v a.r]
  | .bcdec _ a b _ => [.v a.r, .g b.r]
  | .mxcfg a => [.g a.r]
  | .mxmm _ a b _ => [.g a.r, .g b.r]
  | .mxmms _ a b c e _ => [.v a.r, .v b.r, .v c.r, .g e.r]
  | .mxprune d a b _ => [.v d, .v a.r, .v b.r]
  | .mxld _ a b => [.g a.r, .g b.r]
  | .mxst a b _ _ _ => [.g a.r, .g b.r]
  | .zrd _ _ b => [.g b.r]
  | .zwr _ a b => [.v a.r, .g b.r]
  | .mxrem a => [.g a.r]
  | .cpy _ a _ _ => [.g a.r]
  | .cpym _ a _ _ => [.g a.r]
  | .gathr _ a _ _ => [.g a.r]
  | .scatr _ a _ _ => [.g a.r]
  | .embag _ a _ _ => [.g a.r]
  | .coll _ a _ _ => [.g a.r]
  | .barrd _ a => [.g a.r]
  | .bwany _ a => [.g a.r]
  | .bdom _ a => [.g a.r]
  | .qcfgSet a _ => [.g a.r]
  | .qcfgPut a _ => [.g a.r]
  | .slice _ a b => [.g a.r, .g b.r]
  | .sjoin _ a => [.g a.r]
  | .yields a b => [.g a.r, .g b.r]
  | .wlapp a b => [.g a.r, .g b.r]
  | .wlpop _ a _ _ => [.g a.r]
  | .send a b => [.g a.r, .g b.r]
  | .sendE a b => [.g a.r, .g b.r]
  | .mtcr a _ => [.g a.r]
  | .tlbinvPage d a => [.g d, .g a.r]
  | .tlbinvAsid d => [.g d]
  | .csave _ a => [.g a.r]
  | .crstr _ a => [.g a.r]
  | .bist _ a => [.g a.r]
  | .call _ | .li _ _ | .addpc _ _ | .mset _ | .mclr _ | .cpywait _ _ _ | .cpyst _ _ | .cpyres _ _ | .qcfgGet _ _ | .mfcr _ _
  | .nop | .retire | .yld | .j _ | .waitf | .fenceFull _ | .fenceAcq _ | .fenceRel _ | .fenceEng _ | .fenceInsn | .wunmap _
  | .wflush _ | .winv _ | .uwait | .mxzero _ | .mxwait _ | .barr _ | .bwait _ | .mtxlk _ | .mtxul _ | .semp _ | .semv _
  | .wlquiet _ | .trap _ | .eret | .tlbinvAll | .wfi | .moduleReset | .bootRomFallback | .bootImageVerify | .bootRetry | .dispatchPlace
  | .contextStartingEnd | .helperRetireComplete | .sliceEnd | .joinContinuationEnqueue | .dualSignatureCompare | .heldRecordEnqueue | .energyWindow
  | .budgetTrap | .contextStop | .yardRequestAccept | .yardEntryResolve | .producerComplete | .ldfDeferredAnswer | .barrierPhaseComplete
  | .copySrcEvent | .copyVisEvent | .engineDoorbell | .copyFault | .copyFaultEntry | .copyCompletionInterrupt | .poisonedDataFault | .machineCheck
  | .streamRefill | .updateBufferDrain | .uGrantRequest | .uGrantReturn | .bushelPairAccept | .binPageApply | .homeReadRequest | .homeOwnershipRequest
  | .homeAtomic | .writeBackArrival | .shroudSnoop | .fillReturn | .pageWalkComplete | .mxuOperationStart | .mxuOperationComplete
  | .mxremCommandArrival | .guestCommandComplete | .sendPacketDeliver | .worklistAppendArrival | .worklistQuiescence | .launchPacket
  | .residencyReport | .coreEnterC2 | .clusterEnterC3 | .dieEnterC4 | .unitWake | .wakeExitLatencyEnd | .hostLtrMessage | .hostBarAccess
  | .peerRequestArrival | .peerRequestTimeout | .linkFailure | .supplyDroop | .dieOvertempClockLimit | .thermalTrip | .bistComplete | .lanemargStart
  | .laneMarginDone | .binConfigWrite | .mbxReadDefectMap | .mbxAttestationReport | .mbxSetMarginv | .mbxSendUet | .mbxIdentityCertificate
  | .registerWrite | .droopClockStepEnd | .overtempClockLimitEnd | .powerOn | .linkTraining | .dhcpv6Reply | .bootFetchFailure
  | .contextRestoreComplete | .dieSupplySetPointChange => []


/-- The g, v and mask registers that an instruction writes. Side-storage instructions and SOPEN note theirs where they run (R305, R330). -/
def destNames : Instr → List RegName
  | .call _ => [.g 63]
  | .callr _ => [.g 63]
  | .start d _ _ => [.g d]
  | .split d _ _ => [.g d]
  | .add d _ _ => [.g d]
  | .sub d _ _ => [.g d]
  | .addW d _ _ => [.g d]
  | .subW d _ _ => [.g d]
  | .and d _ _ => [.g d]
  | .or d _ _ => [.g d]
  | .xor d _ _ => [.g d]
  | .andn d _ _ => [.g d]
  | .shl d _ _ => [.g d]
  | .shr d _ _ => [.g d]
  | .sra d _ _ => [.g d]
  | .rol d _ _ => [.g d]
  | .mul d _ _ => [.g d]
  | .mulh d _ _ => [.g d]
  | .mulhu d _ _ => [.g d]
  | .mulW d _ _ => [.g d]
  | .div d _ _ => [.g d]
  | .divu d _ _ => [.g d]
  | .rem d _ _ => [.g d]
  | .remu d _ _ => [.g d]
  | .min d _ _ => [.g d]
  | .max d _ _ => [.g d]
  | .minu d _ _ => [.g d]
  | .maxu d _ _ => [.g d]
  | .slt d _ _ => [.g d]
  | .sltu d _ _ => [.g d]
  | .seq d _ _ => [.g d]
  | .sne d _ _ => [.g d]
  | .clz d _ => [.g d]
  | .ctz d _ => [.g d]
  | .popc d _ => [.g d]
  | .brev d _ => [.g d]
  | .sextB d _ => [.g d]
  | .sextH d _ => [.g d]
  | .sextW d _ => [.g d]
  | .bswap d _ => [.g d]
  | .abs d _ => [.g d]
  | .neg d _ => [.g d]
  | .addi d _ _ => [.g d]
  | .andi d _ _ => [.g d]
  | .ori d _ _ => [.g d]
  | .xori d _ _ => [.g d]
  | .shli d _ _ => [.g d]
  | .shri d _ _ => [.g d]
  | .srai d _ _ => [.g d]
  | .roli d _ _ => [.g d]
  | .slti d _ _ => [.g d]
  | .sltiu d _ _ => [.g d]
  | .li d _ => [.g d]
  | .lih d _ => [.g d]
  | .addpc d _ => [.g d]
  | .bfx d _ _ _ => [.g d]
  | .bfxu d _ _ _ => [.g d]
  | .bfi d _ _ _ => [.g d]
  | .cmov d _ _ _ => [.g d]
  | .madd d _ _ _ => [.g d]
  | .ld d _ _ _ _ _ => [.g d]
  | .ldx d _ _ _ _ _ _ => [.g d]
  | .ldv d _ _ => [.v d]
  | .ldvs d _ _ _ _ => [.v d]
  | .gath d _ _ _ _ _ _ => [.v d]
  | .ldf d _ c => [.g d, .g c]
  | .swap d _ _ _ => [.g d]
  | .cas d _ _ _ _ => [.g d]
  | .fadd d _ _ _ => [.g d]
  | .wmap d _ _ _ _ => [.g d]
  | .ureg d _ => [.g d]
  | .uregRel d _ => [.g d]
  | .ldnm d _ _ => [.v d]
  | .mand d _ _ => [.k d]
  | .mor d _ _ => [.k d]
  | .mxor d _ _ => [.k d]
  | .mandn d _ _ => [.k d]
  | .mpopc d _ => [.g d]
  | .mfirst d _ => [.g d]
  | .mtest d _ => [.g d]
  | .mset d => [.k d]
  | .mclr d => [.k d]
  | .mmov d _ => [.k d]
  | .mfromg d _ _ => [.k d]
  | .mtog d _ _ => [.g d]
  | .stend d _ => [.g d]
  | .speek d _ => [.g d]
  | .sisect d _ _ _ => [.g d]
  | .vadd d _ _ _ _ => [.v d]
  | .vsub d _ _ _ _ => [.v d]
  | .vmul d _ _ _ _ => [.v d]
  | .vmulh d _ _ _ _ => [.v d]
  | .vmin d _ _ _ _ => [.v d]
  | .vmax d _ _ _ _ => [.v d]
  | .vabsd d _ _ _ _ => [.v d]
  | .vfma d _ _ _ _ => [.v d]
  | .vfms d _ _ _ _ => [.v d]
  | .vand d _ _ _ _ => [.v d]
  | .vor d _ _ _ _ => [.v d]
  | .vxor d _ _ _ _ => [.v d]
  | .vandn d _ _ _ _ => [.v d]
  | .vshl d _ _ _ _ => [.v d]
  | .vshr d _ _ _ _ => [.v d]
  | .vsra d _ _ _ _ => [.v d]
  | .vcmp d _ _ _ _ _ => [.k d]
  | .vsel d _ _ _ _ => [.v d]
  | .vbcast d _ _ _ => [.v d]
  | .vextr d _ _ _ => [.g d]
  | .vins d _ _ _ => [.v d]
  | .vperm d _ _ _ _ => [.v d]
  | .vrot d _ _ _ => [.v d]
  | .vredadd d _ _ _ => [.g d]
  | .vredmin d _ _ _ => [.g d]
  | .vredmax d _ _ _ => [.g d]
  | .vredor d _ _ _ => [.g d]
  | .vscan d _ _ _ _ => [.v d]
  | .vcvt d _ _ _ _ _ _ => [.v d]
  | .vcompress d _ _ _ => [.v d]
  | .vexpand d _ _ _ => [.v d]
  | .vsort d _ _ _ _ => [.v d]
  | .vdot4 d _ _ _ _ => [.v d]
  | .vrcp d _ _ _ => [.v d]
  | .vrsq d _ _ _ => [.v d]
  | .vexp2 d _ _ _ => [.v d]
  | .vlog2 d _ _ _ => [.v d]
  | .vdiv d _ _ _ _ => [.v d]
  | .vsqrt d _ _ _ => [.v d]
  | .bcenc d _ c _ => [.v d, .g c]
  | .bcdec d _ _ _ => [.v d]
  | .mxprune d a _ _ => [.v d, .v a.r]
  | .zrd d _ _ => [.v d]
  | .cpy d _ _ _ => [.g d]
  | .cpym d _ _ _ => [.g d]
  | .gathr d _ _ _ => [.g d]
  | .scatr d _ _ _ => [.g d]
  | .embag d _ _ _ => [.g d]
  | .coll d _ _ _ => [.g d]
  | .cpywait d _ _ => [.g d]
  | .cpyst d _ => [.g d]
  | .cpyres d _ => [.g d]
  | .bwany d _ => [.g d]
  | .qcfgGet d _ => [.g d]
  | .slice d _ _ => [.g d]
  | .sjoin d _ => [.g d]
  | .wlpop d _ c _ => [.g d, .g c]
  | .mfcr d _ => [.g d]
  | .csave d _ => [.g d]
  | .crstr d _ => [.g d]
  | .bist d _ => [.g d]
  | _ => []

/-- What the issue of an instruction takes: the registers it writes late and after how many cycles, a unit it holds for that time, and the cycles before the context issues
again. -/
structure Timing where
  dests : List RegName
  cycles : Nat
  unit : Option (Fin 3)
  wake : Nat

/-- One cycle. -/
def Timing.one : Timing := ⟨[], 1, none, 0⟩

/-- Significant bits of a number. -/
def sigBits (n : Nat) : Nat := if n = 0 then 0 else Nat.log2 n + 1

/-- Cycles of the divider (R144). -/
def divCycles (signed : Bool) (a b : Word) : Nat :=
  if b = 0 then 12
  else if signed then
    if b = BitVec.allOnes 64 ∧ a = BitVec.ofNat 64 (2 ^ 63) then 12 else 12 + (sigBits (a.toInt.tdiv b.toInt).natAbs - 8 + 1) / 2
  else 12 + (sigBits (a.toNat / b.toNat) - 8 + 1) / 2

/-- The scratchpad offset of an access of n bytes that lies in plain scratchpad of core k, under either of its names (R167, R187). -/
def State.plainAt (s : State) (k : Nat) (a : Word) (n : Nat) : Option Nat :=
  let off := ownLocal k a.toNat
  if rangeOf off = 0 ∧ ((s.core k).winAt off).isNone ∧ ((s.core k).winAt (off + n - 1)).isNone then some off else none

/-- A scalar load of n bytes: in plain scratchpad 5 + w, of the later bank where it crosses (R190); elsewhere a producer (R70). -/
def State.scalarTiming (s : State) (d : GReg) (a : Word) (n : Nat) : Timing :=
  match s.plainAt s.act a n with
  | some off => ⟨[.g d], 5 + max (s.slotWait s.act 0 off) (s.slotWait s.act 0 (off + n - 1)), none, 0⟩
  | none => Timing.one

/-- LDV in plain scratchpad: 8 cycles where it is aligned, else 5 and the wait for the last of its banks (R190). -/
def State.vectorTiming (s : State) (d : VReg) (a : Word) : Timing :=
  match s.plainAt s.act a 128 with
  | some off => ⟨[.v d], if off % 128 = 0 then 8 else 5 + ((List.range 17).map fun i => s.slotWait s.act 1 (off + min 127 (8 * i))).foldl max 0, none, 0⟩
  | none => Timing.one

/-- A strided vector load in plain scratchpad (R299). -/
def State.strideTiming (s : State) (d : VReg) (as : List Word) (w : Nat) : Timing :=
  let offs := as.filterMap fun a => s.plainAt s.act a w
  if offs.length = as.length then ⟨[.v d], s.spreadCycles s.act offs, none, 0⟩ else Timing.one

/-- INT or FLT forms of OP 0x58 (R351). -/
def laneTiming (d : VReg) (ty : VType) : Timing := ⟨[.v d], if ty.ff.isSome then 5 else 3, none, 0⟩

/-- The timing of an instruction that the issuing context issues now. -/
def State.timing (s : State) (i : Instr) : Timing :=
  let t := s.ctx s.act s.actx
  match i with
  | .mul d _ _ | .mulh d _ _ | .mulhu d _ _ | .mulW d _ _ | .madd d _ _ _ => ⟨[.g d], 4, none, 0⟩
  | .div d a b | .rem d a b => ⟨[.g d], divCycles true (t.readG a.r) (t.readG b.r), some 0, 0⟩
  | .divu d a b | .remu d a b => ⟨[.g d], divCycles false (t.readG a.r) (t.readG b.r), some 0, 0⟩
  | .ld d a sz _ _ disp => s.scalarTiming d (eaDisp (t.readG a.r) disp) sz.bytes
  | .ldx d a b sh sz _ _ => s.scalarTiming d (t.readG a.r + (t.readG b.r <<< sh.toNat)) sz.bytes
  | .ldv d a disp => s.vectorTiming d (eaDisp (t.readG a.r) disp)
  | .ldvs d a b pr sz => s.strideTiming d ((strideAddrs t pr (t.readG a.r) (t.readG b.r) (128 / sz.bytes)).filterMap id) sz.bytes
  | .vadd d _ _ ty _ | .vsub d _ _ ty _ | .vmul d _ _ ty _ | .vmin d _ _ ty _ | .vmax d _ _ ty _ | .vabsd d _ _ ty _ => laneTiming d ty
  | .vmulh d _ _ _ _ | .vand d _ _ _ _ | .vor d _ _ _ _ | .vxor d _ _ _ _ | .vandn d _ _ _ _ | .vshl d _ _ _ _ | .vshr d _ _ _ _ | .vsra d _ _ _ _
  | .vsel d _ _ _ _ | .vperm d _ _ _ _ => ⟨[.v d], 3, none, 0⟩
  | .vbcast d _ _ _ | .vcompress d _ _ _ | .vexpand d _ _ _ => ⟨[.v d], 3, none, 0⟩
  | .vins d _ _ _ | .vrot d _ _ _ => ⟨[.v d], 3, none, 0⟩
  | .vextr d _ _ _ => ⟨[.g d], 3, none, 0⟩
  | .vcmp d _ _ _ _ _ => ⟨[.k d], 3, none, 0⟩
  | .vfma d _ _ _ _ | .vfms d _ _ _ _ | .vdot4 d _ _ _ _ => ⟨[.v d], 5, none, 0⟩
  | .vcvt d _ _ _ _ _ _ => ⟨[.v d], 5, none, 0⟩
  | .vredadd d _ _ _ | .vredmin d _ _ _ | .vredmax d _ _ _ | .vredor d _ _ _ => ⟨[.g d], 8, none, 0⟩
  | .vscan d _ _ ty _ => ⟨[.v d], if ty.ff.isSome then 12 else 8, none, 0⟩
  | .vrcp d _ _ _ | .vrsq d _ _ _ | .vexp2 d _ _ _ | .vlog2 d _ _ _ | .bcdec d _ _ _ => ⟨[.v d], 8, none, 0⟩
  | .vsort d _ _ _ _ => ⟨[.v d], 12, none, 0⟩
  | .bcenc d a c _ => ⟨[.v d, .g c], bcencCycles ((List.range 32).map fun i => elem 32 (t.readV a.r) i), none, 0⟩
  | .mxprune d a _ _ => ⟨[.v d, .v a.r], 5, none, 0⟩
  | .vdiv d _ _ _ _ => ⟨[.v d], 20, some 1, 0⟩
  | .vsqrt d _ _ _ => ⟨[.v d], 20, some 1, 0⟩
  | .mtcr _ .csap => ⟨[], 1, none, 108⟩
  | _ => Timing.one

/-- The unit that an instruction waits for: its own, and the member unit for a side-storage instruction and for a scalar access in plain scratchpad (R305). -/
def State.unitFor (s : State) (i : Instr) : Option (Fin 3) :=
  let t := s.ctx s.act s.actx
  let plain : Word → Size → Option (Fin 3) := fun a sz => (s.plainAt s.act a sz.bytes).map fun _ => 2
  match i with
  | .ld _ a sz _ _ disp => plain (eaDisp (t.readG a.r) disp) sz
  | .st _ a sz _ disp => plain (eaDisp (t.readG a.r) disp) sz
  | .ldx _ a b sh sz _ _ | .stx _ a b sh sz _ => plain (t.readG a.r + (t.readG b.r <<< sh.toNat)) sz
  | .qcmp _ _ _ _ _ | .qadd _ _ _ | .qaddi _ _ _ | .qfadd _ _ | .qst _ _ _ | .qld _ _ _ | .qgath _ _ _ _ | .qscat _ _ _ _ => some 2
  | i => (s.timing i).unit

/-- Whether a register is one in stream mode: a write of it is a push, which depends on the SOPEN of the stream (R322, R330). -/
def Ctx.streamReg (t : Ctx) : RegName → Bool
  | .g r => (t.slotG r).isSome
  | .v r => (t.slotV r).isSome
  | .k _ => false

/-- Whether the issuing context must wait before it issues an instruction: for a result that it depends on, or for a unit (R34, R279, R305). -/
def State.tooEarly (s : State) (i : Instr) : Bool :=
  let t := s.ctx s.act s.actx
  ((readNames i ++ (destNames i).filter t.streamReg).any fun r => t.late.any fun e => e.1 == r && decide (s.time < e.2)) ||
  match s.unitFor i with
  | some u => decide (s.time < (s.core s.act).units[u])
  | none => false

/-- The state after an issue, with the times of its results; `s` is the state at the issue. A register that is written has no older result on its way. Nothing is noted where the instruction
has not completed. -/
def State.timed (s : State) (i : Instr) (t : State) : State :=
  let k := s.act
  let x := s.actx
  if t.moves = s.moves ∨ (t.ctx k x).pc ≠ (s.ctx k x).n1 then t
  else
    let w := s.timing i
    let due := s.time + s.cyc k w.cycles
    let t := if w.wake = 0 then t else t.modCtx k x fun c => { c with wake := s.time + s.cyc k w.wake }
    let t := match w.unit with
      | some u => t.modCore k fun c => { c with units := c.units.set u due }
      | none => t
    t.modCtx k x fun c => c.setLate s.time ((destNames i).map fun r => (r, if w.dests.contains r then due else s.time))

/-- The state that a step of exec gives, with the times of its results. -/
def timedOutcome (s : State) (i : Instr) : Host.Outcome State Fault Refusal → Host.Outcome State Fault Refusal
  | .next t => .next (s.timed i t)
  | o => o

end Sys2Proof.Machine
end

