-- ==== Sys2Proof/Machine/Schedule.lean ====
section
/-!
DEFINITION. Which agent moves (log entry 1). A cycle of TIME has five parts, in order: selections by the dispatchers (R243), enqueues by joins and of held records (R238, R469), every
other event, the issues of the cores (R254), and launch packets (R238). Within a part the order is that of this file.
-/

namespace Sys2Proof.Machine

/-! ## Events -/

/-- The part of a cycle in which an event is performed, 1 to 5 (R238). -/
def Ev.part (e : Ev) : Nat := match e.row with
  | .dispatchPlace | .energyWindow => 1
  | .joinContinuationEnqueue | .heldRecordEnqueue => 2
  | .launchPacket | .residencyReport => 5
  | _ => 3

/-- An idle state that is due (R255), or the fallback of the boot ROM (R430). -/
def State.idleDue (s : State) : Option Ev :=
  if s.fallbackDue then some ⟨.bootRomFallback, []⟩
  else if s.time < c2Wait then none
  else match (List.range mizBase).find? s.c2Due with
    | some k => some ⟨.coreEnterC2, [k]⟩
    | none => match (List.range 32).find? s.c3Due with
      | some cl => some ⟨.clusterEnterC3, [cl]⟩
      | none => ((List.range 4).find? s.c4Due).map fun d => ⟨.dieEnterC4, [d]⟩

/-- What is due by TIME and the state alone in a part of the cycle: the start of an energy window (R250) and a selection (R243); a record held for a queue that has room again (R469);
an idle state (R255); a residency report (R258). -/
def State.due (s : State) : Nat → Option Ev
  | 1 => match (List.range 4).find? fun d => decide ((s.die d).window < s.time / 22500) && !(s.die d).tripped with
    | some d => some ⟨.energyWindow, [d]⟩
    | none => (s.clusters.find? fun e => s.placeDue e.1).map fun e => ⟨.dispatchPlace, [e.1]⟩
  | 2 => (s.clusters.find? fun e => e.2.heldReady.isSome).map fun e => ⟨.heldRecordEnqueue, [e.1]⟩
  | 3 => s.idleDue
  | 5 => if s.reportDue then some ⟨.residencyReport, []⟩ else none
  | _ => none

/-- Perform an event: run its row with its operands. -/
def performEv (e : Ev) (s : State) : Host.Outcome State Fault Refusal := exec e.row { s with ev := e.a }

/-- The posted event that comes first: the least TIME, the first posted of equal ones. -/
def firstEv : List (Nat × Ev) → Option (Nat × Ev)
  | [] => none
  | p :: t => match firstEv t with
    | some q => some (if q.1 < p.1 then q else p)
    | none => some p

/-- The posted event of a part that comes first among those whose TIME has come. -/
def State.posted (s : State) (p : Nat) : Option (Nat × Ev) := firstEv (s.pendingEv.filter fun e => e.2.part == p && decide (e.1 ≤ s.time))

/-! ## Issues -/

/-- The address of the instruction at PC of a context where its page must be walked first (R174, R175). -/
def State.fetchWalk (s : State) (k : Nat) (x : Fin 11) : Option Nat :=
  let t := s.ctx k x
  let a := t.pc.toNat
  if rangeOf a = 2 ∧ (t.walkEnd t.asid a).isNone ∧ ((s.core k).tlb.find? (Tlb.covers t.asid a)).isNone then some a else none

/-- Run the instruction at PC of a context (R91, R108, R141): an annulled one has no effect (R90), and a failed fetch is taken as its trap. A line that the fetch has had to bring from memory
delays the issue (R436). -/
def issueAt (s : State) (k : Nat) (x : Fin 11) : Host.Outcome State Fault Refusal :=
  let s := { s with act := k, actx := x }
  if (s.ctx k x).apc then .next (s.finish Flow.seq)
  else match s.fetchWalk k x with
    | some a => .next (s.askWalk k x k (s.ctx k x).asid a).holding
    | none => match s.fetch k x (s.ctx k x).pc.toNat with
      | (.error t, s) => if s.time < (s.ctx k x).wake then .next s.holding else .next (s.takeTrap k x t).issued
      | (.ok (h, i), s) =>
        let s := { s with head := h }
        if s.time < (s.ctx k x).wake ∨ s.tooEarly i = true then .next s.holding else timedOutcome s i (exec i s)

/-- Whether the clock of a core's die runs (R491). -/
def State.runs (s : State) (k : Nat) : Bool := isMiz k || !(s.die (dieOf k)).tripped

/-- Whether a cycle of core k begins at TIME and it has not issued in it (R18, R21). -/
def State.mayIssue (s : State) (k : Nat) : Bool := s.edge k s.time && decide ((s.core k).issued ≤ s.time)

/-- One move of a core: the event at the boundary of its lowest context that has one, else the instruction of the context that the selector chooses; none if no
context of the core can move. -/
def coreMove (s : State) (k : Nat) : Option (Host.Outcome State Fault Refusal) :=
  if !s.runs k then none
  else match s.boundaryOf k with
    | some e => some (performEv e s)
    | none => match (s.core k).select s.time s.moves with
      | some x => some (issueAt s k x)
      | none => none

/-! ## TIME -/

/-- TIME advances by n ticks: a cycle begins. The gangs that have become complete in the cycle that ends take their tickets (R253). -/
def State.nextTick (s : State) (n : Nat) : State :=
  let s := (List.range 4).foldl State.takeTickets s
  { s with time := s.time + n, moves := s.moves + 1, cursor := 0, phase := 0 }

/-- The least number of a list that is above a bound, if one is. -/
def leastAbove (n : Nat) : List Nat → Option Nat
  | [] => none
  | x :: t => match leastAbove n t with
    | some y => some (if n < x ∧ x < y then x else y)
    | none => if n < x then some x else none

/-- Moments of a context: the end of a wait (R305, R411, R414), a result that is late (R29), the end of a save (R414). -/
def Ctx.moments (c : Ctx) : List Nat := c.wake :: (c.late.map (·.2)) ++ match c.prog with
  | .saving n => [n]
  | _ => []

/-- Moments of a core: a budget trap (R246), C2 (R255), a unit, a line request that returns (R193), and those of its contexts. -/
def Core.moments (c : Core) : List Nat :=
  (c.slice.toList.map fun sl => sl.start + sl.rec_.budget) ++ (if c.idle = .c1 then [c.sleepAt + c2Wait] else []) ++
  c.units.toList ++ (c.track.map (·.due)) ++ c.ctxs.toList.flatMap Ctx.moments

/-- Moments of a record on chip (R243): it becomes urgent, or overdue. -/
def Record.moments (horizon : Nat) (r : Record) : List Nat := if r.deadline = noDeadline then [] else [r.deadline - horizon, r.deadline + 1]

/-- Moments at which something happens by TIME alone: a posted event, an energy window (R250), the fallback of the boot ROM (R430), an idle state (R255), a residency report (R258), a record that becomes urgent (R243), the next
cycle of a slow core (R21), and those of the cores. -/
def State.moments (s : State) : List Nat :=
  [(s.time / 22500 + 1) * 22500, c2Wait, linkWait, s.reportAt + 2250, s.reportAt + 22500] ++ (s.pendingEv.map (·.1)) ++
  (if s.cores.any fun e => !s.edge e.1 s.time then [s.time + 1] else []) ++
  (s.dies.map fun e => e.2.lastReq + c4Wait) ++ (s.clusters.flatMap fun e => e.2.qs.toList.flatMap fun q => q.recs.flatMap (Record.moments e.2.horizon)) ++ s.cores.flatMap fun e => e.2.moments

/-- The cycle is over: TIME advances by one tick if anything has moved in it, else to the next moment. -/
def State.idleTime (s : State) : State :=
  s.nextTick (if s.phase ≠ 0 then 1 else (leastAbove s.time s.moments).getD (s.time + 1) - s.time)

/-! ## Moves -/

/-- The move of the lowest core that has not yet had its issue in this cycle and can move. -/
def anyCore (s : State) : Option (Host.Outcome State Fault Refusal) :=
  ((s.cores.map (·.1)).filter fun k => decide (s.cursor ≤ k) && s.mayIssue k).findSome? (coreMove s)

/-- An attempt to issue that has found its context Waiting is no move of the cycle. -/
def keepPhase (s : State) : Host.Outcome State Fault Refusal → Host.Outcome State Fault Refusal
  | .next t => .next (if t.moves = s.moves then { t with phase := s.phase } else t)
  | o => o

/-- A move of a part of the cycle, if it has one. -/
def partMove (s : State) (p : Nat) : Option (Host.Outcome State Fault Refusal) :=
  let t := { s with phase := p }
  if p = 4 then (anyCore t).map (keepPhase s)
  else match s.posted p with
    | some e => some (performEv e.2 { t with pendingEv := s.pendingEv.erase e })
    | none => (s.due p).map fun e => performEv e t

/-- The move that is made when no turn is given: the first of the parts that are left of this cycle, else TIME advances. -/
def defaultMove (s : State) : Host.Outcome State Fault Refusal :=
  (((List.range 6).filter fun p => decide (s.phase ≤ p)).findSome? (partMove s)).getD (.next s.idleTime)

/-- Perform a turn, with the turns behind it. One whose part of the cycle is over, or whose core has had its issue, waits for the next cycle. -/
def turnMove (t : Turn) (rest : List Turn) (s : State) : Host.Outcome State Fault Refusal :=
  match t with
  | .issue k =>
    if s.phase ≤ 4 ∧ s.cursor ≤ k ∧ s.mayIssue k = true then (coreMove { s with turns := rest, phase := 4 } k).getD (.next { s with turns := rest }.idleTime)
    else .next (s.nextTick 1)
  | .event n => match s.pendingEv[n]? with
    | some p =>
      if s.phase ≤ p.2.part then performEv p.2 { s with turns := rest, phase := p.2.part, pendingEv := s.pendingEv.eraseIdx n } else .next (s.nextTick 1)
    | none => .next { s with turns := rest }.idleTime
  | .tick n => .next ({ s with turns := rest }.nextTick (max 1 n))

/-- The move of a state: the turn that is given, else the default. -/
def move (s : State) : Host.Outcome State Fault Refusal :=
  match s.turns with
  | t :: rest => turnMove t rest s
  | [] => defaultMove s

end Sys2Proof.Machine
end

