-- ==== Sys2Proof/Machine/Step.lean ====
section
/-!
DEFINITION. One step of the module.
-/

namespace Sys2Proof.Machine

/-- One step of the module (log entry 1). -/
def step (s : State) : Host.Outcome State Fault Refusal := move s

/-- The state in which the next step fetches and runs the instruction of an opcode-table row's words on core 0 (log entry 10). -/
def State.withFetchWord (s : State) (nbits w : Nat) : State :=
  { s with turns := [.issue 0], pendingEv := [], phase := 0 }.placeInstr (bits w (nbits - 16) 16) (bits w 0 (nbits - 16))

end Sys2Proof.Machine
end

