-- ==== Sys2Proof/Safety.lean ====
section
/-!
DEFINITION. What the claims call a safe run: every step answers a next state, and memory and the scratchpads keep their canonical form, so that equal memories are
equal data.
-/

namespace Sys2Proof

open Sys2Proof.Machine

/-- A step that goes on: no fault and no refusal. -/
def GoesOn (s : State) : Prop := ∃ t, step s = .next t

/-- Memory and every scratchpad are in canonical form. -/
def Canonical (s : State) : Prop := s.mem.wf = true ∧ ∀ k, (s.core k).spad.wf = true

/-- A run of n steps that goes on all the way and ends in a state. -/
def Runs : Nat → State → State → Prop
  | 0, s, t => s = t
  | n + 1, s, t => ∃ u, step s = .next u ∧ Runs n u t

/-- A state that a run from reset reaches. -/
def Reachable (t : State) : Prop := ∃ n, Runs n State.reset t

end Sys2Proof

/-! ## Terms of the statements -/

namespace Sys2Proof.Machine

/-- The context that issues. -/
def State.me (s : State) : Ctx := s.ctx s.act s.actx
/-- The core that issues. -/
def State.home (s : State) : Core := s.core s.act
/-- The issuing context changed. -/
def State.upd (s : State) (f : Ctx → Ctx) : State := s.modCtx s.act s.actx f
/-- The end of the issue of an instruction that is no transfer (R91). -/
def State.done (s : State) : State := s.finish Flow.seq

/-- A register that is full and not in stream mode (R70, R75). -/
def State.plainRef (s : State) : Ref → Bool
  | .g r => s.me.gFull r && (s.me.slotG r).isNone
  | .v r => s.me.vFull r && (s.me.slotV r).isNone
  | .z r => s.home.tiles[r].full

/-- Registers that are full and not in stream mode. -/
def State.plain (s : State) (rs : List Ref) : Bool := rs.all s.plainRef

/-- The registers that operands name. -/
def refs (os : List Opnd) : List Ref := os.map (·.ref)

/-- Whether an operand reads as empty for the issuing context (R70, R322). -/
def State.empty (s : State) (o : Opnd) : Bool := isEmptyRef s.home s.me o.ref

/-- The low n bits of a doubleword, sign-extended: sext(x, n) (R2). -/
def low (n : Nat) (x : Word) : Word := (x.setWidth n).signExtend 64

/-- The n bits from bit p on, and none past bit 63. -/
def fieldMask (p n : Nat) : Word := (BitVec.allOnes n).setWidth 64 <<< p

/-- What the forms with two g sources compute (R272), as functions of the two operand values. -/
inductive Scalar2 : (GReg → GSrc → GSrc → Instr) → (Word → Word → Word) → Prop where
  | add : Scalar2 .add (· + ·)
  | sub : Scalar2 .sub (· - ·)
  | addW : Scalar2 .addW (fun x y => low 32 (x + y))
  | subW : Scalar2 .subW (fun x y => low 32 (x - y))
  | and : Scalar2 .and (· &&& ·)
  | or : Scalar2 .or (· ||| ·)
  | xor : Scalar2 .xor (· ^^^ ·)
  | andn : Scalar2 .andn (fun x y => x &&& ~~~y)
  | shl : Scalar2 .shl (fun x y => BitVec.ofNat 64 (x.toNat * 2 ^ (y.toNat % 64)))
  | shr : Scalar2 .shr (fun x y => BitVec.ofNat 64 (x.toNat / 2 ^ (y.toNat % 64)))
  | sra : Scalar2 .sra (fun x y => BitVec.ofInt 64 (x.toInt / 2 ^ (y.toNat % 64)))
  | rol : Scalar2 .rol (fun x y => BitVec.ofNat 64 (x.toNat * 2 ^ (y.toNat % 64) + x.toNat / 2 ^ (64 - y.toNat % 64)))
  | mul : Scalar2 .mul (· * ·)
  | mulh : Scalar2 .mulh (fun x y => BitVec.ofInt 64 (x.toInt * y.toInt / 2 ^ 64))
  | mulhu : Scalar2 .mulhu (fun x y => BitVec.ofNat 64 (x.toNat * y.toNat / 2 ^ 64))
  | mulW : Scalar2 .mulW (fun x y => low 32 (x * y))
  | div : Scalar2 .div (fun x y => if y = 0 then BitVec.allOnes 64 else x.sdiv y)
  | divu : Scalar2 .divu (fun x y => if y = 0 then BitVec.allOnes 64 else x / y)
  | rem : Scalar2 .rem (fun x y => x.srem y)
  | remu : Scalar2 .remu (fun x y => x % y)
  | min : Scalar2 .min (fun x y => if x.slt y then x else y)
  | max : Scalar2 .max (fun x y => if x.slt y then y else x)
  | minu : Scalar2 .minu (fun x y => if x.ult y then x else y)
  | maxu : Scalar2 .maxu (fun x y => if x.ult y then y else x)
  | slt : Scalar2 .slt (fun x y => if x.slt y then 1 else 0)
  | sltu : Scalar2 .sltu (fun x y => if x.ult y then 1 else 0)
  | seq : Scalar2 .seq (fun x y => if x = y then 1 else 0)
  | sne : Scalar2 .sne (fun x y => if x = y then 0 else 1)

/-- What the forms with one g source compute (R273, R274, R277), as functions of the operand value. -/
inductive Scalar1 : (GReg → GSrc → Instr) → (Word → Word) → Prop where
  | clz : Scalar1 .clz BitVec.clz
  | ctz : Scalar1 .ctz BitVec.ctz
  | popc : Scalar1 .popc BitVec.cpop
  | brev : Scalar1 .brev BitVec.reverse
  | sextB : Scalar1 .sextB (low 8)
  | sextH : Scalar1 .sextH (low 16)
  | sextW : Scalar1 .sextW (low 32)
  | bswap : Scalar1 .bswap (fun x =>
      x.extractLsb' 0 8 ++ x.extractLsb' 8 8 ++ x.extractLsb' 16 8 ++ x.extractLsb' 24 8 ++
      x.extractLsb' 32 8 ++ x.extractLsb' 40 8 ++ x.extractLsb' 48 8 ++ x.extractLsb' 56 8)
  | abs : Scalar1 .abs (fun x => if x.msb then -x else x)
  | neg : Scalar1 .neg (fun x => -x)
  | addi (imm : BitVec 20) : Scalar1 (fun d a => .addi d a imm) (· + imm.signExtend 64)
  | andi (imm : BitVec 20) : Scalar1 (fun d a => .andi d a imm) (· &&& imm.signExtend 64)
  | ori (imm : BitVec 20) : Scalar1 (fun d a => .ori d a imm) (· ||| imm.signExtend 64)
  | xori (imm : BitVec 20) : Scalar1 (fun d a => .xori d a imm) (· ^^^ imm.signExtend 64)
  | slti (imm : BitVec 20) : Scalar1 (fun d a => .slti d a imm) (fun x => if x.slt (imm.signExtend 64) then 1 else 0)
  | sltiu (imm : BitVec 20) : Scalar1 (fun d a => .sltiu d a imm) (fun x => if x.ult (imm.signExtend 64) then 1 else 0)
  | shli (sh : BitVec 6) : Scalar1 (fun d a => .shli d a sh) (fun x => BitVec.ofNat 64 (x.toNat * 2 ^ sh.toNat))
  | shri (sh : BitVec 6) : Scalar1 (fun d a => .shri d a sh) (fun x => BitVec.ofNat 64 (x.toNat / 2 ^ sh.toNat))
  | srai (sh : BitVec 6) : Scalar1 (fun d a => .srai d a sh) (fun x => BitVec.ofInt 64 (x.toInt / 2 ^ sh.toNat))
  | roli (sh : BitVec 6) : Scalar1 (fun d a => .roli d a sh) (fun x => BitVec.ofNat 64 (x.toNat * 2 ^ sh.toNat + x.toNat / 2 ^ (64 - sh.toNat)))
  | bfx (len pos : BitVec 6) : Scalar1 (fun d a => .bfx d a len pos) (fun x => low (len.toNat + 1) (x.sshiftRight pos.toNat))
  | bfxu (len pos : BitVec 6) : Scalar1 (fun d a => .bfxu d a len pos) (fun x => ((x >>> pos.toNat).setWidth (len.toNat + 1)).setWidth 64)

/-- The scalar integer forms (R272 to R278): instruction, destination, operands read, and the value written as a function of the context at the issue. -/
inductive ScalarOp : Instr → GReg → List Opnd → (Ctx → Word) → Prop where
  | two {op : GReg → GSrc → GSrc → Instr} {f : Word → Word → Word} (h : Scalar2 op f) (d : GReg) (a b : GSrc) :
      ScalarOp (op d a b) d [a.op 0, b.op 1] fun t => f (t.readG a.r) (t.readG b.r)
  | one {op : GReg → GSrc → Instr} {f : Word → Word} (h : Scalar1 op f) (d : GReg) (a : GSrc) : ScalarOp (op d a) d [a.op 0] fun t => f (t.readG a.r)
  | li (d : GReg) (imm : BitVec 32) : ScalarOp (.li d imm) d [] fun _ => imm.signExtend 64
  | lih (d : GReg) (imm : BitVec 32) : ScalarOp (.lih d imm) d [dG d] fun t => imm ++ (t.readG d).setWidth 32
  | addpc (d : GReg) (imm : BitVec 20) : ScalarOp (.addpc d imm) d [] fun t => ((t.pc + imm.signExtend 64).setWidth 48).setWidth 64
  | bfi (d : GReg) (a : GSrc) (len pos : BitVec 6) : ScalarOp (.bfi d a len pos) d [a.op 0, dG d] fun t =>
      (t.readG d &&& ~~~fieldMask pos.toNat (len.toNat + 1)) ||| (t.readG a.r <<< pos.toNat &&& fieldMask pos.toNat (len.toNat + 1))
  | cmov (d : GReg) (a b c : GSrc) : ScalarOp (.cmov d a b c) d [a.op 0, b.op 1, c.op 2] fun t => if t.readG c.r = 0 then t.readG b.r else t.readG a.r
  | madd (d : GReg) (a b c : GSrc) : ScalarOp (.madd d a b c) d [a.op 0, b.op 1, c.op 2] fun t => t.readG a.r * t.readG b.r + t.readG c.r

/-! ## Ends of an issue -/

/-- Fetching the line of N2 finds its translation and the line itself held, and so changes nothing (R88, R114). -/
def State.warm (s : State) : Prop := (s.fetchLine s.act s.actx s.me.n2.toNat).2 = s

/-- The end of the issue of an instruction that sets the addresses of its context itself, or ends the context. -/
def State.ended (s : State) : State :=
  ((s.upd fun c => { c with prog := .none, hold := none }).modCore s.act (Core.noteIssue · s.actx)).cycle

/-- A trap of the issuing instruction, taken from the state before it (R456); the context has issued (R92, R254). -/
def State.trapped (s : State) (code : Nat) (detail addr : Word) : State := (s.takeTrap s.act s.actx ⟨code, detail, addr, false⟩).issued

/-- The detail word of an illegal instruction with reason 6 and a subreason (R449). -/
def State.detail6 (s : State) (sub : Nat) : Word := w64 (s.head * 2 ^ 48 + sub * 2 ^ 8 + 6)

/-- Two contexts agree in everything that a program reads as registers: g, v, masks, predicates, full bits, stream slots, and every control register but PC, N1, N2
and ANUL (R66, R77). -/
def Ctx.sameRegs (c d : Ctx) : Prop :=
  c.g = d.g ∧ c.v = d.v ∧ c.m = d.m ∧ c.p = d.p ∧ c.gf = d.gf ∧ c.vf = d.vf ∧ c.slots = d.slots ∧ c.status = d.status ∧ c.qgd = d.qgd ∧ c.ssb = d.ssb ∧
  c.ssl = d.ssl ∧ c.uivec = d.uivec ∧ c.uitag = d.uitag ∧ c.uicause = d.uicause ∧ c.fmode = d.fmode ∧ c.fflags = d.fflags ∧ c.qcount = d.qcount ∧
  c.qbase = d.qbase ∧ c.qstride = d.qstride ∧ c.shadow = d.shadow ∧ c.shadowf = d.shadowf ∧ c.prods = d.prods ∧ c.flagsAt = d.flagsAt ∧ c.ldnm = d.ldnm ∧ c.st = d.st

/-- Two cores agree in what their instructions share: registers of the core, queues, tiles, channels, mutexes, semaphores, tags, locks, scratchpad and its poison, windows' places
and slices (R93 to R95). -/
def Core.sameUnits (c d : Core) : Prop :=
  c.issuepol = d.issuepol ∧ c.greedylim = d.greedylim ∧ c.csap = d.csap ∧ c.deleg = d.deleg ∧ c.epoch = d.epoch ∧ c.tvec = d.tvec ∧ c.spad = d.spad ∧ c.spoison = d.spoison ∧
  c.qs = d.qs ∧ c.tiles = d.tiles ∧ c.cfgv = d.cfgv ∧ c.fmt = d.fmt ∧ c.chans = d.chans ∧ c.bptr = d.bptr ∧ c.mtx = d.mtx ∧ c.sem = d.sem ∧ c.tags = d.tags ∧ c.locks = d.locks ∧
  c.cq = d.cq ∧ c.ldfs = d.ldfs ∧ c.ubuf = d.ubuf ∧ c.slice = d.slice

/-! ## Control -/

/-- The condition of B.cc (R263). -/
def condTrue (cc : Cond) (a b : Word) : Bool :=
  match cc with
  | .eq => a == b
  | .ne => a != b
  | .lt => a.slt b
  | .ge => !a.slt b
  | .ltu => a.ult b
  | .geu => !a.ult b
  | .z => a == 0
  | .nz => a != 0

/-- An address from PC: its line, a number of lines on, and a head of that line, modulo 2^48 (R110, R111, R269). -/
def lineAt (pc lines head : Word) : Word := (((pc &&& ~~~63) + lines * 64 + head * 2).setWidth 48).setWidth 64

/-! ## Masks (R303, R312 to R314) -/

/-- A mask value as an instruction writes it: bits COUNT and up are clear while the context is bound (R303). -/
def Ctx.bounded (t : Ctx) (x : Mask) : Mask := if t.qgd = 0 then x else x &&& BitVec.ofNat 256 (2 ^ t.qcount - 1)

/-- The forms that write a mask from masks: instruction, masks named, destination, value (R312, R314). -/
inductive MaskOp : Instr → List MOpd → MOpd → (Ctx → Mask) → Prop where
  | mand (d a b : MOpd) : MaskOp (.mand d a b) [d, a, b] d fun t => t.getM a &&& t.getM b
  | mor (d a b : MOpd) : MaskOp (.mor d a b) [d, a, b] d fun t => t.getM a ||| t.getM b
  | mxor (d a b : MOpd) : MaskOp (.mxor d a b) [d, a, b] d fun t => t.getM a ^^^ t.getM b
  | mandn (d a b : MOpd) : MaskOp (.mandn d a b) [d, a, b] d fun t => t.getM a &&& ~~~t.getM b
  | mset (d : MOpd) : MaskOp (.mset d) [d] d fun _ => BitVec.allOnes 256
  | mclr (d : MOpd) : MaskOp (.mclr d) [d] d fun _ => 0
  | mmov (d a : MOpd) : MaskOp (.mmov d a) [d, a] d fun t => t.getM a

/-- The forms that write a g register from a mask (R313, R314). -/
inductive MaskNum : (GReg → MOpd → Instr) → (Mask → Word) → Prop where
  | mpopc : MaskNum .mpopc fun m => BitVec.ofNat 64 ((List.range 256).countP fun i => m.getLsbD i)
  | mfirst : MaskNum .mfirst fun m => match (List.range 256).find? fun i => m.getLsbD i with
      | some i => BitVec.ofNat 64 i
      | none => BitVec.allOnes 64
  | mtest : MaskNum .mtest fun m => if m = 0 then 0 else 1
  | mtog (q : Fin 4) : MaskNum (fun d a => .mtog d a q) fun m => m.extractLsb' (64 * q.val) 64

/-- No LDNM of the issuing context stands between it and the masks named (R48). -/
def State.masksFree (s : State) (ms : List MOpd) : Prop := s.me.ldnm = false ∨ MOpd.m 0 ∉ ms

/-- Every register that START and SPLIT pass is full (R36, R51). -/
def Ctx.passes (t : Ctx) : Prop := (∀ i : Nat, 1 ≤ i → i ≤ 15 → t.gf.getLsbD i = true) ∧ ∀ i : Nat, i ≤ 3 → t.vf.getLsbD i = true

/-! ## Memory forms -/

/-- A load: instruction, destination, operands, address, size, U, acquire, and whether its base is g62 (R282, R284). -/
inductive LoadOp : Instr → GReg → List Opnd → (Ctx → Word) → Size → Bool → Bool → Bool → Prop where
  | ld (d : GReg) (a : GSrc) (sz : Size) (u acq : Bool) (disp : BitVec 20) :
      LoadOp (.ld d a sz u acq disp) d [a.op 0] (fun t => t.readG a.r + disp.signExtend 64) sz u acq (a.r == 62)
  | ldx (d : GReg) (a b : GSrc) (sh : BitVec 3) (sz : Size) (u acq : Bool) :
      LoadOp (.ldx d a b sh sz u acq) d [a.op 0, b.op 1] (fun t => t.readG a.r + (t.readG b.r <<< sh.toNat)) sz u acq (a.r == 62)

/-- A store: instruction, the register stored, the other operands, address, size, release, and whether its base is g62 (R283, R284). -/
inductive StoreOp : Instr → GReg → List Opnd → (Ctx → Word) → Size → Bool → Bool → Prop where
  | st (d : GReg) (a : GSrc) (sz : Size) (rel : Bool) (disp : BitVec 20) :
      StoreOp (.st d a sz rel disp) d [a.op 0] (fun t => t.readG a.r + disp.signExtend 64) sz rel (a.r == 62)
  | stx (d : GReg) (a b : GSrc) (sh : BitVec 3) (sz : Size) (rel : Bool) :
      StoreOp (.stx d a b sh sz rel) d [a.op 0, b.op 1] (fun t => t.readG a.r + (t.readG b.r <<< sh.toNat)) sz rel (a.r == 62)

/-- An atomic: instruction, destination, operands, address, whether a doubleword, the value it writes for an old value (none where it writes nothing), and whether its base is g62
(R290). -/
inductive AtomicOp : Instr → GReg → List Opnd → (Ctx → Word) → Bool → (Ctx → Nat → Option Nat) → Bool → Prop where
  | swap (d : GReg) (a b : GSrc) (dw : Bool) :
      AtomicOp (.swap d a b dw) d [a.op 0, b.op 1] (fun t => t.readG a.r) dw (fun t _ => some (t.readG b.r).toNat) (a.r == 62)
  | cas (d : GReg) (a b c : GSrc) (dw : Bool) :
      AtomicOp (.cas d a b c dw) d [a.op 0, b.op 1, c.op 2] (fun t => t.readG a.r) dw
        (fun t old => if old = (t.readG c.r).toNat % 2 ^ (if dw then 64 else 32) then some (t.readG b.r).toNat else none) (a.r == 62)
  | fadd (d : GReg) (a b : GSrc) (dw : Bool) :
      AtomicOp (.fadd d a b dw) d [a.op 0, b.op 1] (fun t => t.readG a.r) dw
        (fun t old => some ((old + (t.readG b.r).toNat) % 2 ^ (if dw then 64 else 32))) (a.r == 62)

/-- Bytes of an atomic (R290). -/
def atomicBytes (dw : Bool) : Nat := if dw then 8 else 4

/-- The first address of the issuing core's scratchpad in the aperture (R167). -/
def State.ownBase (s : State) : Nat := aperBase + logical s.act * 0x20000
/-- A range-lock extent meets no byte of n from an address. -/
def Lock.besides (l : Lock) (a n : Nat) : Prop := a + n ≤ l.a ∨ l.a + l.n ≤ a

/-- The places of n bytes of the issuing core's scratchpad. -/
def State.spadPlaces (s : State) (a : Word) (n : Nat) : List Place := (List.range n).map fun i => .spad s.act (a.toNat + i)

/-- n bytes from a local address lie in plain scratchpad of the issuing core: outside every window, under no range lock by either of their names, not poisoned, and in no node that an earlier
LDNM of the context is still to read (R167, R187, R214, R479, R196). -/
def State.inSpad (s : State) (a : Word) (n : Nat) : Prop :=
  a.toNat + n ≤ 0x20000 ∧ (∀ (i : Fin 8) (w : Window), s.home.wins[i] = some w → a.toNat + n ≤ w.base ∨ w.base + w.len ≤ a.toNat) ∧
  (∀ l ∈ s.home.locks, l.besides a.toNat n ∧ l.besides (s.ownBase + a.toNat) n) ∧ (∀ i, i < n → s.home.spoison.contains ((a.toNat + i) / 4) = false) ∧
  s.nodeAhead s.act s.actx.val (s.spadPlaces a n) = false

/-- An access of n bytes through g62 stays within [SSL, SSB] (R76). -/
def Ctx.stackFits (t : Ctx) (stk : Bool) (a : Word) (n : Nat) : Prop := stk = true → t.ssl.toNat ≤ a.toNat ∧ a.toNat + n ≤ t.ssb.toNat + 1

/-- n bytes of the issuing core's scratchpad as a number, least significant byte first (R2). -/
def State.spadRead (s : State) (a : Word) (n : Nat) : Nat := s.home.spad.readN a.toNat n

/-- n bytes written in the issuing core's scratchpad; the stream buffers of the core see them (R324). -/
def State.spadWrite (s : State) (a : Word) (n x : Nat) : State :=
  (s.modCore s.act fun c => { c with spad := c.spad.writeN a.toNat n x }).patchStreams s.act ((s.spadPlaces a n).map Place.loc) x

/-- A loaded number of n bytes as a doubleword (R282). -/
def loaded (n : Nat) (u : Bool) (x : Nat) : Word := if u then BitVec.ofNat 64 x else low (8 * n) (BitVec.ofNat 64 x)

/-- The checks of R451 pass for an access of the issuing context: its places, and the state with the translations they used. -/
def State.accepts (s : State) (q : Req) (ps : List Place) (s1 : State) : Prop := checkOne q s = .ok (.ok ps, s1)

/-- The checks of R451 fail for an access of the issuing context, with a trap. -/
def State.rejects (s : State) (q : Req) (t : Trap) : Prop := ∃ n s1, checkOne q s = .ok (.error (n, t), s1)

/-- No update pair of the context, and no ungranted partial of its core, lies in the pages of an access (R219). -/
def State.noPairs (s : State) (ps : List Place) : Prop := ∀ p ∈ ps, ∀ pa, p.pa? = some pa → s.mustWait s.act s.actx.val pa = false

/-- A load of some places waits neither for an LDNM that reads its node there first (R196), nor for pairs (R219) or line requests (R193). -/
def State.mayLoad (s : State) (ps : List Place) : Prop :=
  s.nodeAhead s.act s.actx.val ps = false ∧ s.noPairs ps ∧ s.trackFull s.act false ps = false
/-- A store to some places waits neither for an LDNM (R199) nor for pairs (R219) or line requests (R193). -/
def State.mayStore (s : State) (ps : List Place) : Prop := s.me.ldnm = false ∧ s.noPairs ps ∧ s.trackFull s.act true ps = false

/-- A long-latency producer has issued (R70): its destinations are empty and its results come later; g0 takes no result. A poisoned response names the first destination
(R453); `peer` is the address of an access to a peer (R489), and an LDF holds a tracking entry (R288). -/
def State.produced (s : State) (lat : Nat) (ldf : Bool) (ds : List Dest) (fl : Flags) (poison : Option Word) (peer : Option Word := none) : State :=
  let later := ds.filter fun d => match d with
    | .g r _ => r != 0
    | .v _ _ => true
  let detail := w64 (7 + (match ds.head? with
    | some (.g r _) => Ref.code (.g r)
    | some (.v r _) => Ref.code (.v r)
    | none => 0) + 2 ^ 12)
  (s.upd fun t =>
    let t := later.foldl Ctx.markEmpty t
    { t with prods := t.prods ++ [⟨later, fl, poison.map fun a => (detail, a), false, ldf, s.time + lat, none, ldf, peer.map fun a => (detail, a, s.time)⟩] }).postIn lat
      ⟨if ldf then .ldfDeferredAnswer else .producerComplete, [s.act, s.actx.val]⟩

/-- The producer of an LDF that its home has answered has issued (R70, R288). -/
def State.answered (s : State) (lat : Nat) (ds : List Dest) (poison peer : Option Word) : State := s.produced lat true ds 0 poison peer

/-- The access that a load asks for (R280, R282). -/
def loadReq (a : Word) (sz : Size) (acq stk : Bool) : Req :=
  { va := a, n := sz.bytes, kind := 0, wr := false, align := if acq then sz.bytes else 1, stk := stk, dev := sz.bytes == 8 }

/-- The access that a store asks for (R280, R283). -/
def storeReq (a : Word) (sz : Size) (rel stk : Bool) : Req :=
  { va := a, n := sz.bytes, kind := 1, wr := true, align := if rel then sz.bytes else 1, stk := stk, dev := sz.bytes == 8 }

/-- The access that an atomic asks for (R290). -/
def atomicReq (a : Word) (dw stk : Bool) : Req :=
  { va := a, n := atomicBytes dw, kind := 2, wr := true, align := atomicBytes dw, stk := stk, home := true }

/-- The access that LDF, STF and CLRF ask for (R288, R289). -/
def futureReq (a : Word) (wr stk : Bool) : Req := { va := a, n := 8, kind := 2, wr := wr, align := 8, fut := true, stk := stk, home := true }

/-- The state after an acquire, if an instruction is one. -/
def State.acquired (s : State) (acq : Bool) : State := if acq then s.acquire s.act s.actx true else s
/-- The state after a release has written back SI words, if an instruction is one. -/
def State.released (s : State) (rel : Bool) : State := if rel then s.siFlush s.act else s

/-- Element i of a vector of elements of w bytes. -/
def elemOf (x : VWord) (w i : Nat) : Nat := x.toNat / 2 ^ (8 * w * i) % 2 ^ (8 * w)

/-- Whether element i is active under an optional predicate (R286, R287). -/
def Ctx.isActive (t : Ctx) (pr : Option PReg) (i : Nat) : Prop := ∀ p, pr = some p → t.p[p].getLsbD i = true

/-- A vector access by elements: instruction, vector register, operands, element bytes, number of elements, the address of element i, its predicate, and whether its base is g62 (R286,
R287). Loads here; `gath` tells GATH, whose elements are extended to lanes (U as given) and which is a long-latency producer wherever its elements lie. -/
inductive VLoadOp : Instr → VReg → List Opnd → Nat → Nat → (Ctx → Nat → Word) → Option PReg → Bool → Option Bool → Prop where
  | ldvs (d : VReg) (a b : GSrc) (pr : Option PReg) (sz : ESize) :
      VLoadOp (.ldvs d a b pr sz) d [a.op 0, b.op 1] sz.bytes (128 / sz.bytes) (fun t i => t.readG a.r + t.readG b.r * BitVec.ofNat 64 i) pr (a.r == 62) none
  | gath (d : VReg) (a : GSrc) (b : VSrc) (pr : Option PReg) (sc : BitVec 2) (u : Bool) (sz : ESize) :
      VLoadOp (.gath d a b pr sc u sz) d [a.op 0, b.op 1] sz.bytes 32
        (fun t i => t.readG a.r + (low 32 (BitVec.ofNat 64 (elemOf (t.readV b.r) 4 i)) <<< sc.toNat)) pr (a.r == 62) (some u)

/-- The vector stores by elements: as `VLoadOp`, with the vector stored and the width of a lane of it in bytes. -/
inductive VStoreOp : Instr → VReg → List Opnd → Nat → Nat → (Ctx → Nat → Word) → Option PReg → Bool → Nat → Prop where
  | stvs (d : VReg) (a b : GSrc) (pr : Option PReg) (sz : ESize) :
      VStoreOp (.stvs d a b pr sz) d [a.op 0, b.op 1] sz.bytes (128 / sz.bytes) (fun t i => t.readG a.r + t.readG b.r * BitVec.ofNat 64 i) pr (a.r == 62) sz.bytes
  | scatv (d : VReg) (a : GSrc) (b : VSrc) (pr : Option PReg) (sc : BitVec 2) (sz : ESize) :
      VStoreOp (.scatv d a b pr sc sz) d [a.op 0, b.op 1] sz.bytes 32
        (fun t i => t.readG a.r + (low 32 (BitVec.ofNat 64 (elemOf (t.readV b.r) 4 i)) <<< sc.toNat)) pr (a.r == 62) 4

/-! ## Windows, updates, query sets -/

/-- The issuing context issues nothing more for n ticks (R34). -/
def State.busyFor (s : State) (n : Nat) : State := s.upd fun t => { t with wake := max t.wake (s.time + n) }

/-- The access that a pair of an update instruction asks for, checked: its physical address, region, attribute and whether a window covers it; the checks change nothing where the translations are
held (R224, R295). -/
def State.pairFor (s : State) (ty : UType) (stk : Bool) (lane : Nat) (a : Word) (r : Nat × Nat × Attr × Bool) : Prop := checkPair ty stk lane a s = .ok (.ok r, s)

/-- The pair that a lane emits (R226): its value at the width of the type, and the stamp of R223. -/
def State.pairOf (s : State) (ty : UType) (lane : Nat) (x : Word) (r : Nat × Nat × Attr × Bool) : Pair :=
  ⟨r.1, r.2.1, BitVec.ofNat 64 (x.toNat % 2 ^ (8 * ty.bytes)), s.time, s.act, lane, [s.actx.val], r.2.2.1, r.2.2.2, false⟩

/-- Pairs entered in the update buffer of the issuing core (R226); stream elements that lie in their bin pages are fetched again (R218, R219). -/
def State.buffered (s : State) (ps : List Pair) : State :=
  if ps.isEmpty then s
  else ((s.modCore s.act fun c => { c with ubuf := c.ubuf ++ ps }).cutStreams s.act fun l => match l with
    | .mem pa => ps.any fun p => pageOf p.pa == pageOf pa
    | .spad _ _ => false).post ⟨.updateBufferDrain, [s.act]⟩

/-- The address of the field at an offset in the row of member i, as a local address (R301). -/
def State.fieldAt (s : State) (off i : Nat) : Word := BitVec.ofNat 64 ((s.me.qbase.toNat - aperBase) % 0x20000 + i * s.me.qstride + off)

/-- The members of the issuing context's m0, ascending (R301). -/
def State.chosen (s : State) : List Nat := (List.range 256).filter fun i => (s.me.getM (.m 0)).getLsbD i

/-- The rows of the selected members lie in plain scratchpad of the issuing core and hold an aligned field of a type at an offset (R301), under the descriptor that QGSET resolved (R499). -/
def State.rowsReady (s : State) (ty : QType) (off : Nat) (sel : List Nat) : Prop :=
  s.me.ldnm = false ∧ s.me.qgd ≠ 0 ∧ rowLayout s = .ok ((s.me.qbase.toNat, s.me.qstride), s) ∧ rangeOf s.me.qbase.toNat = 1 ∧
  192 * clusterOf s.act + (s.me.qbase.toNat - aperBase) / 0x20000 = s.act ∧ off + ty.bytes ≤ s.me.qstride ∧
  ∀ i ∈ sel, (s.me.qbase.toNat - aperBase) % 0x20000 + (i + 1) * s.me.qstride ≤ 0x20000 ∧ s.inSpad (s.fieldAt off i) ty.bytes ∧ (s.fieldAt off i).toNat % ty.bytes = 0

/-- fld(i): the field of member i extended to 64 bits (R302). -/
def State.fieldOf (s : State) (ty : QType) (off i : Nat) : Word :=
  match ty with
  | .i8 | .i16 | .i32 => loaded ty.bytes false (s.spadRead (s.fieldAt off i) ty.bytes)
  | _ => BitVec.ofNat 64 (s.spadRead (s.fieldAt off i) ty.bytes)

/-- Ticks of a side-storage instruction over rows in the issuing core's own scratchpad (R305): one for each chunk of the members, and 7. -/
def State.sideTicks (s : State) (sel : List Nat) : Nat := s.cyc s.act (((sel.map (· / 32)).eraseDups).length + 7)

/-- The member unit is busy, and a destination late, until a side-storage instruction has completed; one that selects no member takes one issue (R301, R305). -/
def State.sideNoted (s : State) (d : Option RegName) (sel : List Nat) : State :=
  if sel.isEmpty then s.upd fun t => t.setLate s.time (d.toList.map fun r => (r, s.time))
  else
    let due := s.time + s.sideTicks sel
    (s.modCore s.act fun c => { c with units := c.units.set 2 due }).upd fun t => t.setLate s.time (d.toList.map fun r => (r, due))

/-- put(i, x) for each member of a list in order (R302). -/
def State.putFields (s : State) (ty : QType) (off : Nat) (f : State → Nat → Word) (sel : List Nat) : State :=
  sel.foldl (fun u i => u.spadWrite (s.fieldAt off i) ty.bytes (f u i).toNat) s

/-- The comparisons of QCMP on the integer field types (R308). -/
def qcondInt (ty : QType) (cc : QCond) (x y : Word) : Bool :=
  let lt := if ty = .n8 ∨ ty = .n16 ∨ ty = .n32 then x.ult y else x.slt y
  match cc with
  | .eq => x == y
  | .ne => x != y
  | .lt => lt
  | .ge => !lt
  | .le => lt || x == y
  | .gt => !lt && x != y
  | .tst => x &&& y != 0
  | .ntst => x &&& y == 0

/-! ## Streams -/

/-- A register leaves stream mode: its slot is closed, and it is 0 and full (R326). -/
def Ctx.leaves (t : Ctx) (r : Ref) : Ctx :=
  match t.slotOf r with
  | none => t
  | some i =>
    let t : Ctx := { t with slots := t.slots.set i Slot.closed }
    match r with
    | .g g => (t.setG g 0).markG g true
    | .v v => (t.setV v 0).markV v true
    | .z _ => t

/-- A register enters stream mode in a slot (R319): it is 0, and the slot holds the descriptor. -/
def Ctx.enters (t : Ctx) (r : Ref) (i : Fin 8) (sl : Slot) : Ctx :=
  let t := match r with
    | .g g => t.setG g 0
    | .v v => t.setV v 0
    | .z _ => t
  { t with slots := t.slots.set i sl }

/-- A register of the issuing context leaves stream mode; a refill of its slot is no longer due (R326). -/
def State.leftStream (s : State) (r : Ref) : State := match s.me.slotOf r with
  | none => s
  | some i => (s.noRefill s.act s.actx.val i.val).upd fun t => t.leaves r

/-- A register that an instruction can name only from a TIME on (R330). -/
def Ctx.awaits (t : Ctx) (r : Ref) (due : Nat) : Ctx := match r.late with
  | some n => { t with late := (n, due) :: t.late.filter fun e => e.1 != n }
  | none => t

/-- The lowest slot not in use (R319). -/
def Ctx.freeSlot (t : Ctx) : Option (Fin 8) := (List.finRange 8).find? fun i => !t.slots[i].used

/-- A slot of the issuing context replaced, and its refill begun if it is an input stream (R323). -/
def State.moved (s : State) (i : Fin 8) (sl : Slot) : State :=
  let u := s.upd fun t => { t with slots := t.slots.set i sl }
  if sl.out then u else u.askRefill i

/-- A pass of the loop of a walk that has not ended is over: its effects stand, and the instruction is issued again in the next cycle of the core (R329). -/
def State.passed (s : State) : State := (s.upd fun t => { t with wake := s.time + s.cyc s.act 1 }).holding

/-- The end of a pass of a walk: the issue ends where the walk has ended with it, and else the instruction is issued again (R329). -/
def State.walked (s : State) (ended : Prop) [Decidable ended] : State := if ended then s.done else s.passed

/-- One element of an input stream of the issuing context consumed (R322). -/
def State.popped1 (s : State) (i : Fin 8) : State := s.moved i (s.me.slots[i].adv 1)

/-- A number put at the position of an output stream with elements of n bytes, which lies in plain scratchpad (R322). -/
def State.pushed (s : State) (o : Fin 8) (n : Nat) (x : Word) : State :=
  (s.spadWrite s.me.slots[o].addr n x.toNat).upd fun t => { t with slots := t.slots.set o (t.slots[o].adv 1) }

/-- An output stream takes an element without a store, being exhausted, or with one in plain scratchpad (R322): an element of n bytes without values. -/
def State.takes (s : State) (o : Fin 8) (n : Nat) : Prop :=
  s.me.slots[o].out = true ∧ (s.me.slots[o].left = 0 ∨
    (s.me.ldnm = false ∧ s.me.slots[o].reqs true true = [{ va := s.me.slots[o].addr, n := n, kind := 4, wr := true }] ∧ s.inSpad s.me.slots[o].addr n))

/-- The state after an output stream has been given an element (R322). -/
def State.given (s : State) (o : Fin 8) (n : Nat) (x : Word) : State := if s.me.slots[o].left = 0 then s else s.pushed o n x

/-- No range lock of the issuing core covers an element held in a buffer (R323, R214). -/
def State.unlocked (s : State) (sl : Slot) : Prop := ∀ e ∈ sl.buf, s.home.elemLock s.act e = none

/-- An input fibre whose next element is buffered, with its coordinate (R321, R322). -/
def Slot.nextIs (sl : Slot) (e : Elem) (x : Nat) : Prop := sl.left ≠ 0 ∧ sl.buf.head? = some e ∧ e.x % 2 ^ 32 = x

/-! ## Vectors -/

/-- A lane result by the class of the type: an integer modulo the element width, without flags, or a floating result with its flags (R331). -/
def byType (ty : VType) (i : Nat → Nat) (f : FF → Nat × Flags) : Nat × Flags :=
  match ty.ff with
  | some F => f F
  | none => (i ty.width, 0)

/-- What the forms of two v sources compute in a lane (R336 to R338, R347), from the codes of A, B and, where `true`, the old destination, with the cycles of their flags. Integer lanes are given modulo 2^w; `vInt` reads a code by the signedness
of the type. -/
inductive VecOp2 : (VReg → VSrc → VSrc → VType → Option PReg → Instr) → Bool → (VType → FMode → Nat → Nat → Nat → Nat × Flags) → (lat : Nat := 5) → Prop where
  | vadd : VecOp2 .vadd false fun ty md x y _ => byType ty (fun w => (x + y) % 2 ^ w) fun F => fAdd F md x y
  | vsub : VecOp2 .vsub false fun ty md x y _ => byType ty (fun w => (x + 2 ^ w - y) % 2 ^ w) fun F => fSub F md x y
  | vmul : VecOp2 .vmul false fun ty md x y _ => byType ty (fun w => x * y % 2 ^ w) fun F => fMul F md x y
  | vmulh : VecOp2 .vmulh false fun ty _ x y _ => ((vInt ty x * vInt ty y / 2 ^ ty.width % 2 ^ ty.width).toNat, 0)
  | vmin : VecOp2 .vmin false fun ty md x y _ => byType ty (fun _ => if vInt ty y < vInt ty x then y else x) fun F => fMin F md x y
  | vmax : VecOp2 .vmax false fun ty md x y _ => byType ty (fun _ => if vInt ty x < vInt ty y then y else x) fun F => fMax F md x y
  | vabsd : VecOp2 .vabsd false fun ty md x y _ => byType ty (fun w => (vInt ty x - vInt ty y).natAbs % 2 ^ w) fun F => fAbsd F md x y
  | vfma : VecOp2 .vfma true fun ty md x y z => byType ty (fun _ => z) fun F => fFma F md false x y z
  | vfms : VecOp2 .vfms true fun ty md x y z => byType ty (fun _ => z) fun F => fFma F md true x y z
  | vand : VecOp2 .vand false fun _ _ x y _ => (x &&& y, 0)
  | vor : VecOp2 .vor false fun _ _ x y _ => (x ||| y, 0)
  | vxor : VecOp2 .vxor false fun _ _ x y _ => (x ^^^ y, 0)
  | vandn : VecOp2 .vandn false fun _ _ x y _ => (x - (x &&& y), 0)
  | vshl : VecOp2 .vshl false fun ty _ x y _ => (x * 2 ^ (y % ty.width) % 2 ^ ty.width, 0)
  | vshr : VecOp2 .vshr false fun ty _ x y _ => (x / 2 ^ (y % ty.width), 0)
  | vsra : VecOp2 .vsra false fun ty _ x y _ => ((sextN x ty.width / 2 ^ (y % ty.width) % 2 ^ ty.width).toNat, 0)
  | vdiv : VecOp2 .vdiv false (fun ty md x y _ => byType ty (fun _ => x) (fun F => fDiv F md x y)) 20

/-- What the forms of one v source compute in a lane (R347, R348), with the cycles of their flags. -/
inductive VecOp1 : (VReg → VSrc → VType → Option PReg → Instr) → (VType → FMode → Nat → Nat × Flags) → (lat : Nat := 8) → Prop where
  | vrcp : VecOp1 .vrcp fun _ md x => fRcp md.ftz x
  | vrsq : VecOp1 .vrsq fun _ md x => fRsq md.ftz x
  | vexp2 : VecOp1 .vexp2 fun _ md x => fExp2 md.ftz x
  | vlog2 : VecOp1 .vlog2 fun _ md x => fLog2 md.ftz x
  | vsqrt : VecOp1 .vsqrt (fun ty md x => byType ty (fun _ => x) fun F => fSqrt F md x) 20

/-- The active lanes of a form, ascending (R333). -/
def Ctx.lanesOn (t : Ctx) (ty : VType) (pr : Option PReg) : List Nat := (List.range ty.count).filter fun i => t.active pr i

/-- The flags of the active lanes of a form together (R334). -/
def laneFlags (on : List Nat) (r : Nat → Nat × Flags) : Flags := on.foldl (fun fl i => fl ||| (r i).2) 0

/-- Flags of a result of the issuing context, which are in FFLAGS n cycles on (R85, R335). -/
def State.flagged (s : State) (fl : Flags) (n : Nat) : State := s.upd fun t => t.orFlags (s.time + s.cyc s.act n) fl

/-- A vector result: its register written, its flags raised n cycles on, and the issue ended (R334, R335). -/
def State.vectored (s : State) (d : VReg) (x : VWord) (fl : Flags) (n : Nat := 5) : State := ((s.upd fun t => t.setV d x).flagged fl n).done

/-- A reduction of the active elements of an INT type (R343). -/
inductive RedInt : (GReg → VSrc → VType → Option PReg → Instr) → (VType → List Nat → Word) → Prop where
  | vredadd : RedInt .vredadd fun ty l => BitVec.ofInt 64 (l.map (vInt ty)).sum
  | vredmin : RedInt .vredmin fun ty l => BitVec.ofInt 64 (l.foldl (fun n x => min n (vInt ty x)) (vTop ty))
  | vredmax : RedInt .vredmax fun ty l => BitVec.ofInt 64 (l.foldl (fun n x => max n (vInt ty x)) (vBottom ty))
  | vredor : RedInt .vredor fun ty l =>
      let x := l.foldl (fun n x => n ||| x) 0
      if ty.signed then sext64 x ty.width else BitVec.ofNat 64 x

/-! ## Matrix unit, engines, halyard -/

/-- No update pair of the context lies in the pages of an MXU operation (R219). -/
def State.pagesFree (s : State) (ps : MxMap) : Prop := ∀ pa ∈ ps.pas, s.mustWait s.act s.actx.val pa = false

/-- An MXU operation issued (R353, R359): its tile is empty, the context has one more outstanding, and the operation stands last in its octet. -/
def State.mxIssued (s : State) (o : MxOp) : State :=
  let s1 := s.modCore s.act fun c => { c with tiles := c.tiles.set o.z { c.tiles[o.z] with full := false } }
  let s2 := s1.upd fun t => { t with mxu := t.mxu + 1 }
  (s2.modOctet (octetOf s.act) fun y => { y with ops := y.ops ++ [o] }).postMore ⟨.mxuOperationStart, [octetOf s.act]⟩

/-- What MXST and MXLD translate and check once the SI words of the core have reached their homes (R211): 64 rows of 64 elements of n bytes at a stride, within the stack limits where the
base is g62. -/
def State.tileRows (s : State) (a : GReg) (stride : Word) (n : Nat) (wr : Bool) : Except Stop (Except Failed MxMap × State) :=
  mxRows none s.act s.me.asid s.me.priv wr true (limitsOf s.me a) (s.me.getG a) stride 64 64 n (s.siFlush s.act)

/-- What a multiply translates and checks once the SI words of the core have reached their homes (R211, R359): A is none for MXMMS. -/
def State.operands (s : State) (a : Option GReg) (b : GReg) (kc : Nat) :
    Except Stop (Except Failed (MxMap × List (Nat × Nat) × List (Nat × Nat)) × State) :=
  mulCheck none s.act s.me.asid s.me.priv true (s.home.now s.time).fmt (a.map fun r => (s.me.getG r, limitsOf s.me r)) (s.me.getG b) (limitsOf s.me b) kc (s.siFlush s.act)

/-- The magnitude of byte i of a quarter of a slab (R363). -/
def pruneMag (x : VWord) (row g i : Nat) : Nat := (asInt 8 (elem 8 x (32 * row + 8 * g + i))).natAbs

/-- The engine commands and their selectors (R373). -/
inductive EngineOp : (GReg → GSrc → BitVec 6 → EngMode → Instr) → Nat → Prop where
  | cpy : EngineOp .cpy 0
  | cpym : EngineOp .cpym 1
  | gathr : EngineOp .gathr 2
  | scatr : EngineOp .scatr 3
  | embag : EngineOp .embag 4
  | coll : EngineOp .coll 5

/-- n bytes, at least one, from an address that core k uses lie in plain scratchpad of core j from an offset on: outside every window of it, and not poisoned (R167, R187, R472). -/
def State.engAt (s : State) (k va n j off : Nat) : Prop :=
  0 < n ∧ spadAt k va = some (j, off) ∧ off + n ≤ 0x20000 ∧ (∀ (i : Fin 8) (w : Window), (s.core j).wins[i] = some w → off + n ≤ w.base ∨ w.base + w.len ≤ off) ∧
  ∀ i, i < n → (s.core j).spoison.contains ((off + i) / 4) = false

/-- A source byte of a command of core k, at an address that names an offset of core j: from the word that the command has read, else from the scratchpad (R211). -/
def State.sourceByte (s : State) (k : Nat) (c : Cmd) (va j off : Nat) : Nat := match sget (s.tag k c.tag).src (va / 4) with
  | some x => byteN x (va % 4)
  | none => ((s.core j).spad.read off).toNat

/-- Entry i of the index list of a GATHR or SCATR of core k, which lies in plain scratchpad, is the number e (R378). -/
def State.entryIs (s : State) (k : Nat) (c : Cmd) (i e : Nat) : Prop :=
  let va := (c.blk[0] + BitVec.ofNat 64 (4 * i)).toNat
  ∃ j off, s.engAt k va 4 j off ∧ e < 2 ^ 32 ∧ ∀ b, b < 4 → byteN e b = s.sourceByte k c (va + b) j (off + b)

/-- An entry of a GATHR or SCATR names elements that fit (R378). -/
def Cmd.entryFits (c : Cmd) (e : Nat) : Prop := bits e 17 8 < 192 ∧ bits e 0 17 + c.elen ≤ 0x20000

/-- The address of the element that an entry of a GATHR or SCATR names (R378). -/
def entryAddr (e : Nat) : Nat := aperBase + bits e 17 8 * 0x20000 + bits e 0 17

/-- The state t has, in the scratchpad of core j, the bytes that a function gives at n offsets from off on, and in every other place of every scratchpad what s has there. -/
def State.putsBytes (s t : State) (j off n : Nat) (f : Nat → Nat) : Prop :=
  (∀ i, i < n → ((t.core j).spad.read (off + i)).toNat = f i) ∧
  ∀ q a, (q ≠ j ∨ a < off ∨ off + n ≤ a) → (t.core q).spad.read a = (s.core q).spad.read a

/-- A unit of a command has been performed: it counts as done, and its size is off the residual (R385, R472). -/
def State.unitDone (s t : State) (k : Nat) (c : Cmd) (size : Nat) : Prop :=
  (t.tag k c.tag).done = (s.tag k c.tag).done + 1 ∧ (t.tag k c.tag).resid = (s.tag k c.tag).resid - size

/-- n bytes of an MXU operation lie in plain scratchpad of its core, and are not poisoned: none of its operands lies in a window (R359, R479). -/
def State.mxPlain (s : State) (p : MxOp) (va n : Nat) : Prop :=
  p.pages.wins = [] ∧ va + n ≤ 0x20000 ∧ ∀ i, i < n → (s.core p.core).spoison.contains ((va + i) / 4) = false

/-- n bytes of the scratchpad of the core of an MXU operation. -/
def State.mxBytes (s : State) (p : MxOp) (va n : Nat) : Nat := (s.core p.core).spad.readN va n

/-- The result of a release at a scope has been performed (R203). -/
def State.releasedAt (s : State) (sc : Scope) : State := if sc.wide then s.siFlush s.act else s

/-- The domain of a channel spans more than the core's own contexts (R388). -/
def State.levelOf (s : State) (ch : BReg) : Scope := scopeOf (s.home.chans[ch]).level

/-- The first of channels BPTR, BPTR + 1, … that a mask names and whose phase is complete for the context (R392). -/
def State.nextComplete (s : State) (x : Word) : Option Nat :=
  ((List.range 8).map fun i => (s.home.bptr.toNat + i) % 8).find? fun i => x.getLsbD i && s.home.outstanding i s.actx.val == 0

/-- A context that waits keeps its place (R393, R394). -/
def queued (ws : List Nat) (x : Nat) : List Nat := if x ∈ ws then ws else ws ++ [x]

/-- The issuing context waits with a note of what it has asked for (R34). -/
def State.waiting (s : State) (p : Progress) : State := (s.upd fun t => { t with prog := p }).holding

/-- The issue of an instruction that is no transfer reaches its end (R91): neither a wait nor a trap. -/
def State.completes (s : State) (i : Instr) : Prop := ∃ u : State, exec i s = .next u.done

/-- An issuing context that has asked for nothing. -/
def State.afresh (s : State) : Prop := s.me.prog = .none

/-! ## System -/

/-- A trap code whose address register holds an address (R447); the one of an update-region fault is its pair's, as R475 says (log entry 38). -/
def addressed (code : Nat) : Prop := (8 ≤ code ∧ code ≤ 12) ∨ code = 0x13 ∨ (0x20 ≤ code ∧ code ≤ 0x26) ∨ 0x80 ≤ code

/-- The privilege fault of the issuing instruction (R408, R449). -/
def State.denied (s : State) : State := s.trapped 0x04 (BitVec.ofNat 64 s.head) 0

/-- The register written and the issue ended. -/
def State.wrote (s : State) (d : GReg) (x : Word) : State := (s.upd fun t => t.setG d x).done

/-- The result of a CSAVE that needs no wait, for context c (R414). -/
inductive CsaveNow (s : State) (c : Nat) : Nat → Prop where
  | self (h : 11 ≤ c ∨ c = s.actx.val ∨ (s.ctx s.act (cix c)).st = .free) : CsaveNow s c 1
  | stopped (h : c < 11) (h2 : c ≠ s.actx.val) (h3 : (s.ctx s.act (cix c)).st = .stopped) : CsaveNow s c 2
  | busy (h : c < 11) (h2 : c ≠ s.actx.val) (h3 : (s.ctx s.act (cix c)).st ≠ .free) (h4 : (s.ctx s.act (cix c)).st ≠ .stopped)
      (h5 : (s.ctx s.act (cix c)).priv ≠ 0 ∨ (s.ctx s.act (cix c)).entering.isSome = true) : CsaveNow s c 3
  | retiring (h : c < 11) (h2 : c ≠ s.actx.val) (h3 : (s.ctx s.act (cix c)).st = .retiring) (h4 : (s.ctx s.act (cix c)).yields = none) (h5 : (s.ctx s.act (cix c)).priv = 0)
      (h6 : (s.ctx s.act (cix c)).entering = none) : CsaveNow s c 4

/-! ## Events -/

/-- The state after an event whose effect is t (log entry 1): one move more. -/
def State.performed (s t : State) : State := { t with moves := s.moves + 1 }

/-- The context that an event names by its first two operands. -/
def State.subject (s : State) : Ctx := s.ctx (s.arg 0) (cix (s.arg 1))
/-- That context changed. -/
def State.modSubject (s : State) (f : Ctx → Ctx) : State := s.modCtx (s.arg 0) (cix (s.arg 1)) f
/-- An event is the one due at the boundary of its context (R452). -/
def State.atBound (s : State) (k : Nat) (x : Fin 11) (row : Instr) : Prop := ∃ e, s.boundary k x = some e ∧ e.row = row

/-- A record enqueued has the CLASS of its queue and the next SEQ (R238). -/
def stamped (r : Record) (cls : Nat) (seq : Word) : Record := (r.set 4 (putBits r[4] 32 2 cls)).set 7 seq

/-- Every core of some list gains a completed phase on a channel (R60). -/
def State.phasesDone (s : State) (here : List (Nat × Nat)) (ch : Nat) : State := (here.map (·.1)).eraseDups.foldl (fun s j => s.phaseDone j ch) s

end Sys2Proof.Machine
end

