-- ==== Sys2Proof/Certificates/Slice0/Obligations.lean ====
section
/-!
DEFINITION. The statements for the provers.
-/

open Sys2Proof Sys2Proof.Machine


/-- R100 to R106, R140: decoding the encoding of a well-formed instruction gives the instruction back, whatever its operands; and what the decoder accepts is well formed, and no event. -/
def Obligations.DecodeOfEncode : Prop :=
  (∀ i : Instr, i.wf = true → i.isEvent = false → ∃ c, encode i = some c ∧ c.head < 2 ^ 16 ∧ decode c.head c.tail = .ok i) ∧
  ∀ (head tail : Nat) (i : Instr), decode head tail = .ok i → i.wf = true ∧ i.isEvent = false

/-- R211, R375 to R380, R472, R488: the units of a copy command and what each writes. CPY and CPYM: the units of the pages hold every byte of every destination row, each with its byte of the source row, and a
unit writes the bytes of its parts and no other. GATHR and SCATR move one element for each entry, and refuse an entry that is out of range; a SCATR element is the new one, word by word, but where an entry before it has also
written. EMBAG writes the pooled rows, and refuses offsets out of order. COLL reads its source, and its result reduces every arrival's element by element. Stated of units whose bytes lie in plain scratchpad. The choice
that SCATR leaves open is that of log entry 13; the state is the model's (log entry 28). -/
def Obligations.EngineUnits : Prop :=
  (∀ c : Cmd, c.sel < 2 → c.empty = false →
    (∀ r b j, r < c.rows → b ∈ c.bases → j < c.dstBytes →
      ∃ ps p, EUnit.page ps ∈ c.units ∧ p ∈ ps ∧ p.dst = addrOf ((b : Int) + (r : Int) * c.dstride) + p.j ∧ p.j ≤ j ∧ j < p.j + p.n ∧
        p.src = addrOf (c.blk[0].toNat + (r : Int) * c.sstride)) ∧
    ∀ ps p q, EUnit.page ps ∈ c.units → p ∈ ps → q ∈ ps → p.dst / 4096 = q.dst / 4096) ∧
  (∀ (s : State) (k : Nat) (c : Cmd) (ps : List CopyPart) (src dst : CopyPart → Nat × Nat), c.sel < 2 → c.conv = 0 →
    (∀ p ∈ ps, s.engAt k (BitVec.ofNat 64 (p.src + p.j)).toNat p.n (src p).1 (src p).2 ∧ s.engAt k p.dst p.n (dst p).1 (dst p).2) →
    ps.Pairwise (fun p q => (dst p).1 ≠ (dst q).1 ∨ (dst p).2 + p.n ≤ (dst q).2 ∨ (dst q).2 + q.n ≤ (dst p).2) →
    ∃ t, s.runUnit k c.tag c (.page ps) = (none, t) ∧ s.unitDone t k c (ps.map (·.n)).sum ∧ t.mem = s.mem ∧
      (∀ p ∈ ps, ∀ i, i < p.n →
        ((t.core (dst p).1).spad.read ((dst p).2 + i)).toNat = s.sourceByte k c ((BitVec.ofNat 64 (p.src + p.j)).toNat + i) (src p).1 ((src p).2 + i)) ∧
      ∀ q a, (∀ p ∈ ps, q ≠ (dst p).1 ∨ a < (dst p).2 ∨ (dst p).2 + p.n ≤ a) → (t.core q).spad.read a = (s.core q).spad.read a) ∧
  (∀ (s : State) (k : Nat) (c : Cmd) (i e : Nat), c.sel = 2 ∨ c.sel = 3 → s.entryIs k c i e →
    let near := (c.blk[1] + BitVec.ofNat 64 (i * c.elen)).toNat
    (¬ c.entryFits e → (s.runUnit k c.tag c (.entry i)).1 = some (0x23, c.sel - 2, c.blk[0] + BitVec.ofNat 64 (4 * i))) ∧
    ∀ fj fo nj no, c.entryFits e → s.engAt k (entryAddr e) c.elen fj fo → s.engAt k near c.elen nj no →
      (c.sel = 2 → ∃ t, s.runUnit k c.tag c (.entry i) = (none, t) ∧ s.unitDone t k c 1 ∧ t.mem = s.mem ∧
        s.putsBytes t nj no c.elen fun b => s.sourceByte k c (entryAddr e + b) fj (fo + b)) ∧
      (c.sel = 3 → ∀ es : Nat → Nat, (∀ m, m < i → m ∉ (s.tag k c.tag).skipped → s.entryIs k c m (es m)) →
        let shared := fun b => ∃ m, m < i ∧ m ∉ (s.tag k c.tag).skipped ∧ c.entryFits (es m) ∧ bits (es m) 17 8 = bits e 17 8 ∧
          bits (es m) 0 17 ≤ bits e 0 17 + b ∧ bits e 0 17 + b < bits (es m) 0 17 + c.elen
        ∃ t f, s.runUnit k c.tag c (.entry i) = (none, t) ∧ s.unitDone t k c 1 ∧ t.mem = s.mem ∧ s.putsBytes t fj fo c.elen f ∧
          ∃ keep : Nat → Bool, ∀ b, b < c.elen →
            (shared b ∧ keep ((fo + b) / 4) = true → f b = ((s.core fj).spad.read (fo + b)).toNat) ∧
            (¬ (shared b ∧ keep ((fo + b) / 4) = true) → f b = s.sourceByte k c (near + b) nj (no + b)))) ∧
  (∀ (s s1 : State) (k : Nat) (c : Cmd) (b o0 o1 : Nat), o0 < 2 ^ 32 → o1 < 2 ^ 32 → s.engRead k c (c.blk[3] + BitVec.ofNat 64 (4 * b)) 8 = (.ok (o0 + 2 ^ 32 * o1), s1) →
    let bagAt := c.blk[3] + BitVec.ofNat 64 (4 * b)
    (o1 < o0 ∨ o0 + 4096 < o1 → (s.runUnit k c.tag c (.bag b)).1 = some (0x24, 0, bagAt)) ∧
    ∀ rows s2 j off, o0 ≤ o1 → o1 ≤ o0 + 4096 → c.sel = 4 → State.bagRows k c bagAt (o1 - o0) o0 s1 = (.ok rows, s2) →
      s2.engAt k (c.blk[4] + BitVec.ofNat 64 (4 * c.dim * b)).toNat (4 * c.dim) j off →
      rows.length = o1 - o0 ∧ ∃ t, s.runUnit k c.tag c (.bag b) = (none, t) ∧ s2.unitDone t k c 1 ∧ t.mem = s2.mem ∧
        s2.putsBytes t j off (4 * c.dim) fun i => byteN ((c.pool rows (i / 4)).1 % 2 ^ 32) (i % 4)) ∧
  (∀ (c : Cmd) (rows : List (Nat × Nat)) (r : Nat × Nat) (e : Nat),
    (c.pool [] e).1 = 0 ∧
    (c.pool (rows ++ [r]) e).1 = (fFma .f32 ⟨.rne, false⟩ false r.1 (toF32 c.efmt (bits r.2 (8 * c.esize * e) (8 * c.esize))) (c.pool rows e).1).1) ∧
  (∀ (s : State) (k : Nat) (c : Cmd) (a : Word) (va n j off : Nat), s.engAt k va n j off → (s.engReadPiece (some 2) k c (some a) va n).1 = .error (0x24, 0, a)) ∧
  (∀ (s : State) (k : Nat) (c : Cmd) (sj so dj dof : Nat), c.sel = 5 → s.engAt k c.blk[0].toNat c.cbytes sj so → s.engAt k c.blk[1].toNat c.cbytes dj dof →
    ∃ t x, s.runUnit k c.tag c .message = (none, t) ∧ s.unitDone t k c 0 ∧ t.mem = s.mem ∧ (∀ q a, (t.core q).spad.read a = (s.core q).spad.read a) ∧
      kept (t.tag k c.tag).src c.blk[0].toNat c.cbytes = some x ∧ ∀ b, b < c.cbytes → byteN x b = s.sourceByte k c (c.blk[0].toNat + b) sj (so + b)) ∧
  (∀ (s : State) (k : Nat) (c : Cmd) (va n j off x : Nat), s.engAt k va n j off → s.putsBytes (State.engWrites k c (linePieces va n) x s) j off n (byteN x)) ∧
  (∀ (s : State) (ch : Nat) (here : List (Nat × Nat)) (cs : List (Nat × Nat × Cmd)) (fs : List (Nat × Nat × List Nat)), s.collStop cs = none →
    let read := fun (c : Nat × Nat × Cmd) => kept (s.tag c.1 c.2.1).src c.2.2.blk[0].toNat c.2.2.cbytes
    let srcs := (cs.filterMap fun c => (read c).map (dwords c.2.2.cbytes)) ++ fs.map (·.2.2)
    let u := (cs.filter fun c => (read c).isSome).foldl
      (fun u c => State.engWrites c.1 c.2.2 (linePieces c.2.2.blk[1].toNat c.2.2.cbytes) (collResult c.2.2.cop c.2.2.cbytes srcs) u) s
    s.collFinish ch here cs fs = (cs.foldl (fun u c => u.visFire c.1 c.2.1) u).phasesDone here ch) ∧
  ∀ (bytes i : Nat) (srcs : List (List Nat)), 8 * i < bytes → bytes % 8 = 0 → srcs ≠ [] → (∀ ws ∈ srcs, ∀ x ∈ ws, x < 2 ^ 64) →
    let xs := srcs.map fun ws => ws.getD i 0
    let r := fun op => bits (collResult op bytes srcs) (64 * i) 64
    r 1 = xs.sum % 2 ^ 64 ∧ (r 4 ∈ xs ∧ ∀ x ∈ xs, sextN (r 4) 64 ≤ sextN x 64) ∧ (r 5 ∈ xs ∧ ∀ x ∈ xs, sextN x 64 ≤ sextN (r 5) 64) ∧
    ∀ op h, op = 0 ∨ op = 2 ∨ op = 3 → h < 2 →
      bits (collResult op bytes srcs) (64 * i + 32 * h) 32 = collElem (collOp op).1 .f32 (srcs.map fun ws => bits (ws.getD i 0) (32 * h) 32) % 2 ^ 32

/-- The worked encodings of the spec decode to the instructions they are given for (R105, R110, R111, R137, R282, R284, R293, R295, R331, R360, R362, R365). -/
def Obligations.DecodeWords : Prop :=
  decode 0x4405 0x0618 = .ok (.add 5 ⟨3, false⟩ ⟨6, false⟩) ∧
  decode 0x820A 0x0A1C7FFF = .ok (.bcc ⟨5, false⟩ ⟨7, false⟩ .ne .notTaken 3 0x1FFF) ∧
  decode 0x8C03 0x08200010 = .ok (.ld 3 ⟨4, false⟩ .w false false 16) ∧
  decode 0x8C83 0x0814001B = .ok (.ldx 3 ⟨4, false⟩ ⟨5, false⟩ 3 .d false false) ∧
  decode 0x8E83 0x08143002 = .ok (.wmap 3 ⟨4, false⟩ ⟨5, false⟩ ⟨6, false⟩ 2) ∧
  decode 0x8EC0 0x08140001 = .ok (.upd ⟨4, false⟩ ⟨5, false⟩ .i64) ∧
  decode 0x5207 0x0504 = .ok (.mtog 7 (.m 2) 1) ∧
  decode 0x9641 0x040E0042 = .ok (.vfma 1 ⟨2, false⟩ ⟨3, false⟩ .f32 (some 2)) ∧
  decode 0x9C41 0x08140001 = .ok (.mxmm 1 ⟨4, false⟩ ⟨5, false⟩ 1) ∧
  decode 0xDC80 0x081430700010 = .ok (.mxmms 0 ⟨4, false⟩ ⟨5, false⟩ ⟨6, false⟩ ⟨7, false⟩ 2) ∧
  decode 0x9E82 0x0E000200 = .ok (.barrd 2 ⟨7, false⟩) ∧
  decode 0x4C40 0 = .error .tailLength

/-- Whatever the state, a step answers a next state: every failure that the spec describes is a trap, a machine check, a status or poison. Every event answers a next state, whatever the
state. Under the conditions of their rules the forms that act on windows (R293), fibres (R327, R328), copy tags (R372 to R387), channels (R389), mutexes, semaphores and queues (R394, R395),
packets and slices (R396 to R398), worklists (R402), and the system forms (R408 to R416) reach the end of their issue; what they leave there, the statement of each family says.
Events are performed whatever the state: log entry 11. QCFG.SET takes no notice of the bits that R395 says are 0: log entry 16. SJOIN on a block in the scratchpad: log entry 32. -/
def Obligations.StepGoesOn : Prop :=
  (∀ s : State, GoesOn s) ∧
  (∀ (i : Instr) (s : State), i.isEvent = true → ∃ t, exec i s = .next t) ∧
  ∀ (s : State) (d e : GReg) (a b c : GSrc) (w : BitVec 3) (q : BitVec 4) (ch : BReg) (tag : BitVec 6) (vis : Bool) (md : EngMode) (cr : CReg),
    s.plain [.g d, .g e, .g a.r, .g b.r, .g c.r] = true → (∀ v, s.me.stackBad d v = false) → (∀ v, s.me.stackBad e v = false) → d ≠ e →
    let x := s.me.getG a.r
    let y := s.me.getG b.r
    let free := fun (va n : Nat) => s.home.lockedOver s.act va n = false
    let freeWin := ∀ o, s.home.wins[Fin.ofNat 8 w.toNat] = some o → free o.base o.len ∧ free o.va o.len
    let quiet := s.me.ldnm = false ∧ s.pairsOut s.act s.actx.val = false
    let block := fun n => s.inSpad x n ∧ x.toNat % n = 0 ∧ s.me.stackFits (a.r == 62) x n
    let q16 : Fin 16 := Fin.ofNat 16 q.toNat
    let compute := isMiz s.act = false
    (free x.toNat (s.me.getG c.r).toNat → free y.toNat (s.me.getG c.r).toNat → s.completes (.wmap d a b c w)) ∧
    s.completes (.wflush w) ∧ (freeWin → s.completes (.wunmap w)) ∧ (freeWin → s.home.winBusy (Fin.ofNat 8 w.toNat) s.time = false → s.completes (.winv w)) ∧
    (∀ (f g : GReg) (i j : Fin 8), s.me.slotG f = some i → s.me.slotG g = some j → s.me.slots[i].inFibre = true → s.me.slots[j].inFibre = true →
      ((s.me.slots[i].left = 0 ∨ s.me.slots[j].left = 0) → s.completes (.sisect d f g 0)) ∧
      ∀ (h : GReg) (k : Fin 8), s.me.slotG h = some k → s.me.slots[k].out = true →
        ((s.me.slots[i].left = 0 ∨ s.me.slots[j].left = 0) → s.completes (.sisect d f g h)) ∧
        (s.me.slots[k].fibre = true → (s.me.slots[k].left = 0 ∨ (s.me.slots[i].left = 0 ∧ s.me.slots[j].left = 0)) → s.completes (.smerge h f g))) ∧
    (block 64 → ∀ op sel, EngineOp op sel →
      let r : Cmd := ⟨sel, s.actx.val, s.me.asid, s.me.priv, recordOf (s.spadRead x 64), md, tag.toNat⟩
      ∀ n : Nat × List (Nat × Nat), State.bagIndices (s.busyFor (s.latencyOf s.act 0 (s.spadPlaces x 64))) none s.act r = .ok n →
      (s.tag s.act tag.toNat).st = .idle → r.ok (logical s.act) n.1 = true → s.canStart s.act s.actx.val r (r.srcExt n.1) (r.dstExt (logical s.act)) = true → s.completes (op d a tag md)) ∧
    ((s.tag s.act tag.toNat).st ≠ .busy → ((s.tag s.act tag.toNat).st = .srcDone → vis = false) → s.completes (.cpywait d tag vis)) ∧ s.completes (.cpyst d tag) ∧
    (1 ≤ s.me.priv → ((s.tag s.act tag.toNat).st = .stopped → (s.tag s.act tag.toNat).cmd ≠ none) → s.completes (.cpyres d tag)) ∧
    (s.home.outstanding ch.val s.actx.val < 2 → quiet → s.completes (.barr ch) ∧ s.completes (.barrd ch a)) ∧
    (s.home.outstanding ch.val s.actx.val = 0 → s.completes (.bwait ch)) ∧
    ((x.toNat % 256 = 0 ∨ s.nextComplete x ≠ none) → s.completes (.bwany d a)) ∧
    (1 ≤ s.me.priv → block 32 → domainOk (BitVec.ofNat 64 (s.spadRead x 8)) (s.spadRead (x + 8) 24) = true → s.completes (.bdom ch a)) ∧
    ((s.home.mtx[Fin.ofNat 8 w.toNat]).owner = none → (s.home.mtx[Fin.ofNat 8 w.toNat]).waiters = [] → s.completes (.mtxlk w)) ∧ s.completes (.mtxul w) ∧
    ((s.home.sem[Fin.ofNat 8 w.toNat]).count ≠ 0 → (s.home.sem[Fin.ofNat 8 w.toNat]).waiters = [] → s.completes (.semp w)) ∧ s.completes (.semv w) ∧
    s.completes (.qcfgSet a q) ∧
    ((s.home.qs[q16].kind = 1 ∨ s.home.qs[q16].kind = 2) → s.home.qs[q16].writer = s.actx.val → s.home.qs[q16].ents.length < 8 → s.completes (.qcfgPut a q)) ∧
    ((s.home.qs[q16].kind = 1 ∨ s.home.qs[q16].kind = 3) → s.home.qs[q16].reader = s.actx.val → s.home.qs[q16].ents ≠ [] → s.completes (.qcfgGet d q)) ∧
    (s.me.sendopen = false → s.niBusy s.act s.actx = false → s.completes (.send a b) ∧ s.completes (.sendE a b)) ∧
    (block 64 → quiet → s.completes (.slice d a b)) ∧ (s.inSpad x 8 → x.toNat % 128 = 0 → s.me.stackFits (a.r == 62) x 8 → quiet → s.completes (.sjoin d a)) ∧
    (s.actx = 0 → s.me.sendopen = false → ∃ u : State, exec (.yields a b) s = .next u.ended ∧ u.me.st = .retiring ∧ u.me.yields = some (x, y)) ∧
    (s.me.prog = .done → s.completes (.wlapp a b) ∧ s.completes (.wlquiet ch)) ∧ (∀ v l, s.me.prog = .answer 0 v l → s.completes (.wlpop d a e vis)) ∧
    (compute → s.me.priv = 0 → ∀ n : BitVec 20, ∃ u : State, exec (.trap n) s = .next (u.done.takeTrap u.act u.actx ⟨0x01, BitVec.ofNat 64 n.toNat, 0, false⟩)) ∧
    (compute → 1 ≤ s.me.priv → s.me.ppriv ≤ s.me.priv → s.me.drained = true → ∃ u : State, exec .eret s = .next u.ended) ∧
    (compute → s.me.uiact = true → ∃ u : State, exec .uiret s = .next u.ended) ∧
    (cregLevel cr ≤ s.me.priv → s.completes (.mfcr d cr)) ∧
    (cregLevel cr ≤ s.me.priv → cr.writable = true → refuses (cregFields cr) (s.cregGet s.act s.actx cr) x s.me.priv = false → cr ≠ .status → cr ≠ .csap → s.completes (.mtcr a cr)) ∧
    (1 ≤ s.me.priv → quiet → (∀ f, (s.siFlush s.act).keepsPage f = false) → s.completes (.tlbinvPage d a) ∧ s.completes (.tlbinvAsid d) ∧ s.completes .tlbinvAll) ∧
    (compute → 1 ≤ s.me.priv → (s.afresh → (∃ n, CsaveNow s (x.toNat % 16) n) → s.completes (.csave d a)) ∧ (s.me.prog = .done → s.completes (.crstr d a))) ∧
    (2 ≤ s.me.priv → ∀ v, s.me.prog = .bistDone v → s.completes (.bist d a)) ∧
    (compute → s.me.prog = .done → s.completes .wfi)

/-- R162, R163, R353, R357 to R365, R369, R479, R481, R482: what an MXU operation gives: MXZERO zeros; MXMM and MXMMS each element with every chunk of its row and column added; MXLD the words of memory, and MXST those
words written, converted; a poisoned operand a tile of NaN or zeros; the elements of dense operands and of BC8 blocks; the integer sum of a chunk, modulo 2^32; and the completion of an operation, which fills the tile, raises the
flags, and makes poison pending. Memory operands are stated where they lie in plain scratchpad. One move an event: log entry 1; what becomes of the poison of a tile: log entry 54. -/
def Obligations.MxuResult : Prop :=
  (∀ (s : State) (p : MxOp) (rows : Vector TRow 64),
    let int := accInt p.fmt
    let el := fun (z : Vector TRow 64) (i j : Nat) => rowElem z[Fin.ofNat 64 i] j
    let nan := if int then 0 else 0x7FC00000
    (p.kind = .zero → s.mxRun p rows = ((Tile.fill 0, 0, none), s)) ∧
    (∀ i j x, i < 64 → j < 64 → x < 2 ^ 32 → el (Tile.fill x) i j = x) ∧
    (∀ a f1 b1 s1 b f2 b2 s2, p.kind = .mm → s.mxA p = ((a, f1, b1), s1) → s1.mxB p p.k = ((b, f2, b2), s2) →
      let r := fun i j => accAll int (a.getD i []) (b.getD j []) (el rows i j)
      (∀ q, (b1.orElse fun _ => b2) = some q → s.mxRun p rows = ((Tile.fill nan, f1 ||| f2, some q), s2)) ∧
      (b1 = none → b2 = none → ∃ z fl, s.mxRun p rows = ((z, fl, none), s2) ∧ (∀ i j, i < 64 → j < 64 → el z i j = (r i j).1 % 2 ^ 32) ∧
        ∀ n, fl.getLsbD n = true ↔ f1.getLsbD n = true ∨ f2.getLsbD n = true ∨ ∃ i j, i < 64 ∧ j < 64 ∧ (r i j).2.getLsbD n = true)) ∧
    (∀ b f2 b2 s1, p.kind = .mms → p.k < 4 → s.mxB p 1 = ((b, f2, b2), s1) →
      let r := fun i j => accAll int [slabRow p (i - 16 * p.k)] (b.getD j []) (el rows i j)
      (∀ q, b2 = some q → s.mxRun p rows = ((Tile.fill nan, f2, some q), s1)) ∧
      (b2 = none → ∃ z fl, s.mxRun p rows = ((z, fl, none), s1) ∧
        (∀ i j, i < 64 → j < 64 → el z i j = if 16 * p.k ≤ i ∧ i < 16 * p.k + 16 then (r i j).1 % 2 ^ 32 else el rows i j) ∧
        ∀ n, fl.getLsbD n = true ↔ f2.getLsbD n = true ∨ ∃ i j, 16 * p.k ≤ i ∧ i < 16 * p.k + 16 ∧ j < 64 ∧ (r i j).2.getLsbD n = true)) ∧
    (∀ r k, r < 16 → k < 32 →
      let idx := fun q => keptIndex p.vc r (k / 8) q
      (∀ q, q < 4 → idx q = k % 8 → (∀ q2, q2 < q → idx q2 ≠ k % 8) →
        (slabRow p r)[k]? = some (fmtValue (aFmt p.fmt) (bits (if r < 8 then p.va else p.vb).toNat (8 * (16 * (r % 8) + 4 * (k / 8) + q)) 8))) ∧
      ((∀ q, q < 4 → idx q ≠ k % 8) → (slabRow p r)[k]? = some (.fin false 0 0))) ∧
    (p.kind = .ld → (∀ i j, i < 64 → j < 64 → s.mxPlain p (elemAt p.a p.b i (4 * j)) 4) →
      ∃ z, s.mxRun p rows = ((z, 0, none), s) ∧ ∀ i j, i < 64 → j < 64 → el z i j = s.mxBytes p (elemAt p.a p.b i (4 * j)) 4) ∧
    (p.kind = .st →
      let n := p.ty.width / 8
      let at_ := fun i j => elemAt p.a p.b i (j * n)
      (∀ i j, i < 64 → j < 64 → s.mxPlain p (at_ i j) n) →
      (∀ i j i2 j2, i < 64 → j < 64 → i2 < 64 → j2 < 64 → (i, j) ≠ (i2, j2) → at_ i j + n ≤ at_ i2 j2 ∨ at_ i2 j2 + n ≤ at_ i j) →
      ∃ fl t, s.mxRun p rows = ((rows, fl, none), t) ∧ t.mem = s.mem ∧
        (∀ i j, i < 64 → j < 64 → (t.core p.core).spad.readN (at_ i j) n =
          (cvtElem (if int then .i32 else .f32) p.ty (Rm.ofCode (fld p.fmode 0 2)) p.sat (el rows i j)).1 % 2 ^ (8 * n)) ∧
        ∀ q a, (q ≠ p.core ∨ ∀ i j, i < 64 → j < 64 → a < at_ i j ∨ at_ i j + n ≤ a) → (t.core q).spad.read a = (s.core q).spad.read a) ∧
    (aFmt p.fmt ≠ 3 →
      let n := fmtBytes (aFmt p.fmt)
      let at_ := fun i c e => elemAt p.a p.fmt[1] i ((32 * c + e) * n)
      (∀ i c e, i < 64 → c < p.k → e < 32 → s.mxPlain p (at_ i c e) n) →
      ∃ a, s.mxA p = ((a, 0, none), s) ∧ ∀ i c e, i < 64 → c < p.k → e < 32 → (((a.getD i []).getD c [])[e]?) = some (fmtValue (aFmt p.fmt) (s.mxBytes p (at_ i c e) n))) ∧
    (bFmt p.fmt ≠ 3 → ∀ kc,
      let n := fmtBytes (bFmt p.fmt)
      let at_ := fun k j => elemAt p.b p.fmt[2] k (j * n)
      (∀ k j, k < 32 * kc → j < 64 → s.mxPlain p (at_ k j) n) →
      ∃ b, s.mxB p kc = ((b, 0, none), s) ∧
        ∀ j c e, j < 64 → c < kc → e < 32 → (((b.getD j []).getD c [])[e]?) = some (fmtValue (bFmt p.fmt) (s.mxBytes p (at_ (32 * c + e) j) n))) ∧
    (∀ b : Nat × Nat,
      (b.2 < 6 ∨ 14 < b.2 → State.mxBlocks p [b] s = (([List.replicate 32 (.nan false)], fNV, none), s)) ∧
      ∀ vs, 6 ≤ b.2 → b.2 ≤ 14 → (∀ i, i < b.2 → s.mxPlain p (b.1 + 4 * i) 4) → bcDecode (s.mxBytes p b.1 (4 * b.2)) b.2 = .ok vs →
        State.mxBlocks p [b] s = (([vs], 0, none), s))) ∧
  (∀ (xs ys : List Int) (z : Nat), xs.length = ys.length → (∀ x ∈ xs, -128 ≤ x ∧ x < 128) → (∀ y ∈ ys, -128 ≤ y ∧ y < 128) →
    let fv := fun (x : Int) => FV.fin (decide (x < 0)) x.natAbs 0
    let t := asInt 32 z + ((xs.zip ys).map fun e => e.1 * e.2).sum
    accChunk true z (xs.map fv) (ys.map fv) = ((t % 2 ^ 32).toNat, if t < -(2 ^ 31) ∨ 2 ^ 31 ≤ t then fMXOV else 0)) ∧
  (∀ fl : Flags, bits (remoteWord 0 fl) 0 8 = 0 ∧ ∀ i j, (i, j) ∈ [(8, 0), (9, 1), (10, 2), (11, 4), (12, 6)] → (remoteWord 0 fl).testBit i = fl.getLsbD j) ∧
  (∀ (s : State) (k : Nat) (r : Remote) (p : MxOp) (z : Vector TRow 64) (f1 : Flags) (bad : Option Nat) (u : State), s.mxRun p (Tile.fill 0) = ((z, f1, bad), u) →
    let v := u.modOctet k fun y => { y with gtile := ⟨z, true⟩ }
    (bad ≠ none → s.guestRun k r p = v.remoteFill r 4) ∧
    ∀ z2 f2 b2 w, bad = none → v.mxRun (r.storeOp p.pages) z = ((z2, f2, b2), w) → s.guestRun k r p = w.remoteFill r (remoteWord 0 (f1 ||| f2))) ∧
  ∀ (s u : State) (p : MxOp) (z : Vector TRow 64) (fl : Flags) (bad : Option Nat), (s.octet (s.arg 0)).running = some p → p.ctx ≠ 11 →
    State.mxRun (s.modOctet (s.arg 0) fun y => { y with running := none, pins := [] }) p (s.core p.core).tiles[p.z].rows = ((z, fl, bad), u) →
    (u.ctx p.core (cix p.ctx)).entering = none →
    let whole := p.kind = .zero ∨ p.kind = .ld
    let poison := if bad.isSome = true ∨ whole then bad else if (u.core p.core).tbad.getLsbD p.z.val = true then some 0 else none
    let v := u.modCore p.core fun c => { c with tiles := c.tiles.set p.z ⟨z, true⟩, tbad := if whole then setBit c.tbad p.z.val false else c.tbad }
    let w := v.modCtx p.core (cix p.ctx) fun t => { t.orFlags u.time fl with
      mxu := t.mxu - 1
      poisonQ := t.poisonQ ++ poison.toList.map fun a => (BitVec.ofNat 64 (7 + Ref.code (.z p.z) + 4096), BitVec.ofNat 64 a) }
    exec .mxuOperationComplete s = .next (s.performed (w.mxNext (s.arg 0)))

/-- Log entry 2: every step keeps memory and every scratchpad in canonical form, from whatever state that has it. -/
def Obligations.CanonicalKept : Prop :=
  ∀ s t : State, Canonical s → step s = .next t → Canonical t

/-- R18, R21, R91, R141: when it is core k's move in the part of the cycle in which cores issue, the core may issue in this cycle, no event stands at an instruction boundary of it, the selector
chooses context x, the context is not annulled, the page of PC needs no walk, and the bytes of the line at PC, which is there, decode to an instruction for which nothing is awaited, the step is
exec of that instruction, with the times of its results noted. Turns and the parts of a cycle: log entry 1. -/
def Obligations.StepRunsDecoded : Prop :=
  ∀ (s s1 : State) (k : Nat) (x : Fin 11) (rest : List Turn) (img h : Nat) (i : Instr),
    let u : State := { s with turns := rest, phase := 4 }
    s.turns = .issue k :: rest → s.phase ≤ 4 → s.cursor ≤ k → s.mayIssue k = true →
    u.runs k = true → u.boundaryOf k = none → (s.core k).select s.time s.moves = some x →
    (s.ctx k x).apc = false → s.fetchWalk k x = none →
    State.fetchLine { u with act := k, actx := x } k x (s.ctx k x).pc.toNat = (.ok img, s1) → (s1.ctx k x).wake ≤ s1.time →
    lineLast img = .ok h → (s.ctx k x).pc.toNat % 2 = 0 → (s.ctx k x).pc.toNat % 64 / 2 ≤ h →
    (isMiz k = true → mizOp (bits (lineHead img ((s.ctx k x).pc.toNat % 64 / 2)) 6 7) = true) →
    decode (lineHead img ((s.ctx k x).pc.toNat % 64 / 2)) (lineTail img ((s.ctx k x).pc.toNat % 64 / 2)) = .ok i →
    State.tooEarly { s1 with head := lineHead img ((s.ctx k x).pc.toNat % 64 / 2) } i = false →
    step s = timedOutcome { s1 with head := lineHead img ((s.ctx k x).pc.toNat % 64 / 2) } i (exec i { s1 with head := lineHead img ((s.ctx k x).pc.toNat % 64 / 2) })

/-- R91: PC takes N1, N1 takes N2, N2 takes the target of a taken transfer (modulo 2^48) or next_head(N2), APC takes AN1 or k, AN1 takes k.
R89, R91: an annulled instruction ends with the same step and with no other effect: what stands at PC is not even fetched.
R88: next_head of a head is the next halfword, or head 0 of the next line where the head has L = 1. Where N2 cannot be fetched: log entry 15. -/
def Obligations.FinishAdvances : Prop :=
  (∀ (s : State) (f : Flow),
     let t := (s.finish f).ctx s.act s.actx
     t.pc = s.me.n1 ∧ t.n1 = s.me.n2 ∧ t.apc = (s.me.an1 || f.k) ∧ t.an1 = f.k ∧
     t.n2 = if f.taken then (f.target.setWidth 48).setWidth 64 else BitVec.ofNat 64 (s.nextHead s.act s.actx s.me.n2.toNat).1) ∧
  (∀ (s : State) (k : Nat) (x : Fin 11), (s.ctx k x).apc = true → issueAt s k x = .next (State.finish { s with act := k, actx := x } Flow.seq)) ∧
  (∀ (s : State) (k : Nat) (x : Fin 11) (a img h : Nat), (s.fetchLine k x a).1 = .ok img → lineLast img = .ok h → a % 2 = 0 → a % 64 / 2 ≤ h → a + 64 < 2 ^ 48 →
     (s.nextHead k x a).1 = if lineL img (a % 64 / 2) then a / 64 * 64 + 64 else a + 2)

/-- R91: the end of an issue changes no register of any context but PC, N1, N2 and ANUL of the issuing one, and nothing that the instructions of a core share.
Where the line of N2 and its translation are held, the end of an issue changes no byte of memory, no copy, no translation and no other unit. -/
def Obligations.FinishKeeps : Prop :=
  (∀ (s : State) (f : Flow), (∀ k x, ((s.finish f).ctx k x).sameRegs (s.ctx k x)) ∧ (∀ k, ((s.finish f).core k).sameUnits (s.core k)) ∧
     (∀ k x, (k ≠ s.act ∨ x ≠ s.actx) → (s.finish f).ctx k x = s.ctx k x) ∧ (s.finish f).time = s.time ∧ ∃ es, (s.finish f).pendingEv = s.pendingEv ++ es) ∧
  (∀ (s : State) (f : Flow), s.warm →
     (s.finish f).mem = s.mem ∧ (s.finish f).poison = s.poison ∧ (s.finish f).fempty = s.fempty ∧ (s.finish f).bins = s.bins ∧ (s.finish f).regions = s.regions ∧
     (s.finish f).clusters = s.clusters ∧ (s.finish f).octets = s.octets ∧ (s.finish f).dies = s.dies ∧ (s.finish f).pendingEv = s.pendingEv ∧
     ∀ k, ((s.finish f).core k).l1 = (s.core k).l1 ∧ ((s.finish f).core k).wins = (s.core k).wins ∧ ((s.finish f).core k).tlb = (s.core k).tlb)

/-- R67, R261, R272 to R278: with its registers full and none of them in stream mode, a scalar integer form writes its result and completes; a write of g0 is discarded. -/
def Obligations.ScalarResult : Prop :=
  ∀ (i : Instr) (d : GReg) (os : List Opnd) (f : Ctx → Word) (s : State), ScalarOp i d os f → s.plain (.g d :: refs os) = true → s.me.stackBad d (f s.me) = false →
    exec i s = .next (s.upd fun t => t.setG d (f t)).done

/-- R71, R72: an empty register that is written, or read with T = 0, holds the context, and the instruction has no effect.
R71, R450: where the empty operands are all read with T = 1, the one of the lowest field raises an empty-operand trap from the state before the instruction; R323: the refill of a stream
that is empty there starts again.
R76: a write of g62 outside [SSL, SSB] is the stack fault, and the instruction has no effect. Which of several empty operands traps is log entry 14, the address of the stack fault log entry 32. -/
def Obligations.EmptyOperandsAndStack : Prop :=
  (∀ (i : Instr) (d : GReg) (os : List Opnd) (f : Ctx → Word) (s : State), ScalarOp i d os f → (∀ o ∈ os ++ [dG d], s.me.slotOf o.ref = none) →
     (∃ o ∈ os ++ [dG d], s.empty o = true ∧ o.t = false) → exec i s = .next s.holding) ∧
  (∀ (i : Instr) (d : GReg) (os : List Opnd) (f : Ctx → Word) (s : State) (o : Opnd), ScalarOp i d os f →
     (∀ p ∈ os ++ [dG d], s.empty p = true → p.t = true ∧ o.field ≤ p.field) → o ∈ os ++ [dG d] → s.empty o = true →
     exec i s = .next (State.trapped (match s.me.slotOf o.ref with
       | some j => s.askRefill j
       | none => s) 0x10 (w64 (o.field + o.ref.code)) 0)) ∧
  (∀ (i : Instr) (os : List Opnd) (f : Ctx → Word) (s : State), ScalarOp i 62 os f → s.plain (.g 62 :: refs os) = true →
     ((f s.me).toNat < s.me.ssl.toNat ∨ s.me.ssb.toNat < (f s.me).toNat) → exec i s = .next (s.trapped 0x0B (memDetail 1 0 0 0) (f s.me)))

/-- R312, R314, R303: a mask form writes its mask; bits COUNT and up are clear while the context is bound.
R313, R314: MPOPC, MFIRST, MTEST and MTOG write a number of a mask; MFROMG replaces a quarter of one. -/
def Obligations.MaskResult : Prop :=
  (∀ (i : Instr) (ms : List MOpd) (d : MOpd) (f : Ctx → Mask) (s : State), MaskOp i ms d f → s.masksFree ms →
     exec i s = .next (s.upd fun t => t.putM d (t.bounded (f t))).done) ∧
  ((∀ (op : GReg → MOpd → Instr) (f : Mask → Word) (d : GReg) (a : MOpd) (s : State), MaskNum op f → s.masksFree [a] → s.plain [.g d] = true →
     s.me.stackBad d (f (s.me.getM a)) = false → exec (op d a) s = .next (s.upd fun t => t.setG d (f (t.getM a))).done) ∧
   ∀ (d : MOpd) (a : GSrc) (q : Fin 4) (s : State), s.masksFree [d] → s.plain [.g a.r] = true →
     ∃ x : Mask, (∀ b : Nat, b < 256 → x.getLsbD b = if b / 64 = q.val then (s.me.getG a.r).getLsbD (b % 64) else (s.me.getM d).getLsbD b) ∧
       exec (.mfromg d a q) s = .next (s.upd fun t => t.putM d (t.bounded x)).done)

/-- R263, R89, R110: B.cc is taken where its condition holds, to its line-relative target, and annuls its slots as its suffix says; it writes no register.
R264, R265, R90: the unconditional transfers; CALL and CALLR write next_head(N2) to g63, and CALLR takes its target before that. -/
def Obligations.TransferResult : Prop :=
  (∀ (s : State) (a b : GSrc) (cc : Cond) (an : Annul) (hidx : BitVec 5) (loff : BitVec 13), s.plain [.g a.r, .g b.r] = true →
     exec (.bcc a b cc an hidx loff) s = .next (s.finish
       ⟨condTrue cc (s.me.getG a.r) (s.me.getG b.r), lineAt s.me.pc (loff.signExtend 64) (hidx.setWidth 64),
        match an with
        | .none => false
        | .notTaken => !condTrue cc (s.me.getG a.r) (s.me.getG b.r)
        | .taken => condTrue cc (s.me.getG a.r) (s.me.getG b.r)⟩)) ∧
  (∀ s : State,
     (∀ imm : BitVec 32, exec (.j imm) s = .next (s.finish ⟨true, lineAt s.me.pc ((imm.setWidth 27).signExtend 64) ((imm.extractLsb' 27 5).setWidth 64), false⟩)) ∧
     (∀ a : GSrc, s.plain [.g a.r] = true → exec (.jr a) s = .next (s.finish ⟨true, s.me.getG a.r, false⟩)) ∧
     (s.plain [.g 63] = true → exec .ret s = .next (s.finish ⟨true, s.me.getG 63, false⟩)) ∧
     let link := s.nextHead s.act s.actx s.me.n2.toNat
     let linked := link.2.upd fun t => t.setG 63 (BitVec.ofNat 64 link.1)
     (∀ imm : BitVec 32, s.plain [.g 63] = true →
       exec (.call imm) s = .next (linked.finish ⟨true, lineAt s.me.pc ((imm.setWidth 27).signExtend 64) ((imm.extractLsb' 27 5).setWidth 64), false⟩)) ∧
     ∀ a : GSrc, s.plain [.g a.r, .g 63] = true → exec (.callr a) s = .next (linked.finish ⟨true, s.me.getG a.r, false⟩))

/-- R267, R271: NOP has no effect; YLD resets the age stamp of its context to TIME; WAITF is a NOP once every g and v register is full, and until then the context waits.
R268, R38, R39: RETIRE makes its context Retiring; the end of a helper follows as HELPER_RETIRE_COMPLETE, and that of a slice as SLICE_END. With a SEND packet open it is illegal. -/
def Obligations.WaitAndRetire : Prop :=
  (∀ s : State, exec .nop s = .next s.done ∧ exec .yld s = .next (s.upd fun t => { t with age := s.time }).done ∧
     ((∀ r : GReg, isEmptyRef s.home s.me (.g r) = false) → (∀ r : VReg, isEmptyRef s.home s.me (.v r) = false) → exec .waitf s = .next s.done) ∧
     ((∃ r : GReg, isEmptyRef s.home s.me (.g r) = true) → exec .waitf s = .next s.holding) ∧
     ((∃ r : VReg, isEmptyRef s.home s.me (.v r) = true) → exec .waitf s = .next s.holding)) ∧
  (∀ s : State, s.me.ldnm = false →
     (s.me.sendopen = true → exec .retire s = .next (s.trapped 0x02 (s.detail6 2) 0)) ∧
     (s.me.sendopen = false → s.actx ≠ 0 →
       exec .retire s = .next ((s.upd fun t => { t with st := .retiring }).postMore ⟨.helperRetireComplete, [s.act, s.actx.val]⟩).ended) ∧
     (s.me.sendopen = false → s.actx = 0 →
       exec .retire s = .next (((s.upd fun t => { t with st := .retiring }).modCore s.act fun c => { c with slice := c.slice.map fun sl => { sl with retired := true } }).postMore
         ⟨.sliceEnd, [s.act]⟩).ended))

/-- R36, R52: a context that START or SPLIT starts has g1 to g15, v0 to v3 and FMODE of its parent, the m0 it is given, its own stack bounds with g62 at SSB, its parent's ASID and level, and every
register full; it enters Starting at its target, and its first issue comes six cycles on. That it keeps its own UIVEC, and that UIEN is 0: log entry 38.
R269, R36: START starts the lowest Free helper at its target and writes its number, or writes all ones where none is Free or a continuation record is pending. -/
def Obligations.StartResult : Prop :=
  (∀ (s : State) (k : Nat) (p : Ctx) (y : Fin 11) (target : Word) (m0 : Mask) (bound : Bool),
     let c := (s.startFor k p y target m0 bound).ctx k y
     c.st = .starting ∧ c.pc = (target.setWidth 48).setWidth 64 ∧ (∀ i : Fin 15, c.g[i.val + 1] = p.g[i.val + 1]) ∧ (∀ i : Fin 4, c.v[i.val] = p.v[i.val]) ∧ c.fmode = p.fmode ∧
     c.m[0] = m0 ∧ (c.qgd = if bound then p.qgd else 0) ∧ c.g[62] = (s.ctx k y).ssb ∧ c.ssb = (s.ctx k y).ssb ∧ c.ssl = (s.ctx k y).ssl ∧ c.uivec = (s.ctx k y).uivec ∧
     c.asid = p.asid ∧ c.priv = p.priv ∧ c.uien = false ∧ c.gf = BitVec.allOnes 64 ∧ c.vf = BitVec.allOnes 16 ∧ c.fflags = 0 ∧ c.apc = false ∧ c.an1 = false ∧
     (∃ es, (s.startFor k p y target m0 bound).pendingEv = s.pendingEv ++ es ++ [(s.time + s.cyc k 6, ⟨.contextStartingEnd, [k, y.val]⟩)]) ∧
     ∀ x : Fin 11, x ≠ y → ((s.startFor k p y target m0 bound).ctx k x).sameRegs (s.ctx k x)) ∧
  (∀ (s : State) (d : GReg) (a : GSrc) (imm : BitVec 20), s.me.ldnm = false → s.me.passes → s.plain [.g a.r, .g d] = true → s.me.st ≠ .free →
     let target := if a.r = 0 then lineAt s.me.pc ((imm.setWidth 15).signExtend 64) ((imm.extractLsb' 15 5).setWidth 64)
       else ((s.me.getG a.r + imm.signExtend 64).setWidth 48).setWidth 64
     (∀ y : Fin 11, s.home.freeHelper = some y → s.home.cq = [] → s.me.stackBad d (BitVec.ofNat 64 y.val) = false →
       exec (.start d a imm) s = .next ((s.startFor s.act s.me y target 0 false).upd fun t => t.setG d (BitVec.ofNat 64 y.val)).done) ∧
     (s.home.freeHelper = none ∨ s.home.cq ≠ [] → s.me.stackBad d (BitVec.allOnes 64) = false →
       exec (.start d a imm) s = .next (s.upd fun t => t.setG d (BitVec.allOnes 64)).done))

/-- R270, R51 to R53: the five results of SPLIT: nothing selected, everything selected, a helper started, a continuation record enqueued, or the queue full. -/
def Obligations.SplitResult : Prop :=
  ∀ (s : State) (d : GReg) (a : MOpd) (imm : BitVec 20), s.me.ldnm = false → s.me.passes → s.plain [.g d] = true → s.me.st ≠ .free → (∀ n, n ≤ 4 → s.me.stackBad d (BitVec.ofNat 64 n) = false) →
    let target := lineAt s.me.pc ((imm.setWidth 15).signExtend 64) ((imm.extractLsb' 15 5).setWidth 64)
    let sel := s.me.getM (.m 0) &&& s.me.getM a
    let rest := s.me.getM (.m 0) &&& ~~~s.me.getM a
    let counted := fun (u : State) => if s.me.qgd = 0 then u else (u.addLive s.act s.me.asid s.me.priv s.me.qgd 1).2
    let kept := fun (u : State) => u.upd fun t => t.putM (.m 0) (t.bounded rest)
    let write := fun (u : State) (n : Nat) => u.upd fun t => t.setG d (BitVec.ofNat 64 n)
    (sel = 0 → exec (.split d a imm) s = .next (write s 0).done) ∧
    (sel ≠ 0 → rest = 0 → exec (.split d a imm) s = .next (write s 1).done) ∧
    (sel ≠ 0 → rest ≠ 0 → ∀ y, s.home.freeHelper = some y → s.home.cq = [] →
      exec (.split d a imm) s = .next (write (counted (kept (s.startFor s.act s.me y target sel true))) 2).done) ∧
    (sel ≠ 0 → rest ≠ 0 → s.home.freeHelper = none ∨ s.home.cq ≠ [] → s.home.cq.length < 64 →
      exec (.split d a imm) s = .next (write (counted (kept (s.cqPut s.act s.me target sel))) 3).done) ∧
    (sel ≠ 0 → rest ≠ 0 → 64 ≤ s.home.cq.length → exec (.split d a imm) s = .next (write s 4).done)

/-- R167, R280, R282, R284: a load from plain scratchpad writes its bytes, least significant first, extended by sign or zero; with .ACQ it is an acquire. The access is performed at its issue: log entry 5. -/
def Obligations.LoadScratchpad : Prop :=
  (∀ (i : Instr) (d : GReg) (os : List Opnd) (ea : Ctx → Word) (sz : Size) (u acq stk : Bool) (s : State), LoadOp i d os ea sz u acq stk →
    s.plain (.g d :: refs os) = true → s.inSpad (ea s.me) sz.bytes → s.me.stackFits stk (ea s.me) sz.bytes → (acq = true → (ea s.me).toNat % sz.bytes = 0) →
    s.me.stackBad d (loaded sz.bytes u (s.spadRead (ea s.me) sz.bytes)) = false →
    exec i s = .next ((s.upd fun t => t.setG d (loaded sz.bytes u (s.spadRead (ea s.me) sz.bytes))).acquired acq).done) ∧
  ∀ (d : VReg) (a : GSrc) (disp : BitVec 20) (s : State), s.plain [.g a.r, .v d] = true →
    let ea := s.me.getG a.r + disp.signExtend 64
    s.inSpad ea 128 → s.me.stackFits (a.r == 62) ea 128 →
    exec (.ldv d a disp) s = .next (s.upd fun t => t.setV d (BitVec.ofNat 1024 (s.spadRead ea 128))).done

/-- R167, R280, R283, R284: a store to plain scratchpad writes the low bytes of its register, least significant first; with .REL it is a release before that. The access is performed at its issue: log entry 5. -/
def Obligations.StoreScratchpad : Prop :=
  (∀ (i : Instr) (d : GReg) (os : List Opnd) (ea : Ctx → Word) (sz : Size) (rel stk : Bool) (s : State), StoreOp i d os ea sz rel stk →
    s.plain (.g d :: refs os) = true → s.inSpad (ea s.me) sz.bytes → s.me.stackFits stk (ea s.me) sz.bytes →
    s.me.ldnm = false → (rel = true → (ea s.me).toNat % sz.bytes = 0 ∧ s.pairsOut s.act s.actx.val = false) →
    exec i s = .next ((s.released rel).spadWrite (ea s.me) sz.bytes (s.me.getG d).toNat).done) ∧
  ∀ (d : VReg) (a : GSrc) (disp : BitVec 20) (s : State), s.plain [.g a.r, .v d] = true →
    let ea := s.me.getG a.r + disp.signExtend 64
    s.inSpad ea 128 → s.me.stackFits (a.r == 62) ea 128 → s.me.ldnm = false →
    exec (.stv d a disp) s = .next (s.spadWrite ea 128 (s.me.getV d).toNat).done

/-- The frame of the scalar integer forms (R67, R272 to R278): every register but the destination, every mask, flag, control register and unit is as before, and where the next line is held, every
byte of memory and of every scratchpad.
The frame of the stores (R283, R284): every byte of the scratchpad outside the bytes stored reads as before, so does every byte of every other scratchpad, every register is as before, and, where the next
line is held and nothing is written back, so is every byte of memory. -/
def Obligations.Frames : Prop :=
  (∀ (i : Instr) (d : GReg) (os : List Opnd) (f : Ctx → Word) (s t : State), ScalarOp i d os f → s.plain (.g d :: refs os) = true → s.me.stackBad d (f s.me) = false →
    exec i s = .next t →
    (∀ r : GReg, r ≠ d → (t.ctx s.act s.actx).getG r = s.me.getG r) ∧ ((t.ctx s.act s.actx).setG d (s.me.getG d)).sameRegs (s.me.setG d (s.me.getG d)) ∧
    (∀ k x, (k ≠ s.act ∨ x ≠ s.actx) → t.ctx k x = s.ctx k x) ∧ (∀ k, (t.core k).sameUnits (s.core k)) ∧
    ((s.upd fun c => c.setG d (f c)).warm → ∀ a, t.mem.read a = s.mem.read a)) ∧
  (∀ (i : Instr) (d : GReg) (os : List Opnd) (ea : Ctx → Word) (sz : Size) (stk : Bool) (s t : State), StoreOp i d os ea sz false stk →
    s.plain (.g d :: refs os) = true → s.inSpad (ea s.me) sz.bytes → s.me.stackFits stk (ea s.me) sz.bytes → exec i s = .next t →
    (∀ b, (b < (ea s.me).toNat ∨ (ea s.me).toNat + sz.bytes ≤ b) → (t.core s.act).spad.read b = s.home.spad.read b) ∧
    (∀ b, b < sz.bytes → ((t.core s.act).spad.read ((ea s.me).toNat + b)).toNat = (s.me.getG d).toNat / 256 ^ b % 256) ∧
    (∀ k, k ≠ s.act → (t.core k).spad = (s.core k).spad) ∧
    (∀ k x, (t.ctx k x).g = (s.ctx k x).g ∧ (t.ctx k x).v = (s.ctx k x).v ∧ (t.ctx k x).m = (s.ctx k x).m ∧ (t.ctx k x).p = (s.ctx k x).p ∧ (t.ctx k x).gf = (s.ctx k x).gf ∧
      (t.ctx k x).vf = (s.ctx k x).vf ∧ (t.ctx k x).status = (s.ctx k x).status ∧ (t.ctx k x).fflags = (s.ctx k x).fflags ∧ (t.ctx k x).fmode = (s.ctx k x).fmode) ∧
    ((s.spadWrite (ea s.me) sz.bytes (s.me.getG d).toNat).warm → ∀ b, t.mem.read b = s.mem.read b))

/-- R70, R282, R418, R419, R479: a load that its checks accept elsewhere is a long-latency producer: of the bytes at its places, of a device register, or of the poison it met; poison in a window
traps, with the detail word of log entry 38. R196: a load of a node that an earlier LDNM is still to read waits.
R283, R419: a store that its checks accept elsewhere writes the bytes at its places, or a device register, after which the context issues again only once the write has completed; a device
register refused at the level is a privilege fault. The time of that write: log entry 6. The access is performed at its issue: log entry 5. -/
def Obligations.AccessElsewhere : Prop :=
  (∀ (i : Instr) (d : GReg) (os : List Opnd) (ea : Ctx → Word) (sz : Size) (u acq stk : Bool) (s s1 : State) (ps : List Place), LoadOp i d os ea sz u acq stk →
     s.plain (.g d :: refs os) = true → s.accepts (loadReq (ea s.me) sz acq stk) ps s1 →
     (∀ pa, regPlace ps = some pa →
       (∀ x, s1.regRead pa s.me.priv = some x → s.me.stackBad d x = false → exec i s = .next ((s1.produced (s1.latencyOf s.act 0 ps) false [.g d x] 0 none).acquired acq).done) ∧
       (s1.regRead pa s.me.priv = none → exec i s = .next (s.trapped 0x04 (w64 s.head) 0))) ∧
     (regPlace ps = none → s1.nodeAhead s.act s.actx.val ps = true → exec i s = .next s.holding) ∧
     (regPlace ps = none → s1.mayLoad ps → plainPlaces s.act ps = false → ∀ (x : Nat) (bad : Bool) (s2 : State), s1.loadPlaces s.act ps = ((x, bad), s2) →
       (bad = true → inWindow ps = true → exec i s = .next (s.trapped 0x0C (memDetail sz.bytes 0 0 5) (ea s.me))) ∧
       ((bad = true → inWindow ps = false) → s.me.stackBad d (extend sz.bytes u x) = false →
         exec i s = .next ((s2.produced (s1.latencyOf s.act 0 ps) false [.g d (extend sz.bytes u x)] 0 (if bad then some (ea s.me) else none) (peerAddr ps (ea s.me))).acquired acq).done))) ∧
  (∀ (i : Instr) (d : GReg) (os : List Opnd) (ea : Ctx → Word) (sz : Size) (rel stk : Bool) (s s1 : State) (ps : List Place), StoreOp i d os ea sz rel stk →
     s.plain (.g d :: refs os) = true → s.accepts (storeReq (ea s.me) sz rel stk) ps s1 → s.me.ldnm = false → (rel = true → s1.pairsOut s.act s.actx.val = false) →
     (∀ pa, regPlace ps = some pa →
       (∀ s2, ((s1.released rel).siFlush s.act).regWrite pa s.me.priv (s.me.getG d) = some s2 → exec i s = .next (s2.upd fun t => { t with wake := s.time + regStoreTicks }).done) ∧
       (((s1.released rel).siFlush s.act).regWrite pa s.me.priv (s.me.getG d) = none → exec i s = .next (s.trapped 0x04 (w64 s.head) 0))) ∧
     (regPlace ps = none → (s1.released rel).mayStore ps →
       exec i s = .next (((((s1.released rel).storePlaces s.act ps (s.me.getG d).toNat).clearStored s.act ps).patchStreams s.act (ps.map Place.loc) (s.me.getG d).toNat)).done))

/-- R280, R451: an access that fails a check is taken as its trap, and the instruction has no effect; an address of 2^48 or more is a page fault, an access through g62 outside [SSL, SSB] a stack fault, and a
range that leaves the local addresses an address fault. -/
def Obligations.AccessFaults : Prop :=
  (∀ (i : Instr) (d : GReg) (os : List Opnd) (ea : Ctx → Word) (sz : Size) (u acq stk : Bool) (s : State) (t : Trap), LoadOp i d os ea sz u acq stk →
    s.plain (.g d :: refs os) = true → s.rejects (loadReq (ea s.me) sz acq stk) t → exec i s = .next (s.takeTrap s.act s.actx t).issued) ∧
  (∀ (i : Instr) (d : GReg) (os : List Opnd) (ea : Ctx → Word) (sz : Size) (rel stk : Bool) (s : State) (t : Trap), StoreOp i d os ea sz rel stk →
    s.plain (.g d :: refs os) = true → s.rejects (storeReq (ea s.me) sz rel stk) t → exec i s = .next (s.takeTrap s.act s.actx t).issued) ∧
  ∀ (s : State) (q : Req), 0 < q.n →
    (q.stk = true → (q.va.toNat < s.me.ssl.toNat ∨ s.me.ssb.toNat < q.va.toNat + q.n - 1) → s.rejects q ⟨0x0B, memDetail q.n 0 1 q.kind, q.va, false⟩) ∧
    (q.stk = false → 2 ^ 48 ≤ q.va.toNat → s.rejects q ⟨0x08, memDetail q.n 0 4 q.kind, q.va, false⟩) ∧
    (q.stk = false → q.va.toNat < 0x20000 → 0x20000 < q.va.toNat + q.n → s.rejects q ⟨0x0A, memDetail q.n 0 1 q.kind, q.va, false⟩)

/-- R286, R287, R280: LDVS and GATH from plain scratchpad: every active element is loaded from its address, an inactive one is 0; GATH is a long-latency producer.
R286, R287: STVS and SCATV to plain scratchpad: the active elements are stored in ascending order, so that of two at one address the last one stays; nothing else is stored. The access is performed at its issue: log entry 5. -/
def Obligations.VectorAccesses : Prop :=
  (∀ (i : Instr) (d : VReg) (os : List Opnd) (w n : Nat) (addr : Ctx → Nat → Word) (pr : Option PReg) (stk : Bool) (gath : Option Bool) (s : State),
     VLoadOp i d os w n addr pr stk gath → s.plain (.v d :: refs os) = true →
     (∀ j, j < n → s.me.isActive pr j → s.inSpad (addr s.me j) w ∧ (addr s.me j).toNat % w = 0 ∧ s.me.stackFits stk (addr s.me j) w) →
     ∃ x : VWord,
       (∀ j, j < n → (s.me.isActive pr j → match gath with
           | none => elemOf x w j = s.spadRead (addr s.me j) w
           | some u => elemOf x 4 j = (loaded w u (s.spadRead (addr s.me j) w)).toNat % 2 ^ 32) ∧
         (¬s.me.isActive pr j → elemOf x (if gath.isSome then 4 else w) j = 0)) ∧
       match gath with
       | none => exec i s = .next (s.upd fun t => t.setV d x).done
       | some _ => ∃ lat, exec i s = .next (s.produced lat false [.v d x] 0 none).done) ∧
  (∀ (i : Instr) (d : VReg) (os : List Opnd) (w n : Nat) (addr : Ctx → Nat → Word) (pr : Option PReg) (stk : Bool) (lw : Nat) (s : State),
     VStoreOp i d os w n addr pr stk lw → s.plain (.v d :: refs os) = true →
     (∀ j, j < n → s.me.isActive pr j → s.inSpad (addr s.me j) w ∧ (addr s.me j).toNat % w = 0 ∧ s.me.stackFits stk (addr s.me j) w) → s.me.ldnm = false →
     exec i s = .next (((List.range n).filter fun j => s.me.active pr j).foldl (fun u j => u.spadWrite (addr s.me j) w (elemOf (s.me.getV d) lw j)) s).done)

/-- R290: SWAP, CAS and FADD on plain scratchpad: the old value, sign-extended, is the result of a long-latency producer; the new value is written at once, and CAS writes only where the old value is the one
expected.
R290, R179, R197, R479: the same at the home of global memory, after the write-backs of the core's SI words: own copies are written back and dropped, copies elsewhere go to I, and poison writes nothing and answers poison. The access is performed at its issue: log entry 5. -/
def Obligations.AtomicResult : Prop :=
  (∀ (i : Instr) (d : GReg) (os : List Opnd) (ea : Ctx → Word) (dw : Bool) (f : Ctx → Nat → Option Nat) (stk : Bool) (s : State), AtomicOp i d os ea dw f stk →
     s.plain (.g d :: refs os) = true → s.inSpad (ea s.me) (atomicBytes dw) → s.me.stackFits stk (ea s.me) (atomicBytes dw) → (ea s.me).toNat % atomicBytes dw = 0 → s.me.ldnm = false →
     s.me.stackBad d (loaded (atomicBytes dw) false (s.spadRead (ea s.me) (atomicBytes dw))) = false →
     let old := s.spadRead (ea s.me) (atomicBytes dw)
     let s1 := match f s.me old with
       | some y => s.spadWrite (ea s.me) (atomicBytes dw) y
       | none => s
     exec i s = .next (s1.produced (s.atomicLatency s.act (s.spadPlaces (ea s.me) (atomicBytes dw))) false [.g d (loaded (atomicBytes dw) false old)] 0 none).done) ∧
  (∀ (i : Instr) (d : GReg) (os : List Opnd) (ea : Ctx → Word) (dw : Bool) (f : Ctx → Nat → Option Nat) (stk : Bool) (s s1 s2 : State) (ps : List Place) (pa old : Nat),
     AtomicOp i d os ea dw f stk → s.me.stackBad d (loaded (atomicBytes dw) false old) = false → s.plain (.g d :: refs os) = true → s.accepts (atomicReq (ea s.me) dw stk) ps s1 → homePa ps = some pa → s1.noPairs ps → s.me.ldnm = false →
     s1.syncRead s.act ps pa (atomicBytes dw) = (old, s2) →
     let bad := s2.anyPoisonFor s.act pa (atomicBytes dw)
     let s3 := match bad, f s.me old with
       | false, some y => ((s2.siFlush s.act).homeWrite pa (atomicBytes dw) y).patchStreams s.act (ps.map Place.loc) y
       | _, _ => s2
     exec i s = .next (s3.produced (s1.atomicLatency s.act ps) false [.g d (loaded (atomicBytes dw) false old)] 0 (if bad then some (ea s.me) else none) (peerAddr ps (ea s.me))).done)

/-- R288: LDF: with 256 entries of the deferral buffer in use, by LDFs deferred or answers on their way, it writes status 1 and nothing else; a full word answers its value and status 0; an empty one leaves both registers empty and the core waiting in the buffer.
R289: STF releases, writes its word, sets it full and answers every waiter; CLRF sets the word empty and writes no data. The access is performed at its issue: log entry 5. -/
def Obligations.FutureResult : Prop :=
  (∀ (d c : GReg) (a : GSrc) (s s1 : State) (ps : List Place) (pa : Nat), d ≠ c → s.me.stackBad d 0 = false → s.me.stackBad c 0 = false → s.me.stackBad c 1 = false → s.plain [.g a.r, .g d, .g c] = true →
     s.accepts (futureReq (s.me.getG a.r) false (a.r == 62)) ps s1 → homePa ps = some pa → s1.noPairs ps →
     (256 ≤ s1.home.deferrals → exec (.ldf d a c) s = .next (s1.upd fun t => t.setG c 1).done) ∧
     (s1.home.deferrals < 256 → ∀ (x : Nat) (s2 : State), s1.syncRead s.act ps pa 8 = (x, s2) →
       let lat := s1.atomicLatency s.act ps
       (s2.anyPoisonFor s.act pa 8 = true → exec (.ldf d a c) s = .next (s2.answered lat [.g d 0, .g c 0] (some (s.me.getG a.r)) (peerAddr ps (s.me.getG a.r))).done) ∧
       (s2.anyPoisonFor s.act pa 8 = false → s2.isEmpty pa = false → s.me.stackBad d (BitVec.ofNat 64 x) = false →
         exec (.ldf d a c) s = .next (s2.answered lat [.g d (BitVec.ofNat 64 x), .g c 0] none (peerAddr ps (s.me.getG a.r))).done) ∧
       (s2.anyPoisonFor s.act pa 8 = false → s2.isEmpty pa = true →
         exec (.ldf d a c) s = .next ((s2.upd fun t => (t.markG d false).markG c false).modCore s.act fun y =>
           { y with ldfs := y.ldfs ++ [⟨s.actx.val, d, c, pa, s.me.getG a.r, false, false, s.moves⟩] }).done))) ∧
  (∀ (a : GSrc) (s s1 : State) (ps : List Place) (pa : Nat), s.accepts (futureReq (s.me.getG a.r) true (a.r == 62)) ps s1 → homePa ps = some pa →
     s.me.ldnm = false →
     (∀ d : GReg, s.plain [.g a.r, .g d] = true → s1.pairsOut s.act s.actx.val = false → (s1.siFlush s.act).noPairs ps →
       exec (.stf d a) s = .next ((((s1.siFlush s.act).dropAt s.act pa 8).fillFuture pa (s.me.getG d)).patchStreams s.act (ps.map Place.loc) (s.me.getG d).toNat).done) ∧
     (s.plain [.g a.r] = true → s1.noPairs ps → exec (.clrf a) s = .next (((s1.siFlush s.act).dropAt s.act pa 8).clearFuture pa).done))

/-- R203, R204, R207, R217, R291, R114: the fences.
R292: PREF writes no register and never faults, whatever its address, and has no effect beyond 2^48 and while every tracking entry of its core is busy. -/
def Obligations.FenceResult : Prop :=
  (∀ (s : State) (sc : Scope),
     let rel := if sc.wide then s.siFlush s.act else s
     (s.me.ldnm = false → exec (.fenceAcq sc) s = .next (s.acquire s.act s.actx sc.wide).done) ∧
     (s.me.ldnm = true → exec (.fenceAcq sc) s = .next s.holding) ∧
     (s.me.ldnm = false → s.pairsOut s.act s.actx.val = false →
       exec (.fenceRel sc) s = .next rel.done ∧ exec (.fenceFull sc) s = .next (rel.acquire rel.act rel.actx sc.wide).done) ∧
     (s.me.ldnm = true ∨ s.pairsOut s.act s.actx.val = true → exec (.fenceRel sc) s = .next s.holding ∧ exec (.fenceFull sc) s = .next s.holding) ∧
     (s.me.mxu = 0 → (∀ i : Fin 64, ∀ c, s.home.tags[i].cmd = some c → c.ctx = s.actx.val → s.home.tags[i].st ≠ .busy ∧ s.home.tags[i].st ≠ .srcDone) →
       exec (.fenceEng sc) s = .next (let e := if sc.wide then s.flushAway s.act else s
         e.acquire e.act e.actx false).done) ∧
     ((s.me.mxu ≠ 0 ∨ ∃ i : Fin 64, ∃ c, s.home.tags[i].cmd = some c ∧ c.ctx = s.actx.val ∧ (s.home.tags[i].st = .busy ∨ s.home.tags[i].st = .srcDone)) →
       exec (.fenceEng sc) s = .next s.holding) ∧
     exec .fenceInsn s = .next (s.modCore s.act fun c => { c with icache := [] }).done) ∧
  (∀ (s : State) (a : GSrc) (lv : PLevel) (w : Bool) (disp : BitVec 20), s.plain [.g a.r] = true →
     ∃ u, exec (.pref a lv w disp) s = .next u.done ∧ (∀ k x, (u.ctx k x).sameRegs (s.ctx k x)) ∧ (∀ k, (u.core k).spad = (s.core k).spad) ∧
       (2 ^ 48 ≤ (s.me.getG a.r + disp.signExtend 64).toNat ∨ s.trackBusy s.act = true → u = s))

/-- R176 to R179: a byte that a core has stored in its scratchpad or in a word it then owns is what it loads from there; a store in scratchpad leaves every other byte as it was. The access is performed at its issue: log entry 5. -/
def Obligations.LoadAfterStore : Prop :=
  (∀ (s : State) (k j off b : Nat), ((s.storePlaces k [.spad j off] b).loadByte k (.spad j off)).1.1 = b % 256) ∧
  (∀ (s : State) (k pa b : Nat) (attr : Attr), attr ≠ .uc → ((s.storePlaces k [.phys pa attr] b).loadByte k (.phys pa attr)).1 = (b % 256, false)) ∧
  ∀ (s : State) (k b off j' off' : Nat), (j', off') ≠ (k, off) → ((s.storePlaces k [.spad k off] b).loadByte k (.spad j' off')).1 = (s.loadByte k (.spad j' off')).1

/-- R293: WMAP writes its result code, and maps the window where the code is 0; the codes.
R294: WUNMAP writes back and unmaps its window, WFLUSH writes back its D words, and each completes once the homes have accepted them; WINV discards its words, and waits for the fills of the
window that are outstanding; WUNMAP and WINV wait while a range-lock extent overlaps the window. The times: log entry 6. -/
def Obligations.WindowResult : Prop :=
  (∀ (s : State) (d : GReg) (a b c : GSrc) (w : BitVec 3), s.plain [.g a.r, .g b.r, .g c.r, .g d] = true →
     let base := (s.me.getG a.r).toNat
     let va := (s.me.getG b.r).toNat
     let len := (s.me.getG c.r).toNat
     let code := s.home.wmapCode (Fin.ofNat 8 w.toNat) base va len
     (s.home.lockedOver s.act base len = true ∨ s.home.lockedOver s.act va len = true → exec (.wmap d a b c w) s = .next s.holding) ∧
     (s.home.lockedOver s.act base len = false → s.home.lockedOver s.act va len = false → s.me.stackBad d (BitVec.ofNat 64 code) = false →
       (code = 0 → exec (.wmap d a b c w) s = .next ((s.upd fun t => t.setG d 0).modCore s.act fun y =>
         { y with wins := y.wins.set (Fin.ofNat 8 w.toNat) (some ⟨base, va, len, s.me.asid, [], []⟩) }).done) ∧
       (code ≠ 0 → exec (.wmap d a b c w) s = .next (s.upd fun t => t.setG d (BitVec.ofNat 64 code)).done)) ∧
     (code = 1 ↔ (s.home.wins[Fin.ofNat 8 w.toNat]).isSome = true) ∧
     (code = 0 → base % 256 = 0 ∧ va % 256 = 0 ∧ len % 256 = 0 ∧ 256 ≤ len ∧ base + len ≤ 0x20000 ∧ 0x20000 ≤ va ∧ va + len ≤ 2 ^ 48 ∧
       ∀ (i : Fin 8) (o : Window), s.home.wins[i] = some o → (o.base + o.len ≤ base ∨ base + len ≤ o.base) ∧ (o.va + o.len ≤ va ∨ va + len ≤ o.va))) ∧
  (∀ (s : State) (w : BitVec 3),
     let i := Fin.ofNat 8 w.toNat
     let here := s.home.inWin i
     let flushed := s.writeBack s.act here
     exec (.wflush w) s = .next (flushed.busyFor (s.backTicks s.act here)).done ∧
     ((∀ o, s.home.wins[i] = some o → s.home.lockedOver s.act o.base o.len = false ∧ s.home.lockedOver s.act o.va o.len = false) →
       exec (.wunmap w) s = .next ((s.unmapWindow s.act i).busyFor (s.backTicks s.act here)).done ∧
       (s.home.winBusy i s.time = false → exec (.winv w) s = .next (s.loseCopies s.act here).done) ∧
       (s.home.winBusy i s.time = true → exec (.winv w) s = .next s.holding)) ∧
     ((∃ o, s.home.wins[i] = some o ∧ (s.home.lockedOver s.act o.base o.len = true ∨ s.home.lockedOver s.act o.va o.len = true)) →
       exec (.wunmap w) s = .next s.holding ∧ exec (.winv w) s = .next s.holding) ∧
     ((s.unmapWindow s.act i).home.wins[i] = none) ∧
     (∀ o, flushed.home.wins[i] = some o → ∀ y ∈ o.words, y.2.st ≠ .d) ∧
     (∀ o, (s.loseCopies s.act here).home.wins[i] = some o → ∀ y ∈ o.words, y.2.held = false) ∧
     (s.loseCopies s.act here).mem = s.mem ∧
     ∀ o, s.home.wins[i] = some o → (∀ y ∈ o.words, y.2.st = .d → y.2.x < 2 ^ 32) → (o.words.map fun y => y.2.w).Nodup → ∀ y ∈ o.words, y.2.st = .d →
       flushed.word y.2.w = y.2.x ∧ (s.unmapWindow s.act i).word y.2.w = y.2.x)

/-- R226, R295, R296: UPD emits one pair and UPDV one for every active lane, in the update buffer of the core; where the buffer has no room for them the context waits.
R475: an update pair addressed to the scratchpad lies in no region and is the update-region fault. Model's choices: log entry 34. -/
def Obligations.UpdResult : Prop :=
  ((∀ (s : State) (a b : GSrc) (ty : UType), s.plain [.g a.r, .g b.r] = true →
     (128 ≤ s.home.ubuf.length → exec (.upd a b ty) s = .next s.holding) ∧
     (s.home.ubuf.length < 128 → ∀ r, s.pairFor ty (a.r == 62) 0 (s.me.getG a.r) r →
       exec (.upd a b ty) s = .next (s.buffered [s.pairOf ty 0 (s.me.getG b.r) r]).done)) ∧
   ∀ (s : State) (a : GSrc) (b c : VSrc) (pr : Option PReg) (sc : BitVec 2) (ty : UType), s.plain [.g a.r, .v b.r, .v c.r] = true →
     let lanes := (List.range 32).filter fun j => s.me.active pr j
     let addr := fun (j : Nat) => s.me.getG a.r + (low 32 (BitVec.ofNat 64 (elemOf (s.me.getV b.r) 4 j)) <<< sc.toNat)
     (128 < s.home.ubuf.length + lanes.length → exec (.updv a b c pr sc ty) s = .next s.holding) ∧
     (s.home.ubuf.length + lanes.length ≤ 128 → ∀ r : Nat → Nat × Nat × Attr × Bool, (∀ j ∈ lanes, s.pairFor ty (a.r == 62) j (addr j) (r j)) →
       exec (.updv a b c pr sc ty) s =
         .next (s.buffered (lanes.map fun j => s.pairOf ty j (low 32 (BitVec.ofNat 64 (elemOf (s.me.getV c.r) 4 j))) (r j))).done)) ∧
  (∀ (s : State) (a b : GSrc) (ty : UType), s.plain [.g a.r, .g b.r] = true → s.home.ubuf.length < 128 → s.inSpad (s.me.getG a.r) ty.bytes →
     (s.me.getG a.r).toNat % ty.bytes = 0 → s.me.stackFits (a.r == 62) (s.me.getG a.r) ty.bytes →
     exec (.upd a b ty) s = .next (s.trapped 0x13 1 (s.me.getG a.r)))

/-- R297, R408: UREG at U is a privilege fault; at S it reads its record, waits for the walks of its pages (R175), and writes what registering it gives, once no operation keeps a translation of the range (R413); a region once registered holds what its record says.
R297, R298, R225, R236: UREG.REL of a region that is not the context's writes all ones; else it is marked as leaving and its translations go, and while a pair of it is on its way
it waits; then its pages are applied and it is removed. UFLUSH applies the pages of its
region. UWAIT completes once no pair of the context is on its way. Model's choices: log entry 34. -/
def Obligations.RegionResult : Prop :=
  ((∀ (s : State) (d : GReg) (a : GSrc), s.me.priv = 0 → exec (.ureg d a) s = .next (s.trapped 0x04 (w64 s.head) 0) ∧ exec (.uregRel d a) s = .next (s.trapped 0x04 (w64 s.head) 0)) ∧
   (∀ (s s1 s2 : State) (d : GReg) (a : GSrc) (ps : List Place) (y : Nat), 1 ≤ s.me.priv → s.plain [.g a.r, .g d] = true →
     s.accepts { va := s.me.getG a.r, n := 16, kind := 0, wr := false, align := 16, stk := a.r == 62 } ps s1 → s1.mayLoad ps → s1.loadPlaces s.act ps = ((y, false), s2) →
     let r := s2.ureg s.act s.me.asid y
     let kept := s2.keepsPage (s2.covered s.me.asid (bits y 0 64) (4096 * bits y 64 32))
     (∀ va, s2.unwalked s.me.asid (uregPages y) (bits y 0 64) = some va → exec (.ureg d a) s = .next (s.askWalk s.act s.actx s.act s.me.asid va).holding) ∧
     (s2.unwalked s.me.asid (uregPages y) (bits y 0 64) = none → s.me.stackBad d (BitVec.ofInt 64 r.1) = false →
     (r.1 < 0 → exec (.ureg d a) s = .next (r.2.upd fun t => t.setG d (BitVec.ofInt 64 r.1)).done) ∧
     (0 ≤ r.1 → kept = true → exec (.ureg d a) s = .next s.holding) ∧
     (0 ≤ r.1 → kept = false → exec (.ureg d a) s = .next ((r.2.busyFor tlbInvTicks).upd fun t => t.setG d (BitVec.ofInt 64 r.1)).done))) ∧
   ∀ (s : State) (k asid rec_ i : Nat), (s.ureg k asid rec_).1 = i → i < 1024 ∧ sget s.regions i = none ∧ bits rec_ 0 64 % 4096 = 0 ∧ 0 < bits rec_ 64 32 ∧
     ∃ r, sget (s.ureg k asid rec_).2.regions i = some r ∧ r.leaving = false ∧ r.asid = asid ∧ r.va = bits rec_ 0 64 ∧ r.pages = bits rec_ 64 32 ∧ utypeOf (bits rec_ 96 8) = some r.ty ∧
       uopOf (bits rec_ 104 8) = some r.op) ∧
  (∀ (s : State) (d : GReg) (a : GSrc), s.plain [.g a.r, .g d] = true →
     let id := (s.me.getG a.r).toNat % 1024
     (1 ≤ s.me.priv → s.ownRegion id s.me.asid = none → s.me.stackBad d (BitVec.allOnes 64) = false →
       exec (.uregRel d a) s = .next (s.upd fun t => t.setG d (BitVec.allOnes 64)).done) ∧
     (∀ r, 1 ≤ s.me.priv → s.ownRegion id s.me.asid = some r → s.me.stackBad d 0 = false →
       let s1 := if r.leaving then s else s.startRelease id r
       let s2 := (s1.busyFor (tlbInvTicks + s1.applyTicks id)).applyRegion true id fun _ => true
       let busy := s1.regionBusy id || s1.keepsPage (s1.covered s.me.asid r.va (4096 * r.pages))
       (busy = true → exec (.uregRel d a) s = .next s1.holding) ∧
       (busy = false → exec (.uregRel d a) s = .next (State.upd { s2 with regions := sdel s2.regions id } fun t => t.setG d 0).done)) ∧
     (s.ownRegion id s.me.asid = none → exec (.uflush a) s = .next s.done) ∧
     ((s.ownRegion id s.me.asid).isSome = true →
       exec (.uflush a) s = .next (((s.sendPartials id).applyRegion false id fun _ => true).busyFor (s.applyTicks id)).done) ∧
     (s.home.partialsOf s.actx.val = [] → s.pairsOut s.act s.actx.val = false → exec .uwait s = .next s.done) ∧
     (s.home.partialsOf s.actx.val = [] → s.pairsOut s.act s.actx.val = true → exec .uwait s = .next s.holding))

/-- R42, R306, R460: QGSET on a descriptor in plain scratchpad of its core: the context leaves the group it was bound to, is bound to the new one, takes the members of its mask that lie below COUNT, sets LIVE to 1 and empties
the completion word, and it issues again after the time of R305, to which the write-backs of the release of an old group are added; a descriptor that breaks a rule of R42 is illegal.
R45, R46, R307: LDNM offers its node to the Yard of its cluster, or fetches it alone where the context is unbound or m0 is empty: its destination is empty and its membership unresolved until it
resolves; the request carries the context's group, node, tag and m0. Model's choices: log entry 35. -/
def Obligations.GroupResult : Prop :=
  (∀ (s s0 s1 : State) (a : GSrc) (b : MOpd) (pa base count stride : Nat), s.me.ldnm = false → s.plain [.g a.r] = true →
     let x := s.me.getG a.r
     s.inSpad x 32 → x.toNat % 32 = 0 → s.me.stackFits (a.r == 62) x 32 →
     let d := s.spadRead x 32
     (groupOf s.act d = none → exec (.qgset a b) s = .next (s.trapped 0x02 (s.detail6 12) 0)) ∧
     (groupOf s.act d = some (base, count, stride) →
       (s.me.qgd = 0 → s0 = s) → (s.me.qgd ≠ 0 → s.complCheck s.act s.me.asid s.me.priv s.me.qgd = (none, s0) ∧ s1.pairsOut s.act s.actx.val = false) →
       s0.complPlace s.act s.me.asid s.me.priv (w64 (bits d 128 64)) = (.ok pa, s1) → s1.mustWait s.act s.actx.val pa = false →
       let s2 := if s.me.qgd = 0 then s1 else (s1.siFlush s.act).groupLeave s.act s.me.asid s.me.priv s.me.qgd 1
       let s3 := s2.upd fun t => { t with
         qgd := w64 (apertureOf s.act x.toNat), qcount := count, qbase := w64 base, qstride := stride, m := t.m.set 0 (s.me.getM b &&& BitVec.ofNat 256 (2 ^ count - 1)) }
       exec (.qgset a b) s = .next (((((s3.spadWrite (x + 24) 8 1).siFlush s.act).dropAt s.act pa 8).clearFuture pa).busyFor
         (s.qgsetTicks s.act x.toNat (s.spadPlaces x 32) + if s.me.qgd = 0 then 0 else s1.backTicks s.act (·.attr == .si))).done)) ∧
  (∀ (s s1 : State) (d : VReg) (a : GSrc) (tag : BitVec 20) (node : Place) (ps : List Place), s.me.ldnm = false → s.plain [.g a.r, .v d] = true →
     s.accepts { va := s.me.getG a.r, n := 64, kind := 0, wr := false, align := 64, stk := a.r == 62 } (node :: ps) s1 → s1.mayLoad (node :: ps) →
     let va := match spadAt s.act (s.me.getG a.r).toNat with
       | some (j, off) => apertureOf j off
       | none => (s.me.getG a.r).toNat
     let n := s.cyc s.act toYard
     let q : YReq := ⟨(s.me.asid, s.me.qgd, va, tag.toNat), ⟨s.act, s.actx.val, d, s.me.getM (.m 0)⟩, node, s.time + n⟩
     let u := s1.upd fun t => { t.markV d false with ldnm := true }
     let cl := clusterOf s.act
     (s.me.qgd = 0 ∨ s.me.getM (.m 0) = 0 → exec (.ldnm d a tag) s = .next (u.fetchAlone cl q).done) ∧
     (s.me.qgd ≠ 0 → s.me.getM (.m 0) ≠ 0 →
       exec (.ldnm d a tag) s = .next ((u.modCluster cl fun c => { c with yreq := c.yreq ++ [q] }).postIn n ⟨.yardRequestAccept, [cl]⟩).done))

/-- R301, R302, R308, R310, R311: the query-set forms that read rows: QCMP compares the field of every selected member, QLD takes that of the lowest, QGATH those of a chunk; R305: the member unit is busy and the destination late meanwhile.
R301: a query-set form of an unbound context is illegal. Model's choices: log entry 35. -/
def Obligations.RowReads : Prop :=
  (∀ (s : State) (ty : QType) (off : BitVec 12),
     (∀ (d : MOpd) (a : GSrc) (cc : QCond), s.plain [.g a.r] = true → s.rowsReady ty off.toNat s.chosen →
       ∃ x : Mask, (∀ i, i < 256 → x.getLsbD i = ((s.me.getM (.m 0)).getLsbD i && qcond ty cc (s.fieldOf ty off.toNat i) (s.me.getG a.r))) ∧
         exec (.qcmp d a off ty cc) s = .next ((s.upd fun t => t.putM d (t.bounded x)).sideNoted (some (.k d)) s.chosen).done) ∧
     (∀ d : GReg, s.plain [.g d] = true → s.rowsReady ty off.toNat s.chosen → ∀ x : Word,
       (match s.chosen with
         | [] => x = 0
         | i :: _ => x = s.fieldOf ty off.toNat i) → s.me.stackBad d x = false →
         exec (.qld d off ty) s = .next ((s.upd fun t => t.setG d x).sideNoted (some (.g d)) s.chosen).done) ∧
     ∀ (d : VReg) (a : GSrc) (k : BitVec 3), s.plain [.g a.r, .v d] = true → (s.me.getG a.r).toNat < 256 →
       let sel := s.chosen.filter fun i => i / 32 == k.toNat
       s.rowsReady ty (s.me.getG a.r).toNat sel →
       ∃ x : VWord, (∀ j, j < 32 → elemOf x 4 j =
           if (s.me.getM (.m 0)).getLsbD (32 * k.toNat + j) then (s.fieldOf ty (s.me.getG a.r).toNat (32 * k.toNat + j)).toNat % 2 ^ 32 else 0) ∧
         exec (.qgath d a k ty) s = .next ((s.sideNoted (some (.v d)) sel).upd fun t => t.setV d x).done) ∧
  (∀ (s : State) (off : BitVec 12) (ty : QType), s.me.ldnm = false → s.me.qgd = 0 →
     (∀ a : GSrc, s.plain [.g a.r] = true → exec (.qadd a off ty) s = .next (s.trapped 0x02 (s.detail6 1) 0) ∧ exec (.qst a off ty) s = .next (s.trapped 0x02 (s.detail6 1) 0) ∧
       exec (.qfadd a off) s = .next (s.trapped 0x02 (s.detail6 1) 0) ∧ ∀ d cc, exec (.qcmp d a off ty cc) s = .next (s.trapped 0x02 (s.detail6 1) 0)) ∧
     (∀ imm, exec (.qaddi off ty imm) s = .next (s.trapped 0x02 (s.detail6 1) 0)) ∧
     ∀ d : GReg, s.plain [.g d] = true → exec (.qld d off ty) s = .next (s.trapped 0x02 (s.detail6 1) 0))

/-- R301, R302, R309 to R311: the query-set forms that write rows, member by member in ascending order; QFADD rounds by FMODE and raises its flags when it
completes; R305: the member unit is busy meanwhile. Model's choices: log entry 35. -/
def Obligations.RowWrites : Prop :=
  ∀ (s : State) (ty : QType) (off : BitVec 12),
    (∀ a : GSrc, s.plain [.g a.r] = true → s.rowsReady ty off.toNat s.chosen →
      exec (.qadd a off ty) s = .next ((s.putFields ty off.toNat (fun u i => u.fieldOf ty off.toNat i + s.me.getG a.r) s.chosen).sideNoted none s.chosen).done ∧
      exec (.qst a off ty) s = .next ((s.putFields ty off.toNat (fun _ _ => s.me.getG a.r) s.chosen).sideNoted none s.chosen).done) ∧
    (∀ imm : BitVec 5, s.rowsReady ty off.toNat s.chosen →
      exec (.qaddi off ty imm) s = .next ((s.putFields ty off.toNat (fun u i => u.fieldOf ty off.toNat i + imm.signExtend 64) s.chosen).sideNoted none s.chosen).done) ∧
    (∀ a : GSrc, s.plain [.g a.r] = true → s.rowsReady .f32 off.toNat s.chosen →
      let sum := fun (u : State) (i : Nat) => fAdd .f32 ⟨s.me.mode.rm, false⟩ ((u.fieldOf .f32 off.toNat i).toNat % 2 ^ 32) ((s.me.getG a.r).toNat % 2 ^ 32)
      let fl := (s.chosen.foldl (fun (p : State × Flags) i => (p.1.spadWrite (s.fieldAt off.toNat i) 4 (sum p.1 i).1, p.2 ||| (sum p.1 i).2)) (s, 0)).2
      exec (.qfadd a off) s = .next (((s.putFields .f32 off.toNat (fun u i => BitVec.ofNat 64 (sum u i).1) s.chosen).upd fun t =>
        t.orFlags (s.time + s.sideTicks s.chosen) fl).sideNoted none s.chosen).done) ∧
    ∀ (d : VReg) (a : GSrc) (k : BitVec 3), s.plain [.g a.r, .v d] = true → (s.me.getG a.r).toNat < 256 →
      let sel := s.chosen.filter fun i => i / 32 == k.toNat
      s.rowsReady ty (s.me.getG a.r).toNat sel →
      exec (.qscat d a k ty) s =
        .next ((s.putFields ty (s.me.getG a.r).toNat (fun _ i => BitVec.ofNat 64 (elemOf (s.me.getV d) 4 (i % 32))) sel).sideNoted none sel).done

/-- R319 to R321: SOPEN.A and SOPEN.F read a descriptor, put the register in stream mode in the lowest free slot, which an instruction can name once the descriptor is there (R330), and start its refill then if it is an input; a descriptor that breaks a rule, and a ninth stream, are
illegal, and a misaligned one is an alignment fault.
R326: SCLOSE ends stream mode and leaves the register 0 and full; STEND tells whether the stream has ended, a register not in stream mode reading as ended; SPEEK reads the next element and consumes
nothing; SPEEK of a register not in stream mode is illegal. Model's choices: log entry 36. -/
def Obligations.SopenResult : Prop :=
  (∀ (s : State) (d : SOpd) (a : GSrc) (fibre out : Bool), s.plain [.g a.r] = true → (s.me.slotOf (sref d) = none → s.empty ⟨sref d, 7, false⟩ = false) →
     let x := s.me.getG a.r
     let run := exec (if fibre then .sopenF d a out else .sopenA d a out) s
     s.inSpad x 32 → x.toNat % 32 = 0 → s.me.stackFits (a.r == 62) x 32 →
     (slotFor (sref d) fibre out (s.spadRead x 32) = none → run = .next (s.trapped 0x02 (s.detail6 4) 0)) ∧
     ∀ sl, slotFor (sref d) fibre out (s.spadRead x 32) = some sl →
       (sl.aligned = false → run = .next (s.trapped 0x0A (memDetail sl.esize 0 0 4) sl.badAddr)) ∧
       (sl.aligned = true → (s.me.leaves (sref d)).freeSlot = none → run = .next (s.trapped 0x02 (s.detail6 4) 0)) ∧
       (sl.aligned = true → ∀ i, (s.me.leaves (sref d)).freeSlot = some i →
         let lat := s.latencyOf s.act 0 (s.spadPlaces x 32)
         let u := (s.leftStream (sref d)).upd fun t => (t.enters (sref d) i sl).awaits (sref d) (s.time + lat)
         run = .next (if out then u else u.refillIn lat s.act s.actx i).done)) ∧
  (∀ s : State,
     (∀ a : SOpd, exec (.sclose a) s = .next (s.leftStream (sref a)).done) ∧
     (∀ (d : GReg) (a : SOpd), s.plain [.g d] = true →
       (s.me.stackBad d 1 = false → (∀ i, s.me.slotOf (sref a) = some i → s.me.slots[i].left = 0) → exec (.stend d a) s = .next (s.upd fun t => t.setG d 1).done) ∧
       (s.me.stackBad d 0 = false → ∀ i, s.me.slotOf (sref a) = some i → s.me.slots[i].left ≠ 0 → exec (.stend d a) s = .next (s.upd fun t => t.setG d 0).done) ∧
       (s.me.slotOf (sref a) = none → exec (.speek d a) s = .next (s.trapped 0x02 (s.detail6 3) 0)) ∧
       ∀ i, s.me.slotOf (sref a) = some i → s.me.slots[i].isEmpty = false → s.unlocked s.me.slots[i] → s.me.stackBad d s.me.slots[i].readG = false →
         exec (.speek d a) s = .next (s.upd fun t => t.setG d s.me.slots[i].readG).done))

/-- R325: SADV advances a stream by gA plus its displacement, at most to its end; R325, R329: SADVTO computes its key once, ends where its input fibre is at its end or at a coordinate
not below the key, and else consumes one element; it is issued again unless the walk has ended with it.
R322, R324: a scalar form that reads an input stream takes its next element and consumes it; one that writes an output stream stores at its position and advances it, and is discarded once the stream is
exhausted. Model's choices: log entry 36. -/
def Obligations.StreamAdvance : Prop :=
  (∀ (s : State) (d : SOpd) (a : GSrc) (imm : BitVec 20), s.plain [.g a.r] = true →
    (s.me.slotOf (sref d) = none → exec (.sadv d a imm) s = .next (s.trapped 0x02 (s.detail6 3) 0) ∧ exec (.sadvto d a imm) s = .next (s.trapped 0x02 (s.detail6 3) 0)) ∧
    ∀ i, s.me.slotOf (sref d) = some i →
      exec (.sadv d a imm) s = .next (s.moved i (s.me.slots[i].adv ((s.me.getG a.r).toNat + imm.toNat))).done ∧
      ((s.me.slots[i].fibre = false ∨ s.me.slots[i].out = true) → exec (.sadvto d a imm) s = .next (s.trapped 0x02 (s.detail6 3) 0)) ∧
      (s.me.slots[i].inFibre = true →
        ∀ (key : Nat) (u : State),
          (s.me.prog = .key key ∧ u = s) ∨
            ((∀ y, s.me.prog ≠ .key y) ∧ key = (s.me.getG a.r + imm.signExtend 64).toNat % 2 ^ 32 ∧ u = s.upd fun t => { t with prog := .key key }) →
          (s.me.slots[i].left = 0 → exec (.sadvto d a imm) s = .next u.done) ∧
          ∀ e x, s.me.slots[i].nextIs e x →
            (key ≤ x → exec (.sadvto d a imm) s = .next u.done) ∧
            (x < key → s.unlocked s.me.slots[i] →
              let w := u.popped1 i
              exec (.sadvto d a imm) s = .next (w.walked (w.me.slots[i].left = 0 ∨ (w.me.slots[i].buf.head?.any fun f => decide (key ≤ f.x % 2 ^ 32)) = true))))) ∧
  (∀ (op : GReg → GSrc → Instr) (f : Word → Word) (d : GReg) (a : GSrc) (s : State) (i : Fin 8), Scalar1 op f →
    (s.me.slotG a.r = some i → s.plain [.g d] = true → s.me.slots[i].out = false → s.me.slots[i].isEmpty = false → 0 < s.me.slots[i].left → s.unlocked s.me.slots[i] →
      s.me.stackBad d (f s.me.slots[i].readG) = false →
      exec (op d a) s = .next ((s.upd fun t => t.setG d (f s.me.slots[i].readG)).moved i s.me.slots[i].popped).done) ∧
    (s.me.slotG d = some i → s.plain [.g a.r] = true → s.me.slots[i].out = true → s.me.slots[i].left = 0 → exec (op d a) s = .next s.done) ∧
    (s.me.slotG d = some i → s.plain [.g a.r] = true → s.me.slots[i].out = true → s.me.slots[i].fibre = false → 0 < s.me.slots[i].left →
      s.inSpad s.me.slots[i].addr s.me.slots[i].esize → s.me.ldnm = false →
      exec (op d a) s = .next (s.pushed i s.me.slots[i].esize (f (s.me.getG a.r))).done))

/-- R327, R329: SISECT ends where either fibre is at its end; else it consumes the element of the lower coordinate, or on equal coordinates both, after adding 1 to its register and giving the
pair of values to its output; it is issued again unless the walk has ended with it.
R328, R329: SMERGE ends where its output is exhausted or both inputs are at their ends; else it gives its output the next element and consumes it, and is issued again unless the walk has ended with it. Model's choices: log entry 36. -/
def Obligations.SisectSmerge : Prop :=
  (∀ (s : State) (d a b c : GReg) (i j : Fin 8), s.plain [.g d] = true → s.me.slotG a = some i → s.me.slotG b = some j →
    s.me.slots[i].inFibre = true → s.me.slots[j].inFibre = true → ∀ o : Option (Fin 8), (c = 0 → o = none) → (c ≠ 0 → o.isSome = true ∧ s.me.slotG c = o) →
    (∀ q, o = some q → s.me.slots[q].out = true) →
    let i' := exec (.sisect d a b c) s
    let go := fun (u : State) => u.walked (u.me.slots[i].left = 0 ∨ u.me.slots[j].left = 0)
    (s.me.slots[i].left = 0 ∨ s.me.slots[j].left = 0 → i' = .next s.done) ∧
    ∀ e f x y, s.me.slots[i].nextIs e x → s.me.slots[j].nextIs f y → s.unlocked s.me.slots[i] → s.unlocked s.me.slots[j] →
      (x < y → i' = .next (go (s.popped1 i))) ∧
      (y < x → i' = .next (go (s.popped1 j))) ∧
      (x = y → (i = j → min 2 s.me.slots[i].left ≤ s.me.slots[i].buf.length) → s.me.stackBad d (s.me.getG d + 1) = false → (∀ q, o = some q → s.takes q 4) →
        let u := s.upd fun t => t.setG d (t.getG d + 1)
        let w := match o with
          | none => u
          | some q => u.given q 4 (w64 (e.y % 2 ^ 32 * 2 ^ 32 + x))
        i' = .next (go ((w.popped1 i).popped1 j)))) ∧
  ∀ (s : State) (d a b : GReg) (o i j : Fin 8), s.me.slotG d = some o → s.me.slotG a = some i → s.me.slotG b = some j →
    s.me.slots[o].fibre = true → s.me.slots[o].out = true → s.me.slots[i].inFibre = true → s.me.slots[j].inFibre = true →
    let go := fun (u : State) => u.walked (u.me.slots[o].left = 0 ∨ (u.me.slots[i].left = 0 ∧ u.me.slots[j].left = 0))
    ((s.me.slots[o].left = 0 ∨ (s.me.slots[i].left = 0 ∧ s.me.slots[j].left = 0)) → exec (.smerge d a b) s = .next s.done) ∧
    (s.me.slots[o].left ≠ 0 → s.takes o 4 → s.unlocked s.me.slots[i] → s.unlocked s.me.slots[j] →
      (∀ e x, s.me.slots[i].nextIs e x → s.me.slots[j].left = 0 → exec (.smerge d a b) s = .next (go ((s.pushed o 4 (s.me.slots[i].value e)).popped1 i))) ∧
      (∀ f y, s.me.slots[i].left = 0 → s.me.slots[j].nextIs f y → exec (.smerge d a b) s = .next (go ((s.pushed o 4 (s.me.slots[j].value f)).popped1 j))) ∧
      ∀ e f x y, s.me.slots[i].nextIs e x → s.me.slots[j].nextIs f y →
        (x < y → exec (.smerge d a b) s = .next (go ((s.pushed o 4 (s.me.slots[i].value e)).popped1 i))) ∧
        (y < x → exec (.smerge d a b) s = .next (go ((s.pushed o 4 (s.me.slots[j].value f)).popped1 j))) ∧
        (x = y → (i = j → min 2 s.me.slots[i].left ≤ s.me.slots[i].buf.length) →
          exec (.smerge d a b) s = .next (go (((s.pushed o 4 (s.me.slots[i].value e)).popped1 i).popped1 j))))

/-- R331 to R338, R347, R348: the elementwise forms: every active element takes its lane result, every inactive one keeps its value, and the flags of the active lanes are in FFLAGS after the latency of the form. Results within bounds: log entry 8. -/
def Obligations.VectorLanes : Prop :=
  (∀ (op : VReg → VSrc → VSrc → VType → Option PReg → Instr) (rd : Bool) (f : VType → FMode → Nat → Nat → Nat → Nat × Flags) (lat : Nat) (d : VReg) (a b : VSrc) (ty : VType) (pr : Option PReg)
      (s : State), VecOp2 op rd f lat → (op d a b ty pr).wf = true → s.plain [.v a.r, .v b.r, .v d] = true →
    let e := fun (r : VReg) (i : Nat) => elem ty.width (s.me.getV r) i
    let r := fun i => f ty s.me.mode (e a.r i) (e b.r i) (e d i)
    ∃ x : VWord, (∀ i, i < ty.count → elem ty.width x i = if s.me.active pr i then (r i).1 % 2 ^ ty.width else e d i) ∧
      exec (op d a b ty pr) s = .next (s.vectored d x (laneFlags (s.me.lanesOn ty pr) r) lat)) ∧
  ∀ (op : VReg → VSrc → VType → Option PReg → Instr) (f : VType → FMode → Nat → Nat × Flags) (lat : Nat) (d : VReg) (a : VSrc) (ty : VType) (pr : Option PReg) (s : State),
    VecOp1 op f lat → (op d a ty pr).wf = true → s.plain [.v a.r, .v d] = true →
    let e := fun (r : VReg) (i : Nat) => elem ty.width (s.me.getV r) i
    let r := fun i => f ty s.me.mode (e a.r i)
    ∃ x : VWord, (∀ i, i < ty.count → elem ty.width x i = if s.me.active pr i then (r i).1 % 2 ^ ty.width else e d i) ∧
      exec (op d a ty pr) s = .next (s.vectored d x (laneFlags (s.me.lanesOn ty pr) r) lat)

/-- R339 to R341: VSEL, VBCAST, VPERM, VINS, VROT, VCOMPRESS and VEXPAND move elements and raise no flag. -/
def Obligations.VectorMoves : Prop :=
  ∀ (s : State) (d : VReg) (a b : VSrc) (g h : GSrc) (ty : VType) (pr : Option PReg) (p : PReg), s.plain [.v a.r, .v b.r, .g g.r, .g h.r, .v d] = true →
    let n := ty.count
    let e := fun (r : VReg) (i : Nat) => elem ty.width (s.me.getV r) i
    let low := fun (r : GReg) => (s.me.getG r).toNat % 2 ^ ty.width
    let done := fun (x : VWord) => (s.upd fun t => t.setV d x).done
    (∃ x, (∀ i, i < n → elem ty.width x i = if s.me.active (some p) i then e a.r i else e b.r i) ∧ exec (.vsel d a b ty p) s = .next (done x)) ∧
    (∃ x, (∀ i, i < n → elem ty.width x i = if s.me.active pr i then low g.r else e d i) ∧ exec (.vbcast d g ty pr) s = .next (s.vectored d x 0)) ∧
    (∃ x, (∀ i, i < n → elem ty.width x i = if s.me.active pr i then e a.r (e b.r i % n) else e d i) ∧ exec (.vperm d a b ty pr) s = .next (s.vectored d x 0)) ∧
    (∃ x, (∀ i, i < n → elem ty.width x i = if i = (s.me.getG h.r).toNat % n then low g.r else e d i) ∧ exec (.vins d g h ty) s = .next (done x)) ∧
    (∃ x, (∀ i, i < n → elem ty.width x i = e a.r ((i + (s.me.getG g.r).toNat) % n)) ∧ exec (.vrot d a g ty) s = .next (done x)) ∧
    (∃ x, (∀ i, i < n → elem ty.width x i = (((s.me.lanesOn ty (some p))[i]?).map (e a.r)).getD 0) ∧ exec (.vcompress d a ty p) s = .next (done x)) ∧
    ∃ x, (∀ i, i < n → elem ty.width x i = if s.me.active (some p) i then e a.r ((List.range i).countP fun j => s.me.active (some p) j) else 0) ∧
      exec (.vexpand d a ty p) s = .next (done x)

/-- R339, R340, R343: the vector forms that write a g register or a mask: VEXTR, VCMP and the reductions of INT types, which raise no flag.
R343, R164: the reductions of FLT types: VREDADD sums by the tree, an inactive lane counting as negative zero; VREDMIN and VREDMAX run in lane order from the infinity that loses. -/
def Obligations.VectorToScalar : Prop :=
  (∀ (s : State) (a b : VSrc) (ty : VType) (pr : Option PReg), s.plain [.v a.r, .v b.r] = true →
     let e := fun (r : VReg) (i : Nat) => elem ty.width (s.me.getV r) i
     (∀ (d : GReg) (g : GSrc), s.plain [.g d, .g g.r] = true →
       let x := e a.r ((s.me.getG g.r).toNat % ty.count)
       let y := if ty.signed then sext64 x ty.width else BitVec.ofNat 64 x
       s.me.stackBad d y = false → exec (.vextr d a g ty) s = .next (s.upd fun t => t.setG d y).done) ∧
     (∀ (d : MOpd) (cc : VCond), s.masksFree [d] →
       ∃ x : Mask, (∀ i, i < 256 → x.getLsbD i = (decide (i < ty.count) && s.me.active pr i && (vcond ty cc (e a.r i) (e b.r i)).1)) ∧
         exec (.vcmp d a b cc ty pr) s = .next ((s.upd fun t => t.putM d (if d = .m 0 then t.bounded x else x)).flagged
           (laneFlags (s.me.lanesOn ty pr) fun i => (0, (vcond ty cc (e a.r i) (e b.r i)).2)) 3).done) ∧
     ∀ (op : GReg → VSrc → VType → Option PReg → Instr) (f : VType → List Nat → Word) (d : GReg), RedInt op f → ty.isInt = true → s.plain [.g d] = true →
       let y := f ty ((s.me.lanesOn ty pr).map (e a.r))
       s.me.stackBad d y = false → exec (op d a ty pr) s = .next (s.upd fun t => t.setG d y).done) ∧
  (∀ (s : State) (d : GReg) (a : VSrc) (ty : VType) (pr : Option PReg) (F : FF), ty.ff = some F → s.plain [.v a.r, .g d] = true →
     let l := (List.range ty.count).map fun i => (elem ty.width (s.me.getV a.r) i, s.me.active pr i)
     let done := fun (r : Nat × Flags) => ((s.upd fun t => t.setG d (BitVec.ofNat 64 r.1)).flagged r.2 8).done
     let sum := treeSum F s.me.mode.rne (Nat.log2 ty.count) (l.map fun e => if e.2 then e.1 else F.sgn true)
     let lo := foldF (fMin F s.me.mode) (F.inf false) l
     let hi := foldF (fMax F s.me.mode) (F.inf true) l
     (s.me.stackBad d (BitVec.ofNat 64 sum.1) = false → exec (.vredadd d a ty pr) s = .next (done sum)) ∧
     (s.me.stackBad d (BitVec.ofNat 64 lo.1) = false → exec (.vredmin d a ty pr) s = .next (done lo)) ∧
     (s.me.stackBad d (BitVec.ofNat 64 hi.1) = false → exec (.vredmax d a ty pr) s = .next (done hi)))

/-- R342, R344 to R346: VCVT converts element by element into its part; VSCAN gives the running results of the active elements; VSORT gives the active elements in order, then zeros; VDOT4 adds four products to a
lane. Model's choices: log entry 41. -/
def Obligations.VectorConvertScanSort : Prop :=
  ∀ (s : State) (d : VReg) (a b : VSrc) (ty : VType) (pr : Option PReg), s.plain [.v a.r, .v b.r, .v d] = true →
    (∀ (dt : VType) (part : BitVec 2) (sat : Bool), dt.width ≤ ty.width → part.toNat < ty.width / dt.width →
      let m := 1024 / ty.width
      let cv := fun i => cvtElem ty dt s.me.mode.rm sat (elem ty.width (s.me.getV a.r) i)
      ∃ x : VWord, (∀ j, j < dt.count → elem dt.width x j =
          if m * part.toNat ≤ j ∧ j < m * part.toNat + m ∧ s.me.active pr (j - m * part.toNat) = true then (cv (j - m * part.toNat)).1 % 2 ^ dt.width
          else elem dt.width (s.me.getV d) j) ∧
        exec (.vcvt d a dt ty part sat pr) s = .next (s.vectored d x (laneFlags ((List.range m).filter fun i => s.me.active pr i) cv))) ∧
    (∀ (dt : VType) (part : BitVec 2) (sat : Bool), ty.width < dt.width → part.toNat < dt.width / ty.width →
      let m := 1024 / dt.width
      let cv := fun i => cvtElem ty dt s.me.mode.rm sat (elem ty.width (s.me.getV a.r) (m * part.toNat + i))
      ∃ x : VWord, (∀ j, j < dt.count → elem dt.width x j = if s.me.active pr j then (cv j).1 % 2 ^ dt.width else elem dt.width (s.me.getV d) j) ∧
        exec (.vcvt d a dt ty part sat pr) s = .next (s.vectored d x (laneFlags (s.me.lanesOn dt pr) cv))) ∧
    (∀ sop : ScanOp,
      let op := scanOp sop ty s.me.mode
      let step := fun (p : Nat × Flags) (i : Nat) =>
        let r := op.2 p.1 (if s.me.active pr i then elem ty.width (s.me.getV a.r) i else op.1)
        (r.1, p.2 ||| r.2)
      ∃ x : VWord, (∀ i, i < ty.count → elem ty.width x i =
          if s.me.active pr i then ((List.range (i + 1)).foldl step (op.1, 0)).1 % 2 ^ ty.width else elem ty.width (s.me.getV d) i) ∧
        exec (.vscan d a sop ty pr) s = .next (s.vectored d x ((List.range ty.count).foldl step (op.1, 0)).2 12)) ∧
    (∀ ord : SortOrd, ∃ l : List Nat, l.Perm ((s.me.lanesOn ty pr).map fun i => elem ty.width (s.me.getV a.r) i) ∧
      l.Pairwise (fun p q => match ord with
        | .asc => sortKey ty p ≤ sortKey ty q
        | .desc => sortKey ty q ≤ sortKey ty p) ∧
      exec (.vsort d a ord ty pr) s = .next (s.upd fun t => t.setV d (ofElems ty.width l)).done) ∧
    (ty.isDot = true →
      let xs := fun (r : VReg) (i : Nat) => (List.range 4).map fun j => elem 8 (s.me.getV r) (4 * i + j)
      let acc := fun (i : Nat) => elem 32 (s.me.getV d) i
      let r : Nat → Nat × Flags := fun i => match ty.ff with
        | some F => dot4F F s.me.mode (xs a.r i) (xs b.r i) (acc i)
        | none => ((((acc i : Int) + (((xs a.r i).zip (xs b.r i)).map fun (p : Nat × Nat) => vInt ty p.1 * vInt ty p.2).sum) % 2 ^ 32).toNat, 0)
      ∃ x : VWord, (∀ i, i < 32 → elem 32 x i = if s.me.active pr i then (r i).1 % 2 ^ 32 else acc i) ∧
        exec (.vdot4 d a b ty pr) s = .next (s.vectored d x (laneFlags ((List.range 32).filter fun i => s.me.active pr i) r)))

/-- R349, R350: BCENC writes a block and its length in words; BCDEC of a length outside 6 to 14 gives NaNs and raises NV, and else the values that its block codes. Model's choices: log entry 41. -/
def Obligations.BlockCodes : Prop :=
  ∀ (s : State) (d : VReg) (a : VSrc) (c : GReg) (b : GSrc) (ty : VType), s.plain [.v a.r, .g b.r, .g c, .v d] = true →
    let codes := (List.range 32).map fun i => elem 32 (s.me.getV a.r) i
    let r := bcEncode codes
    (s.me.stackBad c (BitVec.ofNat 64 r.2.1) = false →
      exec (.bcenc d a c ty) s = .next (State.vectored (s.upd fun t => t.setG c (BitVec.ofNat 64 r.2.1)) d (BitVec.ofNat 1024 r.1) r.2.2 (bcencCycles codes))) ∧
    ((s.me.getG b.r).toNat < 6 ∨ 14 < (s.me.getG b.r).toNat → exec (.bcdec d a b ty) s = .next (s.vectored d (ofElems 32 (List.replicate 32 0x7FC00000)) fNV 8)) ∧
    (6 ≤ (s.me.getG b.r).toNat → (s.me.getG b.r).toNat ≤ 14 → ∀ vs, bcDecode (s.me.getV a.r).toNat (s.me.getG b.r).toNat = .ok vs →
      exec (.bcdec d a b ty) s = .next (s.vectored d (ofElems 32 (vs.map fun v => (FF.f32.put ⟨.rne, false⟩ false v).1))
        (flagsOf (vs.map (FF.f32.put ⟨.rne, false⟩ false))) 8)) ∧
    (6 ≤ (s.me.getG b.r).toNat → (s.me.getG b.r).toNat ≤ 14 → bcDecode (s.me.getV a.r).toNat (s.me.getG b.r).toNat = .allNan →
      exec (.bcdec d a b ty) s = .next (s.vectored d (ofElems 32 (List.replicate 32 0x7FC00000)) 0 8)) ∧
    (6 ≤ (s.me.getG b.r).toNat → (s.me.getG b.r).toNat ≤ 14 → bcDecode (s.me.getV a.r).toNat (s.me.getG b.r).toNat = .bad →
      exec (.bcdec d a b ty) s = .next (s.vectored d (ofElems 32 (List.replicate 32 0x7FC00000)) fNV 8))

/-! ## Matrix unit -/

/-- R353 to R365, R367: MXCFG installs a format block that R355 and R356 accept, 2 cycles after its load has completed, and any other is illegal; MXMM, MXMMS and MXST without one are illegal; MXMM, MXMMS, MXZERO, MXLD and MXST translate and check their operands at
issue, after a wait for the walks of their pages (R175), and then stand in their octet's MXU with their tile empty; MXWAIT completes once its tile is full. Model's choices: log entry 37. -/
def Obligations.MxuIssue : Prop :=
  ∀ s : State,
    (∀ a : GSrc, s.plain [.g a.r] = true → s.inSpad (s.me.getG a.r) 64 → (s.me.getG a.r).toNat % 64 = 0 → s.me.stackFits (a.r == 62) (s.me.getG a.r) 64 →
      let f := recordOf (s.spadRead (s.me.getG a.r) 64)
      let n := s.latencyOf s.act 0 (s.spadPlaces (s.me.getG a.r) 64) + s.cyc s.act 2
      (fmtOk f = true → exec (.mxcfg a) s =
        .next ((s.modCore s.act fun c => (c.now s.time).install (s.time + n) f).busyFor n).done ∧
        ((s.modCore s.act fun c => (c.now s.time).install (s.time + n) f).home.now (s.time + n)).fmt = f ∧
        ((s.modCore s.act fun c => (c.now s.time).install (s.time + n) f).home.now (s.time + n)).cfgv = true ∧
        (0 < n → ((s.modCore s.act fun c => (c.now s.time).install (s.time + n) f).home.now s.time).fmt = (s.home.now s.time).fmt)) ∧
      (fmtOk f = false → exec (.mxcfg a) s = .next (s.trapped 0x02 (s.detail6 5) 0))) ∧
    (∀ (d : ZReg) (a b : GSrc) (k : BitVec 4), s.plain [.g a.r, .g b.r, .z d] = true →
      let run := s.operands (some a.r) b.r (k.toNat + 1)
      let home := s.home.now s.time
      (home.cfgv = false → exec (.mxmm d a b k) s = .next (s.trapped 0x02 (s.detail6 5) 0)) ∧
      (home.cfgv = true → ∀ e s1, run = .ok (.error e, s1) → exec (.mxmm d a b k) s = .next (s.takeTrap s.act s.actx e.2).issued) ∧
      (home.cfgv = true → ∀ j n va, run = .error (.waitFor j n va) → exec (.mxmm d a b k) s = .next (s.askWalk s.act s.actx j n va).holding) ∧
      (home.cfgv = true → ∀ pg ab bb s1, run = .ok (.ok (pg, ab, bb), s1) → s1.pagesFree pg →
        exec (.mxmm d a b k) s =
          .next (s1.mxIssued { baseOp s1 .mm d with a := s.me.getG a.r, b := s.me.getG b.r, k := k.toNat + 1, pages := pg, ablk := ab, bblk := bb }).done)) ∧
    (∀ (d : ZReg) (a b c : VSrc) (e : GSrc) (slab : BitVec 2), s.plain [.v a.r, .v b.r, .v c.r, .g e.r, .z d] = true →
      let i := Instr.mxmms d a b c e slab
      let run := s.operands none e.r 1
      let home := s.home.now s.time
      (home.cfgv = false ∨ aFmt home.fmt = 0 ∨ aFmt home.fmt = 3 → exec i s = .next (s.trapped 0x02 (s.detail6 5) 0)) ∧
      (home.cfgv = true → aFmt home.fmt ≠ 0 → aFmt home.fmt ≠ 3 →
        (∀ f s1, run = .ok (.error f, s1) → exec i s = .next (s.takeTrap s.act s.actx f.2).issued) ∧ ∀ j n va, run = .error (.waitFor j n va) → exec i s = .next (s.askWalk s.act s.actx j n va).holding) ∧
      (home.cfgv = true → aFmt home.fmt ≠ 0 → aFmt home.fmt ≠ 3 → ∀ pg ab bb s1, run = .ok (.ok (pg, ab, bb), s1) →
        (∀ m, badMeta (s.me.getV c.r) = some m → exec i s = .next (s.trapped 0x12 (BitVec.ofNat 64 (m.2 * 16 + m.1)) 0)) ∧
        (badMeta (s.me.getV c.r) = none → s1.pagesFree pg →
          exec i s = .next (s1.mxIssued { baseOp s1 .mms d with
            b := s.me.getG e.r, k := slab.toNat, va := s.me.getV a.r, vb := s.me.getV b.r, vc := s.me.getV c.r, pages := pg, bblk := bb }).done))) ∧
    (∀ d : ZReg, s.plain [.z d] = true → exec (.mxzero d) s = .next (s.mxIssued (baseOp s .zero d)).done ∧ exec (.mxwait d) s = .next s.done) ∧
    (∀ d : ZReg, s.home.tiles[d].full = false → exec (.mxwait d) s = .next s.holding ∧ exec (.mxzero d) s = .next s.holding) ∧
    (∀ (d : ZReg) (a b : GSrc), s.plain [.g a.r, .g b.r, .z d] = true →
      (∀ pg s1, s.tileRows a.r (s.me.getG b.r) 4 false = .ok (.ok pg, s1) → s1.pagesFree pg →
        exec (.mxld d a b) s = .next (s1.mxIssued { baseOp s1 .ld d with a := s.me.getG a.r, b := s.me.getG b.r, pages := pg }).done) ∧
      (∀ e s1, s.tileRows a.r (s.me.getG b.r) 4 false = .ok (.error e, s1) → exec (.mxld d a b) s = .next (s.takeTrap s.act s.actx e.2).issued) ∧
      ∀ j n va, s.tileRows a.r (s.me.getG b.r) 4 false = .error (.waitFor j n va) → exec (.mxld d a b) s = .next (s.askWalk s.act s.actx j n va).holding) ∧
    ∀ (a b : GSrc) (c : ZSrc) (sat : Bool) (ty : VType),
      let i := Instr.mxst a b c sat ty
      let home := s.home.now s.time
      let run := s.tileRows a.r (s.me.getG b.r) (ty.width / 8) true
      (home.cfgv = true → storeTypeOk (accInt home.fmt) ty = false → exec i s = .next (s.trapped 0x02 (BitVec.ofNat 64 (s.head * 2 ^ 48 + 3)) 0)) ∧
      (s.plain [.g a.r, .g b.r, .z c.r] = true → home.cfgv = false → exec i s = .next (s.trapped 0x02 (s.detail6 5) 0)) ∧
      (s.plain [.g a.r, .g b.r, .z c.r] = true → home.cfgv = true → storeTypeOk (accInt home.fmt) ty = true →
        (∀ e s1, run = .ok (.error e, s1) → exec i s = .next (s.takeTrap s.act s.actx e.2).issued) ∧
        (∀ j n va, run = .error (.waitFor j n va) → exec i s = .next (s.askWalk s.act s.actx j n va).holding) ∧
        ∀ pg s1, run = .ok (.ok pg, s1) → (s.me.ldnm = true → exec i s = .next s.holding) ∧
          (s.me.ldnm = false → s1.pagesFree pg →
            exec i s = .next (s1.mxIssued { baseOp s1 .st c.r with a := s.me.getG a.r, b := s.me.getG b.r, ty := ty, sat := sat, pages := pg }).done))

/-- R363, R366, R368: ZRD reads a half row and ZWR replaces one, as long-latency producers; MXPRUNE keeps, of every eight bytes of a quarter, the four of the largest magnitude, of equal ones the lower, with their indices in
ascending order; MXREM releases and sends its block to the octet that it names. Model's choices: log entry 37. -/
def Obligations.TileResult : Prop :=
  ∀ s : State,
    (∀ (d : VReg) (a : ZSrc) (b : GSrc), s.plain [.z a.r, .g b.r, .v d] = true →
      exec (.zrd d a b) s = .next (s.produced (s.cyc s.act 10) false [.v d (halfRow s.home.tiles[a.r] ((s.me.getG b.r).toNat % 128))] 0
        (if s.home.tbad.getLsbD a.r.val then some 0 else none)).done) ∧
    (∀ (d : ZReg) (a : VSrc) (b : GSrc), s.plain [.v a.r, .g b.r, .z d] = true →
      let x := (s.me.getG b.r).toNat % 128
      let n := s.cyc s.act 6
      exec (.zwr d a b) s = .next (((s.modCore s.act fun c => { c with tiles := c.tiles.set d { c.tiles[d] with full := false } }).upd fun t =>
        { t with prods := t.prods ++ [⟨[], 0, none, false, false, s.time + n, some (d, x, s.me.getV a.r), false, none⟩] }).postIn n ⟨.producerComplete, [s.act, s.actx.val]⟩).done) ∧
    (∀ (t : Tile) (x : Nat) (v : VWord), x < 128 →
      (t.putHalf x v).full = true ∧ halfRow (t.putHalf x v) x = v ∧ ∀ y, y < 128 → y ≠ x → halfRow (t.putHalf x v) y = halfRow t y) ∧
    (∀ (d : VReg) (a b : VSrc) (q : BitVec 2), s.plain [.v a.r, .v b.r, .v d] = true →
      ∃ (x y : VWord) (i : Nat → Nat → Nat → Nat),
        (∀ row g, row < 4 → g < 4 →
          i row g 0 < i row g 1 ∧ i row g 1 < i row g 2 ∧ i row g 2 < i row g 3 ∧ i row g 3 < 8 ∧
          (∀ j p, j < 8 → (∀ p, p < 4 → j ≠ i row g p) → p < 4 →
            pruneMag (s.me.getV b.r) row g j < pruneMag (s.me.getV b.r) row g (i row g p) ∨
            (pruneMag (s.me.getV b.r) row g j = pruneMag (s.me.getV b.r) row g (i row g p) ∧ i row g p < j)) ∧
          ∀ p, p < 4 → elem 8 x (64 * (q.toNat % 2) + 16 * row + 4 * g + p) = elem 8 (s.me.getV b.r) (32 * row + 8 * g + i row g p) ∧
            keptIndex y (4 * q.toNat + row) g p = i row g p) ∧
        (∀ j, j < 128 → j / 64 ≠ q.toNat % 2 → elem 8 x j = elem 8 (s.me.getV d) j) ∧
        (∀ j, j < 1024 → (j < 192 * q.toNat ∨ 192 * q.toNat + 192 ≤ j) → y.getLsbD j = (s.me.getV a.r).getLsbD j) ∧
        exec (.mxprune d a b q) s = .next ((s.upd fun t => t.setV d x).upd fun t => t.setV a.r y).done) ∧
    ∀ a : GSrc, s.plain [.g a.r] = true → s.inSpad (s.me.getG a.r) 128 → (s.me.getG a.r).toNat % 128 = 0 → s.me.stackFits (a.r == 62) (s.me.getG a.r) 128 →
      let r : Remote := ⟨vecOf 16 fun i => BitVec.ofNat 64 (s.spadRead (s.me.getG a.r + BitVec.ofNat 64 (8 * i)) 8), s.me.asid, s.me.priv, s.act⟩
      let o := (r.blk[1]).toNat % 1024 % 768
      let u := s.siFlush s.act
      (s.me.ldnm = false → s.pairsOut s.act s.actx.val = false →
        exec (.mxrem a) s = .next (((u.busyFor (s.latencyOf s.act 0 (s.spadPlaces (s.me.getG a.r) 128))).modOctet o fun q => { q with arriving := q.arriving ++ [r] }).postMore ⟨.mxremCommandArrival, [o]⟩).done) ∧
      (s.me.ldnm = true ∨ s.pairsOut s.act s.actx.val = true → exec (.mxrem a) s = .next s.holding)

/-! ## Copy engines -/

/-- R372 to R381, R384 to R386, R408: an engine command with its block in scratchpad writes 1 where its tag is not Idle, 2 where its block is refused, waits where its locks or arrivals have no room, where an earlier LDNM or pair is on its way, and for the home or the walk of its OFFS, and else writes 0 and starts; CPYWAIT, CPYST
and CPYRES read and resume a tag. Model's choices: log entry 28. -/
def Obligations.EngineResult : Prop :=
  (∀ (op : GReg → GSrc → BitVec 6 → EngMode → Instr) (sel : Nat) (d : GReg) (a : GSrc) (tag : BitVec 6) (md : EngMode) (s : State), EngineOp op sel →
    s.plain [.g a.r, .g d] = true → s.inSpad (s.me.getG a.r) 64 → (s.me.getG a.r).toNat % 64 = 0 → s.me.stackFits (a.r == 62) (s.me.getG a.r) 64 →
    s.me.stackBad d 0 = false → s.me.stackBad d 1 = false → s.me.stackBad d 2 = false →
    let c : Cmd := ⟨sel, s.actx.val, s.me.asid, s.me.priv, recordOf (s.spadRead (s.me.getG a.r) 64), md, tag.toNat⟩
    let u := s.busyFor (s.latencyOf s.act 0 (s.spadPlaces (s.me.getG a.r) 64))
    ((s.tag s.act tag.toNat).st ≠ .idle → exec (op d a tag md) s = .next (u.upd fun t => t.setG d 1).done) ∧
    (∀ e : CopyFail, (s.tag s.act tag.toNat).st = .idle → u.bagIndices none s.act c = .error e →
      exec (op d a tag md) s = .next (if e.1 = 0 then (s.askWalk s.act s.actx (e.2.1 / 4096) (e.2.1 % 4096) e.2.2.toNat).holding else s.holding)) ∧
    ∀ n : Nat × List (Nat × Nat), u.bagIndices none s.act c = .ok n →
    ((s.tag s.act tag.toNat).st = .idle → c.ok (logical s.act) n.1 = false → exec (op d a tag md) s = .next (u.upd fun t => t.setG d 2).done) ∧
    ((s.tag s.act tag.toNat).st = .idle → c.ok (logical s.act) n.1 = true →
      s.canStart s.act s.actx.val c (c.srcExt n.1) (c.dstExt (logical s.act)) = false → exec (op d a tag md) s = .next s.holding) ∧
    ((s.tag s.act tag.toNat).st = .idle → c.ok (logical s.act) n.1 = true →
      s.canStart s.act s.actx.val c (c.srcExt n.1) (c.dstExt (logical s.act)) = true →
      exec (op d a tag md) s =
        .next (State.startCmd (u.upd fun t => t.setG d 0) s.act tag.toNat c (c.srcExt n.1) (c.dstExt (logical s.act)) n.2).done)) ∧
  ∀ (s : State) (d : GReg) (tag : BitVec 6) (vis : Bool), s.plain [.g d] = true → s.me.stackBad d 0 = false → s.me.stackBad d 1 = false →
    let t := s.tag s.act tag.toNat
    let write := fun (u : State) (x : Word) => u.upd fun t => t.setG d x
    (t.st = .stopped → exec (.cpywait d tag vis) s = .next (write s 1).done) ∧
    (t.st = .busy ∨ (t.st = .srcDone ∧ vis = true) → exec (.cpywait d tag vis) s = .next s.holding) ∧
    (t.st = .srcDone → vis = false → exec (.cpywait d tag vis) s = .next (write s 0).done) ∧
    (t.st = .idle → vis = false → exec (.cpywait d tag vis) s = .next (write s 0).done) ∧
    (t.st = .idle → vis = true →
      exec (.cpywait d tag vis) s = .next ((write s 0).acquire s.act s.actx (s.visScope s.act t.cmd).wide).done) ∧
    (s.me.stackBad d t.word = false → exec (.cpyst d tag) s = .next (s.produced (s.cyc s.act 1) false [.g d t.word] 0 none).done) ∧
    (s.me.priv = 0 → exec (.cpyres d tag) s = .next (s.trapped 0x04 (BitVec.ofNat 64 s.head) 0)) ∧
    (1 ≤ s.me.priv → t.st ≠ .stopped → exec (.cpyres d tag) s = .next (write s 1).done) ∧
    ∀ c, 1 ≤ s.me.priv → t.st = .stopped → t.cmd = some c → exec (.cpyres d tag) s = .next (State.resume (write s 0) s.act tag.toNat c).done

/-! ## Halyard channels -/

/-- R388 to R392: BARR releases at the level of its channel and arrives, and waits while two arrivals of its member are outstanding, and, its arrival known to be still to be made (R465), for its release; BARRD arrives when the tags of its mask have fired; BWAIT and BWANY acquire once the phase is complete; BDOM at S
installs a legal domain with no arrival. Model's choices: log entry 29. -/
def Obligations.BarrierResult : Prop :=
  ∀ (s : State) (d : BReg) (a : GSrc),
    let x := s.me.getG a.r
    let m := (s.home.chans[d]).member s.actx.val
    let tags := (List.range 64).filter fun i => x.getLsbD i && s.home.tags[Fin.ofNat 64 i].st != .idle
    (2 ≤ s.home.outstanding d.val s.actx.val → exec (.barr d) s = .next s.holding ∧ (s.plain [.g a.r] = true → exec (.barrd d a) s = .next s.holding)) ∧
    (s.home.outstanding d.val s.actx.val < 2 → s.me.ldnm = true ∨ s.pairsOut s.act s.actx.val = true →
      exec (.barr d) s = .next (s.waiting (.barr d.val)) ∧ (s.plain [.g a.r] = true → exec (.barrd d a) s = .next (s.waiting (.barr d.val)))) ∧
    (s.home.outstanding d.val s.actx.val < 2 → s.me.ldnm = false → s.pairsOut s.act s.actx.val = false →
      exec (.barr d) s = .next ((s.releasedAt (s.levelOf d)).arrive s.act d.val m).done ∧
      (s.plain [.g a.r] = true →
        (tags = [] → exec (.barrd d a) s = .next ((s.releasedAt (s.levelOf d)).arrive s.act d.val m).done) ∧
        (tags ≠ [] → exec (.barrd d a) s = .next ((s.releasedAt (s.levelOf d)).modCore s.act fun y => { y with deferred := y.deferred ++ [⟨d.val, m, tags⟩] }).done))) ∧
    (s.home.outstanding d.val s.actx.val = 0 → exec (.bwait d) s = .next (s.acquire s.act s.actx (s.levelOf d).wide).done) ∧
    (s.home.outstanding d.val s.actx.val ≠ 0 → exec (.bwait d) s = .next s.holding) ∧
    (∀ g : GReg, s.plain [.g a.r, .g g] = true →
      (x.toNat % 256 = 0 → s.me.stackBad g (BitVec.allOnes 64) = false → exec (.bwany g a) s = .next (s.upd fun t => t.setG g (BitVec.allOnes 64)).done) ∧
      (x.toNat % 256 ≠ 0 → s.nextComplete x = none → exec (.bwany g a) s = .next s.holding) ∧
      ∀ i, x.toNat % 256 ≠ 0 → s.nextComplete x = some i → s.me.stackBad g (BitVec.ofNat 64 i) = false →
        exec (.bwany g a) s = .next (((s.upd fun t => t.setG g (BitVec.ofNat 64 i)).modCore s.act fun y => { y with bptr := BitVec.ofNat 3 (i + 1) }).acquire
          s.act s.actx (scopeOf (s.home.chans[Fin.ofNat 8 i]).level).wide).done) ∧
    (s.me.priv = 0 → exec (.bdom d a) s = .next (s.trapped 0x04 (BitVec.ofNat 64 s.head) 0)) ∧
    (1 ≤ s.me.priv → s.plain [.g a.r] = true → s.inSpad x 32 → x.toNat % 32 = 0 → s.me.stackFits (a.r == 62) x 32 →
      let d0 := BitVec.ofNat 64 (s.spadRead x 8)
      let mask := s.spadRead (x + 8) 24
      (domainOk d0 mask = false → exec (.bdom d a) s = .next (s.trapped 0x02 (s.detail6 6) 0)) ∧
      (domainOk d0 mask = true → exec (.bdom d a) s = .next (s.modCore s.act fun c => { c with
        chans := c.chans.set d ⟨d0, BitVec.ofNat 192 mask, [], 0, 0, [], []⟩, deferred := c.deferred.filter fun e => e.ch != d.val }).done))

/-! ## Mutexes, semaphores, queues -/

/-- R393 to R395: MTXLK takes a free mutex whose turn it is and MTXUL gives its own back; SEMP takes one from a count that is not 0 and SEMV adds one, but at 65,535 leaves the count and wakes no WFI (R416); contexts wait in the order of their first attempt; QCFG configures a
queue, puts an entry and takes the oldest. That QCFG.SET takes no notice of the bits that are to be 0: log entry 16. -/
def Obligations.SyncResult : Prop :=
  ∀ (s : State) (n : BitVec 3) (q : BitVec 4) (a : GSrc) (d : GReg),
    let i : Fin 8 := Fin.ofNat 8 n.toNat
    let x := s.actx.val
    let m := s.home.mtx[i]
    let e := s.home.sem[i]
    let j : Fin 16 := Fin.ofNat 16 q.toNat
    let y := s.home.qs[j]
    let setM := fun (v : Mutex) => s.modCore s.act fun c => { c with mtx := c.mtx.set i v }
    let setS := fun (v : Sem) => s.modCore s.act fun c => { c with sem := c.sem.set i v }
    let setQ := fun (v : Queue) => s.modCore s.act fun c => { c with qs := c.qs.set j v }
    (m.owner = some x → exec (.mtxlk n) s = .next s.done ∧ exec (.mtxul n) s = .next ((setM { m with owner := none }).wake s.act fun _ => true).done) ∧
    (m.owner ≠ some x → exec (.mtxul n) s = .next s.done) ∧
    (m.owner = none → (m.waiters = [] ∨ m.waiters.head? = some x) → exec (.mtxlk n) s = .next (setM ⟨some x, m.waiters.erase x⟩).done) ∧
    (m.owner ≠ some x → (m.owner ≠ none ∨ (m.waiters ≠ [] ∧ m.waiters.head? ≠ some x)) →
      exec (.mtxlk n) s = .next (setM { m with waiters := queued m.waiters x }).holding) ∧
    (e.count ≠ 0 → (e.waiters = [] ∨ e.waiters.head? = some x) → exec (.semp n) s = .next (setS ⟨e.count - 1, e.waiters.erase x⟩).done) ∧
    (e.count = 0 ∨ (e.waiters ≠ [] ∧ e.waiters.head? ≠ some x) → exec (.semp n) s = .next (setS { e with waiters := queued e.waiters x }).holding) ∧
    (e.count ≠ 65535 → exec (.semv n) s = .next ((setS { e with count := e.count + 1 }).wake s.act fun _ => true).done) ∧
    (e.count = 65535 → exec (.semv n) s = .next s.done) ∧
    (s.plain [.g a.r] = true →
      let w := s.me.getG a.r
      exec (.qcfgSet a q) s = .next ((setQ ⟨w.toNat % 4, w.toNat / 16 % 16, w.toNat / 256 % 16, []⟩).offerPackets s.act).done ∧
      ((y.kind = 1 ∨ y.kind = 2) → y.writer = x → 8 ≤ y.ents.length → exec (.qcfgPut a q) s = .next s.holding) ∧
      (y.kind = 1 → y.writer = x → y.ents.length < 8 →
        exec (.qcfgPut a q) s = .next ((setQ { y with ents := y.ents ++ [w] }).wake s.act fun z => z.val == y.reader).done) ∧
      (y.kind = 2 → y.writer = x → y.ents.length < 8 →
        exec (.qcfgPut a q) s = .next ((setQ { y with ents := y.ents ++ [w] }).post ⟨.engineDoorbell, [s.act, j.val]⟩).done) ∧
      ((y.kind ≠ 1 ∧ y.kind ≠ 2) ∨ y.writer ≠ x → exec (.qcfgPut a q) s = .next (s.trapped 0x02 (s.detail6 8) 0))) ∧
    (s.plain [.g d] = true →
      ((y.kind ≠ 1 ∧ y.kind ≠ 3) ∨ y.reader ≠ x → exec (.qcfgGet d q) s = .next (s.trapped 0x02 (s.detail6 8) 0)) ∧
      ((y.kind = 1 ∨ y.kind = 3) → y.reader = x → y.ents = [] → exec (.qcfgGet d q) s = .next s.holding) ∧
      ∀ w rest, (y.kind = 1 ∨ y.kind = 3) → y.reader = x → y.ents = w :: rest → s.me.stackBad d w = false →
        exec (.qcfgGet d q) s = .next (((s.upd fun t => t.setG d w).modCore s.act fun c => { c with qs := c.qs.set j { y with ents := rest } }).offerPackets s.act).done)

/-! ## Packets and slices -/

/-- R396 to R399, R240: SEND opens a packet or adds a word to it, SEND.E closes it and gives it to the NI; SLICE releases, answers its code and enqueues an accepted record; SJOIN releases and decrements its join block, and posts the continuation on
the way from 1 to 0; YIELDS makes context 0 Retiring with its continuation. Model's choices: log entries 30 and 32. -/
def Obligations.SliceResult : Prop :=
  ∀ (s : State) (d : GReg) (a b : GSrc), s.plain [.g a.r, .g b.r] = true →
    let x := s.me.getG a.r
    let y := s.me.getG b.r
    let dest := (x.toNat % 8192, x.toNat / 8192 % 16)
    (s.me.sendopen = false → s.niBusy s.act s.actx = true → exec (.send a b) s = .next s.holding ∧ exec (.sendE a b) s = .next s.holding) ∧
    (s.me.sendopen = false → s.niBusy s.act s.actx = false →
      exec (.send a b) s = .next (s.upd fun t => ({ t with send := [y], sendTo := dest }).setStatus 11 1 1).done ∧
      exec (.sendE a b) s =
        .next (State.postMore { s.upd fun t => ({ t with send := [] }).setStatus 11 1 0 with packets := s.packets ++ [(s.act, dest.1, dest.2, [y])] } ⟨.sendPacketDeliver, [s.act]⟩).done) ∧
    (s.me.sendopen = true → s.me.priv = 0 → s.me.sendTo = dest →
      (s.me.send.length = 7 → exec (.send a b) s = .next (s.trapped 0x02 (s.detail6 10) 0)) ∧
      (s.me.send.length ≠ 7 → exec (.send a b) s = .next (s.upd fun t => ({ t with send := t.send ++ [y], sendTo := dest }).setStatus 11 1 1).done) ∧
      exec (.sendE a b) s =
        .next (State.postMore { s.upd fun t => ({ t with send := [] }).setStatus 11 1 0 with packets := s.packets ++ [(s.act, dest.1, dest.2, s.me.send ++ [y])] }
          ⟨.sendPacketDeliver, [s.act]⟩).done) ∧
    (s.me.sendopen = true → (s.me.priv ≠ 0 ∨ s.me.sendTo ≠ dest) →
      exec (.send a b) s = .next (s.trapped 0x02 (s.detail6 10) 0) ∧ exec (.sendE a b) s = .next (s.trapped 0x02 (s.detail6 10) 0)) ∧
    (s.plain [.g d] = true → s.inSpad x 64 → x.toNat % 64 = 0 → s.me.stackFits (a.r == 62) x 64 → s.me.ldnm = false → s.pairsOut s.act s.actx.val = false →
      let r := recordOf (s.spadRead x 64)
      let s1 := (s.siFlush s.act).busyFor ((s.siFlush s.act).latencyOf s.act 0 (s.spadPlaces x 64))
      let cl := y.toNat / 65536 % 32
      let q := y.toNat % 16
      let code := if s.me.priv = 0 ∧ r.asid ≠ s.me.asid then 5 else s1.enqCode cl q r
      s.me.stackBad d (0 - BitVec.ofNat 64 code) = false →
      (code = 0 → exec (.slice d a b) s = .next (State.enqueue (s1.upd fun t => t.setG d 0) cl q r).done) ∧
      (code ≠ 0 → exec (.slice d a b) s = .next (s1.upd fun t => t.setG d (0 - BitVec.ofNat 64 code)).done)) ∧
    (∀ s1 s2 ps pa old, s.plain [.g d] = true → s.accepts { va := x, n := 8, kind := 2, wr := true, align := 128, stk := a.r == 62, home := true } ps s1 →
      homePa ps = some pa → s1.noPairs ps → s1.pairsOut s.act s.actx.val = false → s.me.ldnm = false → (s1.siFlush s.act).syncRead s.act ps pa 8 = (old, s2) →
      s2.anyPoisonFor s.act pa 8 = false → s.me.stackBad d (BitVec.ofNat 64 old) = false →
      let s3 := ((s2.siFlush s.act).homeWrite pa 8 (BitVec.ofNat 64 old - 1).toNat).patchStreams s.act (ps.map Place.loc) (BitVec.ofNat 64 old - 1).toNat
      let s4 := if old = 1 then s3.postMore ⟨.joinContinuationEnqueue, [s.act, pa, x.toNat]⟩ else s3
      exec (.sjoin d a) s = .next (s4.produced ((s1.siFlush s.act).atomicLatency s.act ps) false [.g d (BitVec.ofNat 64 old)] 0 none).done) ∧
    (s.plain [.g d] = true → s.inSpad x 8 → x.toNat % 128 = 0 → s.me.stackFits (a.r == 62) x 8 → s.me.ldnm = false → s.pairsOut s.act s.actx.val = false →
      let old := s.spadRead x 8
      s.me.stackBad d (BitVec.ofNat 64 old) = false →
      let s1 := s.siFlush s.act
      let s2 := s1.spadWrite x 8 (BitVec.ofNat 64 old - 1).toNat
      let s3 := if old = 1 then s2.postIn 1 ⟨.joinContinuationEnqueue, [s.act, 2 ^ 64 + s.me.asid * 4 + s.me.priv, x.toNat]⟩ else s2
      exec (.sjoin d a) s = .next (s3.produced (s1.atomicLatency s.act (s.spadPlaces x 8)) false [.g d (BitVec.ofNat 64 old)] 0 none).done) ∧
    (s.actx ≠ 0 → exec (.yields a b) s = .next (s.trapped 0x02 (s.detail6 7) 0)) ∧
    (s.actx = 0 → s.me.sendopen = true → exec (.yields a b) s = .next (s.trapped 0x02 (s.detail6 2) 0)) ∧
    (s.actx = 0 → s.me.sendopen = false →
      exec (.yields a b) s = .next (((s.upd fun t => { t with st := .retiring, yields := some (x, y) }).modCore s.act fun c =>
        { c with slice := c.slice.map fun sl => { sl with retired := true } }).postMore ⟨.sliceEnd, [s.act]⟩).ended)

/-! ## Worklists -/

/-- R401 to R404, R484, R485: a list that the context may not use is illegal; WLAPP asks the unit of the list and waits for its answer, which completes it or is cause 0x18; WLPOP takes the item at HEAD, answers 1 where there is none and it must not wait, or
parks; WLQUIET waits for quiescence. Times: log entry 6; the model's other choices: log entry 31. -/
def Obligations.WorklistResult : Prop :=
  ∀ (s : State) (d c : GReg) (a b : GSrc) (ch : BReg) (nw : Bool), d ≠ c → s.plain [.g a.r, .g b.r, .g d, .g c] = true →
    let x := s.me.getG a.r
    let cl := x.toNat / 65536 % 32
    let n := x.toNat % 1024
    (s.me.prog = .done → exec (.wlapp a b) s = .next s.done ∧ exec (.wlquiet ch) s = .next s.done) ∧
    (s.me.prog = .wlapp → exec (.wlapp a b) s = .next s.holding) ∧
    (∀ r m, s.me.prog = .wlappRefused r m → exec (.wlapp a b) s = .next (s.trapped 0x18 (BitVec.ofNat 64 (r * 1024 + m)) 0)) ∧
    (∀ m, s.me.prog = .wlquiet m → exec (.wlquiet ch) s = .next s.holding) ∧
    (s.me.prog = .wlpop → exec (.wlpop d a c nw) s = .next s.holding) ∧
    (∀ y l, s.me.prog = .answer 0 y l → s.me.stackBad d y = false → s.me.stackBad c 0 = false →
      exec (.wlpop d a c nw) s = .next (s.produced 160 false [.g d y, .g c 0] 0 none).done) ∧
    (∀ st y l, s.me.prog = .answer st y l → st ≠ 0 → s.me.stackBad c (BitVec.ofNat 64 st) = false →
      exec (.wlpop d a c nw) s = .next (s.produced 160 false [.g c (BitVec.ofNat 64 st)] 0 none).done) ∧
    (s.afresh →
      exec (.wlquiet ch) s = .next (State.waiting (s.post ⟨.worklistQuiescence, [s.act, ch.val]⟩) (.wlquiet ch.val)) ∧
      (s.me.ldnm = true → exec (.wlapp a b) s = .next s.holding) ∧
      (∀ s1, s.list cl n = (none, s1) →
        (s.me.ldnm = false → exec (.wlapp a b) s = .next (s.trapped 0x02 (s.detail6 9) 0)) ∧ exec (.wlpop d a c nw) s = .next (s.trapped 0x02 (s.detail6 9) 0)) ∧
      (∀ l s1, s.list cl n = (some l, s1) → l.asid ≠ s.me.asid →
        (s.me.ldnm = false → exec (.wlapp a b) s = .next (s.trapped 0x02 (s.detail6 9) 0)) ∧ exec (.wlpop d a c nw) s = .next (s.trapped 0x02 (s.detail6 9) 0)) ∧
      ∀ l s1, s.list cl n = (some l, s1) → l.asid = s.me.asid →
        (s.me.ldnm = false → exec (.wlapp a b) s =
          .next (State.waiting (s1.postIn (s1.appendTicks s.act cl) ⟨.worklistAppendArrival, [cl, n, s.me.asid, (s.me.getG b.r).toNat, s.act, s.actx.val]⟩) .wlapp)) ∧
        (l.tail - l.head = 0 → nw = true → s.me.stackBad c 1 = false →
          exec (.wlpop d a c nw) s = .next ((s1.setList cl n l).produced 160 false [.g c 1] 0 none).done) ∧
        (l.tail - l.head = 0 → nw = false →
          exec (.wlpop d a c nw) s = .next (State.waiting ((s1.setList cl n { l with parked := l.parked ++ [(s.act, s.actx.val, d, c)] }).post
            ⟨.worklistQuiescence, [s.act, l.chan]⟩) .wlpop)) ∧
        ∀ y s2, l.tail - l.head ≠ 0 → s1.pop cl n l = (y, s2) → s.me.stackBad d (BitVec.ofNat 64 (y.getD 0)) = false → s.me.stackBad c 0 = false →
          exec (.wlpop d a c nw) s = .next (s2.produced 160 false [.g d (BitVec.ofNat 64 (y.getD 0)), .g c 0] 0 (if y.isNone then some (l.item l.head) else none)).done)

/-! ## Exceptions -/

/-- R73, R411, R446, R447: a trap of a context at U on a compute core that is not delegated and whose results are written: the image is written, the level becomes S with the old one in PPRIV, g56 to g58 hold detail, cause and address, every other register
keeps its value, and the handler at TVEC starts 108 cycles of its core on, or later where its line is to be fetched. g58 holds the pair's address for cause 0x13, as R475 says: log entry 38.
Where TVEC is 0 the context is lost, with machine check 0x85. A context with results on their way enters later, unchanged; one at S is lost, with a machine check. Model's choices: log entry 38. -/
def Obligations.TrapEntry : Prop :=
  ∀ (s : State) (k : Nat) (x : Fin 11) (t : Trap), isMiz k = false →
    let c := s.ctx k x
    let u := s.takeTrap k x t
    let e := u.ctx k x
    (c.priv = 0 → delegated (s.core k) c t.code = false → addrBits (s.core k).tvec ≠ 0 →
      (c.drained = true →
        e.priv = 1 ∧ e.ppriv = 0 ∧ e.asid = c.asid ∧ e.pc = BitVec.ofNat 64 (addrBits (s.core k).tvec) ∧ e.apc = false ∧ e.an1 = false ∧ s.time + s.cyc k 108 ≤ e.wake ∧
        ((u.core k).icache = (s.core k).icache → e.wake = s.time + s.cyc k 108) ∧
        e.getG 56 = t.detail ∧ e.getG 57 = BitVec.ofNat 64 (t.code * 256 + if t.async then 0x10000 else 0) ∧
        (addressed t.code → e.getG 58 = t.addr) ∧ (¬addressed t.code → e.getG 58 = 0) ∧
        (∀ r : GReg, r ≠ 56 → r ≠ 57 → r ≠ 58 → e.getG r = c.getG r) ∧ e.v = c.v ∧ e.m = c.m ∧ e.p = c.p ∧ e.fmode = c.fmode ∧ e.fflags = c.settle.fflags ∧ e.st = c.st ∧
        let b := (s.core k).imageAt x.val
        (∀ r : GReg, (u.core k).spad.readN (b + 8 * r.val) 8 = (c.getG r).toNat) ∧ (u.core k).spad.readN (b + 3200) 8 = c.pc.toNat ∧
        (u.core k).spad.readN (b + 3208) 8 = c.n1.toNat ∧ (u.core k).spad.readN (b + 3216) 8 = c.n2.toNat ∧ (u.core k).spad.readN (b + 3232) 8 = c.status.toNat) ∧
      (c.drained = false → e = { c with entering := some t, prog := .none, walked := [] })) ∧
    (c.priv = 0 → delegated (s.core k) c t.code = false → addrBits (s.core k).tvec = 0 →
      u = (s.machineCheck (mizOf (dieOf k)) 0x85 (mcDetail 0 k k 0) 0).loseContext k false ∧ e.st = .free) ∧
    (c.priv ≠ 0 → u = (s.machineCheck (mizOf (dieOf k)) 0x82 (mcDetail 0 k k 0) 0).loseContext k false ∧ e.st = .free) ∧
    (c.priv = 0 → delegated (s.core k) c t.code = true →
      e.priv = 0 ∧ e.uiact = true ∧ e.uien = false ∧ e.pc = BitVec.ofNat 64 (addrBits c.uivec) ∧ e.getG 56 = t.detail ∧ e.getG 57 = 0 ∧ e.getG 58 = 0 ∧ e.getG 59 = c.pc ∧ e.getG 60 = c.n1 ∧
      e.getG 61 = c.n2 ∧ e.uicause = BitVec.ofNat 64 (t.code * 256 + c.anul) ∧ (∀ r : GReg, r.val < 56 ∨ 61 < r.val → e.getG r = c.getG r) ∧ (u.core k).spad = (s.core k).spad)

/-- R43, R97, R98, R411, R414: a context restored from the image that was saved of it has every register, predicate, full bit, address, annul bit and stream descriptor that it had, and the masks, of which m0 keeps the bits below COUNT where it is bound. Bit 0 of the addresses: log entry 17. -/
def Obligations.RestoreOfSave : Prop :=
  ∀ (s : State) (k : Nat) (x : Fin 11) (priv : Nat), priv < 4 →
    let c := s.ctx k x
    let d := ((s.saveImage k x).loadImage k x priv).ctx k x
    (∀ r : GReg, d.getG r = c.getG r) ∧ d.v = c.v ∧ d.m = c.trimM0.m ∧ d.p = c.p ∧ d.vf = c.vf ∧ (∀ r : GReg, d.gFull r = c.gFull r) ∧ d.apc = c.apc ∧ d.an1 = c.an1 ∧ d.qgd = c.qgd ∧
    d.qcount = c.qcount ∧ d.qbase = c.qbase ∧ d.qstride = c.qstride ∧ d.shadow = c.shadow ∧ d.priv = priv ∧ d.asid = c.asid ∧ d.uien = c.uien ∧ d.uiact = c.uiact ∧
    d.pc = BitVec.ofNat 64 (c.pc.toNat % 2 ^ 48) ∧ d.n1 = BitVec.ofNat 64 (c.n1.toNat % 2 ^ 48) ∧ d.n2 = BitVec.ofNat 64 (c.n2.toNat % 2 ^ 48) ∧
    (c.fmode.toNat < 8 → d.fmode = c.fmode) ∧ (c.settle.fflags.toNat < 128 → d.fflags = c.settle.fflags) ∧
    (c.ssb.toNat % 16 = 0 → c.ssb.toNat < 2 ^ 48 → d.ssb = c.ssb) ∧ (c.ssl.toNat % 16 = 0 → c.ssl.toNat < 2 ^ 48 → d.ssl = c.ssl) ∧
    ∀ i : Fin 8, c.slots[i].used = true → d.slots[i].used = true ∧ d.slots[i].out = c.slots[i].out ∧ d.slots[i].vec = c.slots[i].vec ∧ d.slots[i].fibre = c.slots[i].fibre ∧
      d.slots[i].d0 = c.slots[i].d0 ∧ d.slots[i].d1 = c.slots[i].d1 ∧ d.slots[i].d2 = c.slots[i].d2

/-- R86, R410, R411, R407: TRAP makes its own step and then enters the handler with its number as detail word; at S on a compute core it is illegal. ERET reads the image back at the level of PPRIV once its own results are written; below S it is a privilege fault, and to a level above
its own illegal. UIRET leaves a user-level entry, and without one, or on a Mizzen core, it is illegal. Model's choices: log entry 38. -/
def Obligations.TrapReturn : Prop :=
  ∀ s : State,
    (∀ n : BitVec 20,
      (isMiz s.act = true ∨ s.me.priv = 0 → exec (.trap n) s = .next (s.done.takeTrap s.act s.actx ⟨0x01, BitVec.ofNat 64 n.toNat, 0, false⟩)) ∧
      (isMiz s.act = false → s.me.priv ≠ 0 → exec (.trap n) s = .next (s.trapped 0x02 (s.detail6 11) 0))) ∧
    (s.me.priv = 0 → exec .eret s = .next s.denied) ∧
    (1 ≤ s.me.priv → s.me.priv < s.me.ppriv → exec .eret s = .next (s.trapped 0x02 (s.detail6 11) 0)) ∧
    (1 ≤ s.me.priv → s.me.ppriv ≤ s.me.priv → s.me.drained = false → exec .eret s = .next s.holding) ∧
    (1 ≤ s.me.priv → s.me.ppriv ≤ s.me.priv → s.me.drained = true → isMiz s.act = false →
      exec .eret s = .next (State.ended ((s.loadImage s.act s.actx s.me.ppriv).upd fun t => { t with wake := s.time + s.cyc s.act 114 }))) ∧
    (isMiz s.act = true → exec .uiret s = .next (s.trapped 0x02 (BitVec.ofNat 64 (s.head * 2 ^ 48 + 3)) 0)) ∧
    (isMiz s.act = false → s.me.uiact = false → exec .uiret s = .next (s.trapped 0x02 (s.detail6 11) 0)) ∧
    (isMiz s.act = false → s.me.uiact = true → exec .uiret s = .next (s.leaveU s.act s.actx).ended) ∧
    ∀ (k : Nat) (x : Fin 11) (code tag : Nat) (detail handler : Word),
      let c := s.ctx k x
      let d := ((s.enterU k x code tag detail handler).leaveU k x).ctx k x
      (∀ r : GReg, d.getG r = c.getG r ∧ d.gFull r = c.gFull r) ∧ d.v = c.v ∧ d.m = c.m ∧ d.apc = c.apc ∧ d.an1 = c.an1 ∧ d.pc = BitVec.ofNat 64 (c.pc.toNat % 2 ^ 48) ∧
      d.n1 = BitVec.ofNat 64 (c.n1.toNat % 2 ^ 48) ∧ d.n2 = BitVec.ofNat 64 (c.n2.toNat % 2 ^ 48) ∧ d.uien = true ∧ d.uiact = false

/-! ## Control registers -/

/-- R77 to R87, R95, R412: MFCR writes the fields of a register that the level may read, at S all of it; MTCR writes its writable fields, is illegal for a register that is not writable and for a value that R80, R95 or R412 excludes, and a privilege fault below the level of the
register or of a field that it would change. -/
def Obligations.ControlRegisters : Prop :=
  ∀ (s : State) (cr : CReg),
    let old := s.cregGet s.act s.actx cr
    let fs := cregFields cr
    (∀ d : GReg,
      (s.me.priv < cregLevel cr → exec (.mfcr d cr) s = .next s.denied) ∧
      (cregLevel cr ≤ s.me.priv → s.plain [.g d] = true → s.me.stackBad d (readFields fs old s.me.priv) = false → exec (.mfcr d cr) s = .next (s.wrote d (readFields fs old s.me.priv)))) ∧
    (∀ x lvl, 1 ≤ lvl → readFields fs x lvl = x) ∧
    (∀ a : GSrc, cr.writable = false → exec (.mtcr a cr) s = .next (s.trapped 0x02 (BitVec.ofNat 64 (s.head * 2 ^ 48 + 3)) 0)) ∧
    (∀ a : GSrc, cr.writable = true → s.me.priv < cregLevel cr → exec (.mtcr a cr) s = .next s.denied) ∧
    ∀ a : GSrc, cr.writable = true → cregLevel cr ≤ s.me.priv → s.plain [.g a.r] = true →
      let x := s.me.getG a.r
      let y := writeFields fs old x s.me.priv
      (refuses fs old x s.me.priv = true → exec (.mtcr a cr) s = .next s.denied) ∧
      (refuses fs old x s.me.priv = false → cr = .status → y.toNat / 4 % 4 = 3 → exec (.mtcr a cr) s = .next (s.trapped 0x02 (s.detail6 11) 0)) ∧
      (refuses fs old x s.me.priv = false → cr = .csap → s.home.csapRefused s.actx y = true → exec (.mtcr a cr) s = .next (s.trapped 0x02 (s.detail6 11) 0)) ∧
      (refuses fs old x s.me.priv = false → (cr = .status → y.toNat / 4 % 4 ≠ 3) → (cr = .csap → s.home.csapRefused s.actx y = false) →
        exec (.mtcr a cr) s = .next (s.cregPut s.act s.actx cr y).done)

/-! ## Translations, stops, tests, waits -/

/-- R407, R408, R413 to R416: below its level a system form is a privilege fault; TLBINV releases, waits for the operations that keep a translation, and removes translations; CSAVE and CRSTR stop and restart a context of the core, CSAVE ending a WFI of it, BIST tests a target, and each answers its status; WFI waits
for an event. Model's choices: log entry 33. -/
def Obligations.SystemForms : Prop :=
  ∀ (s : State) (d : GReg) (a : GSrc),
    let x := s.me.getG a.r
    let quiet := s.me.ldnm = false ∧ s.pairsOut s.act s.actx.val = false
    let rel := s.siFlush s.act
    (s.me.priv = 0 → exec (.tlbinvPage d a) s = .next s.denied ∧ exec (.tlbinvAsid d) s = .next s.denied ∧ exec .tlbinvAll s = .next s.denied ∧
      (isMiz s.act = false → exec (.csave d a) s = .next s.denied ∧ exec (.crstr d a) s = .next s.denied)) ∧
    (s.me.priv < 2 → exec (.bist d a) s = .next s.denied) ∧
    (1 ≤ s.me.priv → s.plain [.g a.r, .g d] = true → quiet →
      let n := (s.me.getG d).toNat % 4096
      rel.keepsPage (s.covered n x.toNat 1) = false → exec (.tlbinvPage d a) s = .next ((rel.busyFor tlbInvTicks).tlbInvRange n x.toNat 1).done) ∧
    (1 ≤ s.me.priv → s.plain [.g d] = true → quiet →
      let n := (s.me.getG d).toNat % 4096
      rel.keepsPage (fun i _ => i == n) = false →
      exec (.tlbinvAsid d) s = .next ((rel.busyFor tlbInvTicks).tlbInv (fun t => t.asid == n) (fun i => i == n) fun i _ => i == n).done) ∧
    (1 ≤ s.me.priv → quiet → rel.keepsPage (fun _ _ => true) = false →
      exec .tlbinvAll s = .next ((rel.busyFor tlbInvTicks).tlbInv (fun _ => true) (fun _ => true) fun _ _ => true).done) ∧
    (∀ n va, (∀ e ∈ (s.tlbInvRange n va 1).cores, ∀ t ∈ e.2.tlb, t.covers n va = false) ∧ ∀ e ∈ (s.tlbInvRange n va 1).clusters, ∀ t ∈ e.2.tlb, t.covers n va = false) ∧
    (isMiz s.act = false → 1 ≤ s.me.priv → s.plain [.g a.r, .g d] = true →
      let c := x.toNat % 16
      (s.afresh → ∀ n, CsaveNow s c n → s.me.stackBad d (BitVec.ofNat 64 n) = false → exec (.csave d a) s = .next (s.wrote d (BitVec.ofNat 64 n))) ∧
      (s.afresh → (∀ n, ¬CsaveNow s c n) →
        exec (.csave d a) s = .next (State.waiting (s.modCtx s.act (cix c) fun t => ({ t with
          stopReq := true, st := if t.st = .retiring then .live else t.st, yields := if t.st = .retiring then none else t.yields } : Ctx).endWfi) (.csave c))) ∧
      (∀ n, s.me.prog = .saving n → n ≤ s.time → s.me.stackBad d 0 = false → exec (.csave d a) s = .next (s.wrote d 0)) ∧
      (∀ n, s.me.prog = .saving n → s.time < n → exec (.csave d a) s = .next s.holding) ∧
      (s.afresh → (11 ≤ c ∨ (s.ctx s.act (cix c)).st ≠ .stopped) → s.me.stackBad d 1 = false → exec (.crstr d a) s = .next (s.wrote d 1)) ∧
      (s.afresh → c < 11 → (s.ctx s.act (cix c)).st = .stopped →
        exec (.crstr d a) s = .next (State.waiting (s.postMore ⟨.contextRestoreComplete, [s.act, c]⟩) (.crstr c))) ∧
      (s.me.prog = .done → s.me.stackBad d 0 = false → exec (.crstr d a) s = .next (s.wrote d 0))) ∧
    (2 ≤ s.me.priv → s.plain [.g a.r, .g d] = true →
      (∀ y, s.me.prog = .bistDone y → s.me.stackBad d y = false → exec (.bist d a) s = .next (s.wrote d y)) ∧
      (s.me.prog = .bist → exec (.bist d a) s = .next s.holding) ∧
      (∀ n, s.afresh → s.bistRefused x = some n → s.me.stackBad d (BitVec.ofNat 64 n) = false → exec (.bist d a) s = .next (s.wrote d (BitVec.ofNat 64 n)))) ∧
    (isMiz s.act = true → exec .wfi s = .next (s.trapped 0x02 (BitVec.ofNat 64 (s.head * 2 ^ 48 + 3)) 0)) ∧
    (isMiz s.act = false →
      (s.me.prog = .done → exec .wfi s = .next s.done) ∧
      (s.afresh → s.me.cpyiQ ≠ [] → exec .wfi s = .next s.done) ∧
      (s.afresh → s.me.cpyiQ = [] → exec .wfi s = .next (s.waiting .wfi)))

/-! ## Events: reset and boot -/

/-- R6, R430, R431, R490, R492: after a module reset TIME is 0, every core, cluster and octet and the boot ROM are as at reset, no region is registered, the module's memory reads 0 (log entry 2), and PWREVT.TRIP, the field entries of the defect map and the memory outside the module are kept; power-on is that with no TRIP left. The boot ROM falls back to IOD1 when IOD0
has had no link for 10 s, goes from stage 1 to 2 with its address, retries after a failure, goes to stage 3 with the image in memory, verifies it there, and starts Mizzen core 0 of each I/O die where it passes.
That an event is one move of the machine is log entry 1. What is kept through a reset besides PWREVT.TRIP and the defect map, at which stages a fetch fails, that an attempt is counted at stage 1 and that stage 4 follows
a pass are the model's reading (log entry 25), and so is where the payload starts (log entry 9). -/
def Obligations.BootEvents : Prop :=
  ∀ s : State,
    exec .moduleReset s = .next (s.performed s.afterReset) ∧ exec .powerOn s = .next (s.performed { s.afterReset with dies := [] }) ∧
    s.afterReset.time = 0 ∧ (∀ k, s.afterReset.core k = State.reset.core k) ∧ (∀ c, s.afterReset.cluster c = State.reset.cluster c) ∧ s.afterReset.regions = [] ∧ s.afterReset.boot = State.reset.boot ∧
    (∀ o, s.afterReset.octet o = State.reset.octet o) ∧ s.afterReset.fieldMap = s.fieldMap ∧
    (∀ d, bit (s.die d).pwrevt 2 = true → (s.afterReset.die d).pwrevt = 4) ∧ (∀ a, a < hostBase → s.afterReset.mem.read a = 0) ∧
    (∀ a, hostBase ≤ a → a < regBase → s.afterReset.mem.read a = s.mem.read a) ∧
    (s.fallbackDue = true ↔ s.boot.stage = 0 ∧ s.boot.rom = 0 ∧ s.boot.attempts = 0 ∧ 22500000000 ≤ s.time) ∧
    (s.fallbackDue = true → exec .bootRomFallback s = .next (s.performed { s with boot := { s.boot with rom := 1 } })) ∧
    (s.fallbackDue = false → exec .bootRomFallback s = .next (s.performed s)) ∧
    (s.boot.stage = 1 → exec .dhcpv6Reply s = .next (s.performed { s with boot := { s.boot with stage := 2 } })) ∧
    (s.boot.stage < 3 → s.boot.waiting = false →
      exec .bootFetchFailure s = .next (s.performed (State.postIn { s with boot := { s.boot with stage := 0, reason := s.arg 0, fails := s.boot.fails + 1, waiting := true } }
        (2 ^ min s.boot.fails 6 * 2250000000) ⟨.bootRetry, []⟩))) ∧
    (s.boot.waiting = true →
      exec .bootRetry s = .next (s.performed { s with boot := { s.boot with stage := 1, waiting := false, attempts := s.boot.attempts + 1 } })) ∧
    (s.boot.stage = 2 → exec .bootImageVerify s = .next (s.performed (State.postMore { s.placeImage with boot := { s.boot with stage := 3 } } ⟨.bootImageVerify, []⟩))) ∧
    (s.boot.stage ≠ 2 → s.boot.stage ≠ 3 → exec .bootImageVerify s = .next (s.performed s)) ∧
    (s.boot.stage = 3 → imageReason s.image = 0 →
      ∃ u, exec .bootImageVerify s = .next u ∧ u.boot = { s.boot with stage := 4 } ∧ ∀ e, e = s.boot.rom ∨ e = 1 - s.boot.rom →
        (u.ctx (mizIo e) 0).st = .live ∧ (u.ctx (mizIo e) 0).pc = BitVec.ofNat 64 ((Config.mizzenEntry 1).toNat % 2 ^ 48)) ∧
    (s.boot.stage = 3 → imageReason s.image ≠ 0 →
      ∃ u, exec .bootImageVerify s = .next u ∧ u.boot = { s.boot with stage := 0, reason := imageReason s.image, fails := s.boot.fails + 1, waiting := true } ∧
        (s.time + 2 ^ min s.boot.fails 6 * 2250000000, ⟨.bootRetry, []⟩) ∈ u.pendingEv) ∧
    (s.arg 0 = 4 → s.boot.stage = 0 → s.boot.rom = s.arg 1 → s.boot.waiting = false →
      exec .linkTraining s = .next (s.performed { s with
        downLinks := s.downLinks.filter (fun l => !(l == (LinkKind.management, s.arg 1, s.arg 2))), boot := { s.boot with stage := 1, attempts := s.boot.attempts + 1 } }))

/-! ## Events: slices and contexts -/

/-- R33, R38, R39, R54, R238, R240, R243, R248, R249, R258, R259, R405, R414, R427, R467 to R469: how contexts start, stop, are restored and end; how a slice ends by RETIRE, by YIELDS and in two copies; how records are enqueued, held and placed; launch packets of the scheduler, and residency reports.
One move an event: log entry 1; placements: log entry 18; that an event whose condition fails changes nothing: log entry 11; the source of a launch packet and when a report is due: log entry 20; the ring of a queue:
log entry 27. -/
def Obligations.SliceEvents : Prop :=
  ∀ s : State,
    (s.subject.st = .starting → exec .contextStartingEnd s = .next (s.performed (s.modSubject fun c => { c with st := .live }))) ∧
    (s.subject.st = .retiring → s.retireReady (s.arg 0) (cix (s.arg 1)) = true → s.subject.poisonQ = [] → ∀ s1, s.retireSteps (s.arg 0) (cix (s.arg 1)) = (none, s1) →
      exec .helperRetireComplete s =
        .next (s.performed (State.sliceEnd false (((s1.leaveTags (s.arg 0) (cix (s.arg 1))).modCtx (s.arg 0) (cix (s.arg 1)) fun c => { c with st := .free }).cqClaim (s.arg 0)) (s.arg 0)))) ∧
    (∀ k, (s.ctx k 0).st ≠ .retiring → State.sliceEnd false s k = s) ∧
    (s.subject.st = .retiring → s.retireReady (s.arg 0) (cix (s.arg 1)) = false →
      exec .helperRetireComplete s = .next (s.performed (s.postMore ⟨.helperRetireComplete, [s.arg 0, (cix (s.arg 1)).val]⟩))) ∧
    (∀ s1 sl, (s.ctx (s.arg 0) 0).st = .retiring → s.retireReady (s.arg 0) 0 = true → (s.ctx (s.arg 0) 0).poisonQ = [] → (s.ctx (s.arg 0) 0).copyQ = [] → (s.ctx (s.arg 0) 0).cpyiQ = [] →
      s.retireSteps (s.arg 0) 0 = (none, s1) → (s1.core (s.arg 0)).sliceDone = true → (s1.core (s.arg 0)).slice = some sl → sl.dual = none →
      (sl.rec_.join = 0 →
        (∀ y, (s.ctx (s.arg 0) 0).yields = some y → exec .sliceEnd s = .next (s.performed ((s1.yieldSlice (s.arg 0) sl y.1 y.2).freeCore (s.arg 0)))) ∧
        ((s.ctx (s.arg 0) 0).yields = none → exec .sliceEnd s = .next (s.performed (s1.freeCore (s.arg 0))))) ∧
      (sl.rec_.join ≠ 0 →
        (s1.coreQuiet (s.arg 0) = false → exec .sliceEnd s = .next (s.performed (s1.postMore ⟨.sliceEnd, [s.arg 0]⟩))) ∧
        (s1.coreQuiet (s.arg 0) = true →
          (∀ y, (s.ctx (s.arg 0) 0).yields = some y → exec .sliceEnd s = .next (s.performed (((s1.siFlush (s.arg 0)).yieldSlice (s.arg 0) sl y.1 y.2).freeCore (s.arg 0)))) ∧
          ((s.ctx (s.arg 0) 0).yields = none → exec .sliceEnd s = .next (s.performed ((s1.siFlush (s.arg 0)).joinSlice (s.arg 0) sl [s.arg 0])))))) ∧
    (∀ k, ((s.freeCore k).ctx k 0).st = .free ∧ ((s.freeCore k).core k).slice = none) ∧
    (∀ y s1, s.arg 1 < 2 ^ 64 → s.homeTry (s.arg 1 + 64) 64 = (some y, s1) →
      let u := s1.hwEnqueue (recordOf y).cluster (recordOf y).queue (s.arg 0) (recordOf y) (BitVec.ofNat 64 (s.arg 2) + 64)
      let ks := (s.ev.drop 3).filter fun k => (s.ctx k 0).st == .retiring
      exec .joinContinuationEnqueue s = .next (s.performed (ks.foldl State.freeCore u))) ∧
    (∀ s1, s.arg 1 < 2 ^ 64 → s.homeTry (s.arg 1 + 64) 64 = (none, s1) → s.ev.length ≤ 3 →
      exec .joinContinuationEnqueue s = .next (s.performed (s1.schedErr (clusterOf (s.arg 0)) 5 0 2 (s.arg 0) (BitVec.ofNat 64 (s.arg 2) + 64)))) ∧
    (∀ asid priv, priv < 4 → s.arg 1 = 2 ^ 64 + asid * 4 + priv →
      exec .joinContinuationEnqueue s = .next (s.performed (s.joinLocal (s.arg 0) asid priv (BitVec.ofNat 64 (s.arg 2))))) ∧
    (∀ sl d g h, (s.core (s.arg 0)).slice = some sl → sl.dual = some d → sl.sig = some g → (s.core d.2).slice.bind (·.sig) = some h →
      let fail := fun (kind : Nat) => ((s.failSlice (s.arg 0) sl kind (min (s.arg 0) d.2) (some (s.arg 0, d.2))).freeCore (s.arg 0)).freeCore d.2
      (g ≠ none → g = h → (s.ctx (s.arg 0) 0).yields = none → exec .dualSignatureCompare s = .next (s.performed (s.joinSlice (s.arg 0) sl [s.arg 0, d.2]))) ∧
      (g ≠ none → h ≠ none → g ≠ h → exec .dualSignatureCompare s = .next (s.performed (fail 2))) ∧
      ((g = none ∨ h = none) → exec .dualSignatureCompare s = .next (s.performed (fail 3)))) ∧
    (∀ h, (s.cluster (s.arg 0)).heldReady = some h →
      exec .heldRecordEnqueue s = .next (s.performed ((s.modCluster (s.arg 0) fun c => { c with held := c.held.erase h }).enqueue (s.arg 0) h.1 h.2))) ∧
    (∀ (cl : Nat) (q : Fin 16) (r : Record),
      let y := (s.cluster cl).qs[q]
      let r2 := stamped r y.cls (s.cluster cl).seq
      (y.recs.length < 64 → y.ring = 0 →
        (((s.enqueue cl q.val r).cluster cl).qs[q]).recs = y.recs ++ [r2] ∧ ((s.enqueue cl q.val r).cluster cl).seq = (s.cluster cl).seq + 1) ∧
      (64 ≤ y.recs.length ∨ y.ring ≠ 0 →
        s.enqueue cl q.val r = State.homeWrite ((s.modCluster cl fun c => { c with seq := c.seq + 1 }).modSliceQ cl q.val fun z => { z with ring := z.ring + 1 })
          (y.slot y.ring) 64 (Record.number r2))) ∧
    (let u := s.takeTickets (s.arg 0 / 8);
      (u.selectSlice (s.arg 0) = .nothing → exec .dispatchPlace s = .next (s.performed u)) ∧
      (∀ c k j, u.selectSlice (s.arg 0) = .one c k j →
        exec .dispatchPlace s = .next (s.performed ((u.placeCand c k j).notePlaced (s.arg 0)))) ∧
      ∀ t ms, u.selectSlice (s.arg 0) = .gang t ms →
        exec .dispatchPlace s = .next (s.performed ((ms.map (·.cl)).eraseDups.foldl State.notePlaced (u.placeGang (s.arg 0 / 8) t ms)))) ∧
    (∀ c, ((s.notePlaced c).cluster c).placed = s.time + 1) ∧
    (s.boot.up = false → exec .launchPacket s = .next (s.performed s)) ∧
    (∀ s1, s.boot.up = true → s.fromScheduler (s.arg 0) (s.arg 1) = (false, s1) → exec .launchPacket s = .next (s.performed s1)) ∧
    (∀ s1 e u2, s.boot.up = true → s.fromScheduler (s.arg 0) (s.arg 1) = (true, s1) →
      let pkt := s.arg 2
      let code := s1.launchCode pkt
      let u := if code = 0 then s1.enqueue (bits pkt 16 8) (bits pkt 24 8) (recordOf (bits pkt 128 512)) else s1
      u.resEndpoint (BitVec.ofNat 64 (bits pkt 64 64)) = (e, u2) →
      exec .launchPacket s = .next (s.performed { u2 with sent := u2.sent ++ [.launchAck e (BitVec.ofNat 64 (bits pkt 32 32)) code] })) ∧
    (∀ pkt,
      (bits pkt 0 16 ≠ 1 → s.launchCode pkt = -6) ∧ (bits pkt 0 16 = 1 → 32 ≤ bits pkt 16 8 ∨ 16 ≤ bits pkt 24 8 → s.launchCode pkt = -7) ∧
      (bits pkt 0 16 = 1 → bits pkt 16 8 < 32 → bits pkt 24 8 < 16 →
        s.launchCode pkt = -(s.enqCode (bits pkt 16 8) (bits pkt 24 8) (recordOf (bits pkt 128 512)) : Int))) ∧
    (∀ kind src a,
      (kind ≠ s.resKind → s.fromScheduler kind src = (false, s)) ∧
      (s.resKind = 1 → s.fromScheduler 1 src = (src == fld s.resdest 0 10, s) ∧ s.resEndpoint a = (.ualink (fld s.resdest 0 10) a, s)) ∧
      (s.resKind = 2 → ∀ x t, s.homeRead s.resBlock 24 = (x, t) →
        s.fromScheduler 2 src = (Endpoint.uet (bits x 0 128) (bits x 128 32) (bits x 160 32) == .uet (bits src 0 128) (bits src 128 32) (bits src 160 32), t) ∧
        s.resEndpoint a = (.uet (bits x 0 128) (bits x 128 32) (bits x 160 32), t))) ∧
    s.reportWords.length = 68 ∧
    (∀ e t, (s.resKind = 1 ∨ s.resKind = 2) → (s.reportAt + 22500 ≤ s.time ∨ (s.reportAt + 2250 ≤ s.time ∧ s.entries ≠ s.reported)) → s.resEndpoint 0x3FFFFFE000 = (e, t) →
      exec .residencyReport s =
        .next (s.performed { t with sent := s.sent ++ [.report e s.reportWords], reportSeq := s.reportSeq + 1, reportAt := s.time, reported := s.entries })) ∧
    ((s.resKind ≠ 1 ∧ s.resKind ≠ 2) ∨ s.time < s.reportAt + 2250 ∨ (s.time < s.reportAt + 22500 ∧ s.entries = s.reported) →
      exec .residencyReport s = .next (s.performed s)) ∧
    (s.atBound (s.arg 0) (cix (s.arg 1)) .contextStop → s.subject.prog = .none →
      ∃ u, exec .contextStop s = .next u ∧ (u.ctx (s.arg 0) (cix (s.arg 1))).st = .stopped ∧ (u.ctx (s.arg 0) (cix (s.arg 1))).stopReq = false ∧
        (u.core (s.arg 0)).spad = ((s.saveImage (s.arg 0) (cix (s.arg 1))).core (s.arg 0)).spad) ∧
    (s.atBound (s.arg 0) (cix (s.arg 1)) .contextStop → s.subject.prog = .wfi →
      ∃ u, exec .contextStop s = .next u ∧ (u.ctx (s.arg 0) (cix (s.arg 1))).st = .stopped ∧
        (u.core (s.arg 0)).spad = (((s.stepOver (s.arg 0) (cix (s.arg 1))).saveImage (s.arg 0) (cix (s.arg 1))).core (s.arg 0)).spad) ∧
    (s.subject.st = .stopped →
      ∃ u, exec .contextRestoreComplete s = .next u ∧ (u.ctx (s.arg 0) (cix (s.arg 1))).st = .live ∧ (u.ctx (s.arg 0) (cix (s.arg 1))).age = s.time ∧
        (u.ctx (s.arg 0) (cix (s.arg 1))).pc =
          BitVec.ofNat 64 ((s.core (s.arg 0)).spad.readN ((s.core (s.arg 0)).imageAt (cix (s.arg 1)).val + 3200) 8 % 2 ^ 48))

/-! ## Events: results and asynchronous faults -/

/-- R45 to R47, R70, R246, R288, R323, R387, R452, R453, R455, R457: the results of producers and deferred LDFs are written with their full bits and flags; the Yard takes a request that waits alone and resolves an entry whose window has ended; a refill fetches for an open input stream; and the
faults and interrupts of a boundary are taken, the budget trap once; a context that takes one while it is Retiring is live again at its RETIRE (R405). One move an event: log entry 1. That a refill of a closed or output slot,
and the resolution of an empty Yard, change nothing is log entry 11; the Mizzen core's handler is that of log entry 9. -/
def Obligations.ResultEvents : Prop :=
  ∀ s : State,
    (∀ p, firstDue (s.subject.prods.filter (·.ldf == false)) = some p → s.subject.entering = none →
      exec .producerComplete s = .next (s.performed ((s.modSubject fun c => { c with prods := c.prods.erase p }.complete p).modCore (s.arg 0) (·.putTile p.tile)))) ∧
    (∀ (c : Ctx) (r : GReg) (x : Word) (fl : Flags) (n : Nat), r ≠ 0 →
      let d := c.complete ⟨[.g r x], fl, none, false, false, n, none, false, none⟩
      d.getG r = x ∧ d.gFull r = true ∧ ∀ t, n ≤ t → d.flagsNow t = c.flagsNow t ||| fl.setWidth 64) ∧
    (∀ p, firstDue (s.subject.prods.filter (·.ldf)) = some p → p.poison = none → s.subject.entering = none →
      (∀ r x, .g r x ∈ p.dests → s.subject.slotG r = none ∧ s.subject.stackBad r x = false) →
      ∃ u, exec .ldfDeferredAnswer s = .next u ∧ (u.ctx (s.arg 0) (cix (s.arg 1))).prods = s.subject.prods.erase p ∧
        (∀ r x, p.dests = [.g r x] → r ≠ 0 → p.old = false → (u.ctx (s.arg 0) (cix (s.arg 1))).getG r = x)) ∧
    (∀ u : State, u = s.revive (s.arg 0) (cix (s.arg 1)) →
      (s.subject.st = .live → u = s) ∧ (s.subject.st = .retiring → (u.ctx (s.arg 0) (cix (s.arg 1))).st = .live ∧ (u.ctx (s.arg 0) (cix (s.arg 1))).yields = none) ∧
      (∀ q rest, s.atBound (s.arg 0) (cix (s.arg 1)) .poisonedDataFault → s.subject.poisonQ = q :: rest →
        exec .poisonedDataFault s =
          .next (s.performed ((u.modCtx (s.arg 0) (cix (s.arg 1)) fun c => { c with poisonQ := rest }).takeTrap (s.arg 0) (cix (s.arg 1)) ⟨0x0C, q.1, q.2, true⟩))) ∧
      (∀ q, s.atBound (s.arg 0) (cix (s.arg 1)) .copyFaultEntry → s.subject.copyQ = [q] →
        exec .copyFaultEntry s =
          .next (s.performed ((u.modCtx (s.arg 0) (cix (s.arg 1)) fun c => { c with copyQ := [] }).takeTrap (s.arg 0) (cix (s.arg 1)) ⟨q.2.1, q.2.2.1, q.2.2.2, true⟩))) ∧
      ∀ q, s.atBound (s.arg 0) (cix (s.arg 1)) .copyCompletionInterrupt → s.subject.cpyiQ = [q] →
        exec .copyCompletionInterrupt s =
          .next (s.performed (if q.2.2 then (u.modCtx (s.arg 0) (cix (s.arg 1)) fun c => { c with cpyiQ := [] }).enterU (s.arg 0) (cix (s.arg 1)) 0x30 q.1 (BitVec.ofNat 64 q.1) q.2.1
            else (u.modCtx (s.arg 0) (cix (s.arg 1)) fun c => { c with cpyiQ := [] }).takeTrap (s.arg 0) (cix (s.arg 1)) ⟨0x30, BitVec.ofNat 64 q.1, 0, true⟩))) ∧
    (s.atBound (s.arg 0) 0 .budgetTrap →
      exec .budgetTrap s = .next (s.performed ((s.modCore (s.arg 0) fun c =>
        { c with slice := c.slice.map fun sl => { sl with budgetTaken := true } }).takeTrap (s.arg 0) 0 ⟨0x14, 0, 0, true⟩))) ∧
    (∀ e, s.ev.length ≤ 1 → isMiz (s.arg 0) = true → (s.core (s.arg 0)).handling = false → (s.ctx (s.arg 0) 0).st = .live → (s.ctx (s.arg 0) 0).entering = none → nextCheck (s.core (s.arg 0)).mcq = some e →
      (s.core (s.arg 0)).mcDropped = 0 →
      ∃ d, exec .machineCheck s = .next (s.performed ((s.modCore (s.arg 0) fun c =>
        { c with mcq := c.mcq.erase e, handling := true, mcDropped := 0 }).enterS (s.arg 0) 0 ⟨e.1, d, e.2.2, false⟩)) ∧ d = putBits e.2.1 24 8 (fld e.2.1 24 8)) ∧
    (let sl := s.subject.slots[Fin.ofNat 8 (s.arg 2)];
      (sl.used = false ∨ sl.out = true → exec .streamRefill s = .next (s.performed s)) ∧
      (sl.used = true → sl.out = false → exec .streamRefill s = .next (s.performed (State.refill (s.arg 0) (cix (s.arg 1)) (Fin.ofNat 8 (s.arg 2)) sl.cap s)))) ∧
    (∀ q n, (s.cluster (s.arg 0)).yreq = [q] → q.at_ ≤ s.time →
      n = (if (s.cluster (s.arg 0)).accepted.1 = s.cycleNo (192 * s.arg 0) then (s.cluster (s.arg 0)).accepted.2 else 0) → n < 8 →
      exec .yardRequestAccept s = .next (s.performed (State.yardAccept (s.modCluster (s.arg 0) fun c =>
        { c with yreq := [], accepted := (s.cycleNo (192 * s.arg 0), n + 1) }) (s.arg 0) q))) ∧
    (∀ e, (s.cluster (s.arg 0)).yard.find? (fun e => decide (e.close ≤ s.time)) = some e → exec .yardEntryResolve s = .next (s.performed (s.yardResolve (s.arg 0) e))) ∧
    ((s.cluster (s.arg 0)).yard = [] → exec .yardEntryResolve s = .next (s.performed s))

/-! ## Events: units of a core, of an octet and of a cluster -/

/-- R60, R212, R213, R359, R369, R380, R383, R387, R388, R395, R396, R402, R404, R464, R472, R485: the SRC, VIS and fault events of a copy tag, the phases of a channel, command doorbells, MXU operations and guest commands, packets, appends to worklists and their quiescence. One move an event: log entry 1; that an event whose condition fails changes nothing: log entry 11; copy commands: log entry 28; doorbells and packets: log entry 30;
freezing a list and the descriptor that an append meets: log entry 31; which status a remote command gets where several apply, and an OCTET of 768 and above: log entry 37; arrivals of other devices: log entry 64. -/
def Obligations.UnitEvents : Prop :=
  ∀ s : State,
    let k := s.arg 0
    let tag := s.arg 1
    let t := s.tag k tag
    (∀ c s1, t.st = .busy → t.cmd = some c → State.runUnits k tag c (c.units.drop t.done) s = (none, s1) → c.sel ≠ 5 →
      exec .copySrcEvent s = .next (s.performed ((s1.srcFire k tag).postMore ⟨.copyVisEvent, [k, tag]⟩))) ∧
    (∀ c f s1, t.st = .busy → t.cmd = some c → State.runUnits k tag c (c.units.drop t.done) s = (some f, s1) →
      (2 ≤ f.1 → exec .copySrcEvent s = .next (s.performed (s.post ⟨.copyFault, [k, tag]⟩)) ∧ exec .copyFault s = .next (s.performed (s1.stopTag k tag c f))) ∧
      (f.1 = 1 → exec .copySrcEvent s = .next (s.performed (s.postIn f.2.1 ⟨.copySrcEvent, s.ev⟩)) ∧ exec .copyFault s = .next (s.performed (s.postIn f.2.1 ⟨.copyFault, s.ev⟩))) ∧
      (f.1 = 0 → exec .copySrcEvent s = .next (s.performed (s.askWalkEv (f.2.1 / 4096) (f.2.1 % 4096) f.2.2.toNat ⟨.copySrcEvent, s.ev⟩)) ∧
        exec .copyFault s = .next (s.performed (s.askWalkEv (f.2.1 / 4096) (f.2.1 % 4096) f.2.2.toNat ⟨.copyFault, s.ev⟩)))) ∧
    (t.st = .srcDone → exec .copyVisEvent s = .next (s.performed (s.visFire k tag))) ∧
    (t.st ≠ .srcDone → exec .copyVisEvent s = .next (s.performed s)) ∧
    (tag < 64 → ((s.srcFire k tag).tag k tag).st = .srcDone ∧ (∀ l ∈ ((s.srcFire k tag).core k).locks, l.tag = tag → l.dst = true) ∧
      ∃ u : State, s.visFire k tag = State.sliceEnd false u k ∧ (u.tag k tag).st = .idle ∧ (u.tag k tag).resid = 0 ∧ ∀ l ∈ (u.core k).locks, l.tag ≠ tag) ∧
    (s.arg 1 < 8 → s.phaseOf k (s.arg 1) = none → exec .barrierPhaseComplete s = .next (s.performed s)) ∧
    (∀ here, s.arg 1 < 8 → s.phaseOf k (s.arg 1) = some here →
      let cs := here.filterMap (s.collOf (s.arg 1))
      let fs := here.filterMap (s.farColl (s.arg 1))
      (cs = [] → exec .barrierPhaseComplete s = .next (s.performed ((s.phasesDone here (s.arg 1)).post ⟨.barrierPhaseComplete, [k, s.arg 1]⟩))) ∧
      (cs ≠ [] → collsAgree here.length cs fs = false → exec .barrierPhaseComplete s = .next (s.performed (s.collMismatch (s.arg 1) here cs))) ∧
      (cs ≠ [] → collsAgree here.length cs fs = true →
        ((cs.all fun c => (s.tag c.1 c.2.1).st == .srcDone) = true →
          exec .barrierPhaseComplete s = .next (s.performed ((s.collFinish (s.arg 1) here cs fs).post ⟨.barrierPhaseComplete, [k, s.arg 1]⟩))) ∧
        ((cs.all fun c => (s.tag c.1 c.2.1).st == .srcDone) = false → exec .barrierPhaseComplete s = .next (s.performed s)))) ∧
    (8 ≤ s.arg 1 → s.arg 1 < 16 → (s.core k).asleep = false →
      exec .barrierPhaseComplete s = .next (s.performed ((s.modChan k (s.arg 1 - 8) Chan.settle).wake k fun _ => true))) ∧
    (16 ≤ s.arg 1 → exec .barrierPhaseComplete s = .next (s.performed (s.farArrival k (s.arg 1 - 16) (s.arg 2) (s.ev.drop 3)))) ∧
    (∀ ch m, ch < 8 → (s.chan k ch).level = 5 → m ≠ 0 → ((s.farArrival k ch m []).chan k ch).arrivals m = (s.chan k ch).arrivals m + 1) ∧
    (∀ ch, ch < 8 →
      let b := (s.phaseDone k ch).chan k ch
      ((s.core k).asleep = false → (s.chan k ch).spent = 0 → b.done = (s.chan k ch).done + 1 ∧ b.spent = 0) ∧
      ((s.core k).asleep = true ∨ (s.chan k ch).spent ≠ 0 → b.done = (s.chan k ch).done ∧ b.spent = (s.chan k ch).spent + 1)) ∧
    (∀ b : Chan, b.colls = [] → b.settle.done = b.done + b.spent ∧ b.settle.spent = 0) ∧
    (∀ q : Fin 16, q.val = s.arg 1 → ((s.core k).qs[q]).ents = [] → exec .engineDoorbell s = .next (s.performed s)) ∧
    (∀ (q : Fin 16) e rest, q.val = s.arg 1 → ((s.core k).qs[q]).kind = 2 → ((s.core k).qs[q]).ents = e :: rest → (s.tag k (fld e 51 6)).st ≠ .idle →
      exec .engineDoorbell s = .next (s.performed s)) ∧
    (∀ (q : Fin 16) e rest, q.val = s.arg 1 → ((s.core k).qs[q]).kind = 2 → ((s.core k).qs[q]).ents = e :: rest → (s.tag k (fld e 51 6)).st = .idle → fld e 57 2 = 3 →
      fld e 0 48 % 64 ≠ 0 →
      exec .engineDoorbell s = .next (s.performed (((s.bellRefused k (fld e 51 6)).modCore k fun c => { c with qs := c.qs.set q { c.qs[q] with ents := rest } }).ringBells k))) ∧
    (∀ (q : Fin 16) e rest md blk s1 n, q.val = s.arg 1 → ((s.core k).qs[q]).kind = 2 → ((s.core k).qs[q]).ents = e :: rest → (s.tag k (fld e 51 6)).st = .idle → bellMode e = some md →
      let w := ((s.core k).qs[q]).writer
      let c : Cmd := ⟨fld e 48 3, w, (s1.ctx k (cix w)).asid, (s1.ctx k (cix w)).priv, blk, md, fld e 51 6⟩
      s.bellBlock k w (fld e 0 48) = .ok (some blk, s1) → s1.bagIndices (some 2) k c = .ok n →
      (c.bellBad e k n.1 = true → exec .engineDoorbell s = .next (s.performed ((s1.bellRefused k c.tag).bellTaken k q))) ∧
      (c.bellBad e k n.1 = false →
        (s1.canStart k w c (c.srcExt n.1) (c.dstExt (logical k)) = true →
          exec .engineDoorbell s = .next (s.performed ((s1.startCmd k c.tag c (c.srcExt n.1) (c.dstExt (logical k)) n.2).bellTaken k q))) ∧
        (s1.canStart k w c (c.srcExt n.1) (c.dstExt (logical k)) = false → exec .engineDoorbell s = .next (s.performed (s1.post ⟨.engineDoorbell, [k, q.val]⟩))))) ∧
    (∀ q : Fin 16, ((s.bellTaken k q).core k).qs[q].ents = ((s.core k).qs[q]).ents.drop 1) ∧
    (∀ r p, (s.octet k).running = none → (s.octet k).next = some r → r ≠ 8 → ((s.octet k).ops.find? fun p => p.core % 8 == r) = some p →
      exec .mxuOperationStart s = .next (s.performed ((s.modOctet k fun y => { y with running := some p, ops := y.ops.erase p, ptr := r + 1, pins := p.lines }).postIn (s.mxTicks p)
        ⟨.mxuOperationComplete, [k]⟩))) ∧
    (∀ g rest, (s.octet k).running = none → (s.octet k).next = some 8 → (s.octet k).guest = g :: rest →
      exec .mxuOperationStart s = .next (s.performed (s.guestStart k g)) ∧
      (∀ p s1, guestCheck g s = .ok (.ok p, s1) →
        let o := (s.guestStart k g).octet k
        o.running = some p ∧ o.pins = p.lines ∧ o.gtile = ⟨Tile.fill 0, true⟩ ∧ o.gfmt = g.op.fmt ∧ o.ptr = 0) ∧
      (∀ f s1, guestCheck g s = .ok (.error f, s1) →
        s.guestStart k g =
          State.mxNext (State.remoteFill ((s1.modOctet k fun y => { y with gfmt := g.op.fmt, gtile := ⟨Tile.fill 0, true⟩, ptr := 0 }).modOctet k fun y => { y with guest := y.guest.drop 1 }) g 4) k)) ∧
    (∀ p, (s.octet k).running = some p → p.ctx ≠ 11 → p.kind = .zero → (s.ctx p.core (cix p.ctx)).entering = none →
      ∃ u, exec .mxuOperationComplete s = .next u ∧ (u.octet k).running = none ∧ (u.core p.core).tiles[p.z] = ⟨Tile.fill 0, true⟩ ∧
        (u.ctx p.core (cix p.ctx)).mxu = (s.ctx p.core (cix p.ctx)).mxu - 1) ∧
    (∀ r rest, (s.octet k).arriving = r :: rest →
      let u := s.modOctet k fun y => { y with arriving := rest }
      let key := (s.cluster (k / 24)).mxcap[Fin.ofNat 24 (k % 24)]
      (key = 0 ∨ r.blk[0] ≠ key → exec .mxremCommandArrival s = .next (s.performed (u.remoteFill r 1))) ∧
      (key ≠ 0 → r.blk[0] = key → 8 ≤ (s.octet k).guest.length → exec .mxremCommandArrival s = .next (s.performed (u.remoteFill r 2))) ∧
      (key ≠ 0 → r.blk[0] = key → (s.octet k).guest.length < 8 → r.legal = false → exec .mxremCommandArrival s = .next (s.performed (u.remoteFill r 3))) ∧
      (key ≠ 0 → r.blk[0] = key → (s.octet k).guest.length < 8 → r.legal = true →
        exec .mxremCommandArrival s = .next (s.performed ((u.modOctet k fun y => { y with guest := y.guest ++ [r] }).post ⟨.mxuOperationStart, [k]⟩)))) ∧
    (∀ p r rest, (s.octet k).guest = r :: rest → (s.octet k).running = some p → p.ctx = 11 →
      exec .guestCommandComplete s = .next (s.performed ((State.guestRun (s.modOctet k fun y => { y with running := none, pins := [], guest := rest }) k r p).mxNext k))) ∧
    (∀ p, s.packets.find? (·.1 == k) = some p → s.overtakes p = true → exec .sendPacketDeliver s = .next (s.performed (s.postMore ⟨.sendPacketDeliver, [k]⟩))) ∧
    (∀ p, s.packets.find? (·.1 == k) = some p → s.overtakes p = false → (s.core p.2.1).asleep = false →
      let y := (s.core p.2.1).qs[Fin.ofNat 16 p.2.2.1]
      let u := { s with packets := s.packets.erase p }
      (mizBase ≤ p.2.1 ∨ y.kind ≠ 3 → exec .sendPacketDeliver s = .next (s.performed (u.schedErr (clusterOf p.2.1 % 32) 2 0 0 p.2.1 0))) ∧
      (p.2.1 < mizBase → y.kind = 3 → 8 < y.ents.length + p.2.2.2.length → exec .sendPacketDeliver s = .next (s.performed s)) ∧
      (p.2.1 < mizBase → y.kind = 3 → y.ents.length + p.2.2.2.length ≤ 8 →
        exec .sendPacketDeliver s = .next (s.performed ((u.modCore p.2.1 fun c =>
          { c with qs := c.qs.set (Fin.ofNat 16 p.2.2.1) { y with ents := y.ents ++ p.2.2.2 } }).wake p.2.1 fun z => z.val == y.reader)))) ∧
    (∀ p, s.packets.find? (·.1 == k) = some p → s.overtakes p = false → p.2.1 < mizBase → (s.core p.2.1).asleep = true →
      let u := s.wakeUp p.2.1
      exec .sendPacketDeliver s = .next (s.performed (u.postIn ((u.core p.2.1).waking - s.time) ⟨.sendPacketDeliver, [k]⟩))) ∧
    (∀ l s1, (s.ctx (s.arg 4) (cix (s.arg 5))).prog = .wlapp → s.list k (s.arg 1) = (some l, s1) → l.asid = s.arg 2 →
      (l.refuses = 0 →
        exec .worklistAppendArrival s = .next (s.performed (((s1.siFlush (s.arg 4)).append k (s.arg 1) l (s.arg 3)).modCtx (s.arg 4) (cix (s.arg 5)) fun c => { c with prog := .done }))) ∧
      (l.refuses ≠ 0 →
        exec .worklistAppendArrival s =
          .next (s.performed ((s1.freeze k (s.arg 1) l).modCtx (s.arg 4) (cix (s.arg 5)) fun c => { c with prog := .wlappRefused l.refuses (s.arg 1) })))) ∧
    (∀ ls s1, State.domainLists (s.arg 1) ((s.domainCores k (s.arg 1)).map clusterOf).eraseDups s = (ls, s1) →
      (s1.idleOn ls (s.arg 1) k = false → exec .worklistQuiescence s = .next (s.performed s1)) ∧
      (s1.idleOn ls (s.arg 1) k = true → s1.quiet k (s.arg 1) ls = true → exec .worklistQuiescence s = .next (s.performed (s1.declareQuiet k (s.arg 1) ls))) ∧
      (s1.idleOn ls (s.arg 1) k = true → s1.quiet k (s.arg 1) ls = false →
        exec .worklistQuiescence s = .next (s.performed (s1.post ⟨.worklistQuiescence, [k, s.arg 1]⟩))))

/-! ## Events: memory, updates, registers -/

/-- R175, R178, R179, R181, R185, R226 to R234, R289, R290, R232, R412, R415, R419, R477, R481: the pair of an update buffer that holds one leaves it; grants; a pair enters its bin, or is applied where the die keeps none; a page is applied; homes serve reads, ownership and atomics, after a self-test of the slice;
a recall and an invalidation leave no copy that they name, or poison the word where the holder's die cannot be reached; fills, write-backs, snoops and walks; writes of registers; errors in the memories, which poison what they
hit. One move an event: log entry 1; that an event whose condition fails changes nothing: log entry 11; the grant that is asked for again: log entry 34; the form of an error: log entry 54. -/
def Obligations.MemoryEvents : Prop :=
  ∀ s : State,
    let k := s.arg 0
    (∀ p, (s.core k).ubuf = [p] → exec .updateBufferDrain s = .next (s.performed ((s.modCore k fun c => { c with ubuf := [] }).drainOne p))) ∧
    ((s.core k).ubuf = [] → exec .updateBufferDrain s = .next (s.performed (s.modCore k fun c => { c with ubuf := [] }))) ∧
    (s.partialRegion k (s.arg 1) = none → exec .uGrantRequest s = .next (s.performed s)) ∧
    (∀ y r g xs, sget (s.core k).l1 (s.arg 1 / 4) = some y → y.st = .u r g xs → s.partialRegion k (s.arg 1) = some r) ∧
    (∀ r, s.partialRegion k (s.arg 1) = some r →
      let page := pageOf (s.arg 1)
      (s.binWait (s.arg 1) ≠ 0 → exec .uGrantRequest s = .next (s.performed (s.postIn (s.binWait (s.arg 1)) ⟨.uGrantRequest, [k, s.arg 1]⟩))) ∧
      (s.binWait (s.arg 1) = 0 → s.binsOf (homeDie (s.arg 1)) = 0 → ∀ y, sget (s.core k).l1 (s.arg 1 / 4) = some y → exec .uGrantRequest s = .next (s.performed (s.sendPartial k y))) ∧
      (s.binWait (s.arg 1) = 0 → s.binsOf (homeDie (s.arg 1)) ≠ 0 → ∀ s1 b, s1 = s.makePending page r → sget s1.bins page = some b →
        exec .uGrantRequest s = .next (s.performed (State.postMore { s1 with bins := sset s1.bins page { b with mask := setBit b.mask (clusterOf k) true } } ⟨.uGrantReturn, [k, s.arg 1]⟩)))) ∧
    (∀ page r, (sget s.bins page = none → sget (s.makePending page r).bins page = some ⟨r, [], [], 0⟩) ∧ (sget s.bins page ≠ none → s.makePending page r = s)) ∧
    (∀ y r g xs, sget (s.core k).l1 (s.arg 1 / 4) = some y → y.st = .u r g xs →
      (s.inMask (pageOf (s.arg 1)) (clusterOf k) = true →
        exec .uGrantReturn s = .next (s.performed (s.modCore k fun c => { c with l1 := sset c.l1 (s.arg 1 / 4) { y with st := .u r true xs } }))) ∧
      (s.inMask (pageOf (s.arg 1)) (clusterOf k) = false → exec .uGrantReturn s = .next (s.performed (s.postMore ⟨.uGrantRequest, [k, s.arg 1]⟩)))) ∧
    (∀ p, (s.flight.find? fun p => homeDie p.pa == k && homeSlice (pageOf p.pa) == s.arg 1) = some p →
      let u := State.noteAccept { s with flight := s.flight.erase p } k (s.arg 1)
      let n := max (s.binWait p.pa) (if s.acceptRate k ≤ s.acceptedNow k (s.arg 1) then 1 else 0)
      (n = 0 → s.binsOf k = 0 → exec .bushelPairAccept s = .next (s.performed (u.applyPair p))) ∧
      (n = 0 → s.binsOf k ≠ 0 → exec .bushelPairAccept s = .next (s.performed (u.acceptPair k (s.arg 1) p))) ∧
      (n ≠ 0 → exec .bushelPairAccept s = .next (s.performed (s.postIn n ⟨.bushelPairAccept, [k, s.arg 1]⟩)))) ∧
    (s.acceptRate k = if s.binsOf k = 0 then 1 else 16) ∧ (∀ pa, s.binWait pa = max (s.testLeft (homeDie pa) (homeSlice (pageOf pa))) (s.applyLeft pa)) ∧
    (6 ≤ s.ev.length →
      let unit := s.arg 3
      let entry := s.arg 4
      (s.arg 2 = 0 → exec .machineCheck s = .next (s.performed (s.reportError 0x88 (s.arg 1) unit entry 0))) ∧
      (s.arg 2 = 1 → s.arg 1 = 0 → exec .machineCheck s = .next (s.performed ((s.markPoison entry (s.arg 5)).reportError 0x80 0 unit entry (4 * entry)))) ∧
      (s.arg 2 = 3 → exec .machineCheck s = .next (s.performed (s.reportError 0x80 (s.arg 1) unit entry entry))) ∧
      (s.arg 2 = 1 → s.arg 1 = 2 → exec .machineCheck s = .next (s.performed ((s.spadLost unit entry).reportError 0x80 2 unit entry 0))) ∧
      (s.arg 2 = 1 → s.arg 1 = 9 → exec .machineCheck s = .next (s.performed ((s.shroudEvict unit entry).reportError 0x88 9 unit entry 0))) ∧
      (s.arg 2 = 1 → s.arg 1 = 6 ∨ s.arg 1 = 7 → exec .machineCheck s = .next (s.performed ((s.reportError 0x80 (s.arg 1) unit entry 0).loseContext unit false))) ∧
      (s.arg 2 = 2 → s.arg 1 = 2 → exec .machineCheck s = .next (s.performed ((s.reportError 0x83 2 unit entry 0).loseContext unit true)))) ∧
    (∀ j w, (s.core j).winDirty w = none → w ∈ ((s.spadLost j w).core j).spoison) ∧
    (∀ j w y, (s.core j).winDirty w = some y → y.w ∈ (s.spadLost j w).poison) ∧
    (∀ w n v, v ∈ (s.markPoison w n).poison ↔ v ∈ s.poison ∨ w ≤ v ∧ v < w + n) ∧
    (∀ d line j, dieOf j = d → ∀ y ∈ ((s.shroudEvict d line).core j).copies, y.uPart? = none → y.w / 16 ≠ line) ∧
    (∀ page x, sget s.bins page ≠ none → ∀ v, page / 4 ≤ v → v < page / 4 + 1024 → v ∈ (s.binLost page x).poison) ∧
    exec .binPageApply s = .next (s.performed (s.applyPage (pageOf k))) ∧
    (∀ page, sget s.bins page = none → s.applyPage page = s) ∧
    (let pa := s.arg 1
      let left := s.testLeft (homeDie pa) (homeSlice pa)
      let words := (List.range (spanWords pa (s.arg 2))).map (pa / 4 + ·)
      (left ≠ 0 → pa < hostBase →
        exec .homeReadRequest s = .next (s.performed (s.postIn left ⟨.homeReadRequest, s.ev⟩)) ∧ exec .homeAtomic s = .next (s.performed (s.postIn left ⟨.homeAtomic, s.ev⟩)) ∧
        exec .homeOwnershipRequest s = .next (s.performed (s.postIn left ⟨.homeOwnershipRequest, s.ev⟩))) ∧
      (left = 0 ∨ hostBase ≤ pa →
        (attrOf (s.arg 3) ≠ .dir → exec .homeReadRequest s = .next (s.performed ((s.touch pa).postMore ⟨.fillReturn, [k, pa, s.arg 3]⟩))) ∧
        (attrOf (s.arg 3) = .dir →
          exec .homeReadRequest s = .next (s.performed ((words.foldl (fun u w => u.recall (some k) w) (s.touch pa)).postMore ⟨.fillReturn, [k, pa, s.arg 3]⟩))) ∧
        exec .homeOwnershipRequest s =
          .next (s.performed (words.foldl (fun u w => u.ownClean k w) ((s.touch pa).homeInvalidate (some k) pa 0 (pa / 4) (spanWords pa (s.arg 2)))))) ∧
      (left = 0 ∨ hostBase ≤ pa →
        (k = 6 → exec .homeAtomic s = .next (s.performed (s.fillFuture pa (BitVec.ofNat 64 (s.arg 2))))) ∧
        (k = 7 → exec .homeAtomic s = .next (s.performed (s.clearFuture pa))) ∧
        (k = 5 → ∀ old s1, s.homeRead pa 8 = (old, s1) → s1.anyPoison pa 8 = false →
          exec .homeAtomic s = .next (s.performed (s1.homeWrite pa 8 ((old + s.arg 2 % 2 ^ 64) % 2 ^ 64)))) ∧
        (k = 3 → ∀ old s1, s.homeRead pa 8 = (old, s1) → s1.anyPoison pa 8 = false →
          (old = s.arg 2 % 2 ^ 64 → exec .homeAtomic s = .next (s.performed (s1.homeWrite pa 8 (s.arg 3 % 2 ^ 64)))) ∧
          (old ≠ s.arg 2 % 2 ^ 64 → exec .homeAtomic s = .next (s.performed s1))))) ∧
    (∀ but w j, sget s.dir w = some (.owned j) → some j ≠ but →
      (s.apart j (homeDie (4 * w)) = false → ((s.recall but w).core j).dirty w = none) ∧ (s.apart j (homeDie (4 * w)) = true → w ∈ (s.recall but w).poison)) ∧
    (∀ but d w j, some j ≠ but → s.mayHold j w = true → s.apart j (homeDie (4 * w)) = false → ∀ y ∈ ((s.invalidate but d w).core j).copies, y.heldDir w = false) ∧
    (attrOf (s.arg 2) = .uc → exec .fillReturn s = .next (s.performed s)) ∧
    (attrOf (s.arg 2) ≠ .uc → exec .fillReturn s = .next (s.performed (s.fillL1 k (s.arg 1 / 64) (attrOf (s.arg 2))))) ∧
    exec .writeBackArrival s = .next (s.performed (s.writeBack k fun y => y.w == s.arg 1 / 4)) ∧
    (∀ y ∈ ((s.writeBack k fun y => y.w == s.arg 1 / 4).core k).copies, y.w = s.arg 1 / 4 → y.st ≠ .d) ∧
    exec .shroudSnoop s = .next (s.performed (s.snoop k (s.arg 1) (s.arg 2) (s.arg 3 == 1))) ∧
    (∀ r s1, s.pageWalk k (s.arg 1) (s.arg 2) = (r, s1) →
      let u := match r with
        | .ok t => s1.modCluster k fun c => { c with tlb := clusterFill t c.tlb }
        | .error _ => s1
      let w := (s1.cluster k).walks.find? fun w => w.running && w.asid == s.arg 1 && w.page == s.arg 2 / 4096
      (w = none → exec .pageWalkComplete s = .next (s.performed u)) ∧
      ∀ v, w = some v → exec .pageWalkComplete s = .next (s.performed (((u.modCluster k fun c => { c with walks := c.walks.erase v }).walkDone v r).nextWalk k))) ∧
    (s.arg 1 ≤ 16 → ∀ u, s.regWrite (regBase + 0x100000 + k % 4 * 0x10000 + s.arg 1) 2 (BitVec.ofNat 64 (s.arg 2)) = some u → exec .binConfigWrite s = .next (s.performed u)) ∧
    (16 < s.arg 1 → exec .binConfigWrite s = .next (s.performed s)) ∧
    (∀ u, s.regWrite (s.arg 1) k (BitVec.ofNat 64 (s.arg 2)) = some u → exec .registerWrite s = .next (s.performed u)) ∧
    (s.regWrite (s.arg 1) k (BitVec.ofNat 64 (s.arg 2)) = none → exec .registerWrite s = .next (s.performed s))

/-! ## Events: power and test -/

/-- R22, R179, R250, R251, R255 to R257, R415, R433, R480, R490, R491: an energy window grants each cluster of its die ECAP times the smaller factor over 256, less what its slices hold; idle states are entered when they are due, with what they lose; a core wakes; droops, the limits of temperature (105 degrees
for the clock, 100 for its end, 110 for the trip), which a window heeds as the events do, and the set point; the end of a self-test and of a lane measurement. One move an event: log entry 1; sensor, test and margin results are
free: log entry 8; that an event whose condition fails changes nothing: log entry 11; one energy window a move: log entry 19; idle states: log entry 21; that the trip fences the die in the same move: log entry 22. -/
def Obligations.PowerEvents : Prop :=
  ∀ s : State,
    let d := s.arg 0
    (s.time / 22500 ≤ (s.die d).window → exec .energyWindow s = .next (s.performed s)) ∧
    ((s.die d).window < s.time / 22500 → d < 4 →
      ∃ u : State, exec .energyWindow s = .next (s.performed (u.heed d (fld (Config.freeWord s.fresh) 16 12))) ∧ u.time = s.time ∧ (u.die d).window = (s.die d).window + 1 ∧ (u.die d).tf ≤ 256 ∧ 16 ≤ (u.die d).tf ∧
        (u.die d).vf = (if (s.die d).droopInWindow then 128 else min 256 ((s.die d).vf + 32)) ∧
        ∀ i, i < 8 → (u.cluster (8 * d + i)).egrant = (s.cluster (8 * d + i)).ecap.toNat % 65536 * min (u.die d).tf (u.die d).vf / 256 ∧
          (u.cluster (8 * d + i)).erem = ((u.cluster (8 * d + i)).egrant : Int) - s.charges (8 * d + i)) ∧
    (s.c2Due d = false → exec .coreEnterC2 s = .next (s.performed s)) ∧
    (s.c2Due d = true → ∃ u, exec .coreEnterC2 s = .next u ∧ (u.core d).l1 = [] ∧ (u.core d).tlb = [] ∧ (u.core d).idle = .c2 ∧ (u.core d).sleepAt = s.time ∧ (u.core d).spad = (s.core d).spad) ∧
    (s.c3Due d = false → exec .clusterEnterC3 s = .next (s.performed s)) ∧
    (s.c3Due d = true → exec .clusterEnterC3 s = .next (s.performed (s.modCluster d fun c => { c with tlb := [], roots := [], idle := .c3 }))) ∧
    (s.c4Due d = false → exec .dieEnterC4 s = .next (s.performed s)) ∧
    (s.c4Due d = true → ∃ u, exec .dieEnterC4 s = .next u ∧ (u.die d).idle = .c4 ∧ (u.die d).l2 = [] ∧ ∀ i, i < 8 → (u.cluster (8 * d + i)).idle = .c4) ∧
    ((s.core d).asleep = false ∨ (s.core d).waking ≠ 0 → exec .unitWake s = .next (s.performed s)) ∧
    ((s.core d).asleep = true → (s.core d).waking = 0 →
      exec .unitWake s = .next (s.performed ((s.modCore d fun c => { c with waking := s.time + s.exitLatency d }).postIn (s.exitLatency d) ⟨.wakeExitLatencyEnd, [d]⟩))) ∧
    ((s.core d).waking = 0 → exec .wakeExitLatencyEnd s = .next (s.performed s)) ∧
    ((s.core d).waking ≠ 0 → ∃ u, exec .wakeExitLatencyEnd s = .next u ∧ (u.core d).waking = 0 ∧
      ((s.core d).slice = none → (u.core d).ep = ((s.core d).ep + (s.time / 22500 - (s.core d).sleepAt / 22500) + 1) % 65536 ∧ (u.core d).idle = s.idleState ∧
        (u.cluster (clusterOf d)).idle = .run) ∧
      ∀ sl, (s.core d).slice = some sl → (u.core d).idle = .run ∧ (u.ctx d 0).st = .starting) ∧
    exec .hostLtrMessage s = .next (s.performed (State.settleIdle { s with ltr := sset s.ltr d (s.arg 1, s.arg 2) })) ∧
    (s.idleState = if 40 ≤ s.latencyL then .c1 else .run) ∧
    exec .supplyDroop s = .next (s.performed ((s.modDie d (Die.reclock s.time fun y => { y with
      droopSteps := y.droopSteps + 1, droopInWindow := true
      pwrevt := putBits (putBits y.pwrevt 1 1 1) 32 16 (min 65535 (fld y.pwrevt 32 16 + 1)) })).postMore ⟨.droopClockStepEnd, [d]⟩)) ∧
    exec .droopClockStepEnd s = .next (s.performed (s.modDie d (Die.reclock s.time fun y => { y with droopSteps := y.droopSteps - 1 }))) ∧
    (let t := s.arg 1;
      (840 ≤ t → exec .dieOvertempClockLimit s = .next (s.performed (s.heed d t))) ∧ (t < 840 → exec .dieOvertempClockLimit s = .next (s.performed s)) ∧
      (t < 800 → exec .overtempClockLimitEnd s = .next (s.performed (s.heed d t))) ∧ (800 ≤ t → exec .overtempClockLimitEnd s = .next (s.performed s)) ∧
      (880 ≤ t → exec .thermalTrip s = .next (s.performed (s.heed d t))) ∧ (t < 880 → exec .thermalTrip s = .next (s.performed s))) ∧
    (∀ t,
      (880 ≤ t → (s.die d).tripped = true → s.heed d t = s) ∧
      (880 ≤ t → (s.die d).tripped = false → ((s.heed d t).die d).tripped = true ∧ ((s.heed d t).die d).fenced = true ∧ bit ((s.heed d t).die d).pwrevt 2 = true) ∧
      (840 ≤ t → t < 880 → s.heed d t = s.modDie d (Die.reclock s.time fun y => { y with tempLimit := true })) ∧
      (800 ≤ t → t < 840 → s.heed d t = s) ∧
      (t < 800 → s.heed d t = if (s.die d).tempLimit = true then s.modDie d (Die.reclock s.time fun y => { y with tempLimit := false }) else s)) ∧
    (∀ y : Die, ({ y with tempLimit := true }).clock ≤ 20) ∧
    (∀ (y : Die) (f : Die → Die), (y.reclock s.time f) = f { y with beats := y.beats + (s.time - y.since) * y.clock, since := s.time }) ∧
    exec .dieSupplySetPointChange s = .next (s.performed (s.modDie d (Die.reclock s.time fun y => { y with setpoint := max 380 (min 650 (s.arg 1)) }))) ∧
    ((s.ctx d 0).prog ≠ .bist → exec .bistComplete s = .next (s.performed s)) ∧
    ((s.ctx d 0).prog = .bist → ∃ u y, exec .bistComplete s = .next u ∧ (u.ctx d 0).prog = .bistDone y ∧ (bit (Config.freeWord s.fresh) 0 = false → y = 0)) ∧
    exec .lanemargStart s = .next (s.performed (s.laneStart d)) ∧
    (d < 4 → (s.die d).measuring = false → exec .laneMarginDone s = .next (s.performed s)) ∧
    (d < 4 → (s.die d).measuring = true →
      ∃ u, exec .laneMarginDone s = .next u ∧ (u.die d).measuring = false ∧ bit (u.die d).lanemarg 30 = true ∧ fld (u.die d).lanemarg 0 30 = fld (s.die d).lanemarg 0 30)

/-! ## Events: links and mailbox -/

/-- R420, R421, R423, R424, R428, R429, R478, R489: host accesses through BAR0, of a doubleword at level S, and through BAR2 to populated bonded DRAM, those of one link in order; a capacity port that trains and its size; peer requests; a peer request that has had no completion
for 10 ms completes poisoned; a failed link raises machine check 0x81, or is reported; the firmware serves the oldest mailbox message of a row, answers its status and raises MSI-X, and leaves a message of another row to that
row; the management port asks for the same. One move an event: log entry 1; sizes of accesses: log entry 23; that an event whose condition fails changes nothing: log entry 11; the time that a die in C4 takes: log entry 21; a
link failure without a snoop: log entry 22; the mailbox behind a row of another opcode and before stage 4, and what a buffer is: log entry 24; host memory that the host does not serve: log entry 61; requests of the management
port: log entry 66. -/
def Obligations.PlatformEvents : Prop :=
  ∀ s : State,
    (let link := s.arg 0
      let wr := s.arg 2 == 1
      let args := fun (awake : Nat) => (List.range 6).map s.arg ++ [if s.arg 6 = 0 then s.moves + 1 else s.arg 6, awake]
      (∀ t, s.linkAhead link (s.arg 6) = some t → exec .hostBarAccess s = .next (s.performed (s.postIn (t - s.time) ⟨.hostBarAccess, args (s.arg 7)⟩))) ∧
      (s.linkAhead link (s.arg 6) = none → s.arg 1 = 0 → ∀ n t, s.wakeUnit (s.barUnit (s.arg 3) (s.arg 4)) = (n, t) →
        (n ≠ 0 → s.arg 7 = 0 → exec .hostBarAccess s = .next (s.performed (t.postIn n ⟨.hostBarAccess, args 1⟩))) ∧
        (n = 0 → s.arg 7 = 0 → exec .hostBarAccess s = .next (s.performed (t.bar0 link (s.arg 3) (s.arg 4) wr (BitVec.ofNat 64 (s.arg 5))))) ∧
        (s.arg 7 ≠ 0 → exec .hostBarAccess s = .next (s.performed ((s.unitAwake (s.barUnit (s.arg 3) (s.arg 4))).bar0 link (s.arg 3) (s.arg 4) wr (BitVec.ofNat 64 (s.arg 5)))))) ∧
      (s.linkAhead link (s.arg 6) = none → s.arg 1 ≠ 0 →
        exec .hostBarAccess s = .next (s.performed (State.bar2 { s with ev := args 0 } link (s.arg 3) (min 8 (s.arg 4)) wr (BitVec.ofNat 64 (s.arg 5)))))) ∧
    (∀ (link off n : Nat) (x : Word),
      (s.bar0Ok off n = true ↔ n = 8 ∧ off % 8 = 0 ∧ off < (if s.boot.up then 0x400000 else 0x100000)) ∧
      (s.bar0Ok off n = false → s.bar0 link off n true x = s ∧ s.bar0 link off n false x = { s with sent := s.sent ++ [.barRead link 0 false] }) ∧
      (s.bar0Ok off n = true →
        (∀ y, s.regRead (regBase + off) 1 = some y → s.bar0 link off n false x = { s with sent := s.sent ++ [.barRead link y true] }) ∧
        (s.regRead (regBase + off) 1 = none → s.bar0 link off n false x = { s with sent := s.sent ++ [.barRead link 0 false] }) ∧
        (s.regWrite (regBase + off) 1 x = none → s.bar0 link off n true x = s) ∧
        (∀ u, s.regWrite (regBase + off) 1 x = some u → u.mbx = s.mbx → s.bar0 link off n true x = u)) ∧
      (s.boot.up = false ∨ s.bonded off n = false ∨ s.routeCut link (homeDie off) = true →
        s.bar2 link off n true x = s ∧ s.bar2 link off n false x = { s with sent := s.sent ++ [.barRead link 0 false] }) ∧
      (s.boot.up = true → s.bonded off n = true → s.routeCut link (homeDie off) = false →
        s.bar2 link off n true x = s.serveAt .hostBarAccess off (fun u => u.homeWrite off n x.toNat) ∧
        s.bar2 link off n false x = s.serveAt .hostBarAccess off fun u =>
          let r := u.homeRead off n
          { r.2 with sent := r.2.sent ++ [.barRead link (BitVec.ofNat 64 r.1) (!r.2.anyPoison off n)] })) ∧
    (let off := s.arg 1
      let n := min 8 (s.arg 2)
      let up := s.portUp (s.arg 5) (s.arg 6)
      (up = false → exec .peerRequestArrival s = .next (s.performed s)) ∧
      (up = true → s.bonded off n = false ∨ s.routeCut (s.arg 5) (homeDie off) = true →
        (s.arg 0 = 1 → exec .peerRequestArrival s = .next (s.performed s)) ∧
        (s.arg 0 ≠ 1 → exec .peerRequestArrival s = .next (s.performed { s with sent := s.sent ++ [.peerRead 0 false] }))) ∧
      (up = true → s.bonded off n = true → s.routeCut (s.arg 5) (homeDie off) = false →
        let read := fun (u : State) => ({ (u.homeRead off n).2 with
          sent := (u.homeRead off n).2.sent ++ [.peerRead (BitVec.ofNat 64 (u.homeRead off n).1) (!(u.homeRead off n).2.anyPoison off n)] } : State)
        (s.arg 0 = 1 → exec .peerRequestArrival s = .next (s.performed (s.serveAt .peerRequestArrival off fun u => u.homeWrite off n (s.arg 3)))) ∧
        (s.arg 0 = 0 → exec .peerRequestArrival s = .next (s.performed (s.serveAt .peerRequestArrival off read))) ∧
        (2 ≤ s.arg 0 → exec .peerRequestArrival s = .next (s.performed (s.serveAt .peerRequestArrival off fun u =>
          (read u).homeAtomic (peerAtomic (s.arg 0) n) off (BitVec.ofNat 64 (s.arg 3)) (BitVec.ofNat 64 (s.arg 4))))))) ∧
    (∀ row d f,
      ((s.die d).idle ≠ .c4 → s.serve row d f = f (s.modDie d fun y => { y with lastReq := s.time })) ∧
      ((s.die d).idle = .c4 → (s.die d).wakeAt = 0 →
        s.serve row d f = (s.modDie d fun y => { y with wakeAt := s.time + 4500000, lastReq := s.time }).postIn 4500000 ⟨row, s.ev⟩)) ∧
    (∀ row pa f, (s.die (homeDie pa)).idle ≠ .c4 →
      let u := s.modDie (homeDie pa) fun y => { y with lastReq := s.time }
      (u.homeWait pa = 0 → s.serveAt row pa f = f u) ∧ (u.homeWait pa ≠ 0 → s.serveAt row pa f = u.postIn (u.homeWait pa) ⟨row, s.ev⟩)) ∧
    ((∀ p ∈ s.subject.prods, ∀ q, p.peer = some q → s.time < q.2.2 + 22500000) → exec .peerRequestTimeout s = .next (s.performed s)) ∧
    (∀ p q, s.subject.prods = [p] → p.peer = some q → q.2.2 + 22500000 ≤ s.time → s.subject.entering = none →
      exec .peerRequestTimeout s = .next (s.performed (s.modSubject fun c => { c with prods := [], poisonQ := c.poisonQ ++ [(q.1, q.2.1)] }))) ∧
    (let u := { s with downLinks := (linkOf (s.arg 0), s.arg 1, s.arg 2) :: s.downLinks };
      (4 ≤ s.arg 0 → exec .linkFailure s = .next (s.performed u)) ∧
      (s.arg 0 = 0 → exec .linkFailure s = .next (s.performed (State.answerCut { u with sent := u.sent ++ [.surpriseDown (s.arg 1)] }))) ∧
      (s.arg 0 = 1 → exec .linkFailure s = .next (s.performed (State.answerCut
        ((u.machineCheck (mizIo (s.arg 1)) 0x81 (mcDetail 4 (72 * s.arg 1 + s.arg 2) 0xFFFF 0) 0).stopPodColls (pairsOf (s.ev.drop 3)))))) ∧
      (s.arg 0 = 2 → exec .linkFailure s = .next (s.performed (State.answerCut
        ((u.modIod (s.arg 1) fun y => { y with cxldown := s.arg 2 :: y.cxldown }).machineCheck (mizIo (s.arg 1)) 0x81 (mcDetail 5 (4 * s.arg 1 + s.arg 2) 0xFFFF 0) 0)))) ∧
      (s.arg 0 = 3 → s.arg 4 = 0 → exec .linkFailure s = .next (s.performed (State.answerCut
        (u.machineCheck (if s.arg 1 < 4 then mizOf (s.arg 1) else mizIo (s.arg 1 - 4)) 0x81 (mcDetail 3 (s.arg 2) 0xFFFF 0) 0)))) ∧
      (s.arg 0 = 3 → s.arg 4 ≠ 0 → exec .linkFailure s = .next (s.performed (u.dieFence (s.arg 1) (s.arg 2) (s.arg 3) (s.arg 4))))) ∧
    (∀ l a n, s.ev = 0 :: l :: a :: n :: s.ev.drop 4 → exec .linkTraining s = .next (s.performed { s with
      downLinks := s.downLinks.filter (fun x => !(x == (LinkKind.host, l, a))), hostErrs := pairsOf (s.ev.drop 4) })) ∧
    (s.arg 0 = 2 → s.arg 3 ≠ 1 → exec .linkTraining s = .next (s.performed (State.modIod { s with downLinks := s.downLinks.filter fun l => !(l == (LinkKind.cxl, s.arg 1, s.arg 2)) } (s.arg 1)
      fun y => { y with cxlsz := y.cxlsz.set (Fin.ofNat 4 (s.arg 2)) (BitVec.ofNat 64 (min 1024 (Config.fittedGib (4 * s.arg 1 + s.arg 2)))) }))) ∧
    (∀ a, hostBase ≤ a → a < peerBase → (s.unreachable a = true ↔ ∃ r ∈ s.hostErrs, hostBase + r.1 ≤ a ∧ a < hostBase + r.1 + r.2)) ∧
    (s.arg 0 = 1 → s.boot.stage = 4 → (∀ d ∈ s.downLinks, d.1 = .management → d.2.1 ≠ s.boot.rom) →
      let answer := fun (op st : Nat) (l : List Byte) (u : State) => { u with sent := u.sent ++ [Sent.redfish op st l] }
      exec .mbxReadDefectMap s = .next (s.performed (answer 1 0 s.mapBytes s)) ∧
      exec .mbxAttestationReport s = .next (s.performed (answer 2 0 (s.attestation (leBytes 32 (s.arg 1))) s)) ∧
      exec .mbxSetMarginv s = .next (s.performed (answer 3 (s.setMarginv (s.arg 1) (s.arg 2)).1 [] (s.setMarginv (s.arg 1) (s.arg 2)).2)) ∧
      exec .mbxIdentityCertificate s = .next (s.performed (answer 5 0 (Config.certificate.take 4096) s))) ∧
    (s.arg 0 ≠ 1 → s.mbx = [] →
      exec .mbxReadDefectMap s = .next (s.performed s) ∧ exec .mbxAttestationReport s = .next (s.performed s) ∧ exec .mbxSetMarginv s = .next (s.performed s) ∧
      exec .mbxSendUet s = .next (s.performed s) ∧ exec .mbxIdentityCertificate s = .next (s.performed s)) ∧
    (∀ m rest op s1, s.arg 0 ≠ 1 → s.mbx = m :: rest → s.homeRead m.1 4 = (op, s1) →
      (s.boot.stage = 4 → mbxRow op = .mbxSetMarginv → ∀ a b s2 s3, s1.homeRead (m.1 + 16) 8 = (a, s2) → s2.homeRead (m.1 + 24) 8 = (b, s3) →
        (a < 4 → -16 ≤ (BitVec.ofNat 64 b).toInt → (BitVec.ofNat 64 b).toInt ≤ 15 →
          exec .mbxSetMarginv s = .next (s.performed ((s3.modDie a fun y => { y with marginv := BitVec.ofNat 64 (b % 32) }).mbxDone 0 0))) ∧
        (4 ≤ a ∨ (BitVec.ofNat 64 b).toInt < -16 ∨ 15 < (BitVec.ofNat 64 b).toInt → exec .mbxSetMarginv s = .next (s.performed (s3.mbxDone 3 0)))) ∧
      (s.boot.stage = 4 → mbxRow op = .mbxIdentityCertificate → ∀ a s2, s1.homeRead (m.1 + 16) 8 = (a, s2) →
        (s2.buffer a 4096 = true →
          exec .mbxIdentityCertificate s = .next (s.performed ((s2.homeBytes a (Config.certificate.take 4096)).mbxDone 0 (Config.certificate.take 4096).length))) ∧
        (s2.buffer a 4096 = false → exec .mbxIdentityCertificate s = .next (s.performed (s2.mbxDone 3 0)))) ∧
      (∀ row, row = .mbxReadDefectMap ∨ row = .mbxAttestationReport ∨ row = .mbxSetMarginv ∨ row = .mbxSendUet ∨ row = .mbxIdentityCertificate →
        (s.boot.stage ≠ 4 → exec row s = .next (s.performed (s1.postMore ⟨row, []⟩))) ∧
        (s.boot.stage = 4 → mbxRow op ≠ row → exec row s = .next (s.performed ((s1.post ⟨mbxRow op, []⟩).postMore ⟨row, []⟩)))) ∧
      (s.boot.stage = 4 → mbxRow op = .mbxReadDefectMap → ∀ op2 s2, s1.homeRead m.1 4 = (op2, s2) → op2 ≠ 1 →
        exec .mbxReadDefectMap s = .next (s.performed (s2.mbxDone 2 0))) ∧
      (s.boot.stage = 4 → mbxRow op = .mbxReadDefectMap → ∀ s2 a s3 n s4, s1.homeRead m.1 4 = (1, s2) → s2.homeRead (m.1 + 16) 8 = (a, s3) → s3.homeRead (m.1 + 24) 8 = (n, s4) →
        4112 ≤ n → s4.buffer a n = true → exec .mbxReadDefectMap s = .next (s.performed ((s4.homeBytes a s4.mapBytes).mbxDone 0 s4.mapBytes.length))) ∧
      (s.boot.stage = 4 → mbxRow op = .mbxAttestationReport → ∀ a s2 b s3 x s4, s1.homeRead (m.1 + 16) 8 = (a, s2) → s2.homeRead (m.1 + 24) 8 = (b, s3) →
        s3.buffer a 32 = true → s3.buffer b 2048 = true → s3.homeReadBytes a 32 = (x, s4) →
        exec .mbxAttestationReport s = .next (s.performed ((s4.homeBytes b (s4.attestation x)).mbxDone 0 (s4.attestation x).length))) ∧
      (s.boot.stage = 4 → mbxRow op = .mbxSendUet → ∀ a s2 n s3 b s4 x s5, s1.homeRead (m.1 + 16) 8 = (a, s2) → s2.homeRead (m.1 + 24) 8 = (n, s3) → s3.homeRead (m.1 + 32) 8 = (b, s4) →
        n ≤ 2 ^ 20 → s4.buffer a n = true → s4.buffer b 32 = true → s4.homeReadBytes a n = (x, s5) → ∀ y s6, s5.homeRead b 24 = (y, s6) →
        exec .mbxSendUet s = .next (s.performed (State.mbxDone { s6 with sent := s6.sent ++ [.uet (.uet (bits y 0 128) (bits y 128 32) (bits y 160 32)) x] } 0 0))))

/-! ## Reset -/

/-- R6, R35, R70, R80 to R87, R93, R95, R96: what a context and a core hold after module reset; R183, R221, R420, R430: what the module holds; R45, R241, R250, R466: a cluster; R22, R232, R251, R420: a die. Memory
and every scratchpad are in canonical form (log entry 2). For the full bits, the windows and CFGV the spec gives no value at module reset: that they are set, unmapped and 0 are the choices of log entries 3 and 4; of the other
values of log entry 3 none is stated here. -/
def Obligations.ResetValues : Prop :=
  Canonical State.reset ∧
  (∀ (k : Nat) (x : Fin 11),
    let c := State.reset.ctx k x
    (∀ r : GReg, c.gFull r = true) ∧ c.vf = BitVec.allOnes 16 ∧ (∀ i : Fin 8, c.slots[i].used = false) ∧ c.prods = [] ∧ c.ldnm = false ∧ c.anul = 0 ∧
    (isMiz k = false → State.reset.cregGet k x .status = BitVec.ofNat 64 (x.val * 0x10000)) ∧
    (∀ cr, cr ∈ [CReg.qgd, .ssb, .ssl, .uivec, .uitag, .uicause, .fmode, .fflags, .streammap, .issuepol, .deleg, .epoch, .time] → State.reset.cregGet k x cr = 0) ∧
    State.reset.cregGet k x .greedylim = 64 ∧ State.reset.cregGet k x .csap = 0xBB80) ∧
  (∀ k : Nat,
    let c := State.reset.core k
    (∀ i : Fin 16, (c.qs[i]).kind = 0 ∧ (c.qs[i]).ents = []) ∧ (∀ i : Fin 4, (c.tiles[i]).full = true) ∧
    (∀ i : Fin 8, (c.chans[i]).d0 = 0 ∧ (c.chans[i]).mask = 1 ∧ (c.chans[i]).done = 0 ∧ (c.chans[i]).spent = 0 ∧ (c.chans[i]).arr = [] ∧ (c.mtx[i]).owner = none ∧ (c.sem[i]).count = 0 ∧ c.wins[i] = none) ∧
    (∀ i : Fin 64, (c.tags[i]).st = .idle) ∧ c.cq = [] ∧ c.cfgv = false ∧ c.locks = [] ∧ c.slice = none) ∧
  (∀ k : Nat,
    let c := State.reset.cluster k
    c.meetwin = 0x20 ∧ c.ecap = 800 ∧ c.egrant = 800 ∧ c.erem = 800 ∧ c.urgency = 22500 ∧ c.schederr = 0 ∧ c.schederra = 0 ∧
    (∀ i : Fin 16, (c.qs[i]).sqbase = 0 ∧ (c.qs[i]).en = false ∧ (c.qs[i]).cls = 0 ∧ (c.qs[i]).recs = []) ∧ (∀ i : Fin 3, c.quar[i] = 0) ∧ (∀ i : Fin 24, c.mxcap[i] = 0)) ∧
  (∀ d : Nat,
    let y := State.reset.die d
    y.bcfg = 16 ∧ y.bspbase = BitVec.ofNat 64 (d * 0x1000000000 + 0x880000000) ∧ y.bspsize = 2048 ∧ y.diepwr = 0 ∧ y.marginv = 0 ∧ y.monPwr = 0 ∧ y.monV = 450 ∧ y.monTemp = 0 ∧
    y.tf = 256 ∧ y.vf = 256 ∧ y.pwrevt = 0) ∧
  State.reset.time = 0 ∧ State.reset.boot.up = false ∧ State.reset.fempty = [] ∧ State.reset.regions = [] ∧ State.reset.asidtbase = 0 ∧ State.reset.resdest = 0
end

