-- ==== Sys2Proof/Laws/State.lean ====
section
/-!
SUPPORT. One lemma for each field and each update of the state, so that no later proof unfolds a record update; and reading back a unit that was replaced.
-/

namespace Sys2Proof.Machine

/-! ## Maps -/

theorem sget_sset_same {α : Type} (l : List (Nat × α)) (n : Nat) (y : α) : sget (sset l n y) n = some y := by
  induction l with
  | nil => simp [sset, sget]
  | cons e t ih =>
    obtain ⟨k, x⟩ := e
    simp only [sset]
    split
    · simp [sget]
    · split
      · simp [sget]
      · next h => simp [sget, Ne.symm h, ih]

theorem sget_sset_ne {α : Type} (l : List (Nat × α)) {n m : Nat} (y : α) (h : n ≠ m) : sget (sset l n y) m = sget l m := by
  induction l with
  | nil => simp [sset, sget, h]
  | cons e t ih =>
    obtain ⟨k, x⟩ := e
    simp only [sset]
    split
    · simp [sget, h]
    · split
      · next hk => subst hk; simp [sget, h]
      · simp only [sget, ih]

theorem sget_sdel_same {α : Type} (l : List (Nat × α)) (n : Nat) : sget (sdel l n) n = none := by
  induction l with
  | nil => rfl
  | cons e t ih =>
    obtain ⟨k, x⟩ := e
    simp only [sdel]
    split
    · exact ih
    · next h => simp [sget, h, ih]

theorem sget_sdel_ne {α : Type} (l : List (Nat × α)) {n m : Nat} (h : n ≠ m) : sget (sdel l n) m = sget l m := by
  induction l with
  | nil => rfl
  | cons e t ih =>
    obtain ⟨k, x⟩ := e
    simp only [sdel]
    split
    · next hk => subst hk; simp [sget, h, ih]
    · simp only [sget, ih]

/-! ## Units replaced and read back -/

@[simp] theorem State.core_setCore (s : State) (k : Nat) (c : Core) : (s.setCore k c).core k = c := by
  simp [State.core, State.setCore, sget_sset_same]
theorem State.core_setCore_ne (s : State) {k j : Nat} (c : Core) (h : k ≠ j) : (s.setCore k c).core j = s.core j := by
  simp [State.core, State.setCore, sget_sset_ne _ _ h]
@[simp] theorem State.core_modCore (s : State) (k : Nat) (f : Core → Core) : (s.modCore k f).core k = f (s.core k) := by
  simp [State.modCore]
theorem State.core_modCore_ne (s : State) {k j : Nat} (f : Core → Core) (h : k ≠ j) : (s.modCore k f).core j = s.core j :=
  s.core_setCore_ne _ h
@[simp] theorem Core.ctx_setCtx (c : Core) (x : Fin 11) (t : Ctx) : (c.setCtx x t).ctx x = t := by
  simp [Core.ctx, Core.setCtx]
theorem Core.ctx_setCtx_ne (c : Core) {x y : Fin 11} (t : Ctx) (h : x ≠ y) : (c.setCtx x t).ctx y = c.ctx y := by
  have : x.val ≠ y.val := Fin.val_ne_of_ne h
  simp [Core.ctx, Core.setCtx, Vector.getElem_set_ne, this]
@[simp] theorem State.ctx_setCtx (s : State) (k : Nat) (x : Fin 11) (t : Ctx) : (s.setCtx k x t).ctx k x = t := by
  simp [State.ctx, State.setCtx]
@[simp] theorem State.ctx_modCtx (s : State) (k : Nat) (x : Fin 11) (f : Ctx → Ctx) : (s.modCtx k x f).ctx k x = f (s.ctx k x) := by
  simp [State.modCtx]
theorem State.ctx_modCtx_ne (s : State) {k j : Nat} {x y : Fin 11} (f : Ctx → Ctx) (h : k ≠ j ∨ x ≠ y) :
    (s.modCtx k x f).ctx j y = s.ctx j y := by
  by_cases hk : k = j
  · subst hk
    have hx : x ≠ y := by simpa using h
    simp [State.modCtx, State.setCtx, State.ctx, Core.ctx_setCtx_ne _ _ hx]
  · simp [State.modCtx, State.setCtx, State.ctx, State.core_setCore_ne _ _ hk]
theorem State.core_modCtx_ne (s : State) {k j : Nat} (x : Fin 11) (f : Ctx → Ctx) (h : k ≠ j) : (s.modCtx k x f).core j = s.core j :=
  s.core_setCore_ne _ h
theorem State.ctx_modCore (s : State) (k : Nat) (x : Fin 11) (f : Core → Core) : (s.modCore k f).ctx k x = (f (s.core k)).ctx x := by
  simp [State.ctx]
@[simp] theorem State.cluster_modCluster (s : State) (c : Nat) (f : Cluster → Cluster) : (s.modCluster c f).cluster c = f (s.cluster c) := by
  simp [State.cluster, State.modCluster, sget_sset_same]
@[simp] theorem State.octet_modOctet (s : State) (o : Nat) (f : Octet → Octet) : (s.modOctet o f).octet o = f (s.octet o) := by
  simp [State.octet, State.modOctet, sget_sset_same]
@[simp] theorem State.die_modDie (s : State) (d : Nat) (f : Die → Die) : (s.modDie d f).die d = f (s.die d) := by
  simp [State.die, State.modDie, sget_sset_same]
@[simp] theorem State.iod_modIod (s : State) (e : Nat) (f : IoDie → IoDie) : (s.modIod e f).iod e = f (s.iod e) := by
  simp [State.iod, State.modIod, sget_sset_same]

/-! ## Fields of the state under each update -/

@[simp] theorem State.setCore_time (s : State) (k : Nat) (c : Core) : (s.setCore k c).time = s.time := rfl
@[simp] theorem State.setCore_clusters (s : State) (k : Nat) (c : Core) : (s.setCore k c).clusters = s.clusters := rfl
@[simp] theorem State.setCore_octets (s : State) (k : Nat) (c : Core) : (s.setCore k c).octets = s.octets := rfl
@[simp] theorem State.setCore_dies (s : State) (k : Nat) (c : Core) : (s.setCore k c).dies = s.dies := rfl
@[simp] theorem State.setCore_iods (s : State) (k : Nat) (c : Core) : (s.setCore k c).iods = s.iods := rfl
@[simp] theorem State.setCore_mem (s : State) (k : Nat) (c : Core) : (s.setCore k c).mem = s.mem := rfl
@[simp] theorem State.setCore_fempty (s : State) (k : Nat) (c : Core) : (s.setCore k c).fempty = s.fempty := rfl
@[simp] theorem State.setCore_poison (s : State) (k : Nat) (c : Core) : (s.setCore k c).poison = s.poison := rfl
@[simp] theorem State.setCore_regions (s : State) (k : Nat) (c : Core) : (s.setCore k c).regions = s.regions := rfl
@[simp] theorem State.setCore_bins (s : State) (k : Nat) (c : Core) : (s.setCore k c).bins = s.bins := rfl
@[simp] theorem State.setCore_applies (s : State) (k : Nat) (c : Core) : (s.setCore k c).applies = s.applies := rfl
@[simp] theorem State.setCore_hostErrs (s : State) (k : Nat) (c : Core) : (s.setCore k c).hostErrs = s.hostErrs := rfl
@[simp] theorem State.setCore_asidtbase (s : State) (k : Nat) (c : Core) : (s.setCore k c).asidtbase = s.asidtbase := rfl
@[simp] theorem State.setCore_mbx (s : State) (k : Nat) (c : Core) : (s.setCore k c).mbx = s.mbx := rfl
@[simp] theorem State.setCore_resdest (s : State) (k : Nat) (c : Core) : (s.setCore k c).resdest = s.resdest := rfl
@[simp] theorem State.setCore_ltol (s : State) (k : Nat) (c : Core) : (s.setCore k c).ltol = s.ltol := rfl
@[simp] theorem State.setCore_boot (s : State) (k : Nat) (c : Core) : (s.setCore k c).boot = s.boot := rfl
@[simp] theorem State.setCore_ltr (s : State) (k : Nat) (c : Core) : (s.setCore k c).ltr = s.ltr := rfl
@[simp] theorem State.setCore_downLinks (s : State) (k : Nat) (c : Core) : (s.setCore k c).downLinks = s.downLinks := rfl
@[simp] theorem State.setCore_sent (s : State) (k : Nat) (c : Core) : (s.setCore k c).sent = s.sent := rfl
@[simp] theorem State.setCore_reportSeq (s : State) (k : Nat) (c : Core) : (s.setCore k c).reportSeq = s.reportSeq := rfl
@[simp] theorem State.setCore_fieldMap (s : State) (k : Nat) (c : Core) : (s.setCore k c).fieldMap = s.fieldMap := rfl
@[simp] theorem State.setCore_flight (s : State) (k : Nat) (c : Core) : (s.setCore k c).flight = s.flight := rfl
@[simp] theorem State.setCore_packets (s : State) (k : Nat) (c : Core) : (s.setCore k c).packets = s.packets := rfl
@[simp] theorem State.setCore_pendingEv (s : State) (k : Nat) (c : Core) : (s.setCore k c).pendingEv = s.pendingEv := rfl
@[simp] theorem State.setCore_turns (s : State) (k : Nat) (c : Core) : (s.setCore k c).turns = s.turns := rfl
@[simp] theorem State.setCore_act (s : State) (k : Nat) (c : Core) : (s.setCore k c).act = s.act := rfl
@[simp] theorem State.setCore_actx (s : State) (k : Nat) (c : Core) : (s.setCore k c).actx = s.actx := rfl
@[simp] theorem State.setCore_head (s : State) (k : Nat) (c : Core) : (s.setCore k c).head = s.head := rfl
@[simp] theorem State.setCore_ev (s : State) (k : Nat) (c : Core) : (s.setCore k c).ev = s.ev := rfl
@[simp] theorem State.setCore_fresh (s : State) (k : Nat) (c : Core) : (s.setCore k c).fresh = s.fresh := rfl
@[simp] theorem State.setCore_moves (s : State) (k : Nat) (c : Core) : (s.setCore k c).moves = s.moves := rfl
@[simp] theorem State.setCore_cursor (s : State) (k : Nat) (c : Core) : (s.setCore k c).cursor = s.cursor := rfl
@[simp] theorem State.setCore_dir (s : State) (k : Nat) (c : Core) : (s.setCore k c).dir = s.dir := rfl
@[simp] theorem State.setCore_reportAt (s : State) (k : Nat) (c : Core) : (s.setCore k c).reportAt = s.reportAt := rfl
@[simp] theorem State.setCore_reported (s : State) (k : Nat) (c : Core) : (s.setCore k c).reported = s.reported := rfl
@[simp] theorem State.setCore_phase (s : State) (k : Nat) (c : Core) : (s.setCore k c).phase = s.phase := rfl

@[simp] theorem State.modCore_time (s : State) (k : Nat) (f : Core → Core) : (s.modCore k f).time = s.time := rfl
@[simp] theorem State.modCore_clusters (s : State) (k : Nat) (f : Core → Core) : (s.modCore k f).clusters = s.clusters := rfl
@[simp] theorem State.modCore_octets (s : State) (k : Nat) (f : Core → Core) : (s.modCore k f).octets = s.octets := rfl
@[simp] theorem State.modCore_dies (s : State) (k : Nat) (f : Core → Core) : (s.modCore k f).dies = s.dies := rfl
@[simp] theorem State.modCore_iods (s : State) (k : Nat) (f : Core → Core) : (s.modCore k f).iods = s.iods := rfl
@[simp] theorem State.modCore_mem (s : State) (k : Nat) (f : Core → Core) : (s.modCore k f).mem = s.mem := rfl
@[simp] theorem State.modCore_fempty (s : State) (k : Nat) (f : Core → Core) : (s.modCore k f).fempty = s.fempty := rfl
@[simp] theorem State.modCore_poison (s : State) (k : Nat) (f : Core → Core) : (s.modCore k f).poison = s.poison := rfl
@[simp] theorem State.modCore_regions (s : State) (k : Nat) (f : Core → Core) : (s.modCore k f).regions = s.regions := rfl
@[simp] theorem State.modCore_bins (s : State) (k : Nat) (f : Core → Core) : (s.modCore k f).bins = s.bins := rfl
@[simp] theorem State.modCore_applies (s : State) (k : Nat) (f : Core → Core) : (s.modCore k f).applies = s.applies := rfl
@[simp] theorem State.modCore_hostErrs (s : State) (k : Nat) (f : Core → Core) : (s.modCore k f).hostErrs = s.hostErrs := rfl
@[simp] theorem State.modCore_asidtbase (s : State) (k : Nat) (f : Core → Core) : (s.modCore k f).asidtbase = s.asidtbase := rfl
@[simp] theorem State.modCore_mbx (s : State) (k : Nat) (f : Core → Core) : (s.modCore k f).mbx = s.mbx := rfl
@[simp] theorem State.modCore_resdest (s : State) (k : Nat) (f : Core → Core) : (s.modCore k f).resdest = s.resdest := rfl
@[simp] theorem State.modCore_ltol (s : State) (k : Nat) (f : Core → Core) : (s.modCore k f).ltol = s.ltol := rfl
@[simp] theorem State.modCore_boot (s : State) (k : Nat) (f : Core → Core) : (s.modCore k f).boot = s.boot := rfl
@[simp] theorem State.modCore_ltr (s : State) (k : Nat) (f : Core → Core) : (s.modCore k f).ltr = s.ltr := rfl
@[simp] theorem State.modCore_downLinks (s : State) (k : Nat) (f : Core → Core) : (s.modCore k f).downLinks = s.downLinks := rfl
@[simp] theorem State.modCore_sent (s : State) (k : Nat) (f : Core → Core) : (s.modCore k f).sent = s.sent := rfl
@[simp] theorem State.modCore_reportSeq (s : State) (k : Nat) (f : Core → Core) : (s.modCore k f).reportSeq = s.reportSeq := rfl
@[simp] theorem State.modCore_fieldMap (s : State) (k : Nat) (f : Core → Core) : (s.modCore k f).fieldMap = s.fieldMap := rfl
@[simp] theorem State.modCore_flight (s : State) (k : Nat) (f : Core → Core) : (s.modCore k f).flight = s.flight := rfl
@[simp] theorem State.modCore_packets (s : State) (k : Nat) (f : Core → Core) : (s.modCore k f).packets = s.packets := rfl
@[simp] theorem State.modCore_pendingEv (s : State) (k : Nat) (f : Core → Core) : (s.modCore k f).pendingEv = s.pendingEv := rfl
@[simp] theorem State.modCore_turns (s : State) (k : Nat) (f : Core → Core) : (s.modCore k f).turns = s.turns := rfl
@[simp] theorem State.modCore_act (s : State) (k : Nat) (f : Core → Core) : (s.modCore k f).act = s.act := rfl
@[simp] theorem State.modCore_actx (s : State) (k : Nat) (f : Core → Core) : (s.modCore k f).actx = s.actx := rfl
@[simp] theorem State.modCore_head (s : State) (k : Nat) (f : Core → Core) : (s.modCore k f).head = s.head := rfl
@[simp] theorem State.modCore_ev (s : State) (k : Nat) (f : Core → Core) : (s.modCore k f).ev = s.ev := rfl
@[simp] theorem State.modCore_fresh (s : State) (k : Nat) (f : Core → Core) : (s.modCore k f).fresh = s.fresh := rfl
@[simp] theorem State.modCore_moves (s : State) (k : Nat) (f : Core → Core) : (s.modCore k f).moves = s.moves := rfl
@[simp] theorem State.modCore_cursor (s : State) (k : Nat) (f : Core → Core) : (s.modCore k f).cursor = s.cursor := rfl
@[simp] theorem State.modCore_dir (s : State) (k : Nat) (f : Core → Core) : (s.modCore k f).dir = s.dir := rfl
@[simp] theorem State.modCore_reportAt (s : State) (k : Nat) (f : Core → Core) : (s.modCore k f).reportAt = s.reportAt := rfl
@[simp] theorem State.modCore_reported (s : State) (k : Nat) (f : Core → Core) : (s.modCore k f).reported = s.reported := rfl
@[simp] theorem State.modCore_phase (s : State) (k : Nat) (f : Core → Core) : (s.modCore k f).phase = s.phase := rfl

@[simp] theorem State.setCtx_time (s : State) (k : Nat) (x : Fin 11) (t : Ctx) : (s.setCtx k x t).time = s.time := rfl
@[simp] theorem State.setCtx_clusters (s : State) (k : Nat) (x : Fin 11) (t : Ctx) : (s.setCtx k x t).clusters = s.clusters := rfl
@[simp] theorem State.setCtx_octets (s : State) (k : Nat) (x : Fin 11) (t : Ctx) : (s.setCtx k x t).octets = s.octets := rfl
@[simp] theorem State.setCtx_dies (s : State) (k : Nat) (x : Fin 11) (t : Ctx) : (s.setCtx k x t).dies = s.dies := rfl
@[simp] theorem State.setCtx_iods (s : State) (k : Nat) (x : Fin 11) (t : Ctx) : (s.setCtx k x t).iods = s.iods := rfl
@[simp] theorem State.setCtx_mem (s : State) (k : Nat) (x : Fin 11) (t : Ctx) : (s.setCtx k x t).mem = s.mem := rfl
@[simp] theorem State.setCtx_fempty (s : State) (k : Nat) (x : Fin 11) (t : Ctx) : (s.setCtx k x t).fempty = s.fempty := rfl
@[simp] theorem State.setCtx_poison (s : State) (k : Nat) (x : Fin 11) (t : Ctx) : (s.setCtx k x t).poison = s.poison := rfl
@[simp] theorem State.setCtx_regions (s : State) (k : Nat) (x : Fin 11) (t : Ctx) : (s.setCtx k x t).regions = s.regions := rfl
@[simp] theorem State.setCtx_bins (s : State) (k : Nat) (x : Fin 11) (t : Ctx) : (s.setCtx k x t).bins = s.bins := rfl
@[simp] theorem State.setCtx_applies (s : State) (k : Nat) (x : Fin 11) (t : Ctx) : (s.setCtx k x t).applies = s.applies := rfl
@[simp] theorem State.setCtx_hostErrs (s : State) (k : Nat) (x : Fin 11) (t : Ctx) : (s.setCtx k x t).hostErrs = s.hostErrs := rfl
@[simp] theorem State.setCtx_asidtbase (s : State) (k : Nat) (x : Fin 11) (t : Ctx) : (s.setCtx k x t).asidtbase = s.asidtbase := rfl
@[simp] theorem State.setCtx_mbx (s : State) (k : Nat) (x : Fin 11) (t : Ctx) : (s.setCtx k x t).mbx = s.mbx := rfl
@[simp] theorem State.setCtx_resdest (s : State) (k : Nat) (x : Fin 11) (t : Ctx) : (s.setCtx k x t).resdest = s.resdest := rfl
@[simp] theorem State.setCtx_ltol (s : State) (k : Nat) (x : Fin 11) (t : Ctx) : (s.setCtx k x t).ltol = s.ltol := rfl
@[simp] theorem State.setCtx_boot (s : State) (k : Nat) (x : Fin 11) (t : Ctx) : (s.setCtx k x t).boot = s.boot := rfl
@[simp] theorem State.setCtx_ltr (s : State) (k : Nat) (x : Fin 11) (t : Ctx) : (s.setCtx k x t).ltr = s.ltr := rfl
@[simp] theorem State.setCtx_downLinks (s : State) (k : Nat) (x : Fin 11) (t : Ctx) : (s.setCtx k x t).downLinks = s.downLinks := rfl
@[simp] theorem State.setCtx_sent (s : State) (k : Nat) (x : Fin 11) (t : Ctx) : (s.setCtx k x t).sent = s.sent := rfl
@[simp] theorem State.setCtx_reportSeq (s : State) (k : Nat) (x : Fin 11) (t : Ctx) : (s.setCtx k x t).reportSeq = s.reportSeq := rfl
@[simp] theorem State.setCtx_fieldMap (s : State) (k : Nat) (x : Fin 11) (t : Ctx) : (s.setCtx k x t).fieldMap = s.fieldMap := rfl
@[simp] theorem State.setCtx_flight (s : State) (k : Nat) (x : Fin 11) (t : Ctx) : (s.setCtx k x t).flight = s.flight := rfl
@[simp] theorem State.setCtx_packets (s : State) (k : Nat) (x : Fin 11) (t : Ctx) : (s.setCtx k x t).packets = s.packets := rfl
@[simp] theorem State.setCtx_pendingEv (s : State) (k : Nat) (x : Fin 11) (t : Ctx) : (s.setCtx k x t).pendingEv = s.pendingEv := rfl
@[simp] theorem State.setCtx_turns (s : State) (k : Nat) (x : Fin 11) (t : Ctx) : (s.setCtx k x t).turns = s.turns := rfl
@[simp] theorem State.setCtx_act (s : State) (k : Nat) (x : Fin 11) (t : Ctx) : (s.setCtx k x t).act = s.act := rfl
@[simp] theorem State.setCtx_actx (s : State) (k : Nat) (x : Fin 11) (t : Ctx) : (s.setCtx k x t).actx = s.actx := rfl
@[simp] theorem State.setCtx_head (s : State) (k : Nat) (x : Fin 11) (t : Ctx) : (s.setCtx k x t).head = s.head := rfl
@[simp] theorem State.setCtx_ev (s : State) (k : Nat) (x : Fin 11) (t : Ctx) : (s.setCtx k x t).ev = s.ev := rfl
@[simp] theorem State.setCtx_fresh (s : State) (k : Nat) (x : Fin 11) (t : Ctx) : (s.setCtx k x t).fresh = s.fresh := rfl
@[simp] theorem State.setCtx_moves (s : State) (k : Nat) (x : Fin 11) (t : Ctx) : (s.setCtx k x t).moves = s.moves := rfl
@[simp] theorem State.setCtx_cursor (s : State) (k : Nat) (x : Fin 11) (t : Ctx) : (s.setCtx k x t).cursor = s.cursor := rfl
@[simp] theorem State.setCtx_dir (s : State) (k : Nat) (x : Fin 11) (t : Ctx) : (s.setCtx k x t).dir = s.dir := rfl
@[simp] theorem State.setCtx_reportAt (s : State) (k : Nat) (x : Fin 11) (t : Ctx) : (s.setCtx k x t).reportAt = s.reportAt := rfl
@[simp] theorem State.setCtx_reported (s : State) (k : Nat) (x : Fin 11) (t : Ctx) : (s.setCtx k x t).reported = s.reported := rfl
@[simp] theorem State.setCtx_phase (s : State) (k : Nat) (x : Fin 11) (t : Ctx) : (s.setCtx k x t).phase = s.phase := rfl

@[simp] theorem State.modCtx_time (s : State) (k : Nat) (x : Fin 11) (f : Ctx → Ctx) : (s.modCtx k x f).time = s.time := rfl
@[simp] theorem State.modCtx_clusters (s : State) (k : Nat) (x : Fin 11) (f : Ctx → Ctx) : (s.modCtx k x f).clusters = s.clusters := rfl
@[simp] theorem State.modCtx_octets (s : State) (k : Nat) (x : Fin 11) (f : Ctx → Ctx) : (s.modCtx k x f).octets = s.octets := rfl
@[simp] theorem State.modCtx_dies (s : State) (k : Nat) (x : Fin 11) (f : Ctx → Ctx) : (s.modCtx k x f).dies = s.dies := rfl
@[simp] theorem State.modCtx_iods (s : State) (k : Nat) (x : Fin 11) (f : Ctx → Ctx) : (s.modCtx k x f).iods = s.iods := rfl
@[simp] theorem State.modCtx_mem (s : State) (k : Nat) (x : Fin 11) (f : Ctx → Ctx) : (s.modCtx k x f).mem = s.mem := rfl
@[simp] theorem State.modCtx_fempty (s : State) (k : Nat) (x : Fin 11) (f : Ctx → Ctx) : (s.modCtx k x f).fempty = s.fempty := rfl
@[simp] theorem State.modCtx_poison (s : State) (k : Nat) (x : Fin 11) (f : Ctx → Ctx) : (s.modCtx k x f).poison = s.poison := rfl
@[simp] theorem State.modCtx_regions (s : State) (k : Nat) (x : Fin 11) (f : Ctx → Ctx) : (s.modCtx k x f).regions = s.regions := rfl
@[simp] theorem State.modCtx_bins (s : State) (k : Nat) (x : Fin 11) (f : Ctx → Ctx) : (s.modCtx k x f).bins = s.bins := rfl
@[simp] theorem State.modCtx_applies (s : State) (k : Nat) (x : Fin 11) (f : Ctx → Ctx) : (s.modCtx k x f).applies = s.applies := rfl
@[simp] theorem State.modCtx_hostErrs (s : State) (k : Nat) (x : Fin 11) (f : Ctx → Ctx) : (s.modCtx k x f).hostErrs = s.hostErrs := rfl
@[simp] theorem State.modCtx_asidtbase (s : State) (k : Nat) (x : Fin 11) (f : Ctx → Ctx) : (s.modCtx k x f).asidtbase = s.asidtbase := rfl
@[simp] theorem State.modCtx_mbx (s : State) (k : Nat) (x : Fin 11) (f : Ctx → Ctx) : (s.modCtx k x f).mbx = s.mbx := rfl
@[simp] theorem State.modCtx_resdest (s : State) (k : Nat) (x : Fin 11) (f : Ctx → Ctx) : (s.modCtx k x f).resdest = s.resdest := rfl
@[simp] theorem State.modCtx_ltol (s : State) (k : Nat) (x : Fin 11) (f : Ctx → Ctx) : (s.modCtx k x f).ltol = s.ltol := rfl
@[simp] theorem State.modCtx_boot (s : State) (k : Nat) (x : Fin 11) (f : Ctx → Ctx) : (s.modCtx k x f).boot = s.boot := rfl
@[simp] theorem State.modCtx_ltr (s : State) (k : Nat) (x : Fin 11) (f : Ctx → Ctx) : (s.modCtx k x f).ltr = s.ltr := rfl
@[simp] theorem State.modCtx_downLinks (s : State) (k : Nat) (x : Fin 11) (f : Ctx → Ctx) : (s.modCtx k x f).downLinks = s.downLinks := rfl
@[simp] theorem State.modCtx_sent (s : State) (k : Nat) (x : Fin 11) (f : Ctx → Ctx) : (s.modCtx k x f).sent = s.sent := rfl
@[simp] theorem State.modCtx_reportSeq (s : State) (k : Nat) (x : Fin 11) (f : Ctx → Ctx) : (s.modCtx k x f).reportSeq = s.reportSeq := rfl
@[simp] theorem State.modCtx_fieldMap (s : State) (k : Nat) (x : Fin 11) (f : Ctx → Ctx) : (s.modCtx k x f).fieldMap = s.fieldMap := rfl
@[simp] theorem State.modCtx_flight (s : State) (k : Nat) (x : Fin 11) (f : Ctx → Ctx) : (s.modCtx k x f).flight = s.flight := rfl
@[simp] theorem State.modCtx_packets (s : State) (k : Nat) (x : Fin 11) (f : Ctx → Ctx) : (s.modCtx k x f).packets = s.packets := rfl
@[simp] theorem State.modCtx_pendingEv (s : State) (k : Nat) (x : Fin 11) (f : Ctx → Ctx) : (s.modCtx k x f).pendingEv = s.pendingEv := rfl
@[simp] theorem State.modCtx_turns (s : State) (k : Nat) (x : Fin 11) (f : Ctx → Ctx) : (s.modCtx k x f).turns = s.turns := rfl
@[simp] theorem State.modCtx_act (s : State) (k : Nat) (x : Fin 11) (f : Ctx → Ctx) : (s.modCtx k x f).act = s.act := rfl
@[simp] theorem State.modCtx_actx (s : State) (k : Nat) (x : Fin 11) (f : Ctx → Ctx) : (s.modCtx k x f).actx = s.actx := rfl
@[simp] theorem State.modCtx_head (s : State) (k : Nat) (x : Fin 11) (f : Ctx → Ctx) : (s.modCtx k x f).head = s.head := rfl
@[simp] theorem State.modCtx_ev (s : State) (k : Nat) (x : Fin 11) (f : Ctx → Ctx) : (s.modCtx k x f).ev = s.ev := rfl
@[simp] theorem State.modCtx_fresh (s : State) (k : Nat) (x : Fin 11) (f : Ctx → Ctx) : (s.modCtx k x f).fresh = s.fresh := rfl
@[simp] theorem State.modCtx_moves (s : State) (k : Nat) (x : Fin 11) (f : Ctx → Ctx) : (s.modCtx k x f).moves = s.moves := rfl
@[simp] theorem State.modCtx_cursor (s : State) (k : Nat) (x : Fin 11) (f : Ctx → Ctx) : (s.modCtx k x f).cursor = s.cursor := rfl
@[simp] theorem State.modCtx_dir (s : State) (k : Nat) (x : Fin 11) (f : Ctx → Ctx) : (s.modCtx k x f).dir = s.dir := rfl
@[simp] theorem State.modCtx_reportAt (s : State) (k : Nat) (x : Fin 11) (f : Ctx → Ctx) : (s.modCtx k x f).reportAt = s.reportAt := rfl
@[simp] theorem State.modCtx_reported (s : State) (k : Nat) (x : Fin 11) (f : Ctx → Ctx) : (s.modCtx k x f).reported = s.reported := rfl
@[simp] theorem State.modCtx_phase (s : State) (k : Nat) (x : Fin 11) (f : Ctx → Ctx) : (s.modCtx k x f).phase = s.phase := rfl

@[simp] theorem State.modCluster_time (s : State) (c : Nat) (f : Cluster → Cluster) : (s.modCluster c f).time = s.time := rfl
@[simp] theorem State.modCluster_cores (s : State) (c : Nat) (f : Cluster → Cluster) : (s.modCluster c f).cores = s.cores := rfl
@[simp] theorem State.modCluster_octets (s : State) (c : Nat) (f : Cluster → Cluster) : (s.modCluster c f).octets = s.octets := rfl
@[simp] theorem State.modCluster_dies (s : State) (c : Nat) (f : Cluster → Cluster) : (s.modCluster c f).dies = s.dies := rfl
@[simp] theorem State.modCluster_iods (s : State) (c : Nat) (f : Cluster → Cluster) : (s.modCluster c f).iods = s.iods := rfl
@[simp] theorem State.modCluster_mem (s : State) (c : Nat) (f : Cluster → Cluster) : (s.modCluster c f).mem = s.mem := rfl
@[simp] theorem State.modCluster_fempty (s : State) (c : Nat) (f : Cluster → Cluster) : (s.modCluster c f).fempty = s.fempty := rfl
@[simp] theorem State.modCluster_poison (s : State) (c : Nat) (f : Cluster → Cluster) : (s.modCluster c f).poison = s.poison := rfl
@[simp] theorem State.modCluster_regions (s : State) (c : Nat) (f : Cluster → Cluster) : (s.modCluster c f).regions = s.regions := rfl
@[simp] theorem State.modCluster_bins (s : State) (c : Nat) (f : Cluster → Cluster) : (s.modCluster c f).bins = s.bins := rfl
@[simp] theorem State.modCluster_applies (s : State) (c : Nat) (f : Cluster → Cluster) : (s.modCluster c f).applies = s.applies := rfl
@[simp] theorem State.modCluster_hostErrs (s : State) (c : Nat) (f : Cluster → Cluster) : (s.modCluster c f).hostErrs = s.hostErrs := rfl
@[simp] theorem State.modCluster_asidtbase (s : State) (c : Nat) (f : Cluster → Cluster) : (s.modCluster c f).asidtbase = s.asidtbase := rfl
@[simp] theorem State.modCluster_mbx (s : State) (c : Nat) (f : Cluster → Cluster) : (s.modCluster c f).mbx = s.mbx := rfl
@[simp] theorem State.modCluster_resdest (s : State) (c : Nat) (f : Cluster → Cluster) : (s.modCluster c f).resdest = s.resdest := rfl
@[simp] theorem State.modCluster_ltol (s : State) (c : Nat) (f : Cluster → Cluster) : (s.modCluster c f).ltol = s.ltol := rfl
@[simp] theorem State.modCluster_boot (s : State) (c : Nat) (f : Cluster → Cluster) : (s.modCluster c f).boot = s.boot := rfl
@[simp] theorem State.modCluster_ltr (s : State) (c : Nat) (f : Cluster → Cluster) : (s.modCluster c f).ltr = s.ltr := rfl
@[simp] theorem State.modCluster_downLinks (s : State) (c : Nat) (f : Cluster → Cluster) : (s.modCluster c f).downLinks = s.downLinks := rfl
@[simp] theorem State.modCluster_sent (s : State) (c : Nat) (f : Cluster → Cluster) : (s.modCluster c f).sent = s.sent := rfl
@[simp] theorem State.modCluster_reportSeq (s : State) (c : Nat) (f : Cluster → Cluster) : (s.modCluster c f).reportSeq = s.reportSeq := rfl
@[simp] theorem State.modCluster_fieldMap (s : State) (c : Nat) (f : Cluster → Cluster) : (s.modCluster c f).fieldMap = s.fieldMap := rfl
@[simp] theorem State.modCluster_flight (s : State) (c : Nat) (f : Cluster → Cluster) : (s.modCluster c f).flight = s.flight := rfl
@[simp] theorem State.modCluster_packets (s : State) (c : Nat) (f : Cluster → Cluster) : (s.modCluster c f).packets = s.packets := rfl
@[simp] theorem State.modCluster_pendingEv (s : State) (c : Nat) (f : Cluster → Cluster) : (s.modCluster c f).pendingEv = s.pendingEv := rfl
@[simp] theorem State.modCluster_turns (s : State) (c : Nat) (f : Cluster → Cluster) : (s.modCluster c f).turns = s.turns := rfl
@[simp] theorem State.modCluster_act (s : State) (c : Nat) (f : Cluster → Cluster) : (s.modCluster c f).act = s.act := rfl
@[simp] theorem State.modCluster_actx (s : State) (c : Nat) (f : Cluster → Cluster) : (s.modCluster c f).actx = s.actx := rfl
@[simp] theorem State.modCluster_head (s : State) (c : Nat) (f : Cluster → Cluster) : (s.modCluster c f).head = s.head := rfl
@[simp] theorem State.modCluster_ev (s : State) (c : Nat) (f : Cluster → Cluster) : (s.modCluster c f).ev = s.ev := rfl
@[simp] theorem State.modCluster_fresh (s : State) (c : Nat) (f : Cluster → Cluster) : (s.modCluster c f).fresh = s.fresh := rfl
@[simp] theorem State.modCluster_moves (s : State) (c : Nat) (f : Cluster → Cluster) : (s.modCluster c f).moves = s.moves := rfl
@[simp] theorem State.modCluster_cursor (s : State) (c : Nat) (f : Cluster → Cluster) : (s.modCluster c f).cursor = s.cursor := rfl
@[simp] theorem State.modCluster_dir (s : State) (c : Nat) (f : Cluster → Cluster) : (s.modCluster c f).dir = s.dir := rfl
@[simp] theorem State.modCluster_reportAt (s : State) (c : Nat) (f : Cluster → Cluster) : (s.modCluster c f).reportAt = s.reportAt := rfl
@[simp] theorem State.modCluster_reported (s : State) (c : Nat) (f : Cluster → Cluster) : (s.modCluster c f).reported = s.reported := rfl
@[simp] theorem State.modCluster_phase (s : State) (c : Nat) (f : Cluster → Cluster) : (s.modCluster c f).phase = s.phase := rfl

@[simp] theorem State.modOctet_time (s : State) (o : Nat) (f : Octet → Octet) : (s.modOctet o f).time = s.time := rfl
@[simp] theorem State.modOctet_cores (s : State) (o : Nat) (f : Octet → Octet) : (s.modOctet o f).cores = s.cores := rfl
@[simp] theorem State.modOctet_clusters (s : State) (o : Nat) (f : Octet → Octet) : (s.modOctet o f).clusters = s.clusters := rfl
@[simp] theorem State.modOctet_dies (s : State) (o : Nat) (f : Octet → Octet) : (s.modOctet o f).dies = s.dies := rfl
@[simp] theorem State.modOctet_iods (s : State) (o : Nat) (f : Octet → Octet) : (s.modOctet o f).iods = s.iods := rfl
@[simp] theorem State.modOctet_mem (s : State) (o : Nat) (f : Octet → Octet) : (s.modOctet o f).mem = s.mem := rfl
@[simp] theorem State.modOctet_fempty (s : State) (o : Nat) (f : Octet → Octet) : (s.modOctet o f).fempty = s.fempty := rfl
@[simp] theorem State.modOctet_poison (s : State) (o : Nat) (f : Octet → Octet) : (s.modOctet o f).poison = s.poison := rfl
@[simp] theorem State.modOctet_regions (s : State) (o : Nat) (f : Octet → Octet) : (s.modOctet o f).regions = s.regions := rfl
@[simp] theorem State.modOctet_bins (s : State) (o : Nat) (f : Octet → Octet) : (s.modOctet o f).bins = s.bins := rfl
@[simp] theorem State.modOctet_applies (s : State) (o : Nat) (f : Octet → Octet) : (s.modOctet o f).applies = s.applies := rfl
@[simp] theorem State.modOctet_hostErrs (s : State) (o : Nat) (f : Octet → Octet) : (s.modOctet o f).hostErrs = s.hostErrs := rfl
@[simp] theorem State.modOctet_asidtbase (s : State) (o : Nat) (f : Octet → Octet) : (s.modOctet o f).asidtbase = s.asidtbase := rfl
@[simp] theorem State.modOctet_mbx (s : State) (o : Nat) (f : Octet → Octet) : (s.modOctet o f).mbx = s.mbx := rfl
@[simp] theorem State.modOctet_resdest (s : State) (o : Nat) (f : Octet → Octet) : (s.modOctet o f).resdest = s.resdest := rfl
@[simp] theorem State.modOctet_ltol (s : State) (o : Nat) (f : Octet → Octet) : (s.modOctet o f).ltol = s.ltol := rfl
@[simp] theorem State.modOctet_boot (s : State) (o : Nat) (f : Octet → Octet) : (s.modOctet o f).boot = s.boot := rfl
@[simp] theorem State.modOctet_ltr (s : State) (o : Nat) (f : Octet → Octet) : (s.modOctet o f).ltr = s.ltr := rfl
@[simp] theorem State.modOctet_downLinks (s : State) (o : Nat) (f : Octet → Octet) : (s.modOctet o f).downLinks = s.downLinks := rfl
@[simp] theorem State.modOctet_sent (s : State) (o : Nat) (f : Octet → Octet) : (s.modOctet o f).sent = s.sent := rfl
@[simp] theorem State.modOctet_reportSeq (s : State) (o : Nat) (f : Octet → Octet) : (s.modOctet o f).reportSeq = s.reportSeq := rfl
@[simp] theorem State.modOctet_fieldMap (s : State) (o : Nat) (f : Octet → Octet) : (s.modOctet o f).fieldMap = s.fieldMap := rfl
@[simp] theorem State.modOctet_flight (s : State) (o : Nat) (f : Octet → Octet) : (s.modOctet o f).flight = s.flight := rfl
@[simp] theorem State.modOctet_packets (s : State) (o : Nat) (f : Octet → Octet) : (s.modOctet o f).packets = s.packets := rfl
@[simp] theorem State.modOctet_pendingEv (s : State) (o : Nat) (f : Octet → Octet) : (s.modOctet o f).pendingEv = s.pendingEv := rfl
@[simp] theorem State.modOctet_turns (s : State) (o : Nat) (f : Octet → Octet) : (s.modOctet o f).turns = s.turns := rfl
@[simp] theorem State.modOctet_act (s : State) (o : Nat) (f : Octet → Octet) : (s.modOctet o f).act = s.act := rfl
@[simp] theorem State.modOctet_actx (s : State) (o : Nat) (f : Octet → Octet) : (s.modOctet o f).actx = s.actx := rfl
@[simp] theorem State.modOctet_head (s : State) (o : Nat) (f : Octet → Octet) : (s.modOctet o f).head = s.head := rfl
@[simp] theorem State.modOctet_ev (s : State) (o : Nat) (f : Octet → Octet) : (s.modOctet o f).ev = s.ev := rfl
@[simp] theorem State.modOctet_fresh (s : State) (o : Nat) (f : Octet → Octet) : (s.modOctet o f).fresh = s.fresh := rfl
@[simp] theorem State.modOctet_moves (s : State) (o : Nat) (f : Octet → Octet) : (s.modOctet o f).moves = s.moves := rfl
@[simp] theorem State.modOctet_cursor (s : State) (o : Nat) (f : Octet → Octet) : (s.modOctet o f).cursor = s.cursor := rfl
@[simp] theorem State.modOctet_dir (s : State) (o : Nat) (f : Octet → Octet) : (s.modOctet o f).dir = s.dir := rfl
@[simp] theorem State.modOctet_reportAt (s : State) (o : Nat) (f : Octet → Octet) : (s.modOctet o f).reportAt = s.reportAt := rfl
@[simp] theorem State.modOctet_reported (s : State) (o : Nat) (f : Octet → Octet) : (s.modOctet o f).reported = s.reported := rfl
@[simp] theorem State.modOctet_phase (s : State) (o : Nat) (f : Octet → Octet) : (s.modOctet o f).phase = s.phase := rfl

@[simp] theorem State.modDie_time (s : State) (d : Nat) (f : Die → Die) : (s.modDie d f).time = s.time := rfl
@[simp] theorem State.modDie_cores (s : State) (d : Nat) (f : Die → Die) : (s.modDie d f).cores = s.cores := rfl
@[simp] theorem State.modDie_clusters (s : State) (d : Nat) (f : Die → Die) : (s.modDie d f).clusters = s.clusters := rfl
@[simp] theorem State.modDie_octets (s : State) (d : Nat) (f : Die → Die) : (s.modDie d f).octets = s.octets := rfl
@[simp] theorem State.modDie_iods (s : State) (d : Nat) (f : Die → Die) : (s.modDie d f).iods = s.iods := rfl
@[simp] theorem State.modDie_mem (s : State) (d : Nat) (f : Die → Die) : (s.modDie d f).mem = s.mem := rfl
@[simp] theorem State.modDie_fempty (s : State) (d : Nat) (f : Die → Die) : (s.modDie d f).fempty = s.fempty := rfl
@[simp] theorem State.modDie_poison (s : State) (d : Nat) (f : Die → Die) : (s.modDie d f).poison = s.poison := rfl
@[simp] theorem State.modDie_regions (s : State) (d : Nat) (f : Die → Die) : (s.modDie d f).regions = s.regions := rfl
@[simp] theorem State.modDie_bins (s : State) (d : Nat) (f : Die → Die) : (s.modDie d f).bins = s.bins := rfl
@[simp] theorem State.modDie_applies (s : State) (d : Nat) (f : Die → Die) : (s.modDie d f).applies = s.applies := rfl
@[simp] theorem State.modDie_hostErrs (s : State) (d : Nat) (f : Die → Die) : (s.modDie d f).hostErrs = s.hostErrs := rfl
@[simp] theorem State.modDie_asidtbase (s : State) (d : Nat) (f : Die → Die) : (s.modDie d f).asidtbase = s.asidtbase := rfl
@[simp] theorem State.modDie_mbx (s : State) (d : Nat) (f : Die → Die) : (s.modDie d f).mbx = s.mbx := rfl
@[simp] theorem State.modDie_resdest (s : State) (d : Nat) (f : Die → Die) : (s.modDie d f).resdest = s.resdest := rfl
@[simp] theorem State.modDie_ltol (s : State) (d : Nat) (f : Die → Die) : (s.modDie d f).ltol = s.ltol := rfl
@[simp] theorem State.modDie_boot (s : State) (d : Nat) (f : Die → Die) : (s.modDie d f).boot = s.boot := rfl
@[simp] theorem State.modDie_ltr (s : State) (d : Nat) (f : Die → Die) : (s.modDie d f).ltr = s.ltr := rfl
@[simp] theorem State.modDie_downLinks (s : State) (d : Nat) (f : Die → Die) : (s.modDie d f).downLinks = s.downLinks := rfl
@[simp] theorem State.modDie_sent (s : State) (d : Nat) (f : Die → Die) : (s.modDie d f).sent = s.sent := rfl
@[simp] theorem State.modDie_reportSeq (s : State) (d : Nat) (f : Die → Die) : (s.modDie d f).reportSeq = s.reportSeq := rfl
@[simp] theorem State.modDie_fieldMap (s : State) (d : Nat) (f : Die → Die) : (s.modDie d f).fieldMap = s.fieldMap := rfl
@[simp] theorem State.modDie_flight (s : State) (d : Nat) (f : Die → Die) : (s.modDie d f).flight = s.flight := rfl
@[simp] theorem State.modDie_packets (s : State) (d : Nat) (f : Die → Die) : (s.modDie d f).packets = s.packets := rfl
@[simp] theorem State.modDie_pendingEv (s : State) (d : Nat) (f : Die → Die) : (s.modDie d f).pendingEv = s.pendingEv := rfl
@[simp] theorem State.modDie_turns (s : State) (d : Nat) (f : Die → Die) : (s.modDie d f).turns = s.turns := rfl
@[simp] theorem State.modDie_act (s : State) (d : Nat) (f : Die → Die) : (s.modDie d f).act = s.act := rfl
@[simp] theorem State.modDie_actx (s : State) (d : Nat) (f : Die → Die) : (s.modDie d f).actx = s.actx := rfl
@[simp] theorem State.modDie_head (s : State) (d : Nat) (f : Die → Die) : (s.modDie d f).head = s.head := rfl
@[simp] theorem State.modDie_ev (s : State) (d : Nat) (f : Die → Die) : (s.modDie d f).ev = s.ev := rfl
@[simp] theorem State.modDie_fresh (s : State) (d : Nat) (f : Die → Die) : (s.modDie d f).fresh = s.fresh := rfl
@[simp] theorem State.modDie_moves (s : State) (d : Nat) (f : Die → Die) : (s.modDie d f).moves = s.moves := rfl
@[simp] theorem State.modDie_cursor (s : State) (d : Nat) (f : Die → Die) : (s.modDie d f).cursor = s.cursor := rfl
@[simp] theorem State.modDie_dir (s : State) (d : Nat) (f : Die → Die) : (s.modDie d f).dir = s.dir := rfl
@[simp] theorem State.modDie_reportAt (s : State) (d : Nat) (f : Die → Die) : (s.modDie d f).reportAt = s.reportAt := rfl
@[simp] theorem State.modDie_reported (s : State) (d : Nat) (f : Die → Die) : (s.modDie d f).reported = s.reported := rfl
@[simp] theorem State.modDie_phase (s : State) (d : Nat) (f : Die → Die) : (s.modDie d f).phase = s.phase := rfl

@[simp] theorem State.modIod_time (s : State) (e : Nat) (f : IoDie → IoDie) : (s.modIod e f).time = s.time := rfl
@[simp] theorem State.modIod_cores (s : State) (e : Nat) (f : IoDie → IoDie) : (s.modIod e f).cores = s.cores := rfl
@[simp] theorem State.modIod_clusters (s : State) (e : Nat) (f : IoDie → IoDie) : (s.modIod e f).clusters = s.clusters := rfl
@[simp] theorem State.modIod_octets (s : State) (e : Nat) (f : IoDie → IoDie) : (s.modIod e f).octets = s.octets := rfl
@[simp] theorem State.modIod_dies (s : State) (e : Nat) (f : IoDie → IoDie) : (s.modIod e f).dies = s.dies := rfl
@[simp] theorem State.modIod_mem (s : State) (e : Nat) (f : IoDie → IoDie) : (s.modIod e f).mem = s.mem := rfl
@[simp] theorem State.modIod_fempty (s : State) (e : Nat) (f : IoDie → IoDie) : (s.modIod e f).fempty = s.fempty := rfl
@[simp] theorem State.modIod_poison (s : State) (e : Nat) (f : IoDie → IoDie) : (s.modIod e f).poison = s.poison := rfl
@[simp] theorem State.modIod_regions (s : State) (e : Nat) (f : IoDie → IoDie) : (s.modIod e f).regions = s.regions := rfl
@[simp] theorem State.modIod_bins (s : State) (e : Nat) (f : IoDie → IoDie) : (s.modIod e f).bins = s.bins := rfl
@[simp] theorem State.modIod_applies (s : State) (e : Nat) (f : IoDie → IoDie) : (s.modIod e f).applies = s.applies := rfl
@[simp] theorem State.modIod_hostErrs (s : State) (e : Nat) (f : IoDie → IoDie) : (s.modIod e f).hostErrs = s.hostErrs := rfl
@[simp] theorem State.modIod_asidtbase (s : State) (e : Nat) (f : IoDie → IoDie) : (s.modIod e f).asidtbase = s.asidtbase := rfl
@[simp] theorem State.modIod_mbx (s : State) (e : Nat) (f : IoDie → IoDie) : (s.modIod e f).mbx = s.mbx := rfl
@[simp] theorem State.modIod_resdest (s : State) (e : Nat) (f : IoDie → IoDie) : (s.modIod e f).resdest = s.resdest := rfl
@[simp] theorem State.modIod_ltol (s : State) (e : Nat) (f : IoDie → IoDie) : (s.modIod e f).ltol = s.ltol := rfl
@[simp] theorem State.modIod_boot (s : State) (e : Nat) (f : IoDie → IoDie) : (s.modIod e f).boot = s.boot := rfl
@[simp] theorem State.modIod_ltr (s : State) (e : Nat) (f : IoDie → IoDie) : (s.modIod e f).ltr = s.ltr := rfl
@[simp] theorem State.modIod_downLinks (s : State) (e : Nat) (f : IoDie → IoDie) : (s.modIod e f).downLinks = s.downLinks := rfl
@[simp] theorem State.modIod_sent (s : State) (e : Nat) (f : IoDie → IoDie) : (s.modIod e f).sent = s.sent := rfl
@[simp] theorem State.modIod_reportSeq (s : State) (e : Nat) (f : IoDie → IoDie) : (s.modIod e f).reportSeq = s.reportSeq := rfl
@[simp] theorem State.modIod_fieldMap (s : State) (e : Nat) (f : IoDie → IoDie) : (s.modIod e f).fieldMap = s.fieldMap := rfl
@[simp] theorem State.modIod_flight (s : State) (e : Nat) (f : IoDie → IoDie) : (s.modIod e f).flight = s.flight := rfl
@[simp] theorem State.modIod_packets (s : State) (e : Nat) (f : IoDie → IoDie) : (s.modIod e f).packets = s.packets := rfl
@[simp] theorem State.modIod_pendingEv (s : State) (e : Nat) (f : IoDie → IoDie) : (s.modIod e f).pendingEv = s.pendingEv := rfl
@[simp] theorem State.modIod_turns (s : State) (e : Nat) (f : IoDie → IoDie) : (s.modIod e f).turns = s.turns := rfl
@[simp] theorem State.modIod_act (s : State) (e : Nat) (f : IoDie → IoDie) : (s.modIod e f).act = s.act := rfl
@[simp] theorem State.modIod_actx (s : State) (e : Nat) (f : IoDie → IoDie) : (s.modIod e f).actx = s.actx := rfl
@[simp] theorem State.modIod_head (s : State) (e : Nat) (f : IoDie → IoDie) : (s.modIod e f).head = s.head := rfl
@[simp] theorem State.modIod_ev (s : State) (e : Nat) (f : IoDie → IoDie) : (s.modIod e f).ev = s.ev := rfl
@[simp] theorem State.modIod_fresh (s : State) (e : Nat) (f : IoDie → IoDie) : (s.modIod e f).fresh = s.fresh := rfl
@[simp] theorem State.modIod_moves (s : State) (e : Nat) (f : IoDie → IoDie) : (s.modIod e f).moves = s.moves := rfl
@[simp] theorem State.modIod_cursor (s : State) (e : Nat) (f : IoDie → IoDie) : (s.modIod e f).cursor = s.cursor := rfl
@[simp] theorem State.modIod_dir (s : State) (e : Nat) (f : IoDie → IoDie) : (s.modIod e f).dir = s.dir := rfl
@[simp] theorem State.modIod_reportAt (s : State) (e : Nat) (f : IoDie → IoDie) : (s.modIod e f).reportAt = s.reportAt := rfl
@[simp] theorem State.modIod_reported (s : State) (e : Nat) (f : IoDie → IoDie) : (s.modIod e f).reported = s.reported := rfl
@[simp] theorem State.modIod_phase (s : State) (e : Nat) (f : IoDie → IoDie) : (s.modIod e f).phase = s.phase := rfl

@[simp] theorem State.cycle_time (s : State)  : (s.cycle ).time = s.time := rfl
@[simp] theorem State.cycle_clusters (s : State)  : (s.cycle ).clusters = s.clusters := rfl
@[simp] theorem State.cycle_octets (s : State)  : (s.cycle ).octets = s.octets := rfl
@[simp] theorem State.cycle_dies (s : State)  : (s.cycle ).dies = s.dies := rfl
@[simp] theorem State.cycle_iods (s : State)  : (s.cycle ).iods = s.iods := rfl
@[simp] theorem State.cycle_mem (s : State)  : (s.cycle ).mem = s.mem := rfl
@[simp] theorem State.cycle_fempty (s : State)  : (s.cycle ).fempty = s.fempty := rfl
@[simp] theorem State.cycle_poison (s : State)  : (s.cycle ).poison = s.poison := rfl
@[simp] theorem State.cycle_regions (s : State)  : (s.cycle ).regions = s.regions := rfl
@[simp] theorem State.cycle_bins (s : State)  : (s.cycle ).bins = s.bins := rfl
@[simp] theorem State.cycle_applies (s : State)  : (s.cycle ).applies = s.applies := rfl
@[simp] theorem State.cycle_hostErrs (s : State)  : (s.cycle ).hostErrs = s.hostErrs := rfl
@[simp] theorem State.cycle_asidtbase (s : State)  : (s.cycle ).asidtbase = s.asidtbase := rfl
@[simp] theorem State.cycle_mbx (s : State)  : (s.cycle ).mbx = s.mbx := rfl
@[simp] theorem State.cycle_resdest (s : State)  : (s.cycle ).resdest = s.resdest := rfl
@[simp] theorem State.cycle_ltol (s : State)  : (s.cycle ).ltol = s.ltol := rfl
@[simp] theorem State.cycle_boot (s : State)  : (s.cycle ).boot = s.boot := rfl
@[simp] theorem State.cycle_ltr (s : State)  : (s.cycle ).ltr = s.ltr := rfl
@[simp] theorem State.cycle_downLinks (s : State)  : (s.cycle ).downLinks = s.downLinks := rfl
@[simp] theorem State.cycle_sent (s : State)  : (s.cycle ).sent = s.sent := rfl
@[simp] theorem State.cycle_reportSeq (s : State)  : (s.cycle ).reportSeq = s.reportSeq := rfl
@[simp] theorem State.cycle_fieldMap (s : State)  : (s.cycle ).fieldMap = s.fieldMap := rfl
@[simp] theorem State.cycle_flight (s : State)  : (s.cycle ).flight = s.flight := rfl
@[simp] theorem State.cycle_packets (s : State)  : (s.cycle ).packets = s.packets := rfl
@[simp] theorem State.cycle_pendingEv (s : State)  : (s.cycle ).pendingEv = s.pendingEv := rfl
@[simp] theorem State.cycle_turns (s : State)  : (s.cycle ).turns = s.turns := rfl
@[simp] theorem State.cycle_act (s : State)  : (s.cycle ).act = s.act := rfl
@[simp] theorem State.cycle_actx (s : State)  : (s.cycle ).actx = s.actx := rfl
@[simp] theorem State.cycle_head (s : State)  : (s.cycle ).head = s.head := rfl
@[simp] theorem State.cycle_ev (s : State)  : (s.cycle ).ev = s.ev := rfl
@[simp] theorem State.cycle_fresh (s : State)  : (s.cycle ).fresh = s.fresh := rfl

@[simp] theorem State.freshen_time (s : State)  : (s.freshen ).time = s.time := rfl
@[simp] theorem State.freshen_cores (s : State)  : (s.freshen ).cores = s.cores := rfl
@[simp] theorem State.freshen_clusters (s : State)  : (s.freshen ).clusters = s.clusters := rfl
@[simp] theorem State.freshen_octets (s : State)  : (s.freshen ).octets = s.octets := rfl
@[simp] theorem State.freshen_dies (s : State)  : (s.freshen ).dies = s.dies := rfl
@[simp] theorem State.freshen_iods (s : State)  : (s.freshen ).iods = s.iods := rfl
@[simp] theorem State.freshen_mem (s : State)  : (s.freshen ).mem = s.mem := rfl
@[simp] theorem State.freshen_fempty (s : State)  : (s.freshen ).fempty = s.fempty := rfl
@[simp] theorem State.freshen_poison (s : State)  : (s.freshen ).poison = s.poison := rfl
@[simp] theorem State.freshen_regions (s : State)  : (s.freshen ).regions = s.regions := rfl
@[simp] theorem State.freshen_bins (s : State)  : (s.freshen ).bins = s.bins := rfl
@[simp] theorem State.freshen_applies (s : State)  : (s.freshen ).applies = s.applies := rfl
@[simp] theorem State.freshen_hostErrs (s : State)  : (s.freshen ).hostErrs = s.hostErrs := rfl
@[simp] theorem State.freshen_asidtbase (s : State)  : (s.freshen ).asidtbase = s.asidtbase := rfl
@[simp] theorem State.freshen_mbx (s : State)  : (s.freshen ).mbx = s.mbx := rfl
@[simp] theorem State.freshen_resdest (s : State)  : (s.freshen ).resdest = s.resdest := rfl
@[simp] theorem State.freshen_ltol (s : State)  : (s.freshen ).ltol = s.ltol := rfl
@[simp] theorem State.freshen_boot (s : State)  : (s.freshen ).boot = s.boot := rfl
@[simp] theorem State.freshen_ltr (s : State)  : (s.freshen ).ltr = s.ltr := rfl
@[simp] theorem State.freshen_downLinks (s : State)  : (s.freshen ).downLinks = s.downLinks := rfl
@[simp] theorem State.freshen_sent (s : State)  : (s.freshen ).sent = s.sent := rfl
@[simp] theorem State.freshen_reportSeq (s : State)  : (s.freshen ).reportSeq = s.reportSeq := rfl
@[simp] theorem State.freshen_fieldMap (s : State)  : (s.freshen ).fieldMap = s.fieldMap := rfl
@[simp] theorem State.freshen_flight (s : State)  : (s.freshen ).flight = s.flight := rfl
@[simp] theorem State.freshen_packets (s : State)  : (s.freshen ).packets = s.packets := rfl
@[simp] theorem State.freshen_pendingEv (s : State)  : (s.freshen ).pendingEv = s.pendingEv := rfl
@[simp] theorem State.freshen_turns (s : State)  : (s.freshen ).turns = s.turns := rfl
@[simp] theorem State.freshen_act (s : State)  : (s.freshen ).act = s.act := rfl
@[simp] theorem State.freshen_actx (s : State)  : (s.freshen ).actx = s.actx := rfl
@[simp] theorem State.freshen_head (s : State)  : (s.freshen ).head = s.head := rfl
@[simp] theorem State.freshen_ev (s : State)  : (s.freshen ).ev = s.ev := rfl
@[simp] theorem State.freshen_moves (s : State)  : (s.freshen ).moves = s.moves := rfl
@[simp] theorem State.freshen_cursor (s : State)  : (s.freshen ).cursor = s.cursor := rfl
@[simp] theorem State.freshen_dir (s : State)  : (s.freshen ).dir = s.dir := rfl
@[simp] theorem State.freshen_reportAt (s : State)  : (s.freshen ).reportAt = s.reportAt := rfl
@[simp] theorem State.freshen_reported (s : State)  : (s.freshen ).reported = s.reported := rfl
@[simp] theorem State.freshen_phase (s : State)  : (s.freshen ).phase = s.phase := rfl

@[simp] theorem State.postMore_time (s : State) (e : Ev) : (s.postMore e).time = s.time := rfl
@[simp] theorem State.postMore_cores (s : State) (e : Ev) : (s.postMore e).cores = s.cores := rfl
@[simp] theorem State.postMore_clusters (s : State) (e : Ev) : (s.postMore e).clusters = s.clusters := rfl
@[simp] theorem State.postMore_octets (s : State) (e : Ev) : (s.postMore e).octets = s.octets := rfl
@[simp] theorem State.postMore_dies (s : State) (e : Ev) : (s.postMore e).dies = s.dies := rfl
@[simp] theorem State.postMore_iods (s : State) (e : Ev) : (s.postMore e).iods = s.iods := rfl
@[simp] theorem State.postMore_mem (s : State) (e : Ev) : (s.postMore e).mem = s.mem := rfl
@[simp] theorem State.postMore_fempty (s : State) (e : Ev) : (s.postMore e).fempty = s.fempty := rfl
@[simp] theorem State.postMore_poison (s : State) (e : Ev) : (s.postMore e).poison = s.poison := rfl
@[simp] theorem State.postMore_regions (s : State) (e : Ev) : (s.postMore e).regions = s.regions := rfl
@[simp] theorem State.postMore_bins (s : State) (e : Ev) : (s.postMore e).bins = s.bins := rfl
@[simp] theorem State.postMore_applies (s : State) (e : Ev) : (s.postMore e).applies = s.applies := rfl
@[simp] theorem State.postMore_hostErrs (s : State) (e : Ev) : (s.postMore e).hostErrs = s.hostErrs := rfl
@[simp] theorem State.postMore_asidtbase (s : State) (e : Ev) : (s.postMore e).asidtbase = s.asidtbase := rfl
@[simp] theorem State.postMore_mbx (s : State) (e : Ev) : (s.postMore e).mbx = s.mbx := rfl
@[simp] theorem State.postMore_resdest (s : State) (e : Ev) : (s.postMore e).resdest = s.resdest := rfl
@[simp] theorem State.postMore_ltol (s : State) (e : Ev) : (s.postMore e).ltol = s.ltol := rfl
@[simp] theorem State.postMore_boot (s : State) (e : Ev) : (s.postMore e).boot = s.boot := rfl
@[simp] theorem State.postMore_ltr (s : State) (e : Ev) : (s.postMore e).ltr = s.ltr := rfl
@[simp] theorem State.postMore_downLinks (s : State) (e : Ev) : (s.postMore e).downLinks = s.downLinks := rfl
@[simp] theorem State.postMore_sent (s : State) (e : Ev) : (s.postMore e).sent = s.sent := rfl
@[simp] theorem State.postMore_reportSeq (s : State) (e : Ev) : (s.postMore e).reportSeq = s.reportSeq := rfl
@[simp] theorem State.postMore_fieldMap (s : State) (e : Ev) : (s.postMore e).fieldMap = s.fieldMap := rfl
@[simp] theorem State.postMore_flight (s : State) (e : Ev) : (s.postMore e).flight = s.flight := rfl
@[simp] theorem State.postMore_packets (s : State) (e : Ev) : (s.postMore e).packets = s.packets := rfl
@[simp] theorem State.postMore_turns (s : State) (e : Ev) : (s.postMore e).turns = s.turns := rfl
@[simp] theorem State.postMore_act (s : State) (e : Ev) : (s.postMore e).act = s.act := rfl
@[simp] theorem State.postMore_actx (s : State) (e : Ev) : (s.postMore e).actx = s.actx := rfl
@[simp] theorem State.postMore_head (s : State) (e : Ev) : (s.postMore e).head = s.head := rfl
@[simp] theorem State.postMore_ev (s : State) (e : Ev) : (s.postMore e).ev = s.ev := rfl
@[simp] theorem State.postMore_fresh (s : State) (e : Ev) : (s.postMore e).fresh = s.fresh := rfl
@[simp] theorem State.postMore_moves (s : State) (e : Ev) : (s.postMore e).moves = s.moves := rfl
@[simp] theorem State.postMore_cursor (s : State) (e : Ev) : (s.postMore e).cursor = s.cursor := rfl
@[simp] theorem State.postMore_dir (s : State) (e : Ev) : (s.postMore e).dir = s.dir := rfl
@[simp] theorem State.postMore_reportAt (s : State) (e : Ev) : (s.postMore e).reportAt = s.reportAt := rfl
@[simp] theorem State.postMore_reported (s : State) (e : Ev) : (s.postMore e).reported = s.reported := rfl
@[simp] theorem State.postMore_phase (s : State) (e : Ev) : (s.postMore e).phase = s.phase := rfl

@[simp] theorem State.cycle_cursor (s : State) : s.cycle.cursor = s.act + 1 := rfl
@[simp] theorem State.cycle_dir (s : State) : s.cycle.dir = s.dir := rfl
@[simp] theorem State.cycle_reportAt (s : State) : s.cycle.reportAt = s.reportAt := rfl
@[simp] theorem State.cycle_reported (s : State) : s.cycle.reported = s.reported := rfl
@[simp] theorem State.cycle_cores (s : State) : s.cycle.cores = sset s.cores s.act { s.core s.act with issued := s.time + 1 } := rfl
@[simp] theorem State.cycle_phase (s : State) : s.cycle.phase = s.phase := rfl
/-- The end of an issue changes, of the cores, only when the issuing one has issued last. -/
theorem State.core_cycle_act (s : State) : s.cycle.core s.act = { s.core s.act with issued := s.time + 1 } := by
  simp [State.cycle, State.core, State.modCore, State.setCore, sget_sset_same]
theorem State.core_cycle_ne (s : State) {k : Nat} (h : s.act ≠ k) : s.cycle.core k = s.core k := by
  simp [State.cycle, State.core, State.modCore, State.setCore, sget_sset_ne _ _ h]
@[simp] theorem State.ctx_cycle (s : State) (k : Nat) (x : Fin 11) : s.cycle.ctx k x = s.ctx k x := by
  by_cases h : s.act = k
  · subst h; simp only [State.ctx, State.core_cycle_act]; rfl
  · simp only [State.ctx, State.core_cycle_ne s h]
@[simp] theorem State.cycle_moves (s : State) : s.cycle.moves = s.moves + 1 := rfl

/-! ## Fields of a context under each update -/

@[simp] theorem Ctx.setV_st (c : Ctx) (r : VReg) (y : VWord) : (c.setV r y).st = c.st := rfl
@[simp] theorem Ctx.setV_hold (c : Ctx) (r : VReg) (y : VWord) : (c.setV r y).hold = c.hold := rfl
@[simp] theorem Ctx.setV_wake (c : Ctx) (r : VReg) (y : VWord) : (c.setV r y).wake = c.wake := rfl
@[simp] theorem Ctx.setV_late (c : Ctx) (r : VReg) (y : VWord) : (c.setV r y).late = c.late := rfl
@[simp] theorem Ctx.setV_entering (c : Ctx) (r : VReg) (y : VWord) : (c.setV r y).entering = c.entering := rfl
@[simp] theorem Ctx.setV_g (c : Ctx) (r : VReg) (y : VWord) : (c.setV r y).g = c.g := rfl
@[simp] theorem Ctx.setV_m (c : Ctx) (r : VReg) (y : VWord) : (c.setV r y).m = c.m := rfl
@[simp] theorem Ctx.setV_p (c : Ctx) (r : VReg) (y : VWord) : (c.setV r y).p = c.p := rfl
@[simp] theorem Ctx.setV_gf (c : Ctx) (r : VReg) (y : VWord) : (c.setV r y).gf = c.gf := rfl
@[simp] theorem Ctx.setV_vf (c : Ctx) (r : VReg) (y : VWord) : (c.setV r y).vf = c.vf := rfl
@[simp] theorem Ctx.setV_slots (c : Ctx) (r : VReg) (y : VWord) : (c.setV r y).slots = c.slots := rfl
@[simp] theorem Ctx.setV_pc (c : Ctx) (r : VReg) (y : VWord) : (c.setV r y).pc = c.pc := rfl
@[simp] theorem Ctx.setV_n1 (c : Ctx) (r : VReg) (y : VWord) : (c.setV r y).n1 = c.n1 := rfl
@[simp] theorem Ctx.setV_n2 (c : Ctx) (r : VReg) (y : VWord) : (c.setV r y).n2 = c.n2 := rfl
@[simp] theorem Ctx.setV_apc (c : Ctx) (r : VReg) (y : VWord) : (c.setV r y).apc = c.apc := rfl
@[simp] theorem Ctx.setV_an1 (c : Ctx) (r : VReg) (y : VWord) : (c.setV r y).an1 = c.an1 := rfl
@[simp] theorem Ctx.setV_status (c : Ctx) (r : VReg) (y : VWord) : (c.setV r y).status = c.status := rfl
@[simp] theorem Ctx.setV_qgd (c : Ctx) (r : VReg) (y : VWord) : (c.setV r y).qgd = c.qgd := rfl
@[simp] theorem Ctx.setV_ssb (c : Ctx) (r : VReg) (y : VWord) : (c.setV r y).ssb = c.ssb := rfl
@[simp] theorem Ctx.setV_ssl (c : Ctx) (r : VReg) (y : VWord) : (c.setV r y).ssl = c.ssl := rfl
@[simp] theorem Ctx.setV_uivec (c : Ctx) (r : VReg) (y : VWord) : (c.setV r y).uivec = c.uivec := rfl
@[simp] theorem Ctx.setV_uitag (c : Ctx) (r : VReg) (y : VWord) : (c.setV r y).uitag = c.uitag := rfl
@[simp] theorem Ctx.setV_uicause (c : Ctx) (r : VReg) (y : VWord) : (c.setV r y).uicause = c.uicause := rfl
@[simp] theorem Ctx.setV_fmode (c : Ctx) (r : VReg) (y : VWord) : (c.setV r y).fmode = c.fmode := rfl
@[simp] theorem Ctx.setV_fflags (c : Ctx) (r : VReg) (y : VWord) : (c.setV r y).fflags = c.fflags := rfl
@[simp] theorem Ctx.setV_qcount (c : Ctx) (r : VReg) (y : VWord) : (c.setV r y).qcount = c.qcount := rfl
@[simp] theorem Ctx.setV_qbase (c : Ctx) (r : VReg) (y : VWord) : (c.setV r y).qbase = c.qbase := rfl
@[simp] theorem Ctx.setV_qstride (c : Ctx) (r : VReg) (y : VWord) : (c.setV r y).qstride = c.qstride := rfl
@[simp] theorem Ctx.setV_shadow (c : Ctx) (r : VReg) (y : VWord) : (c.setV r y).shadow = c.shadow := rfl
@[simp] theorem Ctx.setV_shadowf (c : Ctx) (r : VReg) (y : VWord) : (c.setV r y).shadowf = c.shadowf := rfl
@[simp] theorem Ctx.setV_age (c : Ctx) (r : VReg) (y : VWord) : (c.setV r y).age = c.age := rfl
@[simp] theorem Ctx.setV_prods (c : Ctx) (r : VReg) (y : VWord) : (c.setV r y).prods = c.prods := rfl
@[simp] theorem Ctx.setV_mxu (c : Ctx) (r : VReg) (y : VWord) : (c.setV r y).mxu = c.mxu := rfl
@[simp] theorem Ctx.setV_ldfs (c : Ctx) (r : VReg) (y : VWord) : (c.setV r y).ldfs = c.ldfs := rfl
@[simp] theorem Ctx.setV_ldnm (c : Ctx) (r : VReg) (y : VWord) : (c.setV r y).ldnm = c.ldnm := rfl
@[simp] theorem Ctx.setV_poisonQ (c : Ctx) (r : VReg) (y : VWord) : (c.setV r y).poisonQ = c.poisonQ := rfl
@[simp] theorem Ctx.setV_copyQ (c : Ctx) (r : VReg) (y : VWord) : (c.setV r y).copyQ = c.copyQ := rfl
@[simp] theorem Ctx.setV_cpyiQ (c : Ctx) (r : VReg) (y : VWord) : (c.setV r y).cpyiQ = c.cpyiQ := rfl
@[simp] theorem Ctx.setV_stopReq (c : Ctx) (r : VReg) (y : VWord) : (c.setV r y).stopReq = c.stopReq := rfl
@[simp] theorem Ctx.setV_prog (c : Ctx) (r : VReg) (y : VWord) : (c.setV r y).prog = c.prog := rfl
@[simp] theorem Ctx.setV_send (c : Ctx) (r : VReg) (y : VWord) : (c.setV r y).send = c.send := rfl
@[simp] theorem Ctx.setV_sendTo (c : Ctx) (r : VReg) (y : VWord) : (c.setV r y).sendTo = c.sendTo := rfl
@[simp] theorem Ctx.setV_yields (c : Ctx) (r : VReg) (y : VWord) : (c.setV r y).yields = c.yields := rfl
@[simp] theorem Ctx.setV_walked (c : Ctx) (r : VReg) (y : VWord) : (c.setV r y).walked = c.walked := rfl
@[simp] theorem Ctx.setV_flagsAt (c : Ctx) (r : VReg) (y : VWord) : (c.setV r y).flagsAt = c.flagsAt := rfl

@[simp] theorem Ctx.markV_st (c : Ctx) (r : VReg) (b : Bool) : (c.markV r b).st = c.st := rfl
@[simp] theorem Ctx.markV_hold (c : Ctx) (r : VReg) (b : Bool) : (c.markV r b).hold = c.hold := rfl
@[simp] theorem Ctx.markV_wake (c : Ctx) (r : VReg) (b : Bool) : (c.markV r b).wake = c.wake := rfl
@[simp] theorem Ctx.markV_late (c : Ctx) (r : VReg) (b : Bool) : (c.markV r b).late = c.late := rfl
@[simp] theorem Ctx.markV_entering (c : Ctx) (r : VReg) (b : Bool) : (c.markV r b).entering = c.entering := rfl
@[simp] theorem Ctx.markV_g (c : Ctx) (r : VReg) (b : Bool) : (c.markV r b).g = c.g := rfl
@[simp] theorem Ctx.markV_v (c : Ctx) (r : VReg) (b : Bool) : (c.markV r b).v = c.v := rfl
@[simp] theorem Ctx.markV_m (c : Ctx) (r : VReg) (b : Bool) : (c.markV r b).m = c.m := rfl
@[simp] theorem Ctx.markV_p (c : Ctx) (r : VReg) (b : Bool) : (c.markV r b).p = c.p := rfl
@[simp] theorem Ctx.markV_gf (c : Ctx) (r : VReg) (b : Bool) : (c.markV r b).gf = c.gf := rfl
@[simp] theorem Ctx.markV_slots (c : Ctx) (r : VReg) (b : Bool) : (c.markV r b).slots = c.slots := rfl
@[simp] theorem Ctx.markV_pc (c : Ctx) (r : VReg) (b : Bool) : (c.markV r b).pc = c.pc := rfl
@[simp] theorem Ctx.markV_n1 (c : Ctx) (r : VReg) (b : Bool) : (c.markV r b).n1 = c.n1 := rfl
@[simp] theorem Ctx.markV_n2 (c : Ctx) (r : VReg) (b : Bool) : (c.markV r b).n2 = c.n2 := rfl
@[simp] theorem Ctx.markV_apc (c : Ctx) (r : VReg) (b : Bool) : (c.markV r b).apc = c.apc := rfl
@[simp] theorem Ctx.markV_an1 (c : Ctx) (r : VReg) (b : Bool) : (c.markV r b).an1 = c.an1 := rfl
@[simp] theorem Ctx.markV_status (c : Ctx) (r : VReg) (b : Bool) : (c.markV r b).status = c.status := rfl
@[simp] theorem Ctx.markV_qgd (c : Ctx) (r : VReg) (b : Bool) : (c.markV r b).qgd = c.qgd := rfl
@[simp] theorem Ctx.markV_ssb (c : Ctx) (r : VReg) (b : Bool) : (c.markV r b).ssb = c.ssb := rfl
@[simp] theorem Ctx.markV_ssl (c : Ctx) (r : VReg) (b : Bool) : (c.markV r b).ssl = c.ssl := rfl
@[simp] theorem Ctx.markV_uivec (c : Ctx) (r : VReg) (b : Bool) : (c.markV r b).uivec = c.uivec := rfl
@[simp] theorem Ctx.markV_uitag (c : Ctx) (r : VReg) (b : Bool) : (c.markV r b).uitag = c.uitag := rfl
@[simp] theorem Ctx.markV_uicause (c : Ctx) (r : VReg) (b : Bool) : (c.markV r b).uicause = c.uicause := rfl
@[simp] theorem Ctx.markV_fmode (c : Ctx) (r : VReg) (b : Bool) : (c.markV r b).fmode = c.fmode := rfl
@[simp] theorem Ctx.markV_fflags (c : Ctx) (r : VReg) (b : Bool) : (c.markV r b).fflags = c.fflags := rfl
@[simp] theorem Ctx.markV_qcount (c : Ctx) (r : VReg) (b : Bool) : (c.markV r b).qcount = c.qcount := rfl
@[simp] theorem Ctx.markV_qbase (c : Ctx) (r : VReg) (b : Bool) : (c.markV r b).qbase = c.qbase := rfl
@[simp] theorem Ctx.markV_qstride (c : Ctx) (r : VReg) (b : Bool) : (c.markV r b).qstride = c.qstride := rfl
@[simp] theorem Ctx.markV_shadow (c : Ctx) (r : VReg) (b : Bool) : (c.markV r b).shadow = c.shadow := rfl
@[simp] theorem Ctx.markV_shadowf (c : Ctx) (r : VReg) (b : Bool) : (c.markV r b).shadowf = c.shadowf := rfl
@[simp] theorem Ctx.markV_age (c : Ctx) (r : VReg) (b : Bool) : (c.markV r b).age = c.age := rfl
@[simp] theorem Ctx.markV_prods (c : Ctx) (r : VReg) (b : Bool) : (c.markV r b).prods = c.prods := rfl
@[simp] theorem Ctx.markV_mxu (c : Ctx) (r : VReg) (b : Bool) : (c.markV r b).mxu = c.mxu := rfl
@[simp] theorem Ctx.markV_ldfs (c : Ctx) (r : VReg) (b : Bool) : (c.markV r b).ldfs = c.ldfs := rfl
@[simp] theorem Ctx.markV_ldnm (c : Ctx) (r : VReg) (b : Bool) : (c.markV r b).ldnm = c.ldnm := rfl
@[simp] theorem Ctx.markV_poisonQ (c : Ctx) (r : VReg) (b : Bool) : (c.markV r b).poisonQ = c.poisonQ := rfl
@[simp] theorem Ctx.markV_copyQ (c : Ctx) (r : VReg) (b : Bool) : (c.markV r b).copyQ = c.copyQ := rfl
@[simp] theorem Ctx.markV_cpyiQ (c : Ctx) (r : VReg) (b : Bool) : (c.markV r b).cpyiQ = c.cpyiQ := rfl
@[simp] theorem Ctx.markV_stopReq (c : Ctx) (r : VReg) (b : Bool) : (c.markV r b).stopReq = c.stopReq := rfl
@[simp] theorem Ctx.markV_prog (c : Ctx) (r : VReg) (b : Bool) : (c.markV r b).prog = c.prog := rfl
@[simp] theorem Ctx.markV_send (c : Ctx) (r : VReg) (b : Bool) : (c.markV r b).send = c.send := rfl
@[simp] theorem Ctx.markV_sendTo (c : Ctx) (r : VReg) (b : Bool) : (c.markV r b).sendTo = c.sendTo := rfl
@[simp] theorem Ctx.markV_yields (c : Ctx) (r : VReg) (b : Bool) : (c.markV r b).yields = c.yields := rfl
@[simp] theorem Ctx.markV_walked (c : Ctx) (r : VReg) (b : Bool) : (c.markV r b).walked = c.walked := rfl
@[simp] theorem Ctx.markV_flagsAt (c : Ctx) (r : VReg) (b : Bool) : (c.markV r b).flagsAt = c.flagsAt := rfl

@[simp] theorem Ctx.setStatus_st (c : Ctx) (lo w y : Nat) : (c.setStatus lo w y).st = c.st := rfl
@[simp] theorem Ctx.setStatus_hold (c : Ctx) (lo w y : Nat) : (c.setStatus lo w y).hold = c.hold := rfl
@[simp] theorem Ctx.setStatus_wake (c : Ctx) (lo w y : Nat) : (c.setStatus lo w y).wake = c.wake := rfl
@[simp] theorem Ctx.setStatus_late (c : Ctx) (lo w y : Nat) : (c.setStatus lo w y).late = c.late := rfl
@[simp] theorem Ctx.setStatus_entering (c : Ctx) (lo w y : Nat) : (c.setStatus lo w y).entering = c.entering := rfl
@[simp] theorem Ctx.setStatus_g (c : Ctx) (lo w y : Nat) : (c.setStatus lo w y).g = c.g := rfl
@[simp] theorem Ctx.setStatus_v (c : Ctx) (lo w y : Nat) : (c.setStatus lo w y).v = c.v := rfl
@[simp] theorem Ctx.setStatus_m (c : Ctx) (lo w y : Nat) : (c.setStatus lo w y).m = c.m := rfl
@[simp] theorem Ctx.setStatus_p (c : Ctx) (lo w y : Nat) : (c.setStatus lo w y).p = c.p := rfl
@[simp] theorem Ctx.setStatus_gf (c : Ctx) (lo w y : Nat) : (c.setStatus lo w y).gf = c.gf := rfl
@[simp] theorem Ctx.setStatus_vf (c : Ctx) (lo w y : Nat) : (c.setStatus lo w y).vf = c.vf := rfl
@[simp] theorem Ctx.setStatus_slots (c : Ctx) (lo w y : Nat) : (c.setStatus lo w y).slots = c.slots := rfl
@[simp] theorem Ctx.setStatus_pc (c : Ctx) (lo w y : Nat) : (c.setStatus lo w y).pc = c.pc := rfl
@[simp] theorem Ctx.setStatus_n1 (c : Ctx) (lo w y : Nat) : (c.setStatus lo w y).n1 = c.n1 := rfl
@[simp] theorem Ctx.setStatus_n2 (c : Ctx) (lo w y : Nat) : (c.setStatus lo w y).n2 = c.n2 := rfl
@[simp] theorem Ctx.setStatus_apc (c : Ctx) (lo w y : Nat) : (c.setStatus lo w y).apc = c.apc := rfl
@[simp] theorem Ctx.setStatus_an1 (c : Ctx) (lo w y : Nat) : (c.setStatus lo w y).an1 = c.an1 := rfl
@[simp] theorem Ctx.setStatus_qgd (c : Ctx) (lo w y : Nat) : (c.setStatus lo w y).qgd = c.qgd := rfl
@[simp] theorem Ctx.setStatus_ssb (c : Ctx) (lo w y : Nat) : (c.setStatus lo w y).ssb = c.ssb := rfl
@[simp] theorem Ctx.setStatus_ssl (c : Ctx) (lo w y : Nat) : (c.setStatus lo w y).ssl = c.ssl := rfl
@[simp] theorem Ctx.setStatus_uivec (c : Ctx) (lo w y : Nat) : (c.setStatus lo w y).uivec = c.uivec := rfl
@[simp] theorem Ctx.setStatus_uitag (c : Ctx) (lo w y : Nat) : (c.setStatus lo w y).uitag = c.uitag := rfl
@[simp] theorem Ctx.setStatus_uicause (c : Ctx) (lo w y : Nat) : (c.setStatus lo w y).uicause = c.uicause := rfl
@[simp] theorem Ctx.setStatus_fmode (c : Ctx) (lo w y : Nat) : (c.setStatus lo w y).fmode = c.fmode := rfl
@[simp] theorem Ctx.setStatus_fflags (c : Ctx) (lo w y : Nat) : (c.setStatus lo w y).fflags = c.fflags := rfl
@[simp] theorem Ctx.setStatus_qcount (c : Ctx) (lo w y : Nat) : (c.setStatus lo w y).qcount = c.qcount := rfl
@[simp] theorem Ctx.setStatus_qbase (c : Ctx) (lo w y : Nat) : (c.setStatus lo w y).qbase = c.qbase := rfl
@[simp] theorem Ctx.setStatus_qstride (c : Ctx) (lo w y : Nat) : (c.setStatus lo w y).qstride = c.qstride := rfl
@[simp] theorem Ctx.setStatus_shadow (c : Ctx) (lo w y : Nat) : (c.setStatus lo w y).shadow = c.shadow := rfl
@[simp] theorem Ctx.setStatus_shadowf (c : Ctx) (lo w y : Nat) : (c.setStatus lo w y).shadowf = c.shadowf := rfl
@[simp] theorem Ctx.setStatus_age (c : Ctx) (lo w y : Nat) : (c.setStatus lo w y).age = c.age := rfl
@[simp] theorem Ctx.setStatus_prods (c : Ctx) (lo w y : Nat) : (c.setStatus lo w y).prods = c.prods := rfl
@[simp] theorem Ctx.setStatus_mxu (c : Ctx) (lo w y : Nat) : (c.setStatus lo w y).mxu = c.mxu := rfl
@[simp] theorem Ctx.setStatus_ldfs (c : Ctx) (lo w y : Nat) : (c.setStatus lo w y).ldfs = c.ldfs := rfl
@[simp] theorem Ctx.setStatus_ldnm (c : Ctx) (lo w y : Nat) : (c.setStatus lo w y).ldnm = c.ldnm := rfl
@[simp] theorem Ctx.setStatus_poisonQ (c : Ctx) (lo w y : Nat) : (c.setStatus lo w y).poisonQ = c.poisonQ := rfl
@[simp] theorem Ctx.setStatus_copyQ (c : Ctx) (lo w y : Nat) : (c.setStatus lo w y).copyQ = c.copyQ := rfl
@[simp] theorem Ctx.setStatus_cpyiQ (c : Ctx) (lo w y : Nat) : (c.setStatus lo w y).cpyiQ = c.cpyiQ := rfl
@[simp] theorem Ctx.setStatus_stopReq (c : Ctx) (lo w y : Nat) : (c.setStatus lo w y).stopReq = c.stopReq := rfl
@[simp] theorem Ctx.setStatus_prog (c : Ctx) (lo w y : Nat) : (c.setStatus lo w y).prog = c.prog := rfl
@[simp] theorem Ctx.setStatus_send (c : Ctx) (lo w y : Nat) : (c.setStatus lo w y).send = c.send := rfl
@[simp] theorem Ctx.setStatus_sendTo (c : Ctx) (lo w y : Nat) : (c.setStatus lo w y).sendTo = c.sendTo := rfl
@[simp] theorem Ctx.setStatus_yields (c : Ctx) (lo w y : Nat) : (c.setStatus lo w y).yields = c.yields := rfl
@[simp] theorem Ctx.setStatus_walked (c : Ctx) (lo w y : Nat) : (c.setStatus lo w y).walked = c.walked := rfl
@[simp] theorem Ctx.setStatus_flagsAt (c : Ctx) (lo w y : Nat) : (c.setStatus lo w y).flagsAt = c.flagsAt := rfl

@[simp] theorem Ctx.orFlags_st (c : Ctx) (due : Nat) (f : Flags) : (c.orFlags due f).st = c.st := by unfold Ctx.orFlags; split <;> rfl
@[simp] theorem Ctx.orFlags_hold (c : Ctx) (due : Nat) (f : Flags) : (c.orFlags due f).hold = c.hold := by unfold Ctx.orFlags; split <;> rfl
@[simp] theorem Ctx.orFlags_wake (c : Ctx) (due : Nat) (f : Flags) : (c.orFlags due f).wake = c.wake := by unfold Ctx.orFlags; split <;> rfl
@[simp] theorem Ctx.orFlags_late (c : Ctx) (due : Nat) (f : Flags) : (c.orFlags due f).late = c.late := by unfold Ctx.orFlags; split <;> rfl
@[simp] theorem Ctx.orFlags_entering (c : Ctx) (due : Nat) (f : Flags) : (c.orFlags due f).entering = c.entering := by unfold Ctx.orFlags; split <;> rfl
@[simp] theorem Ctx.orFlags_g (c : Ctx) (due : Nat) (f : Flags) : (c.orFlags due f).g = c.g := by unfold Ctx.orFlags; split <;> rfl
@[simp] theorem Ctx.orFlags_v (c : Ctx) (due : Nat) (f : Flags) : (c.orFlags due f).v = c.v := by unfold Ctx.orFlags; split <;> rfl
@[simp] theorem Ctx.orFlags_m (c : Ctx) (due : Nat) (f : Flags) : (c.orFlags due f).m = c.m := by unfold Ctx.orFlags; split <;> rfl
@[simp] theorem Ctx.orFlags_p (c : Ctx) (due : Nat) (f : Flags) : (c.orFlags due f).p = c.p := by unfold Ctx.orFlags; split <;> rfl
@[simp] theorem Ctx.orFlags_gf (c : Ctx) (due : Nat) (f : Flags) : (c.orFlags due f).gf = c.gf := by unfold Ctx.orFlags; split <;> rfl
@[simp] theorem Ctx.orFlags_vf (c : Ctx) (due : Nat) (f : Flags) : (c.orFlags due f).vf = c.vf := by unfold Ctx.orFlags; split <;> rfl
@[simp] theorem Ctx.orFlags_slots (c : Ctx) (due : Nat) (f : Flags) : (c.orFlags due f).slots = c.slots := by unfold Ctx.orFlags; split <;> rfl
@[simp] theorem Ctx.orFlags_pc (c : Ctx) (due : Nat) (f : Flags) : (c.orFlags due f).pc = c.pc := by unfold Ctx.orFlags; split <;> rfl
@[simp] theorem Ctx.orFlags_n1 (c : Ctx) (due : Nat) (f : Flags) : (c.orFlags due f).n1 = c.n1 := by unfold Ctx.orFlags; split <;> rfl
@[simp] theorem Ctx.orFlags_n2 (c : Ctx) (due : Nat) (f : Flags) : (c.orFlags due f).n2 = c.n2 := by unfold Ctx.orFlags; split <;> rfl
@[simp] theorem Ctx.orFlags_apc (c : Ctx) (due : Nat) (f : Flags) : (c.orFlags due f).apc = c.apc := by unfold Ctx.orFlags; split <;> rfl
@[simp] theorem Ctx.orFlags_an1 (c : Ctx) (due : Nat) (f : Flags) : (c.orFlags due f).an1 = c.an1 := by unfold Ctx.orFlags; split <;> rfl
@[simp] theorem Ctx.orFlags_status (c : Ctx) (due : Nat) (f : Flags) : (c.orFlags due f).status = c.status := by unfold Ctx.orFlags; split <;> rfl
@[simp] theorem Ctx.orFlags_qgd (c : Ctx) (due : Nat) (f : Flags) : (c.orFlags due f).qgd = c.qgd := by unfold Ctx.orFlags; split <;> rfl
@[simp] theorem Ctx.orFlags_ssb (c : Ctx) (due : Nat) (f : Flags) : (c.orFlags due f).ssb = c.ssb := by unfold Ctx.orFlags; split <;> rfl
@[simp] theorem Ctx.orFlags_ssl (c : Ctx) (due : Nat) (f : Flags) : (c.orFlags due f).ssl = c.ssl := by unfold Ctx.orFlags; split <;> rfl
@[simp] theorem Ctx.orFlags_uivec (c : Ctx) (due : Nat) (f : Flags) : (c.orFlags due f).uivec = c.uivec := by unfold Ctx.orFlags; split <;> rfl
@[simp] theorem Ctx.orFlags_uitag (c : Ctx) (due : Nat) (f : Flags) : (c.orFlags due f).uitag = c.uitag := by unfold Ctx.orFlags; split <;> rfl
@[simp] theorem Ctx.orFlags_uicause (c : Ctx) (due : Nat) (f : Flags) : (c.orFlags due f).uicause = c.uicause := by unfold Ctx.orFlags; split <;> rfl
@[simp] theorem Ctx.orFlags_fmode (c : Ctx) (due : Nat) (f : Flags) : (c.orFlags due f).fmode = c.fmode := by unfold Ctx.orFlags; split <;> rfl
@[simp] theorem Ctx.orFlags_qcount (c : Ctx) (due : Nat) (f : Flags) : (c.orFlags due f).qcount = c.qcount := by unfold Ctx.orFlags; split <;> rfl
@[simp] theorem Ctx.orFlags_qbase (c : Ctx) (due : Nat) (f : Flags) : (c.orFlags due f).qbase = c.qbase := by unfold Ctx.orFlags; split <;> rfl
@[simp] theorem Ctx.orFlags_qstride (c : Ctx) (due : Nat) (f : Flags) : (c.orFlags due f).qstride = c.qstride := by unfold Ctx.orFlags; split <;> rfl
@[simp] theorem Ctx.orFlags_shadow (c : Ctx) (due : Nat) (f : Flags) : (c.orFlags due f).shadow = c.shadow := by unfold Ctx.orFlags; split <;> rfl
@[simp] theorem Ctx.orFlags_shadowf (c : Ctx) (due : Nat) (f : Flags) : (c.orFlags due f).shadowf = c.shadowf := by unfold Ctx.orFlags; split <;> rfl
@[simp] theorem Ctx.orFlags_age (c : Ctx) (due : Nat) (f : Flags) : (c.orFlags due f).age = c.age := by unfold Ctx.orFlags; split <;> rfl
@[simp] theorem Ctx.orFlags_prods (c : Ctx) (due : Nat) (f : Flags) : (c.orFlags due f).prods = c.prods := by unfold Ctx.orFlags; split <;> rfl
@[simp] theorem Ctx.orFlags_mxu (c : Ctx) (due : Nat) (f : Flags) : (c.orFlags due f).mxu = c.mxu := by unfold Ctx.orFlags; split <;> rfl
@[simp] theorem Ctx.orFlags_ldfs (c : Ctx) (due : Nat) (f : Flags) : (c.orFlags due f).ldfs = c.ldfs := by unfold Ctx.orFlags; split <;> rfl
@[simp] theorem Ctx.orFlags_ldnm (c : Ctx) (due : Nat) (f : Flags) : (c.orFlags due f).ldnm = c.ldnm := by unfold Ctx.orFlags; split <;> rfl
@[simp] theorem Ctx.orFlags_poisonQ (c : Ctx) (due : Nat) (f : Flags) : (c.orFlags due f).poisonQ = c.poisonQ := by unfold Ctx.orFlags; split <;> rfl
@[simp] theorem Ctx.orFlags_copyQ (c : Ctx) (due : Nat) (f : Flags) : (c.orFlags due f).copyQ = c.copyQ := by unfold Ctx.orFlags; split <;> rfl
@[simp] theorem Ctx.orFlags_cpyiQ (c : Ctx) (due : Nat) (f : Flags) : (c.orFlags due f).cpyiQ = c.cpyiQ := by unfold Ctx.orFlags; split <;> rfl
@[simp] theorem Ctx.orFlags_stopReq (c : Ctx) (due : Nat) (f : Flags) : (c.orFlags due f).stopReq = c.stopReq := by unfold Ctx.orFlags; split <;> rfl
@[simp] theorem Ctx.orFlags_prog (c : Ctx) (due : Nat) (f : Flags) : (c.orFlags due f).prog = c.prog := by unfold Ctx.orFlags; split <;> rfl
@[simp] theorem Ctx.orFlags_send (c : Ctx) (due : Nat) (f : Flags) : (c.orFlags due f).send = c.send := by unfold Ctx.orFlags; split <;> rfl
@[simp] theorem Ctx.orFlags_sendTo (c : Ctx) (due : Nat) (f : Flags) : (c.orFlags due f).sendTo = c.sendTo := by unfold Ctx.orFlags; split <;> rfl
@[simp] theorem Ctx.orFlags_yields (c : Ctx) (due : Nat) (f : Flags) : (c.orFlags due f).yields = c.yields := by unfold Ctx.orFlags; split <;> rfl
@[simp] theorem Ctx.orFlags_fflags (c : Ctx) (due : Nat) (f : Flags) : (c.orFlags due f).fflags = c.fflags := by unfold Ctx.orFlags; split <;> rfl
@[simp] theorem Ctx.orFlags_zero (c : Ctx) (due : Nat) : c.orFlags due 0 = c := rfl
@[simp] theorem Ctx.orFlags_walked (c : Ctx) (due : Nat) (f : Flags) : (c.orFlags due f).walked = c.walked := by unfold Ctx.orFlags; split <;> rfl

@[simp] theorem Ctx.advance_st (c : Ctx) (f : Flow) (nh : Nat) : (c.advance f nh).st = c.st := rfl
@[simp] theorem Ctx.advance_wake (c : Ctx) (f : Flow) (nh : Nat) : (c.advance f nh).wake = c.wake := rfl
@[simp] theorem Ctx.advance_late (c : Ctx) (f : Flow) (nh : Nat) : (c.advance f nh).late = c.late := rfl
@[simp] theorem Ctx.advance_entering (c : Ctx) (f : Flow) (nh : Nat) : (c.advance f nh).entering = c.entering := rfl
@[simp] theorem Ctx.advance_g (c : Ctx) (f : Flow) (nh : Nat) : (c.advance f nh).g = c.g := rfl
@[simp] theorem Ctx.advance_v (c : Ctx) (f : Flow) (nh : Nat) : (c.advance f nh).v = c.v := rfl
@[simp] theorem Ctx.advance_m (c : Ctx) (f : Flow) (nh : Nat) : (c.advance f nh).m = c.m := rfl
@[simp] theorem Ctx.advance_p (c : Ctx) (f : Flow) (nh : Nat) : (c.advance f nh).p = c.p := rfl
@[simp] theorem Ctx.advance_gf (c : Ctx) (f : Flow) (nh : Nat) : (c.advance f nh).gf = c.gf := rfl
@[simp] theorem Ctx.advance_vf (c : Ctx) (f : Flow) (nh : Nat) : (c.advance f nh).vf = c.vf := rfl
@[simp] theorem Ctx.advance_slots (c : Ctx) (f : Flow) (nh : Nat) : (c.advance f nh).slots = c.slots := rfl
@[simp] theorem Ctx.advance_status (c : Ctx) (f : Flow) (nh : Nat) : (c.advance f nh).status = c.status := rfl
@[simp] theorem Ctx.advance_qgd (c : Ctx) (f : Flow) (nh : Nat) : (c.advance f nh).qgd = c.qgd := rfl
@[simp] theorem Ctx.advance_ssb (c : Ctx) (f : Flow) (nh : Nat) : (c.advance f nh).ssb = c.ssb := rfl
@[simp] theorem Ctx.advance_ssl (c : Ctx) (f : Flow) (nh : Nat) : (c.advance f nh).ssl = c.ssl := rfl
@[simp] theorem Ctx.advance_uivec (c : Ctx) (f : Flow) (nh : Nat) : (c.advance f nh).uivec = c.uivec := rfl
@[simp] theorem Ctx.advance_uitag (c : Ctx) (f : Flow) (nh : Nat) : (c.advance f nh).uitag = c.uitag := rfl
@[simp] theorem Ctx.advance_uicause (c : Ctx) (f : Flow) (nh : Nat) : (c.advance f nh).uicause = c.uicause := rfl
@[simp] theorem Ctx.advance_fmode (c : Ctx) (f : Flow) (nh : Nat) : (c.advance f nh).fmode = c.fmode := rfl
@[simp] theorem Ctx.advance_fflags (c : Ctx) (f : Flow) (nh : Nat) : (c.advance f nh).fflags = c.fflags := rfl
@[simp] theorem Ctx.advance_qcount (c : Ctx) (f : Flow) (nh : Nat) : (c.advance f nh).qcount = c.qcount := rfl
@[simp] theorem Ctx.advance_qbase (c : Ctx) (f : Flow) (nh : Nat) : (c.advance f nh).qbase = c.qbase := rfl
@[simp] theorem Ctx.advance_qstride (c : Ctx) (f : Flow) (nh : Nat) : (c.advance f nh).qstride = c.qstride := rfl
@[simp] theorem Ctx.advance_shadow (c : Ctx) (f : Flow) (nh : Nat) : (c.advance f nh).shadow = c.shadow := rfl
@[simp] theorem Ctx.advance_shadowf (c : Ctx) (f : Flow) (nh : Nat) : (c.advance f nh).shadowf = c.shadowf := rfl
@[simp] theorem Ctx.advance_age (c : Ctx) (f : Flow) (nh : Nat) : (c.advance f nh).age = c.age := rfl
@[simp] theorem Ctx.advance_prods (c : Ctx) (f : Flow) (nh : Nat) : (c.advance f nh).prods = c.prods := rfl
@[simp] theorem Ctx.advance_mxu (c : Ctx) (f : Flow) (nh : Nat) : (c.advance f nh).mxu = c.mxu := rfl
@[simp] theorem Ctx.advance_ldfs (c : Ctx) (f : Flow) (nh : Nat) : (c.advance f nh).ldfs = c.ldfs := rfl
@[simp] theorem Ctx.advance_ldnm (c : Ctx) (f : Flow) (nh : Nat) : (c.advance f nh).ldnm = c.ldnm := rfl
@[simp] theorem Ctx.advance_poisonQ (c : Ctx) (f : Flow) (nh : Nat) : (c.advance f nh).poisonQ = c.poisonQ := rfl
@[simp] theorem Ctx.advance_copyQ (c : Ctx) (f : Flow) (nh : Nat) : (c.advance f nh).copyQ = c.copyQ := rfl
@[simp] theorem Ctx.advance_cpyiQ (c : Ctx) (f : Flow) (nh : Nat) : (c.advance f nh).cpyiQ = c.cpyiQ := rfl
@[simp] theorem Ctx.advance_stopReq (c : Ctx) (f : Flow) (nh : Nat) : (c.advance f nh).stopReq = c.stopReq := rfl
@[simp] theorem Ctx.advance_send (c : Ctx) (f : Flow) (nh : Nat) : (c.advance f nh).send = c.send := rfl
@[simp] theorem Ctx.advance_sendTo (c : Ctx) (f : Flow) (nh : Nat) : (c.advance f nh).sendTo = c.sendTo := rfl
@[simp] theorem Ctx.advance_yields (c : Ctx) (f : Flow) (nh : Nat) : (c.advance f nh).yields = c.yields := rfl
@[simp] theorem Ctx.advance_flagsAt (c : Ctx) (f : Flow) (nh : Nat) : (c.advance f nh).flagsAt = c.flagsAt := rfl

@[simp] theorem Ctx.setG_st (c : Ctx) (r : GReg) (y : Word) : (c.setG r y).st = c.st := by unfold Ctx.setG; split <;> rfl
@[simp] theorem Ctx.setG_hold (c : Ctx) (r : GReg) (y : Word) : (c.setG r y).hold = c.hold := by unfold Ctx.setG; split <;> rfl
@[simp] theorem Ctx.setG_wake (c : Ctx) (r : GReg) (y : Word) : (c.setG r y).wake = c.wake := by unfold Ctx.setG; split <;> rfl
@[simp] theorem Ctx.setG_late (c : Ctx) (r : GReg) (y : Word) : (c.setG r y).late = c.late := by unfold Ctx.setG; split <;> rfl
@[simp] theorem Ctx.setG_entering (c : Ctx) (r : GReg) (y : Word) : (c.setG r y).entering = c.entering := by unfold Ctx.setG; split <;> rfl
@[simp] theorem Ctx.setG_v (c : Ctx) (r : GReg) (y : Word) : (c.setG r y).v = c.v := by unfold Ctx.setG; split <;> rfl
@[simp] theorem Ctx.setG_m (c : Ctx) (r : GReg) (y : Word) : (c.setG r y).m = c.m := by unfold Ctx.setG; split <;> rfl
@[simp] theorem Ctx.setG_p (c : Ctx) (r : GReg) (y : Word) : (c.setG r y).p = c.p := by unfold Ctx.setG; split <;> rfl
@[simp] theorem Ctx.setG_gf (c : Ctx) (r : GReg) (y : Word) : (c.setG r y).gf = c.gf := by unfold Ctx.setG; split <;> rfl
@[simp] theorem Ctx.setG_vf (c : Ctx) (r : GReg) (y : Word) : (c.setG r y).vf = c.vf := by unfold Ctx.setG; split <;> rfl
@[simp] theorem Ctx.setG_slots (c : Ctx) (r : GReg) (y : Word) : (c.setG r y).slots = c.slots := by unfold Ctx.setG; split <;> rfl
@[simp] theorem Ctx.setG_pc (c : Ctx) (r : GReg) (y : Word) : (c.setG r y).pc = c.pc := by unfold Ctx.setG; split <;> rfl
@[simp] theorem Ctx.setG_n1 (c : Ctx) (r : GReg) (y : Word) : (c.setG r y).n1 = c.n1 := by unfold Ctx.setG; split <;> rfl
@[simp] theorem Ctx.setG_n2 (c : Ctx) (r : GReg) (y : Word) : (c.setG r y).n2 = c.n2 := by unfold Ctx.setG; split <;> rfl
@[simp] theorem Ctx.setG_apc (c : Ctx) (r : GReg) (y : Word) : (c.setG r y).apc = c.apc := by unfold Ctx.setG; split <;> rfl
@[simp] theorem Ctx.setG_an1 (c : Ctx) (r : GReg) (y : Word) : (c.setG r y).an1 = c.an1 := by unfold Ctx.setG; split <;> rfl
@[simp] theorem Ctx.setG_status (c : Ctx) (r : GReg) (y : Word) : (c.setG r y).status = c.status := by unfold Ctx.setG; split <;> rfl
@[simp] theorem Ctx.setG_qgd (c : Ctx) (r : GReg) (y : Word) : (c.setG r y).qgd = c.qgd := by unfold Ctx.setG; split <;> rfl
@[simp] theorem Ctx.setG_ssb (c : Ctx) (r : GReg) (y : Word) : (c.setG r y).ssb = c.ssb := by unfold Ctx.setG; split <;> rfl
@[simp] theorem Ctx.setG_ssl (c : Ctx) (r : GReg) (y : Word) : (c.setG r y).ssl = c.ssl := by unfold Ctx.setG; split <;> rfl
@[simp] theorem Ctx.setG_uivec (c : Ctx) (r : GReg) (y : Word) : (c.setG r y).uivec = c.uivec := by unfold Ctx.setG; split <;> rfl
@[simp] theorem Ctx.setG_uitag (c : Ctx) (r : GReg) (y : Word) : (c.setG r y).uitag = c.uitag := by unfold Ctx.setG; split <;> rfl
@[simp] theorem Ctx.setG_uicause (c : Ctx) (r : GReg) (y : Word) : (c.setG r y).uicause = c.uicause := by unfold Ctx.setG; split <;> rfl
@[simp] theorem Ctx.setG_fmode (c : Ctx) (r : GReg) (y : Word) : (c.setG r y).fmode = c.fmode := by unfold Ctx.setG; split <;> rfl
@[simp] theorem Ctx.setG_fflags (c : Ctx) (r : GReg) (y : Word) : (c.setG r y).fflags = c.fflags := by unfold Ctx.setG; split <;> rfl
@[simp] theorem Ctx.setG_qcount (c : Ctx) (r : GReg) (y : Word) : (c.setG r y).qcount = c.qcount := by unfold Ctx.setG; split <;> rfl
@[simp] theorem Ctx.setG_qbase (c : Ctx) (r : GReg) (y : Word) : (c.setG r y).qbase = c.qbase := by unfold Ctx.setG; split <;> rfl
@[simp] theorem Ctx.setG_qstride (c : Ctx) (r : GReg) (y : Word) : (c.setG r y).qstride = c.qstride := by unfold Ctx.setG; split <;> rfl
@[simp] theorem Ctx.setG_shadow (c : Ctx) (r : GReg) (y : Word) : (c.setG r y).shadow = c.shadow := by unfold Ctx.setG; split <;> rfl
@[simp] theorem Ctx.setG_shadowf (c : Ctx) (r : GReg) (y : Word) : (c.setG r y).shadowf = c.shadowf := by unfold Ctx.setG; split <;> rfl
@[simp] theorem Ctx.setG_age (c : Ctx) (r : GReg) (y : Word) : (c.setG r y).age = c.age := by unfold Ctx.setG; split <;> rfl
@[simp] theorem Ctx.setG_prods (c : Ctx) (r : GReg) (y : Word) : (c.setG r y).prods = c.prods := by unfold Ctx.setG; split <;> rfl
@[simp] theorem Ctx.setG_mxu (c : Ctx) (r : GReg) (y : Word) : (c.setG r y).mxu = c.mxu := by unfold Ctx.setG; split <;> rfl
@[simp] theorem Ctx.setG_ldfs (c : Ctx) (r : GReg) (y : Word) : (c.setG r y).ldfs = c.ldfs := by unfold Ctx.setG; split <;> rfl
@[simp] theorem Ctx.setG_ldnm (c : Ctx) (r : GReg) (y : Word) : (c.setG r y).ldnm = c.ldnm := by unfold Ctx.setG; split <;> rfl
@[simp] theorem Ctx.setG_poisonQ (c : Ctx) (r : GReg) (y : Word) : (c.setG r y).poisonQ = c.poisonQ := by unfold Ctx.setG; split <;> rfl
@[simp] theorem Ctx.setG_copyQ (c : Ctx) (r : GReg) (y : Word) : (c.setG r y).copyQ = c.copyQ := by unfold Ctx.setG; split <;> rfl
@[simp] theorem Ctx.setG_cpyiQ (c : Ctx) (r : GReg) (y : Word) : (c.setG r y).cpyiQ = c.cpyiQ := by unfold Ctx.setG; split <;> rfl
@[simp] theorem Ctx.setG_stopReq (c : Ctx) (r : GReg) (y : Word) : (c.setG r y).stopReq = c.stopReq := by unfold Ctx.setG; split <;> rfl
@[simp] theorem Ctx.setG_prog (c : Ctx) (r : GReg) (y : Word) : (c.setG r y).prog = c.prog := by unfold Ctx.setG; split <;> rfl
@[simp] theorem Ctx.setG_send (c : Ctx) (r : GReg) (y : Word) : (c.setG r y).send = c.send := by unfold Ctx.setG; split <;> rfl
@[simp] theorem Ctx.setG_sendTo (c : Ctx) (r : GReg) (y : Word) : (c.setG r y).sendTo = c.sendTo := by unfold Ctx.setG; split <;> rfl
@[simp] theorem Ctx.setG_yields (c : Ctx) (r : GReg) (y : Word) : (c.setG r y).yields = c.yields := by unfold Ctx.setG; split <;> rfl
@[simp] theorem Ctx.setG_walked (c : Ctx) (r : GReg) (y : Word) : (c.setG r y).walked = c.walked := by unfold Ctx.setG; split <;> rfl
@[simp] theorem Ctx.setG_flagsAt (c : Ctx) (r : GReg) (y : Word) : (c.setG r y).flagsAt = c.flagsAt := by unfold Ctx.setG; split <;> rfl
@[simp] theorem Ctx.markG_st (c : Ctx) (r : GReg) (b : Bool) : (c.markG r b).st = c.st := by unfold Ctx.markG; split <;> rfl
@[simp] theorem Ctx.markG_hold (c : Ctx) (r : GReg) (b : Bool) : (c.markG r b).hold = c.hold := by unfold Ctx.markG; split <;> rfl
@[simp] theorem Ctx.markG_wake (c : Ctx) (r : GReg) (b : Bool) : (c.markG r b).wake = c.wake := by unfold Ctx.markG; split <;> rfl
@[simp] theorem Ctx.markG_late (c : Ctx) (r : GReg) (b : Bool) : (c.markG r b).late = c.late := by unfold Ctx.markG; split <;> rfl
@[simp] theorem Ctx.markG_entering (c : Ctx) (r : GReg) (b : Bool) : (c.markG r b).entering = c.entering := by unfold Ctx.markG; split <;> rfl
@[simp] theorem Ctx.markG_g (c : Ctx) (r : GReg) (b : Bool) : (c.markG r b).g = c.g := by unfold Ctx.markG; split <;> rfl
@[simp] theorem Ctx.markG_v (c : Ctx) (r : GReg) (b : Bool) : (c.markG r b).v = c.v := by unfold Ctx.markG; split <;> rfl
@[simp] theorem Ctx.markG_m (c : Ctx) (r : GReg) (b : Bool) : (c.markG r b).m = c.m := by unfold Ctx.markG; split <;> rfl
@[simp] theorem Ctx.markG_p (c : Ctx) (r : GReg) (b : Bool) : (c.markG r b).p = c.p := by unfold Ctx.markG; split <;> rfl
@[simp] theorem Ctx.markG_vf (c : Ctx) (r : GReg) (b : Bool) : (c.markG r b).vf = c.vf := by unfold Ctx.markG; split <;> rfl
@[simp] theorem Ctx.markG_slots (c : Ctx) (r : GReg) (b : Bool) : (c.markG r b).slots = c.slots := by unfold Ctx.markG; split <;> rfl
@[simp] theorem Ctx.markG_pc (c : Ctx) (r : GReg) (b : Bool) : (c.markG r b).pc = c.pc := by unfold Ctx.markG; split <;> rfl
@[simp] theorem Ctx.markG_n1 (c : Ctx) (r : GReg) (b : Bool) : (c.markG r b).n1 = c.n1 := by unfold Ctx.markG; split <;> rfl
@[simp] theorem Ctx.markG_n2 (c : Ctx) (r : GReg) (b : Bool) : (c.markG r b).n2 = c.n2 := by unfold Ctx.markG; split <;> rfl
@[simp] theorem Ctx.markG_apc (c : Ctx) (r : GReg) (b : Bool) : (c.markG r b).apc = c.apc := by unfold Ctx.markG; split <;> rfl
@[simp] theorem Ctx.markG_an1 (c : Ctx) (r : GReg) (b : Bool) : (c.markG r b).an1 = c.an1 := by unfold Ctx.markG; split <;> rfl
@[simp] theorem Ctx.markG_status (c : Ctx) (r : GReg) (b : Bool) : (c.markG r b).status = c.status := by unfold Ctx.markG; split <;> rfl
@[simp] theorem Ctx.markG_qgd (c : Ctx) (r : GReg) (b : Bool) : (c.markG r b).qgd = c.qgd := by unfold Ctx.markG; split <;> rfl
@[simp] theorem Ctx.markG_ssb (c : Ctx) (r : GReg) (b : Bool) : (c.markG r b).ssb = c.ssb := by unfold Ctx.markG; split <;> rfl
@[simp] theorem Ctx.markG_ssl (c : Ctx) (r : GReg) (b : Bool) : (c.markG r b).ssl = c.ssl := by unfold Ctx.markG; split <;> rfl
@[simp] theorem Ctx.markG_uivec (c : Ctx) (r : GReg) (b : Bool) : (c.markG r b).uivec = c.uivec := by unfold Ctx.markG; split <;> rfl
@[simp] theorem Ctx.markG_uitag (c : Ctx) (r : GReg) (b : Bool) : (c.markG r b).uitag = c.uitag := by unfold Ctx.markG; split <;> rfl
@[simp] theorem Ctx.markG_uicause (c : Ctx) (r : GReg) (b : Bool) : (c.markG r b).uicause = c.uicause := by unfold Ctx.markG; split <;> rfl
@[simp] theorem Ctx.markG_fmode (c : Ctx) (r : GReg) (b : Bool) : (c.markG r b).fmode = c.fmode := by unfold Ctx.markG; split <;> rfl
@[simp] theorem Ctx.markG_fflags (c : Ctx) (r : GReg) (b : Bool) : (c.markG r b).fflags = c.fflags := by unfold Ctx.markG; split <;> rfl
@[simp] theorem Ctx.markG_qcount (c : Ctx) (r : GReg) (b : Bool) : (c.markG r b).qcount = c.qcount := by unfold Ctx.markG; split <;> rfl
@[simp] theorem Ctx.markG_qbase (c : Ctx) (r : GReg) (b : Bool) : (c.markG r b).qbase = c.qbase := by unfold Ctx.markG; split <;> rfl
@[simp] theorem Ctx.markG_qstride (c : Ctx) (r : GReg) (b : Bool) : (c.markG r b).qstride = c.qstride := by unfold Ctx.markG; split <;> rfl
@[simp] theorem Ctx.markG_shadow (c : Ctx) (r : GReg) (b : Bool) : (c.markG r b).shadow = c.shadow := by unfold Ctx.markG; split <;> rfl
@[simp] theorem Ctx.markG_shadowf (c : Ctx) (r : GReg) (b : Bool) : (c.markG r b).shadowf = c.shadowf := by unfold Ctx.markG; split <;> rfl
@[simp] theorem Ctx.markG_age (c : Ctx) (r : GReg) (b : Bool) : (c.markG r b).age = c.age := by unfold Ctx.markG; split <;> rfl
@[simp] theorem Ctx.markG_prods (c : Ctx) (r : GReg) (b : Bool) : (c.markG r b).prods = c.prods := by unfold Ctx.markG; split <;> rfl
@[simp] theorem Ctx.markG_mxu (c : Ctx) (r : GReg) (b : Bool) : (c.markG r b).mxu = c.mxu := by unfold Ctx.markG; split <;> rfl
@[simp] theorem Ctx.markG_ldfs (c : Ctx) (r : GReg) (b : Bool) : (c.markG r b).ldfs = c.ldfs := by unfold Ctx.markG; split <;> rfl
@[simp] theorem Ctx.markG_ldnm (c : Ctx) (r : GReg) (b : Bool) : (c.markG r b).ldnm = c.ldnm := by unfold Ctx.markG; split <;> rfl
@[simp] theorem Ctx.markG_poisonQ (c : Ctx) (r : GReg) (b : Bool) : (c.markG r b).poisonQ = c.poisonQ := by unfold Ctx.markG; split <;> rfl
@[simp] theorem Ctx.markG_copyQ (c : Ctx) (r : GReg) (b : Bool) : (c.markG r b).copyQ = c.copyQ := by unfold Ctx.markG; split <;> rfl
@[simp] theorem Ctx.markG_cpyiQ (c : Ctx) (r : GReg) (b : Bool) : (c.markG r b).cpyiQ = c.cpyiQ := by unfold Ctx.markG; split <;> rfl
@[simp] theorem Ctx.markG_stopReq (c : Ctx) (r : GReg) (b : Bool) : (c.markG r b).stopReq = c.stopReq := by unfold Ctx.markG; split <;> rfl
@[simp] theorem Ctx.markG_prog (c : Ctx) (r : GReg) (b : Bool) : (c.markG r b).prog = c.prog := by unfold Ctx.markG; split <;> rfl
@[simp] theorem Ctx.markG_send (c : Ctx) (r : GReg) (b : Bool) : (c.markG r b).send = c.send := by unfold Ctx.markG; split <;> rfl
@[simp] theorem Ctx.markG_sendTo (c : Ctx) (r : GReg) (b : Bool) : (c.markG r b).sendTo = c.sendTo := by unfold Ctx.markG; split <;> rfl
@[simp] theorem Ctx.markG_yields (c : Ctx) (r : GReg) (b : Bool) : (c.markG r b).yields = c.yields := by unfold Ctx.markG; split <;> rfl
@[simp] theorem Ctx.markG_walked (c : Ctx) (r : GReg) (b : Bool) : (c.markG r b).walked = c.walked := by unfold Ctx.markG; split <;> rfl
@[simp] theorem Ctx.markG_flagsAt (c : Ctx) (r : GReg) (b : Bool) : (c.markG r b).flagsAt = c.flagsAt := by unfold Ctx.markG; split <;> rfl
@[simp] theorem Ctx.putM_st (c : Ctx) (o : MOpd) (y : Mask) : (c.putM o y).st = c.st := by cases o <;> rfl
@[simp] theorem Ctx.putM_hold (c : Ctx) (o : MOpd) (y : Mask) : (c.putM o y).hold = c.hold := by cases o <;> rfl
@[simp] theorem Ctx.putM_wake (c : Ctx) (o : MOpd) (y : Mask) : (c.putM o y).wake = c.wake := by cases o <;> rfl
@[simp] theorem Ctx.putM_late (c : Ctx) (o : MOpd) (y : Mask) : (c.putM o y).late = c.late := by cases o <;> rfl
@[simp] theorem Ctx.putM_entering (c : Ctx) (o : MOpd) (y : Mask) : (c.putM o y).entering = c.entering := by cases o <;> rfl
@[simp] theorem Ctx.putM_g (c : Ctx) (o : MOpd) (y : Mask) : (c.putM o y).g = c.g := by cases o <;> rfl
@[simp] theorem Ctx.putM_v (c : Ctx) (o : MOpd) (y : Mask) : (c.putM o y).v = c.v := by cases o <;> rfl
@[simp] theorem Ctx.putM_gf (c : Ctx) (o : MOpd) (y : Mask) : (c.putM o y).gf = c.gf := by cases o <;> rfl
@[simp] theorem Ctx.putM_vf (c : Ctx) (o : MOpd) (y : Mask) : (c.putM o y).vf = c.vf := by cases o <;> rfl
@[simp] theorem Ctx.putM_slots (c : Ctx) (o : MOpd) (y : Mask) : (c.putM o y).slots = c.slots := by cases o <;> rfl
@[simp] theorem Ctx.putM_pc (c : Ctx) (o : MOpd) (y : Mask) : (c.putM o y).pc = c.pc := by cases o <;> rfl
@[simp] theorem Ctx.putM_n1 (c : Ctx) (o : MOpd) (y : Mask) : (c.putM o y).n1 = c.n1 := by cases o <;> rfl
@[simp] theorem Ctx.putM_n2 (c : Ctx) (o : MOpd) (y : Mask) : (c.putM o y).n2 = c.n2 := by cases o <;> rfl
@[simp] theorem Ctx.putM_apc (c : Ctx) (o : MOpd) (y : Mask) : (c.putM o y).apc = c.apc := by cases o <;> rfl
@[simp] theorem Ctx.putM_an1 (c : Ctx) (o : MOpd) (y : Mask) : (c.putM o y).an1 = c.an1 := by cases o <;> rfl
@[simp] theorem Ctx.putM_status (c : Ctx) (o : MOpd) (y : Mask) : (c.putM o y).status = c.status := by cases o <;> rfl
@[simp] theorem Ctx.putM_qgd (c : Ctx) (o : MOpd) (y : Mask) : (c.putM o y).qgd = c.qgd := by cases o <;> rfl
@[simp] theorem Ctx.putM_ssb (c : Ctx) (o : MOpd) (y : Mask) : (c.putM o y).ssb = c.ssb := by cases o <;> rfl
@[simp] theorem Ctx.putM_ssl (c : Ctx) (o : MOpd) (y : Mask) : (c.putM o y).ssl = c.ssl := by cases o <;> rfl
@[simp] theorem Ctx.putM_uivec (c : Ctx) (o : MOpd) (y : Mask) : (c.putM o y).uivec = c.uivec := by cases o <;> rfl
@[simp] theorem Ctx.putM_uitag (c : Ctx) (o : MOpd) (y : Mask) : (c.putM o y).uitag = c.uitag := by cases o <;> rfl
@[simp] theorem Ctx.putM_uicause (c : Ctx) (o : MOpd) (y : Mask) : (c.putM o y).uicause = c.uicause := by cases o <;> rfl
@[simp] theorem Ctx.putM_fmode (c : Ctx) (o : MOpd) (y : Mask) : (c.putM o y).fmode = c.fmode := by cases o <;> rfl
@[simp] theorem Ctx.putM_fflags (c : Ctx) (o : MOpd) (y : Mask) : (c.putM o y).fflags = c.fflags := by cases o <;> rfl
@[simp] theorem Ctx.putM_qcount (c : Ctx) (o : MOpd) (y : Mask) : (c.putM o y).qcount = c.qcount := by cases o <;> rfl
@[simp] theorem Ctx.putM_qbase (c : Ctx) (o : MOpd) (y : Mask) : (c.putM o y).qbase = c.qbase := by cases o <;> rfl
@[simp] theorem Ctx.putM_qstride (c : Ctx) (o : MOpd) (y : Mask) : (c.putM o y).qstride = c.qstride := by cases o <;> rfl
@[simp] theorem Ctx.putM_shadow (c : Ctx) (o : MOpd) (y : Mask) : (c.putM o y).shadow = c.shadow := by cases o <;> rfl
@[simp] theorem Ctx.putM_shadowf (c : Ctx) (o : MOpd) (y : Mask) : (c.putM o y).shadowf = c.shadowf := by cases o <;> rfl
@[simp] theorem Ctx.putM_age (c : Ctx) (o : MOpd) (y : Mask) : (c.putM o y).age = c.age := by cases o <;> rfl
@[simp] theorem Ctx.putM_prods (c : Ctx) (o : MOpd) (y : Mask) : (c.putM o y).prods = c.prods := by cases o <;> rfl
@[simp] theorem Ctx.putM_mxu (c : Ctx) (o : MOpd) (y : Mask) : (c.putM o y).mxu = c.mxu := by cases o <;> rfl
@[simp] theorem Ctx.putM_ldfs (c : Ctx) (o : MOpd) (y : Mask) : (c.putM o y).ldfs = c.ldfs := by cases o <;> rfl
@[simp] theorem Ctx.putM_ldnm (c : Ctx) (o : MOpd) (y : Mask) : (c.putM o y).ldnm = c.ldnm := by cases o <;> rfl
@[simp] theorem Ctx.putM_poisonQ (c : Ctx) (o : MOpd) (y : Mask) : (c.putM o y).poisonQ = c.poisonQ := by cases o <;> rfl
@[simp] theorem Ctx.putM_copyQ (c : Ctx) (o : MOpd) (y : Mask) : (c.putM o y).copyQ = c.copyQ := by cases o <;> rfl
@[simp] theorem Ctx.putM_cpyiQ (c : Ctx) (o : MOpd) (y : Mask) : (c.putM o y).cpyiQ = c.cpyiQ := by cases o <;> rfl
@[simp] theorem Ctx.putM_stopReq (c : Ctx) (o : MOpd) (y : Mask) : (c.putM o y).stopReq = c.stopReq := by cases o <;> rfl
@[simp] theorem Ctx.putM_prog (c : Ctx) (o : MOpd) (y : Mask) : (c.putM o y).prog = c.prog := by cases o <;> rfl
@[simp] theorem Ctx.putM_send (c : Ctx) (o : MOpd) (y : Mask) : (c.putM o y).send = c.send := by cases o <;> rfl
@[simp] theorem Ctx.putM_sendTo (c : Ctx) (o : MOpd) (y : Mask) : (c.putM o y).sendTo = c.sendTo := by cases o <;> rfl
@[simp] theorem Ctx.putM_yields (c : Ctx) (o : MOpd) (y : Mask) : (c.putM o y).yields = c.yields := by cases o <;> rfl
@[simp] theorem Ctx.putM_walked (c : Ctx) (o : MOpd) (y : Mask) : (c.putM o y).walked = c.walked := by cases o <;> rfl
@[simp] theorem Ctx.putM_flagsAt (c : Ctx) (o : MOpd) (y : Mask) : (c.putM o y).flagsAt = c.flagsAt := by cases o <;> rfl

/-- g0 reads 0 whatever is written to it (R67). -/
@[simp] theorem Ctx.getG_zero (c : Ctx) : c.getG 0 = 0 := by simp [Ctx.getG]
@[simp] theorem Ctx.setG_zero (c : Ctx) (y : Word) : c.setG 0 y = c := by simp [Ctx.setG]
theorem Ctx.getG_setG (c : Ctx) (r : GReg) (y : Word) : (c.setG r y).getG r = if r = 0 then 0 else y := by
  by_cases h : r = 0 <;> simp [Ctx.getG, Ctx.setG, h]
theorem Ctx.getG_setG_ne (c : Ctx) {r q : GReg} (y : Word) (h : r ≠ q) : (c.setG r y).getG q = c.getG q := by
  have hv : r.val ≠ q.val := Fin.val_ne_of_ne h
  by_cases hr : r = 0
  · simp [Ctx.setG, hr]
  · by_cases hq : q = 0
    · simp [Ctx.getG, hq]
    · simp [Ctx.getG, Ctx.setG, hr, hq, Vector.getElem_set_ne, hv]
theorem Ctx.getM_putM (c : Ctx) (o : MOpd) (y : Mask) : (c.putM o y).getM o = y := by cases o <;> simp [Ctx.getM, Ctx.putM]

/-! ## Fields of a core under each update -/

@[simp] theorem Core.setCtx_issuepol (c : Core) (x : Fin 11) (t : Ctx) : (c.setCtx x t).issuepol = c.issuepol := rfl
@[simp] theorem Core.setCtx_greedylim (c : Core) (x : Fin 11) (t : Ctx) : (c.setCtx x t).greedylim = c.greedylim := rfl
@[simp] theorem Core.setCtx_csap (c : Core) (x : Fin 11) (t : Ctx) : (c.setCtx x t).csap = c.csap := rfl
@[simp] theorem Core.setCtx_deleg (c : Core) (x : Fin 11) (t : Ctx) : (c.setCtx x t).deleg = c.deleg := rfl
@[simp] theorem Core.setCtx_epoch (c : Core) (x : Fin 11) (t : Ctx) : (c.setCtx x t).epoch = c.epoch := rfl
@[simp] theorem Core.setCtx_tvec (c : Core) (x : Fin 11) (t : Ctx) : (c.setCtx x t).tvec = c.tvec := rfl
@[simp] theorem Core.setCtx_last (c : Core) (x : Fin 11) (t : Ctx) : (c.setCtx x t).last = c.last := rfl
@[simp] theorem Core.setCtx_greedy (c : Core) (x : Fin 11) (t : Ctx) : (c.setCtx x t).greedy = c.greedy := rfl
@[simp] theorem Core.setCtx_run (c : Core) (x : Fin 11) (t : Ctx) : (c.setCtx x t).run = c.run := rfl
@[simp] theorem Core.setCtx_units (c : Core) (x : Fin 11) (t : Ctx) : (c.setCtx x t).units = c.units := rfl
@[simp] theorem Core.setCtx_spad (c : Core) (x : Fin 11) (t : Ctx) : (c.setCtx x t).spad = c.spad := rfl
@[simp] theorem Core.setCtx_spoison (c : Core) (x : Fin 11) (t : Ctx) : (c.setCtx x t).spoison = c.spoison := rfl
@[simp] theorem Core.setCtx_l1 (c : Core) (x : Fin 11) (t : Ctx) : (c.setCtx x t).l1 = c.l1 := rfl
@[simp] theorem Core.setCtx_wins (c : Core) (x : Fin 11) (t : Ctx) : (c.setCtx x t).wins = c.wins := rfl
@[simp] theorem Core.setCtx_tlb (c : Core) (x : Fin 11) (t : Ctx) : (c.setCtx x t).tlb = c.tlb := rfl
@[simp] theorem Core.setCtx_qs (c : Core) (x : Fin 11) (t : Ctx) : (c.setCtx x t).qs = c.qs := rfl
@[simp] theorem Core.setCtx_tbad (c : Core) (x : Fin 11) (t : Ctx) : (c.setCtx x t).tbad = c.tbad := rfl
@[simp] theorem Core.setCtx_tiles (c : Core) (x : Fin 11) (t : Ctx) : (c.setCtx x t).tiles = c.tiles := rfl
@[simp] theorem Core.setCtx_cfgv (c : Core) (x : Fin 11) (t : Ctx) : (c.setCtx x t).cfgv = c.cfgv := rfl
@[simp] theorem Core.setCtx_fmt (c : Core) (x : Fin 11) (t : Ctx) : (c.setCtx x t).fmt = c.fmt := rfl
@[simp] theorem Core.setCtx_chans (c : Core) (x : Fin 11) (t : Ctx) : (c.setCtx x t).chans = c.chans := rfl
@[simp] theorem Core.setCtx_installs (c : Core) (x : Fin 11) (t : Ctx) : (c.setCtx x t).installs = c.installs := rfl
@[simp] theorem Core.setCtx_bptr (c : Core) (x : Fin 11) (t : Ctx) : (c.setCtx x t).bptr = c.bptr := rfl
@[simp] theorem Core.setCtx_mtx (c : Core) (x : Fin 11) (t : Ctx) : (c.setCtx x t).mtx = c.mtx := rfl
@[simp] theorem Core.setCtx_sem (c : Core) (x : Fin 11) (t : Ctx) : (c.setCtx x t).sem = c.sem := rfl
@[simp] theorem Core.setCtx_tags (c : Core) (x : Fin 11) (t : Ctx) : (c.setCtx x t).tags = c.tags := rfl
@[simp] theorem Core.setCtx_locks (c : Core) (x : Fin 11) (t : Ctx) : (c.setCtx x t).locks = c.locks := rfl
@[simp] theorem Core.setCtx_deferred (c : Core) (x : Fin 11) (t : Ctx) : (c.setCtx x t).deferred = c.deferred := rfl
@[simp] theorem Core.setCtx_cqHead (c : Core) (x : Fin 11) (t : Ctx) : (c.setCtx x t).cqHead = c.cqHead := rfl
@[simp] theorem Core.setCtx_cq (c : Core) (x : Fin 11) (t : Ctx) : (c.setCtx x t).cq = c.cq := rfl
@[simp] theorem Core.setCtx_ldfs (c : Core) (x : Fin 11) (t : Ctx) : (c.setCtx x t).ldfs = c.ldfs := rfl
@[simp] theorem Core.setCtx_ubuf (c : Core) (x : Fin 11) (t : Ctx) : (c.setCtx x t).ubuf = c.ubuf := rfl
@[simp] theorem Core.setCtx_slice (c : Core) (x : Fin 11) (t : Ctx) : (c.setCtx x t).slice = c.slice := rfl
@[simp] theorem Core.setCtx_lastAsid (c : Core) (x : Fin 11) (t : Ctx) : (c.setCtx x t).lastAsid = c.lastAsid := rfl
@[simp] theorem Core.setCtx_idle (c : Core) (x : Fin 11) (t : Ctx) : (c.setCtx x t).idle = c.idle := rfl
@[simp] theorem Core.setCtx_sleepAt (c : Core) (x : Fin 11) (t : Ctx) : (c.setCtx x t).sleepAt = c.sleepAt := rfl
@[simp] theorem Core.setCtx_testing (c : Core) (x : Fin 11) (t : Ctx) : (c.setCtx x t).testing = c.testing := rfl
@[simp] theorem Core.setCtx_handling (c : Core) (x : Fin 11) (t : Ctx) : (c.setCtx x t).handling = c.handling := rfl
@[simp] theorem Core.setCtx_mcq (c : Core) (x : Fin 11) (t : Ctx) : (c.setCtx x t).mcq = c.mcq := rfl
@[simp] theorem Core.setCtx_mcDropped (c : Core) (x : Fin 11) (t : Ctx) : (c.setCtx x t).mcDropped = c.mcDropped := rfl
@[simp] theorem Core.setCtx_issued (c : Core) (x : Fin 11) (t : Ctx) : (c.setCtx x t).issued = c.issued := rfl
@[simp] theorem Core.setCtx_l1sets (c : Core) (x : Fin 11) (t : Ctx) : (c.setCtx x t).l1sets = c.l1sets := rfl
@[simp] theorem Core.setCtx_icache (c : Core) (x : Fin 11) (t : Ctx) : (c.setCtx x t).icache = c.icache := rfl
@[simp] theorem Core.setCtx_track (c : Core) (x : Fin 11) (t : Ctx) : (c.setCtx x t).track = c.track := rfl
@[simp] theorem Core.setCtx_away (c : Core) (x : Fin 11) (t : Ctx) : (c.setCtx x t).away = c.away := rfl
@[simp] theorem Core.setCtx_waking (c : Core) (x : Fin 11) (t : Ctx) : (c.setCtx x t).waking = c.waking := rfl

/-- Noting an issue changes only the selector's registers (R254). -/
theorem Core.noteIssue_eq (c : Core) (x : Fin 11) : ∃ g n, c.noteIssue x = { c with last := x.val, greedy := g, run := n } := by
  by_cases hp : bit c.issuepol 0 = true
  · exact ⟨c.greedy, c.run, by simp [Core.noteIssue, hp]⟩
  · by_cases hl : c.greedy = some x.val ∧ c.run < (if fld c.greedylim 0 8 = 0 then 256 else fld c.greedylim 0 8)
    · exact ⟨c.greedy, c.run + 1, by simp only [Core.noteIssue, hp, if_pos hl]; rfl⟩
    · exact ⟨some x.val, 1, by simp only [Core.noteIssue, hp, if_neg hl]; rfl⟩
@[simp] theorem Core.noteIssue_ctxs (c : Core) (x : Fin 11) : (c.noteIssue x).ctxs = c.ctxs := by obtain ⟨_, _, h⟩ := c.noteIssue_eq x; rw [h]
@[simp] theorem Core.noteIssue_issuepol (c : Core) (x : Fin 11) : (c.noteIssue x).issuepol = c.issuepol := by obtain ⟨_, _, h⟩ := c.noteIssue_eq x; rw [h]
@[simp] theorem Core.noteIssue_greedylim (c : Core) (x : Fin 11) : (c.noteIssue x).greedylim = c.greedylim := by obtain ⟨_, _, h⟩ := c.noteIssue_eq x; rw [h]
@[simp] theorem Core.noteIssue_csap (c : Core) (x : Fin 11) : (c.noteIssue x).csap = c.csap := by obtain ⟨_, _, h⟩ := c.noteIssue_eq x; rw [h]
@[simp] theorem Core.noteIssue_deleg (c : Core) (x : Fin 11) : (c.noteIssue x).deleg = c.deleg := by obtain ⟨_, _, h⟩ := c.noteIssue_eq x; rw [h]
@[simp] theorem Core.noteIssue_epoch (c : Core) (x : Fin 11) : (c.noteIssue x).epoch = c.epoch := by obtain ⟨_, _, h⟩ := c.noteIssue_eq x; rw [h]
@[simp] theorem Core.noteIssue_tvec (c : Core) (x : Fin 11) : (c.noteIssue x).tvec = c.tvec := by obtain ⟨_, _, h⟩ := c.noteIssue_eq x; rw [h]
@[simp] theorem Core.noteIssue_units (c : Core) (x : Fin 11) : (c.noteIssue x).units = c.units := by obtain ⟨_, _, h⟩ := c.noteIssue_eq x; rw [h]
@[simp] theorem Core.noteIssue_spad (c : Core) (x : Fin 11) : (c.noteIssue x).spad = c.spad := by obtain ⟨_, _, h⟩ := c.noteIssue_eq x; rw [h]
@[simp] theorem Core.noteIssue_spoison (c : Core) (x : Fin 11) : (c.noteIssue x).spoison = c.spoison := by obtain ⟨_, _, h⟩ := c.noteIssue_eq x; rw [h]
@[simp] theorem Core.noteIssue_l1 (c : Core) (x : Fin 11) : (c.noteIssue x).l1 = c.l1 := by obtain ⟨_, _, h⟩ := c.noteIssue_eq x; rw [h]
@[simp] theorem Core.noteIssue_wins (c : Core) (x : Fin 11) : (c.noteIssue x).wins = c.wins := by obtain ⟨_, _, h⟩ := c.noteIssue_eq x; rw [h]
@[simp] theorem Core.noteIssue_tlb (c : Core) (x : Fin 11) : (c.noteIssue x).tlb = c.tlb := by obtain ⟨_, _, h⟩ := c.noteIssue_eq x; rw [h]
@[simp] theorem Core.noteIssue_qs (c : Core) (x : Fin 11) : (c.noteIssue x).qs = c.qs := by obtain ⟨_, _, h⟩ := c.noteIssue_eq x; rw [h]
@[simp] theorem Core.noteIssue_tbad (c : Core) (x : Fin 11) : (c.noteIssue x).tbad = c.tbad := by obtain ⟨_, _, h⟩ := c.noteIssue_eq x; rw [h]
@[simp] theorem Core.noteIssue_tiles (c : Core) (x : Fin 11) : (c.noteIssue x).tiles = c.tiles := by obtain ⟨_, _, h⟩ := c.noteIssue_eq x; rw [h]
@[simp] theorem Core.noteIssue_cfgv (c : Core) (x : Fin 11) : (c.noteIssue x).cfgv = c.cfgv := by obtain ⟨_, _, h⟩ := c.noteIssue_eq x; rw [h]
@[simp] theorem Core.noteIssue_fmt (c : Core) (x : Fin 11) : (c.noteIssue x).fmt = c.fmt := by obtain ⟨_, _, h⟩ := c.noteIssue_eq x; rw [h]
@[simp] theorem Core.noteIssue_chans (c : Core) (x : Fin 11) : (c.noteIssue x).chans = c.chans := by obtain ⟨_, _, h⟩ := c.noteIssue_eq x; rw [h]
@[simp] theorem Core.noteIssue_installs (c : Core) (x : Fin 11) : (c.noteIssue x).installs = c.installs := by obtain ⟨_, _, h⟩ := c.noteIssue_eq x; rw [h]
@[simp] theorem Core.noteIssue_bptr (c : Core) (x : Fin 11) : (c.noteIssue x).bptr = c.bptr := by obtain ⟨_, _, h⟩ := c.noteIssue_eq x; rw [h]
@[simp] theorem Core.noteIssue_mtx (c : Core) (x : Fin 11) : (c.noteIssue x).mtx = c.mtx := by obtain ⟨_, _, h⟩ := c.noteIssue_eq x; rw [h]
@[simp] theorem Core.noteIssue_sem (c : Core) (x : Fin 11) : (c.noteIssue x).sem = c.sem := by obtain ⟨_, _, h⟩ := c.noteIssue_eq x; rw [h]
@[simp] theorem Core.noteIssue_tags (c : Core) (x : Fin 11) : (c.noteIssue x).tags = c.tags := by obtain ⟨_, _, h⟩ := c.noteIssue_eq x; rw [h]
@[simp] theorem Core.noteIssue_locks (c : Core) (x : Fin 11) : (c.noteIssue x).locks = c.locks := by obtain ⟨_, _, h⟩ := c.noteIssue_eq x; rw [h]
@[simp] theorem Core.noteIssue_deferred (c : Core) (x : Fin 11) : (c.noteIssue x).deferred = c.deferred := by obtain ⟨_, _, h⟩ := c.noteIssue_eq x; rw [h]
@[simp] theorem Core.noteIssue_cqHead (c : Core) (x : Fin 11) : (c.noteIssue x).cqHead = c.cqHead := by obtain ⟨_, _, h⟩ := c.noteIssue_eq x; rw [h]
@[simp] theorem Core.noteIssue_cq (c : Core) (x : Fin 11) : (c.noteIssue x).cq = c.cq := by obtain ⟨_, _, h⟩ := c.noteIssue_eq x; rw [h]
@[simp] theorem Core.noteIssue_ldfs (c : Core) (x : Fin 11) : (c.noteIssue x).ldfs = c.ldfs := by obtain ⟨_, _, h⟩ := c.noteIssue_eq x; rw [h]
@[simp] theorem Core.noteIssue_ubuf (c : Core) (x : Fin 11) : (c.noteIssue x).ubuf = c.ubuf := by obtain ⟨_, _, h⟩ := c.noteIssue_eq x; rw [h]
@[simp] theorem Core.noteIssue_slice (c : Core) (x : Fin 11) : (c.noteIssue x).slice = c.slice := by obtain ⟨_, _, h⟩ := c.noteIssue_eq x; rw [h]
@[simp] theorem Core.noteIssue_lastAsid (c : Core) (x : Fin 11) : (c.noteIssue x).lastAsid = c.lastAsid := by obtain ⟨_, _, h⟩ := c.noteIssue_eq x; rw [h]
@[simp] theorem Core.noteIssue_idle (c : Core) (x : Fin 11) : (c.noteIssue x).idle = c.idle := by obtain ⟨_, _, h⟩ := c.noteIssue_eq x; rw [h]
@[simp] theorem Core.noteIssue_sleepAt (c : Core) (x : Fin 11) : (c.noteIssue x).sleepAt = c.sleepAt := by obtain ⟨_, _, h⟩ := c.noteIssue_eq x; rw [h]
@[simp] theorem Core.noteIssue_testing (c : Core) (x : Fin 11) : (c.noteIssue x).testing = c.testing := by obtain ⟨_, _, h⟩ := c.noteIssue_eq x; rw [h]
@[simp] theorem Core.noteIssue_handling (c : Core) (x : Fin 11) : (c.noteIssue x).handling = c.handling := by obtain ⟨_, _, h⟩ := c.noteIssue_eq x; rw [h]
@[simp] theorem Core.noteIssue_mcq (c : Core) (x : Fin 11) : (c.noteIssue x).mcq = c.mcq := by obtain ⟨_, _, h⟩ := c.noteIssue_eq x; rw [h]
@[simp] theorem Core.noteIssue_mcDropped (c : Core) (x : Fin 11) : (c.noteIssue x).mcDropped = c.mcDropped := by obtain ⟨_, _, h⟩ := c.noteIssue_eq x; rw [h]
@[simp] theorem Core.noteIssue_issued (c : Core) (x : Fin 11) : (c.noteIssue x).issued = c.issued := by obtain ⟨_, _, h⟩ := c.noteIssue_eq x; rw [h]
@[simp] theorem Core.noteIssue_l1sets (c : Core) (x : Fin 11) : (c.noteIssue x).l1sets = c.l1sets := by obtain ⟨_, _, h⟩ := c.noteIssue_eq x; rw [h]
@[simp] theorem Core.noteIssue_icache (c : Core) (x : Fin 11) : (c.noteIssue x).icache = c.icache := by obtain ⟨_, _, h⟩ := c.noteIssue_eq x; rw [h]
@[simp] theorem Core.noteIssue_track (c : Core) (x : Fin 11) : (c.noteIssue x).track = c.track := by obtain ⟨_, _, h⟩ := c.noteIssue_eq x; rw [h]
@[simp] theorem Core.noteIssue_away (c : Core) (x : Fin 11) : (c.noteIssue x).away = c.away := by obtain ⟨_, _, h⟩ := c.noteIssue_eq x; rw [h]
@[simp] theorem Core.noteIssue_waking (c : Core) (x : Fin 11) : (c.noteIssue x).waking = c.waking := by obtain ⟨_, _, h⟩ := c.noteIssue_eq x; rw [h]
@[simp] theorem Core.ctx_noteIssue (c : Core) (x y : Fin 11) : (c.noteIssue x).ctx y = c.ctx y := by simp [Core.ctx]

end Sys2Proof.Machine
end

