-- ==== Sys2Proof/Laws/Memory.lean ====
section
/-!
SUPPORT. The laws of a byte memory: reading what was written, leaving every other byte alone, and keeping the canonical form.
-/

namespace Sys2Proof.Machine

theorem risingFrom_mono {α : Type} {l : List (Nat × α)} {n m : Nat} (h : risingFrom m l = true) (hn : n ≤ m) : risingFrom n l = true := by
  cases l with
  | nil => rfl
  | cons e t => simp only [risingFrom, Bool.and_eq_true, decide_eq_true_eq] at h ⊢; exact ⟨by omega, h.2⟩

theorem risingFrom_sset {α : Type} (l : List (Nat × α)) {n : Nat} (b : Nat) (y : α) (h : risingFrom b l = true) (hb : b ≤ n) :
    risingFrom b (sset l n y) = true := by
  induction l generalizing b with
  | nil => simp [sset, risingFrom, hb]
  | cons e t ih =>
    obtain ⟨k, x⟩ := e
    simp only [risingFrom, Bool.and_eq_true, decide_eq_true_eq] at h
    simp only [sset]
    split
    · simp only [risingFrom, Bool.and_eq_true, decide_eq_true_eq]; exact ⟨hb, by omega, h.2⟩
    · split
      · next hk => subst hk; simp [risingFrom, h.2, hb]
      · simp only [risingFrom, Bool.and_eq_true, decide_eq_true_eq]; exact ⟨h.1, ih (k + 1) h.2 (by omega)⟩

theorem risingFrom_sdel {α : Type} (l : List (Nat × α)) (n b : Nat) (h : risingFrom b l = true) : risingFrom b (sdel l n) = true := by
  induction l generalizing b with
  | nil => rfl
  | cons e t ih =>
    obtain ⟨k, x⟩ := e
    simp only [risingFrom, Bool.and_eq_true, decide_eq_true_eq] at h
    simp only [sdel]
    split
    · exact ih b (risingFrom_mono h.2 (by omega))
    · simp only [risingFrom, Bool.and_eq_true, decide_eq_true_eq]; exact ⟨h.1, ih (k + 1) h.2⟩

theorem all_sset (l : Memory) (n : Nat) (y : Byte) (hy : y ≠ unwritten) (h : l.all (fun c => decide (c.2 ≠ unwritten)) = true) :
    (sset l n y).all (fun c => decide (c.2 ≠ unwritten)) = true := by
  induction l with
  | nil => simp [sset, hy]
  | cons e t ih =>
    obtain ⟨k, x⟩ := e
    simp only [List.all_cons, Bool.and_eq_true] at h
    simp only [sset]
    split
    · simpa [hy] using h
    · split
      · simpa [hy] using h.2
      · simp only [List.all_cons, Bool.and_eq_true]; exact ⟨h.1, ih h.2⟩

theorem all_sdel (l : Memory) (n : Nat) (h : l.all (fun c => decide (c.2 ≠ unwritten)) = true) :
    (sdel l n).all (fun c => decide (c.2 ≠ unwritten)) = true := by
  induction l with
  | nil => rfl
  | cons e t ih =>
    obtain ⟨k, x⟩ := e
    simp only [List.all_cons, Bool.and_eq_true] at h
    simp only [sdel]
    split
    · exact ih h.2
    · simp only [List.all_cons, Bool.and_eq_true]; exact ⟨h.1, ih h.2⟩

/-- A write keeps the canonical form. -/
theorem Memory.wf_write (m : Memory) (a : Nat) (b : Byte) (h : m.wf = true) : (m.write a b).wf = true := by
  simp only [Memory.wf, Bool.and_eq_true] at h
  simp only [Memory.write]
  split
  · simp only [Memory.wf, Bool.and_eq_true]; exact ⟨risingFrom_sdel m a 0 h.1, all_sdel m a h.2⟩
  · next hb => simp only [Memory.wf, Bool.and_eq_true]; exact ⟨risingFrom_sset m 0 b h.1 (Nat.zero_le a), all_sset m a b hb h.2⟩

theorem Memory.wf_writeN (m : Memory) (a n x : Nat) (h : m.wf = true) : (m.writeN a n x).wf = true := by
  induction n generalizing m a x with
  | zero => exact h
  | succ n ih => exact ih (m.write a (BitVec.ofNat 8 x)) (a + 1) (x / 256) (m.wf_write a _ h)

/-- A byte written reads back. -/
@[simp] theorem Memory.read_write (m : Memory) (a : Nat) (b : Byte) : (m.write a b).read a = b := by
  simp only [Memory.write]
  split
  · next hb => simp [Memory.read, sget_sdel_same, hb]
  · simp [Memory.read, sget_sset_same]

/-- A write leaves every other byte. -/
theorem Memory.read_write_ne (m : Memory) {a c : Nat} (b : Byte) (h : a ≠ c) : (m.write a b).read c = m.read c := by
  simp only [Memory.write]
  split
  · simp [Memory.read, sget_sdel_ne _ h]
  · simp [Memory.read, sget_sset_ne _ _ h]

theorem Memory.read_writeN_out (m : Memory) (a n x c : Nat) (h : c < a ∨ a + n ≤ c) : (m.writeN a n x).read c = m.read c := by
  induction n generalizing m a x with
  | zero => rfl
  | succ n ih =>
    simp only [Memory.writeN]
    rw [ih (m.write a (BitVec.ofNat 8 x)) (a + 1) (x / 256) (by omega)]
    exact Memory.read_write_ne m _ (by omega)

/-- The number that n bytes written at an address read back as. -/
theorem Memory.readN_writeN (m : Memory) (a n x : Nat) : (m.writeN a n x).readN a n = x % 256 ^ n := by
  induction n generalizing m a x with
  | zero => simp [Memory.readN, Nat.mod_one]
  | succ n ih =>
    simp only [Memory.readN, Memory.writeN]
    rw [ih, Memory.read_writeN_out _ _ _ _ _ (by omega), Memory.read_write, Nat.pow_succ, Nat.mul_comm (256 ^ n) 256, Nat.mod_mul]
    simp

end Sys2Proof.Machine
end

