-- ==== Sys2Proof/Laws/Canonical.lean ====
section
/-!
SUPPORT. Which operations of the memory side keep memory and every scratchpad in canonical form: one lemma for each operation, so that no later proof unfolds one.
-/

namespace Sys2Proof.Machine

/-! ## Updates of the state -/

/-- Nothing but memory and scratchpads matters. -/
theorem canonical_same {s t : State} (h : Canonical s) (hm : t.mem = s.mem) (hc : t.cores = s.cores) : Canonical t := by
  refine ⟨by rw [hm]; exact h.1, fun k => ?_⟩
  rw [show t.core k = s.core k by simp [State.core, hc]]
  exact h.2 k

theorem canonical_mem {s : State} {m : Memory} (h : Canonical s) (hm : m.wf = true) : Canonical { s with mem := m } := ⟨hm, h.2⟩

theorem canonical_setCore {s : State} {k : Nat} {c : Core} (h : Canonical s) (hc : c.spad.wf = true) : Canonical (s.setCore k c) := by
  refine ⟨h.1, fun j => ?_⟩
  by_cases e : k = j
  · subst e; rw [State.core_setCore]; exact hc
  · rw [State.core_setCore_ne _ _ e]; exact h.2 j

theorem canonical_modCore {s : State} {k : Nat} {f : Core → Core} (h : Canonical s) (hf : ∀ c, c.spad.wf = true → (f c).spad.wf = true) :
    Canonical (s.modCore k f) := canonical_setCore h (hf _ (h.2 k))

theorem canonical_modCtx {s : State} (k : Nat) (x : Fin 11) (f : Ctx → Ctx) (h : Canonical s) : Canonical (s.modCtx k x f) :=
  canonical_setCore h (h.2 k)

theorem canonical_modCluster {s : State} (c : Nat) (f : Cluster → Cluster) (h : Canonical s) : Canonical (s.modCluster c f) := canonical_same h rfl rfl
theorem canonical_modOctet {s : State} (o : Nat) (f : Octet → Octet) (h : Canonical s) : Canonical (s.modOctet o f) := canonical_same h rfl rfl
theorem canonical_modDie {s : State} (d : Nat) (f : Die → Die) (h : Canonical s) : Canonical (s.modDie d f) := canonical_same h rfl rfl
theorem canonical_modIod {s : State} (e : Nat) (f : IoDie → IoDie) (h : Canonical s) : Canonical (s.modIod e f) := canonical_same h rfl rfl
theorem canonical_postIn {s : State} (n : Nat) (e : Ev) (h : Canonical s) : Canonical (s.postIn n e) := canonical_same h rfl rfl
theorem canonical_postMore {s : State} (e : Ev) (h : Canonical s) : Canonical (s.postMore e) := canonical_same h rfl rfl
theorem canonical_post {s : State} (e : Ev) (h : Canonical s) : Canonical (s.post e) := by
  unfold State.post
  split
  · exact h
  · exact canonical_postMore e h

theorem canonical_ite {p : Prop} [Decidable p] {s t : State} (hs : Canonical s) (ht : Canonical t) : Canonical (if p then s else t) := by
  split
  · exact hs
  · exact ht

/-- A fold of steps that keep the form keeps it. -/
theorem canonical_foldl {α : Type} {f : State → α → State} (l : List α) (s : State) (h : Canonical s) (hf : ∀ s a, Canonical s → Canonical (f s a)) :
    Canonical (l.foldl f s) := by
  induction l generalizing s with
  | nil => exact h
  | cons a t ih => exact ih _ (hf s a h)

theorem wf_foldl {α : Type} {f : Memory → α → Memory} (l : List α) (m : Memory) (h : m.wf = true) (hf : ∀ m a, m.wf = true → (f m a).wf = true) :
    (l.foldl f m).wf = true := by
  induction l generalizing m with
  | nil => exact h
  | cons a t ih => exact ih _ (hf m a h)

/-! ## Memories -/

theorem risingFrom_filter {α : Type} (p : Nat × α → Bool) (l : List (Nat × α)) (b : Nat) (h : risingFrom b l = true) : risingFrom b (l.filter p) = true := by
  induction l generalizing b with
  | nil => rfl
  | cons e t ih =>
    obtain ⟨k, x⟩ := e
    simp only [risingFrom, Bool.and_eq_true, decide_eq_true_eq] at h
    rw [List.filter_cons]
    split
    · simp only [risingFrom, Bool.and_eq_true, decide_eq_true_eq]; exact ⟨h.1, ih (k + 1) h.2⟩
    · exact ih b (risingFrom_mono h.2 (by omega))

theorem Memory.wf_filter (m : Memory) (p : Host.Cell → Bool) (h : m.wf = true) : Memory.wf (m.filter p) = true := by
  simp only [Memory.wf, Bool.and_eq_true] at h ⊢
  refine ⟨risingFrom_filter p m 0 h.1, ?_⟩
  rw [List.all_eq_true] at h ⊢
  exact fun x hx => h.2 x (List.mem_of_mem_filter hx)

theorem Memory.wf_writeFields (m : Memory) (b : Nat) (fs : List (Nat × Nat × Nat)) (h : m.wf = true) : (m.writeFields b fs).wf = true :=
  wf_foldl _ _ h fun m _ hm => m.wf_writeN _ _ _ hm

theorem Core.wf_plainWindow (c : Core) (w : Window) (h : c.spad.wf = true) : (c.plainWindow w).wf = true :=
  wf_foldl _ _ (Memory.wf_filter _ _ h) fun m _ hm => m.wf_writeN _ _ _ hm

theorem wf_lostSpad (seed : Nat) : (lostSpad seed).wf = true := wf_foldl _ _ rfl fun m _ hm => m.wf_write _ _ hm

/-! ## Copies -/

theorem canonical_mapCopies {s : State} (k : Nat) (f : Copy → Option Copy) (h : Canonical s) : Canonical (s.modCore k (Core.mapCopies f)) :=
  canonical_modCore h fun _ hc => hc

theorem canonical_setWord {s : State} (w x : Nat) (h : Canonical s) : Canonical (s.setWord w x) :=
  ⟨Memory.wf_writeN _ _ _ _ h.1, h.2⟩

theorem canonical_dirShared {s : State} (w : Nat) (h : Canonical s) : Canonical (s.dirShared w) := by
  unfold State.dirShared
  split
  · exact h
  · exact canonical_same h rfl rfl

theorem canonical_dirOwn {s : State} (w k : Nat) (h : Canonical s) : Canonical (s.dirOwn w k) := canonical_same h rfl rfl
theorem canonical_dirFree {s : State} (w : Nat) (h : Canonical s) : Canonical (s.dirFree w) := canonical_same h rfl rfl
theorem canonical_dirClean {s : State} (w k : Nat) (h : Canonical s) : Canonical (s.dirClean w k) := canonical_ite (canonical_same h rfl rfl) h
theorem canonical_dirLose {s : State} (w k : Nat) (h : Canonical s) : Canonical (s.dirLose w k) := canonical_ite (canonical_dirFree _ h) h
theorem canonical_shroudLose {s : State} (k w : Nat) (h : Canonical s) : Canonical (s.shroudLose k w) := canonical_ite (canonical_modDie _ _ h) h

theorem canonical_markPoison {s : State} (w n : Nat) (h : Canonical s) : Canonical (s.markPoison w n) := by
  induction n generalizing s w with
  | zero => exact h
  | succ n ih => exact ih _ (canonical_same h rfl rfl)

theorem canonical_putBack {s : State} (k : Nat) (y : Copy) (h : Canonical s) : Canonical (s.putBack k y) := by
  unfold State.putBack
  split
  · exact canonical_dirClean _ _ (canonical_markPoison _ _ h)
  · exact canonical_dirClean _ _ (canonical_setWord _ _ h)

theorem canonical_backOnly {s : State} (k : Nat) (p : Copy → Bool) (h : Canonical s) : Canonical (s.backOnly k p) := by
  unfold State.backOnly
  simp only
  split
  · exact h
  · exact canonical_mapCopies _ _ (canonical_foldl _ _ h fun _ _ h => canonical_putBack _ _ h)

theorem canonical_siFlushOf {s : State} (ks : List Nat) (h : Canonical s) : Canonical (s.siFlushOf ks) := by
  refine canonical_foldl _ _ h fun s j h => ?_
  have hb := canonical_backOnly j (·.attr == .si) h
  simp only
  split
  · exact hb
  · exact canonical_modCore hb fun _ hc => hc

theorem canonical_siFlush {s : State} (k : Nat) (h : Canonical s) : Canonical (s.siFlush k) := canonical_siFlushOf _ h

theorem canonical_writeBack {s : State} (k : Nat) (p : Copy → Bool) (h : Canonical s) : Canonical (s.writeBack k p) := by
  unfold State.writeBack
  split
  · exact canonical_backOnly _ _ (canonical_siFlush _ h)
  · exact canonical_backOnly _ _ h

theorem canonical_loseCopies {s : State} (k : Nat) (p : Copy → Bool) (h : Canonical s) : Canonical (s.loseCopies k p) :=
  canonical_ite h (canonical_foldl _ _ (canonical_mapCopies _ _ h) fun _ _ h => canonical_shroudLose _ _ (canonical_dirLose _ _ h))

theorem canonical_dropCopies {s : State} (k : Nat) (p : Copy → Bool) (h : Canonical s) : Canonical (s.dropCopies k p) :=
  canonical_loseCopies _ _ (canonical_writeBack _ _ h)

theorem canonical_snoopLost {s : State} (k w : Nat) (h : Canonical s) : Canonical (s.snoopLost k w) := by
  have hl := canonical_dirLose w k (canonical_markPoison w 1 h)
  unfold State.snoopLost
  simp only
  split
  · exact hl
  · exact canonical_post _ hl

theorem canonical_recall {s : State} (but : Option Nat) (w : Nat) (h : Canonical s) : Canonical (s.recall but w) := by
  unfold State.recall
  split
  · split
    · exact h
    · split
      · exact canonical_snoopLost _ _ h
      · exact canonical_writeBack _ _ h
  · exact h

theorem canonical_broadcast {s : State} (w : Nat) (h : Canonical s) : Canonical (s.broadcast w) := by
  unfold State.broadcast
  simp only
  split
  · exact h
  · refine canonical_foldl _ _ h fun s d h => ?_
    split
    · exact h
    · exact canonical_post _ (canonical_markPoison _ _ h)

theorem canonical_invalidate {s : State} (but : Option Nat) (discard : Bool) (w : Nat) (h : Canonical s) : Canonical (s.invalidate but discard w) := by
  unfold State.invalidate
  refine canonical_foldl _ _ (canonical_broadcast w h) fun s e h => ?_
  split
  · exact h
  · split
    · exact canonical_snoopLost _ _ h
    · split
      · exact canonical_loseCopies _ _ h
      · exact canonical_dropCopies _ _ h

theorem canonical_distrust {s : State} (d : Nat) (h : Canonical s) : Canonical (s.distrust d) := by
  unfold State.distrust
  refine canonical_foldl _ _ h fun s e h => ?_
  split
  · exact h
  · exact canonical_loseCopies _ _ (canonical_foldl _ _ h fun _ _ h => canonical_markPoison _ _ h)

theorem canonical_shroudEvict {s : State} (d line : Nat) (h : Canonical s) : Canonical (s.shroudEvict d line) :=
  canonical_modDie _ _ (canonical_foldl _ _ h fun _ _ h => canonical_ite (canonical_dropCopies _ _ h) h)

theorem canonical_shroudAdd {s : State} (k w : Nat) (h : Canonical s) : Canonical (s.shroudAdd k w) := by
  refine canonical_ite h (canonical_modDie _ _ (canonical_ite h (canonical_ite h ?_)))
  split
  · exact canonical_shroudEvict _ _ h
  · exact h

theorem canonical_flushAway {s : State} (k : Nat) (h : Canonical s) : Canonical (s.flushAway k) := by
  unfold State.flushAway
  split
  · exact h
  · exact canonical_siFlushOf _ (canonical_modCore h fun _ hc => hc)

theorem canonical_epochStep {s : State} (k : Nat) (h : Canonical s) : Canonical (s.epochStep k) := by
  have h1 : Canonical (s.modCore k fun c => { c with epoch := w64 (((s.core k).ep + 1) % 65536) }) := canonical_modCore h fun _ hc => hc
  exact canonical_ite (canonical_loseCopies _ _ h1) h1

/-! ## Bin pages -/

theorem canonical_binAdd {s : State} (page off v time core lane : Nat) (h : Canonical s) : Canonical (s.binAdd page off v time core lane) := by
  unfold State.binAdd
  split
  · exact h
  · exact canonical_same h rfl rfl

theorem canonical_makePending {s : State} (page region : Nat) (h : Canonical s) : Canonical (s.makePending page region) := by
  unfold State.makePending
  split
  · exact h
  · exact canonical_same (canonical_foldl s.cores s h fun s e h => canonical_ite (canonical_dropCopies e.1 _ h) h) rfl rfl

theorem canonical_recallPartials {s : State} (page : Nat) (h : Canonical s) : Canonical (s.recallPartials page) := by
  have h1 := canonical_foldl (f := fun s (p : Pair) => s.binAdd page (p.pa % 4096) p.x.toNat 0 0 0)
    (s.flight.filter fun p => p.part && pageOf p.pa == page) s h fun s p h => canonical_binAdd _ _ _ _ _ _ h
  unfold State.recallPartials
  simp only
  generalize (s.flight.filter fun p => p.part && pageOf p.pa == page).foldl _ s = t at h1
  refine canonical_foldl _ _ (canonical_same h1 rfl rfl) fun s e h => ?_
  split
  · exact canonical_modCore (canonical_foldl _ _ h fun s y h => canonical_binAdd _ _ _ _ _ _ h) fun _ hc => hc
  · exact h

theorem canonical_unpoison {s : State} (pa n : Nat) (h : Canonical s) : Canonical (s.unpoison pa n) := canonical_same h rfl rfl

theorem canonical_applyAs {s : State} (last : Bool) (page : Nat) (h : Canonical s) : Canonical (s.applyAs last page) := by
  have hr := canonical_recallPartials page h
  unfold State.applyAs
  split
  · exact h
  · simp only
    generalize s.recallPartials page = s at hr
    split
    · exact hr
    · split
      · exact hr
      · have key : ∀ (b : Prop) [Decidable b] (d : Prop) [Decidable d] (l : List (Nat × BinEnt)) (n : Nat) (e : Ev) (t : State), Canonical t →
            Canonical (if b then ((if d then l.foldl (fun s oe => s.unpoison (page + oe.1) n) t else t).markPoison (page / 4) 1024).post e
              else if d then l.foldl (fun s oe => s.unpoison (page + oe.1) n) t else t) := by
          intro b _ d _ l n e t ht
          have hu : Canonical (if d then l.foldl (fun s oe => s.unpoison (page + oe.1) n) t else t) :=
            canonical_ite (canonical_foldl _ _ ht fun s _ h => canonical_unpoison _ _ h) ht
          exact canonical_ite (canonical_post _ (canonical_markPoison _ _ hu)) hu
        exact key _ _ _ _ _ _ ⟨wf_foldl _ _ hr.1 fun m _ hm => m.wf_writeN _ _ _ hm, hr.2⟩

theorem canonical_applyPage {s : State} (page : Nat) (h : Canonical s) : Canonical (s.applyPage page) := canonical_applyAs _ _ h

theorem canonical_l2Use {s : State} (pa : Nat) (h : Canonical s) : Canonical (s.l2Use pa) := canonical_ite (canonical_modDie _ _ h) h

theorem canonical_touch {s : State} (pa : Nat) (h : Canonical s) : Canonical (s.touch pa) := canonical_l2Use _ (canonical_applyPage _ h)

theorem canonical_touchAll {s : State} (pa n : Nat) (h : Canonical s) : Canonical (s.touchAll pa n) :=
  canonical_foldl _ _ h fun _ _ h => canonical_touch _ h

/-! ## Homes -/

theorem canonical_homeRecall {s : State} (w n : Nat) (h : Canonical s) : Canonical (s.homeRecall w n) := by
  induction n generalizing s w with
  | zero => exact h
  | succ n ih => exact ih _ (canonical_recall _ _ h)

theorem canonical_homeInvalidate {s : State} (but : Option Nat) (pa m w n : Nat) (h : Canonical s) : Canonical (s.homeInvalidate but pa m w n) := by
  induction n generalizing s w with
  | zero => exact h
  | succ n ih =>
    have hi := canonical_invalidate but (wholeWord pa m w) w h
    exact ih _ (canonical_ite (canonical_dirFree _ hi) hi)

theorem canonical_homeRead {s : State} (pa n : Nat) (h : Canonical s) : Canonical (s.homeRead pa n).2 := canonical_homeRecall _ _ (canonical_touchAll _ _ h)

theorem canonical_homeWrite {s : State} (pa n x : Nat) (h : Canonical s) : Canonical (s.homeWrite pa n x) := by
  have := canonical_homeInvalidate none pa n (pa / 4) (spanWords pa n) (canonical_touchAll pa n h)
  unfold State.homeWrite
  simp only
  split
  · exact this
  · exact canonical_unpoison _ _ (canonical_mem this (Memory.wf_writeN _ _ _ _ this.1))

theorem canonical_dropAt {s : State} (k pa n : Nat) (h : Canonical s) : Canonical (s.dropAt k pa n) := canonical_ite (canonical_dropCopies _ _ h) h

theorem canonical_syncRead {s : State} (k : Nat) (ps : List Place) (pa n : Nat) (h : Canonical s) : Canonical (s.syncRead k ps pa n).2 :=
  canonical_homeInvalidate _ _ _ _ _ (canonical_foldl _ _ (canonical_touchAll _ _ h) fun _ _ h => canonical_dropAt _ _ _ h)

theorem canonical_clearFuture {s : State} (pa : Nat) (h : Canonical s) : Canonical (s.clearFuture pa) := by
  have := canonical_homeInvalidate none pa 0 (pa / 4) 2 (canonical_touch pa h)
  exact canonical_ite this (canonical_same this rfl rfl)

/-! ## What leaves an L1 -/

theorem canonical_sendPair {s : State} (p : Pair) (h : Canonical s) : Canonical (s.sendPair p) := canonical_same h rfl rfl

theorem canonical_sendPartial {s : State} (k : Nat) (y : Copy) (h : Canonical s) : Canonical (s.sendPartial k y) := by
  unfold State.sendPartial
  split
  · exact h
  · exact canonical_sendPair _ (canonical_modCore h fun _ hc => hc)

theorem canonical_leaveL1 {s : State} (k : Nat) (p : Nat → Bool) (h : Canonical s) : Canonical (s.leaveL1 k p) :=
  canonical_dropCopies _ _ (canonical_foldl _ _ h fun _ _ h => canonical_sendPartial _ _ h)

theorem canonical_l1Use {s : State} (k line : Nat) (h : Canonical s) : Canonical (s.l1Use k line) := by
  refine canonical_modCore ?_ fun _ hc => hc
  split
  · exact canonical_ite h (canonical_leaveL1 _ _ h)
  · exact h

/-! ## Translation -/

/-- The entries of a group that a walk reads. -/
theorem canonical_group (table idx : Nat) (l : List Nat) (acc : List Nat × State) (h : Canonical acc.2) :
    Canonical (l.foldl (fun (acc : List Nat × State) i =>
      ((acc.1 ++ [(acc.2.homeRead (table + 8 * (idx / 16 * 16 + i)) 8).1], (acc.2.homeRead (table + 8 * (idx / 16 * 16 + i)) 8).2) : List Nat × State)) acc).2 := by
  induction l generalizing acc with
  | nil => exact h
  | cons i t ih => exact ih _ (canonical_homeRead _ _ h)

theorem canonical_walk (asid va left table : Nat) {s : State} (h : Canonical s) : Canonical (State.walk asid va left table s).2 := by
  induction left generalizing s table with
  | zero => exact h
  | succ n ih =>
    have hr := canonical_homeRead (table + 8 * bits va (48 - 9 * (4 - n)) 9) 8 h
    unfold State.walk
    simp only
    split
    · exact h
    split
    · exact hr
    split
    · exact hr
    split
    · split
      · exact hr
      · exact ih _ hr
    · split
      · exact canonical_group _ _ _ _ hr
      · exact hr

theorem canonical_root {s : State} (cl asid : Nat) (h : Canonical s) : Canonical (s.root cl asid).2 := by
  have hr := canonical_homeRead (fld s.asidtbase 15 37 * 32768 + 8 * asid) 8 h
  unfold State.root
  split
  · exact h
  · simp only
    split
    · exact hr
    · exact canonical_modCluster _ _ hr

theorem canonical_pageWalk {s : State} (cl asid va : Nat) (h : Canonical s) : Canonical (s.pageWalk cl asid va).2 := by
  have hr := canonical_root cl asid h
  unfold State.pageWalk
  split
  · next e => rw [e] at hr; exact hr
  · next r u e =>
    rw [e] at hr
    have hw := canonical_walk asid va 4 r hr
    split
    · next e => rw [e] at hw; exact hw
    · next e => rw [e] at hw; exact hw

theorem canonical_coreFill {s : State} (k : Nat) (t : Tlb) (h : Canonical s) : Canonical (s.coreFill k t) := canonical_modCore h fun _ hc => hc

theorem canonical_translate {s : State} (k asid va : Nat) (h : Canonical s) : Canonical (s.translate k asid va).2 := by
  have hp := canonical_pageWalk (clusterOf k) asid va h
  unfold State.translate
  split
  · exact h
  · split
    · exact canonical_coreFill _ _ h
    · split
      · next e => rw [e] at hp; exact hp
      · next e => rw [e] at hp; exact canonical_coreFill _ _ (canonical_modCluster _ _ hp)

/-! ## Loads and stores -/

theorem canonical_request {s : State} (k line : Nat) (mask : BitVec 16) (n : Nat) (h : Canonical s) : Canonical (s.request k line mask n) :=
  canonical_modCore h fun _ hc => hc

theorem canonical_onlyHere {s : State} (k w : Nat) (h : Canonical s) : Canonical (s.onlyHere k w) := by
  unfold State.onlyHere
  split
  · exact canonical_dropCopies _ _ h
  · exact h

theorem canonical_requestAll {s : State} (ns : List (Nat × Nat × Bool)) (h : Canonical s) : Canonical (s.requestAll ns) :=
  canonical_foldl _ _ h fun _ _ h => canonical_request _ _ _ _ h

theorem canonical_fillWord {s : State} (k w : Nat) (attr : Attr) (h : Canonical s) : Canonical (s.fillWord k w attr).2 := by
  have hr := canonical_ite (p := attr = .dir) (canonical_recall (some k) w h) h
  unfold State.fillWord
  generalize (if attr = .dir then s.recall (some k) w else s) = s at hr
  simp only
  split
  · exact hr
  · exact canonical_dirShared _ (canonical_shroudAdd _ _ hr)

theorem spad_putWin (c : Core) (wi i : Nat) (o : Option Copy) : (c.putWin wi i o).spad = c.spad := by
  unfold Core.putWin
  split <;> rfl

theorem spad_cleanWin (c : Core) (wi i : Nat) : (c.cleanWin wi i).spad = c.spad := rfl

theorem canonical_fillL1 {s : State} (k line : Nat) (attr : Attr) (h : Canonical s) : Canonical (s.fillL1 k line attr) := by
  refine canonical_foldl _ _ (canonical_request _ _ _ _ (canonical_l1Use _ _ (canonical_touch _ h))) fun s i h => ?_
  have hf := canonical_fillWord k (16 * line + i) attr (canonical_onlyHere k (16 * line + i) h)
  simp only
  split
  · next e => rw [e] at hf; exact canonical_modCore hf fun _ hc => hc
  · next e => rw [e] at hf; exact canonical_modCore hf fun _ hc => hc

theorem canonical_fillWin {s : State} (j wi off pa : Nat) (attr : Attr) (h : Canonical s) : Canonical (s.fillWin j wi off pa attr) := by
  unfold State.fillWin
  simp only
  refine canonical_foldl _ _ (canonical_request _ _ _ _ (canonical_touch _ h)) fun s i h => ?_
  exact canonical_modCore (canonical_fillWord _ _ _ (canonical_onlyHere _ _ h)) fun c hc => by rw [spad_cleanWin, spad_putWin]; exact hc

theorem canonical_noteAway {s : State} (k j w : Nat) (attr : Attr) (h : Canonical s) : Canonical (s.noteAway k j w attr) :=
  canonical_ite (canonical_modCore h fun _ hc => hc) h

theorem canonical_loadByte {s : State} (k : Nat) (p : Place) (h : Canonical s) : Canonical (s.loadByte k p).2 := by
  cases p with
  | spad j off => exact h
  | phys pa attr =>
    cases attr with
    | uc => exact canonical_homeRead pa 1 h
    | dir | si =>
      simp only [State.loadByte]
      split
      · exact canonical_l1Use _ _ h
      · exact canonical_fillL1 _ _ _ h
  | win j wi off pa attr =>
    simp only [State.loadByte]
    split
    · exact canonical_ite (canonical_noteAway _ _ _ _ h) h
    · exact canonical_fillWin _ _ _ _ _ h

theorem canonical_loadPlaces {s : State} (k : Nat) (ps : List Place) (h : Canonical s) : Canonical (s.loadPlaces k ps).2 := by
  induction ps generalizing s with
  | nil => exact h
  | cons p t ih => exact ih (canonical_loadByte k p h)

theorem canonical_ownWord {s : State} (j w : Nat) (attr : Attr) (whole : Bool) (o : Option Copy) (h : Canonical s) :
    Canonical (s.ownWord j w attr whole o).2 := by
  have ht := canonical_touch (4 * w) h
  have hi := canonical_invalidate (some j) whole w ht
  unfold State.ownWord
  split
  · split
    · exact canonical_dirOwn _ _ hi
    · exact h
  · split
    · simp only
      split
      · exact canonical_dirFree _ hi
      · exact canonical_dirOwn _ _ (canonical_shroudAdd _ _ hi)
    · split
      · exact h
      · simp only
        split
        · exact ht
        · exact canonical_dirShared _ (canonical_shroudAdd _ _ ht)

theorem canonical_prepStore {s : State} (k : Nat) (whole : Bool) (p : Place) (h : Canonical s) : Canonical (s.prepStore k whole p) := by
  have hf := canonical_siFlush k h
  cases p with
  | spad j off => exact canonical_ite h hf
  | phys pa attr =>
    by_cases hu : attr = .uc
    · subst hu; exact canonical_touch _ hf
    · have h0 := canonical_ite (p := attr = .dir) hf h
      rw [State.prepStore.eq_3 s k whole pa attr hu]
      simp only
      generalize (if attr = .dir then s.siFlush k else s) = s at h0
      have ho := canonical_l1Use k (pa / 64) (canonical_ite (p := (sget (s.core k).l1 (pa / 4)).any (Copy.valid (s.core k).ep) = true) h0 (canonical_onlyHere k (pa / 4) h0))
      generalize State.l1Use _ k (pa / 64) = s at ho
      have hw := canonical_ownWord k (pa / 4) attr whole (sget (s.core k).l1 (pa / 4)) ho
      generalize s.ownWord k (pa / 4) attr whole (sget (s.core k).l1 (pa / 4)) = r at hw
      exact canonical_modCore (s := r.2) hw fun _ hc => hc
  | win j wi off pa attr =>
    have h0 := canonical_ite (p := attr = .dir ∨ j ≠ k) hf h
    simp only [State.prepStore]
    generalize (if attr = .dir ∨ j ≠ k then s.siFlush k else s) = s at h0
    have ho := canonical_ite (p := ((s.core j).winCopy wi off).any (Copy.valid (s.core j).ep) = true) h0 (canonical_onlyHere j (pa / 4) h0)
    generalize (if ((s.core j).winCopy wi off).any (Copy.valid (s.core j).ep) = true then s else s.onlyHere j (pa / 4)) = s at ho
    have hw := canonical_ownWord j (pa / 4) attr whole ((s.core j).winCopy wi off) ho
    generalize s.ownWord j (pa / 4) attr whole ((s.core j).winCopy wi off) = r at hw
    have hp := canonical_modCore (k := j) (f := fun c => c.putWin wi (off / 4) r.1) hw fun c hc => by rw [spad_putWin]; exact hc
    exact canonical_ite hp (canonical_noteAway _ _ _ _ hp)

theorem canonical_prepPlaces {s : State} (k : Nat) (first : Bool) (ps : List Place) (h : Canonical s) : Canonical (s.prepPlaces k first ps) := by
  induction ps generalizing s first with
  | nil => exact h
  | cons p t ih => exact ih _ (canonical_ite (canonical_prepStore _ _ _ h) h)

theorem canonical_homeByte {s : State} (k pa b : Nat) (h : Canonical s) : Canonical (s.homeByte k pa b) := by
  unfold State.homeByte
  split
  · exact h
  · exact canonical_mem h (Memory.wf_write _ _ _ h.1)

theorem canonical_storeByte {s : State} (k b : Nat) (p : Place) (h : Canonical s) : Canonical (s.storeByte k b p) := by
  cases p with
  | spad j off => exact canonical_modCore h fun c hc => Memory.wf_write _ _ _ hc
  | phys pa attr =>
    cases attr with
    | uc => exact canonical_homeByte _ _ _ h
    | dir | si =>
      simp only [State.storeByte]
      split
      · exact canonical_modCore h fun _ hc => hc
      · exact canonical_homeByte _ _ _ h
  | win j wi off pa attr =>
    simp only [State.storeByte]
    split
    · exact canonical_modCore h fun c hc => by rw [spad_putWin]; exact hc
    · exact canonical_homeByte _ _ _ h

theorem canonical_writePlaces {s : State} (k : Nat) (ps : List Place) (x : Nat) (h : Canonical s) : Canonical (s.writePlaces k ps x) := by
  induction ps generalizing s x with
  | nil => exact h
  | cons p t ih => exact ih _ (canonical_storeByte _ _ _ h)

theorem canonical_storePlaces {s : State} (k : Nat) (ps : List Place) (x : Nat) (h : Canonical s) : Canonical (s.storePlaces k ps x) :=
  canonical_writePlaces _ _ _ (canonical_prepPlaces _ _ _ (canonical_requestAll _ h))

theorem canonical_clearStored {s : State} (k : Nat) (ps : List Place) (h : Canonical s) : Canonical (s.clearStored k ps) := by
  induction ps generalizing s with
  | nil => exact h
  | cons p t ih =>
    refine ih ?_
    cases p with
    | spad j off => exact canonical_ite (canonical_modCore h fun _ hc => hc) h
    | win j wi off pa attr => exact canonical_ite (canonical_modCore (canonical_same h rfl rfl) fun _ hc => hc) h
    | phys pa attr => exact canonical_ite (canonical_same h rfl rfl) h

theorem canonical_patchStreams {s : State} (k : Nat) (ls : List Loc) (x : Nat) (h : Canonical s) : Canonical (s.patchStreams k ls x) :=
  canonical_ite (canonical_modCore h fun _ hc => hc) h

theorem canonical_refillIn {s : State} (n k : Nat) (x : Fin 11) (i : Fin 8) (h : Canonical s) : Canonical (s.refillIn n k x i) := by
  unfold State.refillIn
  simp only
  split
  · exact h
  · exact canonical_postIn _ _ h

theorem canonical_cutStreams {s : State} (k : Nat) (hit : Loc → Bool) (h : Canonical s) : Canonical (s.cutStreams k hit) :=
  canonical_ite (canonical_foldl _ _ h fun _ _ h => canonical_foldl _ _ h fun _ _ h => canonical_ite h (canonical_refillIn _ _ _ _ (canonical_modCtx _ _ _ h))) h

theorem canonical_acquire {s : State} (k : Nat) (x : Fin 11) (wide : Bool) (h : Canonical s) : Canonical (s.acquire k x wide) := by
  have he : Canonical (if wide then s.epochStep k else s) := canonical_ite (canonical_epochStep _ h) h
  exact canonical_ite (canonical_foldl _ _ (canonical_modCtx _ _ _ he) fun s i h => canonical_ite (canonical_refillIn _ _ _ _ h) h) he

/-! ## Futures -/

theorem wf_fillImage (c : Core) (x : Nat) (r : GReg) (y : Word) (old : Bool) (h : c.spad.wf = true) : (c.fillImage x r y old).spad.wf = true := by
  unfold Core.fillImage
  simp only
  split
  · exact h
  · split
    · exact Memory.wf_writeN _ _ _ _ h
    · exact Memory.wf_writeN _ _ _ _ (Memory.wf_writeN _ _ _ _ h)

theorem canonical_answerOne {s : State} (k : Nat) (x : Word) (l : Ldf) (h : Canonical s) : Canonical (s.answerOne k x l) := by
  have h1 : Canonical (s.modCore k fun c => { c with ldfs := c.ldfs.erase l }) := canonical_modCore h fun _ hc => hc
  unfold State.answerOne
  simp only
  split
  · split
    · exact canonical_modCtx _ _ _ h1
    · exact canonical_acquire _ _ _ (canonical_modCtx _ _ _ (canonical_modCore h1 fun c hc => wf_fillImage _ _ _ _ _ (wf_fillImage _ _ _ _ _ hc)))
  · exact canonical_postMore _ (canonical_modCtx _ _ _ h1)

theorem canonical_fillFuture {s : State} (pa : Nat) (x : Word) (h : Canonical s) : Canonical (s.fillFuture pa x) := by
  exact canonical_foldl _ _ (canonical_same (canonical_homeWrite pa 8 x.toNat h) rfl rfl) fun _ _ h => canonical_answerOne _ _ _ h

end Sys2Proof.Machine
end

