-- ==== Sys2Proof/Laws/Encode.lean ====
section
/-!
SUPPORT. Packing fields into a head and a tail and reading them back, format by format.
-/

namespace Sys2Proof

/-- The bounds of the fields of a format (R104). -/
def Raw.Fits (fm : Fmt) (r : Raw) : Prop :=
  r.d < 64 ∧ r.ta < 2 ∧ r.a < 64 ∧ r.tb < 2 ∧ r.b < 64 ∧ r.tc < 2 ∧ r.c < 64 ∧ r.te < 2 ∧ r.e < 64 ∧
  match fm with
  | .H => True
  | .R => r.f < 4
  | .I => r.f < 32 ∧ r.imm < 2 ^ 20
  | .X => r.f < 2 ^ 11
  | .B => r.imm < 2 ^ 18
  | .L => r.f < 512 ∧ r.imm < 2 ^ 32
  | .Y => r.f < 2 ^ 20

/-- The fields that a format has; the others are 0 (R104). -/
def Raw.only (fm : Fmt) (r : Raw) : Raw :=
  match fm with
  | .H => { d := r.d }
  | .R => { d := r.d, ta := r.ta, a := r.a, tb := r.tb, b := r.b, f := r.f }
  | .I => { d := r.d, ta := r.ta, a := r.a, f := r.f, imm := r.imm }
  | .X => { d := r.d, ta := r.ta, a := r.a, tb := r.tb, b := r.b, tc := r.tc, c := r.c, f := r.f }
  | .B => { d := r.d, ta := r.ta, a := r.a, tb := r.tb, b := r.b, imm := r.imm }
  | .L => { d := r.d, ta := r.ta, a := r.a, f := r.f, imm := r.imm }
  | .Y => { d := r.d, ta := r.ta, a := r.a, tb := r.tb, b := r.b, tc := r.tc, c := r.c, te := r.te, e := r.e, f := r.f }

theorem unpack_packTail (fm : Fmt) (r : Raw) (h : r.Fits fm) : unpack fm r.d (packTail fm r) = r.only fm := by
  obtain ⟨h1, h2, h3, h4, h5, h6, h7, h8, h9, h10⟩ := h
  cases fm <;> simp only [unpack, packTail, Raw.only, bits, Raw.mk.injEq, true_and, and_true] at h10 ⊢ <;> omega

theorem decode_pack (op : Nat) (fm : Fmt) (r : Raw) (hop : op < 128) (hfm : opFmt op = some fm) (h : r.Fits fm) :
    decode (packHead fm false op r.d) (packTail fm r) = decOp op (r.only fm) := by
  have hd : r.d < 64 := h.1
  have e1 : bits (packHead fm false op r.d) 6 7 = op := by cases fm <;> simp [bits, packHead, Fmt.tl] <;> omega
  have e2 : bits (packHead fm false op r.d) 14 2 = fm.tl := by cases fm <;> simp [bits, packHead, Fmt.tl] <;> omega
  have e3 : bits (packHead fm false op r.d) 0 6 = r.d := by cases fm <;> simp [bits, packHead, Fmt.tl] <;> omega
  simp only [decode, e1, hfm, e2, e3, if_true, unpack_packTail fm r h]

theorem toNat_bool_lt (b : Bool) : b.toNat < 2 := by cases b <;> decide

end Sys2Proof
end

