-- ==== Sys2Proof/Laws/EncodeFields.lean ====
section
/-!
SUPPORT. Each field of an encoding read back from its code, for the round trips of PerInstr.
-/

namespace Sys2Proof

theorem bits_zero (lo w : Nat) : bits 0 lo w = 0 := by simp [bits]
theorem gR_val (r : GReg) : gR r.val = r := by simp [gR]
theorem vR_val (r : VReg) : vR r.val = r := by simp [vR]
theorem zR_val (r : ZReg) : zR r.val = r := by simp [zR]
theorem bR_val (r : BReg) : bR r.val = r := by simp [bR]
theorem pR_val (r : PReg) : pR r.val = r := by simp [pR]
theorem sR_val (r : SOpd) : sR (r.val + 32) = r := by simp [sR]
theorem sR_val' (r : SOpd) : sR (32 + r.val) = r := by simp [sR]
theorem mR_code (m : MOpd) : mR m.code = m := by
  cases m with
  | m i => simp [mR, MOpd.code, i.isLt]
  | p i => simp [mR, MOpd.code]; omega
theorem bool_beq (b : Bool) : (b.toNat == 1) = b := by cases b <;> rfl
theorem gS_eq (a : GSrc) : gS a.r.val a.t.toNat = a := by cases a; simp [gS, gR, bool_beq]
theorem vS_eq (a : VSrc) : vS a.r.val a.t.toNat = a := by cases a; simp [vS, vR, bool_beq]
theorem zS_eq (a : ZSrc) : zS a.r.val a.t.toNat = a := by cases a; simp [zS, zR, bool_beq]
theorem oP_eq (p : Option PReg) : oP (oPen p) (oPn p) = p := by cases p <;> simp [oP, oPen, oPn, pR]
theorem pen_or (p : Option PReg) : (oPen p == 1 || oPn p == 0) = true := by cases p <;> simp [oPen, oPn]
theorem oPen_lt (p : Option PReg) : oPen p < 2 := by cases p <;> simp [oPen]
theorem oPn_lt (p : Option PReg) : oPn p < 8 := by cases p <;> simp [oPn]
theorem okV_val (r : VReg) : okV r.val = true := by simp [okV]
theorem okV_src (a : VSrc) : okV a.r.val = true := by simp [okV]
theorem okZ_val (r : ZReg) : okZ r.val = true := by simp [okZ]
theorem okZ_src (a : ZSrc) : okZ a.r.val = true := by simp [okZ]
theorem okB_val (r : BReg) : okB r.val = true := by simp [okB]
theorem okM_code (m : MOpd) : okM m.code = true := by
  cases m with
  | m i => have := i.isLt; simp [okM, MOpd.code]
  | p i =>
    have : 8 + i.val < 16 := by omega
    show (decide (8 + i.val < 4) || (decide (8 ≤ 8 + i.val) && decide (8 + i.val < 16))) = true
    simp [this]
theorem okS_val (r : SOpd) : okS (r.val + 32) = true := by simp [okS]; omega
theorem mopd_lt (m : MOpd) : m.code < 16 := by cases m with
  | m i => have := i.isLt; simp only [MOpd.code]; omega
  | p i => have := i.isLt; simp only [MOpd.code]; omega
theorem ofNat_toNat {n : Nat} (x : BitVec n) : BitVec.ofNat n x.toNat = x := by simp
theorem Fin_ofNat_val (x : Fin 4) : Fin.ofNat 4 x.val = x := by simp
theorem engMode_lt (m : EngMode) : m.code < 4 := by cases m <;> simp [EngMode.code]
theorem chan_lt (m : EngMode) : m.chan < 8 := by cases m <;> simp [EngMode.chan]
theorem engMode_eq (m : EngMode) : EngMode.ofCode m.code m.chan = m := by cases m <;> simp [EngMode.ofCode, EngMode.code, EngMode.chan, bR_val]
theorem engMode_code_lt (m : EngMode) : m.code < 3 := by cases m <;> simp [EngMode.code]
theorem engMode_chan_or (m : EngMode) : (m.code == 2 || m.chan == 0) = true := by cases m <;> simp [EngMode.code, EngMode.chan]
theorem code_lt_Size (x : Size) : x.code < 4 := by cases x <;> decide
theorem ofCode_Size (x : Size) : Size.ofCode x.code = x := by cases x <;> rfl
theorem code_lt_ESize (x : ESize) : x.code < 4 := by cases x <;> decide
theorem code_top_ESize (x : ESize) : x.code < 3 := by cases x <;> decide
theorem ofCode_ESize (x : ESize) : ESize.ofCode x.code = x := by cases x <;> rfl
theorem code_lt_Cond (x : Cond) : x.code < 8 := by cases x <;> decide
theorem ofCode_Cond (x : Cond) : Cond.ofCode x.code = x := by cases x <;> rfl
theorem code_lt_Annul (x : Annul) : x.code < 4 := by cases x <;> decide
theorem code_top_Annul (x : Annul) : x.code < 3 := by cases x <;> decide
theorem ofCode_Annul (x : Annul) : Annul.ofCode x.code = x := by cases x <;> rfl
theorem code_lt_Scope (x : Scope) : x.code < 8 := by cases x <;> decide
theorem code_top_Scope (x : Scope) : x.code < 6 := by cases x <;> decide
theorem ofCode_Scope (x : Scope) : Scope.ofCode x.code = x := by cases x <;> rfl
theorem code_lt_VType (x : VType) : x.code < 16 := by cases x <;> decide
theorem code_top_VType (x : VType) : x.code < 11 := by cases x <;> decide
theorem ofCode_VType (x : VType) : VType.ofCode x.code = x := by cases x <;> rfl
theorem code_lt_QType (x : QType) : x.code < 8 := by cases x <;> decide
theorem ofCode_QType (x : QType) : QType.ofCode x.code = x := by cases x <;> rfl
theorem code_lt_QCond (x : QCond) : x.code < 8 := by cases x <;> decide
theorem ofCode_QCond (x : QCond) : QCond.ofCode x.code = x := by cases x <;> rfl
theorem code_lt_VCond (x : VCond) : x.code < 8 := by cases x <;> decide
theorem code_top_VCond (x : VCond) : x.code < 6 := by cases x <;> decide
theorem ofCode_VCond (x : VCond) : VCond.ofCode x.code = x := by cases x <;> rfl
theorem code_lt_UType (x : UType) : x.code < 4 := by cases x <;> decide
theorem code_top_UType (x : UType) : x.code < 3 := by cases x <;> decide
theorem ofCode_UType (x : UType) : UType.ofCode x.code = x := by cases x <;> rfl
theorem code_lt_PLevel (x : PLevel) : x.code < 2 := by cases x <;> decide
theorem ofCode_PLevel (x : PLevel) : PLevel.ofCode x.code = x := by cases x <;> rfl
theorem code_lt_ScanOp (x : ScanOp) : x.code < 4 := by cases x <;> decide
theorem ofCode_ScanOp (x : ScanOp) : ScanOp.ofCode x.code = x := by cases x <;> rfl
theorem code_lt_SortOrd (x : SortOrd) : x.code < 2 := by cases x <;> decide
theorem ofCode_SortOrd (x : SortOrd) : SortOrd.ofCode x.code = x := by cases x <;> rfl
theorem code_lt_CReg (x : CReg) : x.code < 256 := by cases x <;> decide
theorem ofCode_CReg (x : CReg) : CReg.ofCode x.code = x := by cases x <;> rfl
theorem listed_code (x : CReg) : CReg.listed x.code = true := by cases x <;> decide

end Sys2Proof
end

