-- ==== Sys2Proof/Laws/Ops.lean ====
section
/-!
SUPPORT. What the shared operations of a meaning can do, said once: running a meaning, the operand checks, and reading and writing plain registers.
-/

namespace Sys2Proof.Machine

/-! ## Running a meaning -/

theorem X.bind_ok {α β : Type} {m : X α} {f : α → X β} {s s' : State} {a : α} (h : m s = .ok (a, s')) : (m >>= f) s = f a s' := by
  show (m s).bind _ = _
  rw [h]; rfl

theorem X.bind_error {α β : Type} {m : X α} {f : α → X β} {s : State} {e : Stop} (h : m s = .error e) : (m >>= f) s = .error e := by
  show (m s).bind _ = _
  rw [h]; rfl

@[simp] theorem X.pure_apply {α : Type} (a : α) (s : State) : (pure a : X α) s = .ok (a, s) := rfl
@[simp] theorem X.cx_apply (s : State) : cx s = .ok (s.ctx s.act s.actx, s) := rfl
@[simp] theorem X.co_apply (s : State) : co s = .ok (s.core s.act, s) := rfl
@[simp] theorem X.getS_apply (s : State) : getS s = .ok (s, s) := rfl
@[simp] theorem X.modCx_apply (f : Ctx → Ctx) (s : State) : modCx f s = .ok ((), s.modCtx s.act s.actx f) := rfl
@[simp] theorem X.rdG_apply (r : GReg) (s : State) : rdG r s = .ok ((s.ctx s.act s.actx).readG r, s) := rfl
@[simp] theorem X.rdV_apply (r : VReg) (s : State) : rdV r s = .ok ((s.ctx s.act s.actx).readV r, s) := rfl

/-- A meaning that completes. -/
theorem issue_ok {m : X Flow} {s s' : State} {f : Flow} (h : m s = .ok (f, s')) : issue m s = .next (s'.finish f) := by simp [issue, h]

theorem issueSeq_ok {m : X Unit} {s s' : State} (h : m s = .ok ((), s')) : issueSeq m s = .next (s'.finish Flow.seq) :=
  issue_ok (X.bind_ok h)

/-- A meaning that traps is taken as its trap, from the state before it (R456). -/
theorem issue_trap {m : X Flow} {s : State} {t : Trap} (h : m s = .error (.trap t)) : issue m s = .next (s.takeTrap s.act s.actx t).issued := by
  simp [issue, h]

/-- A meaning that waits. -/
theorem issue_wait {m : X Flow} {s : State} (h : m s = .error .wait) : issue m s = .next s.holding := by simp [issue, h]

theorem issueLast_ok {m : X Unit} {s s' : State} (h : m s = .ok ((), s')) :
    issueLast m s =
      .next ((s'.modCtx s.act s.actx fun c => { c with prog := .none, hold := none }).modCore s.act (Core.noteIssue · s.actx)).cycle := by
  simp [issueLast, h]

/-- Whatever a meaning does, the issue of its instruction has a next state. -/
theorem issue_next (m : X Flow) (s : State) : ∃ t, issue m s = .next t := by
  unfold issue
  split <;> exact ⟨_, rfl⟩

theorem issueSeq_next (m : X Unit) (s : State) : ∃ t, issueSeq m s = .next t := issue_next _ s

theorem issueLast_next (m : X Unit) (s : State) : ∃ t, issueLast m s = .next t := by
  unfold issueLast
  split
  · exact ⟨_, rfl⟩
  · exact issue_next _ s

theorem event_next (f : State → State) (s : State) : event f s = .next { f s with moves := s.moves + 1 } := rfl

/-! ## Operands -/

/-- Operands that are all full need no wait and no trap (R71). -/
theorem ready_full {os : List Opnd} {s : State} (h : ∀ o ∈ os, isEmptyRef (s.core s.act) (s.ctx s.act s.actx) o.ref = false) :
    ready os s = .ok ((), s) := by
  have he : os.filter (fun o => isEmptyRef (s.core s.act) (s.ctx s.act s.actx) o.ref) = [] := by
    simpa [List.filter_eq_nil_iff] using h
  unfold ready
  rw [X.bind_ok (X.co_apply s), X.bind_ok (X.cx_apply s)]
  simp [he, lowestField]

/-- A full register that is not in stream mode is not empty. -/
theorem isEmptyRef_g {c : Core} {t : Ctx} {r : GReg} (hs : t.slotG r = none) (hf : t.gFull r = true) : isEmptyRef c t (.g r) = false := by
  simp [isEmptyRef, hs, hf]

theorem isEmptyRef_v {c : Core} {t : Ctx} {r : VReg} (hs : t.slotV r = none) (hf : t.vFull r = true) : isEmptyRef c t (.v r) = false := by
  simp [isEmptyRef, hs, hf]

theorem readG_plain {t : Ctx} {r : GReg} (hs : t.slotG r = none) : t.readG r = t.getG r := by simp [Ctx.readG, hs]
theorem readV_plain {t : Ctx} {r : VReg} (hs : t.slotV r = none) : t.readV r = t.getV r := by simp [Ctx.readV, hs]

theorem popOne_plain {s : State} {r : Ref} (h : (s.ctx s.act s.actx).slotOf r = none) : popOne r s = .ok ((), s) := by
  have hl : popLock r s = .ok ((), s) := by
    unfold popLock
    rw [X.bind_ok (X.getS_apply s)]
    simp [h]
  unfold popOne popFree
  rw [X.bind_ok hl, X.bind_ok (X.cx_apply s)]
  simp [h]

theorem forM_popOne_plain (rs : List Ref) (s : State) (h : ∀ r ∈ rs, (s.ctx s.act s.actx).slotOf r = none) : rs.forM popOne s = .ok ((), s) := by
  induction rs with
  | nil => rfl
  | cons r t ih =>
    show (popOne r >>= fun _ => t.forM popOne) s = _
    rw [X.bind_ok (popOne_plain (h r (by simp)))]
    exact ih fun q hq => h q (by simp [hq])

/-- Registers that are not in stream mode have nothing to pop. -/
theorem pops_plain {rs : List Ref} {s : State} (h : ∀ r ∈ rs, (s.ctx s.act s.actx).slotOf r = none) : pops rs s = .ok ((), s) :=
  forM_popOne_plain _ s fun r hr => h r (List.mem_eraseDups.mp hr)

/-- A write of a register that is not in stream mode, within the stack bounds where it is g62 (R67, R76). -/
theorem wrG_plain {s : State} {r : GReg} {x : Word} (hs : (s.ctx s.act s.actx).slotG r = none)
    (hk : (s.ctx s.act s.actx).stackBad r x = false) : wrG r x s = .ok ((), s.modCtx s.act s.actx (·.setG r x)) := by
  unfold wrG
  rw [X.bind_ok (X.cx_apply s)]
  simp [hs, hk]

theorem wrV_plain {s : State} {r : VReg} {x : VWord} (hs : (s.ctx s.act s.actx).slotV r = none) :
    wrV r x s = .ok ((), s.modCtx s.act s.actx (·.setV r x)) := by
  unfold wrV
  rw [X.bind_ok (X.cx_apply s)]
  simp [hs]

/-- A trap of a write of g62 outside [SSL, SSB] (R76). -/
theorem wrG_stack {s : State} {r : GReg} {x : Word} (hs : (s.ctx s.act s.actx).slotG r = none)
    (hk : (s.ctx s.act s.actx).stackBad r x = true) : wrG r x s = .error (.trap ⟨0x0B, memDetail 1 0 0 0, x, false⟩) := by
  unfold wrG
  rw [X.bind_ok (X.cx_apply s)]
  simp [hs, hk, trap, stop]

end Sys2Proof.Machine
end

