-- ==== Sys2Proof/Laws/PerInstr.lean ====
section
/-!
SUPPORT. Statements made instruction by instruction. Encoding: a well-formed instruction is read back from its encoding, and an event has none.
-/

namespace Sys2Proof.Laws.Encoding

open Sys2Proof

set_option Elab.async false
set_option linter.all false

/-- Decoding the encoding of a well-formed instruction gives it back; only an event has no encoding (R100 to R106). -/
def Statement (i : Instr) : Prop :=
  i.wf = true → match encode i with
    | some c => decode c.head c.tail = .ok i
    | none => i.isEvent = true

/-- A round trip from the fields of an encoding: they fit their format, and the decoder reads the instruction from them. -/
theorem round_trip {i : Instr} {op : Nat} {fm : Fmt} {r : Raw} (he : encodeRaw i = some (op, fm, r)) (hop : op < 128)
    (hfm : opFmt op = some fm) (hr : r.Fits fm) (hd : decOp op (r.only fm) = .ok i) :
    match encode i with
    | some c => decode c.head c.tail = .ok i
    | none => i.isEvent = true := by
  simp only [encode, he, decode_pack op fm r hop hfm hr, hd]

theorem nop  : Statement (.nop) := by
  intro h
  simp only [Instr.wf] at h
  refine round_trip (i := .nop) (op := 0x00) (fm := .H) (r := {  }) rfl (by decide) rfl ?_ ?_
  · simp only [Raw.Fits]; first | omega | (simp; done) | (simp; omega)
  · simp only [Raw.only]
    show dec00 _ = _
    simp only [dec00, chk] <;> first | (simp [h]; done) | simp_all

theorem retire  : Statement (.retire) := by
  intro h
  simp only [Instr.wf] at h
  refine round_trip (i := .retire) (op := 0x01) (fm := .H) (r := {  }) rfl (by decide) rfl ?_ ?_
  · simp only [Raw.Fits]; first | omega | (simp; done) | (simp; omega)
  · simp only [Raw.only]
    show dec01 _ = _
    simp only [dec01, chk] <;> first | (simp [h]; done) | simp_all

theorem yld  : Statement (.yld) := by
  intro h
  simp only [Instr.wf] at h
  refine round_trip (i := .yld) (op := 0x02) (fm := .H) (r := {  }) rfl (by decide) rfl ?_ ?_
  · simp only [Raw.Fits]; first | omega | (simp; done) | (simp; omega)
  · simp only [Raw.only]
    show dec02 _ = _
    simp only [dec02, chk] <;> first | (simp [h]; done) | simp_all

theorem ret  : Statement (.ret) := by
  intro h
  simp only [Instr.wf] at h
  refine round_trip (i := .ret) (op := 0x03) (fm := .H) (r := {  }) rfl (by decide) rfl ?_ ?_
  · simp only [Raw.Fits]; first | omega | (simp; done) | (simp; omega)
  · simp only [Raw.only]
    show dec03 _ = _
    simp only [dec03, chk] <;> first | (simp [h]; done) | simp_all

theorem jr (a : GSrc) : Statement (.jr a) := by
  intro h
  simp only [Instr.wf] at h
  have : a.r.val < 64 := a.r.isLt
  have : a.t.toNat < 2 := toNat_bool_lt _
  refine round_trip (i := .jr a) (op := 0x04) (fm := .R) (r := { a := a.r.val, ta := a.t.toNat }) rfl (by decide) rfl ?_ ?_
  · simp only [Raw.Fits]; first | omega | (simp; done) | (simp; omega)
  · simp only [Raw.only]
    show dec04 _ = _
    simp only [dec04, chk, gS_eq] <;> first | (simp [h]; done) | simp_all

theorem callr (a : GSrc) : Statement (.callr a) := by
  intro h
  simp only [Instr.wf] at h
  have : a.r.val < 64 := a.r.isLt
  have : a.t.toNat < 2 := toNat_bool_lt _
  refine round_trip (i := .callr a) (op := 0x05) (fm := .R) (r := { a := a.r.val, ta := a.t.toNat }) rfl (by decide) rfl ?_ ?_
  · simp only [Raw.Fits]; first | omega | (simp; done) | (simp; omega)
  · simp only [Raw.only]
    show dec05 _ = _
    simp only [dec05, chk, gS_eq] <;> first | (simp [h]; done) | simp_all

theorem j (imm : BitVec 32) : Statement (.j imm) := by
  intro h
  simp only [Instr.wf] at h
  have : imm.toNat < 4294967296 := imm.isLt
  have e0 : bits (imm.toNat) 0 32 = imm.toNat := by simp only [bits]; omega
  refine round_trip (i := .j imm) (op := 0x06) (fm := .L) (r := { imm := imm.toNat }) rfl (by decide) rfl ?_ ?_
  · simp only [Raw.Fits]; first | omega | (simp; done) | (simp; omega)
  · simp only [Raw.only]
    show dec06 _ = _
    simp only [dec06, chk, e0, ofNat_toNat] <;> first | (simp [h]; done) | simp_all

theorem call (imm : BitVec 32) : Statement (.call imm) := by
  intro h
  simp only [Instr.wf] at h
  have : imm.toNat < 4294967296 := imm.isLt
  have e0 : bits (imm.toNat) 0 32 = imm.toNat := by simp only [bits]; omega
  refine round_trip (i := .call imm) (op := 0x07) (fm := .L) (r := { imm := imm.toNat }) rfl (by decide) rfl ?_ ?_
  · simp only [Raw.Fits]; first | omega | (simp; done) | (simp; omega)
  · simp only [Raw.only]
    show dec07 _ = _
    simp only [dec07, chk, e0, ofNat_toNat] <;> first | (simp [h]; done) | simp_all

theorem bcc (a : GSrc) (b : GSrc) (cc : Cond) (an : Annul) (hidx : BitVec 5) (loff : BitVec 13) : Statement (.bcc a b cc an hidx loff) := by
  intro h
  simp only [Instr.wf] at h
  have : a.r.val < 64 := a.r.isLt
  have : a.t.toNat < 2 := toNat_bool_lt _
  have : an.code < 4 := code_lt_Annul _
  have : b.r.val < 64 := b.r.isLt
  have : b.t.toNat < 2 := toNat_bool_lt _
  have : cc.code < 8 := code_lt_Cond _
  have : hidx.toNat < 32 := hidx.isLt
  have : loff.toNat < 8192 := loff.isLt
  have e0 : bits (cc.code * 2 ^ 3 + an.code * 2 ^ 1) 0 1 = 0 := by simp only [bits]; omega
  have e1 : bits (cc.code * 2 ^ 3 + an.code * 2 ^ 1) 1 2 = an.code := by simp only [bits]; omega
  have e2 : bits (cc.code * 2 ^ 3 + an.code * 2 ^ 1) 3 3 = cc.code := by simp only [bits]; omega
  have e3 : bits (hidx.toNat * 2 ^ 13 + loff.toNat) 0 13 = loff.toNat := by simp only [bits]; omega
  have e4 : bits (hidx.toNat * 2 ^ 13 + loff.toNat) 13 5 = hidx.toNat := by simp only [bits]; omega
  refine round_trip (i := .bcc a b cc an hidx loff) (op := 0x08) (fm := .B) (r := { d := cc.code * 2 ^ 3 + an.code * 2 ^ 1, a := a.r.val, ta := a.t.toNat, b := b.r.val, tb := b.t.toNat, imm := hidx.toNat * 2 ^ 13 + loff.toNat }) rfl (by decide) rfl ?_ ?_
  · simp only [Raw.Fits]; first | omega | (simp; done) | (simp; omega)
  · simp only [Raw.only]
    show dec08 _ = _
    simp only [dec08, chk, e0, e1, e2, e3, e4, gS_eq, ofCode_Cond, ofCode_Annul, code_top_Annul, ofNat_toNat] <;> first | (simp [h]; done) | (rcases b with ⟨b, t⟩; cases cc <;> simp_all [Cond.code])

theorem start (d : GReg) (a : GSrc) (imm : BitVec 20) : Statement (.start d a imm) := by
  intro h
  simp only [Instr.wf] at h
  have : a.r.val < 64 := a.r.isLt
  have : a.t.toNat < 2 := toNat_bool_lt _
  have : d.val < 64 := d.isLt
  have : imm.toNat < 1048576 := imm.isLt
  have e0 : bits (imm.toNat) 0 20 = imm.toNat := by simp only [bits]; omega
  refine round_trip (i := .start d a imm) (op := 0x0A) (fm := .I) (r := { d := d.val, a := a.r.val, ta := a.t.toNat, imm := imm.toNat }) rfl (by decide) rfl ?_ ?_
  · simp only [Raw.Fits]; first | omega | (simp; done) | (simp; omega)
  · simp only [Raw.only]
    show dec0A _ = _
    simp only [dec0A, chk, e0, gR_val, gS_eq, ofNat_toNat] <;> first | (simp [h]; done) | (rcases a with ⟨b, t⟩; cases t <;> simp_all)

theorem split (d : GReg) (a : MOpd) (imm : BitVec 20) : Statement (.split d a imm) := by
  intro h
  simp only [Instr.wf] at h
  have : a.code < 16 := mopd_lt _
  have : d.val < 64 := d.isLt
  have : imm.toNat < 1048576 := imm.isLt
  have e0 : bits (imm.toNat) 0 20 = imm.toNat := by simp only [bits]; omega
  refine round_trip (i := .split d a imm) (op := 0x0B) (fm := .I) (r := { d := d.val, a := a.code, imm := imm.toNat }) rfl (by decide) rfl ?_ ?_
  · simp only [Raw.Fits]; first | omega | (simp; done) | (simp; omega)
  · simp only [Raw.only]
    show dec0B _ = _
    simp only [dec0B, chk, e0, gR_val, mR_code, okM_code, ofNat_toNat] <;> first | (simp [h]; done) | simp_all

theorem waitf  : Statement (.waitf) := by
  intro h
  simp only [Instr.wf] at h
  refine round_trip (i := .waitf) (op := 0x0C) (fm := .R) (r := {  }) rfl (by decide) rfl ?_ ?_
  · simp only [Raw.Fits]; first | omega | (simp; done) | (simp; omega)
  · simp only [Raw.only]
    show dec0C _ = _
    simp only [dec0C, chk] <;> first | (simp [h]; done) | simp_all

theorem add (d : GReg) (a : GSrc) (b : GSrc) : Statement (.add d a b) := by
  intro h
  simp only [Instr.wf] at h
  have : a.r.val < 64 := a.r.isLt
  have : a.t.toNat < 2 := toNat_bool_lt _
  have : b.r.val < 64 := b.r.isLt
  have : b.t.toNat < 2 := toNat_bool_lt _
  have : d.val < 64 := d.isLt
  refine round_trip (i := .add d a b) (op := 0x10) (fm := .R) (r := { d := d.val, a := a.r.val, ta := a.t.toNat, b := b.r.val, tb := b.t.toNat }) rfl (by decide) rfl ?_ ?_
  · simp only [Raw.Fits]; first | omega | (simp; done) | (simp; omega)
  · simp only [Raw.only]
    show dec10 _ = _
    simp only [dec10, chk, gR_val, gS_eq] <;> first | (simp [h]; done) | simp_all

theorem sub (d : GReg) (a : GSrc) (b : GSrc) : Statement (.sub d a b) := by
  intro h
  simp only [Instr.wf] at h
  have : a.r.val < 64 := a.r.isLt
  have : a.t.toNat < 2 := toNat_bool_lt _
  have : b.r.val < 64 := b.r.isLt
  have : b.t.toNat < 2 := toNat_bool_lt _
  have : d.val < 64 := d.isLt
  refine round_trip (i := .sub d a b) (op := 0x10) (fm := .R) (r := { d := d.val, a := a.r.val, ta := a.t.toNat, b := b.r.val, tb := b.t.toNat, f := 1 }) rfl (by decide) rfl ?_ ?_
  · simp only [Raw.Fits]; first | omega | (simp; done) | (simp; omega)
  · simp only [Raw.only]
    show dec10 _ = _
    simp only [dec10, chk, gR_val, gS_eq] <;> first | (simp [h]; done) | simp_all

theorem addW (d : GReg) (a : GSrc) (b : GSrc) : Statement (.addW d a b) := by
  intro h
  simp only [Instr.wf] at h
  have : a.r.val < 64 := a.r.isLt
  have : a.t.toNat < 2 := toNat_bool_lt _
  have : b.r.val < 64 := b.r.isLt
  have : b.t.toNat < 2 := toNat_bool_lt _
  have : d.val < 64 := d.isLt
  refine round_trip (i := .addW d a b) (op := 0x10) (fm := .R) (r := { d := d.val, a := a.r.val, ta := a.t.toNat, b := b.r.val, tb := b.t.toNat, f := 2 }) rfl (by decide) rfl ?_ ?_
  · simp only [Raw.Fits]; first | omega | (simp; done) | (simp; omega)
  · simp only [Raw.only]
    show dec10 _ = _
    simp only [dec10, chk, gR_val, gS_eq] <;> first | (simp [h]; done) | simp_all

theorem subW (d : GReg) (a : GSrc) (b : GSrc) : Statement (.subW d a b) := by
  intro h
  simp only [Instr.wf] at h
  have : a.r.val < 64 := a.r.isLt
  have : a.t.toNat < 2 := toNat_bool_lt _
  have : b.r.val < 64 := b.r.isLt
  have : b.t.toNat < 2 := toNat_bool_lt _
  have : d.val < 64 := d.isLt
  refine round_trip (i := .subW d a b) (op := 0x10) (fm := .R) (r := { d := d.val, a := a.r.val, ta := a.t.toNat, b := b.r.val, tb := b.t.toNat, f := 3 }) rfl (by decide) rfl ?_ ?_
  · simp only [Raw.Fits]; first | omega | (simp; done) | (simp; omega)
  · simp only [Raw.only]
    show dec10 _ = _
    simp only [dec10, chk, gR_val, gS_eq] <;> first | (simp [h]; done) | simp_all

theorem and (d : GReg) (a : GSrc) (b : GSrc) : Statement (.and d a b) := by
  intro h
  simp only [Instr.wf] at h
  have : a.r.val < 64 := a.r.isLt
  have : a.t.toNat < 2 := toNat_bool_lt _
  have : b.r.val < 64 := b.r.isLt
  have : b.t.toNat < 2 := toNat_bool_lt _
  have : d.val < 64 := d.isLt
  refine round_trip (i := .and d a b) (op := 0x11) (fm := .R) (r := { d := d.val, a := a.r.val, ta := a.t.toNat, b := b.r.val, tb := b.t.toNat }) rfl (by decide) rfl ?_ ?_
  · simp only [Raw.Fits]; first | omega | (simp; done) | (simp; omega)
  · simp only [Raw.only]
    show dec11 _ = _
    simp only [dec11, chk, gR_val, gS_eq] <;> first | (simp [h]; done) | simp_all

theorem or (d : GReg) (a : GSrc) (b : GSrc) : Statement (.or d a b) := by
  intro h
  simp only [Instr.wf] at h
  have : a.r.val < 64 := a.r.isLt
  have : a.t.toNat < 2 := toNat_bool_lt _
  have : b.r.val < 64 := b.r.isLt
  have : b.t.toNat < 2 := toNat_bool_lt _
  have : d.val < 64 := d.isLt
  refine round_trip (i := .or d a b) (op := 0x11) (fm := .R) (r := { d := d.val, a := a.r.val, ta := a.t.toNat, b := b.r.val, tb := b.t.toNat, f := 1 }) rfl (by decide) rfl ?_ ?_
  · simp only [Raw.Fits]; first | omega | (simp; done) | (simp; omega)
  · simp only [Raw.only]
    show dec11 _ = _
    simp only [dec11, chk, gR_val, gS_eq] <;> first | (simp [h]; done) | simp_all

theorem xor (d : GReg) (a : GSrc) (b : GSrc) : Statement (.xor d a b) := by
  intro h
  simp only [Instr.wf] at h
  have : a.r.val < 64 := a.r.isLt
  have : a.t.toNat < 2 := toNat_bool_lt _
  have : b.r.val < 64 := b.r.isLt
  have : b.t.toNat < 2 := toNat_bool_lt _
  have : d.val < 64 := d.isLt
  refine round_trip (i := .xor d a b) (op := 0x11) (fm := .R) (r := { d := d.val, a := a.r.val, ta := a.t.toNat, b := b.r.val, tb := b.t.toNat, f := 2 }) rfl (by decide) rfl ?_ ?_
  · simp only [Raw.Fits]; first | omega | (simp; done) | (simp; omega)
  · simp only [Raw.only]
    show dec11 _ = _
    simp only [dec11, chk, gR_val, gS_eq] <;> first | (simp [h]; done) | simp_all

theorem andn (d : GReg) (a : GSrc) (b : GSrc) : Statement (.andn d a b) := by
  intro h
  simp only [Instr.wf] at h
  have : a.r.val < 64 := a.r.isLt
  have : a.t.toNat < 2 := toNat_bool_lt _
  have : b.r.val < 64 := b.r.isLt
  have : b.t.toNat < 2 := toNat_bool_lt _
  have : d.val < 64 := d.isLt
  refine round_trip (i := .andn d a b) (op := 0x11) (fm := .R) (r := { d := d.val, a := a.r.val, ta := a.t.toNat, b := b.r.val, tb := b.t.toNat, f := 3 }) rfl (by decide) rfl ?_ ?_
  · simp only [Raw.Fits]; first | omega | (simp; done) | (simp; omega)
  · simp only [Raw.only]
    show dec11 _ = _
    simp only [dec11, chk, gR_val, gS_eq] <;> first | (simp [h]; done) | simp_all

theorem shl (d : GReg) (a : GSrc) (b : GSrc) : Statement (.shl d a b) := by
  intro h
  simp only [Instr.wf] at h
  have : a.r.val < 64 := a.r.isLt
  have : a.t.toNat < 2 := toNat_bool_lt _
  have : b.r.val < 64 := b.r.isLt
  have : b.t.toNat < 2 := toNat_bool_lt _
  have : d.val < 64 := d.isLt
  refine round_trip (i := .shl d a b) (op := 0x12) (fm := .R) (r := { d := d.val, a := a.r.val, ta := a.t.toNat, b := b.r.val, tb := b.t.toNat }) rfl (by decide) rfl ?_ ?_
  · simp only [Raw.Fits]; first | omega | (simp; done) | (simp; omega)
  · simp only [Raw.only]
    show dec12 _ = _
    simp only [dec12, chk, gR_val, gS_eq] <;> first | (simp [h]; done) | simp_all

theorem shr (d : GReg) (a : GSrc) (b : GSrc) : Statement (.shr d a b) := by
  intro h
  simp only [Instr.wf] at h
  have : a.r.val < 64 := a.r.isLt
  have : a.t.toNat < 2 := toNat_bool_lt _
  have : b.r.val < 64 := b.r.isLt
  have : b.t.toNat < 2 := toNat_bool_lt _
  have : d.val < 64 := d.isLt
  refine round_trip (i := .shr d a b) (op := 0x12) (fm := .R) (r := { d := d.val, a := a.r.val, ta := a.t.toNat, b := b.r.val, tb := b.t.toNat, f := 1 }) rfl (by decide) rfl ?_ ?_
  · simp only [Raw.Fits]; first | omega | (simp; done) | (simp; omega)
  · simp only [Raw.only]
    show dec12 _ = _
    simp only [dec12, chk, gR_val, gS_eq] <;> first | (simp [h]; done) | simp_all

theorem sra (d : GReg) (a : GSrc) (b : GSrc) : Statement (.sra d a b) := by
  intro h
  simp only [Instr.wf] at h
  have : a.r.val < 64 := a.r.isLt
  have : a.t.toNat < 2 := toNat_bool_lt _
  have : b.r.val < 64 := b.r.isLt
  have : b.t.toNat < 2 := toNat_bool_lt _
  have : d.val < 64 := d.isLt
  refine round_trip (i := .sra d a b) (op := 0x12) (fm := .R) (r := { d := d.val, a := a.r.val, ta := a.t.toNat, b := b.r.val, tb := b.t.toNat, f := 2 }) rfl (by decide) rfl ?_ ?_
  · simp only [Raw.Fits]; first | omega | (simp; done) | (simp; omega)
  · simp only [Raw.only]
    show dec12 _ = _
    simp only [dec12, chk, gR_val, gS_eq] <;> first | (simp [h]; done) | simp_all

theorem rol (d : GReg) (a : GSrc) (b : GSrc) : Statement (.rol d a b) := by
  intro h
  simp only [Instr.wf] at h
  have : a.r.val < 64 := a.r.isLt
  have : a.t.toNat < 2 := toNat_bool_lt _
  have : b.r.val < 64 := b.r.isLt
  have : b.t.toNat < 2 := toNat_bool_lt _
  have : d.val < 64 := d.isLt
  refine round_trip (i := .rol d a b) (op := 0x12) (fm := .R) (r := { d := d.val, a := a.r.val, ta := a.t.toNat, b := b.r.val, tb := b.t.toNat, f := 3 }) rfl (by decide) rfl ?_ ?_
  · simp only [Raw.Fits]; first | omega | (simp; done) | (simp; omega)
  · simp only [Raw.only]
    show dec12 _ = _
    simp only [dec12, chk, gR_val, gS_eq] <;> first | (simp [h]; done) | simp_all

theorem mul (d : GReg) (a : GSrc) (b : GSrc) : Statement (.mul d a b) := by
  intro h
  simp only [Instr.wf] at h
  have : a.r.val < 64 := a.r.isLt
  have : a.t.toNat < 2 := toNat_bool_lt _
  have : b.r.val < 64 := b.r.isLt
  have : b.t.toNat < 2 := toNat_bool_lt _
  have : d.val < 64 := d.isLt
  refine round_trip (i := .mul d a b) (op := 0x13) (fm := .R) (r := { d := d.val, a := a.r.val, ta := a.t.toNat, b := b.r.val, tb := b.t.toNat }) rfl (by decide) rfl ?_ ?_
  · simp only [Raw.Fits]; first | omega | (simp; done) | (simp; omega)
  · simp only [Raw.only]
    show dec13 _ = _
    simp only [dec13, chk, gR_val, gS_eq] <;> first | (simp [h]; done) | simp_all

theorem mulh (d : GReg) (a : GSrc) (b : GSrc) : Statement (.mulh d a b) := by
  intro h
  simp only [Instr.wf] at h
  have : a.r.val < 64 := a.r.isLt
  have : a.t.toNat < 2 := toNat_bool_lt _
  have : b.r.val < 64 := b.r.isLt
  have : b.t.toNat < 2 := toNat_bool_lt _
  have : d.val < 64 := d.isLt
  refine round_trip (i := .mulh d a b) (op := 0x13) (fm := .R) (r := { d := d.val, a := a.r.val, ta := a.t.toNat, b := b.r.val, tb := b.t.toNat, f := 1 }) rfl (by decide) rfl ?_ ?_
  · simp only [Raw.Fits]; first | omega | (simp; done) | (simp; omega)
  · simp only [Raw.only]
    show dec13 _ = _
    simp only [dec13, chk, gR_val, gS_eq] <;> first | (simp [h]; done) | simp_all

theorem mulhu (d : GReg) (a : GSrc) (b : GSrc) : Statement (.mulhu d a b) := by
  intro h
  simp only [Instr.wf] at h
  have : a.r.val < 64 := a.r.isLt
  have : a.t.toNat < 2 := toNat_bool_lt _
  have : b.r.val < 64 := b.r.isLt
  have : b.t.toNat < 2 := toNat_bool_lt _
  have : d.val < 64 := d.isLt
  refine round_trip (i := .mulhu d a b) (op := 0x13) (fm := .R) (r := { d := d.val, a := a.r.val, ta := a.t.toNat, b := b.r.val, tb := b.t.toNat, f := 2 }) rfl (by decide) rfl ?_ ?_
  · simp only [Raw.Fits]; first | omega | (simp; done) | (simp; omega)
  · simp only [Raw.only]
    show dec13 _ = _
    simp only [dec13, chk, gR_val, gS_eq] <;> first | (simp [h]; done) | simp_all

theorem mulW (d : GReg) (a : GSrc) (b : GSrc) : Statement (.mulW d a b) := by
  intro h
  simp only [Instr.wf] at h
  have : a.r.val < 64 := a.r.isLt
  have : a.t.toNat < 2 := toNat_bool_lt _
  have : b.r.val < 64 := b.r.isLt
  have : b.t.toNat < 2 := toNat_bool_lt _
  have : d.val < 64 := d.isLt
  refine round_trip (i := .mulW d a b) (op := 0x13) (fm := .R) (r := { d := d.val, a := a.r.val, ta := a.t.toNat, b := b.r.val, tb := b.t.toNat, f := 3 }) rfl (by decide) rfl ?_ ?_
  · simp only [Raw.Fits]; first | omega | (simp; done) | (simp; omega)
  · simp only [Raw.only]
    show dec13 _ = _
    simp only [dec13, chk, gR_val, gS_eq] <;> first | (simp [h]; done) | simp_all

theorem div (d : GReg) (a : GSrc) (b : GSrc) : Statement (.div d a b) := by
  intro h
  simp only [Instr.wf] at h
  have : a.r.val < 64 := a.r.isLt
  have : a.t.toNat < 2 := toNat_bool_lt _
  have : b.r.val < 64 := b.r.isLt
  have : b.t.toNat < 2 := toNat_bool_lt _
  have : d.val < 64 := d.isLt
  refine round_trip (i := .div d a b) (op := 0x14) (fm := .R) (r := { d := d.val, a := a.r.val, ta := a.t.toNat, b := b.r.val, tb := b.t.toNat }) rfl (by decide) rfl ?_ ?_
  · simp only [Raw.Fits]; first | omega | (simp; done) | (simp; omega)
  · simp only [Raw.only]
    show dec14 _ = _
    simp only [dec14, chk, gR_val, gS_eq] <;> first | (simp [h]; done) | simp_all

theorem divu (d : GReg) (a : GSrc) (b : GSrc) : Statement (.divu d a b) := by
  intro h
  simp only [Instr.wf] at h
  have : a.r.val < 64 := a.r.isLt
  have : a.t.toNat < 2 := toNat_bool_lt _
  have : b.r.val < 64 := b.r.isLt
  have : b.t.toNat < 2 := toNat_bool_lt _
  have : d.val < 64 := d.isLt
  refine round_trip (i := .divu d a b) (op := 0x14) (fm := .R) (r := { d := d.val, a := a.r.val, ta := a.t.toNat, b := b.r.val, tb := b.t.toNat, f := 1 }) rfl (by decide) rfl ?_ ?_
  · simp only [Raw.Fits]; first | omega | (simp; done) | (simp; omega)
  · simp only [Raw.only]
    show dec14 _ = _
    simp only [dec14, chk, gR_val, gS_eq] <;> first | (simp [h]; done) | simp_all

theorem rem (d : GReg) (a : GSrc) (b : GSrc) : Statement (.rem d a b) := by
  intro h
  simp only [Instr.wf] at h
  have : a.r.val < 64 := a.r.isLt
  have : a.t.toNat < 2 := toNat_bool_lt _
  have : b.r.val < 64 := b.r.isLt
  have : b.t.toNat < 2 := toNat_bool_lt _
  have : d.val < 64 := d.isLt
  refine round_trip (i := .rem d a b) (op := 0x14) (fm := .R) (r := { d := d.val, a := a.r.val, ta := a.t.toNat, b := b.r.val, tb := b.t.toNat, f := 2 }) rfl (by decide) rfl ?_ ?_
  · simp only [Raw.Fits]; first | omega | (simp; done) | (simp; omega)
  · simp only [Raw.only]
    show dec14 _ = _
    simp only [dec14, chk, gR_val, gS_eq] <;> first | (simp [h]; done) | simp_all

theorem remu (d : GReg) (a : GSrc) (b : GSrc) : Statement (.remu d a b) := by
  intro h
  simp only [Instr.wf] at h
  have : a.r.val < 64 := a.r.isLt
  have : a.t.toNat < 2 := toNat_bool_lt _
  have : b.r.val < 64 := b.r.isLt
  have : b.t.toNat < 2 := toNat_bool_lt _
  have : d.val < 64 := d.isLt
  refine round_trip (i := .remu d a b) (op := 0x14) (fm := .R) (r := { d := d.val, a := a.r.val, ta := a.t.toNat, b := b.r.val, tb := b.t.toNat, f := 3 }) rfl (by decide) rfl ?_ ?_
  · simp only [Raw.Fits]; first | omega | (simp; done) | (simp; omega)
  · simp only [Raw.only]
    show dec14 _ = _
    simp only [dec14, chk, gR_val, gS_eq] <;> first | (simp [h]; done) | simp_all

theorem min (d : GReg) (a : GSrc) (b : GSrc) : Statement (.min d a b) := by
  intro h
  simp only [Instr.wf] at h
  have : a.r.val < 64 := a.r.isLt
  have : a.t.toNat < 2 := toNat_bool_lt _
  have : b.r.val < 64 := b.r.isLt
  have : b.t.toNat < 2 := toNat_bool_lt _
  have : d.val < 64 := d.isLt
  refine round_trip (i := .min d a b) (op := 0x15) (fm := .R) (r := { d := d.val, a := a.r.val, ta := a.t.toNat, b := b.r.val, tb := b.t.toNat }) rfl (by decide) rfl ?_ ?_
  · simp only [Raw.Fits]; first | omega | (simp; done) | (simp; omega)
  · simp only [Raw.only]
    show dec15 _ = _
    simp only [dec15, chk, gR_val, gS_eq] <;> first | (simp [h]; done) | simp_all

theorem max (d : GReg) (a : GSrc) (b : GSrc) : Statement (.max d a b) := by
  intro h
  simp only [Instr.wf] at h
  have : a.r.val < 64 := a.r.isLt
  have : a.t.toNat < 2 := toNat_bool_lt _
  have : b.r.val < 64 := b.r.isLt
  have : b.t.toNat < 2 := toNat_bool_lt _
  have : d.val < 64 := d.isLt
  refine round_trip (i := .max d a b) (op := 0x15) (fm := .R) (r := { d := d.val, a := a.r.val, ta := a.t.toNat, b := b.r.val, tb := b.t.toNat, f := 1 }) rfl (by decide) rfl ?_ ?_
  · simp only [Raw.Fits]; first | omega | (simp; done) | (simp; omega)
  · simp only [Raw.only]
    show dec15 _ = _
    simp only [dec15, chk, gR_val, gS_eq] <;> first | (simp [h]; done) | simp_all

theorem minu (d : GReg) (a : GSrc) (b : GSrc) : Statement (.minu d a b) := by
  intro h
  simp only [Instr.wf] at h
  have : a.r.val < 64 := a.r.isLt
  have : a.t.toNat < 2 := toNat_bool_lt _
  have : b.r.val < 64 := b.r.isLt
  have : b.t.toNat < 2 := toNat_bool_lt _
  have : d.val < 64 := d.isLt
  refine round_trip (i := .minu d a b) (op := 0x15) (fm := .R) (r := { d := d.val, a := a.r.val, ta := a.t.toNat, b := b.r.val, tb := b.t.toNat, f := 2 }) rfl (by decide) rfl ?_ ?_
  · simp only [Raw.Fits]; first | omega | (simp; done) | (simp; omega)
  · simp only [Raw.only]
    show dec15 _ = _
    simp only [dec15, chk, gR_val, gS_eq] <;> first | (simp [h]; done) | simp_all

theorem maxu (d : GReg) (a : GSrc) (b : GSrc) : Statement (.maxu d a b) := by
  intro h
  simp only [Instr.wf] at h
  have : a.r.val < 64 := a.r.isLt
  have : a.t.toNat < 2 := toNat_bool_lt _
  have : b.r.val < 64 := b.r.isLt
  have : b.t.toNat < 2 := toNat_bool_lt _
  have : d.val < 64 := d.isLt
  refine round_trip (i := .maxu d a b) (op := 0x15) (fm := .R) (r := { d := d.val, a := a.r.val, ta := a.t.toNat, b := b.r.val, tb := b.t.toNat, f := 3 }) rfl (by decide) rfl ?_ ?_
  · simp only [Raw.Fits]; first | omega | (simp; done) | (simp; omega)
  · simp only [Raw.only]
    show dec15 _ = _
    simp only [dec15, chk, gR_val, gS_eq] <;> first | (simp [h]; done) | simp_all

theorem slt (d : GReg) (a : GSrc) (b : GSrc) : Statement (.slt d a b) := by
  intro h
  simp only [Instr.wf] at h
  have : a.r.val < 64 := a.r.isLt
  have : a.t.toNat < 2 := toNat_bool_lt _
  have : b.r.val < 64 := b.r.isLt
  have : b.t.toNat < 2 := toNat_bool_lt _
  have : d.val < 64 := d.isLt
  refine round_trip (i := .slt d a b) (op := 0x16) (fm := .R) (r := { d := d.val, a := a.r.val, ta := a.t.toNat, b := b.r.val, tb := b.t.toNat }) rfl (by decide) rfl ?_ ?_
  · simp only [Raw.Fits]; first | omega | (simp; done) | (simp; omega)
  · simp only [Raw.only]
    show dec16 _ = _
    simp only [dec16, chk, gR_val, gS_eq] <;> first | (simp [h]; done) | simp_all

theorem sltu (d : GReg) (a : GSrc) (b : GSrc) : Statement (.sltu d a b) := by
  intro h
  simp only [Instr.wf] at h
  have : a.r.val < 64 := a.r.isLt
  have : a.t.toNat < 2 := toNat_bool_lt _
  have : b.r.val < 64 := b.r.isLt
  have : b.t.toNat < 2 := toNat_bool_lt _
  have : d.val < 64 := d.isLt
  refine round_trip (i := .sltu d a b) (op := 0x16) (fm := .R) (r := { d := d.val, a := a.r.val, ta := a.t.toNat, b := b.r.val, tb := b.t.toNat, f := 1 }) rfl (by decide) rfl ?_ ?_
  · simp only [Raw.Fits]; first | omega | (simp; done) | (simp; omega)
  · simp only [Raw.only]
    show dec16 _ = _
    simp only [dec16, chk, gR_val, gS_eq] <;> first | (simp [h]; done) | simp_all

theorem seq (d : GReg) (a : GSrc) (b : GSrc) : Statement (.seq d a b) := by
  intro h
  simp only [Instr.wf] at h
  have : a.r.val < 64 := a.r.isLt
  have : a.t.toNat < 2 := toNat_bool_lt _
  have : b.r.val < 64 := b.r.isLt
  have : b.t.toNat < 2 := toNat_bool_lt _
  have : d.val < 64 := d.isLt
  refine round_trip (i := .seq d a b) (op := 0x16) (fm := .R) (r := { d := d.val, a := a.r.val, ta := a.t.toNat, b := b.r.val, tb := b.t.toNat, f := 2 }) rfl (by decide) rfl ?_ ?_
  · simp only [Raw.Fits]; first | omega | (simp; done) | (simp; omega)
  · simp only [Raw.only]
    show dec16 _ = _
    simp only [dec16, chk, gR_val, gS_eq] <;> first | (simp [h]; done) | simp_all

theorem sne (d : GReg) (a : GSrc) (b : GSrc) : Statement (.sne d a b) := by
  intro h
  simp only [Instr.wf] at h
  have : a.r.val < 64 := a.r.isLt
  have : a.t.toNat < 2 := toNat_bool_lt _
  have : b.r.val < 64 := b.r.isLt
  have : b.t.toNat < 2 := toNat_bool_lt _
  have : d.val < 64 := d.isLt
  refine round_trip (i := .sne d a b) (op := 0x16) (fm := .R) (r := { d := d.val, a := a.r.val, ta := a.t.toNat, b := b.r.val, tb := b.t.toNat, f := 3 }) rfl (by decide) rfl ?_ ?_
  · simp only [Raw.Fits]; first | omega | (simp; done) | (simp; omega)
  · simp only [Raw.only]
    show dec16 _ = _
    simp only [dec16, chk, gR_val, gS_eq] <;> first | (simp [h]; done) | simp_all

theorem clz (d : GReg) (a : GSrc) : Statement (.clz d a) := by
  intro h
  simp only [Instr.wf] at h
  have : a.r.val < 64 := a.r.isLt
  have : a.t.toNat < 2 := toNat_bool_lt _
  have : d.val < 64 := d.isLt
  refine round_trip (i := .clz d a) (op := 0x17) (fm := .R) (r := { d := d.val, a := a.r.val, ta := a.t.toNat }) rfl (by decide) rfl ?_ ?_
  · simp only [Raw.Fits]; first | omega | (simp; done) | (simp; omega)
  · simp only [Raw.only]
    show dec17 _ = _
    simp only [dec17, chk, gR_val, gS_eq] <;> first | (simp [h]; done) | simp_all

theorem ctz (d : GReg) (a : GSrc) : Statement (.ctz d a) := by
  intro h
  simp only [Instr.wf] at h
  have : a.r.val < 64 := a.r.isLt
  have : a.t.toNat < 2 := toNat_bool_lt _
  have : d.val < 64 := d.isLt
  refine round_trip (i := .ctz d a) (op := 0x17) (fm := .R) (r := { d := d.val, a := a.r.val, ta := a.t.toNat, f := 1 }) rfl (by decide) rfl ?_ ?_
  · simp only [Raw.Fits]; first | omega | (simp; done) | (simp; omega)
  · simp only [Raw.only]
    show dec17 _ = _
    simp only [dec17, chk, gR_val, gS_eq] <;> first | (simp [h]; done) | simp_all

theorem popc (d : GReg) (a : GSrc) : Statement (.popc d a) := by
  intro h
  simp only [Instr.wf] at h
  have : a.r.val < 64 := a.r.isLt
  have : a.t.toNat < 2 := toNat_bool_lt _
  have : d.val < 64 := d.isLt
  refine round_trip (i := .popc d a) (op := 0x17) (fm := .R) (r := { d := d.val, a := a.r.val, ta := a.t.toNat, f := 2 }) rfl (by decide) rfl ?_ ?_
  · simp only [Raw.Fits]; first | omega | (simp; done) | (simp; omega)
  · simp only [Raw.only]
    show dec17 _ = _
    simp only [dec17, chk, gR_val, gS_eq] <;> first | (simp [h]; done) | simp_all

theorem brev (d : GReg) (a : GSrc) : Statement (.brev d a) := by
  intro h
  simp only [Instr.wf] at h
  have : a.r.val < 64 := a.r.isLt
  have : a.t.toNat < 2 := toNat_bool_lt _
  have : d.val < 64 := d.isLt
  refine round_trip (i := .brev d a) (op := 0x17) (fm := .R) (r := { d := d.val, a := a.r.val, ta := a.t.toNat, f := 3 }) rfl (by decide) rfl ?_ ?_
  · simp only [Raw.Fits]; first | omega | (simp; done) | (simp; omega)
  · simp only [Raw.only]
    show dec17 _ = _
    simp only [dec17, chk, gR_val, gS_eq] <;> first | (simp [h]; done) | simp_all

theorem sextB (d : GReg) (a : GSrc) : Statement (.sextB d a) := by
  intro h
  simp only [Instr.wf] at h
  have : a.r.val < 64 := a.r.isLt
  have : a.t.toNat < 2 := toNat_bool_lt _
  have : d.val < 64 := d.isLt
  refine round_trip (i := .sextB d a) (op := 0x18) (fm := .R) (r := { d := d.val, a := a.r.val, ta := a.t.toNat }) rfl (by decide) rfl ?_ ?_
  · simp only [Raw.Fits]; first | omega | (simp; done) | (simp; omega)
  · simp only [Raw.only]
    show dec18 _ = _
    simp only [dec18, chk, gR_val, gS_eq] <;> first | (simp [h]; done) | simp_all

theorem sextH (d : GReg) (a : GSrc) : Statement (.sextH d a) := by
  intro h
  simp only [Instr.wf] at h
  have : a.r.val < 64 := a.r.isLt
  have : a.t.toNat < 2 := toNat_bool_lt _
  have : d.val < 64 := d.isLt
  refine round_trip (i := .sextH d a) (op := 0x18) (fm := .R) (r := { d := d.val, a := a.r.val, ta := a.t.toNat, f := 1 }) rfl (by decide) rfl ?_ ?_
  · simp only [Raw.Fits]; first | omega | (simp; done) | (simp; omega)
  · simp only [Raw.only]
    show dec18 _ = _
    simp only [dec18, chk, gR_val, gS_eq] <;> first | (simp [h]; done) | simp_all

theorem sextW (d : GReg) (a : GSrc) : Statement (.sextW d a) := by
  intro h
  simp only [Instr.wf] at h
  have : a.r.val < 64 := a.r.isLt
  have : a.t.toNat < 2 := toNat_bool_lt _
  have : d.val < 64 := d.isLt
  refine round_trip (i := .sextW d a) (op := 0x18) (fm := .R) (r := { d := d.val, a := a.r.val, ta := a.t.toNat, f := 2 }) rfl (by decide) rfl ?_ ?_
  · simp only [Raw.Fits]; first | omega | (simp; done) | (simp; omega)
  · simp only [Raw.only]
    show dec18 _ = _
    simp only [dec18, chk, gR_val, gS_eq] <;> first | (simp [h]; done) | simp_all

theorem bswap (d : GReg) (a : GSrc) : Statement (.bswap d a) := by
  intro h
  simp only [Instr.wf] at h
  have : a.r.val < 64 := a.r.isLt
  have : a.t.toNat < 2 := toNat_bool_lt _
  have : d.val < 64 := d.isLt
  refine round_trip (i := .bswap d a) (op := 0x18) (fm := .R) (r := { d := d.val, a := a.r.val, ta := a.t.toNat, f := 3 }) rfl (by decide) rfl ?_ ?_
  · simp only [Raw.Fits]; first | omega | (simp; done) | (simp; omega)
  · simp only [Raw.only]
    show dec18 _ = _
    simp only [dec18, chk, gR_val, gS_eq] <;> first | (simp [h]; done) | simp_all

theorem abs (d : GReg) (a : GSrc) : Statement (.abs d a) := by
  intro h
  simp only [Instr.wf] at h
  have : a.r.val < 64 := a.r.isLt
  have : a.t.toNat < 2 := toNat_bool_lt _
  have : d.val < 64 := d.isLt
  refine round_trip (i := .abs d a) (op := 0x24) (fm := .R) (r := { d := d.val, a := a.r.val, ta := a.t.toNat }) rfl (by decide) rfl ?_ ?_
  · simp only [Raw.Fits]; first | omega | (simp; done) | (simp; omega)
  · simp only [Raw.only]
    show dec24 _ = _
    simp only [dec24, chk, gR_val, gS_eq] <;> first | (simp [h]; done) | simp_all

theorem neg (d : GReg) (a : GSrc) : Statement (.neg d a) := by
  intro h
  simp only [Instr.wf] at h
  have : a.r.val < 64 := a.r.isLt
  have : a.t.toNat < 2 := toNat_bool_lt _
  have : d.val < 64 := d.isLt
  refine round_trip (i := .neg d a) (op := 0x24) (fm := .R) (r := { d := d.val, a := a.r.val, ta := a.t.toNat, f := 1 }) rfl (by decide) rfl ?_ ?_
  · simp only [Raw.Fits]; first | omega | (simp; done) | (simp; omega)
  · simp only [Raw.only]
    show dec24 _ = _
    simp only [dec24, chk, gR_val, gS_eq] <;> first | (simp [h]; done) | simp_all

theorem addi (d : GReg) (a : GSrc) (imm : BitVec 20) : Statement (.addi d a imm) := by
  intro h
  simp only [Instr.wf] at h
  have : a.r.val < 64 := a.r.isLt
  have : a.t.toNat < 2 := toNat_bool_lt _
  have : d.val < 64 := d.isLt
  have : imm.toNat < 1048576 := imm.isLt
  have e0 : bits (imm.toNat) 0 20 = imm.toNat := by simp only [bits]; omega
  refine round_trip (i := .addi d a imm) (op := 0x19) (fm := .I) (r := { d := d.val, a := a.r.val, ta := a.t.toNat, imm := imm.toNat }) rfl (by decide) rfl ?_ ?_
  · simp only [Raw.Fits]; first | omega | (simp; done) | (simp; omega)
  · simp only [Raw.only]
    show dec19 _ = _
    simp only [dec19, chk, e0, gR_val, gS_eq, ofNat_toNat] <;> first | (simp [h]; done) | simp_all

theorem andi (d : GReg) (a : GSrc) (imm : BitVec 20) : Statement (.andi d a imm) := by
  intro h
  simp only [Instr.wf] at h
  have : a.r.val < 64 := a.r.isLt
  have : a.t.toNat < 2 := toNat_bool_lt _
  have : d.val < 64 := d.isLt
  have : imm.toNat < 1048576 := imm.isLt
  have e0 : bits (imm.toNat) 0 20 = imm.toNat := by simp only [bits]; omega
  refine round_trip (i := .andi d a imm) (op := 0x1A) (fm := .I) (r := { d := d.val, a := a.r.val, ta := a.t.toNat, imm := imm.toNat }) rfl (by decide) rfl ?_ ?_
  · simp only [Raw.Fits]; first | omega | (simp; done) | (simp; omega)
  · simp only [Raw.only]
    show dec1A _ = _
    simp only [dec1A, chk, e0, gR_val, gS_eq, ofNat_toNat] <;> first | (simp [h]; done) | simp_all

theorem ori (d : GReg) (a : GSrc) (imm : BitVec 20) : Statement (.ori d a imm) := by
  intro h
  simp only [Instr.wf] at h
  have : a.r.val < 64 := a.r.isLt
  have : a.t.toNat < 2 := toNat_bool_lt _
  have : d.val < 64 := d.isLt
  have : imm.toNat < 1048576 := imm.isLt
  have e0 : bits (imm.toNat) 0 20 = imm.toNat := by simp only [bits]; omega
  refine round_trip (i := .ori d a imm) (op := 0x1A) (fm := .I) (r := { d := d.val, a := a.r.val, ta := a.t.toNat, f := 1, imm := imm.toNat }) rfl (by decide) rfl ?_ ?_
  · simp only [Raw.Fits]; first | omega | (simp; done) | (simp; omega)
  · simp only [Raw.only]
    show dec1A _ = _
    simp only [dec1A, chk, e0, gR_val, gS_eq, ofNat_toNat] <;> first | (simp [h]; done) | simp_all

theorem xori (d : GReg) (a : GSrc) (imm : BitVec 20) : Statement (.xori d a imm) := by
  intro h
  simp only [Instr.wf] at h
  have : a.r.val < 64 := a.r.isLt
  have : a.t.toNat < 2 := toNat_bool_lt _
  have : d.val < 64 := d.isLt
  have : imm.toNat < 1048576 := imm.isLt
  have e0 : bits (imm.toNat) 0 20 = imm.toNat := by simp only [bits]; omega
  refine round_trip (i := .xori d a imm) (op := 0x1A) (fm := .I) (r := { d := d.val, a := a.r.val, ta := a.t.toNat, f := 2, imm := imm.toNat }) rfl (by decide) rfl ?_ ?_
  · simp only [Raw.Fits]; first | omega | (simp; done) | (simp; omega)
  · simp only [Raw.only]
    show dec1A _ = _
    simp only [dec1A, chk, e0, gR_val, gS_eq, ofNat_toNat] <;> first | (simp [h]; done) | simp_all

theorem shli (d : GReg) (a : GSrc) (sh : BitVec 6) : Statement (.shli d a sh) := by
  intro h
  simp only [Instr.wf] at h
  have : a.r.val < 64 := a.r.isLt
  have : a.t.toNat < 2 := toNat_bool_lt _
  have : d.val < 64 := d.isLt
  have : sh.toNat < 64 := sh.isLt
  have e1 : bits (sh.toNat) 0 6 = sh.toNat := by simp only [bits]; omega
  have e2 : bits (sh.toNat) 6 14 = 0 := by simp only [bits]; omega
  refine round_trip (i := .shli d a sh) (op := 0x1B) (fm := .I) (r := { d := d.val, a := a.r.val, ta := a.t.toNat, imm := sh.toNat }) rfl (by decide) rfl ?_ ?_
  · simp only [Raw.Fits]; first | omega | (simp; done) | (simp; omega)
  · simp only [Raw.only]
    show dec1B _ = _
    simp only [dec1B, chk, bits_zero, e1, e2, gR_val, gS_eq, ofNat_toNat] <;> first | (simp [h]; done) | simp_all

theorem shri (d : GReg) (a : GSrc) (sh : BitVec 6) : Statement (.shri d a sh) := by
  intro h
  simp only [Instr.wf] at h
  have : a.r.val < 64 := a.r.isLt
  have : a.t.toNat < 2 := toNat_bool_lt _
  have : d.val < 64 := d.isLt
  have : sh.toNat < 64 := sh.isLt
  have e0 : bits (1) 0 5 = 1 := by simp only [bits]; omega
  have e1 : bits (sh.toNat) 0 6 = sh.toNat := by simp only [bits]; omega
  have e2 : bits (sh.toNat) 6 14 = 0 := by simp only [bits]; omega
  refine round_trip (i := .shri d a sh) (op := 0x1B) (fm := .I) (r := { d := d.val, a := a.r.val, ta := a.t.toNat, f := 1, imm := sh.toNat }) rfl (by decide) rfl ?_ ?_
  · simp only [Raw.Fits]; first | omega | (simp; done) | (simp; omega)
  · simp only [Raw.only]
    show dec1B _ = _
    simp only [dec1B, chk, e0, e1, e2, gR_val, gS_eq, ofNat_toNat] <;> first | (simp [h]; done) | simp_all

theorem srai (d : GReg) (a : GSrc) (sh : BitVec 6) : Statement (.srai d a sh) := by
  intro h
  simp only [Instr.wf] at h
  have : a.r.val < 64 := a.r.isLt
  have : a.t.toNat < 2 := toNat_bool_lt _
  have : d.val < 64 := d.isLt
  have : sh.toNat < 64 := sh.isLt
  have e0 : bits (2) 0 5 = 2 := by simp only [bits]; omega
  have e1 : bits (sh.toNat) 0 6 = sh.toNat := by simp only [bits]; omega
  have e2 : bits (sh.toNat) 6 14 = 0 := by simp only [bits]; omega
  refine round_trip (i := .srai d a sh) (op := 0x1B) (fm := .I) (r := { d := d.val, a := a.r.val, ta := a.t.toNat, f := 2, imm := sh.toNat }) rfl (by decide) rfl ?_ ?_
  · simp only [Raw.Fits]; first | omega | (simp; done) | (simp; omega)
  · simp only [Raw.only]
    show dec1B _ = _
    simp only [dec1B, chk, e0, e1, e2, gR_val, gS_eq, ofNat_toNat] <;> first | (simp [h]; done) | simp_all

theorem roli (d : GReg) (a : GSrc) (sh : BitVec 6) : Statement (.roli d a sh) := by
  intro h
  simp only [Instr.wf] at h
  have : a.r.val < 64 := a.r.isLt
  have : a.t.toNat < 2 := toNat_bool_lt _
  have : d.val < 64 := d.isLt
  have : sh.toNat < 64 := sh.isLt
  have e0 : bits (3) 0 5 = 3 := by simp only [bits]; omega
  have e1 : bits (sh.toNat) 0 6 = sh.toNat := by simp only [bits]; omega
  have e2 : bits (sh.toNat) 6 14 = 0 := by simp only [bits]; omega
  refine round_trip (i := .roli d a sh) (op := 0x1B) (fm := .I) (r := { d := d.val, a := a.r.val, ta := a.t.toNat, f := 3, imm := sh.toNat }) rfl (by decide) rfl ?_ ?_
  · simp only [Raw.Fits]; first | omega | (simp; done) | (simp; omega)
  · simp only [Raw.only]
    show dec1B _ = _
    simp only [dec1B, chk, e0, e1, e2, gR_val, gS_eq, ofNat_toNat] <;> first | (simp [h]; done) | simp_all

theorem slti (d : GReg) (a : GSrc) (imm : BitVec 20) : Statement (.slti d a imm) := by
  intro h
  simp only [Instr.wf] at h
  have : a.r.val < 64 := a.r.isLt
  have : a.t.toNat < 2 := toNat_bool_lt _
  have : d.val < 64 := d.isLt
  have : imm.toNat < 1048576 := imm.isLt
  have e0 : bits (imm.toNat) 0 20 = imm.toNat := by simp only [bits]; omega
  refine round_trip (i := .slti d a imm) (op := 0x1C) (fm := .I) (r := { d := d.val, a := a.r.val, ta := a.t.toNat, imm := imm.toNat }) rfl (by decide) rfl ?_ ?_
  · simp only [Raw.Fits]; first | omega | (simp; done) | (simp; omega)
  · simp only [Raw.only]
    show dec1C _ = _
    simp only [dec1C, chk, e0, gR_val, gS_eq, ofNat_toNat] <;> first | (simp [h]; done) | simp_all

theorem sltiu (d : GReg) (a : GSrc) (imm : BitVec 20) : Statement (.sltiu d a imm) := by
  intro h
  simp only [Instr.wf] at h
  have : a.r.val < 64 := a.r.isLt
  have : a.t.toNat < 2 := toNat_bool_lt _
  have : d.val < 64 := d.isLt
  have : imm.toNat < 1048576 := imm.isLt
  have e0 : bits (imm.toNat) 0 20 = imm.toNat := by simp only [bits]; omega
  refine round_trip (i := .sltiu d a imm) (op := 0x1C) (fm := .I) (r := { d := d.val, a := a.r.val, ta := a.t.toNat, f := 1, imm := imm.toNat }) rfl (by decide) rfl ?_ ?_
  · simp only [Raw.Fits]; first | omega | (simp; done) | (simp; omega)
  · simp only [Raw.only]
    show dec1C _ = _
    simp only [dec1C, chk, e0, gR_val, gS_eq, ofNat_toNat] <;> first | (simp [h]; done) | simp_all

theorem li (d : GReg) (imm : BitVec 32) : Statement (.li d imm) := by
  intro h
  simp only [Instr.wf] at h
  have : d.val < 64 := d.isLt
  have : imm.toNat < 4294967296 := imm.isLt
  have e0 : bits (imm.toNat) 0 32 = imm.toNat := by simp only [bits]; omega
  refine round_trip (i := .li d imm) (op := 0x1D) (fm := .L) (r := { d := d.val, imm := imm.toNat }) rfl (by decide) rfl ?_ ?_
  · simp only [Raw.Fits]; first | omega | (simp; done) | (simp; omega)
  · simp only [Raw.only]
    show dec1D _ = _
    simp only [dec1D, chk, e0, gR_val, ofNat_toNat] <;> first | (simp [h]; done) | simp_all

theorem lih (d : GReg) (imm : BitVec 32) : Statement (.lih d imm) := by
  intro h
  simp only [Instr.wf] at h
  have : d.val < 64 := d.isLt
  have : imm.toNat < 4294967296 := imm.isLt
  have e0 : bits (imm.toNat) 0 32 = imm.toNat := by simp only [bits]; omega
  refine round_trip (i := .lih d imm) (op := 0x1E) (fm := .L) (r := { d := d.val, imm := imm.toNat }) rfl (by decide) rfl ?_ ?_
  · simp only [Raw.Fits]; first | omega | (simp; done) | (simp; omega)
  · simp only [Raw.only]
    show dec1E _ = _
    simp only [dec1E, chk, e0, gR_val, ofNat_toNat] <;> first | (simp [h]; done) | simp_all

theorem addpc (d : GReg) (imm : BitVec 20) : Statement (.addpc d imm) := by
  intro h
  simp only [Instr.wf] at h
  have : d.val < 64 := d.isLt
  have : imm.toNat < 1048576 := imm.isLt
  have e0 : bits (imm.toNat) 0 20 = imm.toNat := by simp only [bits]; omega
  refine round_trip (i := .addpc d imm) (op := 0x1F) (fm := .I) (r := { d := d.val, imm := imm.toNat }) rfl (by decide) rfl ?_ ?_
  · simp only [Raw.Fits]; first | omega | (simp; done) | (simp; omega)
  · simp only [Raw.only]
    show dec1F _ = _
    simp only [dec1F, chk, e0, gR_val, ofNat_toNat] <;> first | (simp [h]; done) | simp_all

theorem bfx (d : GReg) (a : GSrc) (len : BitVec 6) (pos : BitVec 6) : Statement (.bfx d a len pos) := by
  intro h
  simp only [Instr.wf] at h
  have : a.r.val < 64 := a.r.isLt
  have : a.t.toNat < 2 := toNat_bool_lt _
  have : d.val < 64 := d.isLt
  have : len.toNat < 64 := len.isLt
  have : pos.toNat < 64 := pos.isLt
  have e0 : bits (len.toNat + pos.toNat * 2 ^ 6) 0 6 = len.toNat := by simp only [bits]; omega
  have e1 : bits (len.toNat + pos.toNat * 2 ^ 6) 6 6 = pos.toNat := by simp only [bits]; omega
  have e2 : bits (len.toNat + pos.toNat * 2 ^ 6) 12 8 = 0 := by simp only [bits]; omega
  refine round_trip (i := .bfx d a len pos) (op := 0x20) (fm := .I) (r := { d := d.val, a := a.r.val, ta := a.t.toNat, imm := len.toNat + pos.toNat * 2 ^ 6 }) rfl (by decide) rfl ?_ ?_
  · simp only [Raw.Fits]; first | omega | (simp; done) | (simp; omega)
  · simp only [Raw.only]
    show dec20 _ = _
    simp only [dec20, chk, e0, e1, e2, gR_val, gS_eq, ofNat_toNat] <;> first | (simp [h]; done) | simp_all

theorem bfxu (d : GReg) (a : GSrc) (len : BitVec 6) (pos : BitVec 6) : Statement (.bfxu d a len pos) := by
  intro h
  simp only [Instr.wf] at h
  have : a.r.val < 64 := a.r.isLt
  have : a.t.toNat < 2 := toNat_bool_lt _
  have : d.val < 64 := d.isLt
  have : len.toNat < 64 := len.isLt
  have : pos.toNat < 64 := pos.isLt
  have e0 : bits (len.toNat + pos.toNat * 2 ^ 6) 0 6 = len.toNat := by simp only [bits]; omega
  have e1 : bits (len.toNat + pos.toNat * 2 ^ 6) 6 6 = pos.toNat := by simp only [bits]; omega
  have e2 : bits (len.toNat + pos.toNat * 2 ^ 6) 12 8 = 0 := by simp only [bits]; omega
  refine round_trip (i := .bfxu d a len pos) (op := 0x20) (fm := .I) (r := { d := d.val, a := a.r.val, ta := a.t.toNat, f := 1, imm := len.toNat + pos.toNat * 2 ^ 6 }) rfl (by decide) rfl ?_ ?_
  · simp only [Raw.Fits]; first | omega | (simp; done) | (simp; omega)
  · simp only [Raw.only]
    show dec20 _ = _
    simp only [dec20, chk, e0, e1, e2, gR_val, gS_eq, ofNat_toNat] <;> first | (simp [h]; done) | simp_all

theorem bfi (d : GReg) (a : GSrc) (len : BitVec 6) (pos : BitVec 6) : Statement (.bfi d a len pos) := by
  intro h
  simp only [Instr.wf] at h
  have : a.r.val < 64 := a.r.isLt
  have : a.t.toNat < 2 := toNat_bool_lt _
  have : d.val < 64 := d.isLt
  have : len.toNat < 64 := len.isLt
  have : pos.toNat < 64 := pos.isLt
  have e0 : bits (len.toNat + pos.toNat * 2 ^ 6) 0 6 = len.toNat := by simp only [bits]; omega
  have e1 : bits (len.toNat + pos.toNat * 2 ^ 6) 6 6 = pos.toNat := by simp only [bits]; omega
  have e2 : bits (len.toNat + pos.toNat * 2 ^ 6) 12 8 = 0 := by simp only [bits]; omega
  refine round_trip (i := .bfi d a len pos) (op := 0x21) (fm := .I) (r := { d := d.val, a := a.r.val, ta := a.t.toNat, imm := len.toNat + pos.toNat * 2 ^ 6 }) rfl (by decide) rfl ?_ ?_
  · simp only [Raw.Fits]; first | omega | (simp; done) | (simp; omega)
  · simp only [Raw.only]
    show dec21 _ = _
    simp only [dec21, chk, e0, e1, e2, gR_val, gS_eq, ofNat_toNat] <;> first | (simp [h]; done) | simp_all

theorem cmov (d : GReg) (a : GSrc) (b : GSrc) (c : GSrc) : Statement (.cmov d a b c) := by
  intro h
  simp only [Instr.wf] at h
  have : a.r.val < 64 := a.r.isLt
  have : a.t.toNat < 2 := toNat_bool_lt _
  have : b.r.val < 64 := b.r.isLt
  have : b.t.toNat < 2 := toNat_bool_lt _
  have : c.r.val < 64 := c.r.isLt
  have : c.t.toNat < 2 := toNat_bool_lt _
  have : d.val < 64 := d.isLt
  refine round_trip (i := .cmov d a b c) (op := 0x22) (fm := .X) (r := { d := d.val, a := a.r.val, ta := a.t.toNat, b := b.r.val, tb := b.t.toNat, c := c.r.val, tc := c.t.toNat }) rfl (by decide) rfl ?_ ?_
  · simp only [Raw.Fits]; first | omega | (simp; done) | (simp; omega)
  · simp only [Raw.only]
    show dec22 _ = _
    simp only [dec22, chk, bits_zero, gR_val, gS_eq] <;> first | (simp [h]; done) | simp_all

theorem madd (d : GReg) (a : GSrc) (b : GSrc) (c : GSrc) : Statement (.madd d a b c) := by
  intro h
  simp only [Instr.wf] at h
  have : a.r.val < 64 := a.r.isLt
  have : a.t.toNat < 2 := toNat_bool_lt _
  have : b.r.val < 64 := b.r.isLt
  have : b.t.toNat < 2 := toNat_bool_lt _
  have : c.r.val < 64 := c.r.isLt
  have : c.t.toNat < 2 := toNat_bool_lt _
  have : d.val < 64 := d.isLt
  refine round_trip (i := .madd d a b c) (op := 0x23) (fm := .X) (r := { d := d.val, a := a.r.val, ta := a.t.toNat, b := b.r.val, tb := b.t.toNat, c := c.r.val, tc := c.t.toNat }) rfl (by decide) rfl ?_ ?_
  · simp only [Raw.Fits]; first | omega | (simp; done) | (simp; omega)
  · simp only [Raw.only]
    show dec23 _ = _
    simp only [dec23, chk, bits_zero, gR_val, gS_eq] <;> first | (simp [h]; done) | simp_all

theorem ld (d : GReg) (a : GSrc) (sz : Size) (u : Bool) (acq : Bool) (disp : BitVec 20) : Statement (.ld d a sz u acq disp) := by
  intro h
  simp only [Instr.wf] at h
  have : a.r.val < 64 := a.r.isLt
  have : a.t.toNat < 2 := toNat_bool_lt _
  have : acq.toNat < 2 := toNat_bool_lt _
  have : d.val < 64 := d.isLt
  have : disp.toNat < 1048576 := disp.isLt
  have : sz.code < 4 := code_lt_Size _
  have : u.toNat < 2 := toNat_bool_lt _
  have e0 : bits (sz.code + u.toNat * 2 ^ 2 + acq.toNat * 2 ^ 3) 0 2 = sz.code := by simp only [bits]; omega
  have e1 : bits (sz.code + u.toNat * 2 ^ 2 + acq.toNat * 2 ^ 3) 2 1 = u.toNat := by simp only [bits]; omega
  have e2 : bits (sz.code + u.toNat * 2 ^ 2 + acq.toNat * 2 ^ 3) 3 1 = acq.toNat := by simp only [bits]; omega
  have e3 : bits (sz.code + u.toNat * 2 ^ 2 + acq.toNat * 2 ^ 3) 4 1 = 0 := by simp only [bits]; omega
  have e4 : bits (disp.toNat) 0 20 = disp.toNat := by simp only [bits]; omega
  refine round_trip (i := .ld d a sz u acq disp) (op := 0x30) (fm := .I) (r := { d := d.val, a := a.r.val, ta := a.t.toNat, f := sz.code + u.toNat * 2 ^ 2 + acq.toNat * 2 ^ 3, imm := disp.toNat }) rfl (by decide) rfl ?_ ?_
  · simp only [Raw.Fits]; first | omega | (simp; done) | (simp; omega)
  · simp only [Raw.only]
    show dec30 _ = _
    simp only [dec30, chk, e0, e1, e2, e3, e4, gR_val, gS_eq, ofCode_Size, bool_beq, ofNat_toNat] <;> first | (simp [h]; done) | (cases sz <;> simp_all [Size.code])

theorem st (d : GReg) (a : GSrc) (sz : Size) (rel : Bool) (disp : BitVec 20) : Statement (.st d a sz rel disp) := by
  intro h
  simp only [Instr.wf] at h
  have : a.r.val < 64 := a.r.isLt
  have : a.t.toNat < 2 := toNat_bool_lt _
  have : d.val < 64 := d.isLt
  have : disp.toNat < 1048576 := disp.isLt
  have : rel.toNat < 2 := toNat_bool_lt _
  have : sz.code < 4 := code_lt_Size _
  have e0 : bits (sz.code + rel.toNat * 2 ^ 3) 0 2 = sz.code := by simp only [bits]; omega
  have e1 : bits (sz.code + rel.toNat * 2 ^ 3) 2 1 = 0 := by simp only [bits]; omega
  have e2 : bits (sz.code + rel.toNat * 2 ^ 3) 3 1 = rel.toNat := by simp only [bits]; omega
  have e3 : bits (sz.code + rel.toNat * 2 ^ 3) 4 1 = 0 := by simp only [bits]; omega
  have e4 : bits (disp.toNat) 0 20 = disp.toNat := by simp only [bits]; omega
  refine round_trip (i := .st d a sz rel disp) (op := 0x31) (fm := .I) (r := { d := d.val, a := a.r.val, ta := a.t.toNat, f := sz.code + rel.toNat * 2 ^ 3, imm := disp.toNat }) rfl (by decide) rfl ?_ ?_
  · simp only [Raw.Fits]; first | omega | (simp; done) | (simp; omega)
  · simp only [Raw.only]
    show dec31 _ = _
    simp only [dec31, chk, e0, e1, e2, e3, e4, gR_val, gS_eq, ofCode_Size, bool_beq, ofNat_toNat] <;> first | (simp [h]; done) | simp_all

theorem ldx (d : GReg) (a : GSrc) (b : GSrc) (sh : BitVec 3) (sz : Size) (u : Bool) (acq : Bool) : Statement (.ldx d a b sh sz u acq) := by
  intro h
  simp only [Instr.wf] at h
  have : a.r.val < 64 := a.r.isLt
  have : a.t.toNat < 2 := toNat_bool_lt _
  have : acq.toNat < 2 := toNat_bool_lt _
  have : b.r.val < 64 := b.r.isLt
  have : b.t.toNat < 2 := toNat_bool_lt _
  have : d.val < 64 := d.isLt
  have : sh.toNat < 8 := sh.isLt
  have : sz.code < 4 := code_lt_Size _
  have : u.toNat < 2 := toNat_bool_lt _
  have e0 : bits (sh.toNat + sz.code * 2 ^ 3 + u.toNat * 2 ^ 5 + acq.toNat * 2 ^ 6) 0 3 = sh.toNat := by simp only [bits]; omega
  have e1 : bits (sh.toNat + sz.code * 2 ^ 3 + u.toNat * 2 ^ 5 + acq.toNat * 2 ^ 6) 3 2 = sz.code := by simp only [bits]; omega
  have e2 : bits (sh.toNat + sz.code * 2 ^ 3 + u.toNat * 2 ^ 5 + acq.toNat * 2 ^ 6) 5 1 = u.toNat := by simp only [bits]; omega
  have e3 : bits (sh.toNat + sz.code * 2 ^ 3 + u.toNat * 2 ^ 5 + acq.toNat * 2 ^ 6) 6 1 = acq.toNat := by simp only [bits]; omega
  have e4 : bits (sh.toNat + sz.code * 2 ^ 3 + u.toNat * 2 ^ 5 + acq.toNat * 2 ^ 6) 7 1 = 0 := by simp only [bits]; omega
  have e5 : bits (sh.toNat + sz.code * 2 ^ 3 + u.toNat * 2 ^ 5 + acq.toNat * 2 ^ 6) 8 3 = 0 := by simp only [bits]; omega
  refine round_trip (i := .ldx d a b sh sz u acq) (op := 0x32) (fm := .X) (r := { d := d.val, a := a.r.val, ta := a.t.toNat, b := b.r.val, tb := b.t.toNat, f := sh.toNat + sz.code * 2 ^ 3 + u.toNat * 2 ^ 5 + acq.toNat * 2 ^ 6 }) rfl (by decide) rfl ?_ ?_
  · simp only [Raw.Fits]; first | omega | (simp; done) | (simp; omega)
  · simp only [Raw.only]
    show dec32 _ = _
    simp only [dec32, chk, e0, e1, e2, e3, e4, e5, gR_val, gS_eq, ofNat_toNat, ofCode_Size, bool_beq] <;> first | (simp [h]; done) | (cases sz <;> simp_all [Size.code])

theorem stx (d : GReg) (a : GSrc) (b : GSrc) (sh : BitVec 3) (sz : Size) (rel : Bool) : Statement (.stx d a b sh sz rel) := by
  intro h
  simp only [Instr.wf] at h
  have : a.r.val < 64 := a.r.isLt
  have : a.t.toNat < 2 := toNat_bool_lt _
  have : b.r.val < 64 := b.r.isLt
  have : b.t.toNat < 2 := toNat_bool_lt _
  have : d.val < 64 := d.isLt
  have : rel.toNat < 2 := toNat_bool_lt _
  have : sh.toNat < 8 := sh.isLt
  have : sz.code < 4 := code_lt_Size _
  have e0 : bits (sh.toNat + sz.code * 2 ^ 3 + rel.toNat * 2 ^ 6 + 1 * 2 ^ 8) 0 3 = sh.toNat := by simp only [bits]; omega
  have e1 : bits (sh.toNat + sz.code * 2 ^ 3 + rel.toNat * 2 ^ 6 + 1 * 2 ^ 8) 3 2 = sz.code := by simp only [bits]; omega
  have e2 : bits (sh.toNat + sz.code * 2 ^ 3 + rel.toNat * 2 ^ 6 + 1 * 2 ^ 8) 5 1 = 0 := by simp only [bits]; omega
  have e3 : bits (sh.toNat + sz.code * 2 ^ 3 + rel.toNat * 2 ^ 6 + 1 * 2 ^ 8) 6 1 = rel.toNat := by simp only [bits]; omega
  have e4 : bits (sh.toNat + sz.code * 2 ^ 3 + rel.toNat * 2 ^ 6 + 1 * 2 ^ 8) 7 1 = 0 := by simp only [bits]; omega
  have e5 : bits (sh.toNat + sz.code * 2 ^ 3 + rel.toNat * 2 ^ 6 + 1 * 2 ^ 8) 8 3 = 1 := by simp only [bits]; omega
  refine round_trip (i := .stx d a b sh sz rel) (op := 0x32) (fm := .X) (r := { d := d.val, a := a.r.val, ta := a.t.toNat, b := b.r.val, tb := b.t.toNat, f := sh.toNat + sz.code * 2 ^ 3 + rel.toNat * 2 ^ 6 + 1 * 2 ^ 8 }) rfl (by decide) rfl ?_ ?_
  · simp only [Raw.Fits]; first | omega | (simp; done) | (simp; omega)
  · simp only [Raw.only]
    show dec32 _ = _
    simp only [dec32, chk, e0, e1, e2, e3, e4, e5, gR_val, gS_eq, ofNat_toNat, ofCode_Size, bool_beq] <;> first | (simp [h]; done) | simp_all

theorem ldv (d : VReg) (a : GSrc) (disp : BitVec 20) : Statement (.ldv d a disp) := by
  intro h
  simp only [Instr.wf] at h
  have : a.r.val < 64 := a.r.isLt
  have : a.t.toNat < 2 := toNat_bool_lt _
  have : d.val < 16 := d.isLt
  have : disp.toNat < 1048576 := disp.isLt
  have e0 : bits (disp.toNat) 0 20 = disp.toNat := by simp only [bits]; omega
  refine round_trip (i := .ldv d a disp) (op := 0x33) (fm := .I) (r := { d := d.val, a := a.r.val, ta := a.t.toNat, imm := disp.toNat }) rfl (by decide) rfl ?_ ?_
  · simp only [Raw.Fits]; first | omega | (simp; done) | (simp; omega)
  · simp only [Raw.only]
    show dec33 _ = _
    simp only [dec33, chk, e0, vR_val, okV_val, gS_eq, ofNat_toNat] <;> first | (simp [h]; done) | simp_all

theorem stv (d : VReg) (a : GSrc) (disp : BitVec 20) : Statement (.stv d a disp) := by
  intro h
  simp only [Instr.wf] at h
  have : a.r.val < 64 := a.r.isLt
  have : a.t.toNat < 2 := toNat_bool_lt _
  have : d.val < 16 := d.isLt
  have : disp.toNat < 1048576 := disp.isLt
  have e0 : bits (disp.toNat) 0 20 = disp.toNat := by simp only [bits]; omega
  refine round_trip (i := .stv d a disp) (op := 0x33) (fm := .I) (r := { d := d.val, a := a.r.val, ta := a.t.toNat, f := 1, imm := disp.toNat }) rfl (by decide) rfl ?_ ?_
  · simp only [Raw.Fits]; first | omega | (simp; done) | (simp; omega)
  · simp only [Raw.only]
    show dec33 _ = _
    simp only [dec33, chk, e0, vR_val, okV_val, gS_eq, ofNat_toNat] <;> first | (simp [h]; done) | simp_all

theorem ldvs (d : VReg) (a : GSrc) (b : GSrc) (pr : Option PReg) (sz : ESize) : Statement (.ldvs d a b pr sz) := by
  intro h
  simp only [Instr.wf] at h
  have : a.r.val < 64 := a.r.isLt
  have : a.t.toNat < 2 := toNat_bool_lt _
  have : b.r.val < 64 := b.r.isLt
  have : b.t.toNat < 2 := toNat_bool_lt _
  have : d.val < 16 := d.isLt
  have : oPen pr < 2 := oPen_lt _
  have : oPn pr < 8 := oPn_lt _
  have : sz.code < 4 := code_lt_ESize _
  have e0 : bits (oPn pr + sz.code * 2 ^ 6) 0 3 = oPn pr := by simp only [bits]; omega
  have e1 : bits (oPn pr + sz.code * 2 ^ 6) 3 3 = 0 := by simp only [bits]; omega
  have e2 : bits (oPn pr + sz.code * 2 ^ 6) 6 2 = sz.code := by simp only [bits]; omega
  have e3 : bits (oPn pr + sz.code * 2 ^ 6) 8 3 = 0 := by simp only [bits]; omega
  refine round_trip (i := .ldvs d a b pr sz) (op := 0x34) (fm := .X) (r := { d := d.val, a := a.r.val, ta := a.t.toNat, b := b.r.val, tb := b.t.toNat, tc := oPen pr, f := oPn pr + sz.code * 2 ^ 6 }) rfl (by decide) rfl ?_ ?_
  · simp only [Raw.Fits]; first | omega | (simp; done) | (simp; omega)
  · simp only [Raw.only]
    show dec34 _ = _
    simp only [dec34, chk, e0, e1, e2, e3, vR_val, okV_val, gS_eq, oP_eq, pen_or, ofCode_ESize, code_top_ESize] <;> first | (simp [h]; done) | simp_all

theorem stvs (d : VReg) (a : GSrc) (b : GSrc) (pr : Option PReg) (sz : ESize) : Statement (.stvs d a b pr sz) := by
  intro h
  simp only [Instr.wf] at h
  have : a.r.val < 64 := a.r.isLt
  have : a.t.toNat < 2 := toNat_bool_lt _
  have : b.r.val < 64 := b.r.isLt
  have : b.t.toNat < 2 := toNat_bool_lt _
  have : d.val < 16 := d.isLt
  have : oPen pr < 2 := oPen_lt _
  have : oPn pr < 8 := oPn_lt _
  have : sz.code < 4 := code_lt_ESize _
  have e0 : bits (oPn pr + sz.code * 2 ^ 6 + 1 * 2 ^ 8) 0 3 = oPn pr := by simp only [bits]; omega
  have e1 : bits (oPn pr + sz.code * 2 ^ 6 + 1 * 2 ^ 8) 3 3 = 0 := by simp only [bits]; omega
  have e2 : bits (oPn pr + sz.code * 2 ^ 6 + 1 * 2 ^ 8) 6 2 = sz.code := by simp only [bits]; omega
  have e3 : bits (oPn pr + sz.code * 2 ^ 6 + 1 * 2 ^ 8) 8 3 = 1 := by simp only [bits]; omega
  refine round_trip (i := .stvs d a b pr sz) (op := 0x34) (fm := .X) (r := { d := d.val, a := a.r.val, ta := a.t.toNat, b := b.r.val, tb := b.t.toNat, tc := oPen pr, f := oPn pr + sz.code * 2 ^ 6 + 1 * 2 ^ 8 }) rfl (by decide) rfl ?_ ?_
  · simp only [Raw.Fits]; first | omega | (simp; done) | (simp; omega)
  · simp only [Raw.only]
    show dec34 _ = _
    simp only [dec34, chk, e0, e1, e2, e3, vR_val, okV_val, gS_eq, oP_eq, pen_or, ofCode_ESize, code_top_ESize] <;> first | (simp [h]; done) | simp_all

theorem gath (d : VReg) (a : GSrc) (b : VSrc) (pr : Option PReg) (sc : BitVec 2) (u : Bool) (sz : ESize) : Statement (.gath d a b pr sc u sz) := by
  intro h
  simp only [Instr.wf] at h
  have : a.r.val < 64 := a.r.isLt
  have : a.t.toNat < 2 := toNat_bool_lt _
  have : b.r.val < 16 := b.r.isLt
  have : b.t.toNat < 2 := toNat_bool_lt _
  have : d.val < 16 := d.isLt
  have : oPen pr < 2 := oPen_lt _
  have : oPn pr < 8 := oPn_lt _
  have : sc.toNat < 4 := sc.isLt
  have : sz.code < 4 := code_lt_ESize _
  have : u.toNat < 2 := toNat_bool_lt _
  have e0 : bits (oPn pr + sc.toNat * 2 ^ 3 + u.toNat * 2 ^ 5 + sz.code * 2 ^ 6) 0 3 = oPn pr := by simp only [bits]; omega
  have e1 : bits (oPn pr + sc.toNat * 2 ^ 3 + u.toNat * 2 ^ 5 + sz.code * 2 ^ 6) 3 2 = sc.toNat := by simp only [bits]; omega
  have e2 : bits (oPn pr + sc.toNat * 2 ^ 3 + u.toNat * 2 ^ 5 + sz.code * 2 ^ 6) 5 1 = u.toNat := by simp only [bits]; omega
  have e3 : bits (oPn pr + sc.toNat * 2 ^ 3 + u.toNat * 2 ^ 5 + sz.code * 2 ^ 6) 6 2 = sz.code := by simp only [bits]; omega
  have e4 : bits (oPn pr + sc.toNat * 2 ^ 3 + u.toNat * 2 ^ 5 + sz.code * 2 ^ 6) 8 3 = 0 := by simp only [bits]; omega
  refine round_trip (i := .gath d a b pr sc u sz) (op := 0x35) (fm := .X) (r := { d := d.val, a := a.r.val, ta := a.t.toNat, b := b.r.val, tb := b.t.toNat, tc := oPen pr, f := oPn pr + sc.toNat * 2 ^ 3 + u.toNat * 2 ^ 5 + sz.code * 2 ^ 6 }) rfl (by decide) rfl ?_ ?_
  · simp only [Raw.Fits]; first | omega | (simp; done) | (simp; omega)
  · simp only [Raw.only]
    show dec35 _ = _
    simp only [dec35, chk, e0, e1, e2, e3, e4, vR_val, okV_val, gS_eq, vS_eq, okV_src, oP_eq, pen_or, ofNat_toNat, bool_beq, ofCode_ESize, code_top_ESize] <;> first | (simp [h]; done) | (cases sz <;> simp_all [ESize.code])

theorem scatv (d : VReg) (a : GSrc) (b : VSrc) (pr : Option PReg) (sc : BitVec 2) (sz : ESize) : Statement (.scatv d a b pr sc sz) := by
  intro h
  simp only [Instr.wf] at h
  have : a.r.val < 64 := a.r.isLt
  have : a.t.toNat < 2 := toNat_bool_lt _
  have : b.r.val < 16 := b.r.isLt
  have : b.t.toNat < 2 := toNat_bool_lt _
  have : d.val < 16 := d.isLt
  have : oPen pr < 2 := oPen_lt _
  have : oPn pr < 8 := oPn_lt _
  have : sc.toNat < 4 := sc.isLt
  have : sz.code < 4 := code_lt_ESize _
  have e0 : bits (oPn pr + sc.toNat * 2 ^ 3 + sz.code * 2 ^ 6 + 1 * 2 ^ 8) 0 3 = oPn pr := by simp only [bits]; omega
  have e1 : bits (oPn pr + sc.toNat * 2 ^ 3 + sz.code * 2 ^ 6 + 1 * 2 ^ 8) 3 2 = sc.toNat := by simp only [bits]; omega
  have e2 : bits (oPn pr + sc.toNat * 2 ^ 3 + sz.code * 2 ^ 6 + 1 * 2 ^ 8) 5 1 = 0 := by simp only [bits]; omega
  have e3 : bits (oPn pr + sc.toNat * 2 ^ 3 + sz.code * 2 ^ 6 + 1 * 2 ^ 8) 6 2 = sz.code := by simp only [bits]; omega
  have e4 : bits (oPn pr + sc.toNat * 2 ^ 3 + sz.code * 2 ^ 6 + 1 * 2 ^ 8) 8 3 = 1 := by simp only [bits]; omega
  refine round_trip (i := .scatv d a b pr sc sz) (op := 0x35) (fm := .X) (r := { d := d.val, a := a.r.val, ta := a.t.toNat, b := b.r.val, tb := b.t.toNat, tc := oPen pr, f := oPn pr + sc.toNat * 2 ^ 3 + sz.code * 2 ^ 6 + 1 * 2 ^ 8 }) rfl (by decide) rfl ?_ ?_
  · simp only [Raw.Fits]; first | omega | (simp; done) | (simp; omega)
  · simp only [Raw.only]
    show dec35 _ = _
    simp only [dec35, chk, e0, e1, e2, e3, e4, vR_val, okV_val, gS_eq, vS_eq, okV_src, oP_eq, pen_or, ofNat_toNat, ofCode_ESize, code_top_ESize] <;> first | (simp [h]; done) | simp_all

theorem ldf (d : GReg) (a : GSrc) (c : GReg) : Statement (.ldf d a c) := by
  intro h
  simp only [Instr.wf] at h
  have : a.r.val < 64 := a.r.isLt
  have : a.t.toNat < 2 := toNat_bool_lt _
  have : c.val < 64 := c.isLt
  have : d.val < 64 := d.isLt
  refine round_trip (i := .ldf d a c) (op := 0x36) (fm := .X) (r := { d := d.val, a := a.r.val, ta := a.t.toNat, c := c.val }) rfl (by decide) rfl ?_ ?_
  · simp only [Raw.Fits]; first | omega | (simp; done) | (simp; omega)
  · simp only [Raw.only]
    show dec36 _ = _
    simp only [dec36, chk, bits_zero, gR_val, gS_eq] <;> first | (simp [h]; done) | (have := Fin.val_ne_of_ne (by simpa using h : d ≠ c); simp_all)

theorem stf (d : GReg) (a : GSrc) : Statement (.stf d a) := by
  intro h
  simp only [Instr.wf] at h
  have : a.r.val < 64 := a.r.isLt
  have : a.t.toNat < 2 := toNat_bool_lt _
  have : d.val < 64 := d.isLt
  have e0 : bits (1 * 2 ^ 8) 0 8 = 0 := by simp only [bits]; omega
  have e1 : bits (1 * 2 ^ 8) 8 3 = 1 := by simp only [bits]; omega
  refine round_trip (i := .stf d a) (op := 0x36) (fm := .X) (r := { d := d.val, a := a.r.val, ta := a.t.toNat, f := 1 * 2 ^ 8 }) rfl (by decide) rfl ?_ ?_
  · simp only [Raw.Fits]; first | omega | (simp; done) | (simp; omega)
  · simp only [Raw.only]
    show dec36 _ = _
    simp only [dec36, chk, e0, e1, gR_val, gS_eq] <;> first | (simp [h]; done) | simp_all

theorem clrf (a : GSrc) : Statement (.clrf a) := by
  intro h
  simp only [Instr.wf] at h
  have : a.r.val < 64 := a.r.isLt
  have : a.t.toNat < 2 := toNat_bool_lt _
  have e0 : bits (2 * 2 ^ 8) 0 8 = 0 := by simp only [bits]; omega
  have e1 : bits (2 * 2 ^ 8) 8 3 = 2 := by simp only [bits]; omega
  refine round_trip (i := .clrf a) (op := 0x36) (fm := .X) (r := { a := a.r.val, ta := a.t.toNat, f := 2 * 2 ^ 8 }) rfl (by decide) rfl ?_ ?_
  · simp only [Raw.Fits]; first | omega | (simp; done) | (simp; omega)
  · simp only [Raw.only]
    show dec36 _ = _
    simp only [dec36, chk, e0, e1, gS_eq] <;> first | (simp [h]; done) | simp_all

theorem swap (d : GReg) (a : GSrc) (b : GSrc) (dw : Bool) : Statement (.swap d a b dw) := by
  intro h
  simp only [Instr.wf] at h
  have : a.r.val < 64 := a.r.isLt
  have : a.t.toNat < 2 := toNat_bool_lt _
  have : b.r.val < 64 := b.r.isLt
  have : b.t.toNat < 2 := toNat_bool_lt _
  have : d.val < 64 := d.isLt
  have : dw.toNat < 2 := toNat_bool_lt _
  have e0 : bits (dw.toNat * 2 ^ 7) 0 7 = 0 := by simp only [bits]; omega
  have e1 : bits (dw.toNat * 2 ^ 7) 7 1 = dw.toNat := by simp only [bits]; omega
  have e2 : bits (dw.toNat * 2 ^ 7) 8 3 = 0 := by simp only [bits]; omega
  refine round_trip (i := .swap d a b dw) (op := 0x37) (fm := .X) (r := { d := d.val, a := a.r.val, ta := a.t.toNat, b := b.r.val, tb := b.t.toNat, f := dw.toNat * 2 ^ 7 }) rfl (by decide) rfl ?_ ?_
  · simp only [Raw.Fits]; first | omega | (simp; done) | (simp; omega)
  · simp only [Raw.only]
    show dec37 _ = _
    simp only [dec37, chk, e0, e1, e2, gR_val, gS_eq, bool_beq] <;> first | (simp [h]; done) | simp_all

theorem cas (d : GReg) (a : GSrc) (b : GSrc) (c : GSrc) (dw : Bool) : Statement (.cas d a b c dw) := by
  intro h
  simp only [Instr.wf] at h
  have : a.r.val < 64 := a.r.isLt
  have : a.t.toNat < 2 := toNat_bool_lt _
  have : b.r.val < 64 := b.r.isLt
  have : b.t.toNat < 2 := toNat_bool_lt _
  have : c.r.val < 64 := c.r.isLt
  have : c.t.toNat < 2 := toNat_bool_lt _
  have : d.val < 64 := d.isLt
  have : dw.toNat < 2 := toNat_bool_lt _
  have e0 : bits (dw.toNat * 2 ^ 7 + 1 * 2 ^ 8) 0 7 = 0 := by simp only [bits]; omega
  have e1 : bits (dw.toNat * 2 ^ 7 + 1 * 2 ^ 8) 7 1 = dw.toNat := by simp only [bits]; omega
  have e2 : bits (dw.toNat * 2 ^ 7 + 1 * 2 ^ 8) 8 3 = 1 := by simp only [bits]; omega
  refine round_trip (i := .cas d a b c dw) (op := 0x37) (fm := .X) (r := { d := d.val, a := a.r.val, ta := a.t.toNat, b := b.r.val, tb := b.t.toNat, c := c.r.val, tc := c.t.toNat, f := dw.toNat * 2 ^ 7 + 1 * 2 ^ 8 }) rfl (by decide) rfl ?_ ?_
  · simp only [Raw.Fits]; first | omega | (simp; done) | (simp; omega)
  · simp only [Raw.only]
    show dec37 _ = _
    simp only [dec37, chk, e0, e1, e2, gR_val, gS_eq, bool_beq] <;> first | (simp [h]; done) | simp_all

theorem fadd (d : GReg) (a : GSrc) (b : GSrc) (dw : Bool) : Statement (.fadd d a b dw) := by
  intro h
  simp only [Instr.wf] at h
  have : a.r.val < 64 := a.r.isLt
  have : a.t.toNat < 2 := toNat_bool_lt _
  have : b.r.val < 64 := b.r.isLt
  have : b.t.toNat < 2 := toNat_bool_lt _
  have : d.val < 64 := d.isLt
  have : dw.toNat < 2 := toNat_bool_lt _
  have e0 : bits (dw.toNat * 2 ^ 7 + 2 * 2 ^ 8) 0 7 = 0 := by simp only [bits]; omega
  have e1 : bits (dw.toNat * 2 ^ 7 + 2 * 2 ^ 8) 7 1 = dw.toNat := by simp only [bits]; omega
  have e2 : bits (dw.toNat * 2 ^ 7 + 2 * 2 ^ 8) 8 3 = 2 := by simp only [bits]; omega
  refine round_trip (i := .fadd d a b dw) (op := 0x37) (fm := .X) (r := { d := d.val, a := a.r.val, ta := a.t.toNat, b := b.r.val, tb := b.t.toNat, f := dw.toNat * 2 ^ 7 + 2 * 2 ^ 8 }) rfl (by decide) rfl ?_ ?_
  · simp only [Raw.Fits]; first | omega | (simp; done) | (simp; omega)
  · simp only [Raw.only]
    show dec37 _ = _
    simp only [dec37, chk, e0, e1, e2, gR_val, gS_eq, bool_beq] <;> first | (simp [h]; done) | simp_all

theorem fenceFull (sc : Scope) : Statement (.fenceFull sc) := by
  intro h
  simp only [Instr.wf] at h
  have : sc.code < 8 := code_lt_Scope _
  have e0 : bits (0 * 2 ^ 3 + sc.code) 0 3 = sc.code := by simp only [bits]; omega
  have e1 : bits (0 * 2 ^ 3 + sc.code) 3 3 = 0 := by simp only [bits]; omega
  refine round_trip (i := .fenceFull sc) (op := 0x38) (fm := .H) (r := { d := 0 * 2 ^ 3 + sc.code }) rfl (by decide) rfl ?_ ?_
  · simp only [Raw.Fits]; first | omega | (simp; done) | (simp; omega)
  · simp only [Raw.only]
    show dec38 _ = _
    simp only [dec38, chk, e0, e1, ofCode_Scope, code_top_Scope] <;> first | (simp [h]; done) | simp_all

theorem fenceAcq (sc : Scope) : Statement (.fenceAcq sc) := by
  intro h
  simp only [Instr.wf] at h
  have : sc.code < 8 := code_lt_Scope _
  have e0 : bits (1 * 2 ^ 3 + sc.code) 0 3 = sc.code := by simp only [bits]; omega
  have e1 : bits (1 * 2 ^ 3 + sc.code) 3 3 = 1 := by simp only [bits]; omega
  refine round_trip (i := .fenceAcq sc) (op := 0x38) (fm := .H) (r := { d := 1 * 2 ^ 3 + sc.code }) rfl (by decide) rfl ?_ ?_
  · simp only [Raw.Fits]; first | omega | (simp; done) | (simp; omega)
  · simp only [Raw.only]
    show dec38 _ = _
    simp only [dec38, chk, e0, e1, ofCode_Scope, code_top_Scope] <;> first | (simp [h]; done) | simp_all

theorem fenceRel (sc : Scope) : Statement (.fenceRel sc) := by
  intro h
  simp only [Instr.wf] at h
  have : sc.code < 8 := code_lt_Scope _
  have e0 : bits (2 * 2 ^ 3 + sc.code) 0 3 = sc.code := by simp only [bits]; omega
  have e1 : bits (2 * 2 ^ 3 + sc.code) 3 3 = 2 := by simp only [bits]; omega
  refine round_trip (i := .fenceRel sc) (op := 0x38) (fm := .H) (r := { d := 2 * 2 ^ 3 + sc.code }) rfl (by decide) rfl ?_ ?_
  · simp only [Raw.Fits]; first | omega | (simp; done) | (simp; omega)
  · simp only [Raw.only]
    show dec38 _ = _
    simp only [dec38, chk, e0, e1, ofCode_Scope, code_top_Scope] <;> first | (simp [h]; done) | simp_all

theorem fenceEng (sc : Scope) : Statement (.fenceEng sc) := by
  intro h
  simp only [Instr.wf] at h
  have : sc.code < 8 := code_lt_Scope _
  have e0 : bits (3 * 2 ^ 3 + sc.code) 0 3 = sc.code := by simp only [bits]; omega
  have e1 : bits (3 * 2 ^ 3 + sc.code) 3 3 = 3 := by simp only [bits]; omega
  refine round_trip (i := .fenceEng sc) (op := 0x38) (fm := .H) (r := { d := 3 * 2 ^ 3 + sc.code }) rfl (by decide) rfl ?_ ?_
  · simp only [Raw.Fits]; first | omega | (simp; done) | (simp; omega)
  · simp only [Raw.only]
    show dec38 _ = _
    simp only [dec38, chk, e0, e1, ofCode_Scope, code_top_Scope] <;> first | (simp [h]; done) | simp_all

theorem fenceInsn  : Statement (.fenceInsn) := by
  intro h
  simp only [Instr.wf] at h
  have e0 : bits (4 * 2 ^ 3) 0 3 = 0 := by simp only [bits]; omega
  have e1 : bits (4 * 2 ^ 3) 3 3 = 4 := by simp only [bits]; omega
  refine round_trip (i := .fenceInsn) (op := 0x38) (fm := .H) (r := { d := 4 * 2 ^ 3 }) rfl (by decide) rfl ?_ ?_
  · simp only [Raw.Fits]; first | omega | (simp; done) | (simp; omega)
  · simp only [Raw.only]
    show dec38 _ = _
    simp only [dec38, chk, e0, e1] <;> first | (simp [h]; done) | simp_all

theorem pref (a : GSrc) (lv : PLevel) (w : Bool) (disp : BitVec 20) : Statement (.pref a lv w disp) := by
  intro h
  simp only [Instr.wf] at h
  have : a.r.val < 64 := a.r.isLt
  have : a.t.toNat < 2 := toNat_bool_lt _
  have : disp.toNat < 1048576 := disp.isLt
  have : lv.code < 2 := code_lt_PLevel _
  have : w.toNat < 2 := toNat_bool_lt _
  have e0 : bits (lv.code + w.toNat * 2 ^ 2) 0 2 = lv.code := by simp only [bits]; omega
  have e1 : bits (lv.code + w.toNat * 2 ^ 2) 2 1 = w.toNat := by simp only [bits]; omega
  have e2 : bits (lv.code + w.toNat * 2 ^ 2) 3 2 = 0 := by simp only [bits]; omega
  have e3 : bits (disp.toNat) 0 20 = disp.toNat := by simp only [bits]; omega
  refine round_trip (i := .pref a lv w disp) (op := 0x39) (fm := .I) (r := { a := a.r.val, ta := a.t.toNat, f := lv.code + w.toNat * 2 ^ 2, imm := disp.toNat }) rfl (by decide) rfl ?_ ?_
  · simp only [Raw.Fits]; first | omega | (simp; done) | (simp; omega)
  · simp only [Raw.only]
    show dec39 _ = _
    simp only [dec39, chk, e0, e1, e2, e3, gS_eq, ofCode_PLevel, bool_beq, ofNat_toNat] <;> first | (simp [h]; done) | simp_all

theorem wmap (d : GReg) (a : GSrc) (b : GSrc) (c : GSrc) (w : BitVec 3) : Statement (.wmap d a b c w) := by
  intro h
  simp only [Instr.wf] at h
  have : a.r.val < 64 := a.r.isLt
  have : a.t.toNat < 2 := toNat_bool_lt _
  have : b.r.val < 64 := b.r.isLt
  have : b.t.toNat < 2 := toNat_bool_lt _
  have : c.r.val < 64 := c.r.isLt
  have : c.t.toNat < 2 := toNat_bool_lt _
  have : d.val < 64 := d.isLt
  have : w.toNat < 8 := w.isLt
  have e0 : bits (w.toNat) 0 3 = w.toNat := by simp only [bits]; omega
  have e1 : bits (w.toNat) 3 5 = 0 := by simp only [bits]; omega
  have e2 : bits (w.toNat) 8 3 = 0 := by simp only [bits]; omega
  refine round_trip (i := .wmap d a b c w) (op := 0x3A) (fm := .X) (r := { d := d.val, a := a.r.val, ta := a.t.toNat, b := b.r.val, tb := b.t.toNat, c := c.r.val, tc := c.t.toNat, f := w.toNat }) rfl (by decide) rfl ?_ ?_
  · simp only [Raw.Fits]; first | omega | (simp; done) | (simp; omega)
  · simp only [Raw.only]
    show dec3A _ = _
    simp only [dec3A, chk, e0, e1, e2, gR_val, gS_eq, ofNat_toNat] <;> first | (simp [h]; done) | simp_all

theorem wunmap (w : BitVec 3) : Statement (.wunmap w) := by
  intro h
  simp only [Instr.wf] at h
  have : w.toNat < 8 := w.isLt
  have e0 : bits (w.toNat + 1 * 2 ^ 8) 0 3 = w.toNat := by simp only [bits]; omega
  have e1 : bits (w.toNat + 1 * 2 ^ 8) 3 5 = 0 := by simp only [bits]; omega
  have e2 : bits (w.toNat + 1 * 2 ^ 8) 8 3 = 1 := by simp only [bits]; omega
  refine round_trip (i := .wunmap w) (op := 0x3A) (fm := .X) (r := { f := w.toNat + 1 * 2 ^ 8 }) rfl (by decide) rfl ?_ ?_
  · simp only [Raw.Fits]; first | omega | (simp; done) | (simp; omega)
  · simp only [Raw.only]
    show dec3A _ = _
    simp only [dec3A, chk, e0, e1, e2, ofNat_toNat] <;> first | (simp [h]; done) | simp_all

theorem wflush (w : BitVec 3) : Statement (.wflush w) := by
  intro h
  simp only [Instr.wf] at h
  have : w.toNat < 8 := w.isLt
  have e0 : bits (w.toNat + 2 * 2 ^ 8) 0 3 = w.toNat := by simp only [bits]; omega
  have e1 : bits (w.toNat + 2 * 2 ^ 8) 3 5 = 0 := by simp only [bits]; omega
  have e2 : bits (w.toNat + 2 * 2 ^ 8) 8 3 = 2 := by simp only [bits]; omega
  refine round_trip (i := .wflush w) (op := 0x3A) (fm := .X) (r := { f := w.toNat + 2 * 2 ^ 8 }) rfl (by decide) rfl ?_ ?_
  · simp only [Raw.Fits]; first | omega | (simp; done) | (simp; omega)
  · simp only [Raw.only]
    show dec3A _ = _
    simp only [dec3A, chk, e0, e1, e2, ofNat_toNat] <;> first | (simp [h]; done) | simp_all

theorem winv (w : BitVec 3) : Statement (.winv w) := by
  intro h
  simp only [Instr.wf] at h
  have : w.toNat < 8 := w.isLt
  have e0 : bits (w.toNat + 3 * 2 ^ 8) 0 3 = w.toNat := by simp only [bits]; omega
  have e1 : bits (w.toNat + 3 * 2 ^ 8) 3 5 = 0 := by simp only [bits]; omega
  have e2 : bits (w.toNat + 3 * 2 ^ 8) 8 3 = 3 := by simp only [bits]; omega
  refine round_trip (i := .winv w) (op := 0x3A) (fm := .X) (r := { f := w.toNat + 3 * 2 ^ 8 }) rfl (by decide) rfl ?_ ?_
  · simp only [Raw.Fits]; first | omega | (simp; done) | (simp; omega)
  · simp only [Raw.only]
    show dec3A _ = _
    simp only [dec3A, chk, e0, e1, e2, ofNat_toNat] <;> first | (simp [h]; done) | simp_all

theorem upd (a : GSrc) (b : GSrc) (ty : UType) : Statement (.upd a b ty) := by
  intro h
  simp only [Instr.wf] at h
  have : a.r.val < 64 := a.r.isLt
  have : a.t.toNat < 2 := toNat_bool_lt _
  have : b.r.val < 64 := b.r.isLt
  have : b.t.toNat < 2 := toNat_bool_lt _
  have : ty.code < 4 := code_lt_UType _
  have e0 : bits (ty.code) 0 2 = ty.code := by simp only [bits]; omega
  have e1 : bits (ty.code) 2 6 = 0 := by simp only [bits]; omega
  have e2 : bits (ty.code) 8 3 = 0 := by simp only [bits]; omega
  refine round_trip (i := .upd a b ty) (op := 0x3B) (fm := .X) (r := { a := a.r.val, ta := a.t.toNat, b := b.r.val, tb := b.t.toNat, f := ty.code }) rfl (by decide) rfl ?_ ?_
  · simp only [Raw.Fits]; first | omega | (simp; done) | (simp; omega)
  · simp only [Raw.only]
    show dec3B _ = _
    simp only [dec3B, chk, e0, e1, e2, gS_eq, ofCode_UType, code_top_UType] <;> first | (simp [h]; done) | simp_all

theorem updv (a : GSrc) (b : VSrc) (c : VSrc) (pr : Option PReg) (sc : BitVec 2) (ty : UType) : Statement (.updv a b c pr sc ty) := by
  intro h
  simp only [Instr.wf] at h
  have : a.r.val < 64 := a.r.isLt
  have : a.t.toNat < 2 := toNat_bool_lt _
  have : b.r.val < 16 := b.r.isLt
  have : b.t.toNat < 2 := toNat_bool_lt _
  have : c.r.val < 16 := c.r.isLt
  have : c.t.toNat < 2 := toNat_bool_lt _
  have : oPen pr < 2 := oPen_lt _
  have : oPn pr < 8 := oPn_lt _
  have : sc.toNat < 4 := sc.isLt
  have : ty.code < 4 := code_lt_UType _
  have e0 : bits (oPen pr * 2 ^ 7 + oPn pr * 2 ^ 4 + sc.toNat * 2 ^ 2 + ty.code) 0 2 = ty.code := by simp only [bits]; omega
  have e1 : bits (oPen pr * 2 ^ 7 + oPn pr * 2 ^ 4 + sc.toNat * 2 ^ 2 + ty.code) 2 2 = sc.toNat := by simp only [bits]; omega
  have e2 : bits (oPen pr * 2 ^ 7 + oPn pr * 2 ^ 4 + sc.toNat * 2 ^ 2 + ty.code) 4 3 = oPn pr := by simp only [bits]; omega
  have e3 : bits (oPen pr * 2 ^ 7 + oPn pr * 2 ^ 4 + sc.toNat * 2 ^ 2 + ty.code) 7 1 = oPen pr := by simp only [bits]; omega
  have e4 : bits (oPen pr * 2 ^ 7 + oPn pr * 2 ^ 4 + sc.toNat * 2 ^ 2 + ty.code) 8 3 = 0 := by simp only [bits]; omega
  refine round_trip (i := .updv a b c pr sc ty) (op := 0x3C) (fm := .X) (r := { a := a.r.val, ta := a.t.toNat, b := b.r.val, tb := b.t.toNat, c := c.r.val, tc := c.t.toNat, f := oPen pr * 2 ^ 7 + oPn pr * 2 ^ 4 + sc.toNat * 2 ^ 2 + ty.code }) rfl (by decide) rfl ?_ ?_
  · simp only [Raw.Fits]; first | omega | (simp; done) | (simp; omega)
  · simp only [Raw.only]
    show dec3C _ = _
    simp only [dec3C, chk, e0, e1, e2, e3, e4, gS_eq, vS_eq, okV_src, oP_eq, pen_or, ofNat_toNat, ofCode_UType, code_top_UType] <;> first | (simp [h]; done) | simp_all

theorem ureg (d : GReg) (a : GSrc) : Statement (.ureg d a) := by
  intro h
  simp only [Instr.wf] at h
  have : a.r.val < 64 := a.r.isLt
  have : a.t.toNat < 2 := toNat_bool_lt _
  have : d.val < 64 := d.isLt
  refine round_trip (i := .ureg d a) (op := 0x3D) (fm := .X) (r := { d := d.val, a := a.r.val, ta := a.t.toNat }) rfl (by decide) rfl ?_ ?_
  · simp only [Raw.Fits]; first | omega | (simp; done) | (simp; omega)
  · simp only [Raw.only]
    show dec3D _ = _
    simp only [dec3D, chk, bits_zero, gR_val, gS_eq] <;> first | (simp [h]; done) | simp_all

theorem uregRel (d : GReg) (a : GSrc) : Statement (.uregRel d a) := by
  intro h
  simp only [Instr.wf] at h
  have : a.r.val < 64 := a.r.isLt
  have : a.t.toNat < 2 := toNat_bool_lt _
  have : d.val < 64 := d.isLt
  have e0 : bits (1 * 2 ^ 7) 0 7 = 0 := by simp only [bits]; omega
  have e1 : bits (1 * 2 ^ 7) 0 8 = 128 := by simp only [bits]; omega
  have e2 : bits (1 * 2 ^ 7) 7 1 = 1 := by simp only [bits]; omega
  have e3 : bits (1 * 2 ^ 7) 8 3 = 0 := by simp only [bits]; omega
  refine round_trip (i := .uregRel d a) (op := 0x3D) (fm := .X) (r := { d := d.val, a := a.r.val, ta := a.t.toNat, f := 1 * 2 ^ 7 }) rfl (by decide) rfl ?_ ?_
  · simp only [Raw.Fits]; first | omega | (simp; done) | (simp; omega)
  · simp only [Raw.only]
    show dec3D _ = _
    simp only [dec3D, chk, e0, e1, e2, e3, gR_val, gS_eq] <;> first | (simp [h]; done) | simp_all

theorem uflush (a : GSrc) : Statement (.uflush a) := by
  intro h
  simp only [Instr.wf] at h
  have : a.r.val < 64 := a.r.isLt
  have : a.t.toNat < 2 := toNat_bool_lt _
  have e0 : bits (1 * 2 ^ 8) 0 7 = 0 := by simp only [bits]; omega
  have e1 : bits (1 * 2 ^ 8) 0 8 = 0 := by simp only [bits]; omega
  have e2 : bits (1 * 2 ^ 8) 7 1 = 0 := by simp only [bits]; omega
  have e3 : bits (1 * 2 ^ 8) 8 3 = 1 := by simp only [bits]; omega
  refine round_trip (i := .uflush a) (op := 0x3D) (fm := .X) (r := { a := a.r.val, ta := a.t.toNat, f := 1 * 2 ^ 8 }) rfl (by decide) rfl ?_ ?_
  · simp only [Raw.Fits]; first | omega | (simp; done) | (simp; omega)
  · simp only [Raw.only]
    show dec3D _ = _
    simp only [dec3D, chk, e0, e1, e2, e3, gS_eq] <;> first | (simp [h]; done) | simp_all

theorem uwait  : Statement (.uwait) := by
  intro h
  simp only [Instr.wf] at h
  have e0 : bits (2 * 2 ^ 8) 0 7 = 0 := by simp only [bits]; omega
  have e1 : bits (2 * 2 ^ 8) 0 8 = 0 := by simp only [bits]; omega
  have e2 : bits (2 * 2 ^ 8) 7 1 = 0 := by simp only [bits]; omega
  have e3 : bits (2 * 2 ^ 8) 8 3 = 2 := by simp only [bits]; omega
  refine round_trip (i := .uwait) (op := 0x3D) (fm := .X) (r := { f := 2 * 2 ^ 8 }) rfl (by decide) rfl ?_ ?_
  · simp only [Raw.Fits]; first | omega | (simp; done) | (simp; omega)
  · simp only [Raw.only]
    show dec3D _ = _
    simp only [dec3D, chk, e0, e1, e2, e3] <;> first | (simp [h]; done) | simp_all

theorem qgset (a : GSrc) (b : MOpd) : Statement (.qgset a b) := by
  intro h
  simp only [Instr.wf] at h
  have : a.r.val < 64 := a.r.isLt
  have : a.t.toNat < 2 := toNat_bool_lt _
  have : b.code < 16 := mopd_lt _
  refine round_trip (i := .qgset a b) (op := 0x40) (fm := .X) (r := { a := a.r.val, ta := a.t.toNat, b := b.code }) rfl (by decide) rfl ?_ ?_
  · simp only [Raw.Fits]; first | omega | (simp; done) | (simp; omega)
  · simp only [Raw.only]
    show dec40 _ = _
    simp only [dec40, chk, bits_zero, gS_eq, mR_code, okM_code] <;> first | (simp [h]; done) | simp_all

theorem ldnm (d : VReg) (a : GSrc) (tag : BitVec 20) : Statement (.ldnm d a tag) := by
  intro h
  simp only [Instr.wf] at h
  have : a.r.val < 64 := a.r.isLt
  have : a.t.toNat < 2 := toNat_bool_lt _
  have : d.val < 16 := d.isLt
  have : tag.toNat < 1048576 := tag.isLt
  have e0 : bits (tag.toNat) 0 20 = tag.toNat := by simp only [bits]; omega
  refine round_trip (i := .ldnm d a tag) (op := 0x41) (fm := .I) (r := { d := d.val, a := a.r.val, ta := a.t.toNat, imm := tag.toNat }) rfl (by decide) rfl ?_ ?_
  · simp only [Raw.Fits]; first | omega | (simp; done) | (simp; omega)
  · simp only [Raw.only]
    show dec41 _ = _
    simp only [dec41, chk, e0, vR_val, okV_val, gS_eq, ofNat_toNat] <;> first | (simp [h]; done) | simp_all

theorem qcmp (d : MOpd) (a : GSrc) (off : BitVec 12) (ty : QType) (cc : QCond) : Statement (.qcmp d a off ty cc) := by
  intro h
  simp only [Instr.wf] at h
  have : a.r.val < 64 := a.r.isLt
  have : a.t.toNat < 2 := toNat_bool_lt _
  have : cc.code < 8 := code_lt_QCond _
  have : d.code < 16 := mopd_lt _
  have : off.toNat < 4096 := off.isLt
  have : ty.code < 8 := code_lt_QType _
  have e0 : bits (off.toNat + ty.code * 2 ^ 12 + cc.code * 2 ^ 15) 0 12 = off.toNat := by simp only [bits]; omega
  have e1 : bits (off.toNat + ty.code * 2 ^ 12 + cc.code * 2 ^ 15) 12 3 = ty.code := by simp only [bits]; omega
  have e2 : bits (off.toNat + ty.code * 2 ^ 12 + cc.code * 2 ^ 15) 15 3 = cc.code := by simp only [bits]; omega
  have e3 : bits (off.toNat + ty.code * 2 ^ 12 + cc.code * 2 ^ 15) 18 2 = 0 := by simp only [bits]; omega
  refine round_trip (i := .qcmp d a off ty cc) (op := 0x42) (fm := .I) (r := { d := d.code, a := a.r.val, ta := a.t.toNat, imm := off.toNat + ty.code * 2 ^ 12 + cc.code * 2 ^ 15 }) rfl (by decide) rfl ?_ ?_
  · simp only [Raw.Fits]; first | omega | (simp; done) | (simp; omega)
  · simp only [Raw.only]
    show dec42 _ = _
    simp only [dec42, chk, e0, e1, e2, e3, mR_code, okM_code, gS_eq, ofNat_toNat, ofCode_QType, ofCode_QCond] <;> first | (simp [h]; done) | simp_all

theorem qadd (a : GSrc) (off : BitVec 12) (ty : QType) : Statement (.qadd a off ty) := by
  intro h
  simp only [Instr.wf] at h
  have : a.r.val < 64 := a.r.isLt
  have : a.t.toNat < 2 := toNat_bool_lt _
  have : off.toNat < 4096 := off.isLt
  have : ty.code < 8 := code_lt_QType _
  have e1 : bits (off.toNat + ty.code * 2 ^ 12) 0 12 = off.toNat := by simp only [bits]; omega
  have e2 : bits (off.toNat + ty.code * 2 ^ 12) 12 3 = ty.code := by simp only [bits]; omega
  have e3 : bits (off.toNat + ty.code * 2 ^ 12) 15 5 = 0 := by simp only [bits]; omega
  refine round_trip (i := .qadd a off ty) (op := 0x43) (fm := .I) (r := { a := a.r.val, ta := a.t.toNat, imm := off.toNat + ty.code * 2 ^ 12 }) rfl (by decide) rfl ?_ ?_
  · simp only [Raw.Fits]; first | omega | (simp; done) | (simp; omega)
  · simp only [Raw.only]
    show dec43 _ = _
    simp only [dec43, chk, bits_zero, e1, e2, e3, gS_eq, ofNat_toNat, ofCode_QType] <;> first | (simp [h]; done) | (cases ty <;> simp_all [QType.code])

theorem qaddi (off : BitVec 12) (ty : QType) (imm : BitVec 5) : Statement (.qaddi off ty imm) := by
  intro h
  simp only [Instr.wf] at h
  have : imm.toNat < 32 := imm.isLt
  have : off.toNat < 4096 := off.isLt
  have : ty.code < 8 := code_lt_QType _
  have e0 : bits (1) 0 5 = 1 := by simp only [bits]; omega
  have e1 : bits (off.toNat + ty.code * 2 ^ 12 + imm.toNat * 2 ^ 15) 0 12 = off.toNat := by simp only [bits]; omega
  have e2 : bits (off.toNat + ty.code * 2 ^ 12 + imm.toNat * 2 ^ 15) 12 3 = ty.code := by simp only [bits]; omega
  have e3 : bits (off.toNat + ty.code * 2 ^ 12 + imm.toNat * 2 ^ 15) 15 5 = imm.toNat := by simp only [bits]; omega
  refine round_trip (i := .qaddi off ty imm) (op := 0x43) (fm := .I) (r := { f := 1, imm := off.toNat + ty.code * 2 ^ 12 + imm.toNat * 2 ^ 15 }) rfl (by decide) rfl ?_ ?_
  · simp only [Raw.Fits]; first | omega | (simp; done) | (simp; omega)
  · simp only [Raw.only]
    show dec43 _ = _
    simp only [dec43, chk, e0, e1, e2, e3, ofNat_toNat, ofCode_QType] <;> first | (simp [h]; done) | (cases ty <;> simp_all [QType.code])

theorem qfadd (a : GSrc) (off : BitVec 12) : Statement (.qfadd a off) := by
  intro h
  simp only [Instr.wf] at h
  have : a.r.val < 64 := a.r.isLt
  have : a.t.toNat < 2 := toNat_bool_lt _
  have : off.toNat < 4096 := off.isLt
  have e0 : bits (2) 0 5 = 2 := by simp only [bits]; omega
  have e1 : bits (off.toNat + 7 * 2 ^ 12) 0 12 = off.toNat := by simp only [bits]; omega
  have e2 : bits (off.toNat + 7 * 2 ^ 12) 12 3 = 7 := by simp only [bits]; omega
  have e3 : bits (off.toNat + 7 * 2 ^ 12) 15 5 = 0 := by simp only [bits]; omega
  refine round_trip (i := .qfadd a off) (op := 0x43) (fm := .I) (r := { a := a.r.val, ta := a.t.toNat, f := 2, imm := off.toNat + 7 * 2 ^ 12 }) rfl (by decide) rfl ?_ ?_
  · simp only [Raw.Fits]; first | omega | (simp; done) | (simp; omega)
  · simp only [Raw.only]
    rw [show ∀ r, decOp 0x43 r = dec43 r from fun _ => rfl]
    simp only [dec43, chk, e0, e1, e2, e3, gS_eq, ofNat_toNat] <;> first | (simp [h]; done) | simp_all

theorem qst (a : GSrc) (off : BitVec 12) (ty : QType) : Statement (.qst a off ty) := by
  intro h
  simp only [Instr.wf] at h
  have : a.r.val < 64 := a.r.isLt
  have : a.t.toNat < 2 := toNat_bool_lt _
  have : off.toNat < 4096 := off.isLt
  have : ty.code < 8 := code_lt_QType _
  have e0 : bits (off.toNat + ty.code * 2 ^ 12) 0 12 = off.toNat := by simp only [bits]; omega
  have e1 : bits (off.toNat + ty.code * 2 ^ 12) 12 3 = ty.code := by simp only [bits]; omega
  have e2 : bits (off.toNat + ty.code * 2 ^ 12) 15 5 = 0 := by simp only [bits]; omega
  refine round_trip (i := .qst a off ty) (op := 0x44) (fm := .I) (r := { a := a.r.val, ta := a.t.toNat, imm := off.toNat + ty.code * 2 ^ 12 }) rfl (by decide) rfl ?_ ?_
  · simp only [Raw.Fits]; first | omega | (simp; done) | (simp; omega)
  · simp only [Raw.only]
    show dec44 _ = _
    simp only [dec44, chk, e0, e1, e2, gS_eq, ofNat_toNat, ofCode_QType] <;> first | (simp [h]; done) | simp_all

theorem qld (d : GReg) (off : BitVec 12) (ty : QType) : Statement (.qld d off ty) := by
  intro h
  simp only [Instr.wf] at h
  have : d.val < 64 := d.isLt
  have : off.toNat < 4096 := off.isLt
  have : ty.code < 8 := code_lt_QType _
  have e0 : bits (off.toNat + ty.code * 2 ^ 12) 0 12 = off.toNat := by simp only [bits]; omega
  have e1 : bits (off.toNat + ty.code * 2 ^ 12) 12 3 = ty.code := by simp only [bits]; omega
  have e2 : bits (off.toNat + ty.code * 2 ^ 12) 15 5 = 0 := by simp only [bits]; omega
  refine round_trip (i := .qld d off ty) (op := 0x44) (fm := .I) (r := { d := d.val, f := 1, imm := off.toNat + ty.code * 2 ^ 12 }) rfl (by decide) rfl ?_ ?_
  · simp only [Raw.Fits]; first | omega | (simp; done) | (simp; omega)
  · simp only [Raw.only]
    show dec44 _ = _
    simp only [dec44, chk, e0, e1, e2, gR_val, ofNat_toNat, ofCode_QType] <;> first | (simp [h]; done) | simp_all

theorem qgath (d : VReg) (a : GSrc) (k : BitVec 3) (ty : QType) : Statement (.qgath d a k ty) := by
  intro h
  simp only [Instr.wf] at h
  have : a.r.val < 64 := a.r.isLt
  have : a.t.toNat < 2 := toNat_bool_lt _
  have : d.val < 16 := d.isLt
  have : k.toNat < 8 := k.isLt
  have : ty.code < 8 := code_lt_QType _
  have e0 : bits (k.toNat * 2 ^ 2 + ty.code * 2 ^ 5) 0 2 = 0 := by simp only [bits]; omega
  have e1 : bits (k.toNat * 2 ^ 2 + ty.code * 2 ^ 5) 2 3 = k.toNat := by simp only [bits]; omega
  have e2 : bits (k.toNat * 2 ^ 2 + ty.code * 2 ^ 5) 5 3 = ty.code := by simp only [bits]; omega
  have e3 : bits (k.toNat * 2 ^ 2 + ty.code * 2 ^ 5) 8 3 = 0 := by simp only [bits]; omega
  refine round_trip (i := .qgath d a k ty) (op := 0x45) (fm := .X) (r := { d := d.val, a := a.r.val, ta := a.t.toNat, f := k.toNat * 2 ^ 2 + ty.code * 2 ^ 5 }) rfl (by decide) rfl ?_ ?_
  · simp only [Raw.Fits]; first | omega | (simp; done) | (simp; omega)
  · simp only [Raw.only]
    show dec45 _ = _
    simp only [dec45, chk, e0, e1, e2, e3, vR_val, okV_val, gS_eq, ofNat_toNat, ofCode_QType] <;> first | (simp [h]; done) | (cases ty <;> simp_all [QType.code])

theorem qscat (d : VReg) (a : GSrc) (k : BitVec 3) (ty : QType) : Statement (.qscat d a k ty) := by
  intro h
  simp only [Instr.wf] at h
  have : a.r.val < 64 := a.r.isLt
  have : a.t.toNat < 2 := toNat_bool_lt _
  have : d.val < 16 := d.isLt
  have : k.toNat < 8 := k.isLt
  have : ty.code < 8 := code_lt_QType _
  have e0 : bits (k.toNat * 2 ^ 2 + ty.code * 2 ^ 5 + 1 * 2 ^ 8) 0 2 = 0 := by simp only [bits]; omega
  have e1 : bits (k.toNat * 2 ^ 2 + ty.code * 2 ^ 5 + 1 * 2 ^ 8) 2 3 = k.toNat := by simp only [bits]; omega
  have e2 : bits (k.toNat * 2 ^ 2 + ty.code * 2 ^ 5 + 1 * 2 ^ 8) 5 3 = ty.code := by simp only [bits]; omega
  have e3 : bits (k.toNat * 2 ^ 2 + ty.code * 2 ^ 5 + 1 * 2 ^ 8) 8 3 = 1 := by simp only [bits]; omega
  refine round_trip (i := .qscat d a k ty) (op := 0x45) (fm := .X) (r := { d := d.val, a := a.r.val, ta := a.t.toNat, f := k.toNat * 2 ^ 2 + ty.code * 2 ^ 5 + 1 * 2 ^ 8 }) rfl (by decide) rfl ?_ ?_
  · simp only [Raw.Fits]; first | omega | (simp; done) | (simp; omega)
  · simp only [Raw.only]
    show dec45 _ = _
    simp only [dec45, chk, e0, e1, e2, e3, vR_val, okV_val, gS_eq, ofNat_toNat, ofCode_QType] <;> first | (simp [h]; done) | (cases ty <;> simp_all [QType.code])

theorem mand (d : MOpd) (a : MOpd) (b : MOpd) : Statement (.mand d a b) := by
  intro h
  simp only [Instr.wf] at h
  have : a.code < 16 := mopd_lt _
  have : b.code < 16 := mopd_lt _
  have : d.code < 16 := mopd_lt _
  refine round_trip (i := .mand d a b) (op := 0x46) (fm := .R) (r := { d := d.code, a := a.code, b := b.code }) rfl (by decide) rfl ?_ ?_
  · simp only [Raw.Fits]; first | omega | (simp; done) | (simp; omega)
  · simp only [Raw.only]
    show dec46 _ = _
    simp only [dec46, chk, mR_code, okM_code] <;> first | (simp [h]; done) | simp_all

theorem mor (d : MOpd) (a : MOpd) (b : MOpd) : Statement (.mor d a b) := by
  intro h
  simp only [Instr.wf] at h
  have : a.code < 16 := mopd_lt _
  have : b.code < 16 := mopd_lt _
  have : d.code < 16 := mopd_lt _
  refine round_trip (i := .mor d a b) (op := 0x46) (fm := .R) (r := { d := d.code, a := a.code, b := b.code, f := 1 }) rfl (by decide) rfl ?_ ?_
  · simp only [Raw.Fits]; first | omega | (simp; done) | (simp; omega)
  · simp only [Raw.only]
    show dec46 _ = _
    simp only [dec46, chk, mR_code, okM_code] <;> first | (simp [h]; done) | simp_all

theorem mxor (d : MOpd) (a : MOpd) (b : MOpd) : Statement (.mxor d a b) := by
  intro h
  simp only [Instr.wf] at h
  have : a.code < 16 := mopd_lt _
  have : b.code < 16 := mopd_lt _
  have : d.code < 16 := mopd_lt _
  refine round_trip (i := .mxor d a b) (op := 0x46) (fm := .R) (r := { d := d.code, a := a.code, b := b.code, f := 2 }) rfl (by decide) rfl ?_ ?_
  · simp only [Raw.Fits]; first | omega | (simp; done) | (simp; omega)
  · simp only [Raw.only]
    show dec46 _ = _
    simp only [dec46, chk, mR_code, okM_code] <;> first | (simp [h]; done) | simp_all

theorem mandn (d : MOpd) (a : MOpd) (b : MOpd) : Statement (.mandn d a b) := by
  intro h
  simp only [Instr.wf] at h
  have : a.code < 16 := mopd_lt _
  have : b.code < 16 := mopd_lt _
  have : d.code < 16 := mopd_lt _
  refine round_trip (i := .mandn d a b) (op := 0x46) (fm := .R) (r := { d := d.code, a := a.code, b := b.code, f := 3 }) rfl (by decide) rfl ?_ ?_
  · simp only [Raw.Fits]; first | omega | (simp; done) | (simp; omega)
  · simp only [Raw.only]
    show dec46 _ = _
    simp only [dec46, chk, mR_code, okM_code] <;> first | (simp [h]; done) | simp_all

theorem mpopc (d : GReg) (a : MOpd) : Statement (.mpopc d a) := by
  intro h
  simp only [Instr.wf] at h
  have : a.code < 16 := mopd_lt _
  have : d.val < 64 := d.isLt
  refine round_trip (i := .mpopc d a) (op := 0x47) (fm := .R) (r := { d := d.val, a := a.code }) rfl (by decide) rfl ?_ ?_
  · simp only [Raw.Fits]; first | omega | (simp; done) | (simp; omega)
  · simp only [Raw.only]
    show dec47 _ = _
    simp only [dec47, chk, gR_val, mR_code, okM_code] <;> first | (simp [h]; done) | simp_all

theorem mfirst (d : GReg) (a : MOpd) : Statement (.mfirst d a) := by
  intro h
  simp only [Instr.wf] at h
  have : a.code < 16 := mopd_lt _
  have : d.val < 64 := d.isLt
  refine round_trip (i := .mfirst d a) (op := 0x47) (fm := .R) (r := { d := d.val, a := a.code, f := 1 }) rfl (by decide) rfl ?_ ?_
  · simp only [Raw.Fits]; first | omega | (simp; done) | (simp; omega)
  · simp only [Raw.only]
    show dec47 _ = _
    simp only [dec47, chk, gR_val, mR_code, okM_code] <;> first | (simp [h]; done) | simp_all

theorem mtest (d : GReg) (a : MOpd) : Statement (.mtest d a) := by
  intro h
  simp only [Instr.wf] at h
  have : a.code < 16 := mopd_lt _
  have : d.val < 64 := d.isLt
  refine round_trip (i := .mtest d a) (op := 0x47) (fm := .R) (r := { d := d.val, a := a.code, f := 2 }) rfl (by decide) rfl ?_ ?_
  · simp only [Raw.Fits]; first | omega | (simp; done) | (simp; omega)
  · simp only [Raw.only]
    show dec47 _ = _
    simp only [dec47, chk, gR_val, mR_code, okM_code] <;> first | (simp [h]; done) | simp_all

theorem mset (d : MOpd) : Statement (.mset d) := by
  intro h
  simp only [Instr.wf] at h
  have : d.code < 16 := mopd_lt _
  refine round_trip (i := .mset d) (op := 0x48) (fm := .R) (r := { d := d.code }) rfl (by decide) rfl ?_ ?_
  · simp only [Raw.Fits]; first | omega | (simp; done) | (simp; omega)
  · simp only [Raw.only]
    show dec48 _ = _
    simp only [dec48, chk, mR_code, okM_code] <;> first | (simp [h]; done) | simp_all

theorem mclr (d : MOpd) : Statement (.mclr d) := by
  intro h
  simp only [Instr.wf] at h
  have : d.code < 16 := mopd_lt _
  refine round_trip (i := .mclr d) (op := 0x48) (fm := .R) (r := { d := d.code, f := 1 }) rfl (by decide) rfl ?_ ?_
  · simp only [Raw.Fits]; first | omega | (simp; done) | (simp; omega)
  · simp only [Raw.only]
    show dec48 _ = _
    simp only [dec48, chk, mR_code, okM_code] <;> first | (simp [h]; done) | simp_all

theorem mmov (d : MOpd) (a : MOpd) : Statement (.mmov d a) := by
  intro h
  simp only [Instr.wf] at h
  have : a.code < 16 := mopd_lt _
  have : d.code < 16 := mopd_lt _
  refine round_trip (i := .mmov d a) (op := 0x48) (fm := .R) (r := { d := d.code, a := a.code, f := 2 }) rfl (by decide) rfl ?_ ?_
  · simp only [Raw.Fits]; first | omega | (simp; done) | (simp; omega)
  · simp only [Raw.only]
    show dec48 _ = _
    simp only [dec48, chk, mR_code, okM_code] <;> first | (simp [h]; done) | simp_all

theorem mfromg (d : MOpd) (a : GSrc) (q : Fin 4) : Statement (.mfromg d a q) := by
  intro h
  simp only [Instr.wf] at h
  have : a.r.val < 64 := a.r.isLt
  have : a.t.toNat < 2 := toNat_bool_lt _
  have : d.code < 16 := mopd_lt _
  have : q.val < 4 := q.isLt
  refine round_trip (i := .mfromg d a q) (op := 0x48) (fm := .R) (r := { d := d.code, a := a.r.val, ta := a.t.toNat, b := q.val, f := 3 }) rfl (by decide) rfl ?_ ?_
  · simp only [Raw.Fits]; first | omega | (simp; done) | (simp; omega)
  · simp only [Raw.only]
    show dec48 _ = _
    simp only [dec48, chk, mR_code, okM_code, gS_eq, Fin_ofNat_val] <;> first | (simp [h]; done) | simp_all

theorem mtog (d : GReg) (a : MOpd) (q : Fin 4) : Statement (.mtog d a q) := by
  intro h
  simp only [Instr.wf] at h
  have : a.code < 16 := mopd_lt _
  have : d.val < 64 := d.isLt
  have : q.val < 4 := q.isLt
  refine round_trip (i := .mtog d a q) (op := 0x48) (fm := .R) (r := { d := d.val, a := a.code, b := q.val, tb := 1 }) rfl (by decide) rfl ?_ ?_
  · simp only [Raw.Fits]; first | omega | (simp; done) | (simp; omega)
  · simp only [Raw.only]
    show dec48 _ = _
    simp only [dec48, chk, gR_val, mR_code, okM_code, Fin_ofNat_val] <;> first | (simp [h]; done) | simp_all

theorem sopenA (d : SOpd) (a : GSrc) (out : Bool) : Statement (.sopenA d a out) := by
  intro h
  simp only [Instr.wf] at h
  have : a.r.val < 64 := a.r.isLt
  have : a.t.toNat < 2 := toNat_bool_lt _
  have : d.val < 24 := d.isLt
  have : out.toNat < 2 := toNat_bool_lt _
  have e0 : bits (out.toNat * 2 ^ 7) 0 7 = 0 := by simp only [bits]; omega
  have e1 : bits (out.toNat * 2 ^ 7) 7 1 = out.toNat := by simp only [bits]; omega
  have e2 : bits (out.toNat * 2 ^ 7) 8 3 = 0 := by simp only [bits]; omega
  refine round_trip (i := .sopenA d a out) (op := 0x50) (fm := .X) (r := { d := d.val + 32, a := a.r.val, ta := a.t.toNat, f := out.toNat * 2 ^ 7 }) rfl (by decide) rfl ?_ ?_
  · simp only [Raw.Fits]; first | omega | (simp; done) | (simp; omega)
  · simp only [Raw.only]
    show dec50 _ = _
    simp only [dec50, chk, e0, e1, e2, sR_val, okS_val, gS_eq, bool_beq] <;> first | (simp [h]; done) | simp_all

theorem sopenF (d : SOpd) (a : GSrc) (out : Bool) : Statement (.sopenF d a out) := by
  intro h
  simp only [Instr.wf] at h
  have : a.r.val < 64 := a.r.isLt
  have : a.t.toNat < 2 := toNat_bool_lt _
  have : d.val < 24 := d.isLt
  have : out.toNat < 2 := toNat_bool_lt _
  have e0 : bits (out.toNat * 2 ^ 7 + 1 * 2 ^ 8) 0 7 = 0 := by simp only [bits]; omega
  have e1 : bits (out.toNat * 2 ^ 7 + 1 * 2 ^ 8) 7 1 = out.toNat := by simp only [bits]; omega
  have e2 : bits (out.toNat * 2 ^ 7 + 1 * 2 ^ 8) 8 3 = 1 := by simp only [bits]; omega
  refine round_trip (i := .sopenF d a out) (op := 0x50) (fm := .X) (r := { d := d.val + 32, a := a.r.val, ta := a.t.toNat, f := out.toNat * 2 ^ 7 + 1 * 2 ^ 8 }) rfl (by decide) rfl ?_ ?_
  · simp only [Raw.Fits]; first | omega | (simp; done) | (simp; omega)
  · simp only [Raw.only]
    show dec50 _ = _
    simp only [dec50, chk, e0, e1, e2, sR_val, okS_val, gS_eq, bool_beq] <;> first | (simp [h]; done) | (simp_all [okS16])

theorem sadv (d : SOpd) (a : GSrc) (imm : BitVec 20) : Statement (.sadv d a imm) := by
  intro h
  simp only [Instr.wf] at h
  have : a.r.val < 64 := a.r.isLt
  have : a.t.toNat < 2 := toNat_bool_lt _
  have : d.val < 24 := d.isLt
  have : imm.toNat < 1048576 := imm.isLt
  have e0 : bits (imm.toNat) 0 20 = imm.toNat := by simp only [bits]; omega
  refine round_trip (i := .sadv d a imm) (op := 0x51) (fm := .I) (r := { d := d.val + 32, a := a.r.val, ta := a.t.toNat, imm := imm.toNat }) rfl (by decide) rfl ?_ ?_
  · simp only [Raw.Fits]; first | omega | (simp; done) | (simp; omega)
  · simp only [Raw.only]
    show dec51 _ = _
    simp only [dec51, chk, e0, sR_val, okS_val, gS_eq, ofNat_toNat] <;> first | (simp [h]; done) | simp_all

theorem sadvto (d : SOpd) (a : GSrc) (imm : BitVec 20) : Statement (.sadvto d a imm) := by
  intro h
  simp only [Instr.wf] at h
  have : a.r.val < 64 := a.r.isLt
  have : a.t.toNat < 2 := toNat_bool_lt _
  have : d.val < 24 := d.isLt
  have : imm.toNat < 1048576 := imm.isLt
  have e0 : bits (imm.toNat) 0 20 = imm.toNat := by simp only [bits]; omega
  refine round_trip (i := .sadvto d a imm) (op := 0x51) (fm := .I) (r := { d := d.val + 32, a := a.r.val, ta := a.t.toNat, f := 1, imm := imm.toNat }) rfl (by decide) rfl ?_ ?_
  · simp only [Raw.Fits]; first | omega | (simp; done) | (simp; omega)
  · simp only [Raw.only]
    show dec51 _ = _
    simp only [dec51, chk, e0, sR_val, okS_val, gS_eq, ofNat_toNat] <;> first | (simp [h]; done) | simp_all

theorem stend (d : GReg) (a : SOpd) : Statement (.stend d a) := by
  intro h
  simp only [Instr.wf] at h
  have : a.val < 24 := a.isLt
  have : d.val < 64 := d.isLt
  refine round_trip (i := .stend d a) (op := 0x52) (fm := .R) (r := { d := d.val, a := a.val + 32 }) rfl (by decide) rfl ?_ ?_
  · simp only [Raw.Fits]; first | omega | (simp; done) | (simp; omega)
  · simp only [Raw.only]
    show dec52 _ = _
    simp only [dec52, chk, gR_val, sR_val, okS_val] <;> first | (simp [h]; done) | simp_all

theorem sclose (a : SOpd) : Statement (.sclose a) := by
  intro h
  simp only [Instr.wf] at h
  have : a.val < 24 := a.isLt
  refine round_trip (i := .sclose a) (op := 0x53) (fm := .R) (r := { a := a.val + 32 }) rfl (by decide) rfl ?_ ?_
  · simp only [Raw.Fits]; first | omega | (simp; done) | (simp; omega)
  · simp only [Raw.only]
    show dec53 _ = _
    simp only [dec53, chk, sR_val, okS_val] <;> first | (simp [h]; done) | simp_all

theorem speek (d : GReg) (a : SOpd) : Statement (.speek d a) := by
  intro h
  simp only [Instr.wf] at h
  have : a.val < 24 := a.isLt
  have : d.val < 64 := d.isLt
  refine round_trip (i := .speek d a) (op := 0x54) (fm := .R) (r := { d := d.val, a := a.val + 32 }) rfl (by decide) rfl ?_ ?_
  · simp only [Raw.Fits]; first | omega | (simp; done) | (simp; omega)
  · simp only [Raw.only]
    show dec54 _ = _
    simp only [dec54, chk, gR_val, sR_val, okS_val] <;> first | (simp [h]; done) | (simp_all [okS16])

theorem sisect (d : GReg) (a : GReg) (b : GReg) (c : GReg) : Statement (.sisect d a b c) := by
  intro h
  simp only [Instr.wf] at h
  have : a.val < 64 := a.isLt
  have : b.val < 64 := b.isLt
  have : c.val < 64 := c.isLt
  have : d.val < 64 := d.isLt
  refine round_trip (i := .sisect d a b c) (op := 0x55) (fm := .X) (r := { d := d.val, a := a.val, b := b.val, c := c.val }) rfl (by decide) rfl ?_ ?_
  · simp only [Raw.Fits]; first | omega | (simp; done) | (simp; omega)
  · simp only [Raw.only]
    show dec55 _ = _
    simp only [dec55, chk, bits_zero, gR_val] <;> first | (simp [h]; done) | simp_all

theorem smerge (d : GReg) (a : GReg) (b : GReg) : Statement (.smerge d a b) := by
  intro h
  simp only [Instr.wf] at h
  have : a.val < 64 := a.isLt
  have : b.val < 64 := b.isLt
  have : d.val < 64 := d.isLt
  refine round_trip (i := .smerge d a b) (op := 0x56) (fm := .X) (r := { d := d.val, a := a.val, b := b.val }) rfl (by decide) rfl ?_ ?_
  · simp only [Raw.Fits]; first | omega | (simp; done) | (simp; omega)
  · simp only [Raw.only]
    show dec56 _ = _
    simp only [dec56, chk, bits_zero, gR_val] <;> first | (simp [h]; done) | simp_all

theorem vadd (d : VReg) (a : VSrc) (b : VSrc) (ty : VType) (pr : Option PReg) : Statement (.vadd d a b ty pr) := by
  intro h
  simp only [Instr.wf] at h
  have : a.r.val < 16 := a.r.isLt
  have : a.t.toNat < 2 := toNat_bool_lt _
  have : b.r.val < 16 := b.r.isLt
  have : b.t.toNat < 2 := toNat_bool_lt _
  have : d.val < 16 := d.isLt
  have : oPen pr < 2 := oPen_lt _
  have : oPn pr < 8 := oPn_lt _
  have : ty.code < 16 := code_lt_VType _
  have e0 : bits (ty.code * 2 ^ 3 + oPn pr) 0 3 = oPn pr := by simp only [bits]; omega
  have e1 : bits (ty.code * 2 ^ 3 + oPn pr) 3 4 = ty.code := by simp only [bits]; omega
  have e2 : bits (ty.code * 2 ^ 3 + oPn pr) 7 4 = 0 := by simp only [bits]; omega
  refine round_trip (i := .vadd d a b ty pr) (op := 0x58) (fm := .X) (r := { d := d.val, a := a.r.val, ta := a.t.toNat, b := b.r.val, tb := b.t.toNat, tc := oPen pr, f := ty.code * 2 ^ 3 + oPn pr }) rfl (by decide) rfl ?_ ?_
  · simp only [Raw.Fits]; first | omega | (simp; done) | (simp; omega)
  · simp only [Raw.only]
    show dec58 _ = _
    simp only [dec58, chk, e0, e1, e2, vR_val, okV_val, vS_eq, okV_src, ofCode_VType, code_top_VType, oP_eq, pen_or] <;> first | (simp [h]; done) | simp_all

theorem vsub (d : VReg) (a : VSrc) (b : VSrc) (ty : VType) (pr : Option PReg) : Statement (.vsub d a b ty pr) := by
  intro h
  simp only [Instr.wf] at h
  have : a.r.val < 16 := a.r.isLt
  have : a.t.toNat < 2 := toNat_bool_lt _
  have : b.r.val < 16 := b.r.isLt
  have : b.t.toNat < 2 := toNat_bool_lt _
  have : d.val < 16 := d.isLt
  have : oPen pr < 2 := oPen_lt _
  have : oPn pr < 8 := oPn_lt _
  have : ty.code < 16 := code_lt_VType _
  have e0 : bits (1 * 2 ^ 7 + ty.code * 2 ^ 3 + oPn pr) 0 3 = oPn pr := by simp only [bits]; omega
  have e1 : bits (1 * 2 ^ 7 + ty.code * 2 ^ 3 + oPn pr) 3 4 = ty.code := by simp only [bits]; omega
  have e2 : bits (1 * 2 ^ 7 + ty.code * 2 ^ 3 + oPn pr) 7 4 = 1 := by simp only [bits]; omega
  refine round_trip (i := .vsub d a b ty pr) (op := 0x58) (fm := .X) (r := { d := d.val, a := a.r.val, ta := a.t.toNat, b := b.r.val, tb := b.t.toNat, tc := oPen pr, f := 1 * 2 ^ 7 + ty.code * 2 ^ 3 + oPn pr }) rfl (by decide) rfl ?_ ?_
  · simp only [Raw.Fits]; first | omega | (simp; done) | (simp; omega)
  · simp only [Raw.only]
    show dec58 _ = _
    simp only [dec58, chk, e0, e1, e2, vR_val, okV_val, vS_eq, okV_src, ofCode_VType, code_top_VType, oP_eq, pen_or] <;> first | (simp [h]; done) | simp_all

theorem vmul (d : VReg) (a : VSrc) (b : VSrc) (ty : VType) (pr : Option PReg) : Statement (.vmul d a b ty pr) := by
  intro h
  simp only [Instr.wf] at h
  have : a.r.val < 16 := a.r.isLt
  have : a.t.toNat < 2 := toNat_bool_lt _
  have : b.r.val < 16 := b.r.isLt
  have : b.t.toNat < 2 := toNat_bool_lt _
  have : d.val < 16 := d.isLt
  have : oPen pr < 2 := oPen_lt _
  have : oPn pr < 8 := oPn_lt _
  have : ty.code < 16 := code_lt_VType _
  have e0 : bits (2 * 2 ^ 7 + ty.code * 2 ^ 3 + oPn pr) 0 3 = oPn pr := by simp only [bits]; omega
  have e1 : bits (2 * 2 ^ 7 + ty.code * 2 ^ 3 + oPn pr) 3 4 = ty.code := by simp only [bits]; omega
  have e2 : bits (2 * 2 ^ 7 + ty.code * 2 ^ 3 + oPn pr) 7 4 = 2 := by simp only [bits]; omega
  refine round_trip (i := .vmul d a b ty pr) (op := 0x58) (fm := .X) (r := { d := d.val, a := a.r.val, ta := a.t.toNat, b := b.r.val, tb := b.t.toNat, tc := oPen pr, f := 2 * 2 ^ 7 + ty.code * 2 ^ 3 + oPn pr }) rfl (by decide) rfl ?_ ?_
  · simp only [Raw.Fits]; first | omega | (simp; done) | (simp; omega)
  · simp only [Raw.only]
    show dec58 _ = _
    simp only [dec58, chk, e0, e1, e2, vR_val, okV_val, vS_eq, okV_src, ofCode_VType, code_top_VType, oP_eq, pen_or] <;> first | (simp [h]; done) | simp_all

theorem vmulh (d : VReg) (a : VSrc) (b : VSrc) (ty : VType) (pr : Option PReg) : Statement (.vmulh d a b ty pr) := by
  intro h
  simp only [Instr.wf] at h
  have : a.r.val < 16 := a.r.isLt
  have : a.t.toNat < 2 := toNat_bool_lt _
  have : b.r.val < 16 := b.r.isLt
  have : b.t.toNat < 2 := toNat_bool_lt _
  have : d.val < 16 := d.isLt
  have : oPen pr < 2 := oPen_lt _
  have : oPn pr < 8 := oPn_lt _
  have : ty.code < 16 := code_lt_VType _
  have e0 : bits (3 * 2 ^ 7 + ty.code * 2 ^ 3 + oPn pr) 0 3 = oPn pr := by simp only [bits]; omega
  have e1 : bits (3 * 2 ^ 7 + ty.code * 2 ^ 3 + oPn pr) 3 4 = ty.code := by simp only [bits]; omega
  have e2 : bits (3 * 2 ^ 7 + ty.code * 2 ^ 3 + oPn pr) 7 4 = 3 := by simp only [bits]; omega
  refine round_trip (i := .vmulh d a b ty pr) (op := 0x58) (fm := .X) (r := { d := d.val, a := a.r.val, ta := a.t.toNat, b := b.r.val, tb := b.t.toNat, tc := oPen pr, f := 3 * 2 ^ 7 + ty.code * 2 ^ 3 + oPn pr }) rfl (by decide) rfl ?_ ?_
  · simp only [Raw.Fits]; first | omega | (simp; done) | (simp; omega)
  · simp only [Raw.only]
    show dec58 _ = _
    simp only [dec58, chk, e0, e1, e2, vR_val, okV_val, vS_eq, okV_src, ofCode_VType, code_top_VType, oP_eq, pen_or] <;> first | (simp [h]; done) | simp_all

theorem vmin (d : VReg) (a : VSrc) (b : VSrc) (ty : VType) (pr : Option PReg) : Statement (.vmin d a b ty pr) := by
  intro h
  simp only [Instr.wf] at h
  have : a.r.val < 16 := a.r.isLt
  have : a.t.toNat < 2 := toNat_bool_lt _
  have : b.r.val < 16 := b.r.isLt
  have : b.t.toNat < 2 := toNat_bool_lt _
  have : d.val < 16 := d.isLt
  have : oPen pr < 2 := oPen_lt _
  have : oPn pr < 8 := oPn_lt _
  have : ty.code < 16 := code_lt_VType _
  have e0 : bits (4 * 2 ^ 7 + ty.code * 2 ^ 3 + oPn pr) 0 3 = oPn pr := by simp only [bits]; omega
  have e1 : bits (4 * 2 ^ 7 + ty.code * 2 ^ 3 + oPn pr) 3 4 = ty.code := by simp only [bits]; omega
  have e2 : bits (4 * 2 ^ 7 + ty.code * 2 ^ 3 + oPn pr) 7 4 = 4 := by simp only [bits]; omega
  refine round_trip (i := .vmin d a b ty pr) (op := 0x58) (fm := .X) (r := { d := d.val, a := a.r.val, ta := a.t.toNat, b := b.r.val, tb := b.t.toNat, tc := oPen pr, f := 4 * 2 ^ 7 + ty.code * 2 ^ 3 + oPn pr }) rfl (by decide) rfl ?_ ?_
  · simp only [Raw.Fits]; first | omega | (simp; done) | (simp; omega)
  · simp only [Raw.only]
    show dec58 _ = _
    simp only [dec58, chk, e0, e1, e2, vR_val, okV_val, vS_eq, okV_src, ofCode_VType, code_top_VType, oP_eq, pen_or] <;> first | (simp [h]; done) | simp_all

theorem vmax (d : VReg) (a : VSrc) (b : VSrc) (ty : VType) (pr : Option PReg) : Statement (.vmax d a b ty pr) := by
  intro h
  simp only [Instr.wf] at h
  have : a.r.val < 16 := a.r.isLt
  have : a.t.toNat < 2 := toNat_bool_lt _
  have : b.r.val < 16 := b.r.isLt
  have : b.t.toNat < 2 := toNat_bool_lt _
  have : d.val < 16 := d.isLt
  have : oPen pr < 2 := oPen_lt _
  have : oPn pr < 8 := oPn_lt _
  have : ty.code < 16 := code_lt_VType _
  have e0 : bits (5 * 2 ^ 7 + ty.code * 2 ^ 3 + oPn pr) 0 3 = oPn pr := by simp only [bits]; omega
  have e1 : bits (5 * 2 ^ 7 + ty.code * 2 ^ 3 + oPn pr) 3 4 = ty.code := by simp only [bits]; omega
  have e2 : bits (5 * 2 ^ 7 + ty.code * 2 ^ 3 + oPn pr) 7 4 = 5 := by simp only [bits]; omega
  refine round_trip (i := .vmax d a b ty pr) (op := 0x58) (fm := .X) (r := { d := d.val, a := a.r.val, ta := a.t.toNat, b := b.r.val, tb := b.t.toNat, tc := oPen pr, f := 5 * 2 ^ 7 + ty.code * 2 ^ 3 + oPn pr }) rfl (by decide) rfl ?_ ?_
  · simp only [Raw.Fits]; first | omega | (simp; done) | (simp; omega)
  · simp only [Raw.only]
    show dec58 _ = _
    simp only [dec58, chk, e0, e1, e2, vR_val, okV_val, vS_eq, okV_src, ofCode_VType, code_top_VType, oP_eq, pen_or] <;> first | (simp [h]; done) | simp_all

theorem vabsd (d : VReg) (a : VSrc) (b : VSrc) (ty : VType) (pr : Option PReg) : Statement (.vabsd d a b ty pr) := by
  intro h
  simp only [Instr.wf] at h
  have : a.r.val < 16 := a.r.isLt
  have : a.t.toNat < 2 := toNat_bool_lt _
  have : b.r.val < 16 := b.r.isLt
  have : b.t.toNat < 2 := toNat_bool_lt _
  have : d.val < 16 := d.isLt
  have : oPen pr < 2 := oPen_lt _
  have : oPn pr < 8 := oPn_lt _
  have : ty.code < 16 := code_lt_VType _
  have e0 : bits (6 * 2 ^ 7 + ty.code * 2 ^ 3 + oPn pr) 0 3 = oPn pr := by simp only [bits]; omega
  have e1 : bits (6 * 2 ^ 7 + ty.code * 2 ^ 3 + oPn pr) 3 4 = ty.code := by simp only [bits]; omega
  have e2 : bits (6 * 2 ^ 7 + ty.code * 2 ^ 3 + oPn pr) 7 4 = 6 := by simp only [bits]; omega
  refine round_trip (i := .vabsd d a b ty pr) (op := 0x58) (fm := .X) (r := { d := d.val, a := a.r.val, ta := a.t.toNat, b := b.r.val, tb := b.t.toNat, tc := oPen pr, f := 6 * 2 ^ 7 + ty.code * 2 ^ 3 + oPn pr }) rfl (by decide) rfl ?_ ?_
  · simp only [Raw.Fits]; first | omega | (simp; done) | (simp; omega)
  · simp only [Raw.only]
    show dec58 _ = _
    simp only [dec58, chk, e0, e1, e2, vR_val, okV_val, vS_eq, okV_src, ofCode_VType, code_top_VType, oP_eq, pen_or] <;> first | (simp [h]; done) | simp_all

theorem vfma (d : VReg) (a : VSrc) (b : VSrc) (ty : VType) (pr : Option PReg) : Statement (.vfma d a b ty pr) := by
  intro h
  simp only [Instr.wf] at h
  have : a.r.val < 16 := a.r.isLt
  have : a.t.toNat < 2 := toNat_bool_lt _
  have : b.r.val < 16 := b.r.isLt
  have : b.t.toNat < 2 := toNat_bool_lt _
  have : d.val < 16 := d.isLt
  have : oPen pr < 2 := oPen_lt _
  have : oPn pr < 8 := oPn_lt _
  have : ty.code < 16 := code_lt_VType _
  have e0 : bits (ty.code * 2 ^ 3 + oPn pr) 0 3 = oPn pr := by simp only [bits]; omega
  have e1 : bits (ty.code * 2 ^ 3 + oPn pr) 3 4 = ty.code := by simp only [bits]; omega
  have e2 : bits (ty.code * 2 ^ 3 + oPn pr) 7 4 = 0 := by simp only [bits]; omega
  refine round_trip (i := .vfma d a b ty pr) (op := 0x59) (fm := .X) (r := { d := d.val, a := a.r.val, ta := a.t.toNat, b := b.r.val, tb := b.t.toNat, tc := oPen pr, f := ty.code * 2 ^ 3 + oPn pr }) rfl (by decide) rfl ?_ ?_
  · simp only [Raw.Fits]; first | omega | (simp; done) | (simp; omega)
  · simp only [Raw.only]
    show dec59 _ = _
    simp only [dec59, chk, e0, e1, e2, vR_val, okV_val, vS_eq, okV_src, ofCode_VType, code_top_VType, oP_eq, pen_or] <;> first | (simp [h]; done) | simp_all

theorem vfms (d : VReg) (a : VSrc) (b : VSrc) (ty : VType) (pr : Option PReg) : Statement (.vfms d a b ty pr) := by
  intro h
  simp only [Instr.wf] at h
  have : a.r.val < 16 := a.r.isLt
  have : a.t.toNat < 2 := toNat_bool_lt _
  have : b.r.val < 16 := b.r.isLt
  have : b.t.toNat < 2 := toNat_bool_lt _
  have : d.val < 16 := d.isLt
  have : oPen pr < 2 := oPen_lt _
  have : oPn pr < 8 := oPn_lt _
  have : ty.code < 16 := code_lt_VType _
  have e0 : bits (1 * 2 ^ 7 + ty.code * 2 ^ 3 + oPn pr) 0 3 = oPn pr := by simp only [bits]; omega
  have e1 : bits (1 * 2 ^ 7 + ty.code * 2 ^ 3 + oPn pr) 3 4 = ty.code := by simp only [bits]; omega
  have e2 : bits (1 * 2 ^ 7 + ty.code * 2 ^ 3 + oPn pr) 7 4 = 1 := by simp only [bits]; omega
  refine round_trip (i := .vfms d a b ty pr) (op := 0x59) (fm := .X) (r := { d := d.val, a := a.r.val, ta := a.t.toNat, b := b.r.val, tb := b.t.toNat, tc := oPen pr, f := 1 * 2 ^ 7 + ty.code * 2 ^ 3 + oPn pr }) rfl (by decide) rfl ?_ ?_
  · simp only [Raw.Fits]; first | omega | (simp; done) | (simp; omega)
  · simp only [Raw.only]
    show dec59 _ = _
    simp only [dec59, chk, e0, e1, e2, vR_val, okV_val, vS_eq, okV_src, ofCode_VType, code_top_VType, oP_eq, pen_or] <;> first | (simp [h]; done) | simp_all

theorem vand (d : VReg) (a : VSrc) (b : VSrc) (ty : VType) (pr : Option PReg) : Statement (.vand d a b ty pr) := by
  intro h
  simp only [Instr.wf] at h
  have : a.r.val < 16 := a.r.isLt
  have : a.t.toNat < 2 := toNat_bool_lt _
  have : b.r.val < 16 := b.r.isLt
  have : b.t.toNat < 2 := toNat_bool_lt _
  have : d.val < 16 := d.isLt
  have : oPen pr < 2 := oPen_lt _
  have : oPn pr < 8 := oPn_lt _
  have : ty.code < 16 := code_lt_VType _
  have e0 : bits (ty.code * 2 ^ 3 + oPn pr) 0 3 = oPn pr := by simp only [bits]; omega
  have e1 : bits (ty.code * 2 ^ 3 + oPn pr) 3 4 = ty.code := by simp only [bits]; omega
  have e2 : bits (ty.code * 2 ^ 3 + oPn pr) 7 4 = 0 := by simp only [bits]; omega
  refine round_trip (i := .vand d a b ty pr) (op := 0x5A) (fm := .X) (r := { d := d.val, a := a.r.val, ta := a.t.toNat, b := b.r.val, tb := b.t.toNat, tc := oPen pr, f := ty.code * 2 ^ 3 + oPn pr }) rfl (by decide) rfl ?_ ?_
  · simp only [Raw.Fits]; first | omega | (simp; done) | (simp; omega)
  · simp only [Raw.only]
    show dec5A _ = _
    simp only [dec5A, chk, e0, e1, e2, vR_val, okV_val, vS_eq, okV_src, ofCode_VType, code_top_VType, oP_eq, pen_or] <;> first | (simp [h]; done) | simp_all

theorem vor (d : VReg) (a : VSrc) (b : VSrc) (ty : VType) (pr : Option PReg) : Statement (.vor d a b ty pr) := by
  intro h
  simp only [Instr.wf] at h
  have : a.r.val < 16 := a.r.isLt
  have : a.t.toNat < 2 := toNat_bool_lt _
  have : b.r.val < 16 := b.r.isLt
  have : b.t.toNat < 2 := toNat_bool_lt _
  have : d.val < 16 := d.isLt
  have : oPen pr < 2 := oPen_lt _
  have : oPn pr < 8 := oPn_lt _
  have : ty.code < 16 := code_lt_VType _
  have e0 : bits (1 * 2 ^ 7 + ty.code * 2 ^ 3 + oPn pr) 0 3 = oPn pr := by simp only [bits]; omega
  have e1 : bits (1 * 2 ^ 7 + ty.code * 2 ^ 3 + oPn pr) 3 4 = ty.code := by simp only [bits]; omega
  have e2 : bits (1 * 2 ^ 7 + ty.code * 2 ^ 3 + oPn pr) 7 4 = 1 := by simp only [bits]; omega
  refine round_trip (i := .vor d a b ty pr) (op := 0x5A) (fm := .X) (r := { d := d.val, a := a.r.val, ta := a.t.toNat, b := b.r.val, tb := b.t.toNat, tc := oPen pr, f := 1 * 2 ^ 7 + ty.code * 2 ^ 3 + oPn pr }) rfl (by decide) rfl ?_ ?_
  · simp only [Raw.Fits]; first | omega | (simp; done) | (simp; omega)
  · simp only [Raw.only]
    show dec5A _ = _
    simp only [dec5A, chk, e0, e1, e2, vR_val, okV_val, vS_eq, okV_src, ofCode_VType, code_top_VType, oP_eq, pen_or] <;> first | (simp [h]; done) | simp_all

theorem vxor (d : VReg) (a : VSrc) (b : VSrc) (ty : VType) (pr : Option PReg) : Statement (.vxor d a b ty pr) := by
  intro h
  simp only [Instr.wf] at h
  have : a.r.val < 16 := a.r.isLt
  have : a.t.toNat < 2 := toNat_bool_lt _
  have : b.r.val < 16 := b.r.isLt
  have : b.t.toNat < 2 := toNat_bool_lt _
  have : d.val < 16 := d.isLt
  have : oPen pr < 2 := oPen_lt _
  have : oPn pr < 8 := oPn_lt _
  have : ty.code < 16 := code_lt_VType _
  have e0 : bits (2 * 2 ^ 7 + ty.code * 2 ^ 3 + oPn pr) 0 3 = oPn pr := by simp only [bits]; omega
  have e1 : bits (2 * 2 ^ 7 + ty.code * 2 ^ 3 + oPn pr) 3 4 = ty.code := by simp only [bits]; omega
  have e2 : bits (2 * 2 ^ 7 + ty.code * 2 ^ 3 + oPn pr) 7 4 = 2 := by simp only [bits]; omega
  refine round_trip (i := .vxor d a b ty pr) (op := 0x5A) (fm := .X) (r := { d := d.val, a := a.r.val, ta := a.t.toNat, b := b.r.val, tb := b.t.toNat, tc := oPen pr, f := 2 * 2 ^ 7 + ty.code * 2 ^ 3 + oPn pr }) rfl (by decide) rfl ?_ ?_
  · simp only [Raw.Fits]; first | omega | (simp; done) | (simp; omega)
  · simp only [Raw.only]
    show dec5A _ = _
    simp only [dec5A, chk, e0, e1, e2, vR_val, okV_val, vS_eq, okV_src, ofCode_VType, code_top_VType, oP_eq, pen_or] <;> first | (simp [h]; done) | simp_all

theorem vandn (d : VReg) (a : VSrc) (b : VSrc) (ty : VType) (pr : Option PReg) : Statement (.vandn d a b ty pr) := by
  intro h
  simp only [Instr.wf] at h
  have : a.r.val < 16 := a.r.isLt
  have : a.t.toNat < 2 := toNat_bool_lt _
  have : b.r.val < 16 := b.r.isLt
  have : b.t.toNat < 2 := toNat_bool_lt _
  have : d.val < 16 := d.isLt
  have : oPen pr < 2 := oPen_lt _
  have : oPn pr < 8 := oPn_lt _
  have : ty.code < 16 := code_lt_VType _
  have e0 : bits (3 * 2 ^ 7 + ty.code * 2 ^ 3 + oPn pr) 0 3 = oPn pr := by simp only [bits]; omega
  have e1 : bits (3 * 2 ^ 7 + ty.code * 2 ^ 3 + oPn pr) 3 4 = ty.code := by simp only [bits]; omega
  have e2 : bits (3 * 2 ^ 7 + ty.code * 2 ^ 3 + oPn pr) 7 4 = 3 := by simp only [bits]; omega
  refine round_trip (i := .vandn d a b ty pr) (op := 0x5A) (fm := .X) (r := { d := d.val, a := a.r.val, ta := a.t.toNat, b := b.r.val, tb := b.t.toNat, tc := oPen pr, f := 3 * 2 ^ 7 + ty.code * 2 ^ 3 + oPn pr }) rfl (by decide) rfl ?_ ?_
  · simp only [Raw.Fits]; first | omega | (simp; done) | (simp; omega)
  · simp only [Raw.only]
    show dec5A _ = _
    simp only [dec5A, chk, e0, e1, e2, vR_val, okV_val, vS_eq, okV_src, ofCode_VType, code_top_VType, oP_eq, pen_or] <;> first | (simp [h]; done) | simp_all

theorem vshl (d : VReg) (a : VSrc) (b : VSrc) (ty : VType) (pr : Option PReg) : Statement (.vshl d a b ty pr) := by
  intro h
  simp only [Instr.wf] at h
  have : a.r.val < 16 := a.r.isLt
  have : a.t.toNat < 2 := toNat_bool_lt _
  have : b.r.val < 16 := b.r.isLt
  have : b.t.toNat < 2 := toNat_bool_lt _
  have : d.val < 16 := d.isLt
  have : oPen pr < 2 := oPen_lt _
  have : oPn pr < 8 := oPn_lt _
  have : ty.code < 16 := code_lt_VType _
  have e0 : bits (4 * 2 ^ 7 + ty.code * 2 ^ 3 + oPn pr) 0 3 = oPn pr := by simp only [bits]; omega
  have e1 : bits (4 * 2 ^ 7 + ty.code * 2 ^ 3 + oPn pr) 3 4 = ty.code := by simp only [bits]; omega
  have e2 : bits (4 * 2 ^ 7 + ty.code * 2 ^ 3 + oPn pr) 7 4 = 4 := by simp only [bits]; omega
  refine round_trip (i := .vshl d a b ty pr) (op := 0x5A) (fm := .X) (r := { d := d.val, a := a.r.val, ta := a.t.toNat, b := b.r.val, tb := b.t.toNat, tc := oPen pr, f := 4 * 2 ^ 7 + ty.code * 2 ^ 3 + oPn pr }) rfl (by decide) rfl ?_ ?_
  · simp only [Raw.Fits]; first | omega | (simp; done) | (simp; omega)
  · simp only [Raw.only]
    show dec5A _ = _
    simp only [dec5A, chk, e0, e1, e2, vR_val, okV_val, vS_eq, okV_src, ofCode_VType, code_top_VType, oP_eq, pen_or] <;> first | (simp [h]; done) | simp_all

theorem vshr (d : VReg) (a : VSrc) (b : VSrc) (ty : VType) (pr : Option PReg) : Statement (.vshr d a b ty pr) := by
  intro h
  simp only [Instr.wf] at h
  have : a.r.val < 16 := a.r.isLt
  have : a.t.toNat < 2 := toNat_bool_lt _
  have : b.r.val < 16 := b.r.isLt
  have : b.t.toNat < 2 := toNat_bool_lt _
  have : d.val < 16 := d.isLt
  have : oPen pr < 2 := oPen_lt _
  have : oPn pr < 8 := oPn_lt _
  have : ty.code < 16 := code_lt_VType _
  have e0 : bits (5 * 2 ^ 7 + ty.code * 2 ^ 3 + oPn pr) 0 3 = oPn pr := by simp only [bits]; omega
  have e1 : bits (5 * 2 ^ 7 + ty.code * 2 ^ 3 + oPn pr) 3 4 = ty.code := by simp only [bits]; omega
  have e2 : bits (5 * 2 ^ 7 + ty.code * 2 ^ 3 + oPn pr) 7 4 = 5 := by simp only [bits]; omega
  refine round_trip (i := .vshr d a b ty pr) (op := 0x5A) (fm := .X) (r := { d := d.val, a := a.r.val, ta := a.t.toNat, b := b.r.val, tb := b.t.toNat, tc := oPen pr, f := 5 * 2 ^ 7 + ty.code * 2 ^ 3 + oPn pr }) rfl (by decide) rfl ?_ ?_
  · simp only [Raw.Fits]; first | omega | (simp; done) | (simp; omega)
  · simp only [Raw.only]
    show dec5A _ = _
    simp only [dec5A, chk, e0, e1, e2, vR_val, okV_val, vS_eq, okV_src, ofCode_VType, code_top_VType, oP_eq, pen_or] <;> first | (simp [h]; done) | simp_all

theorem vsra (d : VReg) (a : VSrc) (b : VSrc) (ty : VType) (pr : Option PReg) : Statement (.vsra d a b ty pr) := by
  intro h
  simp only [Instr.wf] at h
  have : a.r.val < 16 := a.r.isLt
  have : a.t.toNat < 2 := toNat_bool_lt _
  have : b.r.val < 16 := b.r.isLt
  have : b.t.toNat < 2 := toNat_bool_lt _
  have : d.val < 16 := d.isLt
  have : oPen pr < 2 := oPen_lt _
  have : oPn pr < 8 := oPn_lt _
  have : ty.code < 16 := code_lt_VType _
  have e0 : bits (6 * 2 ^ 7 + ty.code * 2 ^ 3 + oPn pr) 0 3 = oPn pr := by simp only [bits]; omega
  have e1 : bits (6 * 2 ^ 7 + ty.code * 2 ^ 3 + oPn pr) 3 4 = ty.code := by simp only [bits]; omega
  have e2 : bits (6 * 2 ^ 7 + ty.code * 2 ^ 3 + oPn pr) 7 4 = 6 := by simp only [bits]; omega
  refine round_trip (i := .vsra d a b ty pr) (op := 0x5A) (fm := .X) (r := { d := d.val, a := a.r.val, ta := a.t.toNat, b := b.r.val, tb := b.t.toNat, tc := oPen pr, f := 6 * 2 ^ 7 + ty.code * 2 ^ 3 + oPn pr }) rfl (by decide) rfl ?_ ?_
  · simp only [Raw.Fits]; first | omega | (simp; done) | (simp; omega)
  · simp only [Raw.only]
    show dec5A _ = _
    simp only [dec5A, chk, e0, e1, e2, vR_val, okV_val, vS_eq, okV_src, ofCode_VType, code_top_VType, oP_eq, pen_or] <;> first | (simp [h]; done) | simp_all

theorem vcmp (d : MOpd) (a : VSrc) (b : VSrc) (cc : VCond) (ty : VType) (pr : Option PReg) : Statement (.vcmp d a b cc ty pr) := by
  intro h
  simp only [Instr.wf] at h
  have : a.r.val < 16 := a.r.isLt
  have : a.t.toNat < 2 := toNat_bool_lt _
  have : b.r.val < 16 := b.r.isLt
  have : b.t.toNat < 2 := toNat_bool_lt _
  have : cc.code < 8 := code_lt_VCond _
  have : d.code < 16 := mopd_lt _
  have : oPen pr < 2 := oPen_lt _
  have : oPn pr < 8 := oPn_lt _
  have : ty.code < 16 := code_lt_VType _
  have e0 : bits (cc.code * 2 ^ 7 + ty.code * 2 ^ 3 + oPn pr) 0 3 = oPn pr := by simp only [bits]; omega
  have e1 : bits (cc.code * 2 ^ 7 + ty.code * 2 ^ 3 + oPn pr) 3 4 = ty.code := by simp only [bits]; omega
  have e2 : bits (cc.code * 2 ^ 7 + ty.code * 2 ^ 3 + oPn pr) 7 4 = cc.code := by simp only [bits]; omega
  refine round_trip (i := .vcmp d a b cc ty pr) (op := 0x5B) (fm := .X) (r := { d := d.code, a := a.r.val, ta := a.t.toNat, b := b.r.val, tb := b.t.toNat, tc := oPen pr, f := cc.code * 2 ^ 7 + ty.code * 2 ^ 3 + oPn pr }) rfl (by decide) rfl ?_ ?_
  · simp only [Raw.Fits]; first | omega | (simp; done) | (simp; omega)
  · simp only [Raw.only]
    show dec5B _ = _
    simp only [dec5B, chk, e0, e1, e2, mR_code, okM_code, vS_eq, okV_src, ofCode_VCond, code_top_VCond, ofCode_VType, code_top_VType, oP_eq, pen_or] <;> first | (simp [h]; done) | simp_all

theorem vsel (d : VReg) (a : VSrc) (b : VSrc) (ty : VType) (pr : PReg) : Statement (.vsel d a b ty pr) := by
  intro h
  simp only [Instr.wf] at h
  have : a.r.val < 16 := a.r.isLt
  have : a.t.toNat < 2 := toNat_bool_lt _
  have : b.r.val < 16 := b.r.isLt
  have : b.t.toNat < 2 := toNat_bool_lt _
  have : d.val < 16 := d.isLt
  have : pr.val < 8 := pr.isLt
  have : ty.code < 16 := code_lt_VType _
  have e0 : bits (ty.code * 2 ^ 3 + pr.val) 0 3 = pr.val := by simp only [bits]; omega
  have e1 : bits (ty.code * 2 ^ 3 + pr.val) 3 4 = ty.code := by simp only [bits]; omega
  have e2 : bits (ty.code * 2 ^ 3 + pr.val) 7 4 = 0 := by simp only [bits]; omega
  refine round_trip (i := .vsel d a b ty pr) (op := 0x5C) (fm := .X) (r := { d := d.val, a := a.r.val, ta := a.t.toNat, b := b.r.val, tb := b.t.toNat, tc := 1, f := ty.code * 2 ^ 3 + pr.val }) rfl (by decide) rfl ?_ ?_
  · simp only [Raw.Fits]; first | omega | (simp; done) | (simp; omega)
  · simp only [Raw.only]
    show dec5C _ = _
    simp only [dec5C, chk, e0, e1, e2, vR_val, okV_val, vS_eq, okV_src, ofCode_VType, code_top_VType, pR_val] <;> first | (simp [h]; done) | simp_all

theorem vbcast (d : VReg) (a : GSrc) (ty : VType) (pr : Option PReg) : Statement (.vbcast d a ty pr) := by
  intro h
  simp only [Instr.wf] at h
  have : a.r.val < 64 := a.r.isLt
  have : a.t.toNat < 2 := toNat_bool_lt _
  have : d.val < 16 := d.isLt
  have : oPen pr < 2 := oPen_lt _
  have : oPn pr < 8 := oPn_lt _
  have : ty.code < 16 := code_lt_VType _
  have e0 : bits (ty.code * 2 ^ 3 + oPn pr) 0 3 = oPn pr := by simp only [bits]; omega
  have e1 : bits (ty.code * 2 ^ 3 + oPn pr) 3 4 = ty.code := by simp only [bits]; omega
  have e2 : bits (ty.code * 2 ^ 3 + oPn pr) 7 4 = 0 := by simp only [bits]; omega
  refine round_trip (i := .vbcast d a ty pr) (op := 0x5D) (fm := .X) (r := { d := d.val, a := a.r.val, ta := a.t.toNat, tc := oPen pr, f := ty.code * 2 ^ 3 + oPn pr }) rfl (by decide) rfl ?_ ?_
  · simp only [Raw.Fits]; first | omega | (simp; done) | (simp; omega)
  · simp only [Raw.only]
    show dec5D _ = _
    simp only [dec5D, chk, e0, e1, e2, vR_val, okV_val, gS_eq, ofCode_VType, code_top_VType, oP_eq, pen_or] <;> first | (simp [h]; done) | simp_all

theorem vextr (d : GReg) (a : VSrc) (b : GSrc) (ty : VType) : Statement (.vextr d a b ty) := by
  intro h
  simp only [Instr.wf] at h
  have : a.r.val < 16 := a.r.isLt
  have : a.t.toNat < 2 := toNat_bool_lt _
  have : b.r.val < 64 := b.r.isLt
  have : b.t.toNat < 2 := toNat_bool_lt _
  have : d.val < 64 := d.isLt
  have : ty.code < 16 := code_lt_VType _
  have e0 : bits (1 * 2 ^ 7 + ty.code * 2 ^ 3) 0 3 = 0 := by simp only [bits]; omega
  have e1 : bits (1 * 2 ^ 7 + ty.code * 2 ^ 3) 3 4 = ty.code := by simp only [bits]; omega
  have e2 : bits (1 * 2 ^ 7 + ty.code * 2 ^ 3) 7 4 = 1 := by simp only [bits]; omega
  refine round_trip (i := .vextr d a b ty) (op := 0x5D) (fm := .X) (r := { d := d.val, a := a.r.val, ta := a.t.toNat, b := b.r.val, tb := b.t.toNat, f := 1 * 2 ^ 7 + ty.code * 2 ^ 3 }) rfl (by decide) rfl ?_ ?_
  · simp only [Raw.Fits]; first | omega | (simp; done) | (simp; omega)
  · simp only [Raw.only]
    show dec5D _ = _
    simp only [dec5D, chk, e0, e1, e2, gR_val, vS_eq, okV_src, gS_eq, ofCode_VType, code_top_VType] <;> first | (simp [h]; done) | simp_all

theorem vins (d : VReg) (a : GSrc) (b : GSrc) (ty : VType) : Statement (.vins d a b ty) := by
  intro h
  simp only [Instr.wf] at h
  have : a.r.val < 64 := a.r.isLt
  have : a.t.toNat < 2 := toNat_bool_lt _
  have : b.r.val < 64 := b.r.isLt
  have : b.t.toNat < 2 := toNat_bool_lt _
  have : d.val < 16 := d.isLt
  have : ty.code < 16 := code_lt_VType _
  have e0 : bits (2 * 2 ^ 7 + ty.code * 2 ^ 3) 0 3 = 0 := by simp only [bits]; omega
  have e1 : bits (2 * 2 ^ 7 + ty.code * 2 ^ 3) 3 4 = ty.code := by simp only [bits]; omega
  have e2 : bits (2 * 2 ^ 7 + ty.code * 2 ^ 3) 7 4 = 2 := by simp only [bits]; omega
  refine round_trip (i := .vins d a b ty) (op := 0x5D) (fm := .X) (r := { d := d.val, a := a.r.val, ta := a.t.toNat, b := b.r.val, tb := b.t.toNat, f := 2 * 2 ^ 7 + ty.code * 2 ^ 3 }) rfl (by decide) rfl ?_ ?_
  · simp only [Raw.Fits]; first | omega | (simp; done) | (simp; omega)
  · simp only [Raw.only]
    show dec5D _ = _
    simp only [dec5D, chk, e0, e1, e2, vR_val, okV_val, gS_eq, ofCode_VType, code_top_VType] <;> first | (simp [h]; done) | simp_all

theorem vperm (d : VReg) (a : VSrc) (b : VSrc) (ty : VType) (pr : Option PReg) : Statement (.vperm d a b ty pr) := by
  intro h
  simp only [Instr.wf] at h
  have : a.r.val < 16 := a.r.isLt
  have : a.t.toNat < 2 := toNat_bool_lt _
  have : b.r.val < 16 := b.r.isLt
  have : b.t.toNat < 2 := toNat_bool_lt _
  have : d.val < 16 := d.isLt
  have : oPen pr < 2 := oPen_lt _
  have : oPn pr < 8 := oPn_lt _
  have : ty.code < 16 := code_lt_VType _
  have e0 : bits (ty.code * 2 ^ 3 + oPn pr) 0 3 = oPn pr := by simp only [bits]; omega
  have e1 : bits (ty.code * 2 ^ 3 + oPn pr) 3 4 = ty.code := by simp only [bits]; omega
  have e2 : bits (ty.code * 2 ^ 3 + oPn pr) 7 4 = 0 := by simp only [bits]; omega
  refine round_trip (i := .vperm d a b ty pr) (op := 0x5E) (fm := .X) (r := { d := d.val, a := a.r.val, ta := a.t.toNat, b := b.r.val, tb := b.t.toNat, tc := oPen pr, f := ty.code * 2 ^ 3 + oPn pr }) rfl (by decide) rfl ?_ ?_
  · simp only [Raw.Fits]; first | omega | (simp; done) | (simp; omega)
  · simp only [Raw.only]
    show dec5E _ = _
    simp only [dec5E, chk, e0, e1, e2, vR_val, okV_val, vS_eq, okV_src, ofCode_VType, code_top_VType, oP_eq, pen_or] <;> first | (simp [h]; done) | simp_all

theorem vrot (d : VReg) (a : VSrc) (b : GSrc) (ty : VType) : Statement (.vrot d a b ty) := by
  intro h
  simp only [Instr.wf] at h
  have : a.r.val < 16 := a.r.isLt
  have : a.t.toNat < 2 := toNat_bool_lt _
  have : b.r.val < 64 := b.r.isLt
  have : b.t.toNat < 2 := toNat_bool_lt _
  have : d.val < 16 := d.isLt
  have : ty.code < 16 := code_lt_VType _
  have e0 : bits (1 * 2 ^ 7 + ty.code * 2 ^ 3) 0 3 = 0 := by simp only [bits]; omega
  have e1 : bits (1 * 2 ^ 7 + ty.code * 2 ^ 3) 3 4 = ty.code := by simp only [bits]; omega
  have e2 : bits (1 * 2 ^ 7 + ty.code * 2 ^ 3) 7 4 = 1 := by simp only [bits]; omega
  refine round_trip (i := .vrot d a b ty) (op := 0x5E) (fm := .X) (r := { d := d.val, a := a.r.val, ta := a.t.toNat, b := b.r.val, tb := b.t.toNat, f := 1 * 2 ^ 7 + ty.code * 2 ^ 3 }) rfl (by decide) rfl ?_ ?_
  · simp only [Raw.Fits]; first | omega | (simp; done) | (simp; omega)
  · simp only [Raw.only]
    show dec5E _ = _
    simp only [dec5E, chk, e0, e1, e2, vR_val, okV_val, vS_eq, okV_src, gS_eq, ofCode_VType, code_top_VType] <;> first | (simp [h]; done) | simp_all

theorem vredadd (d : GReg) (a : VSrc) (ty : VType) (pr : Option PReg) : Statement (.vredadd d a ty pr) := by
  intro h
  simp only [Instr.wf] at h
  have : a.r.val < 16 := a.r.isLt
  have : a.t.toNat < 2 := toNat_bool_lt _
  have : d.val < 64 := d.isLt
  have : oPen pr < 2 := oPen_lt _
  have : oPn pr < 8 := oPn_lt _
  have : ty.code < 16 := code_lt_VType _
  have e0 : bits (ty.code * 2 ^ 3 + oPn pr) 0 3 = oPn pr := by simp only [bits]; omega
  have e1 : bits (ty.code * 2 ^ 3 + oPn pr) 3 4 = ty.code := by simp only [bits]; omega
  have e2 : bits (ty.code * 2 ^ 3 + oPn pr) 7 4 = 0 := by simp only [bits]; omega
  refine round_trip (i := .vredadd d a ty pr) (op := 0x5F) (fm := .X) (r := { d := d.val, a := a.r.val, ta := a.t.toNat, tc := oPen pr, f := ty.code * 2 ^ 3 + oPn pr }) rfl (by decide) rfl ?_ ?_
  · simp only [Raw.Fits]; first | omega | (simp; done) | (simp; omega)
  · simp only [Raw.only]
    show dec5F _ = _
    simp only [dec5F, chk, e0, e1, e2, gR_val, vS_eq, okV_src, ofCode_VType, code_top_VType, oP_eq, pen_or] <;> first | (simp [h]; done) | simp_all

theorem vredmin (d : GReg) (a : VSrc) (ty : VType) (pr : Option PReg) : Statement (.vredmin d a ty pr) := by
  intro h
  simp only [Instr.wf] at h
  have : a.r.val < 16 := a.r.isLt
  have : a.t.toNat < 2 := toNat_bool_lt _
  have : d.val < 64 := d.isLt
  have : oPen pr < 2 := oPen_lt _
  have : oPn pr < 8 := oPn_lt _
  have : ty.code < 16 := code_lt_VType _
  have e0 : bits (1 * 2 ^ 7 + ty.code * 2 ^ 3 + oPn pr) 0 3 = oPn pr := by simp only [bits]; omega
  have e1 : bits (1 * 2 ^ 7 + ty.code * 2 ^ 3 + oPn pr) 3 4 = ty.code := by simp only [bits]; omega
  have e2 : bits (1 * 2 ^ 7 + ty.code * 2 ^ 3 + oPn pr) 7 4 = 1 := by simp only [bits]; omega
  refine round_trip (i := .vredmin d a ty pr) (op := 0x5F) (fm := .X) (r := { d := d.val, a := a.r.val, ta := a.t.toNat, tc := oPen pr, f := 1 * 2 ^ 7 + ty.code * 2 ^ 3 + oPn pr }) rfl (by decide) rfl ?_ ?_
  · simp only [Raw.Fits]; first | omega | (simp; done) | (simp; omega)
  · simp only [Raw.only]
    show dec5F _ = _
    simp only [dec5F, chk, e0, e1, e2, gR_val, vS_eq, okV_src, ofCode_VType, code_top_VType, oP_eq, pen_or] <;> first | (simp [h]; done) | simp_all

theorem vredmax (d : GReg) (a : VSrc) (ty : VType) (pr : Option PReg) : Statement (.vredmax d a ty pr) := by
  intro h
  simp only [Instr.wf] at h
  have : a.r.val < 16 := a.r.isLt
  have : a.t.toNat < 2 := toNat_bool_lt _
  have : d.val < 64 := d.isLt
  have : oPen pr < 2 := oPen_lt _
  have : oPn pr < 8 := oPn_lt _
  have : ty.code < 16 := code_lt_VType _
  have e0 : bits (2 * 2 ^ 7 + ty.code * 2 ^ 3 + oPn pr) 0 3 = oPn pr := by simp only [bits]; omega
  have e1 : bits (2 * 2 ^ 7 + ty.code * 2 ^ 3 + oPn pr) 3 4 = ty.code := by simp only [bits]; omega
  have e2 : bits (2 * 2 ^ 7 + ty.code * 2 ^ 3 + oPn pr) 7 4 = 2 := by simp only [bits]; omega
  refine round_trip (i := .vredmax d a ty pr) (op := 0x5F) (fm := .X) (r := { d := d.val, a := a.r.val, ta := a.t.toNat, tc := oPen pr, f := 2 * 2 ^ 7 + ty.code * 2 ^ 3 + oPn pr }) rfl (by decide) rfl ?_ ?_
  · simp only [Raw.Fits]; first | omega | (simp; done) | (simp; omega)
  · simp only [Raw.only]
    show dec5F _ = _
    simp only [dec5F, chk, e0, e1, e2, gR_val, vS_eq, okV_src, ofCode_VType, code_top_VType, oP_eq, pen_or] <;> first | (simp [h]; done) | simp_all

theorem vredor (d : GReg) (a : VSrc) (ty : VType) (pr : Option PReg) : Statement (.vredor d a ty pr) := by
  intro h
  simp only [Instr.wf] at h
  have : a.r.val < 16 := a.r.isLt
  have : a.t.toNat < 2 := toNat_bool_lt _
  have : d.val < 64 := d.isLt
  have : oPen pr < 2 := oPen_lt _
  have : oPn pr < 8 := oPn_lt _
  have : ty.code < 16 := code_lt_VType _
  have e0 : bits (3 * 2 ^ 7 + ty.code * 2 ^ 3 + oPn pr) 0 3 = oPn pr := by simp only [bits]; omega
  have e1 : bits (3 * 2 ^ 7 + ty.code * 2 ^ 3 + oPn pr) 3 4 = ty.code := by simp only [bits]; omega
  have e2 : bits (3 * 2 ^ 7 + ty.code * 2 ^ 3 + oPn pr) 7 4 = 3 := by simp only [bits]; omega
  refine round_trip (i := .vredor d a ty pr) (op := 0x5F) (fm := .X) (r := { d := d.val, a := a.r.val, ta := a.t.toNat, tc := oPen pr, f := 3 * 2 ^ 7 + ty.code * 2 ^ 3 + oPn pr }) rfl (by decide) rfl ?_ ?_
  · simp only [Raw.Fits]; first | omega | (simp; done) | (simp; omega)
  · simp only [Raw.only]
    show dec5F _ = _
    simp only [dec5F, chk, e0, e1, e2, gR_val, vS_eq, okV_src, ofCode_VType, code_top_VType, oP_eq, pen_or] <;> first | (simp [h]; done) | simp_all

theorem vscan (d : VReg) (a : VSrc) (sop : ScanOp) (ty : VType) (pr : Option PReg) : Statement (.vscan d a sop ty pr) := by
  intro h
  simp only [Instr.wf] at h
  have : a.r.val < 16 := a.r.isLt
  have : a.t.toNat < 2 := toNat_bool_lt _
  have : d.val < 16 := d.isLt
  have : oPen pr < 2 := oPen_lt _
  have : oPn pr < 8 := oPn_lt _
  have : sop.code < 4 := code_lt_ScanOp _
  have : ty.code < 16 := code_lt_VType _
  have e0 : bits (sop.code * 2 ^ 7 + ty.code * 2 ^ 3 + oPn pr) 0 3 = oPn pr := by simp only [bits]; omega
  have e1 : bits (sop.code * 2 ^ 7 + ty.code * 2 ^ 3 + oPn pr) 3 4 = ty.code := by simp only [bits]; omega
  have e2 : bits (sop.code * 2 ^ 7 + ty.code * 2 ^ 3 + oPn pr) 7 4 = sop.code := by simp only [bits]; omega
  refine round_trip (i := .vscan d a sop ty pr) (op := 0x60) (fm := .X) (r := { d := d.val, a := a.r.val, ta := a.t.toNat, tc := oPen pr, f := sop.code * 2 ^ 7 + ty.code * 2 ^ 3 + oPn pr }) rfl (by decide) rfl ?_ ?_
  · simp only [Raw.Fits]; first | omega | (simp; done) | (simp; omega)
  · simp only [Raw.only]
    show dec60 _ = _
    simp only [dec60, chk, e0, e1, e2, vR_val, okV_val, vS_eq, okV_src, ofCode_ScanOp, ofCode_VType, code_top_VType, oP_eq, pen_or] <;> first | (simp [h]; done) | simp_all

theorem vcvt (d : VReg) (a : VSrc) (dt : VType) (ty : VType) (part : BitVec 2) (sat : Bool) (pr : Option PReg) : Statement (.vcvt d a dt ty part sat pr) := by
  intro h
  simp only [Instr.wf] at h
  have : a.r.val < 16 := a.r.isLt
  have : a.t.toNat < 2 := toNat_bool_lt _
  have : d.val < 16 := d.isLt
  have : dt.code < 16 := code_lt_VType _
  have : oPen pr < 2 := oPen_lt _
  have : oPn pr < 8 := oPn_lt _
  have : part.toNat < 4 := part.isLt
  have : sat.toNat < 2 := toNat_bool_lt _
  have : ty.code < 16 := code_lt_VType _
  have e0 : bits (dt.code * 2 ^ 7 + ty.code * 2 ^ 3 + oPn pr) 0 3 = oPn pr := by simp only [bits]; omega
  have e1 : bits (dt.code * 2 ^ 7 + ty.code * 2 ^ 3 + oPn pr) 3 4 = ty.code := by simp only [bits]; omega
  have e2 : bits (dt.code * 2 ^ 7 + ty.code * 2 ^ 3 + oPn pr) 7 4 = dt.code := by simp only [bits]; omega
  refine round_trip (i := .vcvt d a dt ty part sat pr) (op := 0x61) (fm := .X) (r := { d := d.val, a := a.r.val, ta := a.t.toNat, b := part.toNat, tb := sat.toNat, tc := oPen pr, f := dt.code * 2 ^ 7 + ty.code * 2 ^ 3 + oPn pr }) rfl (by decide) rfl ?_ ?_
  · simp only [Raw.Fits]; first | omega | (simp; done) | (simp; omega)
  · simp only [Raw.only]
    show dec61 _ = _
    simp only [dec61, chk, e0, e1, e2, vR_val, okV_val, vS_eq, okV_src, ofCode_VType, code_top_VType, ofNat_toNat, bool_beq, oP_eq, pen_or] <;> first | (simp [h]; done) | simp_all

theorem vcompress (d : VReg) (a : VSrc) (ty : VType) (pr : PReg) : Statement (.vcompress d a ty pr) := by
  intro h
  simp only [Instr.wf] at h
  have : a.r.val < 16 := a.r.isLt
  have : a.t.toNat < 2 := toNat_bool_lt _
  have : d.val < 16 := d.isLt
  have : pr.val < 8 := pr.isLt
  have : ty.code < 16 := code_lt_VType _
  have e0 : bits (ty.code * 2 ^ 3 + pr.val) 0 3 = pr.val := by simp only [bits]; omega
  have e1 : bits (ty.code * 2 ^ 3 + pr.val) 3 4 = ty.code := by simp only [bits]; omega
  have e2 : bits (ty.code * 2 ^ 3 + pr.val) 7 4 = 0 := by simp only [bits]; omega
  refine round_trip (i := .vcompress d a ty pr) (op := 0x62) (fm := .X) (r := { d := d.val, a := a.r.val, ta := a.t.toNat, tc := 1, f := ty.code * 2 ^ 3 + pr.val }) rfl (by decide) rfl ?_ ?_
  · simp only [Raw.Fits]; first | omega | (simp; done) | (simp; omega)
  · simp only [Raw.only]
    show dec62 _ = _
    simp only [dec62, chk, e0, e1, e2, vR_val, okV_val, vS_eq, okV_src, ofCode_VType, code_top_VType, pR_val] <;> first | (simp [h]; done) | simp_all

theorem vexpand (d : VReg) (a : VSrc) (ty : VType) (pr : PReg) : Statement (.vexpand d a ty pr) := by
  intro h
  simp only [Instr.wf] at h
  have : a.r.val < 16 := a.r.isLt
  have : a.t.toNat < 2 := toNat_bool_lt _
  have : d.val < 16 := d.isLt
  have : pr.val < 8 := pr.isLt
  have : ty.code < 16 := code_lt_VType _
  have e0 : bits (1 * 2 ^ 7 + ty.code * 2 ^ 3 + pr.val) 0 3 = pr.val := by simp only [bits]; omega
  have e1 : bits (1 * 2 ^ 7 + ty.code * 2 ^ 3 + pr.val) 3 4 = ty.code := by simp only [bits]; omega
  have e2 : bits (1 * 2 ^ 7 + ty.code * 2 ^ 3 + pr.val) 7 4 = 1 := by simp only [bits]; omega
  refine round_trip (i := .vexpand d a ty pr) (op := 0x62) (fm := .X) (r := { d := d.val, a := a.r.val, ta := a.t.toNat, tc := 1, f := 1 * 2 ^ 7 + ty.code * 2 ^ 3 + pr.val }) rfl (by decide) rfl ?_ ?_
  · simp only [Raw.Fits]; first | omega | (simp; done) | (simp; omega)
  · simp only [Raw.only]
    show dec62 _ = _
    simp only [dec62, chk, e0, e1, e2, vR_val, okV_val, vS_eq, okV_src, ofCode_VType, code_top_VType, pR_val] <;> first | (simp [h]; done) | simp_all

theorem vsort (d : VReg) (a : VSrc) (ord : SortOrd) (ty : VType) (pr : Option PReg) : Statement (.vsort d a ord ty pr) := by
  intro h
  simp only [Instr.wf] at h
  have : a.r.val < 16 := a.r.isLt
  have : a.t.toNat < 2 := toNat_bool_lt _
  have : d.val < 16 := d.isLt
  have : oPen pr < 2 := oPen_lt _
  have : oPn pr < 8 := oPn_lt _
  have : ord.code < 2 := code_lt_SortOrd _
  have : ty.code < 16 := code_lt_VType _
  have e0 : bits (ord.code * 2 ^ 7 + ty.code * 2 ^ 3 + oPn pr) 0 3 = oPn pr := by simp only [bits]; omega
  have e1 : bits (ord.code * 2 ^ 7 + ty.code * 2 ^ 3 + oPn pr) 3 4 = ty.code := by simp only [bits]; omega
  have e2 : bits (ord.code * 2 ^ 7 + ty.code * 2 ^ 3 + oPn pr) 7 4 = ord.code := by simp only [bits]; omega
  refine round_trip (i := .vsort d a ord ty pr) (op := 0x63) (fm := .X) (r := { d := d.val, a := a.r.val, ta := a.t.toNat, tc := oPen pr, f := ord.code * 2 ^ 7 + ty.code * 2 ^ 3 + oPn pr }) rfl (by decide) rfl ?_ ?_
  · simp only [Raw.Fits]; first | omega | (simp; done) | (simp; omega)
  · simp only [Raw.only]
    show dec63 _ = _
    simp only [dec63, chk, e0, e1, e2, vR_val, okV_val, vS_eq, okV_src, ofCode_SortOrd, ofCode_VType, code_top_VType, oP_eq, pen_or] <;> first | (simp [h]; done) | simp_all

theorem vdot4 (d : VReg) (a : VSrc) (b : VSrc) (ty : VType) (pr : Option PReg) : Statement (.vdot4 d a b ty pr) := by
  intro h
  simp only [Instr.wf] at h
  have : a.r.val < 16 := a.r.isLt
  have : a.t.toNat < 2 := toNat_bool_lt _
  have : b.r.val < 16 := b.r.isLt
  have : b.t.toNat < 2 := toNat_bool_lt _
  have : d.val < 16 := d.isLt
  have : oPen pr < 2 := oPen_lt _
  have : oPn pr < 8 := oPn_lt _
  have : ty.code < 16 := code_lt_VType _
  have e0 : bits (ty.code * 2 ^ 3 + oPn pr) 0 3 = oPn pr := by simp only [bits]; omega
  have e1 : bits (ty.code * 2 ^ 3 + oPn pr) 3 4 = ty.code := by simp only [bits]; omega
  have e2 : bits (ty.code * 2 ^ 3 + oPn pr) 7 4 = 0 := by simp only [bits]; omega
  refine round_trip (i := .vdot4 d a b ty pr) (op := 0x64) (fm := .X) (r := { d := d.val, a := a.r.val, ta := a.t.toNat, b := b.r.val, tb := b.t.toNat, tc := oPen pr, f := ty.code * 2 ^ 3 + oPn pr }) rfl (by decide) rfl ?_ ?_
  · simp only [Raw.Fits]; first | omega | (simp; done) | (simp; omega)
  · simp only [Raw.only]
    show dec64 _ = _
    simp only [dec64, chk, e0, e1, e2, vR_val, okV_val, vS_eq, okV_src, ofCode_VType, code_top_VType, oP_eq, pen_or] <;> first | (simp [h]; done) | simp_all

theorem vrcp (d : VReg) (a : VSrc) (ty : VType) (pr : Option PReg) : Statement (.vrcp d a ty pr) := by
  intro h
  simp only [Instr.wf] at h
  have : a.r.val < 16 := a.r.isLt
  have : a.t.toNat < 2 := toNat_bool_lt _
  have : d.val < 16 := d.isLt
  have : oPen pr < 2 := oPen_lt _
  have : oPn pr < 8 := oPn_lt _
  have : ty.code < 16 := code_lt_VType _
  have e0 : bits (ty.code * 2 ^ 3 + oPn pr) 0 3 = oPn pr := by simp only [bits]; omega
  have e1 : bits (ty.code * 2 ^ 3 + oPn pr) 3 4 = ty.code := by simp only [bits]; omega
  have e2 : bits (ty.code * 2 ^ 3 + oPn pr) 7 4 = 0 := by simp only [bits]; omega
  refine round_trip (i := .vrcp d a ty pr) (op := 0x65) (fm := .X) (r := { d := d.val, a := a.r.val, ta := a.t.toNat, tc := oPen pr, f := ty.code * 2 ^ 3 + oPn pr }) rfl (by decide) rfl ?_ ?_
  · simp only [Raw.Fits]; first | omega | (simp; done) | (simp; omega)
  · simp only [Raw.only]
    show dec65 _ = _
    simp only [dec65, chk, e0, e1, e2, vR_val, okV_val, vS_eq, okV_src, ofCode_VType, code_top_VType, oP_eq, pen_or] <;> first | (simp [h]; done) | simp_all

theorem vrsq (d : VReg) (a : VSrc) (ty : VType) (pr : Option PReg) : Statement (.vrsq d a ty pr) := by
  intro h
  simp only [Instr.wf] at h
  have : a.r.val < 16 := a.r.isLt
  have : a.t.toNat < 2 := toNat_bool_lt _
  have : d.val < 16 := d.isLt
  have : oPen pr < 2 := oPen_lt _
  have : oPn pr < 8 := oPn_lt _
  have : ty.code < 16 := code_lt_VType _
  have e0 : bits (1 * 2 ^ 7 + ty.code * 2 ^ 3 + oPn pr) 0 3 = oPn pr := by simp only [bits]; omega
  have e1 : bits (1 * 2 ^ 7 + ty.code * 2 ^ 3 + oPn pr) 3 4 = ty.code := by simp only [bits]; omega
  have e2 : bits (1 * 2 ^ 7 + ty.code * 2 ^ 3 + oPn pr) 7 4 = 1 := by simp only [bits]; omega
  refine round_trip (i := .vrsq d a ty pr) (op := 0x65) (fm := .X) (r := { d := d.val, a := a.r.val, ta := a.t.toNat, tc := oPen pr, f := 1 * 2 ^ 7 + ty.code * 2 ^ 3 + oPn pr }) rfl (by decide) rfl ?_ ?_
  · simp only [Raw.Fits]; first | omega | (simp; done) | (simp; omega)
  · simp only [Raw.only]
    show dec65 _ = _
    simp only [dec65, chk, e0, e1, e2, vR_val, okV_val, vS_eq, okV_src, ofCode_VType, code_top_VType, oP_eq, pen_or] <;> first | (simp [h]; done) | simp_all

theorem vexp2 (d : VReg) (a : VSrc) (ty : VType) (pr : Option PReg) : Statement (.vexp2 d a ty pr) := by
  intro h
  simp only [Instr.wf] at h
  have : a.r.val < 16 := a.r.isLt
  have : a.t.toNat < 2 := toNat_bool_lt _
  have : d.val < 16 := d.isLt
  have : oPen pr < 2 := oPen_lt _
  have : oPn pr < 8 := oPn_lt _
  have : ty.code < 16 := code_lt_VType _
  have e0 : bits (2 * 2 ^ 7 + ty.code * 2 ^ 3 + oPn pr) 0 3 = oPn pr := by simp only [bits]; omega
  have e1 : bits (2 * 2 ^ 7 + ty.code * 2 ^ 3 + oPn pr) 3 4 = ty.code := by simp only [bits]; omega
  have e2 : bits (2 * 2 ^ 7 + ty.code * 2 ^ 3 + oPn pr) 7 4 = 2 := by simp only [bits]; omega
  refine round_trip (i := .vexp2 d a ty pr) (op := 0x65) (fm := .X) (r := { d := d.val, a := a.r.val, ta := a.t.toNat, tc := oPen pr, f := 2 * 2 ^ 7 + ty.code * 2 ^ 3 + oPn pr }) rfl (by decide) rfl ?_ ?_
  · simp only [Raw.Fits]; first | omega | (simp; done) | (simp; omega)
  · simp only [Raw.only]
    show dec65 _ = _
    simp only [dec65, chk, e0, e1, e2, vR_val, okV_val, vS_eq, okV_src, ofCode_VType, code_top_VType, oP_eq, pen_or] <;> first | (simp [h]; done) | simp_all

theorem vlog2 (d : VReg) (a : VSrc) (ty : VType) (pr : Option PReg) : Statement (.vlog2 d a ty pr) := by
  intro h
  simp only [Instr.wf] at h
  have : a.r.val < 16 := a.r.isLt
  have : a.t.toNat < 2 := toNat_bool_lt _
  have : d.val < 16 := d.isLt
  have : oPen pr < 2 := oPen_lt _
  have : oPn pr < 8 := oPn_lt _
  have : ty.code < 16 := code_lt_VType _
  have e0 : bits (3 * 2 ^ 7 + ty.code * 2 ^ 3 + oPn pr) 0 3 = oPn pr := by simp only [bits]; omega
  have e1 : bits (3 * 2 ^ 7 + ty.code * 2 ^ 3 + oPn pr) 3 4 = ty.code := by simp only [bits]; omega
  have e2 : bits (3 * 2 ^ 7 + ty.code * 2 ^ 3 + oPn pr) 7 4 = 3 := by simp only [bits]; omega
  refine round_trip (i := .vlog2 d a ty pr) (op := 0x65) (fm := .X) (r := { d := d.val, a := a.r.val, ta := a.t.toNat, tc := oPen pr, f := 3 * 2 ^ 7 + ty.code * 2 ^ 3 + oPn pr }) rfl (by decide) rfl ?_ ?_
  · simp only [Raw.Fits]; first | omega | (simp; done) | (simp; omega)
  · simp only [Raw.only]
    show dec65 _ = _
    simp only [dec65, chk, e0, e1, e2, vR_val, okV_val, vS_eq, okV_src, ofCode_VType, code_top_VType, oP_eq, pen_or] <;> first | (simp [h]; done) | simp_all

theorem vdiv (d : VReg) (a : VSrc) (b : VSrc) (ty : VType) (pr : Option PReg) : Statement (.vdiv d a b ty pr) := by
  intro h
  simp only [Instr.wf] at h
  have : a.r.val < 16 := a.r.isLt
  have : a.t.toNat < 2 := toNat_bool_lt _
  have : b.r.val < 16 := b.r.isLt
  have : b.t.toNat < 2 := toNat_bool_lt _
  have : d.val < 16 := d.isLt
  have : oPen pr < 2 := oPen_lt _
  have : oPn pr < 8 := oPn_lt _
  have : ty.code < 16 := code_lt_VType _
  have e0 : bits (ty.code * 2 ^ 3 + oPn pr) 0 3 = oPn pr := by simp only [bits]; omega
  have e1 : bits (ty.code * 2 ^ 3 + oPn pr) 3 4 = ty.code := by simp only [bits]; omega
  have e2 : bits (ty.code * 2 ^ 3 + oPn pr) 7 4 = 0 := by simp only [bits]; omega
  refine round_trip (i := .vdiv d a b ty pr) (op := 0x66) (fm := .X) (r := { d := d.val, a := a.r.val, ta := a.t.toNat, b := b.r.val, tb := b.t.toNat, tc := oPen pr, f := ty.code * 2 ^ 3 + oPn pr }) rfl (by decide) rfl ?_ ?_
  · simp only [Raw.Fits]; first | omega | (simp; done) | (simp; omega)
  · simp only [Raw.only]
    show dec66 _ = _
    simp only [dec66, chk, e0, e1, e2, vR_val, okV_val, vS_eq, okV_src, ofCode_VType, code_top_VType, oP_eq, pen_or] <;> first | (simp [h]; done) | simp_all

theorem vsqrt (d : VReg) (a : VSrc) (ty : VType) (pr : Option PReg) : Statement (.vsqrt d a ty pr) := by
  intro h
  simp only [Instr.wf] at h
  have : a.r.val < 16 := a.r.isLt
  have : a.t.toNat < 2 := toNat_bool_lt _
  have : d.val < 16 := d.isLt
  have : oPen pr < 2 := oPen_lt _
  have : oPn pr < 8 := oPn_lt _
  have : ty.code < 16 := code_lt_VType _
  have e0 : bits (1 * 2 ^ 7 + ty.code * 2 ^ 3 + oPn pr) 0 3 = oPn pr := by simp only [bits]; omega
  have e1 : bits (1 * 2 ^ 7 + ty.code * 2 ^ 3 + oPn pr) 3 4 = ty.code := by simp only [bits]; omega
  have e2 : bits (1 * 2 ^ 7 + ty.code * 2 ^ 3 + oPn pr) 7 4 = 1 := by simp only [bits]; omega
  refine round_trip (i := .vsqrt d a ty pr) (op := 0x66) (fm := .X) (r := { d := d.val, a := a.r.val, ta := a.t.toNat, tc := oPen pr, f := 1 * 2 ^ 7 + ty.code * 2 ^ 3 + oPn pr }) rfl (by decide) rfl ?_ ?_
  · simp only [Raw.Fits]; first | omega | (simp; done) | (simp; omega)
  · simp only [Raw.only]
    show dec66 _ = _
    simp only [dec66, chk, e0, e1, e2, vR_val, okV_val, vS_eq, okV_src, ofCode_VType, code_top_VType, oP_eq, pen_or] <;> first | (simp [h]; done) | simp_all

theorem bcenc (d : VReg) (a : VSrc) (c : GReg) (ty : VType) : Statement (.bcenc d a c ty) := by
  intro h
  simp only [Instr.wf] at h
  have : a.r.val < 16 := a.r.isLt
  have : a.t.toNat < 2 := toNat_bool_lt _
  have : c.val < 64 := c.isLt
  have : d.val < 16 := d.isLt
  have : ty.code < 16 := code_lt_VType _
  have e0 : bits (ty.code * 2 ^ 3) 0 3 = 0 := by simp only [bits]; omega
  have e1 : bits (ty.code * 2 ^ 3) 3 4 = ty.code := by simp only [bits]; omega
  have e2 : bits (ty.code * 2 ^ 3) 7 4 = 0 := by simp only [bits]; omega
  refine round_trip (i := .bcenc d a c ty) (op := 0x68) (fm := .X) (r := { d := d.val, a := a.r.val, ta := a.t.toNat, c := c.val, f := ty.code * 2 ^ 3 }) rfl (by decide) rfl ?_ ?_
  · simp only [Raw.Fits]; first | omega | (simp; done) | (simp; omega)
  · simp only [Raw.only]
    show dec68 _ = _
    simp only [dec68, chk, e0, e1, e2, vR_val, okV_val, vS_eq, okV_src, gR_val, ofCode_VType, code_top_VType] <;> first | (simp [h]; done) | simp_all

theorem bcdec (d : VReg) (a : VSrc) (b : GSrc) (ty : VType) : Statement (.bcdec d a b ty) := by
  intro h
  simp only [Instr.wf] at h
  have : a.r.val < 16 := a.r.isLt
  have : a.t.toNat < 2 := toNat_bool_lt _
  have : b.r.val < 64 := b.r.isLt
  have : b.t.toNat < 2 := toNat_bool_lt _
  have : d.val < 16 := d.isLt
  have : ty.code < 16 := code_lt_VType _
  have e0 : bits (1 * 2 ^ 7 + ty.code * 2 ^ 3) 0 3 = 0 := by simp only [bits]; omega
  have e1 : bits (1 * 2 ^ 7 + ty.code * 2 ^ 3) 3 4 = ty.code := by simp only [bits]; omega
  have e2 : bits (1 * 2 ^ 7 + ty.code * 2 ^ 3) 7 4 = 1 := by simp only [bits]; omega
  refine round_trip (i := .bcdec d a b ty) (op := 0x68) (fm := .X) (r := { d := d.val, a := a.r.val, ta := a.t.toNat, b := b.r.val, tb := b.t.toNat, f := 1 * 2 ^ 7 + ty.code * 2 ^ 3 }) rfl (by decide) rfl ?_ ?_
  · simp only [Raw.Fits]; first | omega | (simp; done) | (simp; omega)
  · simp only [Raw.only]
    show dec68 _ = _
    simp only [dec68, chk, e0, e1, e2, vR_val, okV_val, vS_eq, okV_src, gS_eq, ofCode_VType, code_top_VType] <;> first | (simp [h]; done) | simp_all

theorem mxcfg (a : GSrc) : Statement (.mxcfg a) := by
  intro h
  simp only [Instr.wf] at h
  have : a.r.val < 64 := a.r.isLt
  have : a.t.toNat < 2 := toNat_bool_lt _
  refine round_trip (i := .mxcfg a) (op := 0x70) (fm := .X) (r := { a := a.r.val, ta := a.t.toNat }) rfl (by decide) rfl ?_ ?_
  · simp only [Raw.Fits]; first | omega | (simp; done) | (simp; omega)
  · simp only [Raw.only]
    show dec70 _ = _
    simp only [dec70, chk, bits_zero, gS_eq] <;> first | (simp [h]; done) | simp_all

theorem mxmm (d : ZReg) (a : GSrc) (b : GSrc) (k : BitVec 4) : Statement (.mxmm d a b k) := by
  intro h
  simp only [Instr.wf] at h
  have : a.r.val < 64 := a.r.isLt
  have : a.t.toNat < 2 := toNat_bool_lt _
  have : b.r.val < 64 := b.r.isLt
  have : b.t.toNat < 2 := toNat_bool_lt _
  have : d.val < 4 := d.isLt
  have : k.toNat < 16 := k.isLt
  have e0 : bits (k.toNat) 0 4 = k.toNat := by simp only [bits]; omega
  have e1 : bits (k.toNat) 4 4 = 0 := by simp only [bits]; omega
  have e2 : bits (k.toNat) 8 3 = 0 := by simp only [bits]; omega
  refine round_trip (i := .mxmm d a b k) (op := 0x71) (fm := .X) (r := { d := d.val, a := a.r.val, ta := a.t.toNat, b := b.r.val, tb := b.t.toNat, f := k.toNat }) rfl (by decide) rfl ?_ ?_
  · simp only [Raw.Fits]; first | omega | (simp; done) | (simp; omega)
  · simp only [Raw.only]
    show dec71 _ = _
    simp only [dec71, chk, e0, e1, e2, zR_val, okZ_val, gS_eq, ofNat_toNat] <;> first | (simp [h]; done) | simp_all

theorem mxmms (d : ZReg) (a : VSrc) (b : VSrc) (c : VSrc) (e : GSrc) (slab : BitVec 2) : Statement (.mxmms d a b c e slab) := by
  intro h
  simp only [Instr.wf] at h
  have : a.r.val < 16 := a.r.isLt
  have : a.t.toNat < 2 := toNat_bool_lt _
  have : b.r.val < 16 := b.r.isLt
  have : b.t.toNat < 2 := toNat_bool_lt _
  have : c.r.val < 16 := c.r.isLt
  have : c.t.toNat < 2 := toNat_bool_lt _
  have : d.val < 4 := d.isLt
  have : e.r.val < 64 := e.r.isLt
  have : e.t.toNat < 2 := toNat_bool_lt _
  have : slab.toNat < 4 := slab.isLt
  have e0 : bits (slab.toNat * 2 ^ 3) 0 3 = 0 := by simp only [bits]; omega
  have e1 : bits (slab.toNat * 2 ^ 3) 3 2 = slab.toNat := by simp only [bits]; omega
  have e2 : bits (slab.toNat * 2 ^ 3) 5 15 = 0 := by simp only [bits]; omega
  refine round_trip (i := .mxmms d a b c e slab) (op := 0x72) (fm := .Y) (r := { d := d.val, a := a.r.val, ta := a.t.toNat, b := b.r.val, tb := b.t.toNat, c := c.r.val, tc := c.t.toNat, e := e.r.val, te := e.t.toNat, f := slab.toNat * 2 ^ 3 }) rfl (by decide) rfl ?_ ?_
  · simp only [Raw.Fits]; first | omega | (simp; done) | (simp; omega)
  · simp only [Raw.only]
    show dec72 _ = _
    simp only [dec72, chk, e0, e1, e2, zR_val, okZ_val, vS_eq, okV_src, gS_eq, ofNat_toNat] <;> first | (simp [h]; done) | simp_all

theorem mxprune (d : VReg) (a : VSrc) (b : VSrc) (q : BitVec 2) : Statement (.mxprune d a b q) := by
  intro h
  simp only [Instr.wf] at h
  have : a.r.val < 16 := a.r.isLt
  have : a.t.toNat < 2 := toNat_bool_lt _
  have : b.r.val < 16 := b.r.isLt
  have : b.t.toNat < 2 := toNat_bool_lt _
  have : d.val < 16 := d.isLt
  have : q.toNat < 4 := q.isLt
  have e0 : bits (q.toNat) 0 2 = q.toNat := by simp only [bits]; omega
  have e1 : bits (q.toNat) 2 6 = 0 := by simp only [bits]; omega
  have e2 : bits (q.toNat) 8 3 = 0 := by simp only [bits]; omega
  refine round_trip (i := .mxprune d a b q) (op := 0x73) (fm := .X) (r := { d := d.val, a := a.r.val, ta := a.t.toNat, b := b.r.val, tb := b.t.toNat, f := q.toNat }) rfl (by decide) rfl ?_ ?_
  · simp only [Raw.Fits]; first | omega | (simp; done) | (simp; omega)
  · simp only [Raw.only]
    show dec73 _ = _
    simp only [dec73, chk, e0, e1, e2, vR_val, okV_val, vS_eq, okV_src, ofNat_toNat] <;> first | (simp [h]; done) | (have := Fin.val_ne_of_ne (by simpa using h : d ≠ a.r); simp_all)

theorem mxzero (d : ZReg) : Statement (.mxzero d) := by
  intro h
  simp only [Instr.wf] at h
  have : d.val < 4 := d.isLt
  refine round_trip (i := .mxzero d) (op := 0x74) (fm := .X) (r := { d := d.val }) rfl (by decide) rfl ?_ ?_
  · simp only [Raw.Fits]; first | omega | (simp; done) | (simp; omega)
  · simp only [Raw.only]
    show dec74 _ = _
    simp only [dec74, chk, bits_zero, zR_val, okZ_val] <;> first | (simp [h]; done) | simp_all

theorem mxld (d : ZReg) (a : GSrc) (b : GSrc) : Statement (.mxld d a b) := by
  intro h
  simp only [Instr.wf] at h
  have : a.r.val < 64 := a.r.isLt
  have : a.t.toNat < 2 := toNat_bool_lt _
  have : b.r.val < 64 := b.r.isLt
  have : b.t.toNat < 2 := toNat_bool_lt _
  have : d.val < 4 := d.isLt
  have e0 : bits (1 * 2 ^ 8) 0 3 = 0 := by simp only [bits]; omega
  have e1 : bits (1 * 2 ^ 8) 0 8 = 0 := by simp only [bits]; omega
  have e2 : bits (1 * 2 ^ 8) 3 1 = 0 := by simp only [bits]; omega
  have e3 : bits (1 * 2 ^ 8) 4 4 = 0 := by simp only [bits]; omega
  have e4 : bits (1 * 2 ^ 8) 8 3 = 1 := by simp only [bits]; omega
  refine round_trip (i := .mxld d a b) (op := 0x74) (fm := .X) (r := { d := d.val, a := a.r.val, ta := a.t.toNat, b := b.r.val, tb := b.t.toNat, f := 1 * 2 ^ 8 }) rfl (by decide) rfl ?_ ?_
  · simp only [Raw.Fits]; first | omega | (simp; done) | (simp; omega)
  · simp only [Raw.only]
    show dec74 _ = _
    simp only [dec74, chk, e0, e1, e2, e3, e4, zR_val, okZ_val, gS_eq] <;> first | (simp [h]; done) | simp_all

theorem mxst (a : GSrc) (b : GSrc) (c : ZSrc) (sat : Bool) (ty : VType) : Statement (.mxst a b c sat ty) := by
  intro h
  simp only [Instr.wf] at h
  have : a.r.val < 64 := a.r.isLt
  have : a.t.toNat < 2 := toNat_bool_lt _
  have : b.r.val < 64 := b.r.isLt
  have : b.t.toNat < 2 := toNat_bool_lt _
  have : c.r.val < 4 := c.r.isLt
  have : c.t.toNat < 2 := toNat_bool_lt _
  have : sat.toNat < 2 := toNat_bool_lt _
  have : ty.code < 16 := code_lt_VType _
  have e0 : bits (sat.toNat * 2 ^ 3 + ty.code * 2 ^ 4 + 2 * 2 ^ 8) 0 3 = 0 := by simp only [bits]; omega
  have e2 : bits (sat.toNat * 2 ^ 3 + ty.code * 2 ^ 4 + 2 * 2 ^ 8) 3 1 = sat.toNat := by simp only [bits]; omega
  have e3 : bits (sat.toNat * 2 ^ 3 + ty.code * 2 ^ 4 + 2 * 2 ^ 8) 4 4 = ty.code := by simp only [bits]; omega
  have e4 : bits (sat.toNat * 2 ^ 3 + ty.code * 2 ^ 4 + 2 * 2 ^ 8) 8 3 = 2 := by simp only [bits]; omega
  refine round_trip (i := .mxst a b c sat ty) (op := 0x74) (fm := .X) (r := { a := a.r.val, ta := a.t.toNat, b := b.r.val, tb := b.t.toNat, c := c.r.val, tc := c.t.toNat, f := sat.toNat * 2 ^ 3 + ty.code * 2 ^ 4 + 2 * 2 ^ 8 }) rfl (by decide) rfl ?_ ?_
  · simp only [Raw.Fits]; first | omega | (simp; done) | (simp; omega)
  · simp only [Raw.only]
    show dec74 _ = _
    simp only [dec74, chk, e0, e2, e3, e4, gS_eq, zS_eq, okZ_src, bool_beq, ofCode_VType, code_top_VType] <;> first | (simp [h]; done) | simp_all

theorem zrd (d : VReg) (a : ZSrc) (b : GSrc) : Statement (.zrd d a b) := by
  intro h
  simp only [Instr.wf] at h
  have : a.r.val < 4 := a.r.isLt
  have : a.t.toNat < 2 := toNat_bool_lt _
  have : b.r.val < 64 := b.r.isLt
  have : b.t.toNat < 2 := toNat_bool_lt _
  have : d.val < 16 := d.isLt
  refine round_trip (i := .zrd d a b) (op := 0x75) (fm := .X) (r := { d := d.val, a := a.r.val, ta := a.t.toNat, b := b.r.val, tb := b.t.toNat }) rfl (by decide) rfl ?_ ?_
  · simp only [Raw.Fits]; first | omega | (simp; done) | (simp; omega)
  · simp only [Raw.only]
    show dec75 _ = _
    simp only [dec75, chk, bits_zero, vR_val, okV_val, zS_eq, okZ_src, gS_eq] <;> first | (simp [h]; done) | simp_all

theorem zwr (d : ZReg) (a : VSrc) (b : GSrc) : Statement (.zwr d a b) := by
  intro h
  simp only [Instr.wf] at h
  have : a.r.val < 16 := a.r.isLt
  have : a.t.toNat < 2 := toNat_bool_lt _
  have : b.r.val < 64 := b.r.isLt
  have : b.t.toNat < 2 := toNat_bool_lt _
  have : d.val < 4 := d.isLt
  have e0 : bits (1 * 2 ^ 8) 0 8 = 0 := by simp only [bits]; omega
  have e1 : bits (1 * 2 ^ 8) 8 3 = 1 := by simp only [bits]; omega
  refine round_trip (i := .zwr d a b) (op := 0x75) (fm := .X) (r := { d := d.val, a := a.r.val, ta := a.t.toNat, b := b.r.val, tb := b.t.toNat, f := 1 * 2 ^ 8 }) rfl (by decide) rfl ?_ ?_
  · simp only [Raw.Fits]; first | omega | (simp; done) | (simp; omega)
  · simp only [Raw.only]
    show dec75 _ = _
    simp only [dec75, chk, e0, e1, zR_val, okZ_val, vS_eq, okV_src, gS_eq] <;> first | (simp [h]; done) | simp_all

theorem mxwait (d : ZReg) : Statement (.mxwait d) := by
  intro h
  simp only [Instr.wf] at h
  have : d.val < 4 := d.isLt
  refine round_trip (i := .mxwait d) (op := 0x76) (fm := .R) (r := { d := d.val }) rfl (by decide) rfl ?_ ?_
  · simp only [Raw.Fits]; first | omega | (simp; done) | (simp; omega)
  · simp only [Raw.only]
    show dec76 _ = _
    simp only [dec76, chk, zR_val, okZ_val] <;> first | (simp [h]; done) | simp_all

theorem mxrem (a : GSrc) : Statement (.mxrem a) := by
  intro h
  simp only [Instr.wf] at h
  have : a.r.val < 64 := a.r.isLt
  have : a.t.toNat < 2 := toNat_bool_lt _
  refine round_trip (i := .mxrem a) (op := 0x77) (fm := .X) (r := { a := a.r.val, ta := a.t.toNat }) rfl (by decide) rfl ?_ ?_
  · simp only [Raw.Fits]; first | omega | (simp; done) | (simp; omega)
  · simp only [Raw.only]
    show dec77 _ = _
    simp only [dec77, chk, bits_zero, gS_eq] <;> first | (simp [h]; done) | simp_all

theorem cpy (d : GReg) (a : GSrc) (tag : BitVec 6) (md : EngMode) : Statement (.cpy d a tag md) := by
  intro h
  simp only [Instr.wf] at h
  have : a.r.val < 64 := a.r.isLt
  have : a.t.toNat < 2 := toNat_bool_lt _
  have : d.val < 64 := d.isLt
  have : md.chan < 8 := chan_lt _
  have : md.code < 4 := engMode_lt _
  have : tag.toNat < 64 := tag.isLt
  have e0 : bits (md.chan * 2 ^ 11 + md.code * 2 ^ 9 + tag.toNat * 2 ^ 3) 0 3 = 0 := by simp only [bits]; omega
  have e1 : bits (md.chan * 2 ^ 11 + md.code * 2 ^ 9 + tag.toNat * 2 ^ 3) 3 6 = tag.toNat := by simp only [bits]; omega
  have e2 : bits (md.chan * 2 ^ 11 + md.code * 2 ^ 9 + tag.toNat * 2 ^ 3) 9 2 = md.code := by simp only [bits]; omega
  have e3 : bits (md.chan * 2 ^ 11 + md.code * 2 ^ 9 + tag.toNat * 2 ^ 3) 11 3 = md.chan := by simp only [bits]; omega
  have e4 : bits (md.chan * 2 ^ 11 + md.code * 2 ^ 9 + tag.toNat * 2 ^ 3) 14 6 = 0 := by simp only [bits]; omega
  refine round_trip (i := .cpy d a tag md) (op := 0x78) (fm := .Y) (r := { d := d.val, a := a.r.val, ta := a.t.toNat, f := md.chan * 2 ^ 11 + md.code * 2 ^ 9 + tag.toNat * 2 ^ 3 }) rfl (by decide) rfl ?_ ?_
  · simp only [Raw.Fits]; first | omega | (simp; done) | (simp; omega)
  · simp only [Raw.only]
    show dec78 _ = _
    simp only [dec78, chk, e0, e1, e2, e3, e4, gR_val, gS_eq, ofNat_toNat, engMode_eq, engMode_code_lt, engMode_chan_or] <;> first | (simp [h]; done) | simp_all

theorem cpym (d : GReg) (a : GSrc) (tag : BitVec 6) (md : EngMode) : Statement (.cpym d a tag md) := by
  intro h
  simp only [Instr.wf] at h
  have : a.r.val < 64 := a.r.isLt
  have : a.t.toNat < 2 := toNat_bool_lt _
  have : d.val < 64 := d.isLt
  have : md.chan < 8 := chan_lt _
  have : md.code < 4 := engMode_lt _
  have : tag.toNat < 64 := tag.isLt
  have e0 : bits (md.chan * 2 ^ 11 + md.code * 2 ^ 9 + tag.toNat * 2 ^ 3 + 1) 0 3 = 1 := by simp only [bits]; omega
  have e1 : bits (md.chan * 2 ^ 11 + md.code * 2 ^ 9 + tag.toNat * 2 ^ 3 + 1) 3 6 = tag.toNat := by simp only [bits]; omega
  have e2 : bits (md.chan * 2 ^ 11 + md.code * 2 ^ 9 + tag.toNat * 2 ^ 3 + 1) 9 2 = md.code := by simp only [bits]; omega
  have e3 : bits (md.chan * 2 ^ 11 + md.code * 2 ^ 9 + tag.toNat * 2 ^ 3 + 1) 11 3 = md.chan := by simp only [bits]; omega
  have e4 : bits (md.chan * 2 ^ 11 + md.code * 2 ^ 9 + tag.toNat * 2 ^ 3 + 1) 14 6 = 0 := by simp only [bits]; omega
  refine round_trip (i := .cpym d a tag md) (op := 0x78) (fm := .Y) (r := { d := d.val, a := a.r.val, ta := a.t.toNat, f := md.chan * 2 ^ 11 + md.code * 2 ^ 9 + tag.toNat * 2 ^ 3 + 1 }) rfl (by decide) rfl ?_ ?_
  · simp only [Raw.Fits]; first | omega | (simp; done) | (simp; omega)
  · simp only [Raw.only]
    show dec78 _ = _
    simp only [dec78, chk, e0, e1, e2, e3, e4, gR_val, gS_eq, ofNat_toNat, engMode_eq, engMode_code_lt, engMode_chan_or] <;> first | (simp [h]; done) | simp_all

theorem gathr (d : GReg) (a : GSrc) (tag : BitVec 6) (md : EngMode) : Statement (.gathr d a tag md) := by
  intro h
  simp only [Instr.wf] at h
  have : a.r.val < 64 := a.r.isLt
  have : a.t.toNat < 2 := toNat_bool_lt _
  have : d.val < 64 := d.isLt
  have : md.chan < 8 := chan_lt _
  have : md.code < 4 := engMode_lt _
  have : tag.toNat < 64 := tag.isLt
  have e0 : bits (md.chan * 2 ^ 11 + md.code * 2 ^ 9 + tag.toNat * 2 ^ 3 + 2) 0 3 = 2 := by simp only [bits]; omega
  have e1 : bits (md.chan * 2 ^ 11 + md.code * 2 ^ 9 + tag.toNat * 2 ^ 3 + 2) 3 6 = tag.toNat := by simp only [bits]; omega
  have e2 : bits (md.chan * 2 ^ 11 + md.code * 2 ^ 9 + tag.toNat * 2 ^ 3 + 2) 9 2 = md.code := by simp only [bits]; omega
  have e3 : bits (md.chan * 2 ^ 11 + md.code * 2 ^ 9 + tag.toNat * 2 ^ 3 + 2) 11 3 = md.chan := by simp only [bits]; omega
  have e4 : bits (md.chan * 2 ^ 11 + md.code * 2 ^ 9 + tag.toNat * 2 ^ 3 + 2) 14 6 = 0 := by simp only [bits]; omega
  refine round_trip (i := .gathr d a tag md) (op := 0x78) (fm := .Y) (r := { d := d.val, a := a.r.val, ta := a.t.toNat, f := md.chan * 2 ^ 11 + md.code * 2 ^ 9 + tag.toNat * 2 ^ 3 + 2 }) rfl (by decide) rfl ?_ ?_
  · simp only [Raw.Fits]; first | omega | (simp; done) | (simp; omega)
  · simp only [Raw.only]
    show dec78 _ = _
    simp only [dec78, chk, e0, e1, e2, e3, e4, gR_val, gS_eq, ofNat_toNat, engMode_eq, engMode_code_lt, engMode_chan_or] <;> first | (simp [h]; done) | simp_all

theorem scatr (d : GReg) (a : GSrc) (tag : BitVec 6) (md : EngMode) : Statement (.scatr d a tag md) := by
  intro h
  simp only [Instr.wf] at h
  have : a.r.val < 64 := a.r.isLt
  have : a.t.toNat < 2 := toNat_bool_lt _
  have : d.val < 64 := d.isLt
  have : md.chan < 8 := chan_lt _
  have : md.code < 4 := engMode_lt _
  have : tag.toNat < 64 := tag.isLt
  have e0 : bits (md.chan * 2 ^ 11 + md.code * 2 ^ 9 + tag.toNat * 2 ^ 3 + 3) 0 3 = 3 := by simp only [bits]; omega
  have e1 : bits (md.chan * 2 ^ 11 + md.code * 2 ^ 9 + tag.toNat * 2 ^ 3 + 3) 3 6 = tag.toNat := by simp only [bits]; omega
  have e2 : bits (md.chan * 2 ^ 11 + md.code * 2 ^ 9 + tag.toNat * 2 ^ 3 + 3) 9 2 = md.code := by simp only [bits]; omega
  have e3 : bits (md.chan * 2 ^ 11 + md.code * 2 ^ 9 + tag.toNat * 2 ^ 3 + 3) 11 3 = md.chan := by simp only [bits]; omega
  have e4 : bits (md.chan * 2 ^ 11 + md.code * 2 ^ 9 + tag.toNat * 2 ^ 3 + 3) 14 6 = 0 := by simp only [bits]; omega
  refine round_trip (i := .scatr d a tag md) (op := 0x78) (fm := .Y) (r := { d := d.val, a := a.r.val, ta := a.t.toNat, f := md.chan * 2 ^ 11 + md.code * 2 ^ 9 + tag.toNat * 2 ^ 3 + 3 }) rfl (by decide) rfl ?_ ?_
  · simp only [Raw.Fits]; first | omega | (simp; done) | (simp; omega)
  · simp only [Raw.only]
    show dec78 _ = _
    simp only [dec78, chk, e0, e1, e2, e3, e4, gR_val, gS_eq, ofNat_toNat, engMode_eq, engMode_code_lt, engMode_chan_or] <;> first | (simp [h]; done) | simp_all

theorem embag (d : GReg) (a : GSrc) (tag : BitVec 6) (md : EngMode) : Statement (.embag d a tag md) := by
  intro h
  simp only [Instr.wf] at h
  have : a.r.val < 64 := a.r.isLt
  have : a.t.toNat < 2 := toNat_bool_lt _
  have : d.val < 64 := d.isLt
  have : md.chan < 8 := chan_lt _
  have : md.code < 4 := engMode_lt _
  have : tag.toNat < 64 := tag.isLt
  have e0 : bits (md.chan * 2 ^ 11 + md.code * 2 ^ 9 + tag.toNat * 2 ^ 3 + 4) 0 3 = 4 := by simp only [bits]; omega
  have e1 : bits (md.chan * 2 ^ 11 + md.code * 2 ^ 9 + tag.toNat * 2 ^ 3 + 4) 3 6 = tag.toNat := by simp only [bits]; omega
  have e2 : bits (md.chan * 2 ^ 11 + md.code * 2 ^ 9 + tag.toNat * 2 ^ 3 + 4) 9 2 = md.code := by simp only [bits]; omega
  have e3 : bits (md.chan * 2 ^ 11 + md.code * 2 ^ 9 + tag.toNat * 2 ^ 3 + 4) 11 3 = md.chan := by simp only [bits]; omega
  have e4 : bits (md.chan * 2 ^ 11 + md.code * 2 ^ 9 + tag.toNat * 2 ^ 3 + 4) 14 6 = 0 := by simp only [bits]; omega
  refine round_trip (i := .embag d a tag md) (op := 0x78) (fm := .Y) (r := { d := d.val, a := a.r.val, ta := a.t.toNat, f := md.chan * 2 ^ 11 + md.code * 2 ^ 9 + tag.toNat * 2 ^ 3 + 4 }) rfl (by decide) rfl ?_ ?_
  · simp only [Raw.Fits]; first | omega | (simp; done) | (simp; omega)
  · simp only [Raw.only]
    show dec78 _ = _
    simp only [dec78, chk, e0, e1, e2, e3, e4, gR_val, gS_eq, ofNat_toNat, engMode_eq, engMode_code_lt, engMode_chan_or] <;> first | (simp [h]; done) | simp_all

theorem coll (d : GReg) (a : GSrc) (tag : BitVec 6) (md : EngMode) : Statement (.coll d a tag md) := by
  intro h
  simp only [Instr.wf] at h
  have : a.r.val < 64 := a.r.isLt
  have : a.t.toNat < 2 := toNat_bool_lt _
  have : d.val < 64 := d.isLt
  have : md.chan < 8 := chan_lt _
  have : md.code < 4 := engMode_lt _
  have : tag.toNat < 64 := tag.isLt
  have e0 : bits (md.chan * 2 ^ 11 + md.code * 2 ^ 9 + tag.toNat * 2 ^ 3 + 5) 0 3 = 5 := by simp only [bits]; omega
  have e1 : bits (md.chan * 2 ^ 11 + md.code * 2 ^ 9 + tag.toNat * 2 ^ 3 + 5) 3 6 = tag.toNat := by simp only [bits]; omega
  have e2 : bits (md.chan * 2 ^ 11 + md.code * 2 ^ 9 + tag.toNat * 2 ^ 3 + 5) 9 2 = md.code := by simp only [bits]; omega
  have e3 : bits (md.chan * 2 ^ 11 + md.code * 2 ^ 9 + tag.toNat * 2 ^ 3 + 5) 11 3 = md.chan := by simp only [bits]; omega
  have e4 : bits (md.chan * 2 ^ 11 + md.code * 2 ^ 9 + tag.toNat * 2 ^ 3 + 5) 14 6 = 0 := by simp only [bits]; omega
  refine round_trip (i := .coll d a tag md) (op := 0x78) (fm := .Y) (r := { d := d.val, a := a.r.val, ta := a.t.toNat, f := md.chan * 2 ^ 11 + md.code * 2 ^ 9 + tag.toNat * 2 ^ 3 + 5 }) rfl (by decide) rfl ?_ ?_
  · simp only [Raw.Fits]; first | omega | (simp; done) | (simp; omega)
  · simp only [Raw.only]
    show dec78 _ = _
    simp only [dec78, chk, e0, e1, e2, e3, e4, gR_val, gS_eq, ofNat_toNat, engMode_eq, engMode_code_lt, engMode_chan_or] <;> first | (simp [h]; done) | (cases md <;> simp_all [EngMode.code, EngMode.notArr])

theorem cpywait (d : GReg) (tag : BitVec 6) (vis : Bool) : Statement (.cpywait d tag vis) := by
  intro h
  simp only [Instr.wf] at h
  have : d.val < 64 := d.isLt
  have : tag.toNat < 64 := tag.isLt
  have : vis.toNat < 2 := toNat_bool_lt _
  have e0 : bits (tag.toNat + vis.toNat * 2 ^ 6) 0 6 = tag.toNat := by simp only [bits]; omega
  have e1 : bits (tag.toNat + vis.toNat * 2 ^ 6) 6 1 = vis.toNat := by simp only [bits]; omega
  have e2 : bits (tag.toNat + vis.toNat * 2 ^ 6) 6 14 = vis.toNat := by simp only [bits]; omega
  have e3 : bits (tag.toNat + vis.toNat * 2 ^ 6) 7 13 = 0 := by simp only [bits]; omega
  refine round_trip (i := .cpywait d tag vis) (op := 0x79) (fm := .I) (r := { d := d.val, imm := tag.toNat + vis.toNat * 2 ^ 6 }) rfl (by decide) rfl ?_ ?_
  · simp only [Raw.Fits]; first | omega | (simp; done) | (simp; omega)
  · simp only [Raw.only]
    show dec79 _ = _
    simp only [dec79, chk, e0, e1, e2, e3, gR_val, ofNat_toNat, bool_beq] <;> first | (simp [h]; done) | simp_all

theorem cpyst (d : GReg) (tag : BitVec 6) : Statement (.cpyst d tag) := by
  intro h
  simp only [Instr.wf] at h
  have : d.val < 64 := d.isLt
  have : tag.toNat < 64 := tag.isLt
  have e0 : bits (tag.toNat) 0 6 = tag.toNat := by simp only [bits]; omega
  have e1 : bits (tag.toNat) 6 1 = 0 := by simp only [bits]; omega
  have e2 : bits (tag.toNat) 6 14 = 0 := by simp only [bits]; omega
  have e3 : bits (tag.toNat) 7 13 = 0 := by simp only [bits]; omega
  refine round_trip (i := .cpyst d tag) (op := 0x79) (fm := .I) (r := { d := d.val, f := 1, imm := tag.toNat }) rfl (by decide) rfl ?_ ?_
  · simp only [Raw.Fits]; first | omega | (simp; done) | (simp; omega)
  · simp only [Raw.only]
    show dec79 _ = _
    simp only [dec79, chk, e0, e1, e2, e3, gR_val, ofNat_toNat] <;> first | (simp [h]; done) | simp_all

theorem cpyres (d : GReg) (tag : BitVec 6) : Statement (.cpyres d tag) := by
  intro h
  simp only [Instr.wf] at h
  have : d.val < 64 := d.isLt
  have : tag.toNat < 64 := tag.isLt
  have e0 : bits (tag.toNat) 0 6 = tag.toNat := by simp only [bits]; omega
  have e1 : bits (tag.toNat) 6 1 = 0 := by simp only [bits]; omega
  have e2 : bits (tag.toNat) 6 14 = 0 := by simp only [bits]; omega
  have e3 : bits (tag.toNat) 7 13 = 0 := by simp only [bits]; omega
  refine round_trip (i := .cpyres d tag) (op := 0x79) (fm := .I) (r := { d := d.val, f := 2, imm := tag.toNat }) rfl (by decide) rfl ?_ ?_
  · simp only [Raw.Fits]; first | omega | (simp; done) | (simp; omega)
  · simp only [Raw.only]
    show dec79 _ = _
    simp only [dec79, chk, e0, e1, e2, e3, gR_val, ofNat_toNat] <;> first | (simp [h]; done) | simp_all

theorem barr (d : BReg) : Statement (.barr d) := by
  intro h
  simp only [Instr.wf] at h
  have : d.val < 8 := d.isLt
  refine round_trip (i := .barr d) (op := 0x7A) (fm := .X) (r := { d := d.val }) rfl (by decide) rfl ?_ ?_
  · simp only [Raw.Fits]; first | omega | (simp; done) | (simp; omega)
  · simp only [Raw.only]
    show dec7A _ = _
    simp only [dec7A, chk, bits_zero, bR_val, okB_val] <;> first | (simp [h]; done) | simp_all

theorem bwait (d : BReg) : Statement (.bwait d) := by
  intro h
  simp only [Instr.wf] at h
  have : d.val < 8 := d.isLt
  have e0 : bits (1 * 2 ^ 8) 0 8 = 0 := by simp only [bits]; omega
  have e1 : bits (1 * 2 ^ 8) 8 3 = 1 := by simp only [bits]; omega
  refine round_trip (i := .bwait d) (op := 0x7A) (fm := .X) (r := { d := d.val, f := 1 * 2 ^ 8 }) rfl (by decide) rfl ?_ ?_
  · simp only [Raw.Fits]; first | omega | (simp; done) | (simp; omega)
  · simp only [Raw.only]
    show dec7A _ = _
    simp only [dec7A, chk, e0, e1, bR_val, okB_val] <;> first | (simp [h]; done) | simp_all

theorem barrd (d : BReg) (a : GSrc) : Statement (.barrd d a) := by
  intro h
  simp only [Instr.wf] at h
  have : a.r.val < 64 := a.r.isLt
  have : a.t.toNat < 2 := toNat_bool_lt _
  have : d.val < 8 := d.isLt
  have e0 : bits (2 * 2 ^ 8) 0 8 = 0 := by simp only [bits]; omega
  have e1 : bits (2 * 2 ^ 8) 8 3 = 2 := by simp only [bits]; omega
  refine round_trip (i := .barrd d a) (op := 0x7A) (fm := .X) (r := { d := d.val, a := a.r.val, ta := a.t.toNat, f := 2 * 2 ^ 8 }) rfl (by decide) rfl ?_ ?_
  · simp only [Raw.Fits]; first | omega | (simp; done) | (simp; omega)
  · simp only [Raw.only]
    show dec7A _ = _
    simp only [dec7A, chk, e0, e1, bR_val, okB_val, gS_eq] <;> first | (simp [h]; done) | simp_all

theorem bwany (d : GReg) (a : GSrc) : Statement (.bwany d a) := by
  intro h
  simp only [Instr.wf] at h
  have : a.r.val < 64 := a.r.isLt
  have : a.t.toNat < 2 := toNat_bool_lt _
  have : d.val < 64 := d.isLt
  have e0 : bits (3 * 2 ^ 8) 0 8 = 0 := by simp only [bits]; omega
  have e1 : bits (3 * 2 ^ 8) 8 3 = 3 := by simp only [bits]; omega
  refine round_trip (i := .bwany d a) (op := 0x7A) (fm := .X) (r := { d := d.val, a := a.r.val, ta := a.t.toNat, f := 3 * 2 ^ 8 }) rfl (by decide) rfl ?_ ?_
  · simp only [Raw.Fits]; first | omega | (simp; done) | (simp; omega)
  · simp only [Raw.only]
    show dec7A _ = _
    simp only [dec7A, chk, e0, e1, gR_val, gS_eq] <;> first | (simp [h]; done) | simp_all

theorem bdom (d : BReg) (a : GSrc) : Statement (.bdom d a) := by
  intro h
  simp only [Instr.wf] at h
  have : a.r.val < 64 := a.r.isLt
  have : a.t.toNat < 2 := toNat_bool_lt _
  have : d.val < 8 := d.isLt
  have e0 : bits (4 * 2 ^ 8) 0 8 = 0 := by simp only [bits]; omega
  have e1 : bits (4 * 2 ^ 8) 8 3 = 4 := by simp only [bits]; omega
  refine round_trip (i := .bdom d a) (op := 0x7A) (fm := .X) (r := { d := d.val, a := a.r.val, ta := a.t.toNat, f := 4 * 2 ^ 8 }) rfl (by decide) rfl ?_ ?_
  · simp only [Raw.Fits]; first | omega | (simp; done) | (simp; omega)
  · simp only [Raw.only]
    show dec7A _ = _
    simp only [dec7A, chk, e0, e1, bR_val, okB_val, gS_eq] <;> first | (simp [h]; done) | simp_all

theorem mtxlk (n : BitVec 3) : Statement (.mtxlk n) := by
  intro h
  simp only [Instr.wf] at h
  have : n.toNat < 8 := n.isLt
  have e2 : bits (n.toNat) 0 3 = n.toNat := by simp only [bits]; omega
  have e4 : bits (n.toNat) 3 17 = 0 := by simp only [bits]; omega
  have e5 : bits (n.toNat) 6 14 = 0 := by simp only [bits]; omega
  refine round_trip (i := .mtxlk n) (op := 0x7B) (fm := .I) (r := { imm := n.toNat }) rfl (by decide) rfl ?_ ?_
  · simp only [Raw.Fits]; first | omega | (simp; done) | (simp; omega)
  · simp only [Raw.only]
    show dec7B _ = _
    simp only [dec7B, chk, bits_zero, e2, e4, e5, ofNat_toNat] <;> first | (simp [h]; done) | simp_all

theorem mtxul (n : BitVec 3) : Statement (.mtxul n) := by
  intro h
  simp only [Instr.wf] at h
  have : n.toNat < 8 := n.isLt
  have e0 : bits (1) 0 5 = 1 := by simp only [bits]; omega
  have e2 : bits (n.toNat) 0 3 = n.toNat := by simp only [bits]; omega
  have e4 : bits (n.toNat) 3 17 = 0 := by simp only [bits]; omega
  have e5 : bits (n.toNat) 6 14 = 0 := by simp only [bits]; omega
  refine round_trip (i := .mtxul n) (op := 0x7B) (fm := .I) (r := { f := 1, imm := n.toNat }) rfl (by decide) rfl ?_ ?_
  · simp only [Raw.Fits]; first | omega | (simp; done) | (simp; omega)
  · simp only [Raw.only]
    show dec7B _ = _
    simp only [dec7B, chk, e0, e2, e4, e5, ofNat_toNat] <;> first | (simp [h]; done) | simp_all

theorem semp (n : BitVec 3) : Statement (.semp n) := by
  intro h
  simp only [Instr.wf] at h
  have : n.toNat < 8 := n.isLt
  have e0 : bits (2) 0 5 = 2 := by simp only [bits]; omega
  have e2 : bits (n.toNat) 0 3 = n.toNat := by simp only [bits]; omega
  have e4 : bits (n.toNat) 3 17 = 0 := by simp only [bits]; omega
  have e5 : bits (n.toNat) 6 14 = 0 := by simp only [bits]; omega
  refine round_trip (i := .semp n) (op := 0x7B) (fm := .I) (r := { f := 2, imm := n.toNat }) rfl (by decide) rfl ?_ ?_
  · simp only [Raw.Fits]; first | omega | (simp; done) | (simp; omega)
  · simp only [Raw.only]
    show dec7B _ = _
    simp only [dec7B, chk, e0, e2, e4, e5, ofNat_toNat] <;> first | (simp [h]; done) | simp_all

theorem semv (n : BitVec 3) : Statement (.semv n) := by
  intro h
  simp only [Instr.wf] at h
  have : n.toNat < 8 := n.isLt
  have e0 : bits (3) 0 5 = 3 := by simp only [bits]; omega
  have e2 : bits (n.toNat) 0 3 = n.toNat := by simp only [bits]; omega
  have e4 : bits (n.toNat) 3 17 = 0 := by simp only [bits]; omega
  have e5 : bits (n.toNat) 6 14 = 0 := by simp only [bits]; omega
  refine round_trip (i := .semv n) (op := 0x7B) (fm := .I) (r := { f := 3, imm := n.toNat }) rfl (by decide) rfl ?_ ?_
  · simp only [Raw.Fits]; first | omega | (simp; done) | (simp; omega)
  · simp only [Raw.only]
    show dec7B _ = _
    simp only [dec7B, chk, e0, e2, e4, e5, ofNat_toNat] <;> first | (simp [h]; done) | simp_all

theorem qcfgSet (a : GSrc) (q : BitVec 4) : Statement (.qcfgSet a q) := by
  intro h
  simp only [Instr.wf] at h
  have : a.r.val < 64 := a.r.isLt
  have : a.t.toNat < 2 := toNat_bool_lt _
  have : q.toNat < 16 := q.isLt
  have e0 : bits (4) 0 5 = 4 := by simp only [bits]; omega
  have e1 : bits (q.toNat * 2 ^ 2) 0 2 = 0 := by simp only [bits]; omega
  have e3 : bits (q.toNat * 2 ^ 2) 2 4 = q.toNat := by simp only [bits]; omega
  have e5 : bits (q.toNat * 2 ^ 2) 6 14 = 0 := by simp only [bits]; omega
  refine round_trip (i := .qcfgSet a q) (op := 0x7B) (fm := .I) (r := { a := a.r.val, ta := a.t.toNat, f := 4, imm := q.toNat * 2 ^ 2 }) rfl (by decide) rfl ?_ ?_
  · simp only [Raw.Fits]; first | omega | (simp; done) | (simp; omega)
  · simp only [Raw.only]
    show dec7B _ = _
    simp only [dec7B, chk, e0, e1, e3, e5, gS_eq, ofNat_toNat] <;> first | (simp [h]; done) | simp_all

theorem qcfgPut (a : GSrc) (q : BitVec 4) : Statement (.qcfgPut a q) := by
  intro h
  simp only [Instr.wf] at h
  have : a.r.val < 64 := a.r.isLt
  have : a.t.toNat < 2 := toNat_bool_lt _
  have : q.toNat < 16 := q.isLt
  have e0 : bits (4) 0 5 = 4 := by simp only [bits]; omega
  have e1 : bits (1 + q.toNat * 2 ^ 2) 0 2 = 1 := by simp only [bits]; omega
  have e3 : bits (1 + q.toNat * 2 ^ 2) 2 4 = q.toNat := by simp only [bits]; omega
  have e5 : bits (1 + q.toNat * 2 ^ 2) 6 14 = 0 := by simp only [bits]; omega
  refine round_trip (i := .qcfgPut a q) (op := 0x7B) (fm := .I) (r := { a := a.r.val, ta := a.t.toNat, f := 4, imm := 1 + q.toNat * 2 ^ 2 }) rfl (by decide) rfl ?_ ?_
  · simp only [Raw.Fits]; first | omega | (simp; done) | (simp; omega)
  · simp only [Raw.only]
    show dec7B _ = _
    simp only [dec7B, chk, e0, e1, e3, e5, gS_eq, ofNat_toNat] <;> first | (simp [h]; done) | simp_all

theorem qcfgGet (d : GReg) (q : BitVec 4) : Statement (.qcfgGet d q) := by
  intro h
  simp only [Instr.wf] at h
  have : d.val < 64 := d.isLt
  have : q.toNat < 16 := q.isLt
  have e0 : bits (4) 0 5 = 4 := by simp only [bits]; omega
  have e1 : bits (2 + q.toNat * 2 ^ 2) 0 2 = 2 := by simp only [bits]; omega
  have e3 : bits (2 + q.toNat * 2 ^ 2) 2 4 = q.toNat := by simp only [bits]; omega
  have e5 : bits (2 + q.toNat * 2 ^ 2) 6 14 = 0 := by simp only [bits]; omega
  refine round_trip (i := .qcfgGet d q) (op := 0x7B) (fm := .I) (r := { d := d.val, f := 4, imm := 2 + q.toNat * 2 ^ 2 }) rfl (by decide) rfl ?_ ?_
  · simp only [Raw.Fits]; first | omega | (simp; done) | (simp; omega)
  · simp only [Raw.only]
    show dec7B _ = _
    simp only [dec7B, chk, e0, e1, e3, e5, gR_val, ofNat_toNat] <;> first | (simp [h]; done) | simp_all

theorem slice (d : GReg) (a : GSrc) (b : GSrc) : Statement (.slice d a b) := by
  intro h
  simp only [Instr.wf] at h
  have : a.r.val < 64 := a.r.isLt
  have : a.t.toNat < 2 := toNat_bool_lt _
  have : b.r.val < 64 := b.r.isLt
  have : b.t.toNat < 2 := toNat_bool_lt _
  have : d.val < 64 := d.isLt
  refine round_trip (i := .slice d a b) (op := 0x7C) (fm := .X) (r := { d := d.val, a := a.r.val, ta := a.t.toNat, b := b.r.val, tb := b.t.toNat }) rfl (by decide) rfl ?_ ?_
  · simp only [Raw.Fits]; first | omega | (simp; done) | (simp; omega)
  · simp only [Raw.only]
    show dec7C _ = _
    simp only [dec7C, chk, bits_zero, gR_val, gS_eq] <;> first | (simp [h]; done) | simp_all

theorem sjoin (d : GReg) (a : GSrc) : Statement (.sjoin d a) := by
  intro h
  simp only [Instr.wf] at h
  have : a.r.val < 64 := a.r.isLt
  have : a.t.toNat < 2 := toNat_bool_lt _
  have : d.val < 64 := d.isLt
  have e0 : bits (1 * 2 ^ 8) 0 1 = 0 := by simp only [bits]; omega
  have e1 : bits (1 * 2 ^ 8) 0 8 = 0 := by simp only [bits]; omega
  have e2 : bits (1 * 2 ^ 8) 1 7 = 0 := by simp only [bits]; omega
  have e3 : bits (1 * 2 ^ 8) 8 3 = 1 := by simp only [bits]; omega
  refine round_trip (i := .sjoin d a) (op := 0x7C) (fm := .X) (r := { d := d.val, a := a.r.val, ta := a.t.toNat, f := 1 * 2 ^ 8 }) rfl (by decide) rfl ?_ ?_
  · simp only [Raw.Fits]; first | omega | (simp; done) | (simp; omega)
  · simp only [Raw.only]
    show dec7C _ = _
    simp only [dec7C, chk, e0, e1, e2, e3, gR_val, gS_eq] <;> first | (simp [h]; done) | simp_all

theorem yields (a : GSrc) (b : GSrc) : Statement (.yields a b) := by
  intro h
  simp only [Instr.wf] at h
  have : a.r.val < 64 := a.r.isLt
  have : a.t.toNat < 2 := toNat_bool_lt _
  have : b.r.val < 64 := b.r.isLt
  have : b.t.toNat < 2 := toNat_bool_lt _
  have e0 : bits (2 * 2 ^ 8) 0 1 = 0 := by simp only [bits]; omega
  have e1 : bits (2 * 2 ^ 8) 0 8 = 0 := by simp only [bits]; omega
  have e2 : bits (2 * 2 ^ 8) 1 7 = 0 := by simp only [bits]; omega
  have e3 : bits (2 * 2 ^ 8) 8 3 = 2 := by simp only [bits]; omega
  refine round_trip (i := .yields a b) (op := 0x7C) (fm := .X) (r := { a := a.r.val, ta := a.t.toNat, b := b.r.val, tb := b.t.toNat, f := 2 * 2 ^ 8 }) rfl (by decide) rfl ?_ ?_
  · simp only [Raw.Fits]; first | omega | (simp; done) | (simp; omega)
  · simp only [Raw.only]
    show dec7C _ = _
    simp only [dec7C, chk, e0, e1, e2, e3, gS_eq] <;> first | (simp [h]; done) | simp_all

theorem wlapp (a : GSrc) (b : GSrc) : Statement (.wlapp a b) := by
  intro h
  simp only [Instr.wf] at h
  have : a.r.val < 64 := a.r.isLt
  have : a.t.toNat < 2 := toNat_bool_lt _
  have : b.r.val < 64 := b.r.isLt
  have : b.t.toNat < 2 := toNat_bool_lt _
  have e0 : bits (3 * 2 ^ 8) 0 1 = 0 := by simp only [bits]; omega
  have e1 : bits (3 * 2 ^ 8) 0 8 = 0 := by simp only [bits]; omega
  have e2 : bits (3 * 2 ^ 8) 1 7 = 0 := by simp only [bits]; omega
  have e3 : bits (3 * 2 ^ 8) 8 3 = 3 := by simp only [bits]; omega
  refine round_trip (i := .wlapp a b) (op := 0x7C) (fm := .X) (r := { a := a.r.val, ta := a.t.toNat, b := b.r.val, tb := b.t.toNat, f := 3 * 2 ^ 8 }) rfl (by decide) rfl ?_ ?_
  · simp only [Raw.Fits]; first | omega | (simp; done) | (simp; omega)
  · simp only [Raw.only]
    show dec7C _ = _
    simp only [dec7C, chk, e0, e1, e2, e3, gS_eq] <;> first | (simp [h]; done) | simp_all

theorem wlpop (d : GReg) (a : GSrc) (c : GReg) (nw : Bool) : Statement (.wlpop d a c nw) := by
  intro h
  simp only [Instr.wf] at h
  have : a.r.val < 64 := a.r.isLt
  have : a.t.toNat < 2 := toNat_bool_lt _
  have : c.val < 64 := c.isLt
  have : d.val < 64 := d.isLt
  have : nw.toNat < 2 := toNat_bool_lt _
  have e0 : bits (nw.toNat + 4 * 2 ^ 8) 0 1 = nw.toNat := by simp only [bits]; omega
  have e1 : bits (nw.toNat + 4 * 2 ^ 8) 0 8 = nw.toNat := by simp only [bits]; omega
  have e2 : bits (nw.toNat + 4 * 2 ^ 8) 1 7 = 0 := by simp only [bits]; omega
  have e3 : bits (nw.toNat + 4 * 2 ^ 8) 8 3 = 4 := by simp only [bits]; omega
  refine round_trip (i := .wlpop d a c nw) (op := 0x7C) (fm := .X) (r := { d := d.val, a := a.r.val, ta := a.t.toNat, c := c.val, f := nw.toNat + 4 * 2 ^ 8 }) rfl (by decide) rfl ?_ ?_
  · simp only [Raw.Fits]; first | omega | (simp; done) | (simp; omega)
  · simp only [Raw.only]
    show dec7C _ = _
    simp only [dec7C, chk, e0, e1, e2, e3, gR_val, gS_eq, bool_beq] <;> first | (simp [h]; done) | (have := Fin.val_ne_of_ne (by simpa using h : d ≠ c); simp_all)

theorem wlquiet (d : BReg) : Statement (.wlquiet d) := by
  intro h
  simp only [Instr.wf] at h
  have : d.val < 8 := d.isLt
  have e0 : bits (5 * 2 ^ 8) 0 1 = 0 := by simp only [bits]; omega
  have e1 : bits (5 * 2 ^ 8) 0 8 = 0 := by simp only [bits]; omega
  have e2 : bits (5 * 2 ^ 8) 1 7 = 0 := by simp only [bits]; omega
  have e3 : bits (5 * 2 ^ 8) 8 3 = 5 := by simp only [bits]; omega
  refine round_trip (i := .wlquiet d) (op := 0x7C) (fm := .X) (r := { d := d.val, f := 5 * 2 ^ 8 }) rfl (by decide) rfl ?_ ?_
  · simp only [Raw.Fits]; first | omega | (simp; done) | (simp; omega)
  · simp only [Raw.only]
    show dec7C _ = _
    simp only [dec7C, chk, e0, e1, e2, e3, bR_val, okB_val] <;> first | (simp [h]; done) | simp_all

theorem send (a : GSrc) (b : GSrc) : Statement (.send a b) := by
  intro h
  simp only [Instr.wf] at h
  have : a.r.val < 64 := a.r.isLt
  have : a.t.toNat < 2 := toNat_bool_lt _
  have : b.r.val < 64 := b.r.isLt
  have : b.t.toNat < 2 := toNat_bool_lt _
  refine round_trip (i := .send a b) (op := 0x7D) (fm := .R) (r := { a := a.r.val, ta := a.t.toNat, b := b.r.val, tb := b.t.toNat }) rfl (by decide) rfl ?_ ?_
  · simp only [Raw.Fits]; first | omega | (simp; done) | (simp; omega)
  · simp only [Raw.only]
    show dec7D _ = _
    simp only [dec7D, chk, gS_eq] <;> first | (simp [h]; done) | simp_all

theorem sendE (a : GSrc) (b : GSrc) : Statement (.sendE a b) := by
  intro h
  simp only [Instr.wf] at h
  have : a.r.val < 64 := a.r.isLt
  have : a.t.toNat < 2 := toNat_bool_lt _
  have : b.r.val < 64 := b.r.isLt
  have : b.t.toNat < 2 := toNat_bool_lt _
  refine round_trip (i := .sendE a b) (op := 0x7D) (fm := .R) (r := { a := a.r.val, ta := a.t.toNat, b := b.r.val, tb := b.t.toNat, f := 1 }) rfl (by decide) rfl ?_ ?_
  · simp only [Raw.Fits]; first | omega | (simp; done) | (simp; omega)
  · simp only [Raw.only]
    show dec7D _ = _
    simp only [dec7D, chk, gS_eq] <;> first | (simp [h]; done) | simp_all

theorem trap (n : BitVec 20) : Statement (.trap n) := by
  intro h
  simp only [Instr.wf] at h
  have : n.toNat < 1048576 := n.isLt
  have e3 : bits (n.toNat) 0 20 = n.toNat := by simp only [bits]; omega
  refine round_trip (i := .trap n) (op := 0x7E) (fm := .I) (r := { imm := n.toNat }) rfl (by decide) rfl ?_ ?_
  · simp only [Raw.Fits]; first | omega | (simp; done) | (simp; omega)
  · simp only [Raw.only]
    show dec7E _ = _
    simp only [dec7E, chk, bits_zero, e3, ofNat_toNat] <;> first | (simp [h]; done) | simp_all

theorem eret  : Statement (.eret) := by
  intro h
  simp only [Instr.wf] at h
  have e0 : bits (1) 0 5 = 1 := by simp only [bits]; omega
  refine round_trip (i := .eret) (op := 0x7E) (fm := .I) (r := { f := 1 }) rfl (by decide) rfl ?_ ?_
  · simp only [Raw.Fits]; first | omega | (simp; done) | (simp; omega)
  · simp only [Raw.only]
    show dec7E _ = _
    simp only [dec7E, chk, e0, bits_zero] <;> first | (simp [h]; done) | simp_all

theorem uiret  : Statement (.uiret) := by
  intro h
  simp only [Instr.wf] at h
  have e0 : bits (2) 0 5 = 2 := by simp only [bits]; omega
  refine round_trip (i := .uiret) (op := 0x7E) (fm := .I) (r := { f := 2 }) rfl (by decide) rfl ?_ ?_
  · simp only [Raw.Fits]; first | omega | (simp; done) | (simp; omega)
  · simp only [Raw.only]
    show dec7E _ = _
    simp only [dec7E, chk, e0, bits_zero] <;> first | (simp [h]; done) | simp_all

theorem mfcr (d : GReg) (cr : CReg) : Statement (.mfcr d cr) := by
  intro h
  simp only [Instr.wf] at h
  have : cr.code < 256 := code_lt_CReg _
  have : d.val < 64 := d.isLt
  have e0 : bits (3) 0 5 = 3 := by simp only [bits]; omega
  have e2 : bits (cr.code) 0 8 = cr.code := by simp only [bits]; omega
  have e3 : bits (cr.code) 0 20 = cr.code := by simp only [bits]; omega
  have e5 : bits (cr.code) 8 12 = 0 := by simp only [bits]; omega
  refine round_trip (i := .mfcr d cr) (op := 0x7E) (fm := .I) (r := { d := d.val, f := 3, imm := cr.code }) rfl (by decide) rfl ?_ ?_
  · simp only [Raw.Fits]; first | omega | (simp; done) | (simp; omega)
  · simp only [Raw.only]
    show dec7E _ = _
    simp only [dec7E, chk, e0, e2, e3, e5, gR_val, ofCode_CReg, listed_code] <;> first | (simp [h]; done) | simp_all

theorem mtcr (a : GSrc) (cr : CReg) : Statement (.mtcr a cr) := by
  intro h
  simp only [Instr.wf] at h
  have : a.r.val < 64 := a.r.isLt
  have : a.t.toNat < 2 := toNat_bool_lt _
  have : cr.code < 256 := code_lt_CReg _
  have e0 : bits (4) 0 5 = 4 := by simp only [bits]; omega
  have e2 : bits (cr.code) 0 8 = cr.code := by simp only [bits]; omega
  have e3 : bits (cr.code) 0 20 = cr.code := by simp only [bits]; omega
  have e5 : bits (cr.code) 8 12 = 0 := by simp only [bits]; omega
  refine round_trip (i := .mtcr a cr) (op := 0x7E) (fm := .I) (r := { a := a.r.val, ta := a.t.toNat, f := 4, imm := cr.code }) rfl (by decide) rfl ?_ ?_
  · simp only [Raw.Fits]; first | omega | (simp; done) | (simp; omega)
  · simp only [Raw.only]
    show dec7E _ = _
    simp only [dec7E, chk, e0, e2, e3, e5, gS_eq, ofCode_CReg, listed_code] <;> first | (simp [h]; done) | simp_all

theorem tlbinvPage (d : GReg) (a : GSrc) : Statement (.tlbinvPage d a) := by
  intro h
  simp only [Instr.wf] at h
  have : a.r.val < 64 := a.r.isLt
  have : a.t.toNat < 2 := toNat_bool_lt _
  have : d.val < 64 := d.isLt
  have e0 : bits (5) 0 5 = 5 := by simp only [bits]; omega
  refine round_trip (i := .tlbinvPage d a) (op := 0x7E) (fm := .I) (r := { d := d.val, a := a.r.val, ta := a.t.toNat, f := 5 }) rfl (by decide) rfl ?_ ?_
  · simp only [Raw.Fits]; first | omega | (simp; done) | (simp; omega)
  · simp only [Raw.only]
    show dec7E _ = _
    simp only [dec7E, chk, e0, bits_zero, gR_val, gS_eq] <;> first | (simp [h]; done) | simp_all

theorem tlbinvAsid (d : GReg) : Statement (.tlbinvAsid d) := by
  intro h
  simp only [Instr.wf] at h
  have : d.val < 64 := d.isLt
  have e0 : bits (5) 0 5 = 5 := by simp only [bits]; omega
  have e1 : bits (1) 0 2 = 1 := by simp only [bits]; omega
  have e2 : bits (1) 0 8 = 1 := by simp only [bits]; omega
  have e3 : bits (1) 0 20 = 1 := by simp only [bits]; omega
  have e4 : bits (1) 2 18 = 0 := by simp only [bits]; omega
  have e5 : bits (1) 8 12 = 0 := by simp only [bits]; omega
  refine round_trip (i := .tlbinvAsid d) (op := 0x7E) (fm := .I) (r := { d := d.val, f := 5, imm := 1 }) rfl (by decide) rfl ?_ ?_
  · simp only [Raw.Fits]; first | omega | (simp; done) | (simp; omega)
  · simp only [Raw.only]
    show dec7E _ = _
    simp only [dec7E, chk, e0, e1, e2, e3, e4, e5, gR_val] <;> first | (simp [h]; done) | simp_all

theorem tlbinvAll  : Statement (.tlbinvAll) := by
  intro h
  simp only [Instr.wf] at h
  have e0 : bits (5) 0 5 = 5 := by simp only [bits]; omega
  have e1 : bits (2) 0 2 = 2 := by simp only [bits]; omega
  have e2 : bits (2) 0 8 = 2 := by simp only [bits]; omega
  have e3 : bits (2) 0 20 = 2 := by simp only [bits]; omega
  have e4 : bits (2) 2 18 = 0 := by simp only [bits]; omega
  have e5 : bits (2) 8 12 = 0 := by simp only [bits]; omega
  refine round_trip (i := .tlbinvAll) (op := 0x7E) (fm := .I) (r := { f := 5, imm := 2 }) rfl (by decide) rfl ?_ ?_
  · simp only [Raw.Fits]; first | omega | (simp; done) | (simp; omega)
  · simp only [Raw.only]
    show dec7E _ = _
    simp only [dec7E, chk, e0, e1, e2, e3, e4, e5] <;> first | (simp [h]; done) | simp_all

theorem csave (d : GReg) (a : GSrc) : Statement (.csave d a) := by
  intro h
  simp only [Instr.wf] at h
  have : a.r.val < 64 := a.r.isLt
  have : a.t.toNat < 2 := toNat_bool_lt _
  have : d.val < 64 := d.isLt
  have e0 : bits (6) 0 5 = 6 := by simp only [bits]; omega
  refine round_trip (i := .csave d a) (op := 0x7E) (fm := .I) (r := { d := d.val, a := a.r.val, ta := a.t.toNat, f := 6 }) rfl (by decide) rfl ?_ ?_
  · simp only [Raw.Fits]; first | omega | (simp; done) | (simp; omega)
  · simp only [Raw.only]
    show dec7E _ = _
    simp only [dec7E, chk, e0, bits_zero, gR_val, gS_eq] <;> first | (simp [h]; done) | simp_all

theorem crstr (d : GReg) (a : GSrc) : Statement (.crstr d a) := by
  intro h
  simp only [Instr.wf] at h
  have : a.r.val < 64 := a.r.isLt
  have : a.t.toNat < 2 := toNat_bool_lt _
  have : d.val < 64 := d.isLt
  have e0 : bits (7) 0 5 = 7 := by simp only [bits]; omega
  refine round_trip (i := .crstr d a) (op := 0x7E) (fm := .I) (r := { d := d.val, a := a.r.val, ta := a.t.toNat, f := 7 }) rfl (by decide) rfl ?_ ?_
  · simp only [Raw.Fits]; first | omega | (simp; done) | (simp; omega)
  · simp only [Raw.only]
    show dec7E _ = _
    simp only [dec7E, chk, e0, bits_zero, gR_val, gS_eq] <;> first | (simp [h]; done) | simp_all

theorem bist (d : GReg) (a : GSrc) : Statement (.bist d a) := by
  intro h
  simp only [Instr.wf] at h
  have : a.r.val < 64 := a.r.isLt
  have : a.t.toNat < 2 := toNat_bool_lt _
  have : d.val < 64 := d.isLt
  have e0 : bits (8) 0 5 = 8 := by simp only [bits]; omega
  refine round_trip (i := .bist d a) (op := 0x7E) (fm := .I) (r := { d := d.val, a := a.r.val, ta := a.t.toNat, f := 8 }) rfl (by decide) rfl ?_ ?_
  · simp only [Raw.Fits]; first | omega | (simp; done) | (simp; omega)
  · simp only [Raw.only]
    show dec7E _ = _
    simp only [dec7E, chk, e0, bits_zero, gR_val, gS_eq] <;> first | (simp [h]; done) | simp_all

theorem wfi  : Statement (.wfi) := by
  intro h
  simp only [Instr.wf] at h
  have e0 : bits (9) 0 5 = 9 := by simp only [bits]; omega
  refine round_trip (i := .wfi) (op := 0x7E) (fm := .I) (r := { f := 9 }) rfl (by decide) rfl ?_ ?_
  · simp only [Raw.Fits]; first | omega | (simp; done) | (simp; omega)
  · simp only [Raw.only]
    show dec7E _ = _
    simp only [dec7E, chk, e0, bits_zero] <;> first | (simp [h]; done) | simp_all

theorem moduleReset : Statement .moduleReset := fun _ => rfl
theorem bootRomFallback : Statement .bootRomFallback := fun _ => rfl
theorem bootImageVerify : Statement .bootImageVerify := fun _ => rfl
theorem bootRetry : Statement .bootRetry := fun _ => rfl
theorem dispatchPlace : Statement .dispatchPlace := fun _ => rfl
theorem contextStartingEnd : Statement .contextStartingEnd := fun _ => rfl
theorem helperRetireComplete : Statement .helperRetireComplete := fun _ => rfl
theorem sliceEnd : Statement .sliceEnd := fun _ => rfl
theorem joinContinuationEnqueue : Statement .joinContinuationEnqueue := fun _ => rfl
theorem dualSignatureCompare : Statement .dualSignatureCompare := fun _ => rfl
theorem heldRecordEnqueue : Statement .heldRecordEnqueue := fun _ => rfl
theorem energyWindow : Statement .energyWindow := fun _ => rfl
theorem budgetTrap : Statement .budgetTrap := fun _ => rfl
theorem contextStop : Statement .contextStop := fun _ => rfl
theorem yardRequestAccept : Statement .yardRequestAccept := fun _ => rfl
theorem yardEntryResolve : Statement .yardEntryResolve := fun _ => rfl
theorem producerComplete : Statement .producerComplete := fun _ => rfl
theorem ldfDeferredAnswer : Statement .ldfDeferredAnswer := fun _ => rfl
theorem barrierPhaseComplete : Statement .barrierPhaseComplete := fun _ => rfl
theorem copySrcEvent : Statement .copySrcEvent := fun _ => rfl
theorem copyVisEvent : Statement .copyVisEvent := fun _ => rfl
theorem engineDoorbell : Statement .engineDoorbell := fun _ => rfl
theorem copyFault : Statement .copyFault := fun _ => rfl
theorem copyFaultEntry : Statement .copyFaultEntry := fun _ => rfl
theorem copyCompletionInterrupt : Statement .copyCompletionInterrupt := fun _ => rfl
theorem poisonedDataFault : Statement .poisonedDataFault := fun _ => rfl
theorem machineCheck : Statement .machineCheck := fun _ => rfl
theorem streamRefill : Statement .streamRefill := fun _ => rfl
theorem updateBufferDrain : Statement .updateBufferDrain := fun _ => rfl
theorem uGrantRequest : Statement .uGrantRequest := fun _ => rfl
theorem uGrantReturn : Statement .uGrantReturn := fun _ => rfl
theorem bushelPairAccept : Statement .bushelPairAccept := fun _ => rfl
theorem binPageApply : Statement .binPageApply := fun _ => rfl
theorem homeReadRequest : Statement .homeReadRequest := fun _ => rfl
theorem homeOwnershipRequest : Statement .homeOwnershipRequest := fun _ => rfl
theorem homeAtomic : Statement .homeAtomic := fun _ => rfl
theorem writeBackArrival : Statement .writeBackArrival := fun _ => rfl
theorem shroudSnoop : Statement .shroudSnoop := fun _ => rfl
theorem fillReturn : Statement .fillReturn := fun _ => rfl
theorem pageWalkComplete : Statement .pageWalkComplete := fun _ => rfl
theorem mxuOperationStart : Statement .mxuOperationStart := fun _ => rfl
theorem mxuOperationComplete : Statement .mxuOperationComplete := fun _ => rfl
theorem mxremCommandArrival : Statement .mxremCommandArrival := fun _ => rfl
theorem guestCommandComplete : Statement .guestCommandComplete := fun _ => rfl
theorem sendPacketDeliver : Statement .sendPacketDeliver := fun _ => rfl
theorem worklistAppendArrival : Statement .worklistAppendArrival := fun _ => rfl
theorem worklistQuiescence : Statement .worklistQuiescence := fun _ => rfl
theorem launchPacket : Statement .launchPacket := fun _ => rfl
theorem residencyReport : Statement .residencyReport := fun _ => rfl
theorem coreEnterC2 : Statement .coreEnterC2 := fun _ => rfl
theorem clusterEnterC3 : Statement .clusterEnterC3 := fun _ => rfl
theorem dieEnterC4 : Statement .dieEnterC4 := fun _ => rfl
theorem unitWake : Statement .unitWake := fun _ => rfl
theorem wakeExitLatencyEnd : Statement .wakeExitLatencyEnd := fun _ => rfl
theorem hostLtrMessage : Statement .hostLtrMessage := fun _ => rfl
theorem hostBarAccess : Statement .hostBarAccess := fun _ => rfl
theorem peerRequestArrival : Statement .peerRequestArrival := fun _ => rfl
theorem peerRequestTimeout : Statement .peerRequestTimeout := fun _ => rfl
theorem linkFailure : Statement .linkFailure := fun _ => rfl
theorem supplyDroop : Statement .supplyDroop := fun _ => rfl
theorem dieOvertempClockLimit : Statement .dieOvertempClockLimit := fun _ => rfl
theorem thermalTrip : Statement .thermalTrip := fun _ => rfl
theorem bistComplete : Statement .bistComplete := fun _ => rfl
theorem lanemargStart : Statement .lanemargStart := fun _ => rfl
theorem laneMarginDone : Statement .laneMarginDone := fun _ => rfl
theorem binConfigWrite : Statement .binConfigWrite := fun _ => rfl
theorem mbxReadDefectMap : Statement .mbxReadDefectMap := fun _ => rfl
theorem mbxAttestationReport : Statement .mbxAttestationReport := fun _ => rfl
theorem mbxSetMarginv : Statement .mbxSetMarginv := fun _ => rfl
theorem mbxSendUet : Statement .mbxSendUet := fun _ => rfl
theorem mbxIdentityCertificate : Statement .mbxIdentityCertificate := fun _ => rfl
theorem registerWrite : Statement .registerWrite := fun _ => rfl
theorem droopClockStepEnd : Statement .droopClockStepEnd := fun _ => rfl
theorem overtempClockLimitEnd : Statement .overtempClockLimitEnd := fun _ => rfl
theorem powerOn : Statement .powerOn := fun _ => rfl
theorem linkTraining : Statement .linkTraining := fun _ => rfl
theorem dhcpv6Reply : Statement .dhcpv6Reply := fun _ => rfl
theorem bootFetchFailure : Statement .bootFetchFailure := fun _ => rfl
theorem contextRestoreComplete : Statement .contextRestoreComplete := fun _ => rfl
theorem dieSupplySetPointChange : Statement .dieSupplySetPointChange := fun _ => rfl

end Sys2Proof.Laws.Encoding
end

