-- ==== Sys2Proof/Laws/Scalar.lean ====
section
/-!
SUPPORT. The scalar forms: what the operand checks do on plain registers, and that the values the meanings compute are those that the statements name.
-/

namespace Sys2Proof.Machine

set_option linter.all false

/-! ## Plain registers -/

theorem plainRef_empty {s : State} {r : Ref} (h : s.plainRef r = true) : isEmptyRef (s.core s.act) (s.ctx s.act s.actx) r = false := by
  cases r <;> simp_all [State.plainRef, State.me, State.home, isEmptyRef, Option.isNone_iff_eq_none]
theorem plainRef_slot {s : State} {r : Ref} (h : s.plainRef r = true) : (s.ctx s.act s.actx).slotOf r = none := by
  cases r <;> simp_all [State.plainRef, State.me, Ctx.slotOf, Option.isNone_iff_eq_none]
theorem ready_plain {s : State} {os : List Opnd} (h : ∀ o ∈ os, s.plainRef o.ref = true) : ready os s = .ok ((), s) :=
  ready_full fun o ho => plainRef_empty (h o ho)
theorem pops_plainRef {s : State} {rs : List Ref} (h : ∀ r ∈ rs, s.plainRef r = true) : pops rs s = .ok ((), s) :=
  pops_plain fun r hr => plainRef_slot (h r hr)
theorem readG_plainRef {s : State} {r : GReg} (h : s.plainRef (.g r) = true) : (s.ctx s.act s.actx).readG r = s.me.getG r :=
  readG_plain (plainRef_slot (r := .g r) h)

theorem slotOf_setG (t : Ctx) (d : GReg) (x : Word) (r : Ref) : (t.setG d x).slotOf r = t.slotOf r := by
  cases r <;> simp [Ctx.slotOf, Ctx.slotG, Ctx.slotV]
theorem pops_upd {s : State} {d : GReg} {x : Word} {rs : List Ref} (h : ∀ r ∈ rs, s.plainRef r = true) :
    pops rs (s.upd (·.setG d x)) = .ok ((), s.upd (·.setG d x)) :=
  pops_plain fun r hr => by
    show ((s.modCtx s.act s.actx (·.setG d x)).ctx s.act s.actx).slotOf r = none
    rw [State.ctx_modCtx, slotOf_setG]; exact plainRef_slot (h r hr)

theorem opGG_plain {s : State} {d : GReg} {a : GSrc} {f : Word → Word} (ha : s.plainRef (.g a.r) = true) (hd : s.plainRef (.g d) = true)
    (hk : s.me.stackBad d (f (s.me.getG a.r)) = false) : opGG d a f s = .ok ((), s.upd (·.setG d (f (s.me.getG a.r)))) := by
  unfold opGG
  rw [X.bind_ok (ready_plain (by simp [GSrc.op, dG, ha, hd])), X.bind_ok (X.rdG_apply _ _), readG_plainRef ha, X.bind_ok (wrG_plain (plainRef_slot (r := .g d) hd) hk)]
  exact pops_upd (by simp [ha])
theorem opGGG_plain {s : State} {d : GReg} {a b : GSrc} {f : Word → Word → Word} (ha : s.plainRef (.g a.r) = true) (hb : s.plainRef (.g b.r) = true) (hd : s.plainRef (.g d) = true)
    (hk : s.me.stackBad d (f (s.me.getG a.r) (s.me.getG b.r)) = false) : opGGG d a b f s = .ok ((), s.upd (·.setG d (f (s.me.getG a.r) (s.me.getG b.r)))) := by
  unfold opGGG
  rw [X.bind_ok (ready_plain (by simp [GSrc.op, dG, ha, hb, hd])), X.bind_ok (X.rdG_apply _ _), X.bind_ok (X.rdG_apply _ _), readG_plainRef ha, readG_plainRef hb, X.bind_ok (wrG_plain (plainRef_slot (r := .g d) hd) hk)]
  exact pops_upd (by simp [ha, hb])

/-- What ends in a stop whatever it is given ends in a stop after anything. -/
theorem X.bind_stops {α β : Type} {m : X α} {f : α → X β} (h : ∀ a s, ∃ e, f a s = .error e) (s : State) : ∃ e, (m >>= f) s = .error e := by
  rcases hm : m s with e | ⟨a, s'⟩
  · exact ⟨e, X.bind_error hm⟩
  · rw [X.bind_ok hm]; exact h a s'

/-- An operand that a refill must fetch ends the issue: with a trap, or with a wait. -/
theorem streamWait_stops (i : Fin 8) (s : State) : ∃ e, streamWait i s = .error e := by
  unfold streamWait
  refine X.bind_stops (fun a s => ?_) s
  refine X.bind_stops (fun b s => ?_) s
  refine X.bind_stops (fun c s => ?_) s
  refine X.bind_stops (fun d s => ?_) s
  split
  split
  · exact ⟨_, rfl⟩
  · exact X.bind_stops (fun b s => ⟨_, rfl⟩) s

/-- The operand checks change nothing: they pass, or they end the issue (R71). -/
theorem ready_state (os : List Opnd) (s : State) : (∃ e, ready os s = .error e) ∨ ready os s = .ok ((), s) := by
  unfold ready
  rw [X.bind_ok (X.co_apply s), X.bind_ok (X.cx_apply s)]
  cases (os.filter fun o => isEmptyRef (s.core s.act) (s.ctx s.act s.actx) o.ref).filter (!·.t) with
  | cons o t =>
    left
    simp only
    cases (s.ctx s.act s.actx).slotOf o.ref with
    | some i =>
      simp only
      split
      · exact X.bind_stops (fun _ _ => ⟨_, rfl⟩) s
      · exact streamWait_stops i s
    | none => exact ⟨_, rfl⟩
  | nil =>
    simp only
    cases lowestField (os.filter fun o => isEmptyRef (s.core s.act) (s.ctx s.act s.actx) o.ref) with
    | some o => left; simp only; cases (s.ctx s.act s.actx).slotOf o.ref <;> exact ⟨_, rfl⟩
    | none => exact .inr rfl

/-- Meanings that agree once their operand checks have passed agree. -/
theorem bind_ready {os : List Opnd} {s : State} {k k' : X Unit} (h : k s = k' s) : (do ready os; k) s = (do ready os; k') s := by
  rcases ready_state os s with ⟨e, he⟩ | he
  · rw [X.bind_error he, X.bind_error he]
  · rw [X.bind_ok he, X.bind_ok he, h]

/-! ## Values -/

theorem sext64_eq (x : Word) (n : Nat) (h0 : 0 < n) (h : n ≤ 64) : sext64 x.toNat n = low n x := by
  apply BitVec.eq_of_toInt_eq
  have e : (2:Nat) ^ n = 2 * 2 ^ (n-1) := by rw [← Nat.pow_succ']; congr 1; omega
  have hle : (2:Nat)^n ≤ 2^64 := Nat.pow_le_pow_right (by norm_num) h
  have : sextN x.toNat n = (x.setWidth n).toInt := by
    simp only [sextN, BitVec.toInt, BitVec.toNat_setWidth]
    split <;> split <;> omega
  rw [sext64, low, BitVec.toInt_ofInt, BitVec.toInt_signExtend, Nat.min_eq_right h, this]
  generalize x.setWidth n = y
  have h1 : 2 * y.toInt < 2 ^ n := BitVec.two_mul_toInt_lt
  have h2 : -2 ^ n ≤ 2 * y.toInt := BitVec.le_two_mul_toInt
  have hi : (2:Int)^n ≤ 2^64 := by exact_mod_cast hle
  rw [Int.bmod_eq_of_le (by norm_num; omega) (by norm_num; omega), BitVec.toInt_bmod_cancel]
theorem sext64_imm {n : Nat} (x : BitVec n) (h0 : 0 < n) (h : n ≤ 64) : sext64 x.toNat n = x.signExtend 64 := by
  have hle : (2:Nat)^n ≤ 2^64 := Nat.pow_le_pow_right (by norm_num) h
  have hx := x.isLt
  have : x.toNat = (x.setWidth 64).toNat := by
    rw [BitVec.toNat_setWidth, Nat.mod_eq_of_lt (by omega)]
  rw [this, sext64_eq _ _ h0 h, low]
  congr 1
  apply BitVec.eq_of_toNat_eq
  rw [BitVec.toNat_setWidth, ← this, Nat.mod_eq_of_lt hx]
theorem sextW_eq (x : Word) : sextW x = low 32 x := sext64_eq x 32 (by omega) (by omega)
theorem shl_amount (x y : Word) : x <<< amount y = BitVec.ofNat 64 (x.toNat * 2 ^ (y.toNat % 64)) := by
  apply BitVec.eq_of_toNat_eq; simp [amount, fld, bits, Nat.shiftLeft_eq]
theorem ushiftRight_eq_ofNat (x : Word) (n : Nat) : x >>> n = BitVec.ofNat 64 (x.toNat / 2 ^ n) := by
  apply BitVec.eq_of_toNat_eq; simp [Nat.shiftRight_eq_div_pow]
  exact (Nat.mod_eq_of_lt (lt_of_le_of_lt (Nat.div_le_self _ _) x.isLt)).symm
theorem shiftLeft_eq_ofNat (x : Word) (n : Nat) : x <<< n = BitVec.ofNat 64 (x.toNat * 2 ^ n) := by
  apply BitVec.eq_of_toNat_eq; simp [Nat.shiftLeft_eq]
theorem sshiftRight_eq_ofInt (x : Word) (n : Nat) : x.sshiftRight n = BitVec.ofInt 64 (x.toInt / 2 ^ n) := by
  apply BitVec.eq_of_toInt_eq
  rw [BitVec.toInt_sshiftRight, BitVec.toInt_ofInt, Int.shiftRight_eq_div_pow]
  have h1 : 2 * x.toInt < 2 ^ 64 := BitVec.two_mul_toInt_lt
  have h2 : -2 ^ 64 ≤ 2 * x.toInt := BitVec.le_two_mul_toInt
  have hp : (1:Int) ≤ 2 ^ n := one_le_pow₀ (by norm_num)
  have a1 : x.toInt / 2 ^ n ≤ max x.toInt 0 := by
    rcases le_total 0 x.toInt with h | h
    · rw [max_eq_left h]; exact Int.ediv_le_self _ h
    · rw [max_eq_right h]; exact Int.ediv_nonpos_of_nonpos_of_neg h (by omega)
  have a2 : min x.toInt 0 ≤ x.toInt / 2 ^ n := by
    rcases le_total 0 x.toInt with h | h
    · rw [min_eq_right h]; exact Int.ediv_nonneg h (by omega)
    · rw [min_eq_left h]; rw [Int.le_ediv_iff_mul_le (by omega)]; nlinarith
  norm_cast at *
  rw [Int.bmod_eq_of_le] <;> norm_num at * <;> omega
theorem rotateLeft_eq_ofNat (x : Word) (n : Nat) (h : n < 64) : x.rotateLeft n = BitVec.ofNat 64 (x.toNat * 2 ^ n + x.toNat / 2 ^ (64 - n)) := by
  have e : x.rotateLeft n = x <<< n ||| x >>> (64 - n) := by
    rw [BitVec.rotateLeft_def, Nat.mod_eq_of_lt h]
  have d : (x <<< n) &&& (x >>> (64 - n)) = 0 := by
    ext i hi
    simp only [BitVec.getElem_and, BitVec.getElem_shiftLeft, BitVec.getElem_ushiftRight, BitVec.getElem_zero]
    by_cases hn : i < n
    · simp [hn]
    · simp; intro _ _; exact BitVec.getLsbD_of_ge _ _ (by omega)
  rw [e, ← BitVec.add_eq_or_of_and_eq_zero _ _ d, shiftLeft_eq_ofNat, ushiftRight_eq_ofNat, BitVec.ofNat_add]
theorem divS_eq (x y : Word) : divS x y = if y = 0 then BitVec.allOnes 64 else x.sdiv y := by
  simp only [divS]
  split
  · rfl
  · apply BitVec.eq_of_toInt_eq; rw [BitVec.toInt_ofInt, BitVec.toInt_sdiv]
theorem divU_eq (x y : Word) : divU x y = if y = 0 then BitVec.allOnes 64 else x / y := by
  simp only [divU]
  split
  · rfl
  · apply BitVec.eq_of_toNat_eq; simp [w64]
    exact lt_of_le_of_lt (Nat.div_le_self _ _) x.isLt
theorem remS_eq (x y : Word) : remS x y = x.srem y := by
  simp only [remS]
  split
  · next h => subst h; exact (BitVec.srem_zero).symm
  · apply BitVec.eq_of_toInt_eq; rw [BitVec.toInt_ofInt, BitVec.toInt_srem]
    rw [← BitVec.toInt_srem, BitVec.toInt_bmod_cancel]
theorem remU_eq (x y : Word) : remU x y = x % y := by
  simp only [remU]
  split
  · next h => subst h; exact (BitVec.umod_zero).symm
  · apply BitVec.eq_of_toNat_eq; simp [w64]
    exact lt_of_le_of_lt (Nat.mod_le _ _) x.isLt
theorem min_slt (x y : Word) : (if y.toInt < x.toInt then y else x) = if x.slt y then x else y := by
  simp only [BitVec.slt]
  by_cases h : x.toInt < y.toInt
  · simp [h]; omega
  · simp [h]; intro h2; exact BitVec.eq_of_toInt_eq (by omega)
theorem max_slt (x y : Word) : (if x.toInt < y.toInt then y else x) = if x.slt y then y else x := by simp [BitVec.slt]
theorem min_ult (x y : Word) : (if y.toNat < x.toNat then y else x) = if x.ult y then x else y := by
  simp only [BitVec.ult]
  by_cases h : x.toNat < y.toNat
  · simp [h]; omega
  · simp [h]; intro h2; exact BitVec.eq_of_toNat_eq (by omega)
theorem max_ult (x y : Word) : (if x.toNat < y.toNat then y else x) = if x.ult y then y else x := by simp [BitVec.ult]
theorem bits_testBit (x n : Nat) : (bits x n 1 = 1) ↔ x.testBit n = true := by
  simp [bits, Nat.testBit_eq_decide_div_mod_eq]
theorem bit_getLsbD (x : Word) (i : Nat) : bits x.toNat i 1 = (x.getLsbD i).toNat := by
  simp [bits, BitVec.getLsbD, Nat.testBit_eq_decide_div_mod_eq]
  have := Nat.mod_two_eq_zero_or_one (x.toNat / 2^i)
  rcases this with h | h <;> simp [h]
theorem clzAux_eq (x : Word) : ∀ n, n < 64 → w64 (clzN x.toNat (n + 1) + (63 - n)) = x.clzAuxRec n := by
  intro n
  induction n with
  | zero =>
    intro _
    rw [show clzN x.toNat 1 = if bits x.toNat 0 1 = 1 then 0 else 1 from rfl, bit_getLsbD, BitVec.clzAuxRec]
    cases x.getLsbD 0 <;> rfl
  | succ n ih =>
    intro h
    rw [show clzN x.toNat (n + 1 + 1) = if bits x.toNat (n+1) 1 = 1 then 0 else clzN x.toNat (n + 1) + 1 from rfl, bit_getLsbD, BitVec.clzAuxRec_succ]
    cases x.getLsbD (n+1)
    · simp only [Bool.toNat_false, Nat.zero_ne_one, if_false, Bool.false_eq_true]
      rw [← ih (by omega)]; congr 1; omega
    · simp [w64]
theorem clzN_eq (x : Word) : w64 (clzN x.toNat 64) = x.clz := by
  have := clzAux_eq x 63 (by omega)
  simpa [BitVec.clz] using this
theorem ctz_clz (x : Word) : ∀ n, n ≤ 64 → ctzN x.toNat (64 - n) n = clzN x.reverse.toNat n := by
  intro n
  induction n with
  | zero => intro _; rfl
  | succ n ih =>
    intro h
    rw [show ctzN x.toNat (64 - (n+1)) (n+1) = if bits x.toNat (64 - (n+1)) 1 = 1 then 0 else ctzN x.toNat (64 - (n+1) + 1) n + 1 from rfl,
      show clzN x.reverse.toNat (n + 1) = if bits x.reverse.toNat n 1 = 1 then 0 else clzN x.reverse.toNat n + 1 from rfl,
      show 64 - (n+1) + 1 = 64 - n by omega, ih (by omega), bit_getLsbD, bit_getLsbD]
    have : x.reverse.getLsbD n = x.getLsbD (64 - (n+1)) := by
      rw [BitVec.getLsbD_reverse, BitVec.getMsbD]
      simp; intro _; omega
    rw [this]
theorem ctzN_eq (x : Word) : w64 (ctzN x.toNat 0 64) = x.ctz := by
  have := ctz_clz x 64 (by omega)
  rw [show (64 - 64 : Nat) = 0 from rfl] at this
  rw [this, BitVec.ctz, clzN_eq]
theorem cpop_eq (x : Word) : ∀ n acc, x.cpopNatRec n acc = popN x.toNat n + acc := by
  intro n
  induction n with
  | zero => intro acc; simp [BitVec.cpopNatRec, popN]
  | succ n ih => intro acc; rw [BitVec.cpopNatRec_succ, ih, show popN x.toNat (n+1) = popN x.toNat n + bits x.toNat n 1 from rfl, bit_getLsbD]; omega
theorem popN_eq (x : Word) : w64 (popN x.toNat 64) = x.cpop := by
  rw [BitVec.cpop, cpop_eq]; rfl
theorem bswap64_eq (x : Word) : bswap64 x = x.extractLsb' 0 8 ++ x.extractLsb' 8 8 ++ x.extractLsb' 16 8 ++ x.extractLsb' 24 8 ++
      x.extractLsb' 32 8 ++ x.extractLsb' 40 8 ++ x.extractLsb' 48 8 ++ x.extractLsb' 56 8 := by
  apply BitVec.eq_of_toNat_eq
  have hx := x.isLt
  simp only [bswap64, w64, bits, List.range, List.range.loop, List.foldl, BitVec.toNat_ofNat, BitVec.toNat_append, BitVec.extractLsb'_toNat, Nat.shiftRight_eq_div_pow]
  have key : ∀ a b : Nat, a * 256 ||| b % 256 = a * 256 + b % 256 := by
    intro a b
    have := Nat.shiftLeft_add_eq_or_of_lt (i := 8) (b := b % 256) (by omega) a
    rw [Nat.shiftLeft_eq] at this; exact this.symm
  norm_num [Nat.shiftLeft_eq, key]
  omega
theorem abs64_eq (x : Word) : abs64 x = if x.msb then -x else x := by
  simp only [abs64, BitVec.msb_eq_toInt]
  by_cases h : x.toInt < 0 <;> simp [h]
theorem lih_eq (d : Word) (imm : BitVec 32) : w64 (imm.toNat * 2 ^ 32 + fld d 0 32) = imm ++ d.setWidth 32 := by
  apply BitVec.eq_of_toNat_eq
  rw [BitVec.toNat_append, ← Nat.shiftLeft_add_eq_or_of_lt (by exact (d.setWidth 32).isLt), Nat.shiftLeft_eq]
  simp [w64, fld, bits, BitVec.toNat_setWidth]
  have := imm.isLt; omega
theorem addpc_eq (p i : Word) : w64 ((p + i).toNat % vaTop) = ((p + i).setWidth 48).setWidth 64 := by
  apply BitVec.eq_of_toNat_eq
  simp [w64, vaTop]
theorem bfxu_eq (x : Word) (p n : Nat) (h : n ≤ 64) : bfxu x p n = ((x >>> p).setWidth n).setWidth 64 := by
  apply BitVec.eq_of_toNat_eq
  have hle : (2:Nat)^n ≤ 2^64 := Nat.pow_le_pow_right (by norm_num) h
  simp [bfxu, w64, bits, Nat.shiftRight_eq_div_pow]
theorem bfi_eq (d x : Word) (p n : Nat) (h : n ≤ 64) (hp : p < 64) :
    bfi d x p n = (d &&& ~~~(fieldMask p n)) ||| (x <<< p &&& fieldMask p n) := by
  have m : BitVec.ofNat 64 ((2 ^ n - 1) * 2 ^ p) = fieldMask p n := by
    apply BitVec.eq_of_toNat_eq
    have hle : (2:Nat)^n ≤ 2^64 := Nat.pow_le_pow_right (by norm_num) h
    have : 0 < 2 ^ n := by positivity
    simp [fieldMask, Nat.shiftLeft_eq]
  have v : BitVec.ofNat 64 (x.toNat % 2 ^ n * 2 ^ p) = (x <<< p) &&& fieldMask p n := by
    ext i hi
    simp only [fieldMask, BitVec.getElem_and, BitVec.getElem_shiftLeft, ← BitVec.getLsbD_eq_getElem, BitVec.getLsbD_ofNat, BitVec.getLsbD_setWidth, BitVec.getLsbD_allOnes, ← Nat.shiftLeft_eq, Nat.testBit_shiftLeft, Nat.testBit_mod_two_pow]
    by_cases h1 : i < p
    · simp [h1]
    · simp [h1, hi]
      by_cases h2 : i - p < n
      · simp [h2, show p ≤ i by omega, ← BitVec.getLsbD_eq_getElem, BitVec.getLsbD]
      · simp [h2]
  rw [bfi, putBits, m, v]

/-! ## The forms of one and of two sources -/

theorem scalar2_exec {op f} (h : Scalar2 op f) (d : GReg) (a b : GSrc) (s : State) : exec (op d a b) s = opG2 d a b f s := by
  have cg : ∀ {f g : Word → Word → Word}, (∀ x y, f x y = g x y) → opG2 d a b f s = opG2 d a b g s := fun h => by rw [funext fun x => funext (h x)]
  cases h
  case add => exact cg (fun x y => rfl)
  case sub => exact cg (fun x y => rfl)
  case addW => exact cg (fun x y => sextW_eq _)
  case subW => exact cg (fun x y => sextW_eq _)
  case and => exact cg (fun x y => rfl)
  case or => exact cg (fun x y => rfl)
  case xor => exact cg (fun x y => rfl)
  case andn => exact cg (fun x y => rfl)
  case shl => exact cg (fun x y => shl_amount x y)
  case shr => exact cg (fun x y => by simpa [amount, fld, bits] using ushiftRight_eq_ofNat x (amount y))
  case sra => exact cg (fun x y => by simpa [amount, fld, bits] using sshiftRight_eq_ofInt x (amount y))
  case rol => exact cg (fun x y => by simpa [rol64, amount, fld, bits] using rotateLeft_eq_ofNat x (amount y) (by simp [amount, fld, bits]; omega))
  case mul => exact cg (fun x y => rfl)
  case mulh => exact cg (fun x y => rfl)
  case mulhu => exact cg (fun x y => rfl)
  case mulW => exact cg (fun x y => sextW_eq _)
  case div => exact cg (fun x y => divS_eq x y)
  case divu => exact cg (fun x y => divU_eq x y)
  case rem => exact cg (fun x y => remS_eq x y)
  case remu => exact cg (fun x y => remU_eq x y)
  case min => exact cg (fun x y => min_slt x y)
  case max => exact cg (fun x y => max_slt x y)
  case minu => exact cg (fun x y => min_ult x y)
  case maxu => exact cg (fun x y => max_ult x y)
  case slt => exact cg (fun x y => by simp [flag, BitVec.slt])
  case sltu => exact cg (fun x y => by simp [flag, BitVec.ult])
  case seq => exact cg (fun x y => by simp [flag])
  case sne => exact cg (fun x y => by by_cases e : x = y <;> simp [flag, e])
theorem scalar1_exec {op f} (h : Scalar1 op f) (d : GReg) (a : GSrc) (s : State) : exec (op d a) s = opGGI d a f s := by
  have cg : ∀ {f g : Word → Word}, (∀ x, f x = g x) → opGGI d a f s = opGGI d a g s := fun h => by rw [funext h]
  cases h
  case clz => exact cg (fun x => clzN_eq x)
  case ctz => exact cg (fun x => ctzN_eq x)
  case popc => exact cg (fun x => popN_eq x)
  case brev => exact cg (fun x => rfl)
  case sextB => exact cg (fun x => sext64_eq _ _ (by omega) (by omega))
  case sextH => exact cg (fun x => sext64_eq _ _ (by omega) (by omega))
  case sextW => exact cg (fun x => sext64_eq _ _ (by omega) (by omega))
  case bswap => exact cg (fun x => bswap64_eq x)
  case abs => exact cg (fun x => abs64_eq x)
  case neg => exact cg (fun x => rfl)
  case addi => exact cg (fun x => by simp [imm20, sext64_imm])
  case andi => exact cg (fun x => by simp [imm20, sext64_imm])
  case ori => exact cg (fun x => by simp [imm20, sext64_imm])
  case xori => exact cg (fun x => by simp [imm20, sext64_imm])
  case slti => exact cg (fun x => by simp [imm20, sext64_imm, flag, BitVec.slt])
  case sltiu => exact cg (fun x => by simp [imm20, sext64_imm, flag, BitVec.ult])
  case shli => exact cg (fun x => shiftLeft_eq_ofNat x _)
  case shri => exact cg (fun x => ushiftRight_eq_ofNat x _)
  case srai => exact cg (fun x => sshiftRight_eq_ofInt x _)
  case roli sh => exact cg (fun x => rotateLeft_eq_ofNat x sh.toNat sh.isLt)
  case bfx => exact cg (fun x => sext64_eq _ _ (by omega) (by omega))
  case bfxu => exact cg (fun x => bfxu_eq _ _ _ (by omega))

/-! ## A line that is held -/

/-- A translation and a line that are held are fetched without a change of anything (R88, R114). -/
theorem fetchLine_held {s : State} {k a : Nat} {x : Fin 11} {t : Tlb} {e : Nat × BitVec 512} (hr : rangeOf a = 2) (hw : (s.ctx k x).walkEnd (s.ctx k x).asid a = none)
    (ht : (s.core k).tlb.find? (Tlb.covers (s.ctx k x).asid a) = some t) (hp : s.populated (t.at a) = true) (hx : t.x = true)
    (hu : (s.ctx k x).priv = 0 → t.us = true) (hg : isReg (t.at a) = false) (hl : (s.core k).icache.find? (·.1 == t.at a / 64) = some e) : s.fetchLine k x a = (.ok e.2.toNat, s) := by
  have e : s.translate k (s.ctx k x).asid a = (.ok t, s) := by simp only [State.translate, ht]
  have hn : ¬((s.ctx k x).priv = 0 ∧ t.us = false) := fun h => by simp [hu h.1] at h
  simp [State.fetchLine, State.transFetch, hw, hr, e, hp, hx, hl, hg, hn]

end Sys2Proof.Machine
end

