-- ==== Sys2Proof/Tests/Slice0.lean ====
section
/-!
SUPPORT. Tests: words of the spec's own examples decode as it says, the checks of a well-formed instruction refuse what they are for, single steps give what the spec's rules and
examples give, and for each statement a concrete state meets its hypotheses, clause by clause.
-/

open Sys2Proof Sys2Proof.Machine

namespace Sys2Proof.Tests

set_option linter.all false
set_option Elab.async false

/-! ## Small states -/

/-- A line that holds ADD g5, g3, g6 and a NOP (R99 to R102). -/
def codeLine : BitVec 512 := 0x6180000000000000000000000000000000000000000000000000000000000000000000000000000000000000000000000000000000000000000000020004405
/-- Context 0 of core 0 live and changed, core 0 changed; its instruction line stands at 0x50000, on a page whose translation to 0x300000 the core holds, and is held. -/
def at0 (f : Ctx → Ctx) (h : Core → Core) : State :=
  { State.reset.modCore 0 fun c => h { c with
      ctxs := c.ctxs.set 0 (f { c.ctxs[0] with st := .live, pc := 0x50000, n1 := 0x50002, n2 := 0x50004, })
      icache := [(0xC000, codeLine)]
      tlb := [⟨0, 0x50000, 4096, 0x300000, 0x1F, none⟩] } with act := 0, actx := 0 }
/-- Registers g set. -/
def gs (l : List (GReg × Word)) (c : Ctx) : Ctx := l.foldl (fun c p => c.setG p.1 p.2) c
/-- Context 0 of core 0 live, with registers set. -/
def regs (l : List (GReg × Word)) : State := at0 (gs l) id
/-- Context 0 of core 0 live at S. -/
def regsS (l : List (GReg × Word)) : State := at0 (fun c => (gs l c).setStatus 4 2 1) id
/-- A number of n bytes in the scratchpad of core 0. -/
def spad (a n x : Nat) (c : Core) : Core := { c with spad := c.spad.writeN a n x }
/-- A translation of the page at 0x50000 to 0x300000 in the TLB of core 0, by the flags of its entry. -/
def page (flags : BitVec 10) (c : Core) : Core := { c with tlb := [⟨0, 0x50000, 4096, 0x300000, flags, none⟩] }
/-- The issuing context's registers empty. -/
def emptied (rs : List GReg) (s : State) : State := s.upd fun c => rs.foldl (fun c r => c.markG r false) c

/-- The issuing context has asked for something. -/
def asked (p : Progress) (s : State) : State := s.upd fun t => { t with prog := p }

/-- A register of the issuing context after an instruction. -/
def after (i : Instr) (s : State) (d : GReg) : Option Word :=
  match exec i s with
  | .next t => some (t.me.getG d)
  | _ => none
/-- Something of the state after an instruction. -/
def obs {α : Type} (i : Instr) (s : State) (f : State → α) : Option α :=
  match exec i s with
  | .next t => some (f t)
  | _ => none

/-- In plain scratchpad, where there are no windows, locks or poisoned words. -/
theorem inSpad_plain {s : State} {a : Word} {n : Nat} (h : a.toNat + n ≤ 0x20000) (hw : (List.finRange 8).all (fun i => (s.home.wins[i]).isNone) = true) (hl : s.home.locks = [])
    (hp : s.home.spoison = []) (hy : (s.cluster (clusterOf s.act)).yreq.isEmpty = true := by decide +kernel) : s.inSpad a n :=
  ⟨h, fun i w e => by have := List.all_eq_true.mp hw i (List.mem_finRange i); rw [e] at this; exact Bool.noConfusion this, by simp [hl], by simp [hp],
   by simp [State.nodeAhead, List.isEmpty_iff.mp hy]⟩
/-- No pair of the context is on its way to the pages of an access. -/
theorem noPairs_of {s : State} {ps : List Place} (h : (ps.all fun p => p.pa?.all fun pa => !s.mustWait s.act s.actx.val pa) = true) : s.noPairs ps := by
  intro p hp pa e
  have := List.all_eq_true.mp h p hp
  rw [e] at this
  simpa using this
theorem mayLoad_of {s : State} {ps : List Place} (h : s.nodeAhead s.act s.actx.val ps = false ∧ (ps.all fun p => p.pa?.all fun pa => !s.mustWait s.act s.actx.val pa) = true ∧
    s.trackFull s.act false ps = false) : s.mayLoad ps := ⟨h.1, noPairs_of h.2.1, h.2.2⟩
theorem mayStore_of {s : State} {ps : List Place} (h : (ps.all fun p => p.pa?.all fun pa => !s.mustWait s.act s.actx.val pa) = true ∧ s.trackFull s.act true ps = false ∧ s.me.ldnm = false) : s.mayStore ps :=
  ⟨h.2.2, noPairs_of h.1, h.2.1⟩
/-- Where there is no range lock. -/
theorem unlocked_of {s : State} {sl : Slot} (h : s.home.locks = []) : s.unlocked sl := by
  intro e _
  simp [Core.elemLock, Core.lockOn, Core.lockHit, h]
/-- Whether a result is one. -/
def isOk {ε α : Type} : Except ε α → Bool
  | .ok _ => true
  | .error _ => false
/-- Whether a result is a given one. -/
def okIs {ε α : Type} [DecidableEq α] (a : α) : Except ε α → Bool
  | .ok b => b == a
  | .error _ => false
theorem okIs_eq {ε α : Type} [DecidableEq α] {a : α} {x : Except ε α} (h : okIs a x = true) : x = .ok a := by
  cases x
  · exact Bool.noConfusion h
  · exact congrArg _ (by simpa [okIs] using h)
/-- A result with the state it leaves. -/
theorem okIs_pair {ε α σ : Type} [DecidableEq α] {a : α} {x : Except ε α × σ} (h : okIs a x.1 = true) : x = (.ok a, x.2) :=
  Prod.ext (okIs_eq h) rfl
/-- Checks that pass: the places of an access, and the state they leave. -/
def placesOf (q : Req) (s : State) : List Place × State :=
  match checkOne q s with
  | .ok (.ok ps, t) => (ps, t)
  | _ => ([], s)
/-- Whether the checks of an access pass. -/
def passes (q : Req) (s : State) : Bool :=
  match checkOne q s with
  | .ok (.ok _, _) => true
  | _ => false
theorem passes_accepts {q : Req} {s : State} (h : passes q s = true) : s.accepts q (placesOf q s).1 (placesOf q s).2 := by
  unfold passes at h
  unfold State.accepts placesOf
  split at h
  · next e => rw [e]
  · exact Bool.noConfusion h

/-! ## Hypotheses met -/

theorem witness_DecodeOfEncode : ((Instr.add 5 ⟨3, false⟩ ⟨6, true⟩).wf = true ∧ (Instr.add 5 ⟨3, false⟩ ⟨6, true⟩).isEvent = false) ∧ ∃ i, decode 0x4405 0x0618 = .ok i := ⟨by decide, _, rfl⟩
theorem witness_CanonicalKept : Canonical State.reset ∧ ∃ t, step State.reset = .next t := ⟨⟨rfl, fun _ => rfl⟩, ⟨_, rfl⟩⟩

/-- Core 0 about to issue ADD g5, g3, g6. -/
def loaded0 : State := { regs [] with turns := [.issue 0] }
theorem line_held (s : State) (hr : s.act = 0 ∧ s.actx = 0 := by decide +kernel) (a : Nat) (h1 : rangeOf a = 2 := by decide +kernel)
    (h5 : (s.ctx 0 0).walkEnd (s.ctx 0 0).asid a = none := by decide +kernel) (h2 : (s.core 0).tlb.find? (Tlb.covers (s.ctx 0 0).asid a) = some ⟨0, 0x50000, 4096, 0x300000, 0x1F, none⟩ := by decide +kernel)
    (h3 : s.populated (Tlb.at ⟨0, 0x50000, 4096, 0x300000, 0x1F, none⟩ a) = true := by decide +kernel)
    (h6 : isReg (Tlb.at ⟨0, 0x50000, 4096, 0x300000, 0x1F, none⟩ a) = false := by decide +kernel)
    (h4 : (s.core 0).icache.find? (·.1 == Tlb.at ⟨0, 0x50000, 4096, 0x300000, 0x1F, none⟩ a / 64) = some (0xC000, codeLine) := by decide +kernel) :
    s.fetchLine 0 0 a = (.ok codeLine.toNat, s) := fetchLine_held (e := (0xC000, codeLine)) h1 h5 h2 h3 (by decide) (fun _ => by decide) h6 h4
/-- The same once the turn is taken. -/
def taken0 : State := { loaded0 with turns := [], phase := 4 }
theorem witness_StepRunsDecoded : ∃ (s s1 : State) (img h : Nat) (i : Instr),
    (s.turns = [.issue 0] ∧ s.phase ≤ 4 ∧ s.cursor ≤ 0 ∧ s.mayIssue 0 = true) ∧
    (State.runs { s with turns := [], phase := 4 } 0 = true ∧ State.boundaryOf { s with turns := [], phase := 4 } 0 = none ∧ (s.core 0).select s.time s.moves = some 0) ∧
    ((s.ctx 0 0).apc = false ∧ s.fetchWalk 0 0 = none) ∧ State.fetchLine { s with turns := [], phase := 4, act := 0, actx := 0 } 0 0 (s.ctx 0 0).pc.toNat = (.ok img, s1) ∧ (s1.ctx 0 0).wake ≤ s1.time ∧ lineLast img = .ok h ∧
    ((s.ctx 0 0).pc.toNat % 2 = 0 ∧ (s.ctx 0 0).pc.toNat % 64 / 2 ≤ h ∧ isMiz 0 = false) ∧
    decode (lineHead img ((s.ctx 0 0).pc.toNat % 64 / 2)) (lineTail img ((s.ctx 0 0).pc.toNat % 64 / 2)) = .ok i ∧
    State.tooEarly { s1 with head := lineHead img ((s.ctx 0 0).pc.toNat % 64 / 2) } i = false :=
  ⟨loaded0, taken0, codeLine.toNat, 1, .add 5 ⟨3, false⟩ ⟨6, false⟩, ⟨rfl, by decide +kernel⟩, by decide +kernel, by decide +kernel,
    line_held taken0 (by decide +kernel) _, by decide +kernel, okIs_eq (by decide +kernel), by decide +kernel, by decide +kernel, by decide +kernel⟩
theorem witness_StepRunsDecoded_mizzen : isMiz 6144 = true ∧ mizOp (bits 0x4405 6 7) = true := by decide
theorem witness_FinishAdvances : (∃ s : State, (s.ctx 0 0).apc = true) ∧
    ∃ (s : State) (img h : Nat), (s.fetchLine 0 0 0x50000).1 = .ok img ∧ lineLast img = .ok h ∧ 0x50000 % 2 = 0 ∧ 0x50000 % 64 / 2 ≤ h ∧ 0x50000 + 64 < 2 ^ 48 :=
  ⟨⟨at0 (fun c => { c with apc := true }) id, by decide +kernel⟩, regs [], codeLine.toNat, 1, by rw [line_held (regs []) (by decide +kernel) 0x50000], okIs_eq (by decide +kernel), by decide⟩
theorem warm_regs : (regs []).warm := by unfold State.warm; rw [show (regs []).me.n2.toNat = 0x50004 from by decide +kernel]; exact congrArg Prod.snd (line_held (regs []) (by decide +kernel) 0x50004)
theorem witness_FinishKeeps : ∃ s : State, s.warm := ⟨regs [], warm_regs⟩
theorem witness_ScalarResult : ∃ f, ScalarOp (.add 5 ⟨3, false⟩ ⟨6, false⟩) 5 [GSrc.op ⟨3, false⟩ 0, GSrc.op ⟨6, false⟩ 1] f ∧ (regs [(3, 7), (6, 2)]).plain (.g 5 :: refs [GSrc.op ⟨3, false⟩ 0, GSrc.op ⟨6, false⟩ 1]) = true ∧
    (regs [(3, 7), (6, 2)]).me.stackBad 5 (f (regs [(3, 7), (6, 2)]).me) = false := ⟨_, .two .add 5 ⟨3, false⟩ ⟨6, false⟩, by decide +kernel, by decide +kernel⟩
/-- The same with g3 empty. -/
def hollow : State := emptied [3] (regs [])
theorem witness_EmptyOperandsAndStack :
    (∃ f, ScalarOp (.neg 5 ⟨3, false⟩) 5 [GSrc.op ⟨3, false⟩ 0] f ∧ (∀ o ∈ [GSrc.op ⟨3, false⟩ 0] ++ [dG 5], hollow.me.slotOf o.ref = none) ∧
      ∃ o ∈ [GSrc.op ⟨3, false⟩ 0] ++ [dG 5], hollow.empty o = true ∧ o.t = false) ∧
    (∃ f o, ScalarOp (.neg 5 ⟨3, true⟩) 5 [GSrc.op ⟨3, true⟩ 0] f ∧ (∀ p ∈ [GSrc.op ⟨3, true⟩ 0] ++ [dG 5], hollow.empty p = true → p.t = true ∧ o.field ≤ p.field) ∧
      o ∈ [GSrc.op ⟨3, true⟩ 0] ++ [dG 5] ∧ hollow.empty o = true) ∧
    ∃ f, ScalarOp (.neg 62 ⟨3, false⟩) 62 [GSrc.op ⟨3, false⟩ 0] f ∧ (regs [(3, 1)]).plain (.g 62 :: refs [GSrc.op ⟨3, false⟩ 0]) = true ∧
      ((f (regs [(3, 1)]).me).toNat < (regs [(3, 1)]).me.ssl.toNat ∨ (regs [(3, 1)]).me.ssb.toNat < (f (regs [(3, 1)]).me).toNat) :=
  ⟨⟨_, .one .neg 5 ⟨3, false⟩, by decide +kernel, GSrc.op ⟨3, false⟩ 0, by decide +kernel, by decide +kernel⟩,
   ⟨_, GSrc.op ⟨3, true⟩ 0, .one .neg 5 ⟨3, true⟩, by decide +kernel, by decide +kernel, by decide +kernel⟩,
   ⟨_, .one .neg 62 ⟨3, false⟩, by decide +kernel, by decide +kernel⟩⟩
theorem witness_Frames :
    (∃ f, ScalarOp (.neg 5 ⟨3, false⟩) 5 [GSrc.op ⟨3, false⟩ 0] f ∧ (regs [(3, 1)]).plain (.g 5 :: refs [GSrc.op ⟨3, false⟩ 0]) = true ∧ (regs [(3, 1)]).me.stackBad 5 (f (regs [(3, 1)]).me) = false ∧
      ∃ t, exec (.neg 5 ⟨3, false⟩) (regs [(3, 1)]) = .next t) ∧
    ∃ ea, StoreOp (.st 5 ⟨3, false⟩ .d false 0) 5 [GSrc.op ⟨3, false⟩ 0] ea .d false false ∧ (regs [(3, 0x1FFF8)]).plain (.g 5 :: refs [GSrc.op ⟨3, false⟩ 0]) = true ∧
      (regs [(3, 0x1FFF8)]).inSpad (ea (regs [(3, 0x1FFF8)]).me) 8 ∧ (regs [(3, 0x1FFF8)]).me.stackFits false (ea (regs [(3, 0x1FFF8)]).me) 8 ∧
      ∃ t, exec (.st 5 ⟨3, false⟩ .d false 0) (regs [(3, 0x1FFF8)]) = .next t :=
  ⟨⟨_, .one .neg 5 ⟨3, false⟩, by decide +kernel, by decide +kernel, ⟨_, rfl⟩⟩,
   ⟨_, .st 5 ⟨3, false⟩ .d false 0, by decide +kernel, inSpad_plain (by decide +kernel) (by decide +kernel) rfl rfl, by intro h; exact absurd h (by decide), ⟨_, rfl⟩⟩⟩
theorem witness_MaskResult : (∃ f, MaskOp (.mand (.m 1) (.m 2) (.p 3)) [.m 1, .m 2, .p 3] (.m 1) f) ∧ (regs []).masksFree [.m 1, .m 2, .p 3] ∧
    MaskNum .mpopc (fun m => BitVec.ofNat 64 ((List.range 256).countP fun i => m.getLsbD i)) ∧ (regs []).masksFree [.m 2] ∧ (regs []).plain [.g 7] = true ∧
    (regs []).me.stackBad 7 (BitVec.ofNat 64 ((List.range 256).countP fun i => ((regs []).me.getM (.m 2)).getLsbD i)) = false ∧ (regs []).plain [.g 62] = true :=
  ⟨⟨_, .mand _ _ _⟩, .inl (by decide +kernel), .mpopc, .inl (by decide +kernel), by decide +kernel, by decide +kernel, by decide +kernel⟩
theorem witness_TransferResult : (regs []).plain [.g 4, .g 5] = true ∧ (regs []).plain [.g 63] = true ∧ (regs []).plain [.g 63, .g 63] = true := by decide +kernel
theorem witness_WaitAndRetire : ((∀ r : GReg, isEmptyRef (regs []).home (regs []).me (.g r) = false) ∧ ∀ r : VReg, isEmptyRef (regs []).home (regs []).me (.v r) = false) ∧
    (∃ r : GReg, isEmptyRef hollow.home hollow.me (.g r) = true) ∧
    (∃ s : State, ∃ r : VReg, isEmptyRef s.home s.me (.v r) = true) ∧
    (∃ s : State, s.me.ldnm = false ∧ s.me.sendopen = true) ∧ (∃ s : State, s.me.ldnm = false ∧ s.me.sendopen = false ∧ s.actx ≠ 0) ∧ ∃ s : State, s.me.ldnm = false ∧ s.me.sendopen = false ∧ s.actx = 0 :=
  ⟨⟨by decide +kernel, by decide +kernel⟩, ⟨3, by decide +kernel⟩, ⟨at0 (fun c => c.markV 9 false) id, 9, by decide +kernel⟩, ⟨at0 (fun c => c.setStatus 11 1 1) id, by decide +kernel⟩,
   ⟨{ regs [] with actx := 10 }, by decide +kernel⟩, ⟨regs [], by decide +kernel⟩⟩
/-- Every helper of core 0 busy. -/
def full0 : State := { regs [] with } |>.modCore 0 fun c => { c with ctxs := vmap (fun (t : Ctx) => { t with st := .live }) c.ctxs }
/-- A continuation record. -/
def record1 : Nat × Word × Nat := (0, 0, 0)
theorem passes0 : (regs []).me.passes ∧ full0.me.passes := by
  refine ⟨⟨?_, ?_⟩, ?_, ?_⟩
  · intro i h1 h2; interval_cases i <;> decide +kernel
  · intro i h2; interval_cases i <;> decide +kernel
  · intro i h1 h2; interval_cases i <;> decide +kernel
  · intro i h2; interval_cases i <;> decide +kernel
theorem witness_StartResult : (regs []).me.ldnm = false ∧ (regs []).me.passes ∧ (regs []).plain [.g 0, .g 5] = true ∧ (regs []).me.st ≠ .free ∧
    (∃ y, (regs []).home.freeHelper = some y ∧ (regs []).home.cq = [] ∧ (regs []).me.stackBad 5 (BitVec.ofNat 64 y.val) = false) ∧
    full0.me.ldnm = false ∧ full0.me.passes ∧ full0.plain [.g 1, .g 5] = true ∧ full0.me.st ≠ .free ∧ full0.home.freeHelper = none ∧ full0.me.stackBad 5 (BitVec.allOnes 64) = false :=
  ⟨by decide +kernel, passes0.1, by decide +kernel, by decide +kernel, ⟨1, by decide +kernel⟩, by decide +kernel, passes0.2, by decide +kernel, by decide +kernel, by decide +kernel, by decide +kernel⟩
/-- Members 0 and 1 held, member 1 named in m1. -/
def halves (s : State) (n : Nat) : State := (s.upd fun t => (t.putM (.m 0) 3).putM (.m 1) 2).modCore 0 fun c => { c with cq := List.replicate n record1 }
theorem witness_SplitResult :
    ((regs []).me.ldnm = false ∧ (regs []).me.passes ∧ (regs []).plain [.g 5] = true ∧ (regs []).me.st ≠ .free ∧ (∀ n, n ≤ 4 → (regs []).me.stackBad 5 (BitVec.ofNat 64 n) = false) ∧
      (regs []).me.getM (.m 0) &&& (regs []).me.getM (.m 1) = 0) ∧
    (∃ s : State, s.me.getM (.m 0) &&& s.me.getM (.m 1) ≠ 0 ∧ s.me.getM (.m 0) &&& ~~~s.me.getM (.m 1) = 0) ∧
    (∃ y, (halves (regs []) 0).me.getM (.m 0) &&& (halves (regs []) 0).me.getM (.m 1) ≠ 0 ∧ (halves (regs []) 0).me.getM (.m 0) &&& ~~~(halves (regs []) 0).me.getM (.m 1) ≠ 0 ∧
      (halves (regs []) 0).home.freeHelper = some y ∧ (halves (regs []) 0).home.cq = []) ∧
    ((halves full0 63).home.freeHelper = none ∧ (halves full0 63).home.cq.length < 64) ∧ 64 ≤ (halves full0 64).home.cq.length ∧
    (halves full0 64).me.getM (.m 0) &&& (halves full0 64).me.getM (.m 1) ≠ 0 ∧ (halves full0 64).me.getM (.m 0) &&& ~~~(halves full0 64).me.getM (.m 1) ≠ 0 :=
  ⟨⟨by decide +kernel, passes0.1, by decide +kernel, by decide +kernel, by intro n h; interval_cases n <;> decide +kernel, by decide +kernel⟩,
   ⟨(regs []).upd fun t => (t.putM (.m 0) 2).putM (.m 1) 2, by decide +kernel⟩, ⟨1, by decide +kernel⟩, by decide +kernel, by decide +kernel, by decide +kernel⟩
theorem witness_LoadScratchpad :
    (∃ ea, LoadOp (.ld 5 ⟨3, false⟩ .d false true (-8)) 5 [GSrc.op ⟨3, false⟩ 0] ea .d false true false ∧ (regs [(3, 0x20000)]).plain (.g 5 :: refs [GSrc.op ⟨3, false⟩ 0]) = true ∧
      (regs [(3, 0x20000)]).inSpad (ea (regs [(3, 0x20000)]).me) 8 ∧ (regs [(3, 0x20000)]).me.stackFits false (ea (regs [(3, 0x20000)]).me) 8 ∧ (ea (regs [(3, 0x20000)]).me).toNat % 8 = 0 ∧
      (regs [(3, 0x20000)]).me.stackBad 5 (loaded 8 false ((regs [(3, 0x20000)]).spadRead (ea (regs [(3, 0x20000)]).me) 8)) = false) ∧
    (regs [(3, 128)]).plain [.g 3, .v 9] = true ∧ (regs [(3, 128)]).inSpad ((regs [(3, 128)]).me.getG 3 + (0 : BitVec 20).signExtend 64) 128 ∧
      (regs [(3, 128)]).me.stackFits ((3 : GReg) == 62) ((regs [(3, 128)]).me.getG 3 + (0 : BitVec 20).signExtend 64) 128 :=
  ⟨⟨_, .ld 5 ⟨3, false⟩ .d false true (-8), by decide +kernel, inSpad_plain (by decide +kernel) (by decide +kernel) rfl rfl, fun h => absurd h (by decide), by decide +kernel, by decide +kernel⟩,
   by decide +kernel, inSpad_plain (by decide +kernel) (by decide +kernel) rfl rfl, fun h => absurd h (by decide)⟩
theorem witness_StoreScratchpad :
    (∃ ea, StoreOp (.stx 5 ⟨3, false⟩ ⟨4, false⟩ 3 .d true) 5 [GSrc.op ⟨3, false⟩ 0, GSrc.op ⟨4, false⟩ 1] ea .d true false ∧ (regs [(3, 8), (4, 2)]).plain (.g 5 :: refs [GSrc.op ⟨3, false⟩ 0, GSrc.op ⟨4, false⟩ 1]) = true ∧
      (regs [(3, 8), (4, 2)]).inSpad (ea (regs [(3, 8), (4, 2)]).me) 8 ∧ (regs [(3, 8), (4, 2)]).me.stackFits false (ea (regs [(3, 8), (4, 2)]).me) 8 ∧ (ea (regs [(3, 8), (4, 2)]).me).toNat % 8 = 0 ∧
      (regs [(3, 8), (4, 2)]).pairsOut (regs [(3, 8), (4, 2)]).act (regs [(3, 8), (4, 2)]).actx.val = false) ∧
    (regs [(3, 128)]).plain [.g 3, .v 9] = true ∧ (regs [(3, 128)]).inSpad ((regs [(3, 128)]).me.getG 3 + (0 : BitVec 20).signExtend 64) 128 :=
  ⟨⟨_, .stx 5 ⟨3, false⟩ ⟨4, false⟩ 3 .d true, by decide +kernel, inSpad_plain (by decide +kernel) (by decide +kernel) rfl rfl, fun h => absurd h (by decide), by decide +kernel, by decide +kernel⟩,
   by decide +kernel, inSpad_plain (by decide +kernel) (by decide +kernel) rfl rfl⟩
/-- g3 points into the page at 0x50000, whose flags are given. -/
def paged (flags : BitVec 10) : State := at0 (gs [(3, 0x50100)]) (page flags)
/-- g3 points at EGRANT of cluster 0, through a page of register space, at a level. -/
def devPage (priv : Nat) : State := at0 (fun c => (gs [(3, 0x50108)] c).setStatus 4 2 priv) fun c => { c with tlb := [⟨0, 0x50000, 4096, regBase + 0x200000, 0x5F, none⟩] }
/-- One word of physical memory poisoned. -/
def poisoned (w : Nat) (s : State) : State := { s with poison := [w] }
/-- A window over the page at 0x50000, at local 0x1000; g3 points into it. -/
def windowed : State := at0 (gs [(3, 0x1040)]) fun c => { c with wins := c.wins.set 0 (some ⟨0x1000, 0x50000, 0x1000, 0, [], []⟩) }
/-- What a load at g3, and a store there, ask for. -/
abbrev lq (a : Word) : Req := loadReq a .d false false
abbrev sq (a : Word) : Req := storeReq a .d false false
theorem witness_AccessElsewhere_load :
    (∃ ea, LoadOp (.ld 5 ⟨3, false⟩ .d false false 0) 5 [GSrc.op ⟨3, false⟩ 0] ea .d false false false ∧ ∀ s : State, s = devPage 1 ∨ s = devPage 0 ∨ s = paged 0x1F ∨ s = poisoned 0xC0040 (paged 0x1F) ∨
      s = poisoned 0xC0010 windowed → s.plain (.g 5 :: refs [GSrc.op ⟨3, false⟩ 0]) = true ∧ s.accepts (lq (ea s.me)) (placesOf (lq (s.me.getG 3)) s).1 (placesOf (lq (s.me.getG 3)) s).2) ∧
    (∃ pa x, regPlace (placesOf (lq 0x50108) (devPage 1)).1 = some pa ∧ (placesOf (lq 0x50108) (devPage 1)).2.regRead pa (devPage 1).me.priv = some x ∧ (devPage 1).me.stackBad 5 x = false) ∧
    (∃ pa, regPlace (placesOf (lq 0x50108) (devPage 0)).1 = some pa ∧ (placesOf (lq 0x50108) (devPage 0)).2.regRead pa (devPage 0).me.priv = none) ∧
    (∀ s : State, s = paged 0x1F ∨ s = poisoned 0xC0040 (paged 0x1F) ∨ s = poisoned 0xC0010 windowed → regPlace (placesOf (lq (s.me.getG 3)) s).1 = none ∧
      (placesOf (lq (s.me.getG 3)) s).2.mayLoad (placesOf (lq (s.me.getG 3)) s).1 ∧ plainPlaces s.act (placesOf (lq (s.me.getG 3)) s).1 = false) ∧
    ((placesOf (lq 0x50100) (paged 0x1F)).2.loadPlaces 0 (placesOf (lq 0x50100) (paged 0x1F)).1).1.2 = false ∧
    ((placesOf (lq 0x50100) (poisoned 0xC0040 (paged 0x1F))).2.loadPlaces 0 (placesOf (lq 0x50100) (poisoned 0xC0040 (paged 0x1F))).1).1.2 = true ∧
    inWindow (placesOf (lq 0x50100) (poisoned 0xC0040 (paged 0x1F))).1 = false ∧
    ((placesOf (lq 0x1040) (poisoned 0xC0010 windowed)).2.loadPlaces 0 (placesOf (lq 0x1040) (poisoned 0xC0010 windowed)).1).1.2 = true ∧
    inWindow (placesOf (lq 0x1040) (poisoned 0xC0010 windowed)).1 = true := by
  refine ⟨⟨_, .ld 5 ⟨3, false⟩ .d false false 0, ?_⟩, ⟨regBase + 0x200108, 800, by decide +kernel⟩, ⟨regBase + 0x200108, by decide +kernel⟩, ?_, by decide +kernel⟩
  · rintro s (rfl | rfl | rfl | rfl | rfl) <;> exact ⟨by decide +kernel, passes_accepts (by decide +kernel)⟩
  · rintro s (rfl | rfl | rfl) <;> exact ⟨by decide +kernel, mayLoad_of (by decide +kernel), by decide +kernel⟩
theorem witness_AccessElsewhere_node : ∃ s : State, s.plain (.g 5 :: refs [GSrc.op ⟨3, false⟩ 0]) = true ∧ s.accepts (lq 0x50100) (placesOf (lq 0x50100) s).1 (placesOf (lq 0x50100) s).2 ∧ s.me.getG 3 = 0x50100 ∧
    regPlace (placesOf (lq 0x50100) s).1 = none ∧ (placesOf (lq 0x50100) s).2.nodeAhead 0 0 (placesOf (lq 0x50100) s).1 = true :=
  ⟨(paged 0x1F).modCluster 0 fun c => { c with yreq := [⟨(0, 0, 0x50100, 0), ⟨0, 0, 1, 1⟩, .phys 0x300100 .dir, 0⟩] }, by decide +kernel, passes_accepts (by decide +kernel), by decide +kernel, by decide +kernel, by decide +kernel⟩
/-- g3 points at ECAP of cluster 0, writable at M, through a page of register space. -/
def devPageW (priv : Nat) : State := at0 (fun c => (gs [(3, 0x50100), (5, 900)] c).setStatus 4 2 priv) fun c => { c with tlb := [⟨0, 0x50000, 4096, regBase + 0x200000, 0x5F, none⟩] }
theorem witness_AccessElsewhere_store :
    (∃ ea, StoreOp (.st 5 ⟨3, false⟩ .d true 0) 5 [GSrc.op ⟨3, false⟩ 0] ea .d true false ∧ ∀ s : State, s = devPageW 2 ∨ s = devPageW 0 ∨ s = paged 0x1F →
      s.plain (.g 5 :: refs [GSrc.op ⟨3, false⟩ 0]) = true ∧ s.accepts (storeReq (ea s.me) .d true false) (placesOf (storeReq (s.me.getG 3) .d true false) s).1 (placesOf (storeReq (s.me.getG 3) .d true false) s).2 ∧
      (placesOf (storeReq (s.me.getG 3) .d true false) s).2.pairsOut 0 0 = false ∧ s.me.ldnm = false) ∧
    (∃ pa, regPlace (placesOf (storeReq 0x50100 .d true false) (devPageW 2)).1 = some pa ∧
      (((placesOf (storeReq 0x50100 .d true false) (devPageW 2)).2.siFlush 0).regWrite pa 2 900).isSome = true) ∧
    (∃ pa, regPlace (placesOf (storeReq 0x50100 .d true false) (devPageW 0)).1 = some pa ∧
      (((placesOf (storeReq 0x50100 .d true false) (devPageW 0)).2.siFlush 0).regWrite pa 0 900).isNone = true) ∧
    regPlace (placesOf (storeReq 0x50100 .d true false) (paged 0x1F)).1 = none ∧
    ((placesOf (storeReq 0x50100 .d true false) (paged 0x1F)).2.released true).mayStore (placesOf (storeReq 0x50100 .d true false) (paged 0x1F)).1 := by
  refine ⟨⟨_, .st 5 ⟨3, false⟩ .d true 0, ?_⟩, ⟨regBase + 0x200100, by decide +kernel⟩, ⟨regBase + 0x200100, by decide +kernel⟩, by decide +kernel, mayStore_of (by decide +kernel)⟩
  rintro s (rfl | rfl | rfl) <;> exact ⟨by decide +kernel, passes_accepts (by decide +kernel), by decide +kernel⟩

/-- The failure that the checks of an access report. -/
def failureOf (q : Req) (s : State) : Option Trap :=
  match checkOne q s with
  | .ok (.error e, _) => some e.2
  | _ => none
theorem failureOf_rejects {q : Req} {s : State} {t : Trap} (h : failureOf q s = some t) : s.rejects q t := by
  unfold failureOf at h
  split at h
  · next n t' e => exact ⟨_, _, by rw [e]; exact congrArg (fun x => Except.ok (Except.error (n.1, x), t')) (Option.some.inj h)⟩
  · cases h
theorem witness_AccessFaults :
    (∃ ea t, LoadOp (.ld 5 ⟨3, false⟩ .d false true 1) 5 [GSrc.op ⟨3, false⟩ 0] ea .d false true false ∧ (regs [(3, 8)]).plain (.g 5 :: refs [GSrc.op ⟨3, false⟩ 0]) = true ∧
      (regs [(3, 8)]).rejects (loadReq (ea (regs [(3, 8)]).me) .d true false) t) ∧
    (∃ ea t, StoreOp (.st 5 ⟨62, false⟩ .b false 0) 5 [GSrc.op ⟨62, false⟩ 0] ea .b false true ∧ (regs [(62, 8)]).plain (.g 5 :: refs [GSrc.op ⟨62, false⟩ 0]) = true ∧
      (regs [(62, 8)]).rejects (storeReq (ea (regs [(62, 8)]).me) .b false true) t) ∧
    (∃ q : Req, 0 < q.n ∧ q.stk = true ∧ (regs []).me.ssb.toNat < q.va.toNat + q.n - 1) ∧ (∃ q : Req, 0 < q.n ∧ q.stk = false ∧ 2 ^ 48 ≤ q.va.toNat) ∧
    ∃ q : Req, 0 < q.n ∧ q.stk = false ∧ q.va.toNat < 0x20000 ∧ 0x20000 < q.va.toNat + q.n :=
  ⟨⟨_, _, .ld 5 ⟨3, false⟩ .d false true 1, by decide +kernel, failureOf_rejects (t := ⟨0x0A, memDetail 8 0 0 0, 9, false⟩) (by decide +kernel)⟩,
   ⟨_, _, .st 5 ⟨62, false⟩ .b false 0, by decide +kernel, failureOf_rejects (t := ⟨0x0B, memDetail 1 0 1 1, 8, false⟩) (by decide +kernel)⟩,
   ⟨loadReq 8 .d false true, by decide +kernel⟩, ⟨loadReq 0x1000000000000 .b false false, by decide +kernel⟩, ⟨loadReq 0x1FFFF .h false false, by decide +kernel⟩⟩
theorem witness_VectorAccesses :
    (∃ addr, VLoadOp (.ldvs 9 ⟨3, false⟩ ⟨4, false⟩ none .w) 9 [GSrc.op ⟨3, false⟩ 0, GSrc.op ⟨4, false⟩ 1] 4 32 addr none false none ∧ (regs [(3, 0), (4, 8)]).plain (.v 9 :: refs [GSrc.op ⟨3, false⟩ 0, GSrc.op ⟨4, false⟩ 1]) = true ∧
      ∀ j, j < 32 → (regs [(3, 0), (4, 8)]).me.isActive none j → (regs [(3, 0), (4, 8)]).inSpad (addr (regs [(3, 0), (4, 8)]).me j) 4 ∧ (addr (regs [(3, 0), (4, 8)]).me j).toNat % 4 = 0 ∧
        (regs [(3, 0), (4, 8)]).me.stackFits false (addr (regs [(3, 0), (4, 8)]).me j) 4) ∧
    (∃ addr, VLoadOp (.gath 9 ⟨3, false⟩ ⟨8, false⟩ none 0 true .b) 9 [GSrc.op ⟨3, false⟩ 0, VSrc.op ⟨8, false⟩ 1] 1 32 addr none false (some true) ∧ (regs []).plain (.v 9 :: refs [GSrc.op ⟨3, false⟩ 0, VSrc.op ⟨8, false⟩ 1]) = true ∧
      ∀ j, j < 32 → (regs []).me.isActive none j → (regs []).inSpad (addr (regs []).me j) 1 ∧ (addr (regs []).me j).toNat % 1 = 0 ∧ (regs []).me.stackFits false (addr (regs []).me j) 1) ∧
    ∃ addr, VStoreOp (.scatv 9 ⟨3, false⟩ ⟨8, false⟩ none 0 .b) 9 [GSrc.op ⟨3, false⟩ 0, VSrc.op ⟨8, false⟩ 1] 1 32 addr none false 4 ∧ (regs []).plain (.v 9 :: refs [GSrc.op ⟨3, false⟩ 0, VSrc.op ⟨8, false⟩ 1]) = true ∧
      ∀ j, j < 32 → (regs []).me.isActive none j → (regs []).inSpad (addr (regs []).me j) 1 ∧ (addr (regs []).me j).toNat % 1 = 0 ∧ (regs []).me.stackFits false (addr (regs []).me j) 1 := by
  refine ⟨⟨_, .ldvs 9 ⟨3, false⟩ ⟨4, false⟩ none .w, by decide +kernel, fun j hj _ => ?_⟩, ⟨_, .gath 9 ⟨3, false⟩ ⟨8, false⟩ none 0 true .b, by decide +kernel, fun j hj _ => ?_⟩,
    _, .scatv 9 ⟨3, false⟩ ⟨8, false⟩ none 0 .b, by decide +kernel, fun j hj _ => ?_⟩
  all_goals interval_cases j <;> exact ⟨inSpad_plain (by decide +kernel) (by decide +kernel) rfl rfl, by decide +kernel, fun h => absurd h (by decide)⟩
theorem witness_AtomicResult_spad :
    ∃ ea f, AtomicOp (.cas 9 ⟨4, false⟩ ⟨10, false⟩ ⟨0, false⟩ true) 9 [GSrc.op ⟨4, false⟩ 0, GSrc.op ⟨10, false⟩ 1, GSrc.op ⟨0, false⟩ 2] ea true f false ∧
      (regs [(4, 64)]).plain (.g 9 :: refs [GSrc.op ⟨4, false⟩ 0, GSrc.op ⟨10, false⟩ 1, GSrc.op ⟨0, false⟩ 2]) = true ∧ (regs [(4, 64)]).inSpad (ea (regs [(4, 64)]).me) 8 ∧
      (regs [(4, 64)]).me.stackFits false (ea (regs [(4, 64)]).me) 8 ∧ (ea (regs [(4, 64)]).me).toNat % 8 = 0 ∧
      (regs [(4, 64)]).me.stackBad 9 (loaded 8 false ((regs [(4, 64)]).spadRead (ea (regs [(4, 64)]).me) 8)) = false ∧ (regs [(4, 64)]).me.ldnm = false :=
  ⟨_, _, .cas 9 ⟨4, false⟩ ⟨10, false⟩ ⟨0, false⟩ true, by decide +kernel, inSpad_plain (by decide +kernel) (by decide +kernel) rfl rfl, fun h => absurd h (by decide), by decide +kernel, by decide +kernel⟩
/-- The atomic at g3, the future at g3: what they ask for. -/
abbrev aq : Req := atomicReq 0x50100 true false
abbrev fq (wr : Bool) : Req := futureReq 0x50100 wr false
theorem witness_AtomicResult_home :
    ∃ ea f pa old s2, AtomicOp (.fadd 9 ⟨3, false⟩ ⟨10, false⟩ true) 9 [GSrc.op ⟨3, false⟩ 0, GSrc.op ⟨10, false⟩ 1] ea true f false ∧ (paged 0x1F).me.stackBad 9 (loaded 8 false old) = false ∧
      (paged 0x1F).plain (.g 9 :: refs [GSrc.op ⟨3, false⟩ 0, GSrc.op ⟨10, false⟩ 1]) = true ∧ (paged 0x1F).accepts (atomicReq (ea (paged 0x1F).me) true false) (placesOf aq (paged 0x1F)).1 (placesOf aq (paged 0x1F)).2 ∧
      homePa (placesOf aq (paged 0x1F)).1 = some pa ∧ (placesOf aq (paged 0x1F)).2.noPairs (placesOf aq (paged 0x1F)).1 ∧ (paged 0x1F).me.ldnm = false ∧
      (placesOf aq (paged 0x1F)).2.syncRead 0 (placesOf aq (paged 0x1F)).1 pa 8 = (old, s2) :=
  ⟨_, _, 0x300100, 0, ((placesOf aq (paged 0x1F)).2.syncRead 0 (placesOf aq (paged 0x1F)).1 0x300100 8).2, .fadd 9 ⟨3, false⟩ ⟨10, false⟩ true, by decide +kernel, by decide +kernel, passes_accepts (by decide +kernel), by decide +kernel,
    noPairs_of (by decide +kernel), by decide +kernel, Prod.ext (by decide +kernel) rfl⟩
/-- The deferral buffer full. -/
def deferring (s : State) : State := s.modCore 0 fun c => { c with ldfs := List.replicate 256 ⟨1, 5, 6, 0, 0, false, false, 0⟩ }
theorem witness_FutureResult :
    (∀ s : State, s = paged 0x9F ∨ s = deferring (paged 0x9F) ∨ s = poisoned 0xC0040 (paged 0x9F) ∨ s = { paged 0x9F with fempty := [0x300100] } → s.me.stackBad 5 0 = false ∧ s.me.stackBad 6 0 = false ∧ s.me.stackBad 6 1 = false ∧
      s.plain [.g 3, .g 5, .g 6] = true ∧ (∀ wr, s.accepts (futureReq (s.me.getG 3) wr false) (placesOf (fq wr) s).1 (placesOf (fq wr) s).2 ∧ homePa (placesOf (fq wr) s).1 = some 0x300100 ∧
        (placesOf (fq wr) s).2.noPairs (placesOf (fq wr) s).1) ∧ (placesOf (fq true) s).2.pairsOut 0 0 = false ∧ s.me.ldnm = false ∧ ((placesOf (fq true) s).2.siFlush 0).noPairs (placesOf (fq true) s).1 ∧ s.plain [.g 3, .g 7] = true) ∧
    256 ≤ (placesOf (fq false) (deferring (paged 0x9F))).2.home.deferrals ∧ (placesOf (fq false) (paged 0x9F)).2.home.deferrals < 256 ∧
    ((placesOf (fq false) (poisoned 0xC0040 (paged 0x9F))).2.syncRead 0 (placesOf (fq false) (poisoned 0xC0040 (paged 0x9F))).1 0x300100 8).2.anyPoisonFor 0 0x300100 8 = true ∧
    ((placesOf (fq false) (paged 0x9F)).2.syncRead 0 (placesOf (fq false) (paged 0x9F)).1 0x300100 8).2.anyPoisonFor 0 0x300100 8 = false ∧ ((placesOf (fq false) (paged 0x9F)).2.syncRead 0 (placesOf (fq false) (paged 0x9F)).1 0x300100 8).2.isEmpty 0x300100 = false ∧
    ((placesOf (fq false) { paged 0x9F with fempty := [0x300100] }).2.syncRead 0 (placesOf (fq false) { paged 0x9F with fempty := [0x300100] }).1 0x300100 8).2.isEmpty 0x300100 = true := by
  refine ⟨?_, by decide +kernel⟩
  rintro s (rfl | rfl | rfl | rfl) <;>
    exact ⟨by decide +kernel, by decide +kernel, by decide +kernel, by decide +kernel, fun wr => ⟨passes_accepts (by cases wr <;> decide +kernel), by cases wr <;> decide +kernel, noPairs_of (by cases wr <;> decide +kernel)⟩,
      by decide +kernel, by decide +kernel, noPairs_of (by decide +kernel), by decide +kernel⟩
/-- A busy engine command of context 0, under tag 5. -/
def busyTag (st : TagSt) (s : State) : State := s.modCore 0 fun c => { c with tags := c.tags.set 5 { Tag.reset with st := st, cmd := some ⟨0, 0, 0, 0, Vector.replicate 8 0, .none, 5⟩ } }
/-- A pair of context 0 in the update buffer. -/
def pair0 : Pair := ⟨0x300000, 0, 1, 0, 0, 0, [0], .dir, false, false⟩
def pairing (n : Nat) (s : State) : State := s.modCore 0 fun c => { c with ubuf := List.replicate n pair0 }
/-- An LDNM of the context not resolved; every tracking entry of its core busy. -/
def fetching : State := at0 (fun c => { c with ldnm := true }) id
def tracked : State := at0 id fun c => { c with track := List.replicate 32 ⟨1, 1, 9⟩ }
theorem witness_FenceResult_waits : fetching.me.ldnm = true ∧ tracked.trackBusy tracked.act = true ∧ (regs []).me.ldnm = false ∧ tracked.plain [.g 3] = true := by decide +kernel
theorem witness_FenceResult : (regs []).pairsOut (regs []).act (regs []).actx.val = false ∧ (pairing 1 (regs [])).pairsOut (pairing 1 (regs [])).act (pairing 1 (regs [])).actx.val = true ∧
    ((regs []).me.mxu = 0 ∧ ∀ i : Fin 64, ∀ c, (regs []).home.tags[i].cmd = some c → c.ctx = (regs []).actx.val → (regs []).home.tags[i].st ≠ .busy ∧ (regs []).home.tags[i].st ≠ .srcDone) ∧
    (∃ i : Fin 64, ∃ c, (busyTag .busy (regs [])).home.tags[i].cmd = some c ∧ c.ctx = (busyTag .busy (regs [])).actx.val ∧ ((busyTag .busy (regs [])).home.tags[i].st = .busy ∨ (busyTag .busy (regs [])).home.tags[i].st = .srcDone)) ∧
    (regs [(3, 0x1000000000000)]).plain [.g 3] = true ∧ 2 ^ 48 ≤ ((regs [(3, 0x1000000000000)]).me.getG 3 + (0 : BitVec 20).signExtend 64).toNat :=
  ⟨by decide +kernel, by decide +kernel, ⟨by decide +kernel, fun i c e => by
    have : ∀ i : Fin 64, (regs []).home.tags[i].cmd.isNone = true := by decide +kernel
    have := this i; rw [e] at this; exact Bool.noConfusion this⟩, ⟨5, _, rfl, by decide +kernel, by decide +kernel⟩, by decide +kernel, by decide +kernel⟩
theorem witness_LoadAfterStore : Attr.dir ≠ .uc ∧ Attr.si ≠ .uc ∧ ((0 : Nat), (1 : Nat)) ≠ (0, 0) := by decide
/-- A range lock over local bytes 0x1000 to 0x10FF. -/
def locking (s : State) : State := s.modCore 0 fun c => { c with locks := [⟨0x1000, 256, 3, true⟩] }
/-- A window that holds a D word. -/
def dirtied : State := windowed.modCore 0 fun c => { c with wins := c.wins.set 0 (some ⟨0x1000, 0x50000, 0x1000, 0, [(0, ⟨0xC0000, .d, 5, .dir⟩)], []⟩) }
/-- A word of the window whose fill is outstanding. -/
def filling : State := dirtied.modCore 0 fun c => { c with track := [⟨0xC000, 1, 9⟩] }
theorem witness_WindowResult_map : ∀ s : State, s = regs [(4, 0x1000), (5, 0x50000), (6, 0x100)] → s.plain [.g 4, .g 5, .g 6, .g 3] = true ∧
    (s.home.lockedOver s.act 0x1000 0x100 = false ∧ s.home.lockedOver s.act 0x50000 0x100 = false ∧ s.me.stackBad 3 0 = false) ∧
    (s.home.wmapCode (Fin.ofNat 8 2) 0x1000 0x50000 0x100 = 0 ∧ s.home.wmapCode (Fin.ofNat 8 2) 0x1001 0x50000 0x100 ≠ 0) ∧
    (locking s).home.lockedOver s.act 0x1000 0x100 = true := by rintro s rfl; decide +kernel
theorem witness_WindowResult_unmap :
    (∀ o, windowed.home.wins[(0 : Fin 8)] = some o → windowed.home.lockedOver windowed.act o.base o.len = false ∧ windowed.home.lockedOver windowed.act o.va o.len = false) ∧
    (∃ o, (locking windowed).home.wins[(0 : Fin 8)] = some o ∧ (locking windowed).home.lockedOver 0 o.base o.len = true) ∧
    (dirtied.home.winBusy 0 dirtied.time = false ∧ filling.home.winBusy 0 filling.time = true) ∧
    ∃ o, dirtied.home.wins[(0 : Fin 8)] = some o ∧ (∀ y ∈ o.words, y.2.st = .d → y.2.x < 2 ^ 32) ∧ (o.words.map fun y => y.2.w).Nodup ∧ ∃ y ∈ o.words, y.2.st = .d :=
  ⟨fun o e => by cases e; decide +kernel, ⟨_, rfl, by decide +kernel⟩, by decide +kernel,
   ⟨⟨0x1000, 0x50000, 0x1000, 0, [(0, ⟨0xC0000, .d, 5, .dir⟩)], []⟩, by decide +kernel, by decide, by decide, by decide⟩⟩
/-- The page at 0x50000 tagged with region 0, an I32 ADD region. -/
def tagged : State := { at0 (gs [(3, 0x50100), (4, 1)]) fun c => { c with tlb := [⟨0, 0x50000, 4096, 0x300000, 0x1F, some 0⟩] } with regions := [(0, ⟨0, 0x50000, 0x300000, 1, .i32, .add, false⟩)] }
theorem pairFor_tagged (j : Nat) : tagged.pairFor .i32 false j 0x50100 (0x300100, 0, .dir, false) := rfl
theorem witness_UpdResult :
    (tagged.plain [.g 3, .g 4] = true ∧ tagged.home.ubuf.length < 128 ∧ ∃ r, tagged.pairFor .i32 ((3 : GReg) == 62) 0 (tagged.me.getG 3) r) ∧ 128 ≤ (pairing 128 tagged).home.ubuf.length ∧
    (tagged.plain [.g 3, .v 8, .v 9] = true ∧ ∃ lanes : List Nat, lanes = (List.range 32).filter (fun j => tagged.me.active none j) ∧ tagged.home.ubuf.length + lanes.length ≤ 128 ∧ 128 < (pairing 97 tagged).home.ubuf.length + lanes.length ∧
      ∃ r : Nat → Nat × Nat × Attr × Bool, ∀ j ∈ lanes, tagged.pairFor .i32 ((3 : GReg) == 62) j (tagged.me.getG 3 + (low 32 (BitVec.ofNat 64 (elemOf (tagged.me.getV 8) 4 j)) <<< (0 : BitVec 2).toNat)) (r j)) ∧
    (regs [(3, 64)]).home.ubuf.length < 128 ∧ (regs [(3, 64)]).inSpad ((regs [(3, 64)]).me.getG 3) 8 ∧ ((regs [(3, 64)]).me.getG 3).toNat % 8 = 0 ∧
    (regs [(3, 64)]).me.stackFits ((3 : GReg) == 62) ((regs [(3, 64)]).me.getG 3) 8 :=
  ⟨⟨by decide +kernel, by decide +kernel, _, pairFor_tagged 0⟩, by decide +kernel,
   ⟨by decide +kernel, List.range 32, by decide +kernel, by decide +kernel, by decide +kernel, fun _ => (0x300100, 0, .dir, false), fun j hj => by
      have h : ∀ j < 32, tagged.me.getG 3 + (low 32 (BitVec.ofNat 64 (elemOf (tagged.me.getV 8) 4 j)) <<< (0 : BitVec 2).toNat) = 0x50100 := by decide +kernel
      rw [h j (List.mem_range.mp hj)]; exact pairFor_tagged j⟩,
   by decide +kernel, inSpad_plain (by decide +kernel) (by decide +kernel) rfl rfl, by decide +kernel, fun h => absurd h (by decide)⟩
/-- A region's record at 0x60 of the scratchpad of a context at S: 0x50000, one page, I64 ADD. -/
def regioning (f : State → State) : State := f (at0 (fun c => (gs [(3, 0x60)] c).setStatus 4 2 1) (spad 0x60 16 (0x50000 + 2 ^ 64 + 2 ^ 96)))
/-- What UREG asks for. -/
abbrev uq : Req := { va := 0x60, n := 16, kind := 0, wr := false, align := 16, stk := false }
/-- Region 0 registered for ASID 0. -/
def owning (s : State) : State := { s with regions := [(0, ⟨0, 0x50000, 0x300000, 1, .i64, .add, false⟩)] }
/-- An LDNM of another context whose node, on the region's page, is not fetched. -/
def keeping (s : State) : State := s.modCluster 0 fun c => { c with yreq := [⟨(0, 0, 0x50040, 0), ⟨1, 0, 1, 1⟩, .phys 0x300040 .dir, 0⟩] }
theorem witness_RegionResult_ureg : (regs []).me.priv = 0 ∧ (1 ≤ (regioning id).me.priv ∧ (regioning id).plain [.g 3, .g 4] = true ∧
      ∃ ps s1 y s2, (regioning id).accepts { va := (regioning id).me.getG 3, n := 16, kind := 0, wr := false, align := 16, stk := (3 : GReg) == 62 } ps s1 ∧ s1.mayLoad ps ∧
        s1.loadPlaces (regioning id).act ps = ((y, false), s2) ∧ (regioning id).me.stackBad 4 (BitVec.ofInt 64 (s2.ureg (regioning id).act (regioning id).me.asid y).1) = false) ∧
    ((regs []).ureg 0 0 (0x50000 + 2 ^ 64 + 2 ^ 96)).1 = 0 ∧ ((regs []).ureg 0 0 (0x50001 + 2 ^ 64 + 2 ^ 96)).1 < 0 ∧
    (regs []).keepsPage ((regs []).covered 0 0x50000 4096) = false ∧ (keeping (regs [])).keepsPage ((keeping (regs [])).covered 0 0x50000 4096) = true :=
  ⟨by decide +kernel, ⟨by decide +kernel, by decide +kernel, (placesOf uq (regioning id)).1, (placesOf uq (regioning id)).2,
    ((placesOf uq (regioning id)).2.loadPlaces 0 (placesOf uq (regioning id)).1).1.1, ((placesOf uq (regioning id)).2.loadPlaces 0 (placesOf uq (regioning id)).1).2,
    passes_accepts (q := uq) (by decide +kernel), mayLoad_of (by decide +kernel), Prod.ext (Prod.ext rfl (by decide +kernel)) rfl, by decide +kernel⟩, by decide +kernel⟩
theorem witness_RegionResult_walks : uregPages (0x50000 + 2 ^ 64 + 2 ^ 96) = 1 ∧ (regs []).unwalked 0 1 0x50000 = none ∧ (regs []).unwalked 0 1 0x60000 = some 0x60000 := by decide +kernel
theorem witness_RegionResult_release : 1 ≤ (regioning owning).me.priv ∧ (regioning owning).plain [.g 3, .g 4] = true ∧ (regioning owning).me.stackBad 4 0 = false ∧ (regioning owning).me.stackBad 4 (BitVec.allOnes 64) = false ∧
    (regioning id).ownRegion 0 (regioning id).me.asid = none ∧ (regioning owning).ownRegion 0 (regioning owning).me.asid = some ⟨0, 0x50000, 0x300000, 1, .i64, .add, false⟩ ∧
    ((regioning owning).startRelease 0 ⟨0, 0x50000, 0x300000, 1, .i64, .add, false⟩).regionBusy 0 = false ∧
    ((regioning fun s => pairing 1 (owning s)).startRelease 0 ⟨0, 0x50000, 0x300000, 1, .i64, .add, false⟩).regionBusy 0 = true := by decide +kernel
theorem witness_RegionResult_wait : (regs []).home.partialsOf (regs []).actx.val = [] ∧ (regs []).pairsOut (regs []).act (regs []).actx.val = false ∧
    (pairing 1 (regs [])).home.partialsOf (pairing 1 (regs [])).actx.val = [] ∧ (pairing 1 (regs [])).pairsOut (pairing 1 (regs [])).act (pairing 1 (regs [])).actx.val = true := by decide +kernel
/-- A group descriptor at local 0x40: rows of 16 bytes at 0x400 for 4 members, its completion word at 0x50100. -/
def desc : Nat := 0x400 + 16 * 2 ^ 64 + 4 * 2 ^ 80 + 0x50100 * 2 ^ 128
/-- g3 names it; the page of the completion word is FUT. -/
def grouping (f : Ctx → Ctx) : State := at0 (fun c => f (gs [(3, 0x40)] c)) fun c => page 0x9F (spad 0x40 32 desc c)
/-- A context bound to it that holds members 0 and 2. -/
def bound : State := grouping fun c => ({ c with qgd := BitVec.ofNat 64 (aperBase + 0x40), qbase := BitVec.ofNat 64 (aperBase + 0x400), qcount := 4, qstride := 16 } : Ctx).putM (.m 0) 5
/-- The completion word's place, with the state that finding it leaves. -/
def complAt (s : State) : Except Trap Nat × State := s.complPlace s.act s.me.asid s.me.priv 0x50100
theorem witness_GroupResult :
    ((grouping id).me.ldnm = false ∧ (grouping id).plain [.g 3] = true ∧ (grouping id).inSpad ((grouping id).me.getG 3) 32 ∧ ((grouping id).me.getG 3).toNat % 32 = 0 ∧ (grouping id).me.stackFits ((3 : GReg) == 62) ((grouping id).me.getG 3) 32 ∧
      groupOf (grouping id).act ((grouping id).spadRead ((grouping id).me.getG 3) 32) = some (aperBase + 0x400, 4, 16) ∧ (grouping id).me.qgd = 0 ∧
      (grouping id).complPlace (grouping id).act (grouping id).me.asid (grouping id).me.priv (w64 (bits ((grouping id).spadRead ((grouping id).me.getG 3) 32) 128 64)) = (.ok 0x300100, (complAt (grouping id)).2)) ∧
    (bound.me.qgd ≠ 0 ∧ groupOf bound.act (bound.spadRead (bound.me.getG 3) 32) = some (aperBase + 0x400, 4, 16) ∧ ∃ s0 s1, bound.complCheck bound.act bound.me.asid bound.me.priv bound.me.qgd = (none, s0) ∧
      s0.complPlace bound.act bound.me.asid bound.me.priv (w64 (bits (bound.spadRead (bound.me.getG 3) 32) 128 64)) = (.ok 0x300100, s1) ∧ s1.pairsOut bound.act bound.actx.val = false ∧
      s1.mustWait bound.act bound.actx.val 0x300100 = false) ∧ (complAt (grouping id)).2.mustWait 0 0 0x300100 = false ∧
    groupOf (regs [(3, 0x40)]).act ((regs [(3, 0x40)]).spadRead ((regs [(3, 0x40)]).me.getG 3) 32) = none ∧
    ((paged 0x1F).me.ldnm = false ∧ (paged 0x1F).plain [.g 3, .v 8] = true ∧ ∃ node ps s1, (paged 0x1F).accepts { va := (paged 0x1F).me.getG 3, n := 64, kind := 0, wr := false, align := 64, stk := (3 : GReg) == 62 } (node :: ps) s1 ∧
      s1.mayLoad (node :: ps)) := by
  refine ⟨⟨by decide +kernel, by decide +kernel, inSpad_plain (by decide +kernel) (by decide +kernel) rfl rfl, by decide +kernel, fun h => absurd h (by decide), by decide +kernel, by decide +kernel, ?_⟩,
    ⟨by decide +kernel, by decide +kernel, (bound.complCheck bound.act bound.me.asid bound.me.priv bound.me.qgd).2, _, Prod.ext (by decide +kernel) rfl, okIs_pair (by decide +kernel), by decide +kernel, by decide +kernel⟩, by decide +kernel,
    by decide +kernel, by decide +kernel, by decide +kernel, .phys 0x300100 .dir, (List.range 63).map fun i => .phys (0x300101 + i) .dir, (placesOf { va := 0x50100, n := 64, kind := 0, wr := false, align := 64, stk := false } (paged 0x1F)).2, ?_, ?_⟩
  · rw [show w64 (bits ((grouping id).spadRead ((grouping id).me.getG 3) 32) 128 64) = 0x50100 from by decide +kernel]
    exact okIs_pair (x := complAt (grouping id)) (by decide +kernel)
  · have h := passes_accepts (q := { va := 0x50100, n := 64, kind := 0, wr := false, align := 64, stk := false }) (s := paged 0x1F) (by decide +kernel)
    rw [show (placesOf { va := 0x50100, n := 64, kind := 0, wr := false, align := 64, stk := false } (paged 0x1F)).1 = .phys 0x300100 .dir :: (List.range 63).map fun i => .phys (0x300101 + i) .dir from by decide +kernel] at h
    exact h
  · exact mayLoad_of (by decide +kernel)
theorem rowLayout_bound : rowLayout bound = .ok ((bound.me.qbase.toNat, bound.me.qstride), bound) := rfl
theorem chosen_bound : bound.chosen = [0, 2] := by decide +kernel
theorem wins_bound : (List.finRange 8).all (fun i => (bound.home.wins[i]).isNone) = true := by decide +kernel
theorem rows_bound (ty : QType) (h : ty.bytes ≤ 4 ∧ 8 % ty.bytes = 0) (off : Nat) (ho : off = 8) : bound.rowsReady ty off [0, 2] := by
  subst ho
  refine ⟨by decide +kernel, by decide +kernel, rowLayout_bound, by decide +kernel, by decide +kernel, ?_, ?_⟩
  · rw [show bound.me.qstride = 16 by decide +kernel]; omega
  · intro i hi
    have hb : (bound.fieldAt 8 0).toNat = 0x408 ∧ (bound.fieldAt 8 2).toNat = 0x428 := by decide +kernel
    have hs : ∀ i ∈ [0, 2], (bound.me.qbase.toNat - aperBase) % 0x20000 + (i + 1) * bound.me.qstride ≤ 0x20000 := by decide +kernel
    refine ⟨hs i hi, ?_, ?_⟩
    · refine inSpad_plain ?_ wins_bound rfl rfl
      simp only [List.mem_cons, List.not_mem_nil, or_false] at hi
      rcases hi with rfl | rfl
      · rw [hb.1]; omega
      · rw [hb.2]; omega
    · have hz : ∀ n : Nat, n ≤ 4 → 8 % n = 0 → 0x408 % n = 0 ∧ 0x428 % n = 0 := by decide
      simp only [List.mem_cons, List.not_mem_nil, or_false] at hi
      rcases hi with rfl | rfl
      · rw [hb.1]; exact (hz _ h.1 h.2).1
      · rw [hb.2]; exact (hz _ h.1 h.2).2
theorem witness_RowReads : bound.plain [.g 3] = true ∧ bound.rowsReady .i32 (8 : BitVec 12).toNat bound.chosen ∧ bound.plain [.g 5] = true ∧ bound.me.stackBad 5 (bound.fieldOf .i32 8 0) = false ∧
    (∃ s : State, s.plain [.g 4, .v 9] = true ∧ (s.me.getG 4).toNat < 256 ∧ s.rowsReady .i8 (s.me.getG 4).toNat (s.chosen.filter fun i => i / 32 == (1 : BitVec 3).toNat)) ∧
    (regs []).me.ldnm = false ∧ (regs []).me.qgd = 0 ∧ (regs []).plain [.g 3] = true ∧ (regs []).plain [.g 5] = true :=
  ⟨by decide +kernel, by rw [chosen_bound]; exact rows_bound .i32 (by decide) _ (by decide), by decide +kernel, by decide +kernel,
   ⟨bound, by decide +kernel, by decide +kernel, by
     rw [chosen_bound]
     exact ⟨by decide +kernel, by decide +kernel, rowLayout_bound, by decide +kernel, by decide +kernel, by decide +kernel, fun i hi => absurd hi (by revert i; decide)⟩⟩,
   by decide +kernel, by decide +kernel, by decide +kernel, by decide +kernel⟩
theorem witness_RowWrites : bound.plain [.g 3] = true ∧ bound.rowsReady .i32 (8 : BitVec 12).toNat bound.chosen ∧ bound.rowsReady .f32 (8 : BitVec 12).toNat bound.chosen ∧
    (bound.plain [.g 4, .v 9] = true ∧ (bound.me.getG 4).toNat < 256) :=
  ⟨by decide +kernel, by rw [chosen_bound]; exact rows_bound .i32 (by decide) _ (by decide), by rw [chosen_bound]; exact rows_bound .f32 (by decide) _ (by decide), by decide +kernel⟩
/-- An array descriptor: 4 elements of 4 bytes from 0x200 on, 4 bytes apart. -/
def arrayDesc : Nat := 0x200 + (4 + 4 * 2 ^ 32) * 2 ^ 64 + 2 ^ 128 + 2 * 2 ^ 192
/-- Slot i of the issuing context. -/
def slot (i : Fin 8) (sl : Slot) (c : Ctx) : Ctx := { c with slots := c.slots.set i sl }
/-- An array stream on g32 + idx, with elements buffered; a fibre without values. -/
def arr (out : Bool) (idx : BitVec 4) (left : Nat) (buf : List Elem) : Slot := ⟨true, out, false, idx, false, 0x200, w64 (left + 4 * 2 ^ 32), 1, 2, buf⟩
def fib (out : Bool) (idx : BitVec 4) (xs : List Nat) (left : Nat) : Slot := ⟨true, out, false, idx, true, 0x300, 0, w64 left, 0, xs.map fun x => ⟨0x300, 4, x, none, 0, []⟩⟩
/-- A descriptor at 0x60 that g3 names. -/
def opening (d : Nat) (f : Ctx → Ctx) : State := at0 (fun c => f (gs [(3, 0x60)] c)) (spad 0x60 32 d)
/-- All eight slots in use. -/
def crowd (c : Ctx) : Ctx := { c with slots := Vector.replicate 8 (arr false 15 1 []) }
theorem witness_SopenResult :
    (∀ d f, (d, f) ∈ [(arrayDesc, (id : Ctx → Ctx)), (arrayDesc + 2 ^ 200, id), (arrayDesc + 1, id), (arrayDesc, crowd)] → (opening d f).plain [.g 3] = true ∧ (opening d f).me.slotOf (sref 8) = none ∧
      (opening d f).empty ⟨sref 8, 7, false⟩ = false ∧ (opening d f).inSpad ((opening d f).me.getG 3) 32 ∧ ((opening d f).me.getG 3).toNat % 32 = 0 ∧ (opening d f).me.stackFits ((3 : GReg) == 62) ((opening d f).me.getG 3) 32) ∧
    slotFor (sref 8) false false ((opening (arrayDesc + 2 ^ 200) id).spadRead ((opening (arrayDesc + 2 ^ 200) id).me.getG 3) 32) = none ∧
    (∃ sl, slotFor (sref 8) false false ((opening (arrayDesc + 1) id).spadRead ((opening (arrayDesc + 1) id).me.getG 3) 32) = some sl ∧ sl.aligned = false) ∧
    (∃ sl, slotFor (sref 8) false false ((opening arrayDesc id).spadRead ((opening arrayDesc id).me.getG 3) 32) = some sl ∧ sl.aligned = true ∧ ((opening arrayDesc id).me.leaves (sref 8)).freeSlot = some 0) ∧
    ((opening arrayDesc crowd).me.leaves (sref 8)).freeSlot = none ∧
    ((regs []).plain [.g 5] = true ∧ (regs []).me.stackBad 5 1 = false ∧ (regs []).me.slotOf (sref 8) = none ∧ (regs []).me.stackBad 5 0 = false) ∧
    (∃ s : State, s.plain [.g 5] = true ∧ s.me.slotOf (sref 8) = some 0 ∧ s.me.slots[(0 : Fin 8)].left ≠ 0 ∧ s.me.slots[(0 : Fin 8)].isEmpty = false ∧ s.unlocked s.me.slots[(0 : Fin 8)] ∧ s.me.stackBad 5 s.me.slots[(0 : Fin 8)].readG = false) ∧
    ∃ s : State, s.plain [.g 5] = true ∧ s.me.slotOf (sref 8) = some 0 ∧ s.me.slots[(0 : Fin 8)].left = 0 :=
  ⟨fun d f h => by
      simp only [List.mem_cons, List.not_mem_nil, or_false, Prod.mk.injEq] at h
      rcases h with ⟨rfl, rfl⟩ | ⟨rfl, rfl⟩ | ⟨rfl, rfl⟩ | ⟨rfl, rfl⟩ <;>
        exact ⟨by decide +kernel, by decide +kernel, by decide +kernel, inSpad_plain (by decide +kernel) (by decide +kernel) rfl rfl, by decide +kernel, fun h => absurd h (by decide)⟩,
   by decide +kernel, ⟨_, rfl, by decide +kernel⟩, ⟨_, rfl, by decide +kernel, by decide +kernel⟩, by decide +kernel, by decide +kernel,
   ⟨at0 (slot 0 (arr false 8 4 [⟨0x200, 4, 7, none, 0, []⟩])) id, by decide +kernel, by decide +kernel, by decide +kernel, by decide +kernel, unlocked_of rfl, by decide +kernel⟩,
   ⟨at0 (slot 0 (arr false 8 0 [])) id, by decide +kernel⟩⟩
/-- g40 an input array with one element buffered of four; g40 an exhausted output; g40 an output at 0x200; g40 a whole input fibre of 3, 5. -/
def inArr : State := at0 (slot 0 (arr false 8 4 [⟨0x200, 4, 7, none, 0, []⟩])) id
def outEnd : State := at0 (slot 0 (arr true 8 0 [])) id
def outArr : State := at0 (slot 0 (arr true 8 4 [])) id
def inFib : State := at0 (slot 0 (fib false 8 [3, 5] 2)) id
theorem witness_StreamAdvance : (regs []).plain [.g 3] = true ∧ (regs []).me.slotOf (sref 8) = none ∧ (inArr.plain [.g 3] = true ∧ inArr.me.slotOf (sref 8) = some 0 ∧ inArr.me.slots[(0 : Fin 8)].fibre = false) ∧
    (inFib.plain [.g 3] = true ∧ inFib.me.slotOf (sref 8) = some 0 ∧ inFib.me.slots[(0 : Fin 8)].inFibre = true ∧ (∃ e, inFib.me.slots[(0 : Fin 8)].nextIs e 3) ∧ inFib.unlocked inFib.me.slots[(0 : Fin 8)]) ∧
    (∃ s : State, s.me.slots[(0 : Fin 8)].inFibre = true ∧ s.me.slots[(0 : Fin 8)].left = 0) ∧
    (inArr.me.slotG 40 = some 0 ∧ inArr.plain [.g 5] = true ∧ inArr.me.slots[(0 : Fin 8)].out = false ∧ inArr.me.slots[(0 : Fin 8)].isEmpty = false ∧ 0 < inArr.me.slots[(0 : Fin 8)].left ∧
      inArr.unlocked inArr.me.slots[(0 : Fin 8)] ∧ inArr.me.stackBad 5 (-inArr.me.slots[(0 : Fin 8)].readG) = false) ∧
    (Scalar1 .neg (fun x => -x) ∧ outEnd.me.slotG 40 = some 0 ∧ outEnd.plain [.g 3] = true ∧ outEnd.me.slots[(0 : Fin 8)].out = true ∧ outEnd.me.slots[(0 : Fin 8)].left = 0) ∧
    (outArr.me.slotG 40 = some 0 ∧ outArr.plain [.g 3] = true ∧ outArr.me.slots[(0 : Fin 8)].out = true ∧ outArr.me.slots[(0 : Fin 8)].fibre = false ∧ 0 < outArr.me.slots[(0 : Fin 8)].left ∧
      outArr.inSpad outArr.me.slots[(0 : Fin 8)].addr outArr.me.slots[(0 : Fin 8)].esize ∧ outArr.me.ldnm = false) := by
  refine ⟨by decide +kernel, by decide +kernel, by decide +kernel, ⟨by decide +kernel, by decide +kernel, by decide +kernel, ⟨_, by decide +kernel, rfl, by decide +kernel⟩, unlocked_of rfl⟩,
    ⟨at0 (slot 0 (fib false 8 [] 0)) id, by decide +kernel⟩, ?_, ⟨.neg, by decide +kernel⟩, ?_⟩
  · exact ⟨by decide +kernel, by decide +kernel, by decide +kernel, by decide +kernel, by decide +kernel, unlocked_of rfl, by decide +kernel⟩
  · exact ⟨by decide +kernel, by decide +kernel, by decide +kernel, by decide +kernel, by decide +kernel, inSpad_plain (by decide +kernel) (by decide +kernel) rfl rfl, by decide +kernel⟩
/-- SADVTO with its key to be read, or read before: the coordinate 3 is below 4 and not below 3; one element is left, or the next is the key. -/
theorem witness_StreamAdvance_keys : (∀ y, inFib.me.prog ≠ .key y) ∧ (asked (.key 4) inFib).me.prog = .key 4 ∧ (3 : Nat) ≤ 3 ∧ (3 : Nat) < 4 ∧ (asked (.key 4) inFib).me.slots[(0 : Fin 8)].inFibre = true ∧
    (inFib.popped1 0).me.slots[(0 : Fin 8)].left = 1 ∧ ((inFib.popped1 0).me.slots[(0 : Fin 8)].buf.head?.any fun f => decide (4 ≤ f.x % 2 ^ 32)) = true :=
  ⟨fun y h => Progress.noConfusion h, by decide +kernel⟩
/-- Fibres on g40 and g41, an output fibre on g42. -/
def fibres (a b : List Nat) (n : Nat) : State := at0 (fun c => slot 2 (fib true 10 [] n) (slot 1 (fib false 9 b b.length) (slot 0 (fib false 8 a a.length) c))) id
/-- The next elements of g40 and g41, with coordinates x and y. -/
def heads (s : State) (x y : Nat) : Prop := ∃ e f, s.me.slots[(0 : Fin 8)].nextIs e x ∧ s.me.slots[(1 : Fin 8)].nextIs f y
theorem witness_SisectSmerge_slots : ∀ s ∈ [fibres [3] [5] 4, fibres [5] [3] 4, fibres [5] [5] 4, fibres [] [5] 4, fibres [3] [] 4, fibres [3] [5] 0], s.plain [.g 5] = true ∧ s.me.slotG 40 = some 0 ∧ s.me.slotG 41 = some 1 ∧
    s.me.slots[(0 : Fin 8)].inFibre = true ∧ s.me.slots[(1 : Fin 8)].inFibre = true ∧ s.me.slotG 42 = some 2 ∧ s.me.slots[(2 : Fin 8)].out = true ∧ s.me.slots[(2 : Fin 8)].fibre = true := by decide +kernel
theorem witness_SisectSmerge_next : heads (fibres [3] [5] 4) 3 5 ∧ heads (fibres [5] [3] 4) 5 3 ∧ heads (fibres [5] [5] 4) 5 5 := by
  refine ⟨⟨_, _, ⟨?_, rfl, ?_⟩, ?_, rfl, ?_⟩, ⟨_, _, ⟨?_, rfl, ?_⟩, ?_, rfl, ?_⟩, _, _, ⟨?_, rfl, ?_⟩, ?_, rfl, ?_⟩ <;> decide +kernel
theorem witness_SisectSmerge_takes : (∀ s ∈ [fibres [3] [5] 4, fibres [5] [5] 4], s.takes 2 4 ∧ s.unlocked s.me.slots[(0 : Fin 8)] ∧ s.unlocked s.me.slots[(1 : Fin 8)] ∧ s.me.slots[(2 : Fin 8)].left ≠ 0 ∧
      s.me.stackBad 5 (s.me.getG 5 + 1) = false) ∧ (fibres [3] [5] 0).takes 2 4 ∧
    ((fibres [] [5] 4).me.slots[(0 : Fin 8)].left = 0 ∧ (fibres [3] [] 4).me.slots[(1 : Fin 8)].left = 0) := by
  refine ⟨fun s h => ?_, ⟨by decide +kernel, .inl (by decide +kernel)⟩, by decide +kernel⟩
  simp only [List.mem_cons, List.not_mem_nil, or_false] at h
  rcases h with rfl | rfl <;> exact ⟨⟨by decide +kernel, .inr ⟨by decide +kernel, by decide +kernel, inSpad_plain (by decide +kernel) (by decide +kernel) rfl rfl⟩⟩, unlocked_of rfl, unlocked_of rfl, by decide +kernel, by decide +kernel⟩
/-- Both sources one fibre, with two elements buffered, with the last one, and with too few. -/
theorem witness_SisectSmerge_one : (∀ b ∈ [[3, 5], [3]], min 2 (fibres b [] 4).me.slots[(0 : Fin 8)].left ≤ (fibres b [] 4).me.slots[(0 : Fin 8)].buf.length ∧ (fibres b [] 4).me.slots[(0 : Fin 8)].left ≠ 0) ∧
    ∃ s : State, ¬ min 2 s.me.slots[(0 : Fin 8)].left ≤ s.me.slots[(0 : Fin 8)].buf.length := ⟨by decide +kernel, at0 (slot 0 (fib false 8 [3] 2)) id, by decide +kernel⟩
theorem witness_VectorLanes : VecOp2 .vadd false (fun ty md x y _ => byType ty (fun w => (x + y) % 2 ^ w) fun F => fAdd F md x y) ∧ (Instr.vadd 1 ⟨2, false⟩ ⟨3, false⟩ .i8 none).wf = true ∧ (regs []).plain [.v 2, .v 3, .v 1] = true ∧
    VecOp1 .vrcp (fun _ md x => fRcp md.ftz x) ∧ (Instr.vrcp 1 ⟨2, false⟩ .f32 (some 1)).wf = true ∧ (regs []).plain [.v 2, .v 1] = true := ⟨.vadd, by decide +kernel, by decide +kernel, .vrcp, by decide +kernel, by decide +kernel⟩
theorem witness_VectorMoves : (regs []).plain [.v 2, .v 3, .g 4, .g 5, .v 1] = true := by decide +kernel
theorem witness_VectorToScalar : (regs []).plain [.v 2, .v 3] = true ∧ (regs []).plain [.g 7, .g 0] = true ∧ (regs []).me.stackBad 7 0 = false ∧ (regs []).masksFree [.p 1] ∧
    RedInt .vredadd (fun ty l => BitVec.ofInt 64 (l.map (vInt ty)).sum) ∧ VType.n16.isInt = true ∧ VType.f16.ff = some .f16 ∧ (regs []).plain [.v 2, .g 7] = true :=
  ⟨by decide +kernel, by decide +kernel, by decide +kernel, .inl (by decide +kernel), .vredadd, by decide, rfl, by decide +kernel⟩
theorem witness_VectorConvertScanSort : (regs []).plain [.v 2, .v 3, .v 1] = true ∧ (VType.i8.width ≤ VType.f32.width ∧ (3 : BitVec 2).toNat < VType.f32.width / VType.i8.width) ∧
    (VType.f16.width < VType.f32.width ∧ (1 : BitVec 2).toNat < VType.f32.width / VType.f16.width) ∧ VType.i8.isDot = true := by decide +kernel
theorem witness_BlockCodes : (regs []).plain [.v 2, .g 4, .g 5, .v 1] = true ∧ (regs []).me.stackBad 5 (BitVec.ofNat 64 14) = false ∧ ((regs [(4, 5)]).me.getG 4).toNat < 6 ∧ 14 < ((regs [(4, 15)]).me.getG 4).toNat ∧
    (6 ≤ ((regs [(4, 6)]).me.getG 4).toNat ∧ ((regs [(4, 14)]).me.getG 4).toNat ≤ 14) ∧
    (match bcDecode 1 14 with | .ok _ => false | .allNan => false | .bad => true) = true ∧ (match bcDecode 0xFF00 14 with | .ok _ => false | .allNan => true | .bad => false) = true ∧
    (match bcDecode (bcEncode (List.replicate 32 0x3F800000)).1 (bcEncode (List.replicate 32 0x3F800000)).2.1 with | .ok _ => true | .allNan => false | .bad => false) = true := by decide +kernel
/-- A format block at 0x400 that g3 names, of given first doubleword; CFGV as given. -/
def mx (f0 : Nat) (cfg : Bool) (g : List (GReg × Word)) : State := at0 (gs ((3, 0x400) :: g)) fun c => { spad 0x400 8 f0 c with cfgv := cfg }
/-- The pages of an MXU operation that lie on the one at 0x50000. -/
def onPage : MxMap := ⟨[(0x50, 0x300, .dir)], []⟩
theorem pagesFree_of {s : State} {ps : MxMap} (h : (ps.pas.all fun pa => !s.mustWait s.act s.actx.val pa) = true) : s.pagesFree ps :=
  fun pa hp => by simpa using List.all_eq_true.mp h pa hp
theorem witness_MxuIssue_config :
    (mx 0 true []).plain [.g 3] = true ∧ (mx 0 true []).inSpad ((mx 0 true []).me.getG 3) 64 ∧ ((mx 0 true []).me.getG 3).toNat % 64 = 0 ∧ fmtOk (recordOf ((mx 0 true []).spadRead ((mx 0 true []).me.getG 3) 64)) = true ∧
      fmtOk (recordOf ((mx 5 true []).spadRead ((mx 5 true []).me.getG 3) 64)) = false :=
  ⟨by decide +kernel, inSpad_plain (by decide +kernel) (by decide +kernel) rfl rfl, by decide +kernel⟩
/-- What checks give, the state that they leave, whether they fail, and whether they wait for a walk. -/
def xIs {α : Type} [DecidableEq α] (a : α) : Except Stop (Except Failed α × State) → Bool
  | .ok (.ok b, _) => b == a
  | _ => false
def xState {α : Type} (s : State) : Except Stop (Except Failed α × State) → State
  | .ok (_, t) => t
  | _ => s
def xFails {α : Type} : Except Stop (Except Failed α × State) → Bool
  | .ok (.error _, _) => true
  | _ => false
def xWalks {α : Type} : Except Stop (Except Failed α × State) → Bool
  | .error (.waitFor _ _ _) => true
  | _ => false
theorem xIs_eq {α : Type} [DecidableEq α] {a : α} {s : State} {x : Except Stop (Except Failed α × State)} (h : xIs a x = true) : x = .ok (.ok a, xState s x) := by
  unfold xIs at h
  split at h
  · next b t => rw [eq_of_beq h]; rfl
  · exact Bool.noConfusion h
theorem xFails_spec {α : Type} {x : Except Stop (Except Failed α × State)} (h : xFails x = true) : ∃ e s1, x = .ok (.error e, s1) := by
  unfold xFails at h
  split at h
  · next e s1 => exact ⟨e, s1, rfl⟩
  · exact Bool.noConfusion h
theorem xWalks_spec {α : Type} {x : Except Stop (Except Failed α × State)} (h : xWalks x = true) : ∃ j n va, x = .error (.waitFor j n va) := by
  unfold xWalks at h
  split at h
  · next j n va => exact ⟨j, n, va, rfl⟩
  · exact Bool.noConfusion h
/-- MXMM of blocks at 0x50000, of one that is misaligned, and of one whose page the core does not hold. -/
def mmOf (a : Word) : State := mx 0 true [(4, a), (5, 0x50000)]
/-- MXMMS of a block of integers at an address, of which one lies beyond 2^48. -/
def mmsOf (a : Word) : State := at0 (gs [(5, a)]) fun c => { c with cfgv := true, fmt := c.fmt.set 0 0x11 }
theorem witness_MxuIssue_multiply :
    ((mmOf 0x50000).plain [.g 4, .g 5, .z 1] = true ∧ ((mx 0 false []).home.now (mx 0 false []).time).cfgv = false ∧ ((mmOf 0x50000).home.now (mmOf 0x50000).time).cfgv = true) ∧
    (∃ s1, (mmOf 0x50000).operands (some 4) 5 1 = .ok (.ok (onPage, [], []), s1) ∧ s1.pagesFree onPage) ∧ (∃ e s1, (mmOf 0x50001).operands (some 4) 5 1 = .ok (.error e, s1)) ∧
    (∃ j n va, (mmOf 0x60000).operands (some 4) 5 1 = .error (.waitFor j n va)) ∧
    ((mx 0 true []).plain [.v 4, .v 5, .v 6, .g 7, .z 0] = true ∧ aFmt ((mx 0 true []).home.now (mx 0 true []).time).fmt = 0 ∧ badMeta 0 ≠ none ∧ badMeta (BitVec.ofNat 1024 (List.foldl (fun n _ => n * 4096 + 0o3210) 0 (List.range 64))) = none) ∧
    (∀ s : State, s = mmsOf 0x50000 ∨ s = mmsOf 0x1000000000000 ∨ s = mmsOf 0x60000 → (s.home.now s.time).cfgv = true ∧ aFmt (s.home.now s.time).fmt ≠ 0 ∧ aFmt (s.home.now s.time).fmt ≠ 3) ∧
    (∃ s1, (mmsOf 0x50000).operands none 5 1 = .ok (.ok (onPage, [], []), s1) ∧ s1.pagesFree onPage) ∧ (∃ e s1, (mmsOf 0x1000000000000).operands none 5 1 = .ok (.error e, s1)) ∧
    ∃ j n va, (mmsOf 0x60000).operands none 5 1 = .error (.waitFor j n va) :=
  ⟨by decide +kernel, ⟨_, xIs_eq (s := mmOf 0x50000) (by decide +kernel), pagesFree_of (by decide +kernel)⟩, xFails_spec (by decide +kernel), xWalks_spec (by decide +kernel), by decide +kernel,
   fun s h => by rcases h with rfl | rfl | rfl <;> decide +kernel, ⟨_, xIs_eq (s := mmsOf 0x50000) (by decide +kernel), pagesFree_of (by decide +kernel)⟩, xFails_spec (by decide +kernel), xWalks_spec (by decide +kernel)⟩
/-- Rows from an address on, all at one place: on the page that is held, misaligned, and on a page that is not. -/
def rowsOn (a : Word) : State := mx 0 true [(4, a), (5, 0)]
theorem witness_MxuIssue_rows :
    (rowsOn 0x50000).plain [.g 4, .g 5, .z 1] = true ∧ (∀ wr, (∃ s1, (rowsOn 0x50000).tileRows 4 0 4 wr = .ok (.ok onPage, s1) ∧ s1.pagesFree onPage) ∧ (∃ e s1, (rowsOn 0x50002).tileRows 4 0 4 wr = .ok (.error e, s1)) ∧
      ∃ j n va, (rowsOn 0x60000).tileRows 4 0 4 wr = .error (.waitFor j n va)) ∧ (∃ s : State, s.home.tiles[(1 : Fin 4)].full = false) ∧
    (storeTypeOk (accInt ((rowsOn 0).home.now 0).fmt) .i8 = false ∧ storeTypeOk (accInt ((rowsOn 0).home.now 0).fmt) .f32 = true) ∧ (rowsOn 0).me.ldnm = false ∧ fetching.me.ldnm = true :=
  ⟨by decide +kernel, fun wr => by
    cases wr <;> exact ⟨⟨_, xIs_eq (s := rowsOn 0x50000) (by decide +kernel), pagesFree_of (by decide +kernel)⟩, xFails_spec (by decide +kernel), xWalks_spec (by decide +kernel)⟩,
   ⟨at0 id fun c => { c with tiles := c.tiles.set 1 { c.tiles[1] with full := false } }, by decide +kernel⟩, by decide +kernel, by decide +kernel, by decide +kernel⟩
theorem witness_TileResult : (regs []).plain [.z 1, .g 4, .v 8] = true ∧ (regs []).plain [.v 8, .g 4, .z 1] = true ∧ (regs []).plain [.v 5, .v 2, .v 4] = true ∧
    ((regs [(3, 128)]).plain [.g 3] = true ∧ (regs [(3, 128)]).inSpad ((regs [(3, 128)]).me.getG 3) 128 ∧ ((regs [(3, 128)]).me.getG 3).toNat % 128 = 0) ∧
    (regs [(3, 128)]).pairsOut (regs [(3, 128)]).act (regs [(3, 128)]).actx.val = false ∧ (pairing 1 (regs [(3, 128)])).pairsOut (pairing 1 (regs [(3, 128)])).act (pairing 1 (regs [(3, 128)])).actx.val = true :=
  ⟨by decide +kernel, by decide +kernel, by decide +kernel, ⟨by decide +kernel, inSpad_plain (by decide +kernel) (by decide +kernel) rfl rfl, by decide +kernel⟩, by decide +kernel, by decide +kernel⟩
/-- g3 names an engine command's block at 0x1000, whose CTRL is given. -/
def engined (ctrl : Nat) : State := at0 (gs [(3, 0x1000)]) (spad 0x1038 8 ctrl)
/-- The CPY that it is, and the state in which its OFFS would be read. -/
def cmd0 (s : State) : Cmd := ⟨0, s.actx.val, s.me.asid, s.me.priv, recordOf (s.spadRead (s.me.getG 3) 64), .none, 5⟩
def prepared (s : State) : State := s.busyFor (s.latencyOf s.act 0 (s.spadPlaces (s.me.getG 3) 64))
theorem witness_EngineResult_command : EngineOp .cpy 0 ∧ (∀ s : State, s = engined 0 ∨ s = engined 0x800 ∨ s = busyTag .busy (engined 0) ∨ s = pairing 1 (engined 0) → s.plain [.g 3, .g 4] = true ∧ s.inSpad (s.me.getG 3) 64 ∧ (s.me.getG 3).toNat % 64 = 0 ∧
      s.me.stackFits ((3 : GReg) == 62) (s.me.getG 3) 64 ∧ s.me.stackBad 4 0 = false ∧ s.me.stackBad 4 1 = false ∧ s.me.stackBad 4 2 = false ∧ (prepared s).bagIndices none 0 (cmd0 s) = .ok (0, [])) ∧
    ((busyTag .busy (engined 0)).tag 0 (5 : BitVec 6).toNat).st ≠ .idle ∧ ((engined 0x800).tag 0 5).st = .idle ∧ (cmd0 (engined 0x800)).ok (logical 0) 0 = false ∧
    ((engined 0).tag 0 5).st = .idle ∧ (cmd0 (engined 0)).ok (logical 0) 0 = true ∧
    (engined 0).canStart 0 (engined 0).actx.val (cmd0 (engined 0)) ((cmd0 (engined 0)).srcExt 0) ((cmd0 (engined 0)).dstExt (logical 0)) = true ∧
    (pairing 1 (engined 0)).canStart 0 (pairing 1 (engined 0)).actx.val (cmd0 (engined 0)) ((cmd0 (engined 0)).srcExt 0) ((cmd0 (engined 0)).dstExt (logical 0)) = false :=
  ⟨.cpy, fun s h => by
    rcases h with rfl | rfl | rfl | rfl <;>
      exact ⟨by decide +kernel, inSpad_plain (by decide +kernel) (by decide +kernel) rfl rfl, by decide +kernel, fun h => absurd h (by decide), by decide +kernel, by decide +kernel, by decide +kernel, rfl⟩, by decide +kernel⟩
/-- An EMBAG of one bag whose OFFS, at 0x60000, wait for a walk; at 0x50000, for a slice under test; at 0x2000, and one that the core's scratchpad holds poisoned. -/
def bagOf (offs : Nat) (f : State → State) : State := f (at0 (gs [(3, 0x1000)]) (spad 0x1018 8 offs ∘ spad 0x1028 8 (2 ^ 32)))
def cmd4 (s : State) : Cmd := ⟨4, s.actx.val, s.me.asid, s.me.priv, recordOf (s.spadRead (s.me.getG 3) 64), .none, 5⟩
/-- What the number of indices is, or the code of what it waits for. -/
def bagSays (s : State) : Option (Nat ⊕ Nat) := match (prepared s).bagIndices none 0 (cmd4 s) with
  | .ok n => some (.inl n.1)
  | .error e => some (.inr e.1)
theorem witness_EngineResult_bags : EngineOp .embag 4 ∧ bagSays (bagOf 0x60000 id) = some (.inr 0) ∧ bagSays (bagOf 0x2000 id) = some (.inl 0) ∧ ((bagOf 0x60000 id).tag 0 5).st = .idle ∧
    bagSays (bagOf 0x50000 fun s => (s.modCore 0 fun c => { c with tlb := [⟨0, 0x50000, 4096, 0x300000, 0x11F, none⟩] }).modDie 0 fun y => { y with tests := (List.range 64).map fun i => (i, 50) }) = some (.inr 1) := by
  refine ⟨.embag, ?_⟩
  decide +kernel
theorem witness_EngineResult_tag : (regs []).plain [.g 4] = true ∧ (regs []).me.stackBad 4 0 = false ∧ (regs []).me.stackBad 4 1 = false ∧ (((busyTag .stopped (regs [])).tag 0 (5 : BitVec 6).toNat).st = .stopped ∧
    ((busyTag .busy (regs [])).tag 0 5).st = .busy ∧ ((busyTag .srcDone (regs [])).tag 0 5).st = .srcDone ∧ ((regs []).tag 0 5).st = .idle ∧ (regs []).me.stackBad 4 ((regs []).tag 0 5).word = false ∧ (regs []).me.priv = 0) ∧
    (1 ≤ (regsS []).me.priv ∧ ((regsS []).tag 0 5).st ≠ .stopped) ∧ ∃ c, 1 ≤ (busyTag .stopped (regsS [])).me.priv ∧ ((busyTag .stopped (regsS [])).tag 0 5).st = .stopped ∧ ((busyTag .stopped (regsS [])).tag 0 5).cmd = some c :=
  ⟨by decide +kernel, by decide +kernel, by decide +kernel, by decide +kernel, by decide +kernel, _, by decide +kernel, by decide +kernel, rfl⟩
/-- Channel 2 with arrivals of context 0, of which none has completed. -/
def arrived (n : Nat) (s : State) : State := s.modCore 0 fun c => { c with chans := c.chans.set 2 { c.chans[2] with arr := [(0, n)] } }
/-- The contexts of the list waiting or owning. -/
def mutexed (o : Option Nat) (ws : List Nat) (s : State) : State := s.modCore 0 fun c => { c with mtx := c.mtx.set 3 ⟨o, ws⟩ }
def semaphored (n : BitVec 16) (ws : List Nat) (s : State) : State := s.modCore 0 fun c => { c with sem := c.sem.set 3 ⟨n, ws⟩ }
def queueing (k : Nat) (es : List Word) (s : State) : State := s.modCore 0 fun c => { c with qs := c.qs.set 3 ⟨k, 0, 0, es⟩ }
theorem witness_BarrierResult_arrive :
    (2 ≤ (arrived 2 (regs [])).home.outstanding 2 0 ∧ fetching.me.ldnm = true ∧ (pairing 1 (regs [])).pairsOut 0 0 = true) ∧
    ((regs []).home.outstanding 2 0 < 2 ∧ (regs []).me.ldnm = false ∧ (regs []).pairsOut 0 0 = false ∧ (regs []).plain [.g 3] = true) ∧
    ((List.range 64).filter fun i => ((regs []).me.getG 3).getLsbD i && (regs []).home.tags[Fin.ofNat 64 i].st != .idle) = [] ∧
    ((List.range 64).filter fun i => ((busyTag .busy (regs [(3, 0x20)])).me.getG 3).getLsbD i && (busyTag .busy (regs [(3, 0x20)])).home.tags[Fin.ofNat 64 i].st != .idle) ≠ [] := by decide +kernel
theorem witness_BarrierResult_wait :
    ((regs []).home.outstanding 2 0 = 0 ∧ (arrived 1 (regs [])).home.outstanding 2 0 ≠ 0) ∧ ((regs []).plain [.g 3, .g 4] = true ∧ ((regs []).me.getG 3).toNat % 256 = 0 ∧ (regs []).me.stackBad 4 (BitVec.allOnes 64) = false) ∧
    (((arrived 1 (regs [(3, 4)])).me.getG 3).toNat % 256 ≠ 0 ∧ (arrived 1 (regs [(3, 4)])).nextComplete 4 = none) ∧
    (((regs [(3, 4)]).me.getG 3).toNat % 256 ≠ 0 ∧ (regs [(3, 4)]).nextComplete 4 = some 2 ∧ (regs [(3, 4)]).me.stackBad 4 (BitVec.ofNat 64 2) = false) := by decide +kernel
theorem witness_BarrierResult_domain : (regs []).me.priv = 0 ∧ (1 ≤ (regsS [(3, 0x1000)]).me.priv ∧ (regsS [(3, 0x1000)]).plain [.g 3] = true ∧ ((regsS [(3, 0x1000)]).me.getG 3).toNat % 32 = 0) ∧
    (regsS [(3, 0x1000)]).inSpad ((regsS [(3, 0x1000)]).me.getG 3) 32 ∧
    (domainOk (BitVec.ofNat 64 ((regsS [(3, 0x1000)]).spadRead 0x1000 8)) ((regsS [(3, 0x1000)]).spadRead 0x1008 24) = false ∧ domainOk 0 0x7FF = true) :=
  ⟨by decide +kernel, by decide +kernel, inSpad_plain (by decide +kernel) (by decide +kernel) rfl rfl, by decide +kernel⟩
theorem witness_SyncResult : (mutexed (some 0) [] (regs [])).home.mtx[(3 : Fin 8)].owner = some 0 ∧ ((mutexed none [0, 1] (regs [])).home.mtx[(3 : Fin 8)].owner = none ∧ (mutexed none [0, 1] (regs [])).home.mtx[(3 : Fin 8)].waiters.head? = some 0) ∧
    ((mutexed (some 1) [] (regs [])).home.mtx[(3 : Fin 8)].owner ≠ some 0 ∧ (mutexed (some 1) [] (regs [])).home.mtx[(3 : Fin 8)].owner ≠ none) ∧
    ((semaphored 1 [] (regs [])).home.sem[(3 : Fin 8)].count ≠ 0 ∧ (semaphored 1 [] (regs [])).home.sem[(3 : Fin 8)].waiters = []) ∧ (semaphored 0 [] (regs [])).home.sem[(3 : Fin 8)].count = 0 ∧
    ((semaphored 65534 [] (regs [])).home.sem[(3 : Fin 8)].count ≠ 65535 ∧ (semaphored 65535 [] (regs [])).home.sem[(3 : Fin 8)].count = 65535) ∧
    (regs []).plain [.g 4] = true ∧ (∀ p ∈ [((1 : Nat), (8 : Nat)), (1, 7), (2, 7), (2, 8)], (queueing p.1 (List.replicate p.2 0) (regs [])).home.qs[(3 : Fin 16)].kind = p.1 ∧ (queueing p.1 (List.replicate p.2 0) (regs [])).home.qs[(3 : Fin 16)].writer = 0 ∧
      (queueing p.1 (List.replicate p.2 0) (regs [])).home.qs[(3 : Fin 16)].ents.length = p.2) ∧ ((regs []).home.qs[(3 : Fin 16)].kind ≠ 1 ∧ (regs []).home.qs[(3 : Fin 16)].kind ≠ 2 ∧ (regs []).home.qs[(3 : Fin 16)].kind ≠ 3) ∧
    ((queueing 3 [] (regs [])).home.qs[(3 : Fin 16)].kind = 3 ∧ (queueing 3 [] (regs [])).home.qs[(3 : Fin 16)].reader = 0 ∧ (queueing 3 [] (regs [])).home.qs[(3 : Fin 16)].ents = []) ∧
    (queueing 1 [7, 8] (regs [])).home.qs[(3 : Fin 16)].ents = 7 :: [8] ∧ (queueing 1 [7, 8] (regs [])).me.stackBad 4 7 = false := by decide +kernel
/-- A SEND packet of n words open, to core 1 and queue 2. -/
def sendingTo (n : Nat) (s : State) : State := s.upd fun t => ({ t with send := List.replicate n 0, sendTo := (1, 2) } : Ctx).setStatus 11 1 1
/-- Queue 0 of cluster 0 accepts; g3 names a record of zeros at 0x1000. -/
def slicing (f : State → State) : State := f ((regs [(3, 0x1000)]).modCluster 0 fun c => { c with qs := c.qs.set 0 { c.qs[0] with en := true } })
/-- What SJOIN asks for. -/
abbrev jq : Req := { va := 0x50100, n := 8, kind := 2, wr := true, align := 128, stk := false, home := true }
theorem witness_SliceResult_send : ((regs []).plain [.g 3, .g 4] = true ∧ (regs []).me.sendopen = false ∧ (regs []).niBusy (regs []).act (regs []).actx = false) ∧
    (∃ s : State, s.me.sendopen = false ∧ s.niBusy s.act s.actx = true) ∧
    (∀ n ∈ [7, 1], (sendingTo n (regs [(3, 1 + 2 * 8192)])).me.sendopen = true ∧ (sendingTo n (regs [(3, 1 + 2 * 8192)])).me.priv = 0 ∧
      (sendingTo n (regs [(3, 1 + 2 * 8192)])).me.sendTo = (((regs [(3, 1 + 2 * 8192)]).me.getG 3).toNat % 8192, ((regs [(3, 1 + 2 * 8192)]).me.getG 3).toNat / 8192 % 16) ∧ (sendingTo n (regs [(3, 1 + 2 * 8192)])).me.send.length = n) ∧
    ((sendingTo 1 (regs [])).me.sendopen = true ∧ (sendingTo 1 (regs [])).me.sendTo ≠ (0, 0)) :=
  ⟨by decide +kernel, ⟨{ regs [] with packets := [(0, 1, 2, [7])] }, by decide +kernel⟩, by decide +kernel, by decide +kernel⟩
theorem witness_SliceResult_slice :
    ((slicing id).plain [.g 5] = true ∧ ((slicing id).me.getG 3).toNat % 64 = 0 ∧ (slicing id).me.ldnm = false ∧ (slicing id).pairsOut (slicing id).act (slicing id).actx.val = false ∧ (slicing id).me.stackBad 5 0 = false) ∧
    (slicing id).inSpad ((slicing id).me.getG 3) 64 ∧
    (((slicing id).siFlush 0).enqCode 0 0 (recordOf ((slicing id).spadRead 0x1000 64)) = 0 ∧ ((regs [(3, 0x1000)]).siFlush 0).enqCode 0 0 (recordOf ((regs [(3, 0x1000)]).spadRead 0x1000 64)) = 2) :=
  ⟨by decide +kernel, inSpad_plain (by decide +kernel) (by decide +kernel) rfl rfl, by decide +kernel⟩
/-- What SJOIN finds at its home. -/
def joined : Nat × State := ((placesOf jq (paged 0x1F)).2.siFlush 0).syncRead 0 (placesOf jq (paged 0x1F)).1 0x300100 8
theorem witness_SliceResult_join : ((paged 0x1F).plain [.g 5] = true ∧ (paged 0x1F).accepts jq (placesOf jq (paged 0x1F)).1 (placesOf jq (paged 0x1F)).2 ∧ (placesOf jq (paged 0x1F)).2.noPairs (placesOf jq (paged 0x1F)).1) ∧
    (homePa (placesOf jq (paged 0x1F)).1 = some 0x300100 ∧ (placesOf jq (paged 0x1F)).2.pairsOut 0 0 = false ∧ (paged 0x1F).me.ldnm = false ∧ joined.1 = 0 ∧ joined.2.anyPoisonFor 0 0x300100 8 = false) ∧
    ((regs [(3, 0x80)]).plain [.g 5] = true ∧ ((regs [(3, 0x80)]).me.getG 3).toNat % 128 = 0 ∧ (regs [(3, 0x80)]).me.stackBad 5 0 = false) ∧ (regs [(3, 0x80)]).inSpad ((regs [(3, 0x80)]).me.getG 3) 8 :=
  ⟨⟨by decide +kernel, passes_accepts (by decide +kernel), noPairs_of (by decide +kernel)⟩, by decide +kernel, by decide +kernel, inSpad_plain (by decide +kernel) (by decide +kernel) rfl rfl⟩
theorem witness_SliceResult_yields : (∃ s : State, s.actx ≠ 0) ∧ ((sendingTo 1 (regs [])).actx = 0 ∧ (sendingTo 1 (regs [])).me.sendopen = true) ∧ (regs []).actx = 0 ∧ (regs []).me.sendopen = false :=
  ⟨⟨{ regs [] with actx := 3 }, by decide +kernel⟩, by decide +kernel⟩
/-- The descriptor of worklist 1 of cluster 0, of an ASID, with HEAD and TAIL. -/
def listed (asid head tail : Nat) (s : State) : State := { s with mem := s.mem.writeN 32 32 (0x50000 + 4 * 2 ^ 64 + asid * 2 ^ 96 + head * 2 ^ 128 + tail * 2 ^ 160 + 2 ^ 192) }
theorem some_of {α β : Type} [DecidableEq α] {a : α} {x : Option α × β} (h : x.1 = some a) : x = (some a, x.2) := by rw [← h]
theorem witness_WorklistResult : (5 : GReg) ≠ 6 ∧ (∀ p ∈ [Progress.done, .wlapp, .wlappRefused 2 1, .wlquiet 0, .wlpop, .answer 0 7 (0, 1), .answer 1 0 (0, 1), .none], (asked p (regs [(3, 1)])).plain [.g 3, .g 4, .g 5, .g 6] = true ∧ (asked p (regs [(3, 1)])).me.prog = p ∧
      (asked p (regs [(3, 1)])).me.stackBad 5 7 = false ∧ (asked p (regs [(3, 1)])).me.stackBad 6 0 = false ∧ (asked p (regs [(3, 1)])).me.stackBad 6 (BitVec.ofNat 64 1) = false) ∧ (regs [(3, 1)]).afresh ∧ (regs [(3, 1)]).me.ldnm = false ∧ fetching.me.ldnm = true ∧
    ((regs [(3, 1)]).list 0 1).1 = none ∧ (∃ l s1, (listed 9 0 0 (regs [(3, 1)])).list 0 1 = (some l, s1) ∧ l.asid ≠ (listed 9 0 0 (regs [(3, 1)])).me.asid) ∧
    (∃ l s1, (listed 0 0 0 (regs [(3, 1)])).list 0 1 = (some l, s1) ∧ l.asid = (listed 0 0 0 (regs [(3, 1)])).me.asid ∧ l.tail - l.head = 0) ∧
    ∃ l s1 y s2, (listed 0 0 1 (regs [(3, 1)])).list 0 1 = (some l, s1) ∧ l.asid = (listed 0 0 1 (regs [(3, 1)])).me.asid ∧ l.tail - l.head ≠ 0 ∧ s1.pop 0 1 l = (y, s2) ∧ (listed 0 0 1 (regs [(3, 1)])).me.stackBad 5 (BitVec.ofNat 64 (y.getD 0)) = false :=
  ⟨by decide, by decide +kernel, rfl, by decide +kernel, by decide +kernel, by decide +kernel, ⟨⟨0x50000, 9, 4, 0, 0, 0, []⟩, _, some_of (by decide +kernel), by decide +kernel⟩,
   ⟨⟨0x50000, 0, 4, 0, 0, 0, []⟩, _, some_of (by decide +kernel), by decide +kernel⟩, ⟨0x50000, 0, 4, 0, 0, 1, []⟩, _, _, _, some_of (by decide +kernel), by decide +kernel, by decide +kernel, rfl, by decide +kernel⟩
/-- TVEC of core 0 set. -/
def vectored (s : State) : State := s.modCore 0 fun c => { c with tvec := 0x70000 }
/-- Fault 0x11 of user level delegated: DELEG, UIEN and UIVEC set. -/
def delegating (s : State) : State := (s.modCore 0 fun c => { c with deleg := 3 }).upd fun t => ({ t with uivec := 0x60000 } : Ctx).setStatus 9 1 1
/-- The machine with a context of core 0. -/
def withMxu (s : State) : State := s.upd fun t => { t with mxu := 1 }
theorem witness_TrapEntry : isMiz 0 = false ∧ (∀ s : State, s = vectored (regs []) ∨ s = vectored (withMxu (regs [])) → (s.ctx 0 0).priv = 0 ∧ delegated (s.core 0) (s.ctx 0 0) 0x11 = false ∧ addrBits (s.core 0).tvec ≠ 0) ∧
    ((vectored (regs [])).ctx 0 0).drained = true ∧ ((vectored (withMxu (regs []))).ctx 0 0).drained = false ∧ addressed 0x0C ∧ addressed 0x13 ∧ ¬addressed 0x11 ∧
    (((regs []).ctx 0 0).priv = 0 ∧ delegated ((regs []).core 0) ((regs []).ctx 0 0) 0x11 = false ∧ addrBits ((regs []).core 0).tvec = 0) ∧
    (let s := State.modCore (vectored (regs [])) 0 fun c => { c with tvec := 0x50000 }
     ((s.takeTrap 0 0 ⟨0x11, 0, 0, false⟩).core 0).icache = (s.core 0).icache) ∧ ((regsS []).ctx 0 0).priv ≠ 0 ∧
    (((delegating (regs [])).ctx 0 0).priv = 0 ∧ delegated ((delegating (regs [])).core 0) ((delegating (regs [])).ctx 0 0) 0x11 = true) :=
  ⟨by decide +kernel, fun s h => by rcases h with rfl | rfl <;> decide +kernel, by decide +kernel, by decide +kernel, .inl (by decide), .inr (.inl rfl), by unfold addressed; decide, by decide +kernel, by decide +kernel, by decide +kernel, by decide +kernel⟩
/-- Slot 2 of context 0 in use. -/
def slotted : State := (regs []).upd fun t => { t with slots := t.slots.set 2 ⟨true, false, false, 0, false, 0x1000, 0x100, 4, 0, []⟩ }
theorem witness_RestoreOfSave : (1 : Nat) < 4 ∧ ((regs []).ctx 0 0).fmode.toNat < 8 ∧ ((regs []).ctx 0 0).fflags.toNat < 128 ∧ ((regs []).ctx 0 0).ssb.toNat % 16 = 0 ∧ ((regs []).ctx 0 0).ssb.toNat < 2 ^ 48 ∧ ((regs []).ctx 0 0).ssl.toNat % 16 = 0 ∧
    ((regs []).ctx 0 0).ssl.toNat < 2 ^ 48 ∧ (slotted.ctx 0 0).slots[(2 : Fin 8)].used = true := by decide +kernel
/-- On Mizzen core 0. -/
def onMizzen : State := { regs [] with act := 6144 }
/-- Context 0 live at S, having come from a level. -/
def cameFrom (n : Nat) : State := (regsS []).upd fun t => t.setStatus 2 2 n
theorem witness_TrapReturn : isMiz onMizzen.act = true ∧ (regs []).me.priv = 0 ∧ (isMiz (regsS []).act = false ∧ (regsS []).me.priv ≠ 0) ∧ (1 ≤ (cameFrom 2).me.priv ∧ (cameFrom 2).me.priv < (cameFrom 2).me.ppriv) ∧
    (1 ≤ (withMxu (cameFrom 0)).me.priv ∧ (withMxu (cameFrom 0)).me.ppriv ≤ (withMxu (cameFrom 0)).me.priv ∧ (withMxu (cameFrom 0)).me.drained = false) ∧
    (1 ≤ (cameFrom 0).me.priv ∧ (cameFrom 0).me.ppriv ≤ (cameFrom 0).me.priv ∧ (cameFrom 0).me.drained = true ∧ isMiz (cameFrom 0).act = false) ∧ (isMiz (regs []).act = false ∧ (regs []).me.uiact = false) ∧
    (isMiz (regs []).act = false ∧ ((regs []).upd fun t => t.setStatus 10 1 1).me.uiact = true) := by decide +kernel
theorem witness_ControlRegisters : ((regs []).me.priv < cregLevel .meetwin ∧ CReg.meetwin.writable = true) ∧ (cregLevel .uivec ≤ (regs []).me.priv ∧ CReg.uivec.writable = true ∧ (regs []).plain [.g 3] = true ∧ (regs []).me.stackBad 3 0 = false) ∧ CReg.time.writable = false ∧
    refuses (cregFields .status) ((regs []).cregGet 0 0 .status) 4 0 = true ∧
    (cregLevel .status ≤ (regsS []).me.priv ∧ CReg.status.writable = true ∧ refuses (cregFields .status) ((regsS []).cregGet 0 0 .status) 0xC 1 = false ∧
      (writeFields (cregFields .status) ((regsS []).cregGet 0 0 .status) 0xC 1).toNat / 4 % 4 = 3) ∧
    (cregLevel .csap ≤ (regsS []).me.priv ∧ CReg.csap.writable = true ∧ refuses (cregFields .csap) 0xBB80 0x1F000 1 = false ∧ (regsS []).home.csapRefused 0 (writeFields (cregFields .csap) 0xBB80 0x1F000 1) = true) ∧
    (refuses (cregFields .csap) 0xBB80 0x8000 1 = false ∧ (regsS []).home.csapRefused 0 (writeFields (cregFields .csap) 0xBB80 0x8000 1) = false) := by decide +kernel
/-- Context 1 of core 0 in a state, context 0 live at S; g3 is 1. -/
def second (f : Ctx → Ctx) (p : Progress) : State := ((regsS [(3, 1)]).modCtx 0 1 f).upd fun t => { t with prog := p }
theorem none_csave {s : State} {c : Nat} (h : c < 11) (h2 : c ≠ s.actx.val) (h3 : (s.ctx s.act (cix c)).st = .live) (h4 : (s.ctx s.act (cix c)).priv = 0) (h5 : (s.ctx s.act (cix c)).entering = none) (n : Nat) : ¬CsaveNow s c n := by
  intro w
  cases w with
  | self e => rcases e with e | e | e; · omega
              · exact h2 e
              · rw [h3] at e; cases e
  | stopped _ _ e => rw [h3] at e; cases e
  | busy _ _ _ _ e => rcases e with e | e; · exact e h4
                      · rw [h5] at e; cases e
  | retiring _ _ e => rw [h3] at e; cases e
theorem witness_SystemForms : (regs []).me.priv = 0 ∧ isMiz 0 = false ∧ (1 ≤ (regsS [(3, 1)]).me.priv ∧ (regsS [(3, 1)]).plain [.g 3, .g 4] = true ∧ (regsS [(3, 1)]).pairsOut 0 0 = false ∧ (((regsS [(3, 1)]).siFlush 0).keepsPage fun _ _ => true) = false ∧
      ((regsS [(3, 1)]).siFlush 0).keepsPage (((regsS [(3, 1)]).siFlush 0).covered 0 1 1) = false ∧ (regsS [(3, 1)]).me.ldnm = false ∧ ((regsS [(3, 1)]).siFlush 0).keepsPage (fun i _ => i == 0) = false) ∧
    (∃ s : State, s.act = 0 ∧ s.me.priv = 1 ∧ s.afresh ∧ CsaveNow s 1 1) ∧ (∃ s : State, s.act = 0 ∧ s.me.priv = 1 ∧ s.afresh ∧ CsaveNow s 1 2) ∧ (∃ s : State, s.act = 0 ∧ s.me.priv = 1 ∧ s.afresh ∧ CsaveNow s 1 3) ∧
    (∃ s : State, s.act = 0 ∧ s.me.priv = 1 ∧ s.afresh ∧ CsaveNow s 1 4) ∧ (∃ s : State, s.act = 0 ∧ s.me.priv = 1 ∧ s.afresh ∧ ∀ n, ¬CsaveNow s 1 n) ∧
    (∃ s : State, s.me.prog = .saving 0 ∧ 0 ≤ s.time ∧ s.me.stackBad 4 0 = false) ∧ (∃ s : State, s.me.prog = .saving 9 ∧ s.time < 9) ∧
    ((regsS []).afresh ∧ ((regsS []).ctx 0 (cix 1)).st ≠ .stopped ∧ (regsS []).me.stackBad 4 1 = false) ∧ ((second (fun t => { t with st := .stopped }) .none).afresh ∧ ((second (fun t => { t with st := .stopped }) .none).ctx 0 (cix 1)).st = .stopped) ∧
    ((second id .done).me.prog = .done ∧ (second id (.bistDone 3)).me.prog = .bistDone 3 ∧ (second id .bist).me.prog = .bist) ∧
    (let s := at0 (fun c => (gs [(3, 0x8000)] c).setStatus 4 2 2) id
     2 ≤ s.me.priv ∧ s.plain [.g 3, .g 4] = true ∧ s.afresh ∧ s.bistRefused 0x8000 = some 3 ∧ s.me.stackBad 4 (BitVec.ofNat 64 3) = false) ∧ isMiz onMizzen.act = true ∧
    ((regs []).afresh ∧ (regs []).me.cpyiQ = []) ∧ ∃ s : State, isMiz s.act = false ∧ s.afresh ∧ s.me.cpyiQ ≠ [] :=
  ⟨by decide +kernel, by decide, by decide +kernel, ⟨second id .none, rfl, by decide +kernel, rfl, .self (.inr (.inr rfl))⟩,
   ⟨second (fun t => { t with st := .stopped }) .none, rfl, by decide +kernel, rfl, .stopped (by decide) (by decide) rfl⟩,
   ⟨second (fun t => ({ t with st := .live } : Ctx).setStatus 4 2 1) .none, rfl, by decide +kernel, rfl, .busy (by decide) (by decide) (by decide +kernel) (by decide +kernel) (.inl (by decide +kernel))⟩,
   ⟨second (fun t => { t with st := .retiring }) .none, rfl, by decide +kernel, rfl, .retiring (by decide) (by decide) rfl rfl (by decide +kernel) rfl⟩,
   ⟨second (fun t => { t with st := .live }) .none, rfl, by decide +kernel, rfl, none_csave (by decide) (by decide) rfl (by decide +kernel) rfl⟩,
   ⟨second id (.saving 0), rfl, by decide +kernel, by decide +kernel⟩, ⟨second id (.saving 9), rfl, by decide +kernel⟩, ⟨rfl, by decide +kernel, by decide +kernel⟩, ⟨rfl, rfl⟩, ⟨rfl, rfl, rfl⟩, ⟨by decide +kernel, by decide +kernel, rfl, by decide +kernel, by decide +kernel⟩,
   by decide, ⟨rfl, rfl⟩, ⟨(regs []).upd fun t => { t with cpyiQ := [(5, 0, false)] }, by decide +kernel, rfl, by decide +kernel⟩⟩
/-- An event with its operands. -/
def evt (l : List Nat) (s : State) : State := { s with ev := l }
/-- The boot ROM in a state. -/
def booting (b : Boot) (l : List Nat) : State := { State.reset with boot := b, ev := l }
theorem witness_BootEvents : (State.reset.fallbackDue = false ∧ ({ State.reset with time := 22500000000 } : State).fallbackDue = true) ∧ (State.reset.boot.stage = 0 ∧ State.reset.boot.rom = 0 ∧ State.reset.boot.attempts = 0 ∧ State.reset.boot.waiting = false) ∧
    (booting ⟨1, 1, 0, 0, 0, false, false⟩ []).boot.stage = 1 ∧ (booting ⟨0, 1, 3, 0, 1, true, false⟩ []).boot.waiting = true ∧
    (booting ⟨2, 1, 0, 0, 0, false, false⟩ []).boot.stage = 2 ∧ (booting ⟨3, 1, 0, 0, 0, false, false⟩ []).boot.stage = 3 ∧
    (imageReason (booting ⟨3, 1, 0, 0, 0, false, false⟩ []).image = 0 ∨ imageReason (booting ⟨3, 1, 0, 0, 0, false, false⟩ []).image ≠ 0) ∧
    ((booting ⟨0, 0, 0, 1, 0, false, false⟩ [4, 1, 0]).arg 0 = 4 ∧ (booting ⟨0, 0, 0, 1, 0, false, false⟩ [4, 1, 0]).boot.rom = (booting ⟨0, 0, 0, 1, 0, false, false⟩ [4, 1, 0]).arg 1) ∧ (0x100000000000 : Nat) < hostBase ∧ hostBase < regBase ∧ bit (4 : Word) 2 = true :=
  ⟨by decide +kernel, by decide, rfl, rfl, rfl, rfl, Classical.em _, by decide, by decide, by decide, by decide⟩
/-- Context 0 of core 0 in a state, with a slice whose record names a join block and a copy. -/
def ending (st : CtxSt) (join : Word) (y : Option (Word × Word)) (d : Option (Nat × Nat)) (sig : Option (Option (BitVec 64))) : State :=
  evt [0, 0] ((at0 (fun c => { c with yields := y }) fun c => { c with slice := some ⟨(Vector.replicate 8 0).set 2 join, 0, 0, 0, false, d, sig, true⟩ }).modCtx 0 0 fun c => { c with st := st })
/-- The other copy of a DUAL slice on core 8. -/
def copied (sig other : Option (BitVec 64)) : State := (ending .retiring 0 none (some (0, 8)) (some sig)).modCore 8 fun c =>
  { c with slice := some ⟨Vector.replicate 8 0, 0, 0, 0, false, some (1, 0), some other, true⟩ }
/-- The firmware runs, and queue 0 of cluster 0 holds records. -/
def placing (l : List Record) : State := evt [0] (({ State.reset with boot := ⟨4, 1, 0, 0, 0, false, true⟩ } : State).modCluster 0 fun c => { c with qs := c.qs.set 0 ⟨0, 0, true, l, 0, 0⟩ })
/-- A member of a gang of one. -/
def ganging : Record := (Vector.replicate 8 0).set 4 0x40000000000
def isOne : Placing → Bool | .one .. => true | _ => false
def isGang : Placing → Bool | .gang .. => true | _ => false
theorem isOne_spec {p : Placing} (h : isOne p = true) : ∃ c k j, p = .one c k j := by
  cases p <;> first | exact ⟨_, _, _, rfl⟩ | exact Bool.noConfusion h
theorem isGang_spec {p : Placing} (h : isGang p = true) : ∃ t m, p = .gang t m := by
  cases p <;> first | exact ⟨_, _, rfl⟩ | exact Bool.noConfusion h
theorem snd_of {α β : Type} [DecidableEq α] {x : α × β} {a : α} (h : x.1 = a) : ∃ b, x = (a, b) := ⟨x.2, by rw [← h]⟩
/-- A launch packet from the module's scheduler, device 5 of the pod, and one from the endpoint whose block lies at 0x2000. -/
def launching (pkt : Nat) (resdest : Word := 0x4000000000000005) (kind src : Nat := 1) : State := evt [kind, src, pkt] ((({ State.reset with
  boot := ⟨4, 1, 0, 0, 0, false, true⟩, resdest := resdest, mem := State.reset.mem.writeN 0x2000 24 7 } : State)).modCluster 0 fun c => { c with qs := c.qs.set 0 ⟨0, 0, true, [], 0, 0⟩ })
/-- The same slice with a pair of context 0 on its way. -/
def endingBusy : State := pairing 1 (ending .retiring 0x1000 none none none)
theorem witness_SliceEvents_contexts : (ending .starting 0 none none none).subject.st = .starting ∧ ((ending .retiring 0 none none none).subject.st = .retiring ∧ (ending .retiring 0 none none none).retireReady 0 (cix 0) = true ∧
      (ending .retiring 0 none none none).subject.poisonQ = [] ∧ ∃ s1, (ending .retiring 0 none none none).retireSteps 0 (cix 0) = (none, s1)) ∧ (State.reset.ctx 0 0).st ≠ .retiring ∧
    (evt [0, 0] (withMxu (ending .retiring 0 none none none))).retireReady 0 (cix 0) = false ∧
    (∃ y s1, (evt [0, 0x1000, 0, 0] (regs [])).homeTry (0x1000 + 64) 64 = (some y, s1)) ∧ (∃ s s1 : State, s.arg 1 < 2 ^ 64 ∧ s.homeTry (s.arg 1 + 64) 64 = (none, s1) ∧ s.ev.length ≤ 3) ∧
    (∃ s : State, s.arg 1 = 2 ^ 64 + 9 * 4 + 1) ∧ (∀ p, p = Progress.none ∨ p = .wfi → let s := evt [0, 0] ((regs []).upd fun c => { c with stopReq := true, prog := p })
      (∃ e, s.boundary 0 (cix 0) = some e ∧ e.row = .contextStop) ∧ s.subject.prog = p) ∧ (ending .stopped 0 none none none).subject.st = .stopped :=
  ⟨rfl, ⟨rfl, by decide +kernel, rfl, snd_of (by decide +kernel)⟩, by decide, by decide +kernel, ⟨_, _, rfl⟩, ⟨evt [0, 0xC0, 0] { State.reset with poison := [0x40] }, _, by decide, Prod.ext (by decide +kernel) rfl, by decide⟩,
   ⟨evt [0, 2 ^ 64 + 37, 0] State.reset, rfl⟩, fun p h => by rcases h with rfl | rfl <;> exact ⟨⟨_, rfl, rfl⟩, rfl⟩, rfl⟩
/-- What holds of a slice that ends: its context is ready and its record names a join block. -/
def endsWith (s : State) (join : Word) : Prop := ((s.ctx 0 0).st = .retiring ∧ s.retireReady 0 0 = true ∧ (s.ctx 0 0).poisonQ = [] ∧ (s.ctx 0 0).copyQ = [] ∧ (s.ctx 0 0).cpyiQ = []) ∧
  ∃ s1, s.retireSteps 0 0 = (none, s1) ∧ (s1.core 0).sliceDone = true ∧ ∃ sl, (s1.core 0).slice = some sl ∧ sl.dual = none ∧ sl.rec_.join = join
theorem endsWith_of {s : State} {join : Word} (h : ((s.ctx 0 0).st = .retiring ∧ s.retireReady 0 0 = true ∧ (s.ctx 0 0).poisonQ = [] ∧ (s.ctx 0 0).copyQ = [] ∧ (s.ctx 0 0).cpyiQ = []) ∧
    (s.retireSteps 0 0).1 = none ∧ ((s.retireSteps 0 0).2.core 0).sliceDone = true ∧ ((s.retireSteps 0 0).2.core 0).slice.all (fun sl => sl.dual.isNone && sl.rec_.join == join) = true ∧
    ((s.retireSteps 0 0).2.core 0).slice.isSome = true) : endsWith s join := by
  obtain ⟨hc, h1, h2, h3, h4⟩ := h
  obtain ⟨sl, e⟩ := Option.isSome_iff_exists.mp h4
  rw [e] at h3
  simp only [Option.all_some, Bool.and_eq_true, Option.isNone_iff_eq_none, beq_iff_eq] at h3
  exact ⟨hc, (s.retireSteps 0 0).2, Prod.ext h1 rfl, h2, sl, e, h3⟩
theorem witness_SliceEvents_ends : endsWith (ending .retiring 0 none none none) 0 ∧ endsWith (ending .retiring 0 (some (0x50000, 0)) none none) 0 ∧ endsWith (ending .retiring 0x1000 none none none) 0x1000 ∧
    endsWith (ending .retiring 0x1000 (some (0x50000, 0)) none none) 0x1000 :=
  ⟨endsWith_of (by decide +kernel), endsWith_of (by decide +kernel), endsWith_of (by decide +kernel), endsWith_of (by decide +kernel)⟩
theorem witness_SliceEvents_quiet : ((ending .retiring 0x1000 none none none).retireSteps 0 0).2.coreQuiet 0 = true ∧ (∃ s : State, s.coreQuiet 0 = false) ∧ ((ending .retiring 0 (some (0x50000, 0)) none none).ctx 0 0).yields = some (0x50000, 0) :=
  ⟨by decide +kernel, ⟨endingBusy, by decide +kernel⟩, rfl⟩
/-- A queue with a record on chip, and one with 64. -/
theorem witness_SliceEvents_enqueue : (((placing [ganging]).cluster 0).qs[(0 : Fin 16)].recs.length < 64 ∧ ((placing [ganging]).cluster 0).qs[(0 : Fin 16)].ring = 0) ∧
    64 ≤ ((placing (List.replicate 64 ganging)).cluster 0).qs[(0 : Fin 16)].recs.length := by decide +kernel
/-- A residency report: to be sent to an endpoint 10 µs after the last; with new contents 1 µs after it; not due. -/
def reporting (time : Nat) (old : List Nat) : State := { State.reset with resdest := 0x4000000000000005, time := time, reported := old }
theorem witness_SliceEvents_report : ((reporting 22500 []).resKind = 1 ∧ (reporting 22500 []).reportAt + 22500 ≤ (reporting 22500 []).time) ∧
    ((reporting 2250 []).reportAt + 2250 ≤ (reporting 2250 []).time ∧ (reporting 2250 []).entries ≠ (reporting 2250 []).reported) ∧ (reporting 9 []).time < (reporting 9 []).reportAt + 2250 := by decide +kernel
theorem witness_SliceEvents_dual : ∀ p ∈ [((some 7 : Option (BitVec 64)), (some 7 : Option (BitVec 64))), (some 7, some 9), (none, some 7), (some 7, none)],
    ∃ sl, ((copied p.1 p.2).core 0).slice = some sl ∧ sl.dual = some (0, 8) ∧ sl.sig = some p.1 ∧ ((copied p.1 p.2).core 8).slice.bind (·.sig) = some p.2 ∧ ((copied p.1 p.2).ctx 0 0).yields = none := by
  intro p h
  fin_cases h <;> exact ⟨_, rfl, rfl, rfl, rfl, rfl⟩
theorem witness_SliceEvents_place : ((State.reset.modCluster 0 fun c => { c with held := [(0, ganging)] }).cluster 0).heldReady = some (0, ganging) ∧ (State.reset.takeTickets 0).selectSlice 0 = .nothing ∧
    (∃ c k j, ((placing [Vector.replicate 8 0]).takeTickets 0).selectSlice 0 = .one c k j) ∧ (∃ t m, ((placing [ganging]).takeTickets 0).selectSlice 0 = .gang t m) :=
  ⟨by decide +kernel, by decide +kernel, isOne_spec (by decide +kernel), isGang_spec (by decide +kernel)⟩
/-- Launch packets before the boot has ended, of another source, with another magic, to a cluster that is none, accepted; and from an endpoint that is the scheduler's and one that is not. -/
theorem witness_SliceEvents_launch : State.reset.boot.up = false ∧ (∃ s s1 : State, s.boot.up = true ∧ s.fromScheduler (s.arg 0) (s.arg 1) = (false, s1)) ∧
    ((launching 0 (src := 5)).boot.up = true ∧ (launching 0 (src := 5)).fromScheduler ((launching 0 (src := 5)).arg 0) ((launching 0 (src := 5)).arg 1) = (true, launching 0 (src := 5)) ∧ (launching 0).resKind = 1) ∧
    ((launching 0).launchCode 0 = -6 ∧ (launching 0).launchCode (1 + 32 * 2 ^ 16) = -7 ∧ (launching 0).launchCode 1 = 0) ∧
    ((launching 0 (resdest := 0x8000000000002000)).resKind = 2 ∧ ((launching 0 (resdest := 0x8000000000002000)).fromScheduler 2 7).1 = true ∧ ((launching 0 (resdest := 0x8000000000002000)).fromScheduler 2 8).1 = false ∧
      ((launching 0 (resdest := 0x8000000000002000)).homeRead 0x2000 24).1 = 7 ∧ (launching 0 (resdest := 0x8000000000002000)).resBlock = 0x2000) ∧ State.reset.resKind ≠ 1 ∧ State.reset.resKind ≠ 2 :=
  ⟨rfl, ⟨launching 0 (src := 6), _, rfl, Prod.ext (by decide +kernel) rfl⟩, ⟨rfl, rfl, by decide +kernel⟩, by decide +kernel, by decide +kernel, by decide, by decide⟩
/-- Context 0 has a producer of g5; `ldf` tells that it is a deferred LDF. -/
def producing (ldf : Bool) : State := evt [0, 0] ((regs []).upd fun c => { c with prods := [⟨[.g 5 77], 0, none, false, ldf, 3, none, ldf, none⟩] })
/-- Context 0 with something pending. -/
def pend (f : Ctx → Ctx) : State := evt [0, 0] ((regs []).upd f)
/-- A slice on core 0 whose budget is used up. -/
def spent : State := evt [0] (at0 id fun c => { c with slice := some ⟨(Vector.replicate 8 0).set 4 1, 0, 0, 0, false, none, none, false⟩ }) |> fun s => { s with time := 5 }
/-- Mizzen core 0 live, with a machine check that waits. -/
def checking : State := evt [6144] ((State.reset.modCore 6144 fun c => { c with mcq := [(0x88, 1, 2), (0x82, 3, 4)] }).modCtx 6144 0 fun c => { c with st := .live })
/-- A Yard entry whose window ends at a TIME. -/
def yarded (t : Nat) : State := evt [0] { State.reset.modCluster 0 fun c => { c with yard := [⟨(0, 0, 0, 0), ⟨0, 0, 0, 0⟩, [], .phys 0x1000 .dir, 0, false, false, t⟩] } with time := 9 }
theorem witness_ResultEvents : (firstDue ((producing false).subject.prods.filter (·.ldf == false)) = some ⟨[.g 5 77], 0, none, false, false, 3, none, false, none⟩ ∧ (producing false).subject.entering = none) ∧ (5 : GReg) ≠ 0 ∧
    (firstDue ((producing true).subject.prods.filter (·.ldf)) = some ⟨[.g 5 77], 0, none, false, true, 3, none, true, none⟩ ∧ (⟨[.g 5 77], 0, none, false, true, 3, none, true, none⟩ : Producer).poison = none ∧ (producing true).subject.entering = none ∧ (producing true).subject.slotG 5 = none ∧ (producing true).subject.stackBad 5 77 = false) ∧
    (∃ e, (pend fun c => { c with poisonQ := [(1, 2)] }).boundary 0 (cix 0) = some e ∧ e.row = .poisonedDataFault) ∧ ((pend id).subject.st = .live ∧ (pend fun c => { c with st := .retiring }).subject.st = .retiring) ∧
    (∃ e, (pend fun c => { c with copyQ := [(3, 0x21, 0, 0)] }).boundary 0 (cix 0) = some e ∧ e.row = .copyFaultEntry) ∧
    (∃ e, (pend fun c => { c with cpyiQ := [(3, 0x60000, false)] }).boundary 0 (cix 0) = some e ∧ e.row = .copyCompletionInterrupt) ∧
    (∃ e, (pend fun c => ({ c with cpyiQ := [(3, 0x60000, true)] } : Ctx).setStatus 9 1 1).boundary 0 (cix 0) = some e ∧ e.row = .copyCompletionInterrupt) ∧
    (∃ e, spent.boundary 0 0 = some e ∧ e.row = .budgetTrap) ∧
    (isMiz 6144 = true ∧ (checking.core 6144).handling = false ∧ (checking.ctx 6144 0).st = .live ∧ (checking.ctx 6144 0).entering = none ∧ nextCheck (checking.core 6144).mcq = some (0x82, 3, 4) ∧ (checking.core 6144).mcDropped = 0) ∧
    (slotted.ctx 0 0).slots[(2 : Fin 8)].used = true ∧ (slotted.ctx 0 0).slots[(2 : Fin 8)].out = false ∧ (slotted.ctx 0 0).slots[(3 : Fin 8)].used = false ∧
    (∃ (s : State) (q : YReq), (s.cluster 0).yreq = [q] ∧ q.at_ ≤ s.time ∧ (s.cluster 0).accepted.2 < 8) ∧ (∃ e, ((yarded 8).cluster 0).yard.find? (fun e => decide (e.close ≤ 9)) = some e) ∧ (State.reset.cluster 0).yard = [] :=
  ⟨⟨by decide +kernel, rfl⟩, by decide, ⟨by decide +kernel, rfl, rfl, by decide +kernel⟩, ⟨_, rfl, rfl⟩, ⟨rfl, rfl⟩, ⟨_, rfl, rfl⟩, ⟨_, rfl, rfl⟩, ⟨_, rfl, rfl⟩, ⟨_, rfl, rfl⟩, ⟨rfl, rfl, rfl, rfl, by decide +kernel, rfl⟩, rfl, rfl, rfl,
   ⟨State.reset.modCluster 0 fun c => { c with yreq := [⟨(0, 0, 0, 0), ⟨0, 0, 0, 0⟩, .phys 0x1000 .dir, 0⟩] }, _, rfl, by decide, by decide⟩, ⟨_, rfl⟩, rfl⟩
/-- Tag 5 of core 0 busy with a command of no bytes, or in another state. -/
def tagBusy (st : TagSt) (c : Cmd) : State := evt [0, 5] (at0 id fun y => { y with tags := y.tags.set 5 ⟨st, some c, 0, 0, 0, 0, [], []⟩ })
/-- CPY of no bytes, and CPY of 64 bytes between pages that are not mapped. -/
def cpy0 : Cmd := ⟨0, 0, 0, 0, #v[0x1000, 0x2000, 0, 0, 0, 0, 0, 0], .none, 5⟩
def cpy1 : Cmd := ⟨0, 0, 0, 0, #v[0x1000000, 0x2000000, 1, 64, 0, 0, 0, 0], .none, 5⟩
/-- Numbers in the scratchpad of core 0, and a command of it. -/
def filled (l : List (Nat × Nat × Nat)) : State := at0 id fun c => l.foldl (fun c p => spad p.1 p.2.1 p.2.2 c) c
def cmd (sel : Nat) (b : Record) : Cmd := ⟨sel, 0, 0, 0, b, .none, 5⟩
/-- Two rows of 32 bytes over a page end; two entries of 8 bytes; a bag of two rows of the capacity tier, of two elements; a COLL of 8 bytes. -/
def copying : Cmd := cmd 0 #v[0x1000, 0x1FF0, 2 + 0x100 * 2 ^ 32, 32 + 64 * 2 ^ 32, 0, 0, 0, 0]
def moving (sel : Nat) : Cmd := cmd sel #v[0x3000, 0x4000, 2 + 8 * 2 ^ 32, 0, 0, 0, 0, 0]
def pooling : Cmd := cmd 4 #v[0x50000, 0x3000, 0, 0x3100, 0x4000, 2 + 8 * 2 ^ 16 + 2 ^ 32, 0, 0]
def reducing : Cmd := cmd 5 #v[0x1000, 0x2000, 8 + 2 ^ 16, 0, 0, 0, 0, 0]
/-- Indices at 0x3000, offsets at 0x3100, and the rows 1.0, 2.0 and 3.0, 4.0. -/
def bagged (o0 o1 : Nat) : State := { (filled [(0x3000, 4, 1), (0x3004, 4, 0), (0x3100, 4, o0), (0x3104, 4, o1)]).modCore 0 fun c => { c with tlb := [⟨0, 0x50000, 4096, 0x100000000000, 0x11F, none⟩] } with
  mem := State.reset.mem.writeN 0x100000000000 16 0x40800000404000004000000000000000 |>.writeN 0x100000000000 4 0x3F800000, iods := [(0, { State.reset.iod 0 with cxlsz := State.reset.iod 0 |>.cxlsz.set 0 64 })] }
theorem engAt_plain {s : State} {k va n j off : Nat} (h : 0 < n ∧ spadAt k va = some (j, off) ∧ off + n ≤ 0x20000) (hw : ((List.finRange 8).all fun i => ((s.core j).wins[i]).isNone) = true := by decide +kernel)
    (hp : (s.core j).spoison = [] := by rfl) : s.engAt k va n j off :=
  ⟨h.1, h.2.1, h.2.2, fun i w e => by have := List.all_eq_true.mp hw i (List.mem_finRange i); rw [e] at this; exact Bool.noConfusion this, by simp [hp]⟩
theorem entryIs_plain {s : State} {k : Nat} {c : Cmd} {i e j off : Nat} (h : s.engAt k (c.blk[0] + BitVec.ofNat 64 (4 * i)).toNat 4 j off)
    (hb : e < 2 ^ 32 ∧ ∀ b, b < 4 → byteN e b = s.sourceByte k c ((c.blk[0] + BitVec.ofNat 64 (4 * i)).toNat + b) j (off + b) := by decide +kernel) : s.entryIs k c i e := ⟨j, off, h, hb⟩
theorem witness_EngineUnits_pages : (copying.sel < 2 ∧ copying.empty = false ∧ 1 < copying.rows ∧ 0x1FF0 ∈ copying.bases ∧ 31 < copying.dstBytes) ∧ (copying.sel < 2 ∧ copying.conv = 0) ∧
    (∀ p ∈ ([⟨0x2000, 16, 16, 0x1000⟩, ⟨0x2030, 0, 32, 0x1100⟩] : List CopyPart), (filled []).engAt 0 (BitVec.ofNat 64 (p.src + p.j)).toNat p.n 0 (p.src + p.j) ∧ (filled []).engAt 0 p.dst p.n 0 p.dst) ∧
    ([⟨0x2000, 16, 16, 0x1000⟩, ⟨0x2030, 0, 32, 0x1100⟩] : List CopyPart).Pairwise (fun p q => (0 : Nat) ≠ 0 ∨ p.dst + p.n ≤ q.dst ∨ q.dst + q.n ≤ p.dst) :=
  ⟨by decide +kernel, by decide +kernel, fun p h => by fin_cases h <;> exact ⟨engAt_plain (by decide +kernel), engAt_plain (by decide +kernel)⟩, by decide⟩
theorem witness_EngineUnits_entries : ((moving 2).sel = 2 ∧ (moving 3).sel = 3) ∧ (∀ sel, sel = 2 ∨ sel = 3 → (filled [(0x3000, 4, 192 * 0x20000)]).entryIs 0 (moving sel) 0 (192 * 0x20000) ∧ ¬(moving sel).entryFits (192 * 0x20000)) ∧
    (∀ sel, sel = 2 ∨ sel = 3 → let s := filled [(0x3000, 4, 0x1000), (0x3004, 4, 0x1004)]
      s.entryIs 0 (moving sel) 1 0x1004 ∧ s.entryIs 0 (moving sel) 0 0x1000 ∧ (moving sel).entryFits 0x1004 ∧ s.engAt 0 (entryAddr 0x1004) (moving sel).elen 0 0x1004 ∧
      s.engAt 0 ((moving sel).blk[1] + BitVec.ofNat 64 (1 * (moving sel).elen)).toNat (moving sel).elen 0 0x4008 ∧ (s.tag 0 5).skipped = []) ∧
    ∃ s : State, s.entryIs 0 (moving 3) 1 0x1004 ∧ 0 ∈ (s.tag 0 5).skipped := by
  refine ⟨by decide, fun sel h => ?_, fun sel h => ?_, ⟨(filled [(0x3004, 4, 0x1004)]).modTag 0 5 fun y => { y with skipped := [0] }, entryIs_plain (j := 0) (off := 0x3004) (engAt_plain (by decide +kernel)), by decide +kernel⟩⟩ <;> rcases h with rfl | rfl
  · exact ⟨entryIs_plain (j := 0) (off := 0x3000) (engAt_plain (by decide +kernel)), by unfold Cmd.entryFits; decide +kernel⟩
  · exact ⟨entryIs_plain (j := 0) (off := 0x3000) (engAt_plain (by decide +kernel)), by unfold Cmd.entryFits; decide +kernel⟩
  · exact ⟨entryIs_plain (j := 0) (off := 0x3004) (engAt_plain (by decide +kernel)), entryIs_plain (j := 0) (off := 0x3000) (engAt_plain (by decide +kernel)), by unfold Cmd.entryFits; decide +kernel, engAt_plain (by decide +kernel), engAt_plain (by decide +kernel), rfl⟩
  · exact ⟨entryIs_plain (j := 0) (off := 0x3004) (engAt_plain (by decide +kernel)), entryIs_plain (j := 0) (off := 0x3000) (engAt_plain (by decide +kernel)), by unfold Cmd.entryFits; decide +kernel, engAt_plain (by decide +kernel), engAt_plain (by decide +kernel), rfl⟩
/-- What a bag reads first, and the rows of a bag of two. -/
def bagHead (o0 o1 : Nat) : Except CopyFail Nat × State := (bagged o0 o1).engRead 0 pooling (pooling.blk[3] + BitVec.ofNat 64 (4 * 0)) 8
theorem witness_EngineUnits_bags : (bagHead 2 1 = (.ok (2 + 2 ^ 32 * 1), (bagHead 2 1).2) ∧ (1 : Nat) < 2) ∧ (bagHead 0 4097 = (.ok (0 + 2 ^ 32 * 4097), (bagHead 0 4097).2) ∧ (0 : Nat) + 4096 < 4097) ∧
    (bagHead 0 2 = (.ok (0 + 2 ^ 32 * 2), (bagHead 0 2).2) ∧ pooling.sel = 4 ∧ ∃ rows s2, State.bagRows 0 pooling (pooling.blk[3] + BitVec.ofNat 64 (4 * 0)) (2 - 0) 0 (bagHead 0 2).2 = (.ok rows, s2) ∧
      s2.engAt 0 (pooling.blk[4] + BitVec.ofNat 64 (4 * pooling.dim * 0)).toNat (4 * pooling.dim) 0 0x4000) :=
  ⟨⟨okIs_pair (by decide +kernel), by decide⟩, ⟨okIs_pair (by decide +kernel), by decide⟩, okIs_pair (by decide +kernel), rfl,
   [(0x3F800000, 0x4080000040400000), (0x3F800000, 0x400000003F800000)], _, okIs_pair (by decide +kernel), engAt_plain (by decide +kernel) (by decide +kernel) (by decide +kernel)⟩
theorem witness_EngineUnits_coll : (reducing.sel = 5 ∧ (filled []).engAt 0 reducing.blk[0].toNat reducing.cbytes 0 0x1000 ∧ (filled []).engAt 0 reducing.blk[1].toNat reducing.cbytes 0 0x2000) ∧
    (regs []).collStop [(0, 5, reducing)] = none ∧ (8 * 0 < 8 ∧ 8 % 8 = 0 ∧ [[5], [7]] ≠ [] ∧ ∀ ws ∈ [[5], [7]], ∀ x ∈ ws, x < 2 ^ 64) :=
  ⟨⟨rfl, engAt_plain (by decide +kernel), engAt_plain (by decide +kernel)⟩, by decide +kernel, by decide⟩
/-- Channel 2 of core 0, of context 0 alone, with an arrival. -/
def phasing : State := evt [0, 2] (arrived 1 (regs []))
/-- A doorbell queue 3 with an entry that names tag 5. -/
def belled (e : Word) (s : State) : State := evt [0, 3] (queueing 2 [e] s)
/-- The octet of core 0. -/
def oct (y : Octet) : State := evt [0] (State.reset.modOctet 0 fun _ => y)
def zeroOp : MxOp := ⟨.zero, 0, 0, 0, Vector.replicate 8 0, 0, 0, 0, 0, 0, 0, [], [], .f32, false, 0, 0, 0, ⟨[], []⟩⟩
/-- An operation on E4M3, or on blocks, at 0x1000 and 0x4000, in tile 0 of core 0; core 0 with a block's first word poisoned. -/
def mxop (kind : MxKind) (f0 : Word := 0x11) : MxOp := { zeroOp with kind := kind, fmt := #v[f0, 32, 64, 0, 0, 0, 0, 0], a := 0x1000, b := 0x4000, k := 1, ablk := [(0x1000, 6)], bblk := [(0x4000, 6)] }
def stained (l : List Nat) : State := at0 id fun c => { c with spoison := l }
theorem mxPlain_of {s : State} {p : MxOp} {va n : Nat} (h : va + n ≤ 0x20000) (hw : p.pages.wins = [] := by rfl) (hp : (s.core p.core).spoison = [] := by rfl) : s.mxPlain p va n := ⟨hw, h, by simp [hp]⟩
/-- What the operands of MXMM and of MXMMS give of poison. -/
def mmPoison (s : State) (p : MxOp) : Option Nat := (s.mxA p).1.2.2.orElse fun _ => ((s.mxA p).2.mxB p p.k).1.2.2
theorem mm_of {s : State} {p : MxOp} {q : Option Nat} (h : mmPoison s p = q) : ∃ a f1 b1 s1 b f2 b2 s2, s.mxA p = ((a, f1, b1), s1) ∧ s1.mxB p p.k = ((b, f2, b2), s2) ∧ (b1.orElse fun _ => b2) = q :=
  ⟨_, _, _, _, _, _, _, _, rfl, rfl, h⟩
theorem mms_of {s : State} {p : MxOp} {q : Option Nat} (h : (s.mxB p 1).1.2.2 = q) : ∃ b f2 s1, s.mxB p 1 = ((b, f2, q), s1) := ⟨_, _, _, by rw [← h]⟩
theorem run_of {s : State} {p : MxOp} {z : Vector TRow 64} {q : Option Nat} (h : (s.mxRun p z).1.2.2 = q) : ∃ y f u, s.mxRun p z = ((y, f, q), u) := ⟨_, _, _, by rw [← h]⟩
theorem witness_MxuResult_multiplies : (mxop .mm 0x33).kind = .mm ∧ mmPoison (stained [0x400]) (mxop .mm 0x33) = some 0x1000 ∧ mmPoison (stained [0x1000]) (mxop .mm 0x33) = some 0x4000 ∧ mmPoison (stained []) (mxop .mm 0x33) = none ∧
    ((mxop .mms 0x31).kind = .mms ∧ (mxop .mms 0x31).k < 4) ∧ ((stained [0x1000]).mxB (mxop .mms 0x31) 1).1.2.2 = some 0x4000 ∧ ((stained []).mxB (mxop .mms 0x31) 1).1.2.2 = none ∧
    (keptIndex 0 15 (24 / 8) 0 = 24 % 8 ∧ ∀ q, q < 4 → keptIndex 0 15 (31 / 8) q ≠ 31 % 8) := by
  decide +kernel
/-- Where the rows of a store of 64 words lie. -/
theorem at_st : ∀ i, i < 64 → ∀ j, j < 64 → elemAt 0x1000 256 i (j * 4) = 0x1000 + 256 * i + 4 * j := by decide +kernel
theorem witness_MxuResult_memory : ((mxop .ld).kind = .ld ∧ ∀ i j, i < 64 → j < 64 → (stained []).mxPlain (mxop .ld) (elemAt (mxop .ld).a 256 i (4 * j)) 4) ∧
    (∀ i j i2 j2, i < 64 → j < 64 → i2 < 64 → j2 < 64 → (i, j) ≠ (i2, j2) → elemAt 0x1000 256 i (j * 4) + 4 ≤ elemAt 0x1000 256 i2 (j2 * 4) ∨ elemAt 0x1000 256 i2 (j2 * 4) + 4 ≤ elemAt 0x1000 256 i (j * 4)) ∧
    ((mxop .st).kind = .st ∧ (mxop .st).ty.width / 8 = 4 ∧ ∀ i j, i < 64 → j < 64 → (stained []).mxPlain (mxop .st) (elemAt 0x1000 256 i (j * 4)) 4) := by
  refine ⟨⟨rfl, fun i j hi hj => ?_⟩, fun i j i2 j2 hi hj hi2 hj2 h => ?_, rfl, rfl, fun i j hi hj => ?_⟩
  · have := at_st i hi j hj
    exact mxPlain_of (by rw [show (mxop .ld).a = 0x1000 from rfl, Nat.mul_comm 4 j, this]; omega)
  · rw [at_st i hi j hj, at_st i2 hi2 j2 hj2]
    rw [ne_eq, Prod.mk.injEq] at h
    omega
  · have := at_st i hi j hj
    exact mxPlain_of (by rw [this]; omega)
theorem at_mm : (∀ i, i < 64 → ∀ c, c < 1 → ∀ e, e < 32 → elemAt 0x1000 32 i ((32 * c + e) * fmtBytes (aFmt (mxop .mm).fmt)) + 1 ≤ 0x20000) ∧
    ∀ k, k < 32 → ∀ j, j < 64 → elemAt 0x4000 64 k (j * fmtBytes (bFmt (mxop .mm).fmt)) + 1 ≤ 0x20000 := by decide +kernel
theorem witness_MxuResult_operands : (aFmt (mxop .mm).fmt ≠ 3 ∧ ∀ i c e, i < 64 → c < (mxop .mm).k → e < 32 → (stained []).mxPlain (mxop .mm) (elemAt (mxop .mm).a (mxop .mm).fmt[1] i ((32 * c + e) * fmtBytes (aFmt (mxop .mm).fmt))) 1) ∧
    (bFmt (mxop .mm).fmt ≠ 3 ∧ ∀ k j, k < 32 * 1 → j < 64 → (stained []).mxPlain (mxop .mm) (elemAt (mxop .mm).b (mxop .mm).fmt[2] k (j * fmtBytes (bFmt (mxop .mm).fmt))) 1) ∧
    (∀ i, i < 6 → (stained []).mxPlain (mxop .mm 0x33) (0x1000 + 4 * i) 4) ∧ (∃ vs, bcDecode ((stained []).mxBytes (mxop .mm 0x33) 0x1000 (4 * 6)) 6 = .ok vs) ∧ (∀ n ∈ [5, 15], n < 6 ∨ 14 < n) ∧
    (([-128, 127] : List Int).length = ([127, -128] : List Int).length ∧ (∀ x ∈ ([-128, 127] : List Int), -128 ≤ x ∧ x < 128)) := by
  refine ⟨⟨by decide, fun i c e hi hc he => mxPlain_of ?_⟩, ⟨by decide, fun k j hk hj => mxPlain_of ?_⟩, fun i hi => mxPlain_of (by omega), ⟨_, by rfl⟩, by decide, by decide⟩
  · exact at_mm.1 i hi c hc e he
  · exact at_mm.2 k hk j hj
/-- Octet 0 with an operation at work on it. -/
def working (p : MxOp) (l : List Nat) : State := evt [0] ((stained l).modOctet 0 fun y => { y with running := some p })
theorem witness_MxuResult_ends : ((stained [0x400]).mxRun (mxop .mm 0x33) (Tile.fill 0)).1.2.2 ≠ none ∧ ((stained []).mxRun (mxop .mm 0x33) (Tile.fill 0)).1.2.2 = none ∧
    ∀ p l, p = mxop .mm 0x33 ∨ p = mxop .zero → ((working p l).octet 0).running = some p ∧ p.ctx ≠ 11 ∧ ((working p l).ctx p.core (cix p.ctx)).entering = none :=
  ⟨by decide +kernel, by decide +kernel, fun p l h => by rcases h with rfl | rfl <;> exact ⟨rfl, by decide, rfl⟩⟩
def remote (key : Word) (rsv : Word := 0) : Remote := ⟨(((Vector.replicate 16 0).set 0 key).set 1 0x8000000).set 7 rsv, 0, 0, 9⟩
/-- A capability of octet 0 set, with remote commands arriving and accepted. -/
def capped (key : Word) (n : Nat) : State := (oct { Octet.reset with arriving := [remote 7], guest := List.replicate n (remote 7) }).modCluster 0 fun c => { c with mxcap := c.mxcap.set 0 key }
/-- A packet on its way from core 0 to queue 3 of core 1, which holds n entries. -/
def packet (kind n : Nat) : State := { evt [0] (State.reset.modCore 1 fun c => { c with qs := c.qs.set 3 ⟨kind, 0, 0, List.replicate n 0⟩ }) with packets := [(0, 1, 3, [7])] }
/-- WLAPP of context 0 on its way to list 1 of cluster 0, of 16 places and empty, or full. -/
def appending (tail : Nat) : State := evt [0, 1, 0, 77, 0, 0] (listed 0 0 tail (asked .wlapp (regs [])))
theorem witness_UnitEvents_tags : (∃ s1, State.runUnits 0 5 cpy0 (cpy0.units.drop 0) (tagBusy .busy cpy0) = (none, s1)) ∧ ((tagBusy .busy cpy0).tag 0 5).st = .busy ∧ ((tagBusy .busy cpy0).tag 0 5).cmd = some cpy0 ∧ cpy0.sel ≠ 5 ∧
    ((tagBusy .busy cpy1).tag 0 5).cmd = some cpy1 ∧ (State.runUnits 0 5 cpy1 (cpy1.units.drop 0) (tagBusy .busy cpy1)).1.isSome = true ∧ ((tagBusy .srcDone cpy0).tag 0 5).st = .srcDone ∧
    (evt [0, 2] (regs [])).phaseOf 0 2 = none ∧ phasing.phaseOf 0 2 = some [(0, 0)] ∧ [((0 : Nat), (0 : Nat))].filterMap (phasing.collOf 2) = [] :=
  ⟨snd_of (by decide +kernel), rfl, rfl, by decide, rfl, by decide +kernel, rfl, by decide +kernel, by decide +kernel, by decide +kernel⟩
theorem witness_UnitEvents_order : ∃ s : State, s.packets.find? (·.1 == 1) = some (1, 2, 3, [7]) ∧ s.overtakes (1, 2, 3, [7]) = true := ⟨{ State.reset with packets := [(0, 2, 3, [9]), (1, 2, 3, [7])] }, by decide⟩
theorem witness_UnitEvents_units : ((regs []).core 0).qs[(3 : Fin 16)].ents = [] ∧ (∀ e : Word, e = 0x28000000000000 ∨ e = 0x628000000001001 → ((belled e (regs [])).core 0).qs[(3 : Fin 16)].kind = 2 ∧ ((belled e (regs [])).core 0).qs[(3 : Fin 16)].ents = [e] ∧ fld e 51 6 = 5) ∧
    ((belled 0x28000000000000 (tagBusy .busy cpy0)).tag 0 5).st ≠ .idle ∧ (((belled 0x628000000001001 (regs [])).tag 0 5).st = .idle ∧ fld 0x628000000001001 57 2 = 3 ∧ fld 0x628000000001001 0 48 % 64 ≠ 0) ∧
    ((oct { Octet.reset with ops := [zeroOp] }).octet 0).next = some 0 ∧ ((oct { Octet.reset with ops := [zeroOp] }).octet 0).running = none ∧ ([zeroOp].find? fun p => p.core % 8 == 0) = some zeroOp ∧
    (((oct { Octet.reset with guest := [remote 7] }).octet 0).next = some 8 ∧ ((oct { Octet.reset with guest := [remote 7] }).octet 0).running = none ∧ ((oct { Octet.reset with guest := [remote 7] }).octet 0).guest = [remote 7]) ∧
    (((oct { Octet.reset with running := some zeroOp }).octet 0).running = some zeroOp ∧ zeroOp.ctx ≠ 11 ∧ zeroOp.kind = .zero) ∧
    (∀ p ∈ [((0 : Word), (0 : Nat)), (9, 0), (7, 8), (7, 0)], ((capped p.1 p.2).octet 0).arriving = [remote 7] ∧ ((capped p.1 p.2).cluster 0).mxcap[(0 : Fin 24)] = p.1 ∧ ((capped p.1 p.2).octet 0).guest.length = p.2) ∧
    (remote 7).blk[0] = 7 ∧ (remote 7).legal = true ∧ (remote 7 1).blk[0] = 7 ∧ (remote 7 1).legal = false ∧
    (∀ p ∈ [((1 : Nat), (0 : Nat)), (3, 8), (3, 0)], (packet p.1 p.2).packets.find? (·.1 == 0) = some (0, 1, 3, [7]) ∧ (packet p.1 p.2).overtakes (0, 1, 3, [7]) = false ∧ ((packet p.1 p.2).core 1).asleep = false ∧ ((packet p.1 p.2).core 1).qs[(3 : Fin 16)].kind = p.1 ∧ ((packet p.1 p.2).core 1).qs[(3 : Fin 16)].ents.length = p.2) ∧
    (∀ n, ((appending n).ctx 0 0).prog = .wlapp) ∧ (∃ l s1, (appending 0).list 0 1 = (some l, s1) ∧ l.asid = 0 ∧ l.refuses = 0) ∧ ∃ l s1, (appending 16).list 0 1 = (some l, s1) ∧ l.asid = 0 ∧ l.refuses ≠ 0 :=
  ⟨rfl, fun e h => by rcases h with rfl | rfl <;> exact ⟨rfl, rfl, by decide⟩, by decide +kernel, by decide +kernel, by decide +kernel, rfl, by decide +kernel, ⟨by decide +kernel, rfl, rfl⟩, ⟨rfl, by decide, rfl⟩, by decide +kernel,
   rfl, by decide +kernel, rfl, by decide +kernel, by decide +kernel, fun n => rfl, ⟨⟨0x50000, 0, 4, 0, 0, 0, []⟩, _, some_of (by decide +kernel), by decide⟩, ⟨0x50000, 0, 4, 0, 0, 16, []⟩, _, some_of (by decide +kernel), by decide⟩
/-- CPY of 64 bytes from the page at 0x50000, which is no page of an engine (0x22), or is one whose slice is under test, or is served; and from a page that is not mapped. -/
def copyPage (flags : BitVec 10) (tests : List (Nat × Nat)) : State := (((tagBusy .busy (cmd 0 #v[0x50000, 0x2000, 1, 64, 0, 0, 0, 0])).modCore 0 (page flags)).modDie 0 fun y => { y with tests := tests })
def unitsOf (s : State) : Option CopyFail := match (s.tag 0 5).cmd with
  | some c => (State.runUnits 0 5 c (c.units.drop 0) s).1
  | none => none
theorem witness_UnitEvents_runs : (unitsOf (copyPage 0x1F [])).map (·.1) = some 0x22 ∧ (unitsOf (copyPage 0x11F [(homeSlice 0x300000, 50)])).map (·.1) = some 1 ∧ (unitsOf (tagBusy .busy cpy1)).map (·.1) = some 0 ∧ unitsOf (copyPage 0x11F []) = none := by
  decide +kernel
/-- Channel 2 of core 0 with an arrival of context 0 by COLL, in a state of its tag. -/
def colling (st : TagSt) : State := evt [0, 2] ((tagBusy st reducing).modCore 0 fun c => { c with chans := c.chans.set 2 { c.chans[2] with arr := [(0, 1)], colls := [(0, 1, 5)] } })
/-- The same for a channel of contexts 0 and 1, on which context 1 arrives plainly. -/
def mixedColl : State := (colling .srcDone).modCore 0 fun c => { c with chans := c.chans.set 2 { c.chans[2] with arr := [(0, 1), (1, 1)], mask := 3 } }
theorem witness_UnitEvents_phases : (phasing.phaseOf 0 2 = some [(0, 0)] ∧ [((0 : Nat), (0 : Nat))].filterMap (phasing.collOf 2) = []) ∧
    (∀ st, st = .srcDone ∨ st = .busy → (colling st).phaseOf 0 2 = some [(0, 0)] ∧ [((0 : Nat), (0 : Nat))].filterMap ((colling st).collOf 2) = [(0, 5, reducing)] ∧
      [((0 : Nat), (0 : Nat))].filterMap ((colling st).farColl 2) = [] ∧ collsAgree 1 [(0, 5, reducing)] [] = true ∧ ([(0, 5, reducing)].all fun c => ((colling st).tag c.1 c.2.1).st == .srcDone) = (st == .srcDone)) ∧
    (mixedColl.phaseOf 0 2 = some [(0, 0), (0, 1)] ∧ [((0 : Nat), (0 : Nat)), (0, 1)].filterMap (mixedColl.collOf 2) = [(0, 5, reducing)] ∧ [((0 : Nat), (0 : Nat)), (0, 1)].filterMap (mixedColl.farColl 2) = [] ∧
      collsAgree 2 [(0, 5, reducing)] [] = false) ∧
    ((evt [0, 10] (regs [])).arg 1 = 10 ∧ ((evt [0, 10] (regs [])).core 0).asleep = false) ∧ (∃ s : State, (s.chan 0 2).level = 5) ∧
    (((regs []).core 0).asleep = false ∧ ((regs []).chan 0 2).spent = 0) ∧ (∃ s : State, (s.core 0).asleep = true) ∧ (∃ s : State, (s.chan 0 2).spent ≠ 0) ∧ (⟨0, 1, [], 2, 1, [], []⟩ : Chan).colls = [] :=
  ⟨by decide +kernel, fun st h => by rcases h with rfl | rfl <;> decide +kernel, by decide +kernel, by decide +kernel, ⟨(regs []).modChan 0 2 fun b => { b with d0 := 5 }, by decide +kernel⟩, by decide +kernel,
   ⟨State.reset.modCore 0 fun c => { c with idle := .c2 }, by decide +kernel⟩, ⟨(regs []).modChan 0 2 fun b => { b with spent := 1 }, by decide +kernel⟩, rfl⟩
/-- A doorbell for the CPY of 64 bytes whose block lies at 0x1000; with bit 62 set it is refused. The context that waits has an LDNM not resolved. -/
def bellWord (bad : Bool) : Word := if bad then 0x4028000000001000 else 0x28000000001000
def belling (bad : Bool) (ldnm : Bool) : State := (belled (bellWord bad) (filled [(0x1000, 8, 0x1000), (0x1008, 8, 0x2000), (0x1010, 8, 1), (0x1018, 8, 64)])).upd fun c => { c with ldnm := ldnm }
/-- The block that a doorbell names, as read, and the state after. -/
def bellRead (s : State) (e : Word) : Option Record × State := match s.bellBlock 0 0 (fld e 0 48) with
  | .ok r => r
  | .error _ => (none, s)
theorem witness_UnitEvents_bells : ∀ bad ldnm, let s := belling bad ldnm
    let c : Cmd := ⟨0, 0, 0, 0, #v[0x1000, 0x2000, 1, 64, 0, 0, 0, 0], .none, 5⟩
    ((s.core 0).qs[(3 : Fin 16)].kind = 2 ∧ (s.core 0).qs[(3 : Fin 16)].ents = [bellWord bad] ∧ (s.core 0).qs[(3 : Fin 16)].writer = 0) ∧ (s.tag 0 (fld (bellWord bad) 51 6)).st = .idle ∧ bellMode (bellWord bad) = some .none ∧
    (∃ s1, s.bellBlock 0 0 (fld (bellWord bad) 0 48) = .ok (some c.blk, s1) ∧ s1.bagIndices (some 2) 0 c = .ok (0, []) ∧ c.bellBad (bellWord bad) 0 0 = bad ∧ s1.canStart 0 0 c (c.srcExt 0) (c.dstExt (logical 0)) = !ldnm) := by
  have h : ∀ bad ldnm, okIs (some (#v[0x1000, 0x2000, 1, 64, 0, 0, 0, 0] : Record)) ((belling bad ldnm).bellBlock 0 0 (fld (bellWord bad) 0 48) |>.map (·.1)) = true := by decide +kernel
  intro bad ldnm
  refine ⟨by revert bad ldnm; decide +kernel, by revert bad ldnm; decide +kernel, by revert bad; decide +kernel, (bellRead (belling bad ldnm) (bellWord bad)).2, ?_, rfl, by revert bad; decide +kernel, by revert bad ldnm; decide +kernel⟩
  have := okIs_eq (h bad ldnm)
  unfold bellRead
  cases e : (belling bad ldnm).bellBlock 0 0 (fld (bellWord bad) 0 48) with
  | error _ => rw [e] at this; cases this
  | ok r =>
    rw [e] at this
    exact congrArg Except.ok (Prod.ext (Except.ok.inj this) rfl)
/-- A guest command whose operand lies in plain scratchpad, or at an address of no range, and what its checks answer. -/
def guestOf (a : Word) : Remote := ⟨((Vector.replicate 16 0).set 0 7).set 2 a, 0, 0, 9⟩
def guestSays (g : Remote) (s : State) : Option Bool := match guestCheck g s with
  | .ok (.ok _, _) => some true
  | .ok (.error _, _) => some false
  | .error _ => none
theorem guest_ok {g : Remote} {s : State} (h : guestSays g s = some true) : ∃ p s1, guestCheck g s = .ok (.ok p, s1) := by
  unfold guestSays at h
  split at h
  · next p s1 e => exact ⟨p, s1, e⟩
  · simp at h
  · simp at h
theorem guest_error {g : Remote} {s : State} (h : guestSays g s = some false) : ∃ f s1, guestCheck g s = .ok (.error f, s1) := by
  unfold guestSays at h
  split at h
  · simp at h
  · next f s1 e => exact ⟨f, s1, e⟩
  · simp at h
theorem witness_UnitEvents_guests : (∃ p s1, guestCheck (guestOf 0x1000) (oct { Octet.reset with guest := [guestOf 0x1000] }) = .ok (.ok p, s1)) ∧ (∃ f s1, guestCheck (guestOf 0x1000000000000000) (oct { Octet.reset with guest := [guestOf 0x1000000000000000] }) = .ok (.error f, s1)) ∧
    (let s := oct { Octet.reset with guest := [remote 7], running := some (remote 7).op }
     (s.octet 0).guest = [remote 7] ∧ (s.octet 0).running = some (remote 7).op ∧ (remote 7).op.ctx = 11) ∧
    (∃ s : State, ∃ p, s.packets.find? (·.1 == 0) = some p ∧ s.overtakes p = false ∧ (s.core p.2.1).asleep = false ∧ mizBase ≤ p.2.1) ∧
    ∃ s : State, ∃ p, s.packets.find? (·.1 == 0) = some p ∧ s.overtakes p = false ∧ p.2.1 < mizBase ∧ (s.core p.2.1).asleep = true :=
  ⟨guest_ok (by decide +kernel), guest_error (by decide +kernel), by decide +kernel, ⟨{ State.reset with packets := [(0, 6144, 3, [7])] }, (0, 6144, 3, [7]), by decide +kernel⟩,
   { State.reset.modCore 1 (fun c => { c with idle := .c2 }) with packets := [(0, 1, 3, [7])] }, (0, 1, 3, [7]), by decide +kernel⟩
/-- Channel 2 of core k with a domain of no member, and its context 0 waiting in WLQUIET on it or not. -/
def quieting (k : Nat) (d0 : Word) (p : Progress) : State := evt [k, 2] ((State.reset.modCore k fun c => { c with chans := c.chans.set 2 ⟨d0, 0, [], 0, 0, [], []⟩ }).modCtx k 0 fun c => { c with prog := p })
/-- The lists of its domain. -/
def quietLists (s : State) : List (Nat × Nat × WList) × State := State.domainLists 2 ((s.domainCores (s.arg 0) 2).map clusterOf).eraseDups s
theorem pair_of {α β : Type} {x : α × β} {P : α → β → Prop} (h : P x.1 x.2) : ∃ a b, x = (a, b) ∧ P a b := ⟨x.1, x.2, rfl, h⟩
theorem witness_UnitEvents_quiet : (∃ ls s1, quietLists (quieting 0 0 .none) = (ls, s1) ∧ s1.idleOn ls 2 0 = false) ∧ (∃ ls s1, quietLists (quieting 0 0 (.wlquiet 2)) = (ls, s1) ∧ s1.idleOn ls 2 0 = true ∧ s1.quiet 0 2 ls = true) ∧
    ∃ ls s1, quietLists (quieting 6144 0x100000003 (.wlquiet 2)) = (ls, s1) ∧ s1.idleOn ls 2 6144 = true ∧ s1.quiet 6144 2 ls = false :=
  ⟨pair_of (by decide +kernel), pair_of (by decide +kernel), pair_of (by decide +kernel)⟩
/-- An update region of I64 ADD at 0x40000000 of one page, and a pair of it. -/
def reg0 : Region := ⟨0, 0x50000, 0x40000000, 1, .i64, .add, false⟩
def upd0 : Pair := ⟨0x40000008, 0, 5, 0, 0, 0, [0], .dir, false, false⟩
def updating (l : List Nat) (s : State) : State := evt l { s with regions := [(0, reg0)], bins := [(0x40000000, ⟨0, [], [], 0⟩)] }
theorem witness_MemoryEvents_pairs : ((State.reset.modCore 0 fun c => { c with ubuf := [upd0] }).core 0).ubuf = [upd0] ∧ (State.reset.core 0).ubuf = [] ∧
    (State.reset.regions.find? fun r => decide (r.2.pa ≤ 0) && decide (0 < r.2.pa + 4096 * r.2.pages)) = none ∧
    (((updating [0, 0x40000008] State.reset).regions.find? fun r => decide (r.2.pa ≤ 0x40000008) && decide (0x40000008 < r.2.pa + 4096 * r.2.pages)) = some (0, reg0) ∧ State.reset.binsOf (homeDie 0x40000008) ≠ 0 ∧
      sget (updating [0, 0x40000008] State.reset).bins (pageOf 0x40000008) = some ⟨0, [], [], 0⟩) ∧
    (let s := State.reset.modCore 0 fun c => { c with l1 := [(0x10000002, ⟨0x10000002, .u 0 false [0], 5, .dir⟩)] }; ∃ y, sget (s.core 0).l1 (0x40000008 / 4) = some y ∧ y.st = .u 0 false [0]) ∧
    ([upd0].find? fun p => homeDie p.pa == 0 && homeSlice (pageOf p.pa) == 1) = some upd0 ∧ ((State.reset.modDie 0 fun d => { d with bcfg := 0 }).binsOf 0 = 0 ∧ State.reset.binsOf 0 ≠ 0) ∧ sget State.reset.bins 0 = none := by
  refine ⟨rfl, rfl, rfl, by decide +kernel, ⟨_, rfl, rfl⟩, by decide +kernel, by decide +kernel, rfl⟩
/-- Slice 1 of die 0 under test, or not; an error in a memory; a tile that one has hit. -/
theorem witness_MemoryEvents_tests : State.reset.testLeft 0 1 = 0 ∧ (∃ s : State, s.testLeft 0 1 ≠ 0) ∧ (∀ a ∈ [0, 2, 6, 7, 9], ∀ how ∈ [0, 1, 2, 3], let s := evt [0, a, how, 3, 0x4000, 1] State.reset; 6 ≤ s.ev.length ∧ s.arg 1 = a ∧ s.arg 2 = how) ∧
    sget (updating [] State.reset).bins 0x40000000 ≠ none ∧ checking.ev.length ≤ 1 ∧ (∃ c : Core, c.tbad.getLsbD 1 = true) ∧ (regs []).home.tbad.getLsbD 1 = false :=
  ⟨by decide +kernel, ⟨State.reset.modDie 0 fun y => { y with tests := [(1, 50)] }, by decide +kernel⟩, by decide, by decide +kernel, by decide, ⟨{ Core.reset false with tbad := 2 }, by decide⟩, by decide +kernel⟩
theorem witness_MemoryEvents_masks : (updating [0, 0x40000008] State.reset).inMask 0x40000000 0 = false ∧ (∃ s : State, s.inMask 0x40000000 0 = true) :=
  ⟨by decide +kernel, ⟨{ State.reset with bins := [(0x40000000, ⟨0, [], [], 1⟩)] }, by decide +kernel⟩⟩
theorem witness_MemoryEvents_walks : (State.reset.cluster 0).walks.find? (fun w => w.running && w.asid == 0 && w.page == 0x50) = none ∧
    ([⟨0, 0x50, true, [(0, 0, 0)], []⟩] : List Walk).find? (fun w => w.running && w.asid == 0 && w.page == 0x50) = some ⟨0, 0x50, true, [(0, 0, 0)], []⟩ := by decide
theorem witness_MemoryEvents_homes : attrOf 1 ≠ .dir ∧ (0 : Nat) ≠ 1 ∧ attrOf 2 = .uc ∧ attrOf 0 ≠ .uc ∧ (∃ old s1, State.reset.homeRead 0x1000 8 = (old, s1) ∧ s1.anyPoison 0x1000 8 = false ∧ old = 0 % 2 ^ 64 ∧ old ≠ 3 % 2 ^ 64) ∧
    (∃ t s1, (paged 0x1F).pageWalk 0 0 0x50000 = (t, s1)) ∧ (State.reset.regWrite (regBase + 0x100000 + 0x10) 2 1024).isSome = true ∧ (16 : Nat) < 24 ∧ (State.reset.regWrite (regBase + 8) 2 0).isSome = true ∧ (State.reset.regWrite (regBase + 8) 0 0x8000).isSome = false :=
  ⟨by decide, by decide, by decide, by decide, pair_of (by decide +kernel), ⟨_, _, rfl⟩, by decide +kernel, by decide, by decide +kernel, by decide +kernel⟩
/-- A partial of upd0 in the L1 of core 0; the same as a pair on its way, with so many pairs accepted in this cycle; bins kept or not; the page being applied or not. -/
def partial0 (bins : Word) (left : Nat) : State := { (State.reset.modCore 0 fun c => { c with l1 := [(0x10000002, ⟨0x10000002, .u 0 false [0], 5, .dir⟩)] }).modDie 0 fun y => { y with bcfg := bins } with applies := [(0x40000000, left)], ev := [0, 0x40000008] }
def flying (bins : Word) (left n : Nat) : State := { partial0 bins left with flight := [upd0], ev := [homeDie 0x40000008, homeSlice 0x40000000] }.modDie 0 fun y => { y with accepted := (0, List.replicate n (homeSlice 0x40000000)) }
theorem witness_MemoryEvents_grants : State.reset.partialRegion 0 0x40000008 = none ∧ (partial0 16 0).partialRegion 0 0x40000008 = some 0 ∧ ((partial0 16 0).binWait 0x40000008 = 0 ∧ (partial0 16 0).binsOf (homeDie 0x40000008) ≠ 0) ∧
    ((partial0 0 0).binWait 0x40000008 = 0 ∧ (partial0 0 0).binsOf (homeDie 0x40000008) = 0) ∧ (partial0 16 9).binWait 0x40000008 ≠ 0 ∧
    ((flying 16 0 15).flight.find? (fun p => homeDie p.pa == (flying 16 0 15).arg 0 && homeSlice (pageOf p.pa) == (flying 16 0 15).arg 1) = some upd0) ∧
    (let s := flying 16 0 15; max (s.binWait upd0.pa) (if s.acceptRate 0 ≤ s.acceptedNow 0 (s.arg 1) then 1 else 0) = 0 ∧ s.binsOf 0 ≠ 0) ∧
    (let s := flying 0 0 0; max (s.binWait upd0.pa) (if s.acceptRate 0 ≤ s.acceptedNow 0 (s.arg 1) then 1 else 0) = 0 ∧ s.binsOf 0 = 0) ∧
    ∀ p ∈ [((16 : Word), 0, 16), (0, 0, 1), (16, 5, 0)], let s := flying p.1 p.2.1 p.2.2; max (s.binWait upd0.pa) (if s.acceptRate 0 ≤ s.acceptedNow 0 (s.arg 1) then 1 else 0) ≠ 0 :=
  ⟨by decide +kernel, by decide +kernel, by decide +kernel, by decide +kernel, by decide +kernel, by decide +kernel, by decide +kernel, by decide +kernel, by decide +kernel⟩
/-- Word 0x410 of the scratchpad of core 0 in a window, D or not held; words owned by core 0, of a die that is fenced or not. -/
def winOf0 (l : List (Nat × Copy)) : State := State.reset.modCore 0 fun c => { c with wins := c.wins.set 0 (some ⟨0x1000, 0x50000, 0x1000, 0, l, []⟩) }
def owned0 (fenced : Bool) : State := { State.reset.modDie 0 (fun y => { y with fenced := fenced }) with dir := [(0x400000400, .owned 0), (0x400, .owned 0)] }
theorem witness_MemoryEvents_copies : (State.reset.core 0).winDirty 0x410 = none ∧ (∃ y, ((winOf0 [(0x10, ⟨0xC0010, .d, 5, .dir⟩)]).core 0).winDirty 0x410 = some y) ∧
    (∃ s w, sget (State.dir s) w = some (.owned 0) ∧ s.apart 0 (homeDie (4 * w)) = false) ∧ (∃ s w, sget (State.dir s) w = some (.owned 0) ∧ s.apart 0 (homeDie (4 * w)) = true) ∧ (State.reset.mayHold 0 0x400 = true ∧ State.reset.apart 0 (homeDie (4 * 0x400)) = false) ∧
    (∀ k ∈ [3, 5, 6, 7], let s := evt [k, 0x1000, 0, 3] State.reset; s.arg 0 = k ∧ s.testLeft (homeDie (s.arg 1)) (homeSlice (s.arg 1)) = 0) ∧
    ∃ s : State, s.testLeft (homeDie (s.arg 1)) (homeSlice (s.arg 1)) ≠ 0 ∧ s.arg 1 < hostBase :=
  ⟨by decide +kernel, ⟨_, rfl⟩, ⟨owned0 false, 0x400, by decide +kernel⟩, ⟨owned0 true, 0x400000400, by decide +kernel⟩, by decide +kernel, by decide +kernel,
   ⟨evt [0, 0x1000] (State.reset.modDie 0 fun y => { y with tests := [(homeSlice 0x1000, 50)] }), by decide +kernel⟩⟩
/-- TIME so late that cores, clusters or a die enter an idle state; every core of cluster 0 in C2, every cluster of die 0 in C3. -/
def idling (i : Idle) : State := evt [0] { (State.reset.modDie 0 fun y => { y with diepwr := 1 }) with
  time := 3000000, cores := if i = .c2 then (List.range 192).map fun k => (k, { Core.reset false with idle := .c2 }) else [], clusters := if i = .c3 then (List.range 8).map fun k => (k, { Cluster.reset with idle := .c3 }) else [] }
/-- A test runs on core 0. -/
def tested : State := evt [0] (asked .bist (regs []))
theorem witness_PowerEvents : State.reset.time / 22500 ≤ (State.reset.die 0).window ∧ ((idling .run).die 0).window < (idling .run).time / 22500 ∧ ((State.reset.modDie 0 fun y => { y with droopInWindow := true }).die 0).droopInWindow = true ∧
    State.reset.c2Due 0 = false ∧ (idling .run).c2Due 0 = true ∧ (idling .run).c3Due 0 = false ∧ (idling .c2).c3Due 0 = true ∧ (idling .run).c4Due 0 = false ∧ (idling .c3).c4Due 0 = true ∧ ((idling .run).core 0).asleep = false ∧
    (((idling .c2).core 0).asleep = true ∧ ((idling .c2).core 0).waking = 0) ∧ (State.reset.ctx 0 0).prog ≠ .bist ∧ (tested.ctx 0 0).prog = .bist ∧ (State.reset.die 0).measuring = false ∧ ((State.reset.modDie 0 fun y => { y with measuring := true }).die 0).measuring  = true := by
  decide +kernel
/-- Core 0 about to wake, with nothing to run and with a slice placed on it; die 1 in C4. -/
theorem witness_PowerEvents_wake : (∃ s : State, (s.core 0).waking ≠ 0 ∧ (s.core 0).slice = none) ∧ ∃ s : State, (s.core 0).waking ≠ 0 ∧ (s.core 0).slice.isSome = true :=
  ⟨⟨State.reset.modCore 0 fun c => { c with waking := 9 }, by decide +kernel⟩, (ending .starting 0 none none none).modCore 0 fun c => { c with waking := 9 }, by decide +kernel⟩
theorem witness_PowerEvents_heat : (State.reset.die 0).tripped = false ∧ (∃ s : State, (s.die 0).tripped = true) ∧ (State.reset.die 0).tempLimit = false ∧ ∃ s : State, (s.die 0).tempLimit = true :=
  ⟨by decide +kernel, ⟨State.reset.modDie 0 fun y => { y with tripped := true }, by decide +kernel⟩, by decide +kernel, State.reset.modDie 0 fun y => { y with tempLimit := true }, by decide +kernel⟩
theorem witness_PlatformEvents_serve : (State.reset.die 1).idle ≠ .c4 ∧ ∃ s : State, (s.die 1).idle = .c4 ∧ (s.die 1).wakeAt = 0 := ⟨by decide +kernel, State.reset.modDie 1 fun y => { y with idle := .c4 }, by decide +kernel⟩
/-- Accesses of host link 0: one waits for die 1 in C4, or none does. -/
theorem witness_PlatformEvents_order : State.reset.linkAhead 0 0 = none ∧ (∃ s : State, s.linkAhead 0 (s.arg 6) = some 90 ∧ s.arg 0 = 0) ∧
    (State.reset.wakeUnit (State.reset.barUnit 0x100000 8)).1 = 0 ∧ (∃ s : State, (s.wakeUnit (s.barUnit 0x100000 8)).1 ≠ 0) ∧ (evt [0, 0, 0, 0, 8, 0, 5, 1] State.reset).arg 7 ≠ 0 ∧ State.reset.arg 7 = 0 :=
  ⟨by decide +kernel, ⟨{ State.reset with pendingEv := [(90, ⟨.hostBarAccess, [0, 2, 1, 0x1000000000, 8, 7, 3, 0]⟩)] }, by decide +kernel, rfl⟩,
    by decide +kernel, ⟨({ State.reset with boot := ⟨4, 1, 0, 0, 0, false, true⟩ } : State).modDie 0 fun y => { y with idle := .c4 }, by decide +kernel⟩, by decide, rfl⟩
theorem witness_PlatformEvents_route : State.reset.routeCut 0 (homeDie 0x1000) = false := by decide +kernel
/-- A mailbox message at 0x2000 with an opcode and arguments; the firmware runs at stage 4. -/
def mailed (stage : Nat) (m : Memory) : State := { State.reset with mbx := [(0x2000, none)], boot := ⟨stage, 1, 0, 0, 0, false, stage == 4⟩, mem := m }
def mail (op a b c : Nat) : State := mailed 4 ((((State.reset.mem.writeN 0x2000 4 op).writeN 0x2010 8 a).writeN 0x2018 8 b).writeN 0x2020 8 c)
/-- The arguments as the firmware reads them. -/
def args (s : State) : Nat × Nat × Nat × Nat := ((s.homeRead 0x2000 4).1, ((s.homeRead 0x2000 4).2.homeRead 0x2010 8).1, (((s.homeRead 0x2000 4).2.homeRead 0x2010 8).2.homeRead 0x2018 8).1,
  ((((s.homeRead 0x2000 4).2.homeRead 0x2010 8).2.homeRead 0x2018 8).2.homeRead 0x2020 8).1)
theorem witness_PlatformEvents_bars : (∀ off : Nat, off = 0 ∨ off = 0x100000 → off % 8 = 0 ∧ off < 0x400000) ∧ (0x10 : Nat) < 0x100000 ∧ (State.reset.regRead (regBase + 0x10) 1).isSome = true ∧ (State.reset.regRead (regBase + 0) 1).isSome = true ∧
    (State.reset.regWrite (regBase + 0x100000) 1 0).isSome = false ∧ (∃ u, State.reset.regWrite (regBase + 0x40) 1 0 = some u ∧ u.mbx = State.reset.mbx) ∧ State.reset.boot.stage ≠ 4 ∧ (mailed 4 []).boot.stage = 4 ∧
    State.reset.bonded 0x1000 8 = true ∧ State.reset.bonded 0x900000000 8 = false ∧ firstDue ((regs []).subject.prods.filter (!·.ldf)) = none ∧ ∃ p, (producing false).subject.prods = [p] ∧ p.ldf = false :=
  ⟨fun off h => by rcases h with rfl | rfl <;> decide, by decide, by decide +kernel, by decide +kernel, by decide +kernel, ⟨_, rfl, rfl⟩, by decide, rfl, by decide +kernel, by decide +kernel, rfl, _, rfl, rfl⟩
theorem witness_PlatformEvents_mail : State.reset.mbx = [] ∧ (args (mail 3 2 0xFFFFFFFFFFFFFFF0 0) = (3, 2, 2 ^ 64 - 16, 0) ∧ mbxRow 3 = .mbxSetMarginv ∧ (-16 : Int) ≤ (BitVec.ofNat 64 (2 ^ 64 - 16)).toInt ∧ (BitVec.ofNat 64 (2 ^ 64 - 16)).toInt ≤ 15) ∧
    (args (mail 3 4 16 0) = (3, 4, 16, 0) ∧ 15 < (BitVec.ofNat 64 16).toInt) ∧ (args (mail 5 0x4000 0 0) = (5, 0x4000, 0, 0) ∧ mbxRow 5 = .mbxIdentityCertificate ∧ (mail 5 0x4000 0 0).buffer 0x4000 4096 = true ∧ (mail 5 0 0 0).buffer 0x900000000 4096 = false) ∧
    (mailed 3 []).boot.stage ≠ 4 ∧ (args (mail 7 0 0 0) = (7, 0, 0, 0) ∧ mbxRow 7 = .mbxReadDefectMap) ∧ (args (mail 1 0x4000 4112 0) = (1, 0x4000, 4112, 0) ∧ mbxRow 1 = .mbxReadDefectMap ∧ (mail 1 0 0 0).buffer 0x4000 4112 = true) ∧
    (args (mail 2 0x4000 0x5000 0) = (2, 0x4000, 0x5000, 0) ∧ mbxRow 2 = .mbxAttestationReport ∧ (mail 2 0 0 0).buffer 0x4000 32 = true ∧ (mail 2 0 0 0).buffer 0x5000 2048 = true) ∧
    (args (mail 4 0x4000 64 0x5000) = (4, 0x4000, 64, 0x5000) ∧ mbxRow 4 = .mbxSendUet ∧ (mail 4 0 0 0).buffer 0x4000 64 = true ∧ (mail 4 0 0 0).buffer 0x5000 32 = true) := by
  decide +kernel
/-- Port 3 of I/O die 0 has trained in a UALink mode; die 0 is fenced; a peer request of core 0 made at TIME 0. -/
def trained : State := evt [0, 0x1000, 8, 0, 0, 0, 3] { mailed 4 [] with iods := [(0, { State.reset.iod 0 with trained := [(3, 2)] })] }
def fencing : State := (mailed 4 []).modDie 0 fun y => { y with fenced := true }
def asking (time : Nat) : State := evt [0, 0] { (regs []).upd fun c => { c with prods := [⟨[.g 5 0], 0, none, false, false, 99, none, false, some (5, 0x1000, 0)⟩] } with time := time }
theorem witness_PlatformEvents_access : (∀ s, s = State.reset ∨ s = mailed 4 [] → State.bar0Ok s 0 8 = true ∧ State.bar0Ok s 0 4 = false ∧ State.bar0Ok s 4 8 = false) ∧ (State.reset.bar0Ok 0x100000 8 = false ∧ (mailed 4 []).bar0Ok 0x100000 8 = true ∧ (mailed 4 []).bar0Ok 0x400000 8 = false) ∧
    (State.reset.boot.up = false ∧ (mailed 4 []).boot.up = true ∧ (mailed 4 []).bonded 0x1000 8 = true ∧ (mailed 4 []).routeCut 0 (homeDie 0x1000) = false ∧ (mailed 4 []).bonded 0x900000000 8 = false ∧ fencing.routeCut 0 (homeDie 0x1000) = true) ∧
    (trained.portUp (trained.arg 5) (trained.arg 6) = true ∧ trained.bonded (trained.arg 1) 8 = true ∧ trained.routeCut 0 (homeDie (trained.arg 1)) = false ∧ State.reset.portUp 0 0 = false) ∧
    ((State.reset.die (homeDie 0x1000)).idle ≠ .c4 ∧ State.reset.homeWait 0x1000 = 0) ∧ (∃ s : State, (s.die (homeDie 0x1000)).idle ≠ .c4 ∧ s.homeWait 0x1000 ≠ 0) := by
  refine ⟨fun s h => by rcases h with rfl | rfl <;> decide +kernel, by decide +kernel, by decide +kernel, by decide +kernel, by decide +kernel, ⟨State.reset.modDie 0 fun y => { y with tests := [(homeSlice 0x1000, 50)] }, by decide +kernel⟩⟩
theorem witness_PlatformEvents_links : (∀ p ∈ (asking 22499999).subject.prods, ∀ q, p.peer = some q → (asking 22499999).time < q.2.2 + 22500000) ∧
    (∃ p q, (asking 22500000).subject.prods = [p] ∧ p.peer = some q ∧ q.2.2 + 22500000 ≤ (asking 22500000).time ∧ (asking 22500000).subject.entering = none) ∧
    (∃ s : State, s.ev = 0 :: 1 :: 0 :: 0 :: s.ev.drop 4) ∧ (let s := evt [2, 0, 1, 0] State.reset; s.arg 0 = 2 ∧ s.arg 3 ≠ 1) ∧ (∀ n ∈ [0, 1, 2, 3, 4], ∀ snoop ∈ [0, 1], (evt [n, 0, 1, 2, snoop] State.reset).arg 0 = n) ∧
    hostBase ≤ hostBase ∧ hostBase < peerBase ∧ (let s := evt [1, 2, 3] (mailed 4 []); s.arg 0 = 1 ∧ s.boot.stage = 4 ∧ ∀ d ∈ s.downLinks, d.1 = .management → d.2.1 ≠ s.boot.rom) ∧ (mail 3 2 0 0).arg 0 ≠ 1 :=
  ⟨fun p h q e => by
      rw [show (asking 22499999).subject.prods = [⟨[.g 5 0], 0, none, false, false, 99, none, false, some (5, 0x1000, 0)⟩] from rfl, List.mem_singleton] at h
      subst h
      rw [show q = (5, 0x1000, 0) from (Option.some.inj e).symm]
      decide,
   ⟨_, _, rfl, rfl, by decide, rfl⟩, ⟨evt [0, 1, 0, 0] State.reset, rfl⟩, by decide, by decide, by decide, by decide, ⟨by decide, rfl, fun d h => nomatch h⟩, by decide⟩
theorem witness_ResetValues : isMiz 0 = false ∧ CReg.time ∈ [CReg.qgd, .ssb, .ssl, .uivec, .uitag, .uicause, .fmode, .fflags, .streammap, .issuepol, .deleg, .epoch, .time] := by decide
/-! ## Words of the spec's examples -/

/-- R275 and the call example: LI, LIH, CALL, ADDI, SRAI, RET, ADD.W, CLZ with L = 1, RETIRE. -/
theorem test_words_call : decode 0xC748 0x89ABCDEF = .ok (.li 8 0x89ABCDEF) ∧ decode 0xC788 0x01234567 = .ok (.lih 8 0x1234567) ∧ decode 0xC1C0 1 = .ok (.call 1) ∧ decode 0x8649 0x10000001 = .ok (.addi 9 ⟨8, false⟩ 1) ∧
    decode 0x86CA 0x10200024 = .ok (.srai 10 ⟨8, false⟩ 36) ∧ decode 0x00C0 0 = .ok .ret ∧ decode 0x4404 0x1002 = .ok (.addW 4 ⟨8, false⟩ ⟨0, false⟩) ∧ decode 0x65C5 0x1400 = .ok (.clz 5 ⟨10, false⟩) ∧ decode 0x2040 0 = .ok .retire := by
  decide +kernel
/-- The lock of the spec's memory chapter: CAS.D, B.NZ, FENCE.ACQ.MOD; and LDV, STV of its vector example. -/
theorem test_words_memory : decode 0x8DC9 0x08280180 = .ok (.cas 9 ⟨4, false⟩ ⟨10, false⟩ ⟨0, false⟩ true) ∧ decode 0x8238 0x12000000 = .ok (.bcc ⟨9, false⟩ ⟨0, false⟩ .nz .none 0 0) ∧ decode 0x0E0C 0 = .ok (.fenceAcq .mod) ∧
    decode 0x8CC2 0x08000000 = .ok (.ldv 2 ⟨4, false⟩ 0) ∧ decode 0x8CC6 0x08100080 = .ok (.stv 6 ⟨4, false⟩ 128) := by decide +kernel
/-- The member and stream examples: QGSET, LDNM, QCMP.LT, QADDI, MTEST; SOPEN.F, SISECT, STEND, SCLOSE. -/
theorem test_words_member : decode 0x9000 0x08040000 = .ok (.qgset ⟨4, false⟩ (.m 1)) ∧ decode 0x9042 0x0A000007 = .ok (.ldnm 2 ⟨5, false⟩ 7) ∧ decode 0x9089 0x0C012000 = .ok (.qcmp (.p 1) ⟨6, false⟩ 0 .n16 .lt) ∧
    decode 0x90C0 0x00108002 = .ok (.qaddi 2 .n8 1) ∧ decode 0x71C7 0x0002 = .ok (.mtest 7 (.m 0)) ∧ decode 0x9428 0x08000100 = .ok (.sopenF 8 ⟨4, false⟩ false) ∧ decode 0x9549 0x50A40000 = .ok (.sisect 9 40 41 0) ∧
    decode 0x548A 0x5000 = .ok (.stend 10 8) ∧ decode 0x54C0 0x5200 = .ok (.sclose 9) := by decide +kernel
/-- The vector and matrix examples: VREDADD.F32, VSCAN.ADD.F32, VCVT.E4M3.F32.SAT, MXPRUNE.I8, MXST.BF16.SAT; BWAIT. -/
theorem test_words_vector : decode 0x97C5 0x04000040 = .ok (.vredadd 5 ⟨2, false⟩ .f32 none) ∧ decode 0x9806 0x04000040 = .ok (.vscan 6 ⟨2, false⟩ .add .f32 none) ∧ decode 0x9847 0x050004C0 = .ok (.vcvt 7 ⟨2, false⟩ .e4m3 .f32 0 true none) ∧
    decode 0x9CC4 0x0A080001 = .ok (.mxprune 4 ⟨5, false⟩ ⟨2, false⟩ 1) ∧ decode 0x9D00 0x08140A78 = .ok (.mxst ⟨4, false⟩ ⟨5, false⟩ ⟨1, false⟩ true .bf16) ∧ decode 0x9E82 0x00000100 = .ok (.bwait 2) := by decide +kernel
/-- R103, R137, R282, R498: a tail length that the OP does not have, LD.D with U, a bit that must be 0 and an OP without an instruction are refused by reason. -/
theorem test_words_refused : decode 0x4C40 0 = .error .tailLength ∧ decode 0x8C03 0x08700010 = .error .codedField ∧ decode 0x8805 0x0C001000 = .error .mustBeZero ∧ decode 0x1FC0 0 = .error .opUnassigned := by decide +kernel

/-! ## The checks of a well-formed instruction -/

/-- One ill-formed term for each check that relates fields (R140). -/
theorem test_wf_fields : (Instr.bcc ⟨5, false⟩ ⟨7, false⟩ .z .none 0 0).wf = false ∧ (Instr.start 5 ⟨0, true⟩ 0).wf = false ∧ (Instr.ld 3 ⟨4, false⟩ .d true false 0).wf = false ∧ (Instr.ldx 3 ⟨4, false⟩ ⟨5, false⟩ 0 .d true false).wf = false ∧
    (Instr.gath 1 ⟨4, false⟩ ⟨2, false⟩ none 0 true .w).wf = false ∧ (Instr.ldf 5 ⟨4, false⟩ 5).wf = false ∧ (Instr.sopenF 16 ⟨4, false⟩ false).wf = false ∧ (Instr.speek 5 16).wf = false ∧ (Instr.qadd ⟨4, false⟩ 0 .f32).wf = false ∧
    (Instr.qaddi 0 .f32 1).wf = false ∧ (Instr.qgath 1 ⟨4, false⟩ 0 .i64).wf = false ∧ (Instr.qscat 1 ⟨4, false⟩ 0 .i64).wf = false ∧ (Instr.mxprune 4 ⟨4, false⟩ ⟨2, false⟩ 1).wf = false ∧ (Instr.wlpop 5 ⟨4, false⟩ 5 0).wf = false ∧
    (Instr.mtcr ⟨4, false⟩ .pc).wf = false := by decide
/-- One for each check of a type (R332, R342, R365), and of a mode (R373). -/
theorem test_wf_types : ((VType.e4m3, false) :: [(VType.f32, true), (.i8, true)]).all (fun p => (Instr.vadd 1 ⟨2, false⟩ ⟨3, false⟩ p.1 none).wf == p.2) = true ∧
    [Instr.vsub, .vmul, .vmin, .vmax, .vabsd].all (fun f => !(f 1 ⟨2, false⟩ ⟨3, false⟩ .e5m2 none).wf) = true ∧ [Instr.vmulh, .vand, .vor, .vxor, .vandn, .vshl, .vshr, .vsra].all (fun f => !(f 1 ⟨2, false⟩ ⟨3, false⟩ .f16 none).wf) = true ∧
    [Instr.vfma, .vfms, .vdot4, .vdiv].all (fun f => !(f 1 ⟨2, false⟩ ⟨3, false⟩ .i16 none).wf) = true ∧ (Instr.vsort 1 ⟨2, false⟩ .asc .e5m2 none).wf = false ∧ (Instr.bcenc 1 ⟨2, false⟩ 5 .i8).wf = false ∧ (Instr.bcdec 1 ⟨2, false⟩ ⟨5, false⟩ .i8).wf = false ∧ (Instr.vcmp (.p 1) ⟨2, false⟩ ⟨3, false⟩ .lt .e4m3 none).wf = false ∧ (Instr.vredadd 5 ⟨2, false⟩ .e4m3 none).wf = false ∧
    (Instr.vredmin 5 ⟨2, false⟩ .e4m3 none).wf = false ∧ (Instr.vredmax 5 ⟨2, false⟩ .e4m3 none).wf = false ∧ (Instr.vredor 5 ⟨2, false⟩ .f32 none).wf = false ∧ (Instr.vscan 6 ⟨2, false⟩ .or .f32 none).wf = false ∧
    [Instr.vrcp, .vrsq, .vexp2, .vlog2, .vsqrt].all (fun f => !(f 1 ⟨2, false⟩ .i32 none).wf) = true ∧ (Instr.vcvt 7 ⟨2, false⟩ .f16 .f32 2 true none).wf = false ∧
    (Instr.mxst ⟨4, false⟩ ⟨5, false⟩ ⟨1, false⟩ true .n8).wf = false ∧ (Instr.coll 4 ⟨3, false⟩ 0 (.arr 2)).wf = false := by decide
/-! ## Results -/

/-- The call example of the scalar chapter (R272 to R275). -/
theorem test_call_li : after (.li 8 0x89ABCDEF) (regs []) 8 = some 0xFFFFFFFF89ABCDEF ∧ after (.lih 8 0x1234567) (regs [(8, 0xFFFFFFFF89ABCDEF)]) 8 = some 0x0123456789ABCDEF := by decide +kernel
theorem test_call_slots : after (.addi 9 ⟨8, false⟩ 1) (regs [(8, 0x0123456789ABCDEF)]) 9 = some 0x0123456789ABCDF0 ∧ after (.srai 10 ⟨8, false⟩ 36) (regs [(8, 0x0123456789ABCDEF)]) 10 = some 0x123456 := by decide +kernel
theorem test_call_body : after (.addW 4 ⟨8, false⟩ ⟨0, false⟩) (regs [(8, 0x0123456789ABCDEF)]) 4 = some 0xFFFFFFFF89ABCDEF ∧ after (.clz 5 ⟨10, false⟩) (regs [(10, 0x123456)]) 5 = some 43 ∧
    after (.add 3 ⟨9, false⟩ ⟨10, false⟩) (regs [(9, 0x0123456789ABCDF0), (10, 0x123456)]) 3 = some 0x0123456789BE0246 := by decide +kernel
/-- R143, R144: the examples of division, and division by 0 and of −2⁶³ by −1. -/
theorem test_div : after (.div 5 ⟨3, false⟩ ⟨4, false⟩) (regs [(3, 7), (4, -2)]) 5 = some (-3) ∧ after (.rem 5 ⟨3, false⟩ ⟨4, false⟩) (regs [(3, 7), (4, -2)]) 5 = some 1 ∧ after (.div 5 ⟨3, false⟩ ⟨4, false⟩) (regs [(3, -7), (4, 2)]) 5 = some (-3) ∧
    after (.rem 5 ⟨3, false⟩ ⟨4, false⟩) (regs [(3, -7), (4, 2)]) 5 = some (-1) := by decide +kernel
theorem test_div_corners : after (.divu 5 ⟨3, false⟩ ⟨4, false⟩) (regs [(3, 7)]) 5 = some 0xFFFFFFFFFFFFFFFF ∧ after (.remu 5 ⟨3, false⟩ ⟨4, false⟩) (regs [(3, 7)]) 5 = some 7 ∧
    after (.div 5 ⟨3, false⟩ ⟨4, false⟩) (regs [(3, 0x8000000000000000), (4, -1)]) 5 = some 0x8000000000000000 ∧ after (.rem 5 ⟨3, false⟩ ⟨4, false⟩) (regs [(3, 0x8000000000000000), (4, -1)]) 5 = some 0 ∧
    divCycles false 1000 3 = 13 := by decide +kernel
/-- R277: the examples of BFX and BFXU at the top of the register; BFI drops the bits past 63. -/
theorem test_bitfield : after (.bfxu 5 ⟨6, false⟩ 7 60) (regs [(6, 0xA000000000000001)]) 5 = some 0xA ∧ after (.bfx 5 ⟨6, false⟩ 7 60) (regs [(6, 0xA000000000000001)]) 5 = some 0xFFFFFFFFFFFFFFFA ∧
    after (.bfi 5 ⟨6, false⟩ 7 60) (regs [(5, 1), (6, 0xFF)]) 5 = some 0xF000000000000001 := by decide +kernel
/-- R145: only the low six bits of a shift amount count. -/
theorem test_shift : after (.shl 5 ⟨3, false⟩ ⟨4, false⟩) (regs [(3, 3), (4, 65)]) 5 = some 6 ∧ after (.sra 5 ⟨3, false⟩ ⟨4, false⟩) (regs [(3, 0x8000000000000000), (4, 64)]) 5 = some 0x8000000000000000 := by decide +kernel
/-- R282: a byte is sign-extended unless U is set; R283: ST.H stores the low half (R2: little-endian). -/
theorem test_load_byte : after (.ld 5 ⟨3, false⟩ .b false false 0) (at0 (gs [(3, 0x1000)]) (spad 0x1000 1 0x80)) 5 = some 0xFFFFFFFFFFFFFF80 ∧ after (.ld 5 ⟨3, false⟩ .b true false 0) (at0 (gs [(3, 0x1000)]) (spad 0x1000 1 0x80)) 5 = some 0x80 := by
  decide +kernel
theorem test_store_half : obs (.st 5 ⟨3, false⟩ .h false 2) (regs [(3, 0x1000), (5, 0x12345678)]) (fun t => (t.home.spad.read 0x1002, t.home.spad.read 0x1003, t.home.spad.read 0x1004)) = some (0x78, 0x56, 0) := by decide +kernel
/-- The lock of the memory chapter (R290): CAS.D g9, [g4], g10, g0 takes the lock 0 → 1 and answers 0; a held lock is left. -/
theorem test_cas : obs (.cas 9 ⟨4, false⟩ ⟨10, false⟩ ⟨0, false⟩ true) (regs [(4, 0x1000), (10, 1)]) (fun t => (t.me.prods.map (·.dests), t.home.spad.readN 0x1000 8)) = some ([[.g 9 0]], 1) ∧
    obs (.cas 9 ⟨4, false⟩ ⟨10, false⟩ ⟨0, false⟩ true) (at0 (gs [(4, 0x1000), (10, 1)]) (spad 0x1000 8 7)) (fun t => (t.me.prods.map (·.dests), t.home.spad.readN 0x1000 8)) = some ([[.g 9 7]], 7) := by decide +kernel
/-- R314: MTOG g7, m2, 1 copies bits [127:64] of m2. -/
theorem test_mtog : after (.mtog 7 (.m 2) 1) ((regs []).upd fun t => t.putM (.m 2) (0x77 * 2 ^ 64 + 0x55)) 7 = some 0x77 := by decide +kernel
/-- The lanes 1.0, 2^-24, 2^-24, -1.0 of the vector example, and zeros (R164, R344). -/
def lanes4 : State := (regs []).upd fun t => { t with v := t.v.set 2 0xBF80000033800000338000003F800000 }
theorem test_reduce : after (.vredadd 5 ⟨2, false⟩ .f32 none) lanes4 5 = some 0x33800000 := by decide +kernel
theorem test_scan : obs (.vscan 6 ⟨2, false⟩ .add .f32 none) lanes4 (fun t => t.me.v[6]) = some 0x3F8000003F8000003F800000 := by decide +kernel
/-- R342: VCVT.E4M3.F32.SAT of 500.0 gives the largest finite code, 448 (R146). -/
theorem test_vcvt : obs (.vcvt 7 ⟨2, false⟩ .e4m3 .f32 0 true none) ((regs []).upd fun t => { t with v := t.v.set 2 0x43FA0000 }) (fun t => t.me.v[7].toNat % 256) = some 0x7E := by decide +kernel
/-- The example of R363: row 1 of quarter 1, group 2 of MXPRUNE.I8 v4, v5, v2, 1 keeps −7, 7, −128, 7 with the indices 1, 2, 4 and 6. -/
theorem test_mxprune : obs (.mxprune 4 ⟨5, false⟩ ⟨2, false⟩ 1) ((regs []).upd fun t => { t with v := t.v.set 2 (BitVec.ofNat 1024 (0x070703800007F905 * 2 ^ 384)) })
    (fun t => (t.me.v[4].toNat / 2 ^ (8 * 88) % 2 ^ 32, t.me.v[5].toNat / 2 ^ 264 % 2 ^ 12)) = some (0x078007F9, 0xD11) := by decide +kernel
/-- The example after R166: 2^40, 1.0 and −2^40 added to +0 in an order give 1.0. -/
theorem test_exact : exactApply 0 (entAdd .add .f32 (entAdd .add .f32 (entNew .add .f32 0x53800000 0 0 0) 0x3F800000 0 0 0) 0xD3800000 0 0 0) = 0x3F800000 := by decide +kernel
/-- The example of R491: at 100 °C TF is 136, and a cluster with ECAP 800 receives 425 units. -/
theorem test_thermal : thermalFactor 800 = 136 ∧ 800 * thermalFactor 800 / 256 = 425 := by decide +kernel
/-- The example of R22: at 430 mV a nominal part runs at 2.025 GHz. -/
theorem test_clock : 75 * ({ Die.reset 0 with setpoint := 430, vmin := 450 } : Die).clock = 2025 := by decide +kernel
/-- The window of R251's example: cluster 6, EGRANT 40, EREM 10, URGENCY 22,500, three idle cores, and the records D, C, A, B. -/
def rcd (cls deadline ewt : Nat) : Record := ((Vector.replicate 8 0).set 3 (BitVec.ofNat 64 deadline)).set 4 (BitVec.ofNat 64 (cls * 2 ^ 32 + ewt * 2 ^ 36))
def window6 (erem : Int) (time : Nat) (d : List Record) : State :=
  { State.reset with time := time, boot := ⟨4, 1, 0, 0, 0, false, true⟩, clusters := [(6, { Cluster.reset with
      egrant := 40, erem := erem, urgency := 22500, quar := #v[0xFFFFFFFFFFFFFFF8, 0xFFFFFFFFFFFFFFFF, 0xFFFFFFFFFFFFFFFF]
      qs := (((Cluster.reset.qs.set 9 ⟨0, 2, true, d, 0, 0⟩).set 0 ⟨0, 0, true, [rcd 0 400000 12], 0, 0⟩).set 2 ⟨0, 1, true, [rcd 1 150000 6], 0, 0⟩).set 5 ⟨0, 1, true, [rcd 1 150000 3], 0, 0⟩ })] }
/-- D, overdue, is placed; then C does not fit and blocks the others; A is placed when it becomes urgent. -/
theorem test_window_first : (match (window6 10 100000 [rcd 2 98000 4]).selectSlice 6 with | .one c _ _ => some c.rec_ | _ => none) = some (rcd 2 98000 4) := by decide +kernel
theorem test_window_blocked : (window6 6 100001 []).selectSlice 6 = .nothing := by decide +kernel
theorem test_window_urgent : (match (window6 4 127500 []).selectSlice 6 with | .one c _ _ => some (c.q, charge c.rec_ 40) | _ => none) = some (2, 6) := by decide +kernel
/-- The member example (R308, R309): keys 10, 30, 99, 50 against 40 under m0 = 0b1011 give p1 = 0b0011; QADDI adds 1 to the depths of members 0, 1 and 3. -/
def rows4 : State := at0 (fun c => ({ gs [(6, 40)] c with qgd := BitVec.ofNat 64 (aperBase + 0x40), qbase := BitVec.ofNat 64 (aperBase + 0x1000), qcount := 4, qstride := 16 } : Ctx).putM (.m 0) 11)
  (spad 0x40 32 (0x1000 + 16 * 2 ^ 64 + 4 * 2 ^ 80 + 0x50100 * 2 ^ 128) ∘ spad 0x1000 2 0x0A ∘ spad 0x1010 2 0x1E ∘ spad 0x1020 2 0x63 ∘ spad 0x1030 2 0x32)
theorem test_qcmp : obs (.qcmp (.p 1) ⟨6, false⟩ 0 .n16 .lt) rows4 (fun t => t.me.getM (.p 1)) = some 3 := by decide +kernel
theorem test_qaddi : obs (.qaddi 2 .n8 1) rows4 (fun t => (t.home.spad.read 0x1002, t.home.spad.read 0x1012, t.home.spad.read 0x1022, t.home.spad.read 0x1032)) = some (1, 1, 0, 1) := by decide +kernel
/-- The stream example (R327): after its steps 1 to 3, SISECT consumes the 9 of its first fibre; then it meets 14 twice, adds 1 to g9 and consumes both. -/
def resumed (a : List Nat) : State := at0 (fun c => slot 1 (fib false 9 [14, 21] 2) (slot 0 (fib false 8 a a.length) (gs [(9, 1)] c))) id
def walked (a : List Nat) : Option (Word × Nat × List Nat × List Nat) := obs (.sisect 9 40 41 0) (resumed a) fun t => (t.me.getG 9, t.me.slots[0].left, t.me.slots[0].buf.map (·.x), t.me.slots[1].buf.map (·.x))
theorem test_sisect_lower : walked [9, 14, 20] = some (1, 2, [14, 20], [14, 21]) := by decide +kernel
theorem test_sisect_equal : walked [14, 20] = some (2, 1, [20], [21]) := by decide +kernel

/-- One state meets the hypotheses shared by the completions of StepGoesOn, and of each clause those that a context at U with nothing on its way can meet; the fibres, the stopped tag, the
levels above U and the answers that are awaited are those of witness_SisectSmerge_slots, witness_EngineResult_tag, witness_SyncResult, witness_WorklistResult, witness_TrapReturn and
witness_SystemForms. -/
theorem witness_StepGoesOn : Instr.isEvent .powerOn = true ∧ (5 : GReg) ≠ 6 ∧ (∀ v, (slicing id).me.stackBad 5 v = false ∧ (slicing id).me.stackBad 6 v = false) ∧
    ((slicing id).plain [.g 5, .g 6, .g 3, .g 4, .g 7] = true ∧ (slicing id).me.ldnm = false ∧ (slicing id).pairsOut 0 0 = false ∧ isMiz (slicing id).act = false) ∧
    ((slicing id).inSpad ((slicing id).me.getG 3) 64 ∧ ((slicing id).me.getG 3).toNat % 128 = 0) ∧
    ((slicing id).home.lockedOver 0 0x1000 0x100 = false ∧ (slicing id).home.winBusy 0 (slicing id).time = false ∧ ((slicing id).tag 0 5).st = .idle) ∧
    ((slicing id).home.outstanding 2 0 = 0 ∧ ((slicing id).me.getG 4).toNat % 256 = 0 ∧ ((slicing id).home.mtx[(3 : Fin 8)]).owner = none ∧ ((slicing id).home.mtx[(3 : Fin 8)]).waiters = []) ∧
    ((slicing id).me.sendopen = false ∧ (slicing id).niBusy 0 0 = false ∧ (slicing id).actx = 0 ∧ (slicing id).me.priv = 0 ∧ cregLevel .fflags ≤ (slicing id).me.priv) :=
  ⟨rfl, by decide, fun _ => ⟨rfl, rfl⟩, by decide +kernel, ⟨inSpad_plain (by decide +kernel) (by decide +kernel) rfl rfl, by decide +kernel⟩, by decide +kernel, by decide +kernel,
   by decide +kernel⟩

end Sys2Proof.Tests
end

section
/-!
SUPPORT. What a fetch can change: it reads memory at its home and fills what a core holds of memory, and touches nothing else of any core but the moment of the next issue.
-/

namespace Sys2Proof.Machine

/-! ## What reads at the home leave -/

/-- A context without the moment from which it may issue again (R436). -/
def Ctx.unwoken (t : Ctx) : Ctx := { t with wake := 0 }

/-- A core without what fetches change of it: what it holds of memory (L1, windows, the note of words held in other cores, TLB and instruction cache), and the moments from which its
contexts may issue again. -/
def Core.bare (c : Core) : Core :=
  { c with ctxs := c.ctxs.map Ctx.unwoken, l1 := [], wins := Vector.replicate _ none, away := [], tlb := [], icache := [] }

/-- The issuing context, and every core without what fetches change of it. -/
def State.bare (s : State) : Nat × Fin 11 × (Nat → Core) := (s.act, s.actx, fun k => (s.core k).bare)

theorem State.bare_eq_of_cores {s t : State} (ha : t.act = s.act) (hx : t.actx = s.actx) (hc : t.cores = s.cores) : t.bare = s.bare := by
  simp [State.bare, State.core, ha, hx, hc]

theorem State.bare_modCore (s : State) (k : Nat) {f : Core → Core} (hf : ∀ c, (f c).bare = c.bare) : (s.modCore k f).bare = s.bare := by
  have hc : ∀ j, ((s.modCore k f).core j).bare = (s.core j).bare := fun j => by
    by_cases h : k = j
    · subst h; rw [State.core_modCore, hf]
    · rw [State.core_modCore_ne _ _ h]
  simp [State.bare, hc]

theorem State.bare_modCtx_wake (s : State) (k : Nat) (x : Fin 11) (f : Ctx → Nat) : (s.modCtx k x fun t => { t with wake := f t }).bare = s.bare := by
  refine s.bare_modCore k (f := fun c => c.setCtx x { c.ctx x with wake := f (c.ctx x) }) fun c => ?_
  have hs : (c.ctxs.set x { c.ctx x with wake := f (c.ctx x) }).map Ctx.unwoken = c.ctxs.map Ctx.unwoken := by
    rw [Vector.map_set, show Ctx.unwoken { c.ctx x with wake := f (c.ctx x) } = (c.ctxs.map Ctx.unwoken)[x.val] by simp [Ctx.unwoken, Core.ctx]]
    exact Vector.set_getElem_self _
  rw [Core.bare, Core.bare, Core.setCtx, hs]

@[simp] theorem State.bare_modDie (s : State) (d : Nat) (f : Die → Die) : (s.modDie d f).bare = s.bare := rfl
@[simp] theorem State.bare_modCluster (s : State) (c : Nat) (f : Cluster → Cluster) : (s.modCluster c f).bare = s.bare := rfl
@[simp] theorem State.bare_setWord (s : State) (w x : Nat) : (s.setWord w x).bare = s.bare := rfl
@[simp] theorem State.bare_unpoison (s : State) (pa n : Nat) : (s.unpoison pa n).bare = s.bare := rfl
@[simp] theorem State.bare_dirFree (s : State) (w : Nat) : (s.dirFree w).bare = s.bare := rfl
@[simp] theorem State.bare_mapCopies (s : State) (k : Nat) (f : Copy → Option Copy) : (s.modCore k (Core.mapCopies f)).bare = s.bare :=
  s.bare_modCore k fun _ => rfl
@[simp] theorem State.bare_coreFill (s : State) (k : Nat) (t : Tlb) : (s.coreFill k t).bare = s.bare := s.bare_modCore k fun _ => rfl

@[simp] theorem State.bare_post (s : State) (e : Ev) : (s.post e).bare = s.bare := by
  unfold State.post
  split <;> rfl

/-- A fold of steps that leave the bare cores leaves them. -/
theorem State.bare_foldl {α : Type} {f : State → α → State} (l : List α) (s : State) (hf : ∀ s a, (f s a).bare = s.bare) : (l.foldl f s).bare = s.bare := by
  induction l generalizing s with
  | nil => rfl
  | cons a t ih => exact (ih _).trans (hf s a)

@[simp] theorem State.bare_markPoison (s : State) (w n : Nat) : (s.markPoison w n).bare = s.bare := by
  induction n generalizing s w with
  | zero => rfl
  | succ n ih => exact ih _ _

/-! ## Copies that are recalled -/

@[simp] theorem State.bare_dirClean (s : State) (w k : Nat) : (s.dirClean w k).bare = s.bare := by
  unfold State.dirClean
  split <;> rfl

@[simp] theorem State.bare_dirLose (s : State) (w k : Nat) : (s.dirLose w k).bare = s.bare := by
  unfold State.dirLose
  split <;> rfl

@[simp] theorem State.bare_putBack (s : State) (k : Nat) (y : Copy) : (s.putBack k y).bare = s.bare := by
  unfold State.putBack
  split <;> simp

@[simp] theorem State.bare_backOnly (s : State) (k : Nat) (p : Copy → Bool) : (s.backOnly k p).bare = s.bare := by
  simp only [State.backOnly]
  split
  · rfl
  · rw [State.bare_mapCopies]
    exact State.bare_foldl _ s fun t y => t.bare_putBack k y

@[simp] theorem State.bare_siFlush (s : State) (k : Nat) : (s.siFlush k).bare = s.bare := by
  refine State.bare_foldl _ s fun t j => ?_
  simp only
  split
  · exact t.bare_backOnly j _
  · refine (State.bare_modCore _ j ?_).trans (t.bare_backOnly j _)
    exact fun _ => rfl

@[simp] theorem State.bare_writeBack (s : State) (k : Nat) (p : Copy → Bool) : (s.writeBack k p).bare = s.bare := by
  unfold State.writeBack
  split <;> simp

@[simp] theorem State.bare_snoopLost (s : State) (k w : Nat) : (s.snoopLost k w).bare = s.bare := by
  simp only [State.snoopLost]
  split <;> simp

@[simp] theorem State.bare_recall (s : State) (but : Option Nat) (w : Nat) : (s.recall but w).bare = s.bare := by
  unfold State.recall
  split
  · split
    · rfl
    · split <;> simp
  · rfl

/-! ## Pages that are applied -/

@[simp] theorem State.bare_binAdd (s : State) (page off v time core lane : Nat) : (s.binAdd page off v time core lane).bare = s.bare := by
  unfold State.binAdd
  split <;> rfl

@[simp] theorem State.bare_recallPartials (s : State) (page : Nat) : (s.recallPartials page).bare = s.bare := by
  have landed := State.bare_foldl (s.flight.filter fun p => p.part && pageOf p.pa == page) s fun t (p : Pair) => t.bare_binAdd page (p.pa % 4096) p.x.toNat 0 0 0
  refine (State.bare_foldl _ _ fun t e => ?_).trans landed
  simp only
  split
  · refine (State.bare_modCore _ e.1 ?_).trans (State.bare_foldl _ t fun u y => u.bare_binAdd page _ _ 0 0 0)
    exact fun _ => rfl
  · rfl

/-- Words that an error has hit are poisoned, and reported (R477). -/
theorem State.bare_poisonedIf (p : Prop) [Decidable p] (s : State) (w n : Nat) (e : Ev) : (if p then (s.markPoison w n).post e else s).bare = s.bare := by
  split <;> simp

@[simp] theorem State.bare_applyPage (s : State) (page : Nat) : (s.applyPage page).bare = s.bare := by
  unfold State.applyPage State.applyAs
  split
  · rfl
  · simp only
    split
    · exact s.bare_recallPartials page
    · split
      · exact s.bare_recallPartials page
      · refine (State.bare_poisonedIf _ _ _ _ _).trans (Eq.trans ?_ (s.bare_recallPartials page))
        split
        · exact State.bare_foldl _ _ fun _ _ => rfl
        · rfl

@[simp] theorem State.bare_touch (s : State) (pa : Nat) : (s.touch pa).bare = s.bare := by
  unfold State.touch State.l2Use
  split <;> simp

@[simp] theorem State.bare_homeRecall (s : State) (w n : Nat) : (s.homeRecall w n).bare = s.bare := by
  induction n generalizing s w with
  | zero => rfl
  | succ n ih => exact (ih _ _).trans (s.bare_recall none w)

@[simp] theorem State.bare_homeRead (s : State) (pa n : Nat) : (s.homeRead pa n).2.bare = s.bare :=
  (State.bare_homeRecall _ _ _).trans (State.bare_foldl _ s fun t _ => t.bare_touch _)

/-! ## Translations -/

/-- The reads of a group of entries, each of which gives one more. -/
theorem State.bare_group (at_ : Nat → Nat) (l : List Nat) (acc : List Nat × State) :
    (l.foldl (fun (acc : List Nat × State) i => (acc.1 ++ [(acc.2.homeRead (at_ i) 8).1], (acc.2.homeRead (at_ i) 8).2)) acc).2.bare = acc.2.bare := by
  induction l generalizing acc with
  | nil => rfl
  | cons i t ih => exact (ih _).trans (State.bare_homeRead _ _ _)

@[simp] theorem State.bare_walk (asid va left table : Nat) (s : State) : (State.walk asid va left table s).2.bare = s.bare := by
  induction left generalizing s table with
  | zero => rfl
  | succ n ih =>
    have hr := s.bare_homeRead (table + 8 * bits va (48 - 9 * (4 - n)) 9) 8
    unfold State.walk
    simp only
    split
    · rfl
    split
    · exact hr
    split
    · exact hr
    split
    · split
      · exact hr
      · exact (ih _ _).trans hr
    · split
      · exact (State.bare_group _ _ _).trans hr
      · exact hr

@[simp] theorem State.bare_root (s : State) (cl asid : Nat) : (s.root cl asid).2.bare = s.bare := by
  unfold State.root
  split
  · rfl
  · simp only
    split <;> simp

@[simp] theorem State.bare_pageWalk (s : State) (cl asid va : Nat) : (s.pageWalk cl asid va).2.bare = s.bare := by
  have hr := s.bare_root cl asid
  unfold State.pageWalk
  split
  · next e => rw [e] at hr; exact hr
  · next r u e =>
    rw [e] at hr
    have hw := State.bare_walk asid va 4 r u
    split
    · next e => rw [e] at hw; exact hw.trans hr
    · next e => rw [e] at hw; exact hw.trans hr

@[simp] theorem State.bare_translate (s : State) (k asid va : Nat) : (s.translate k asid va).2.bare = s.bare := by
  have hp := s.bare_pageWalk (clusterOf k) asid va
  unfold State.translate
  split
  · rfl
  · split
    · exact s.bare_coreFill k _
    · split
      · next e => rw [e] at hp; exact hp
      · next e => rw [e] at hp; simpa using hp

/-! ## Fetches -/

@[simp] theorem State.bare_transFetch (s : State) (k : Nat) (x : Fin 11) (a : Nat) : (s.transFetch k x a).2.bare = s.bare := by
  unfold State.transFetch
  split
  · rfl
  · exact s.bare_translate k _ a

@[simp] theorem State.bare_lineFor (s : State) (k line : Nat) : (s.lineFor k line).2.bare = s.bare := s.bare_homeRead _ _

@[simp] theorem State.bare_fetchLine (s : State) (k : Nat) (x : Fin 11) (a : Nat) : (s.fetchLine k x a).2.bare = s.bare := by
  have ht := s.bare_transFetch k x a
  simp only [State.fetchLine]
  split
  · rfl
  split
  · next e => rw [e] at ht; exact ht
  next t u e =>
  rw [e] at ht
  split
  · exact ht
  split
  · exact ht
  split
  · exact ht
  split
  · exact ht
  split
  · exact ht
  · have held : ((u.lineFor k (t.at a / 64)).2.modCore k fun c =>
        { c with icache := ((t.at a / 64, BitVec.ofNat 512 (u.lineFor k (t.at a / 64)).1) :: c.icache).take icacheSize }).bare = u.bare := by
      rw [State.bare_modCore _ k (by exact fun _ => rfl), State.bare_lineFor]
    exact (State.bare_modCtx_wake _ k x _).trans (held.trans ht)

@[simp] theorem State.bare_nextHead (s : State) (k : Nat) (x : Fin 11) (a : Nat) : (s.nextHead k x a).2.bare = s.bare := by
  have hf := s.bare_fetchLine k x a
  unfold State.nextHead
  split <;> next e => rw [e] at hf; exact hf

/-! ## What an instruction that has fetched still sees -/

theorem Core.ctx_bare (c : Core) (x : Fin 11) : c.bare.ctx x = (c.ctx x).unwoken := by
  simp [Core.bare, Core.ctx]

/-- A register is full and out of stream mode whatever has been fetched. -/
theorem State.plainRef_of_bare {s t : State} (h : t.bare = s.bare) (r : Ref) : t.plainRef r = s.plainRef r := by
  obtain ⟨ha, hx, hc⟩ : t.act = s.act ∧ t.actx = s.actx ∧ (fun k => (t.core k).bare) = fun k => (s.core k).bare := by simpa [State.bare] using h
  have hb : t.home.bare = s.home.bare := by
    rw [State.home, State.home, ha]
    exact congrFun hc s.act
  have hm : t.me.unwoken = s.me.unwoken := by
    rw [State.me, State.me, State.ctx, State.ctx, ← Core.ctx_bare, ← Core.ctx_bare, hx]
    exact congrArg (Core.ctx · s.actx) hb
  cases r with
  | g r =>
    have hg := congrArg (fun c : Ctx => c.gFull r && (c.slotG r).isNone) hm
    exact hg
  | v r =>
    have hv := congrArg (fun c : Ctx => c.vFull r && (c.slotV r).isNone) hm
    exact hv
  | z r =>
    have hz := congrArg (fun c : Core => c.tiles[r].full) hb
    exact hz

theorem State.plainRef_nextHead (s : State) (k : Nat) (x : Fin 11) (a : Nat) (r : Ref) : (s.nextHead k x a).2.plainRef r = s.plainRef r :=
  State.plainRef_of_bare (s.bare_nextHead k x a) r

end Sys2Proof.Machine
end

section
/-!
PROOF. Branches, jumps, calls and returns (R263 to R265): the conditions and targets that the meanings compute are those of the statement, and each meaning completes.
-/

namespace Sys2Proof.Machine

/-! ## Conditions and targets -/

theorem condHolds_eq (cc : Cond) (a b : Word) : condHolds cc a b = condTrue cc a b := by
  cases cc with
  | ge => exact (decide_eq_decide.mpr Int.not_lt.symm).trans decide_not
  | geu => exact (decide_eq_decide.mpr Nat.not_lt.symm).trans decide_not
  | eq | ne | lt | ltu | z | nz => rfl

/-- The 48 low bits of an integer, as the machine takes an address modulo 2^48 and as a bit vector. -/
theorem w64_emod_vaTop (z : Int) : w64 (z % (vaTop : Int)).toNat = ((BitVec.ofInt 64 z).setWidth 48).setWidth 64 := by
  apply BitVec.eq_of_toNat_eq
  simp only [w64, vaTop, BitVec.toNat_setWidth, BitVec.toNat_ofNat, BitVec.toNat_ofInt]
  omega

theorem ofNat_lineBase (pc : Word) : BitVec.ofNat 64 (lineBase pc.toNat) = pc &&& ~~~63 := by
  rw [show (~~~63 : Word) = BitVec.allOnes 64 <<< 6 by decide, ← BitVec.shiftLeft_ushiftRight, ushiftRight_eq_ofNat, shiftLeft_eq_ofNat]
  apply BitVec.eq_of_toNat_eq
  simp [lineBase]

/-- A line-relative target, from a line offset of up to 64 bits and a head index (R110, R111). -/
theorem lineTarget_eq {n m : Nat} (pc : Word) (loff : BitVec n) (hidx : BitVec m) (h0 : 0 < n) (hn : n ≤ 64) :
    lineTarget pc loff.toNat n hidx.toNat = lineAt pc (loff.signExtend 64) (hidx.setWidth 64) := by
  have hl : BitVec.ofInt 64 (sextN loff.toNat n) = loff.signExtend 64 := sext64_imm loff h0 hn
  have hh : BitVec.ofNat 64 hidx.toNat = hidx.setWidth 64 := by simp
  rw [lineTarget, w64_emod_vaTop, lineAt]
  simp only [BitVec.ofInt_add, BitVec.ofInt_mul, BitVec.ofInt_natCast, hl, hh, ofNat_lineBase]
  rw [BitVec.mul_comm (BitVec.ofInt 64 64), BitVec.mul_comm (BitVec.ofInt 64 2)]
  rfl

theorem longTarget_eq (pc : Word) (imm : BitVec 32) :
    longTarget pc imm = lineAt pc ((imm.setWidth 27).signExtend 64) ((imm.extractLsb' 27 5).setWidth 64) := by
  rw [← lineTarget_eq pc (imm.setWidth 27) (imm.extractLsb' 27 5) (by decide) (by decide), longTarget]
  simp [bits, Nat.shiftRight_eq_div_pow]

/-! ## The link -/

theorem X.linkAddr_apply (s : State) :
    linkAddr s = .ok (BitVec.ofNat 64 (s.nextHead s.act s.actx s.me.n2.toNat).1, (s.nextHead s.act s.actx s.me.n2.toNat).2) := rfl

/-- The state in which a call has written g63: its line of N2 fetched, and next_head(N2) in the register (R90). -/
def State.linked (s : State) : State :=
  (s.nextHead s.act s.actx s.me.n2.toNat).2.upd fun t => t.setG 63 (BitVec.ofNat 64 (s.nextHead s.act s.actx s.me.n2.toNat).1)

/-- The write of the link, before the rest of a call. -/
theorem link_plain {α : Type} {s : State} (h : s.plainRef (.g 63) = true) (m : X α) : (do wrG 63 (← linkAddr); m) s = m s.linked := by
  have hs := plainRef_slot (r := .g 63) ((s.plainRef_nextHead s.act s.actx s.me.n2.toNat (.g 63)).trans h)
  rw [X.bind_ok (X.linkAddr_apply s), X.bind_ok (wrG_plain hs rfl)]
  rfl

theorem pops_linked {s : State} {rs : List Ref} (h : ∀ r ∈ rs, s.plainRef r = true) : pops rs s.linked = .ok ((), s.linked) :=
  pops_upd fun r hr => (s.plainRef_nextHead _ _ _ r).trans (h r hr)

/-! ## The forms -/

theorem execBcc_plain {s : State} (a b : GSrc) (cc : Cond) (an : Annul) (hidx : BitVec 5) (loff : BitVec 13) (ha : s.plainRef (.g a.r) = true) (hb : s.plainRef (.g b.r) = true) :
    execBcc a b cc an hidx loff s = .next (s.finish
      ⟨condTrue cc (s.me.getG a.r) (s.me.getG b.r), lineAt s.me.pc (loff.signExtend 64) (hidx.setWidth 64), annuls an (condTrue cc (s.me.getG a.r) (s.me.getG b.r))⟩) := by
  have hr : ∀ o ∈ (if condUsesB cc then [a.op 0, b.op 1] else [a.op 0]), s.plainRef o.ref = true := by
    split <;> simp [GSrc.op, ha, hb]
  have hp : ∀ r ∈ (if condUsesB cc then [Ref.g a.r, Ref.g b.r] else [Ref.g a.r]), s.plainRef r = true := by
    split <;> simp [ha, hb]
  refine issue_ok ?_
  rw [X.bind_ok (ready_plain hr), X.bind_ok (X.rdG_apply _ _), X.bind_ok (X.rdG_apply _ _), X.bind_ok (X.cx_apply s), readG_plainRef ha, readG_plainRef hb]
  rw [X.bind_ok (pops_plainRef hp), condHolds_eq, lineTarget_eq _ _ _ (by decide) (by decide)]
  rfl

theorem execJ_eq (imm : BitVec 32) (s : State) :
    execJ imm s = .next (s.finish ⟨true, lineAt s.me.pc ((imm.setWidth 27).signExtend 64) ((imm.extractLsb' 27 5).setWidth 64), false⟩) := by
  refine issue_ok ?_
  rw [X.bind_ok (X.cx_apply s), longTarget_eq]
  rfl

theorem execJr_plain {s : State} (a : GSrc) (ha : s.plainRef (.g a.r) = true) : execJr a s = .next (s.finish ⟨true, s.me.getG a.r, false⟩) := by
  refine issue_ok ?_
  rw [X.bind_ok (ready_plain (by simp [GSrc.op, ha])), X.bind_ok (X.rdG_apply _ _), readG_plainRef ha, X.bind_ok (pops_plainRef (by simp [ha]))]
  rfl

theorem execRet_plain {s : State} (h : s.plainRef (.g 63) = true) : execRet s = .next (s.finish ⟨true, s.me.getG 63, false⟩) := by
  refine issue_ok ?_
  rw [X.bind_ok (ready_plain (by simp [dG, h])), X.bind_ok (X.rdG_apply _ _), readG_plainRef h]
  rfl

theorem execCall_plain {s : State} (imm : BitVec 32) (h : s.plainRef (.g 63) = true) :
    execCall imm s = .next (s.linked.finish ⟨true, lineAt s.me.pc ((imm.setWidth 27).signExtend 64) ((imm.extractLsb' 27 5).setWidth 64), false⟩) := by
  refine issue_ok ?_
  rw [X.bind_ok (ready_plain (by simp [dG, h])), X.bind_ok (X.cx_apply s), link_plain h, longTarget_eq]
  rfl

theorem execCallr_plain {s : State} (a : GSrc) (ha : s.plainRef (.g a.r) = true) (h : s.plainRef (.g 63) = true) :
    execCallr a s = .next (s.linked.finish ⟨true, s.me.getG a.r, false⟩) := by
  refine issue_ok ?_
  rw [X.bind_ok (ready_plain (by simp [GSrc.op, dG, ha, h])), X.bind_ok (X.rdG_apply _ _), readG_plainRef ha, link_plain h, X.bind_ok (pops_linked (by simp [ha]))]
  rfl

end Sys2Proof.Machine

open Sys2Proof Sys2Proof.Machine

/-- Settles O13, form by form: a call's operands are still plain after the fetch of the line of N2 for its link. -/
theorem transferResult : Obligations.TransferResult := by
  unfold Obligations.TransferResult
  refine ⟨fun s a b cc an hidx loff h => ?_, fun s => ⟨fun imm => execJ_eq imm s, fun a h => ?_, fun h => ?_, fun imm h => ?_, fun a h => ?_⟩⟩
  · obtain ⟨ha, hb⟩ : s.plainRef (.g a.r) = true ∧ s.plainRef (.g b.r) = true := by simpa [State.plain] using h
    refine (execBcc_plain a b cc an hidx loff ha hb).trans ?_
    cases an <;> rfl
  · exact execJr_plain a (by simpa [State.plain] using h)
  · exact execRet_plain (by simpa [State.plain] using h)
  · exact execCall_plain imm (by simpa [State.plain] using h)
  · obtain ⟨ha, hl⟩ : s.plainRef (.g a.r) = true ∧ s.plainRef (.g 63) = true := by simpa [State.plain] using h
    exact execCallr_plain a ha hl

end

section
/-!
SUPPORT. The elements of a vector register that is built from a list of them, and the end of a vector form: its destination written, its flags raised, its sources popped.
-/

namespace Sys2Proof.Machine

/-! ## Elements (R333) -/

theorem bits_lt (x lo w : Nat) : bits x lo w < 2 ^ w := Nat.mod_lt _ (Nat.two_pow_pos w)

theorem fld_zero_left (x : Word) (w : Nat) : fld x 0 w = x.toNat % 2 ^ w := by simp [fld, bits]

theorem elem_lt (w : Nat) (x : VWord) (i : Nat) : elem w x i < 2 ^ w := bits_lt _ _ _

/-- A field that lies within N bits is not changed by dropping the bits above them. -/
theorem bits_toNat_ofNat {lo w N : Nat} (x : Nat) (h : lo + w ≤ N) : bits (BitVec.ofNat N x).toNat lo w = bits x lo w := by
  apply Nat.eq_of_testBit_eq
  intro j
  simp only [bits, BitVec.toNat_ofNat, Nat.testBit_mod_two_pow, Nat.testBit_div_two_pow]
  by_cases hj : j < w
  · simp [hj, show j + lo < N by omega]
  · simp [hj]

/-- Field i of a packed list is entry i in w bits, and 0 past the end of the list. -/
theorem bits_packLanes (w : Nat) (xs : List Nat) (i : Nat) : bits (packLanes w xs) (w * i) w = xs[i]?.getD 0 % 2 ^ w := by
  induction xs generalizing i with
  | nil => simp [packLanes, bits]
  | cons x xs ih =>
    have hc : packLanes w (x :: xs) = x % 2 ^ w + 2 ^ w * packLanes w xs := rfl
    cases i with
    | zero => simp [hc, bits]
    | succ i =>
      have hd : (x % 2 ^ w + 2 ^ w * packLanes w xs) / 2 ^ w = packLanes w xs := by
        rw [Nat.add_mul_div_left _ _ (Nat.two_pow_pos w), Nat.div_eq_of_lt (Nat.mod_lt _ (Nat.two_pow_pos w)), Nat.zero_add]
      calc bits (packLanes w (x :: xs)) (w * (i + 1)) w
          = (x % 2 ^ w + 2 ^ w * packLanes w xs) / 2 ^ w / 2 ^ (w * i) % 2 ^ w := by
            rw [hc, bits, Nat.div_div_eq_div_mul, ← Nat.pow_add, Nat.mul_succ, Nat.add_comm w]
        _ = bits (packLanes w xs) (w * i) w := by rw [hd, bits]
        _ = (x :: xs)[i + 1]?.getD 0 % 2 ^ w := ih i

/-- The elements of a type lie within its register. -/
theorem width_mul_count (ty : VType) : ty.width * ty.count = 1024 := by cases ty <;> rfl

theorem elem_ofElems {ty : VType} {i : Nat} (xs : List Nat) (hi : i < ty.count) :
    elem ty.width (ofElems ty.width xs) i = xs[i]?.getD 0 % 2 ^ ty.width := by
  have hfit : ty.width * i + ty.width ≤ 1024 := by
    rw [← width_mul_count ty, ← Nat.mul_succ]
    exact Nat.mul_le_mul_left _ hi
  rw [elem, ofElems, bits_toNat_ofNat _ hfit, bits_packLanes]

/-- A register whose elements are given by a function of the lane. -/
theorem elem_ofElems_range {ty : VType} {f : Nat → Nat} {i : Nat} (hi : i < ty.count) (hf : f i < 2 ^ ty.width) :
    elem ty.width (ofElems ty.width ((List.range ty.count).map f)) i = f i := by
  rw [elem_ofElems _ hi]
  simp [hi, Nat.mod_eq_of_lt hf]

/-- The elements of the lanes of a list, in its order, then zeros. -/
theorem elem_ofElems_map {ty : VType} {l : List Nat} {f : Nat → Nat} {i : Nat} (hi : i < ty.count) (hf : ∀ j, f j < 2 ^ ty.width) :
    elem ty.width (ofElems ty.width (l.map f)) i = (l[i]?.map f).getD 0 := by
  rw [elem_ofElems _ hi, List.getElem?_map]
  cases l[i]? with
  | none => simp
  | some j => exact Nat.mod_eq_of_lt (hf j)

/-! ## Inactive lanes (R333) -/

/-- Results without flags raise none together. -/
theorem flagsOf_eq_zero {l : List (Nat × Flags)} (h : ∀ r ∈ l, r.2 = 0) : flagsOf l = 0 := by
  induction l with
  | nil => rfl
  | cons r l ih =>
    have hr : r.2 = 0 := h r (by simp)
    have hc : flagsOf (r :: l) = l.foldl (fun a q => a ||| q.2) (0 ||| r.2) := rfl
    rw [hc, hr]
    exact ih fun q hq => h q (by simp [hq])

/-- Lanes that raise no flag: the active ones computed, the inactive ones kept. -/
theorem perLane_noFlags (w n : Nat) (act : Nat → Bool) (old : VWord) (f : Nat → Nat) :
    perLane w n act old (fun i => (f i, 0)) = (ofElems w ((List.range n).map fun i => if act i then f i else elem w old i), 0) := by
  refine Prod.ext ?_ (flagsOf_eq_zero fun r hr => ?_)
  · simp only [perLane, List.map_map]
    congr 2
    funext i
    cases h : act i <;> simp [h]
  · obtain ⟨i, -, rfl⟩ := List.mem_map.mp hr
    split <;> rfl

/-! ## Reading and writing plain vector registers -/

theorem readV_plainRef {s : State} {r : VReg} (h : s.plainRef (.v r) = true) : (s.ctx s.act s.actx).readV r = s.me.getV r :=
  readV_plain (plainRef_slot (r := .v r) h)

@[simp] theorem mV_ref (d : VReg) (reads : Bool) : (mV d reads).ref = .v d := by cases reads <;> rfl

theorem oldRef_plain {s : State} {d : VReg} (hd : s.plainRef (.v d) = true) (reads : Bool) : ∀ r ∈ oldRef d reads, s.plainRef r = true := by
  cases reads <;> simp [oldRef, hd]

theorem oldV_plain {s : State} {d : VReg} (hd : s.plainRef (.v d) = true) (reads : Bool) :
    oldV d reads s = .ok (if reads then s.me.getV d else 0, s) := by
  cases reads with
  | false => rfl
  | true => exact congrArg (fun x => Except.ok (x, s)) (readV_plainRef hd)

/-- Only a form with a predicate has inactive lanes, and such a form reads its old destination. -/
theorem kept_elem (t : Ctx) (pr : Option PReg) (w x i : Nat) (z : VWord) :
    (if t.active pr i then x else elem w (if pr.isSome then z else 0) i) = if t.active pr i then x else elem w z i := by
  cases pr <;> rfl

/-- Registers in no stream have nothing to pop once a change has left the slots as they were. -/
theorem pops_of_slots {s u : State} {rs : List Ref} (hu : u.me.slots = s.me.slots) (h : ∀ r ∈ rs, s.plainRef r = true) : pops rs u = .ok ((), u) :=
  pops_plain fun r hr => by
    have hs : u.me.slotOf r = s.me.slotOf r := by cases r <;> simp [Ctx.slotOf, Ctx.slotG, Ctx.slotV, hu]
    exact hs.trans (plainRef_slot (h r hr))

theorem me_upd (s : State) (f : Ctx → Ctx) : (s.upd f).me = f s.me := State.ctx_modCtx _ _ _ _

theorem me_flagged (s : State) (fl : Flags) (n : Nat) : (s.flagged fl n).me = s.me.orFlags (s.time + s.cyc s.act n) fl := me_upd _ _

theorem wrV_plainRef {s : State} {d : VReg} (x : VWord) (hd : s.plainRef (.v d) = true) : wrV d x s = .ok ((), s.upd fun t => t.setV d x) :=
  wrV_plain (plainRef_slot (r := .v d) hd)

/-- The end of a form that raises no flag: its result written, its sources popped. -/
theorem wrV_pops {s : State} {d : VReg} {x : VWord} {rs : List Ref} (hd : s.plainRef (.v d) = true) (h : ∀ r ∈ rs, s.plainRef r = true) :
    (do wrV d x; pops rs) s = .ok ((), s.upd fun t => t.setV d x) := by
  rw [X.bind_ok (wrV_plainRef x hd)]
  exact pops_of_slots (by rw [me_upd, Ctx.setV_slots]) h

theorem putV_plain {s : State} {d : VReg} (r : VWord × Flags) (n : Nat) (hd : s.plainRef (.v d) = true) :
    putV d r n s = .ok ((), (s.upd fun t => t.setV d r.1).flagged r.2 n) := by
  unfold putV
  rw [X.bind_ok (wrV_plainRef r.1 hd)]
  rfl

/-- The end of a form whose flags are in FFLAGS n cycles on (R335). -/
theorem putV_pops {s : State} {d : VReg} {r : VWord × Flags} {n : Nat} {rs : List Ref} (hd : s.plainRef (.v d) = true)
    (h : ∀ q ∈ rs, s.plainRef q = true) : (do putV d r n; pops rs) s = .ok ((), (s.upd fun t => t.setV d r.1).flagged r.2 n) := by
  rw [X.bind_ok (putV_plain r n hd)]
  exact pops_of_slots (by rw [me_flagged, me_upd, Ctx.orFlags_slots, Ctx.setV_slots]) h

end Sys2Proof.Machine
end

section
/-!
PROOF. The vector forms that move elements (R339 to R341): what each writes on plain registers, and which element stands in each lane.
-/

namespace Sys2Proof.Machine

/-! ## The forms -/

theorem execVsel_plain {s : State} {d : VReg} {a b : VSrc} (ty : VType) (p : PReg) (ha : s.plainRef (.v a.r) = true) (hb : s.plainRef (.v b.r) = true)
    (hd : s.plainRef (.v d) = true) :
    execVsel d a b ty p s = .next (s.upd fun t => t.setV d (ofElems ty.width ((List.range ty.count).map fun i =>
      if s.me.active (some p) i then elem ty.width (s.me.getV a.r) i else elem ty.width (s.me.getV b.r) i))).done := by
  refine issueSeq_ok ?_
  rw [X.bind_ok (ready_plain (by simp [VSrc.op, dV, ha, hb, hd])), X.bind_ok (X.rdV_apply _ _), X.bind_ok (X.rdV_apply _ _), X.bind_ok (X.cx_apply s),
    readV_plainRef ha, readV_plainRef hb]
  exact wrV_pops hd (by simp [ha, hb])

theorem execVbcast_plain {s : State} {d : VReg} {a : GSrc} (ty : VType) (pr : Option PReg) (ha : s.plainRef (.g a.r) = true) (hd : s.plainRef (.v d) = true) :
    execVbcast d a ty pr s = .next (s.vectored d (ofElems ty.width ((List.range ty.count).map fun i =>
      if s.me.active pr i then (s.me.getG a.r).toNat % 2 ^ ty.width else elem ty.width (s.me.getV d) i)) 0) := by
  refine issueSeq_ok ?_
  rw [X.bind_ok (ready_plain (by simp [GSrc.op, ha, hd])), X.bind_ok (X.rdG_apply _ _), X.bind_ok (oldV_plain hd _), X.bind_ok (X.cx_apply s),
    readG_plainRef ha, fld_zero_left, perLane_noFlags]
  simp only [kept_elem]
  exact putV_pops hd (by simpa [ha] using oldRef_plain hd pr.isSome)

theorem execVperm_plain {s : State} {d : VReg} {a b : VSrc} (ty : VType) (pr : Option PReg) (ha : s.plainRef (.v a.r) = true)
    (hb : s.plainRef (.v b.r) = true) (hd : s.plainRef (.v d) = true) :
    execVperm d a b ty pr s = .next (s.vectored d (ofElems ty.width ((List.range ty.count).map fun i =>
      if s.me.active pr i then elem ty.width (s.me.getV a.r) (elem ty.width (s.me.getV b.r) i % ty.count) else elem ty.width (s.me.getV d) i)) 0) := by
  refine issueSeq_ok ?_
  rw [X.bind_ok (ready_plain (by simp [VSrc.op, ha, hb, hd])), X.bind_ok (X.rdV_apply _ _), X.bind_ok (X.rdV_apply _ _), X.bind_ok (oldV_plain hd _),
    X.bind_ok (X.cx_apply s), readV_plainRef ha, readV_plainRef hb, perLane_noFlags]
  simp only [kept_elem]
  exact putV_pops hd (by simpa [ha, hb] using oldRef_plain hd pr.isSome)

theorem execVins_plain {s : State} {d : VReg} {a b : GSrc} (ty : VType) (ha : s.plainRef (.g a.r) = true) (hb : s.plainRef (.g b.r) = true)
    (hd : s.plainRef (.v d) = true) :
    execVins d a b ty s = .next (s.upd fun t => t.setV d (ofElems ty.width ((List.range ty.count).map fun i =>
      if i = (s.me.getG b.r).toNat % ty.count then (s.me.getG a.r).toNat % 2 ^ ty.width else elem ty.width (s.me.getV d) i))).done := by
  refine issueSeq_ok ?_
  rw [X.bind_ok (ready_plain (by simp [GSrc.op, sV, ha, hb, hd])), X.bind_ok (X.rdG_apply _ _), X.bind_ok (X.rdG_apply _ _), X.bind_ok (X.rdV_apply _ _),
    readG_plainRef ha, readG_plainRef hb, readV_plainRef hd, fld_zero_left]
  exact wrV_pops hd (by simp [ha, hb, hd])

theorem execVrot_plain {s : State} {d : VReg} {a : VSrc} {b : GSrc} (ty : VType) (ha : s.plainRef (.v a.r) = true) (hb : s.plainRef (.g b.r) = true)
    (hd : s.plainRef (.v d) = true) :
    execVrot d a b ty s = .next (s.upd fun t => t.setV d (ofElems ty.width ((List.range ty.count).map fun i =>
      elem ty.width (s.me.getV a.r) ((i + (s.me.getG b.r).toNat) % ty.count)))).done := by
  refine issueSeq_ok ?_
  rw [X.bind_ok (ready_plain (by simp [VSrc.op, GSrc.op, dV, ha, hb, hd])), X.bind_ok (X.rdV_apply _ _), X.bind_ok (X.rdG_apply _ _), readV_plainRef ha,
    readG_plainRef hb]
  exact wrV_pops hd (by simp [ha, hb])

theorem execVcompress_plain {s : State} {d : VReg} {a : VSrc} (ty : VType) (p : PReg) (ha : s.plainRef (.v a.r) = true) (hd : s.plainRef (.v d) = true) :
    execVcompress d a ty p s = .next (s.upd fun t => t.setV d (ofElems ty.width ((s.me.lanesOn ty (some p)).map (elem ty.width (s.me.getV a.r))))).done := by
  refine issueSeq_ok ?_
  rw [X.bind_ok (ready_plain (by simp [VSrc.op, dV, ha, hd])), X.bind_ok (X.rdV_apply _ _), X.bind_ok (X.cx_apply s), readV_plainRef ha]
  exact wrV_pops hd (by simp [ha])

theorem execVexpand_plain {s : State} {d : VReg} {a : VSrc} (ty : VType) (p : PReg) (ha : s.plainRef (.v a.r) = true) (hd : s.plainRef (.v d) = true) :
    execVexpand d a ty p s =
      .next (s.upd fun t => t.setV d (ofElems ty.width (spread (s.me.active (some p)) (elem ty.width (s.me.getV a.r)) ty.count 0 0))).done := by
  refine issueSeq_ok ?_
  rw [X.bind_ok (ready_plain (by simp [VSrc.op, dV, ha, hd])), X.bind_ok (X.rdV_apply _ _), X.bind_ok (X.cx_apply s), readV_plainRef ha]
  exact wrV_pops hd (by simp [ha])

/-! ## The elements that VEXPAND spreads -/

/-- Position j of a spread from lane i on takes the element after those of the set lanes before it, or 0. -/
theorem spread_getElem? (act : Nat → Bool) (get : Nat → Nat) {n j : Nat} (i k : Nat) (hj : j < n) :
    (spread act get n i k)[j]? = some (if act (i + j) then get (k + (List.range j).countP fun l => act (i + l)) else 0) := by
  induction n generalizing i j k with
  | zero => omega
  | succ n ih =>
    cases j with
    | zero => cases h : act i <;> simp [spread, h]
    | succ j =>
      have hc : (List.range (j + 1)).countP (fun l => act (i + l)) = (List.range j).countP (fun l => act (i + 1 + l)) + if act i then 1 else 0 := by
        rw [List.range_succ_eq_map, List.countP_cons, List.countP_map]
        simp [Function.comp_def, Nat.add_assoc, Nat.add_comm 1]
      have hn := fun m => ih (j := j) (i + 1) m (by omega)
      rw [hc, show i + (j + 1) = i + 1 + j by omega]
      cases h : act i
      · simp [spread, h, hn]
      · simp [spread, h, hn, Nat.add_assoc, Nat.add_comm 1]

end Sys2Proof.Machine

open Sys2Proof Sys2Proof.Machine

/-- Settles O37, form by form: the meaning on plain registers, and the elements of the register that it writes. -/
theorem vectorMoves : Obligations.VectorMoves := by
  unfold Obligations.VectorMoves
  intro s d a b g h ty pr p hp
  obtain ⟨ha, hb, hg, hh, hd⟩ : s.plainRef (.v a.r) = true ∧ s.plainRef (.v b.r) = true ∧ s.plainRef (.g g.r) = true ∧ s.plainRef (.g h.r) = true ∧
      s.plainRef (.v d) = true := by simpa [State.plain] using hp
  refine ⟨⟨_, fun i hi => ?_, execVsel_plain ty p ha hb hd⟩, ⟨_, fun i hi => ?_, execVbcast_plain ty pr hg hd⟩, ⟨_, fun i hi => ?_, execVperm_plain ty pr ha hb hd⟩,
    ⟨_, fun i hi => ?_, execVins_plain ty hg hh hd⟩, ⟨_, fun i hi => ?_, execVrot_plain ty ha hg hd⟩, ⟨_, fun i hi => ?_, execVcompress_plain ty p ha hd⟩,
    ⟨_, fun i hi => ?_, execVexpand_plain ty p ha hd⟩⟩
  · exact elem_ofElems_range hi (by split <;> exact elem_lt _ _ _)
  · exact elem_ofElems_range hi (by split <;> [exact Nat.mod_lt _ (Nat.two_pow_pos _); exact elem_lt _ _ _])
  · exact elem_ofElems_range hi (by split <;> exact elem_lt _ _ _)
  · exact elem_ofElems_range hi (by split <;> [exact Nat.mod_lt _ (Nat.two_pow_pos _); exact elem_lt _ _ _])
  · exact elem_ofElems_range hi (elem_lt _ _ _)
  · exact elem_ofElems_map hi (elem_lt _ _)
  · rw [elem_ofElems _ hi, spread_getElem? _ _ 0 0 hi]
    simp only [Nat.zero_add, Option.getD_some]
    exact Nat.mod_eq_of_lt (by split <;> [exact elem_lt _ _ _; exact Nat.two_pow_pos _])

end
